-- ==== Sys2Proof/Word.lean ====
section
/-!
DEFINITION. The word types of the machine. R2: values are little-endian and bits are numbered from 0.
-/

namespace Sys2Proof

/-- A byte of memory. -/
abbrev Byte := BitVec 8

/-- A 32-bit register value, one lane of a V register (R114). -/
abbrev W32 := BitVec 32

/-- A 64-bit register value: an S register, a lane mask, a pair (R5, R114). -/
abbrev W64 := BitVec 64

/-- A set of lanes of one group: bit L is lane L (R5). -/
abbrev Mask := BitVec 64

end Sys2Proof
end

