-- ==== Sys2Proof/Config.lean ====
section
/-!
DEFINITION. What an implementation fixes and what the spec leaves open. The opaque constants have no
body: no statement can rest on one of their values (notes/assumptions). The constants with a body are the
counts and layouts that R8 to R10 fix.
-/

namespace Sys2Proof.Config

/-- Dies, clusters of a die, cores of a cluster, stacks of a die, ports of a die (R8). -/
def dieCount : Nat := 4
def coreCount : Nat := 1024
def engineCount : Nat := 256

/-- The size of a die's physical range and the end of device memory (R10). -/
def diePhys : Nat := 0x2400000000
def physEnd : Nat := 0x9000000000

/-- The end of the virtual space (R208). -/
def virtEnd : Nat := 2 ^ 57

/-- Whether the n-th free choice of a run is taken: which of two outcomes that the spec allows comes about,
where it says no more (R16, R228: whether a load is served by a held L1 line). FREE. -/
opaque freeBit : Nat → Bool

/-- The n-th free choice of a run among several things, as a number of which the remainder counts: which line leaves a full
L1 (R198). FREE. -/
opaque freePick : Nat → Nat

/-- Where the monotonic result of EX2, LG2, SIN, COS or TANH steps up (R73, R74, R163): for the operation, FTZ, and the
first bits of a result (how many are still to come, and those bits), the least operand, in the order of values, whose
result has a one for its next bit. Every monotonic function is given by some such table. FREE. -/
opaque specialCut : Nat → Bool → Nat → Nat → Int

/-- The result of SIN and COS where the spec states no monotonicity, and the sign of a zero that they give: which of the
values that the bounds allow. It depends only on the operation, the operand bits and FTZ (R163). FREE. -/
opaque specialChoice : Nat → W32 → Bool → Nat

/-- What CVTW gives for a Q4O element beyond FP32's largest value, whose exact value FP32 does not hold (R162 states no
result): of the block's header, its byte, and the slot of the byte. FREE. -/
opaque wideBeyond : Nat → Nat → Nat → W32

/-- The management key of slot 0, which the key engine makes at bring-up (R211, R420). FREE. -/
opaque managementKey : BitVec 512

/-- Where rows lie (R404): the row, by its stack, bank and number, that a physical byte is in, as `rowKey` numbers rows. FREE. -/
opaque rowOf : Nat → Nat

/-- The 4 KiB frames that lie in a row, as `rowKey` numbers rows (R404). FREE. -/
opaque rowFrames : Nat → List Nat

/-- What the device takes for a descriptor's word at a physical address of which a byte is poisoned: poison is never read as a value
(R392), and the spec names no other outcome. FREE. -/
opaque poisonedWord : Nat → Nat

/-- Where a bobbin's firmware puts a fault record, by its context and SEQ, in host memory for the host to act on it, if it
forwards that record at all (R294, R410). FREE. -/
opaque forwardTo : Nat → Nat → Option Nat

end Sys2Proof.Config
end

