-- ==== Sys2Proof/Syntax.lean ====
section
/-!
DEFINITION. Syntax of the Glijan Idette GJ5-I4: one constructor of `Instr` for each row of
spec/opcode_table.json. The rows of classes 0 to 9 are instruction words (R99 to R108), PAIR_WORD is
the pair word of R106, and the other rows are the device's indivisible steps: events of its agents,
packets of its queues and commands of its host (95_what_each_step_holds.md).
-/

namespace Sys2Proof

/-- A register field that names a V register (R102): a direct number, or an index register and a base. -/
inductive VField where
  | dir (n : BitVec 7)
  | idx (xi : BitVec 2) (base : BitVec 5)
  deriving DecidableEq, Repr

/-- An operand as its register field names it (R102, R104): the kind is fixed by the instruction's
entry and, where the entry allows several kinds, by its kind bits. `tl` is WAITC's third count,
which stands in the C field (R382). -/
inductive Opd where
  | none
  | v (f : VField)
  | s (n : BitVec 6)
  | x (n : BitVec 2)
  | p (n : BitVec 3)
  | k (n : BitVec 4)
  | bar (n : BitVec 7)
  | tl (n : BitVec 6)
  deriving DecidableEq, Repr

/-- The guard predicate of an instruction word (R82, R100). -/
structure Guard where
  gi : BitVec 3
  gn : Bool
  deriving DecidableEq, Repr

/-- The guard of an unguarded instruction (R82, R101): P7, not negated. -/
def Guard.none : Guard := ⟨7, false⟩

/-- What an instruction word holds beside its opcode and its length (R100): the guard, the four
register fields, the MOD field (instruction bits 63:48, read through the accessors of
Machine/Operands.lean) and the immediate. `imm` is IMM32 or IMM64 zero-extended; in the 64-bit form
of an instruction with a 16-bit offset (R239) it is that offset, sign-extended to 32 bits. -/
structure Ops where
  g : Guard
  d : Opd
  a : Opd
  b : Opd
  c : Opd
  m : BitVec 16
  imm : BitVec 64
  deriving DecidableEq, Repr

/-- The 152 opcodes of R108, in opcode order. -/
inductive Op where
  | mov | movi | movw | iadd | isub | iaddc | isubb | iadds | imul | imulh | imad | imadw
  | imin | imax | iabs | ineg | icmp | isel | shl | shr | sar | rotl | andL | orL
  | xorL | andn | notL | bmux | popc | clz | ctz | brev | bfx | bfi | bsr | bsrld
  | idot4 | lea | fadd | fsub | fmul | ffma | fmin | fmax | fcmp | fclass | frnd | fscale
  | hadd2 | hmul2 | hfma2 | cvti | cvtf | cvtn | cvtw | rcp | rsq | sqrt | ex2 | lg2
  | sin | cos | tanh | rng | seed | shfl | vote | qred | gred | gshuf | bcast | bra
  | brx | call | ret | join | exit | elect | pmov | pmux | region | trap | tret | yield
  | nop | bkpt | setrm | getsr | setsr | spawn | sleepm | ld | st | ldl | stl | ldb
  | stb | ldx | stx | ldu | stu | atom | lr | sc | fence | acq | rel | acqr
  | carve | pref | mma | mmax | mms | czero | drain | kzero | kld | kst | klop | kset
  | bxpose | cpy | cpyg | cpyv | crwait | thnew | thacq | threl | thsplit | thfree | thqry | thbnd
  | seam | unpick | isld | isst | settle | wake | pbar | stepc | islq | sqopen | sqsig | skld
  | skst | sqclose | waitc | closeb | waitb | bar | barset | cntrd
  deriving DecidableEq, Repr

/-- The 10-bit opcode of each mnemonic (R108). -/
def Op.code : Op → Nat
  | .mov => 0x1
  | .movi => 0x2
  | .movw => 0x3
  | .iadd => 0x4
  | .isub => 0x5
  | .iaddc => 0x6
  | .isubb => 0x7
  | .iadds => 0x8
  | .imul => 0x9
  | .imulh => 0xa
  | .imad => 0xb
  | .imadw => 0xc
  | .imin => 0xd
  | .imax => 0xe
  | .iabs => 0xf
  | .ineg => 0x10
  | .icmp => 0x11
  | .isel => 0x12
  | .shl => 0x13
  | .shr => 0x14
  | .sar => 0x15
  | .rotl => 0x16
  | .andL => 0x17
  | .orL => 0x18
  | .xorL => 0x19
  | .andn => 0x1a
  | .notL => 0x1b
  | .bmux => 0x1c
  | .popc => 0x1d
  | .clz => 0x1e
  | .ctz => 0x1f
  | .brev => 0x20
  | .bfx => 0x21
  | .bfi => 0x22
  | .bsr => 0x23
  | .bsrld => 0x24
  | .idot4 => 0x25
  | .lea => 0x26
  | .fadd => 0x41
  | .fsub => 0x42
  | .fmul => 0x43
  | .ffma => 0x44
  | .fmin => 0x45
  | .fmax => 0x46
  | .fcmp => 0x47
  | .fclass => 0x48
  | .frnd => 0x49
  | .fscale => 0x4a
  | .hadd2 => 0x4b
  | .hmul2 => 0x4c
  | .hfma2 => 0x4d
  | .cvti => 0x4e
  | .cvtf => 0x4f
  | .cvtn => 0x50
  | .cvtw => 0x51
  | .rcp => 0x52
  | .rsq => 0x53
  | .sqrt => 0x54
  | .ex2 => 0x55
  | .lg2 => 0x56
  | .sin => 0x57
  | .cos => 0x58
  | .tanh => 0x59
  | .rng => 0x5a
  | .seed => 0x5b
  | .shfl => 0x5c
  | .vote => 0x5d
  | .qred => 0x5e
  | .gred => 0x5f
  | .gshuf => 0x60
  | .bcast => 0x61
  | .bra => 0x81
  | .brx => 0x82
  | .call => 0x83
  | .ret => 0x84
  | .join => 0x85
  | .exit => 0x86
  | .elect => 0x87
  | .pmov => 0x88
  | .pmux => 0x89
  | .region => 0x8a
  | .trap => 0x8b
  | .tret => 0x8c
  | .yield => 0x8d
  | .nop => 0x8e
  | .bkpt => 0x8f
  | .setrm => 0x90
  | .getsr => 0x91
  | .setsr => 0x92
  | .spawn => 0x93
  | .sleepm => 0x94
  | .ld => 0xc1
  | .st => 0xc2
  | .ldl => 0xc3
  | .stl => 0xc4
  | .ldb => 0xc5
  | .stb => 0xc6
  | .ldx => 0xc7
  | .stx => 0xc8
  | .ldu => 0xc9
  | .stu => 0xca
  | .atom => 0xcb
  | .lr => 0xcc
  | .sc => 0xcd
  | .fence => 0xce
  | .acq => 0xcf
  | .rel => 0xd0
  | .acqr => 0xd1
  | .carve => 0xd2
  | .pref => 0xd3
  | .mma => 0x101
  | .mmax => 0x102
  | .mms => 0x103
  | .czero => 0x104
  | .drain => 0x105
  | .kzero => 0x106
  | .kld => 0x107
  | .kst => 0x108
  | .klop => 0x109
  | .kset => 0x10a
  | .bxpose => 0x10b
  | .cpy => 0x141
  | .cpyg => 0x142
  | .cpyv => 0x143
  | .crwait => 0x144
  | .thnew => 0x181
  | .thacq => 0x182
  | .threl => 0x183
  | .thsplit => 0x184
  | .thfree => 0x185
  | .thqry => 0x186
  | .thbnd => 0x187
  | .seam => 0x1c1
  | .unpick => 0x1c2
  | .isld => 0x1c3
  | .isst => 0x1c4
  | .settle => 0x1c5
  | .wake => 0x1c6
  | .pbar => 0x1c7
  | .stepc => 0x1c8
  | .islq => 0x1c9
  | .sqopen => 0x201
  | .sqsig => 0x202
  | .skld => 0x203
  | .skst => 0x204
  | .sqclose => 0x205
  | .waitc => 0x241
  | .closeb => 0x242
  | .waitb => 0x243
  | .bar => 0x244
  | .barset => 0x245
  | .cntrd => 0x246

/-- The opcodes of class 0 in order; index 0 of a class is unassigned (R108). -/
def Op.class0 : List Op :=
  [Op.mov, Op.movi, Op.movw, Op.iadd, Op.isub, Op.iaddc, Op.isubb, Op.iadds, Op.imul, Op.imulh,
   Op.imad, Op.imadw, Op.imin, Op.imax, Op.iabs, Op.ineg, Op.icmp, Op.isel, Op.shl, Op.shr,
   Op.sar, Op.rotl, Op.andL, Op.orL, Op.xorL, Op.andn, Op.notL, Op.bmux, Op.popc, Op.clz,
   Op.ctz, Op.brev, Op.bfx, Op.bfi, Op.bsr, Op.bsrld, Op.idot4, Op.lea]

/-- The opcodes of class 1 in order; index 0 of a class is unassigned (R108). -/
def Op.class1 : List Op :=
  [Op.fadd, Op.fsub, Op.fmul, Op.ffma, Op.fmin, Op.fmax, Op.fcmp, Op.fclass, Op.frnd, Op.fscale,
   Op.hadd2, Op.hmul2, Op.hfma2, Op.cvti, Op.cvtf, Op.cvtn, Op.cvtw, Op.rcp, Op.rsq, Op.sqrt,
   Op.ex2, Op.lg2, Op.sin, Op.cos, Op.tanh, Op.rng, Op.seed, Op.shfl, Op.vote, Op.qred,
   Op.gred, Op.gshuf, Op.bcast]

/-- The opcodes of class 2 in order; index 0 of a class is unassigned (R108). -/
def Op.class2 : List Op :=
  [Op.bra, Op.brx, Op.call, Op.ret, Op.join, Op.exit, Op.elect, Op.pmov, Op.pmux, Op.region,
   Op.trap, Op.tret, Op.yield, Op.nop, Op.bkpt, Op.setrm, Op.getsr, Op.setsr, Op.spawn, Op.sleepm]

/-- The opcodes of class 3 in order; index 0 of a class is unassigned (R108). -/
def Op.class3 : List Op :=
  [Op.ld, Op.st, Op.ldl, Op.stl, Op.ldb, Op.stb, Op.ldx, Op.stx, Op.ldu, Op.stu,
   Op.atom, Op.lr, Op.sc, Op.fence, Op.acq, Op.rel, Op.acqr, Op.carve, Op.pref]

/-- The opcodes of class 4 in order; index 0 of a class is unassigned (R108). -/
def Op.class4 : List Op :=
  [Op.mma, Op.mmax, Op.mms, Op.czero, Op.drain, Op.kzero, Op.kld, Op.kst, Op.klop, Op.kset,
   Op.bxpose]

/-- The opcodes of class 5 in order; index 0 of a class is unassigned (R108). -/
def Op.class5 : List Op :=
  [Op.cpy, Op.cpyg, Op.cpyv, Op.crwait]

/-- The opcodes of class 6 in order; index 0 of a class is unassigned (R108). -/
def Op.class6 : List Op :=
  [Op.thnew, Op.thacq, Op.threl, Op.thsplit, Op.thfree, Op.thqry, Op.thbnd]

/-- The opcodes of class 7 in order; index 0 of a class is unassigned (R108). -/
def Op.class7 : List Op :=
  [Op.seam, Op.unpick, Op.isld, Op.isst, Op.settle, Op.wake, Op.pbar, Op.stepc, Op.islq]

/-- The opcodes of class 8 in order; index 0 of a class is unassigned (R108). -/
def Op.class8 : List Op :=
  [Op.sqopen, Op.sqsig, Op.skld, Op.skst, Op.sqclose]

/-- The opcodes of class 9 in order; index 0 of a class is unassigned (R108). -/
def Op.class9 : List Op :=
  [Op.waitc, Op.closeb, Op.waitb, Op.bar, Op.barset, Op.cntrd]

/-- The assigned opcodes of each class (R108). -/
def Op.classes : List (List Op) :=
  [Op.class0, Op.class1, Op.class2, Op.class3, Op.class4, Op.class5, Op.class6, Op.class7, Op.class8,
   Op.class9]

/-- The operation of a 10-bit opcode, when it is assigned (R108). -/
def Op.ofCode (n : Nat) : Option Op :=
  match n % 64 with
  | 0 => none
  | k + 1 => ((Op.classes[n / 64]?).getD [])[k]?


/-- A half of a pair word (R106): a class 0 or class 1 operation in its 64-bit form. -/
structure Half where
  op : Op
  o : Ops
  deriving DecidableEq, Repr

/-- Why the issue of an encoding faults (R110, R111). -/
inductive IllKind where
  /-- Not an instruction (R111): its first two parcels. -/
  | illegal (p0 p1 : BitVec 32)
  /-- Not inside one fetch block (R110): PC mod 32 and the length read from LEN. -/
  | boundary (pcMod len : Nat)
  deriving DecidableEq, Repr

/-- A party whose failure can be declared (R406). -/
inductive Agent where
  | core (n : Nat)
  | die (d : Nat)
  | peer (n : Nat)
  | host
  deriving DecidableEq, Repr

/-- Where an uncorrectable error lies (R392). -/
inductive ErrLoc where
  /-- HBM or L2: `n` bytes from a physical address. -/
  | memory (pa n : Nat)
  /-- Local store scratch of a core. -/
  | scratch (core off n : Nat)
  /-- A typed buffer of a core, by its space code (R237). -/
  | buffer (core spc off n : Nat)
  /-- Latches, clean L1 lines, TLB entries, region store buffer: state that re-execution rebuilds. -/
  | rebuildable (gid : Nat)
  /-- One lane of a V register of a group. -/
  | vlane (gid reg lane : Nat)
  /-- A group's S, X, P, K, RMR, GSR, D, PM, trap stack or control state. -/
  | groupState (gid : Nat)
  /-- A handle (0), sequencer (1) or island, world, body map or edge (2) entry of a context. -/
  | table (ctx tbl idx : Nat)
  /-- A directory's tenure entry, by its position. -/
  | tenure (id : Nat)
  /-- A directory's reservation entry, by its position. -/
  | reservation (id : Nat)
  /-- Firmware and management memories of a die. -/
  | firmware (die : Nat)
  deriving DecidableEq, Repr

/-- What a flit bears beside its line: whether errors of it have been corrected (R381), its link-state number (R405) and its
sender's incarnation (R407). -/
structure FlitHead where
  corrected : Bool
  lsn : BitVec 16
  inc : BitVec 8
  deriving DecidableEq, Repr

/-- Where a corrected error lies (R381, R404). -/
inductive CorrLoc where
  | core (n : Nat)
  | row (stack bank row : Nat) (frames : List Nat)
  deriving DecidableEq, Repr

/-- The instructions, events, packets and commands of the machine: one constructor for each row of
spec/opcode_table.json: the instruction words in the table's order, then what comes from outside the model's
one order of events, then the machine's own events. An instruction word carries its fields; an event says
which agent, group, core, engine, queue, context or world it happens to. -/
inductive Instr where
  | mov (o : Ops)
  | movi (o : Ops)
  | movw (o : Ops)
  | iadd (o : Ops)
  | iaddImm (o : Ops)
  | isub (o : Ops)
  | isubImm (o : Ops)
  | iaddc (o : Ops)
  | iaddcImm (o : Ops)
  | isubb (o : Ops)
  | isubbImm (o : Ops)
  | iadds (o : Ops)
  | iaddsImm (o : Ops)
  | imul (o : Ops)
  | imulImm (o : Ops)
  | imulh (o : Ops)
  | imulhImm (o : Ops)
  | imad (o : Ops)
  | imadImm (o : Ops)
  | imadw (o : Ops)
  | imadwImm (o : Ops)
  | imin (o : Ops)
  | iminImm (o : Ops)
  | imax (o : Ops)
  | imaxImm (o : Ops)
  | iabs (o : Ops)
  | ineg (o : Ops)
  | icmp (o : Ops)
  | icmpImm (o : Ops)
  | isel (o : Ops)
  | iselImm (o : Ops)
  | shl (o : Ops)
  | shlImm (o : Ops)
  | shr (o : Ops)
  | shrImm (o : Ops)
  | sar (o : Ops)
  | sarImm (o : Ops)
  | rotl (o : Ops)
  | rotlImm (o : Ops)
  | andL (o : Ops)
  | andImm (o : Ops)
  | orL (o : Ops)
  | orImm (o : Ops)
  | xorL (o : Ops)
  | xorImm (o : Ops)
  | andn (o : Ops)
  | andnImm (o : Ops)
  | notL (o : Ops)
  | bmux (o : Ops)
  | bmuxImm (o : Ops)
  | popc (o : Ops)
  | clz (o : Ops)
  | ctz (o : Ops)
  | brev (o : Ops)
  | bfx (o : Ops)
  | bfxImm (o : Ops)
  | bfi (o : Ops)
  | bfiImm (o : Ops)
  | bsr (o : Ops)
  | bsrld (o : Ops)
  | idot4 (o : Ops)
  | lea (o : Ops)
  | leaImm (o : Ops)
  | fadd (o : Ops)
  | faddImm (o : Ops)
  | fsub (o : Ops)
  | fsubImm (o : Ops)
  | fmul (o : Ops)
  | fmulImm (o : Ops)
  | ffma (o : Ops)
  | ffmaImm (o : Ops)
  | fmin (o : Ops)
  | fminImm (o : Ops)
  | fmax (o : Ops)
  | fmaxImm (o : Ops)
  | fcmp (o : Ops)
  | fcmpImm (o : Ops)
  | fclass (o : Ops)
  | frnd (o : Ops)
  | fscale (o : Ops)
  | fscaleImm (o : Ops)
  | hadd2 (o : Ops)
  | hadd2Imm (o : Ops)
  | hmul2 (o : Ops)
  | hmul2Imm (o : Ops)
  | hfma2 (o : Ops)
  | hfma2Imm (o : Ops)
  | cvti (o : Ops)
  | cvtf (o : Ops)
  | cvtn (o : Ops)
  | cvtw (o : Ops)
  | rcp (o : Ops)
  | rsq (o : Ops)
  | sqrt (o : Ops)
  | ex2 (o : Ops)
  | lg2 (o : Ops)
  | sin (o : Ops)
  | cos (o : Ops)
  | tanh (o : Ops)
  | rng (o : Ops)
  | seed (o : Ops)
  | seedImm (o : Ops)
  | shfl (o : Ops)
  | shflImm (o : Ops)
  | vote (o : Ops)
  | qred (o : Ops)
  | gred (o : Ops)
  | gredTeam (o : Ops)
  | gshuf (o : Ops)
  | bcast (o : Ops)
  | bra (o : Ops)
  | brx (o : Ops)
  | call (o : Ops)
  | ret (o : Ops)
  | join (o : Ops)
  | exit (o : Ops)
  | elect (o : Ops)
  | pmov (o : Ops)
  | pmux (o : Ops)
  | region (o : Ops)
  | trap (o : Ops)
  | tret (o : Ops)
  | yield (o : Ops)
  | nop (o : Ops)
  | nop96 (o : Ops)
  | nop128 (o : Ops)
  | bkpt (o : Ops)
  | setrm (o : Ops)
  | getsr (o : Ops)
  | setsr (o : Ops)
  | spawn (o : Ops)
  | sleepm (o : Ops)
  | ld (o : Ops)
  | ldImm (o : Ops)
  | st (o : Ops)
  | stImm (o : Ops)
  | ldl (o : Ops)
  | ldlImm (o : Ops)
  | stl (o : Ops)
  | stlImm (o : Ops)
  | ldb (o : Ops)
  | ldbImm (o : Ops)
  | stb (o : Ops)
  | stbImm (o : Ops)
  | ldx (o : Ops)
  | stx (o : Ops)
  | ldu (o : Ops)
  | lduImm (o : Ops)
  | stu (o : Ops)
  | stuImm (o : Ops)
  | atom (o : Ops)
  | lr (o : Ops)
  | sc (o : Ops)
  | fence (o : Ops)
  | acq (o : Ops)
  | rel (o : Ops)
  | acqr (o : Ops)
  | carve (o : Ops)
  | pref (o : Ops)
  | prefImm (o : Ops)
  | mma (o : Ops)
  | mmax (o : Ops)
  | mms (o : Ops)
  | czero (o : Ops)
  | drain (o : Ops)
  | drainImm (o : Ops)
  | kzero (o : Ops)
  | kld (o : Ops)
  | kldImm (o : Ops)
  | kst (o : Ops)
  | kstImm (o : Ops)
  | klop (o : Ops)
  | kset (o : Ops)
  | bxpose (o : Ops)
  | cpy (o : Ops)
  | cpyg (o : Ops)
  | cpyv (o : Ops)
  | crwait (o : Ops)
  | thnew (o : Ops)
  | thacq (o : Ops)
  | threl (o : Ops)
  | thsplit (o : Ops)
  | thfree (o : Ops)
  | thqry (o : Ops)
  | thbnd (o : Ops)
  | seam (o : Ops)
  | unpick (o : Ops)
  | isld (o : Ops)
  | isst (o : Ops)
  | settle (o : Ops)
  | wake (o : Ops)
  | pbar (o : Ops)
  | stepc (o : Ops)
  | islq (o : Ops)
  | sqopen (o : Ops)
  | sqsig (o : Ops)
  | skld (o : Ops)
  | skst (o : Ops)
  | sqclose (o : Ops)
  | waitc (o : Ops)
  | closeb (o : Ops)
  | waitb (o : Ops)
  | bar (o : Ops)
  | barset (o : Ops)
  | barsetImm (o : Ops)
  | cntrd (o : Ops)
  | pairWord (h0 h1 : Half)
  | illegalInstruction (k : IllKind)
  | instructionFetchMiss (gid pc : Nat)
  | faultRetry (ctx slot : Nat)
  | faultDeny (ctx slot : Nat)
  | recoverableError (gid : Nat)
  | uncorrectableError (loc : ErrLoc)
  | issueCycle (die : Nat)
  | syscallReply (ctx slot : Nat)
  | bkptResume (gid : Nat)
  | queueDoorbell (q : Nat)
  | quadSpare (core : Nat)
  | coreRetirement (core : Nat)
  | engineRetirement (isCopy failed : Bool) (engine : Nat)
  | rowSpare (stack bank row : Nat)
  | fabricLaneSpare (port replayed : Nat)
  | linkDead (port : Nat)
  | linkStateUpdate (port lsn : Nat)
  | failureDeclaration (agent : Agent)
  | agentRejoin (agent : Agent)
  | diePowerLoss (die : Nat)
  | thermalTrip (die : Nat)
  | powerRestored (die : Nat)
  | powerCapThrottle (die divisor : Nat)
  | dieReset (die : Nat)
  | selfTestComplete (bit : Nat)
  | linkTraining (bit : Nat) (up : Bool) (peer : BitVec 32)
  | hostMemRead (pa : Nat)
  | hostMemWrite (pa : Nat) (bytes : List (BitVec 8))
  | backInvalidate (half : Nat) (dirty : List (Nat × BitVec 8))
  | peerFlit (port pa : Nat) (bytes : List (BitVec 8 × Bool)) (head : FlitHead)
  | keyld (key : BitVec 512)
  | hostRegisterWrite (off : Nat) (value : BitVec 64)
  | correctedError (loc : CorrLoc)
  | firmwareError (die : Nat)
  | loadDataLands (gid op : Nat)
  | storeAcknowledged (core pos : Nat)
  | walkComplete (walk : Nat)
  | regionDiscard (gid : Nat)
  | invalidationTimeout (gid : Nat)
  | boundaryIssue (gid : Nat)
  | groupEviction (gid : Nat)
  | groupResume (gid : Nat)
  | groupDrained (gid : Nat)
  | matrixGrant (engine : Nat)
  | kstepBoundary (engine : Nat)
  | requestAgeing (engine : Nat)
  | passComplete (engine op : Nat)
  | drainComplete (engine op : Nat)
  | copyStart (engine : Nat)
  | copyCompletionRecord (engine copy : Nat)
  | copyRingSlotWait (engine copy : Nat)
  | signatureDelivery (copy : Nat)
  | sleepmReread (gid sleeper : Nat)
  | sleepmTimeout (gid sleeper : Nat)
  | crwaitReread (gid sleeper : Nat)
  | crwaitTimeout (gid sleeper : Nat)
  | waitbTimeout (gid sleeper : Nat)
  | thacqGrant (req : Nat)
  | thacqTimeout (req : Nat)
  | syscallRingSlotFree (gid : Nat)
  | queueAgeing (q : Nat)
  | queueReplacement (q : Nat)
  | nopk (q n : Nat)
  | launch (q n : Nat)
  | barrier (q n : Nat)
  | signal (q n : Nat)
  | copy (q n engine : Nat)
  | barrierSignalRead (q n : Nat)
  | packetRetire (q n : Nat)
  | engineHalt (ctx core : Nat)
  | stopCompletion (ctx : Nat)
  | stepClose (world : Nat)
  | gangStaging (team : Nat)
  | gangWriteback (team : Nat)
  | stepsigStore (world : Nat)
  | drainRound (port : Nat)
  | xferJobComplete (slot : Nat)
  | ckptJobComplete (slot : Nat)
  | teamPlacementTry
  | queueArbitration
  | quantumEnd
  | stopLineRaise
  | ctxen
  | ctxrel
  | ctxstop
  | inval
  | invalComplete
  | keyclr
  | wopen
  | wclose
  | wcloseComplete
  | setq
  | clrerr
  | setthr
  | retire
  | summary
  | bbread
  | xfer
  | ckpt
  | pwrcap
  | unknownCommand
  | commandOverrun
  | standbyPowerLoss
  deriving DecidableEq, Repr

/-- The length of an instruction word (R99). -/
inductive Len where
  | w64 | w96 | w128
  deriving DecidableEq, Repr

/-- The length in bytes (R99). -/
def Len.bytes : Len → Nat
  | .w64 => 8
  | .w96 => 12
  | .w128 => 16

/-- The opcode, length and fields of an instruction word; `none` for a pair word and for an event. -/
def Instr.word? : Instr → Option (Op × Len × Ops)
  | .mov o => some (.mov, .w64, o)
  | .movi o => some (.movi, .w96, o)
  | .movw o => some (.movw, .w128, o)
  | .iadd o => some (.iadd, .w64, o)
  | .iaddImm o => some (.iadd, .w96, o)
  | .isub o => some (.isub, .w64, o)
  | .isubImm o => some (.isub, .w96, o)
  | .iaddc o => some (.iaddc, .w64, o)
  | .iaddcImm o => some (.iaddc, .w96, o)
  | .isubb o => some (.isubb, .w64, o)
  | .isubbImm o => some (.isubb, .w96, o)
  | .iadds o => some (.iadds, .w64, o)
  | .iaddsImm o => some (.iadds, .w96, o)
  | .imul o => some (.imul, .w64, o)
  | .imulImm o => some (.imul, .w96, o)
  | .imulh o => some (.imulh, .w64, o)
  | .imulhImm o => some (.imulh, .w96, o)
  | .imad o => some (.imad, .w64, o)
  | .imadImm o => some (.imad, .w96, o)
  | .imadw o => some (.imadw, .w64, o)
  | .imadwImm o => some (.imadw, .w96, o)
  | .imin o => some (.imin, .w64, o)
  | .iminImm o => some (.imin, .w96, o)
  | .imax o => some (.imax, .w64, o)
  | .imaxImm o => some (.imax, .w96, o)
  | .iabs o => some (.iabs, .w64, o)
  | .ineg o => some (.ineg, .w64, o)
  | .icmp o => some (.icmp, .w64, o)
  | .icmpImm o => some (.icmp, .w96, o)
  | .isel o => some (.isel, .w64, o)
  | .iselImm o => some (.isel, .w96, o)
  | .shl o => some (.shl, .w64, o)
  | .shlImm o => some (.shl, .w96, o)
  | .shr o => some (.shr, .w64, o)
  | .shrImm o => some (.shr, .w96, o)
  | .sar o => some (.sar, .w64, o)
  | .sarImm o => some (.sar, .w96, o)
  | .rotl o => some (.rotl, .w64, o)
  | .rotlImm o => some (.rotl, .w96, o)
  | .andL o => some (.andL, .w64, o)
  | .andImm o => some (.andL, .w96, o)
  | .orL o => some (.orL, .w64, o)
  | .orImm o => some (.orL, .w96, o)
  | .xorL o => some (.xorL, .w64, o)
  | .xorImm o => some (.xorL, .w96, o)
  | .andn o => some (.andn, .w64, o)
  | .andnImm o => some (.andn, .w96, o)
  | .notL o => some (.notL, .w64, o)
  | .bmux o => some (.bmux, .w64, o)
  | .bmuxImm o => some (.bmux, .w96, o)
  | .popc o => some (.popc, .w64, o)
  | .clz o => some (.clz, .w64, o)
  | .ctz o => some (.ctz, .w64, o)
  | .brev o => some (.brev, .w64, o)
  | .bfx o => some (.bfx, .w64, o)
  | .bfxImm o => some (.bfx, .w96, o)
  | .bfi o => some (.bfi, .w64, o)
  | .bfiImm o => some (.bfi, .w96, o)
  | .bsr o => some (.bsr, .w64, o)
  | .bsrld o => some (.bsrld, .w64, o)
  | .idot4 o => some (.idot4, .w64, o)
  | .lea o => some (.lea, .w64, o)
  | .leaImm o => some (.lea, .w96, o)
  | .fadd o => some (.fadd, .w64, o)
  | .faddImm o => some (.fadd, .w96, o)
  | .fsub o => some (.fsub, .w64, o)
  | .fsubImm o => some (.fsub, .w96, o)
  | .fmul o => some (.fmul, .w64, o)
  | .fmulImm o => some (.fmul, .w96, o)
  | .ffma o => some (.ffma, .w64, o)
  | .ffmaImm o => some (.ffma, .w96, o)
  | .fmin o => some (.fmin, .w64, o)
  | .fminImm o => some (.fmin, .w96, o)
  | .fmax o => some (.fmax, .w64, o)
  | .fmaxImm o => some (.fmax, .w96, o)
  | .fcmp o => some (.fcmp, .w64, o)
  | .fcmpImm o => some (.fcmp, .w96, o)
  | .fclass o => some (.fclass, .w64, o)
  | .frnd o => some (.frnd, .w64, o)
  | .fscale o => some (.fscale, .w64, o)
  | .fscaleImm o => some (.fscale, .w96, o)
  | .hadd2 o => some (.hadd2, .w64, o)
  | .hadd2Imm o => some (.hadd2, .w96, o)
  | .hmul2 o => some (.hmul2, .w64, o)
  | .hmul2Imm o => some (.hmul2, .w96, o)
  | .hfma2 o => some (.hfma2, .w64, o)
  | .hfma2Imm o => some (.hfma2, .w96, o)
  | .cvti o => some (.cvti, .w64, o)
  | .cvtf o => some (.cvtf, .w64, o)
  | .cvtn o => some (.cvtn, .w64, o)
  | .cvtw o => some (.cvtw, .w64, o)
  | .rcp o => some (.rcp, .w64, o)
  | .rsq o => some (.rsq, .w64, o)
  | .sqrt o => some (.sqrt, .w64, o)
  | .ex2 o => some (.ex2, .w64, o)
  | .lg2 o => some (.lg2, .w64, o)
  | .sin o => some (.sin, .w64, o)
  | .cos o => some (.cos, .w64, o)
  | .tanh o => some (.tanh, .w64, o)
  | .rng o => some (.rng, .w64, o)
  | .seed o => some (.seed, .w64, o)
  | .seedImm o => some (.seed, .w96, o)
  | .shfl o => some (.shfl, .w64, o)
  | .shflImm o => some (.shfl, .w96, o)
  | .vote o => some (.vote, .w64, o)
  | .qred o => some (.qred, .w64, o)
  | .gred o => some (.gred, .w64, o)
  | .gredTeam o => some (.gred, .w64, o)
  | .gshuf o => some (.gshuf, .w64, o)
  | .bcast o => some (.bcast, .w64, o)
  | .bra o => some (.bra, .w96, o)
  | .brx o => some (.brx, .w64, o)
  | .call o => some (.call, .w96, o)
  | .ret o => some (.ret, .w64, o)
  | .join o => some (.join, .w64, o)
  | .exit o => some (.exit, .w64, o)
  | .elect o => some (.elect, .w64, o)
  | .pmov o => some (.pmov, .w64, o)
  | .pmux o => some (.pmux, .w64, o)
  | .region o => some (.region, .w64, o)
  | .trap o => some (.trap, .w64, o)
  | .tret o => some (.tret, .w64, o)
  | .yield o => some (.yield, .w64, o)
  | .nop o => some (.nop, .w64, o)
  | .nop96 o => some (.nop, .w96, o)
  | .nop128 o => some (.nop, .w128, o)
  | .bkpt o => some (.bkpt, .w64, o)
  | .setrm o => some (.setrm, .w64, o)
  | .getsr o => some (.getsr, .w64, o)
  | .setsr o => some (.setsr, .w64, o)
  | .spawn o => some (.spawn, .w96, o)
  | .sleepm o => some (.sleepm, .w64, o)
  | .ld o => some (.ld, .w64, o)
  | .ldImm o => some (.ld, .w96, o)
  | .st o => some (.st, .w64, o)
  | .stImm o => some (.st, .w96, o)
  | .ldl o => some (.ldl, .w64, o)
  | .ldlImm o => some (.ldl, .w96, o)
  | .stl o => some (.stl, .w64, o)
  | .stlImm o => some (.stl, .w96, o)
  | .ldb o => some (.ldb, .w64, o)
  | .ldbImm o => some (.ldb, .w96, o)
  | .stb o => some (.stb, .w64, o)
  | .stbImm o => some (.stb, .w96, o)
  | .ldx o => some (.ldx, .w64, o)
  | .stx o => some (.stx, .w64, o)
  | .ldu o => some (.ldu, .w64, o)
  | .lduImm o => some (.ldu, .w96, o)
  | .stu o => some (.stu, .w64, o)
  | .stuImm o => some (.stu, .w96, o)
  | .atom o => some (.atom, .w64, o)
  | .lr o => some (.lr, .w64, o)
  | .sc o => some (.sc, .w64, o)
  | .fence o => some (.fence, .w64, o)
  | .acq o => some (.acq, .w64, o)
  | .rel o => some (.rel, .w64, o)
  | .acqr o => some (.acqr, .w64, o)
  | .carve o => some (.carve, .w64, o)
  | .pref o => some (.pref, .w64, o)
  | .prefImm o => some (.pref, .w96, o)
  | .mma o => some (.mma, .w64, o)
  | .mmax o => some (.mmax, .w64, o)
  | .mms o => some (.mms, .w64, o)
  | .czero o => some (.czero, .w64, o)
  | .drain o => some (.drain, .w64, o)
  | .drainImm o => some (.drain, .w96, o)
  | .kzero o => some (.kzero, .w64, o)
  | .kld o => some (.kld, .w64, o)
  | .kldImm o => some (.kld, .w96, o)
  | .kst o => some (.kst, .w64, o)
  | .kstImm o => some (.kst, .w96, o)
  | .klop o => some (.klop, .w64, o)
  | .kset o => some (.kset, .w96, o)
  | .bxpose o => some (.bxpose, .w64, o)
  | .cpy o => some (.cpy, .w64, o)
  | .cpyg o => some (.cpyg, .w64, o)
  | .cpyv o => some (.cpyv, .w64, o)
  | .crwait o => some (.crwait, .w64, o)
  | .thnew o => some (.thnew, .w64, o)
  | .thacq o => some (.thacq, .w64, o)
  | .threl o => some (.threl, .w64, o)
  | .thsplit o => some (.thsplit, .w64, o)
  | .thfree o => some (.thfree, .w64, o)
  | .thqry o => some (.thqry, .w64, o)
  | .thbnd o => some (.thbnd, .w64, o)
  | .seam o => some (.seam, .w64, o)
  | .unpick o => some (.unpick, .w64, o)
  | .isld o => some (.isld, .w64, o)
  | .isst o => some (.isst, .w64, o)
  | .settle o => some (.settle, .w64, o)
  | .wake o => some (.wake, .w64, o)
  | .pbar o => some (.pbar, .w64, o)
  | .stepc o => some (.stepc, .w64, o)
  | .islq o => some (.islq, .w64, o)
  | .sqopen o => some (.sqopen, .w64, o)
  | .sqsig o => some (.sqsig, .w64, o)
  | .skld o => some (.skld, .w64, o)
  | .skst o => some (.skst, .w64, o)
  | .sqclose o => some (.sqclose, .w64, o)
  | .waitc o => some (.waitc, .w64, o)
  | .closeb o => some (.closeb, .w64, o)
  | .waitb o => some (.waitb, .w64, o)
  | .bar o => some (.bar, .w64, o)
  | .barset o => some (.barset, .w64, o)
  | .barsetImm o => some (.barset, .w96, o)
  | .cntrd o => some (.cntrd, .w64, o)
  | .pairWord _ _ => none
  | .illegalInstruction _ => none
  | .loadDataLands _ _ => none
  | .storeAcknowledged _ _ => none
  | .instructionFetchMiss _ _ => none
  | .walkComplete _ => none
  | .faultRetry _ _ => none
  | .faultDeny _ _ => none
  | .regionDiscard _ => none
  | .recoverableError _ => none
  | .uncorrectableError _ => none
  | .invalidationTimeout _ => none
  | .issueCycle _ => none
  | .boundaryIssue _ => none
  | .teamPlacementTry => none
  | .groupEviction _ => none
  | .groupResume _ => none
  | .groupDrained _ => none
  | .matrixGrant _ => none
  | .kstepBoundary _ => none
  | .requestAgeing _ => none
  | .passComplete _ _ => none
  | .drainComplete _ _ => none
  | .copyStart _ => none
  | .copyCompletionRecord _ _ => none
  | .copyRingSlotWait _ _ => none
  | .signatureDelivery _ => none
  | .sleepmReread _ _ => none
  | .sleepmTimeout _ _ => none
  | .crwaitReread _ _ => none
  | .crwaitTimeout _ _ => none
  | .waitbTimeout _ _ => none
  | .thacqGrant _ => none
  | .thacqTimeout _ => none
  | .syscallRingSlotFree _ => none
  | .syscallReply _ _ => none
  | .bkptResume _ => none
  | .queueDoorbell _ => none
  | .queueArbitration => none
  | .queueAgeing _ => none
  | .quantumEnd => none
  | .queueReplacement _ => none
  | .nopk _ _ => none
  | .launch _ _ => none
  | .barrier _ _ => none
  | .signal _ _ => none
  | .copy _ _ _ => none
  | .barrierSignalRead _ _ => none
  | .packetRetire _ _ => none
  | .stopLineRaise => none
  | .engineHalt _ _ => none
  | .stopCompletion _ => none
  | .stepClose _ => none
  | .gangStaging _ => none
  | .gangWriteback _ => none
  | .stepsigStore _ => none
  | .quadSpare _ => none
  | .coreRetirement _ => none
  | .engineRetirement _ _ _ => none
  | .rowSpare _ _ _ => none
  | .fabricLaneSpare _ _ => none
  | .linkDead _ => none
  | .linkStateUpdate _ _ => none
  | .drainRound _ => none
  | .failureDeclaration _ => none
  | .agentRejoin _ => none
  | .diePowerLoss _ => none
  | .thermalTrip _ => none
  | .powerRestored _ => none
  | .powerCapThrottle _ _ => none
  | .dieReset _ => none
  | .selfTestComplete _ => none
  | .linkTraining _ _ _ => none
  | .hostMemRead _ => none
  | .hostMemWrite _ _ => none
  | .backInvalidate _ _ => none
  | .peerFlit _ _ _ _ => none
  | .xferJobComplete _ => none
  | .ckptJobComplete _ => none
  | .ctxen => none
  | .ctxrel => none
  | .ctxstop => none
  | .inval => none
  | .invalComplete => none
  | .keyld _ => none
  | .keyclr => none
  | .wopen => none
  | .wclose => none
  | .wcloseComplete => none
  | .setq => none
  | .clrerr => none
  | .setthr => none
  | .retire => none
  | .summary => none
  | .bbread => none
  | .xfer => none
  | .ckpt => none
  | .pwrcap => none
  | .unknownCommand => none
  | .commandOverrun => none
  | .hostRegisterWrite _ _ => none
  | .correctedError _ => none
  | .firmwareError _ => none
  | .standbyPowerLoss => none

/-- The choice that a length makes among the 64-, 96- and 128-bit forms. -/
def Len.pick {α : Type} (len : Len) (x y z : α) : α :=
  match len with
  | .w64 => x
  | .w96 => y
  | .w128 => z

/-- The instruction that an opcode, a length and fields make; `none` where R108 allows no such
length. GRED with MOD bit 54 set is GRED `.team` (R149, R170). -/
def Instr.ofWord (op : Op) (len : Len) (o : Ops) : Option Instr :=
  match op with
  | .mov => len.pick (some (.mov o)) none none
  | .movi => len.pick none (some (.movi o)) none
  | .movw => len.pick none none (some (.movw o))
  | .iadd => len.pick (some (.iadd o)) (some (.iaddImm o)) none
  | .isub => len.pick (some (.isub o)) (some (.isubImm o)) none
  | .iaddc => len.pick (some (.iaddc o)) (some (.iaddcImm o)) none
  | .isubb => len.pick (some (.isubb o)) (some (.isubbImm o)) none
  | .iadds => len.pick (some (.iadds o)) (some (.iaddsImm o)) none
  | .imul => len.pick (some (.imul o)) (some (.imulImm o)) none
  | .imulh => len.pick (some (.imulh o)) (some (.imulhImm o)) none
  | .imad => len.pick (some (.imad o)) (some (.imadImm o)) none
  | .imadw => len.pick (some (.imadw o)) (some (.imadwImm o)) none
  | .imin => len.pick (some (.imin o)) (some (.iminImm o)) none
  | .imax => len.pick (some (.imax o)) (some (.imaxImm o)) none
  | .iabs => len.pick (some (.iabs o)) none none
  | .ineg => len.pick (some (.ineg o)) none none
  | .icmp => len.pick (some (.icmp o)) (some (.icmpImm o)) none
  | .isel => len.pick (some (.isel o)) (some (.iselImm o)) none
  | .shl => len.pick (some (.shl o)) (some (.shlImm o)) none
  | .shr => len.pick (some (.shr o)) (some (.shrImm o)) none
  | .sar => len.pick (some (.sar o)) (some (.sarImm o)) none
  | .rotl => len.pick (some (.rotl o)) (some (.rotlImm o)) none
  | .andL => len.pick (some (.andL o)) (some (.andImm o)) none
  | .orL => len.pick (some (.orL o)) (some (.orImm o)) none
  | .xorL => len.pick (some (.xorL o)) (some (.xorImm o)) none
  | .andn => len.pick (some (.andn o)) (some (.andnImm o)) none
  | .notL => len.pick (some (.notL o)) none none
  | .bmux => len.pick (some (.bmux o)) (some (.bmuxImm o)) none
  | .popc => len.pick (some (.popc o)) none none
  | .clz => len.pick (some (.clz o)) none none
  | .ctz => len.pick (some (.ctz o)) none none
  | .brev => len.pick (some (.brev o)) none none
  | .bfx => len.pick (some (.bfx o)) (some (.bfxImm o)) none
  | .bfi => len.pick (some (.bfi o)) (some (.bfiImm o)) none
  | .bsr => len.pick (some (.bsr o)) none none
  | .bsrld => len.pick (some (.bsrld o)) none none
  | .idot4 => len.pick (some (.idot4 o)) none none
  | .lea => len.pick (some (.lea o)) (some (.leaImm o)) none
  | .fadd => len.pick (some (.fadd o)) (some (.faddImm o)) none
  | .fsub => len.pick (some (.fsub o)) (some (.fsubImm o)) none
  | .fmul => len.pick (some (.fmul o)) (some (.fmulImm o)) none
  | .ffma => len.pick (some (.ffma o)) (some (.ffmaImm o)) none
  | .fmin => len.pick (some (.fmin o)) (some (.fminImm o)) none
  | .fmax => len.pick (some (.fmax o)) (some (.fmaxImm o)) none
  | .fcmp => len.pick (some (.fcmp o)) (some (.fcmpImm o)) none
  | .fclass => len.pick (some (.fclass o)) none none
  | .frnd => len.pick (some (.frnd o)) none none
  | .fscale => len.pick (some (.fscale o)) (some (.fscaleImm o)) none
  | .hadd2 => len.pick (some (.hadd2 o)) (some (.hadd2Imm o)) none
  | .hmul2 => len.pick (some (.hmul2 o)) (some (.hmul2Imm o)) none
  | .hfma2 => len.pick (some (.hfma2 o)) (some (.hfma2Imm o)) none
  | .cvti => len.pick (some (.cvti o)) none none
  | .cvtf => len.pick (some (.cvtf o)) none none
  | .cvtn => len.pick (some (.cvtn o)) none none
  | .cvtw => len.pick (some (.cvtw o)) none none
  | .rcp => len.pick (some (.rcp o)) none none
  | .rsq => len.pick (some (.rsq o)) none none
  | .sqrt => len.pick (some (.sqrt o)) none none
  | .ex2 => len.pick (some (.ex2 o)) none none
  | .lg2 => len.pick (some (.lg2 o)) none none
  | .sin => len.pick (some (.sin o)) none none
  | .cos => len.pick (some (.cos o)) none none
  | .tanh => len.pick (some (.tanh o)) none none
  | .rng => len.pick (some (.rng o)) none none
  | .seed => len.pick (some (.seed o)) (some (.seedImm o)) none
  | .shfl => len.pick (some (.shfl o)) (some (.shflImm o)) none
  | .vote => len.pick (some (.vote o)) none none
  | .qred => len.pick (some (.qred o)) none none
  | .gred => len.pick (some (if o.m.getLsbD 6 then .gredTeam o else .gred o)) none none
  | .gshuf => len.pick (some (.gshuf o)) none none
  | .bcast => len.pick (some (.bcast o)) none none
  | .bra => len.pick none (some (.bra o)) none
  | .brx => len.pick (some (.brx o)) none none
  | .call => len.pick none (some (.call o)) none
  | .ret => len.pick (some (.ret o)) none none
  | .join => len.pick (some (.join o)) none none
  | .exit => len.pick (some (.exit o)) none none
  | .elect => len.pick (some (.elect o)) none none
  | .pmov => len.pick (some (.pmov o)) none none
  | .pmux => len.pick (some (.pmux o)) none none
  | .region => len.pick (some (.region o)) none none
  | .trap => len.pick (some (.trap o)) none none
  | .tret => len.pick (some (.tret o)) none none
  | .yield => len.pick (some (.yield o)) none none
  | .nop => len.pick (some (.nop o)) (some (.nop96 o)) (some (.nop128 o))
  | .bkpt => len.pick (some (.bkpt o)) none none
  | .setrm => len.pick (some (.setrm o)) none none
  | .getsr => len.pick (some (.getsr o)) none none
  | .setsr => len.pick (some (.setsr o)) none none
  | .spawn => len.pick none (some (.spawn o)) none
  | .sleepm => len.pick (some (.sleepm o)) none none
  | .ld => len.pick (some (.ld o)) (some (.ldImm o)) none
  | .st => len.pick (some (.st o)) (some (.stImm o)) none
  | .ldl => len.pick (some (.ldl o)) (some (.ldlImm o)) none
  | .stl => len.pick (some (.stl o)) (some (.stlImm o)) none
  | .ldb => len.pick (some (.ldb o)) (some (.ldbImm o)) none
  | .stb => len.pick (some (.stb o)) (some (.stbImm o)) none
  | .ldx => len.pick (some (.ldx o)) none none
  | .stx => len.pick (some (.stx o)) none none
  | .ldu => len.pick (some (.ldu o)) (some (.lduImm o)) none
  | .stu => len.pick (some (.stu o)) (some (.stuImm o)) none
  | .atom => len.pick (some (.atom o)) none none
  | .lr => len.pick (some (.lr o)) none none
  | .sc => len.pick (some (.sc o)) none none
  | .fence => len.pick (some (.fence o)) none none
  | .acq => len.pick (some (.acq o)) none none
  | .rel => len.pick (some (.rel o)) none none
  | .acqr => len.pick (some (.acqr o)) none none
  | .carve => len.pick (some (.carve o)) none none
  | .pref => len.pick (some (.pref o)) (some (.prefImm o)) none
  | .mma => len.pick (some (.mma o)) none none
  | .mmax => len.pick (some (.mmax o)) none none
  | .mms => len.pick (some (.mms o)) none none
  | .czero => len.pick (some (.czero o)) none none
  | .drain => len.pick (some (.drain o)) (some (.drainImm o)) none
  | .kzero => len.pick (some (.kzero o)) none none
  | .kld => len.pick (some (.kld o)) (some (.kldImm o)) none
  | .kst => len.pick (some (.kst o)) (some (.kstImm o)) none
  | .klop => len.pick (some (.klop o)) none none
  | .kset => len.pick none (some (.kset o)) none
  | .bxpose => len.pick (some (.bxpose o)) none none
  | .cpy => len.pick (some (.cpy o)) none none
  | .cpyg => len.pick (some (.cpyg o)) none none
  | .cpyv => len.pick (some (.cpyv o)) none none
  | .crwait => len.pick (some (.crwait o)) none none
  | .thnew => len.pick (some (.thnew o)) none none
  | .thacq => len.pick (some (.thacq o)) none none
  | .threl => len.pick (some (.threl o)) none none
  | .thsplit => len.pick (some (.thsplit o)) none none
  | .thfree => len.pick (some (.thfree o)) none none
  | .thqry => len.pick (some (.thqry o)) none none
  | .thbnd => len.pick (some (.thbnd o)) none none
  | .seam => len.pick (some (.seam o)) none none
  | .unpick => len.pick (some (.unpick o)) none none
  | .isld => len.pick (some (.isld o)) none none
  | .isst => len.pick (some (.isst o)) none none
  | .settle => len.pick (some (.settle o)) none none
  | .wake => len.pick (some (.wake o)) none none
  | .pbar => len.pick (some (.pbar o)) none none
  | .stepc => len.pick (some (.stepc o)) none none
  | .islq => len.pick (some (.islq o)) none none
  | .sqopen => len.pick (some (.sqopen o)) none none
  | .sqsig => len.pick (some (.sqsig o)) none none
  | .skld => len.pick (some (.skld o)) none none
  | .skst => len.pick (some (.skst o)) none none
  | .sqclose => len.pick (some (.sqclose o)) none none
  | .waitc => len.pick (some (.waitc o)) none none
  | .closeb => len.pick (some (.closeb o)) none none
  | .waitb => len.pick (some (.waitb o)) none none
  | .bar => len.pick (some (.bar o)) none none
  | .barset => len.pick (some (.barset o)) (some (.barsetImm o)) none
  | .cntrd => len.pick (some (.cntrd o)) none none

end Sys2Proof
end

