-- ==== Sys2Proof/Machine/Encoding.lean ====
section
/-!
DEFINITION. What each opcode's entry allows in the register fields, the MOD field, the guard and the
immediate of its words (R101 to R104, R108, R128 to R131, R148, R149, R174, R237 to R239, R265, R309,
R327, R349, R365, R382). The decoder, the encoder and the well-formedness predicate all read this one
description. MOD bits are named by their instruction bit numbers, 63 to 48, as the spec names them.
-/

namespace Sys2Proof.Machine

/-- Instruction bit `i` (48 to 63) of a MOD field (R100). -/
def mbit (m : BitVec 16) (i : Nat) : Bool := m.getLsbD (i - 48)

/-- Instruction bits `hi` to `lo` of a MOD field as an unsigned number (R100). -/
def mfld (m : BitVec 16) (hi lo : Nat) : Nat := (m.toNat >>> (lo - 48)) % 2 ^ (hi + 1 - lo)

/-- A MOD mask with the instruction bits `hi` to `lo` set. -/
def mrng (hi lo : Nat) : BitVec 16 := BitVec.ofNat 16 ((2 ^ (hi + 1 - lo) - 1) <<< (lo - 48))

/-- Every MOD bit outside the mask is 0 (R101, reserved bits). -/
def only (m mask : BitVec 16) : Bool := m &&& ~~~mask == 0

/-- The kind of a register field (R102, R104, R238): how many registers the operand covers and the
alignment that its first register must have. `bar` is a named barrier and `tl` the count of WAITC. -/
inductive FKind where
  | none
  | v (n al : Nat)
  | vdir (n : Nat)
  | s (n al : Nat)
  | x
  | p
  | k
  | bar
  | tl
  deriving DecidableEq, Repr

/-- A V operand of `n` registers, or an S register when its kind bit is set (R130, R149). -/
def vs (isS : Bool) (n : Nat) : FKind := if isS then .s 1 1 else .v n n

/-- What an opcode's entry allows for given MOD bits and immediate. -/
structure Enc where
  d : FKind := .none
  a : FKind := .none
  b : FKind := .none
  c : FKind := .none
  /-- Bits 47:32 hold a signed 16-bit offset instead of the B and C fields (R239). -/
  off16 : Bool := false
  /-- The MOD value and the immediate are ones that the entry assigns. -/
  ok : Bool := true
  /-- The form takes a guard (R101, R131, R174, R239). -/
  guard : Bool := true
  deriving DecidableEq, Repr

/-- The number of elements of a packed register, by format index (R150). -/
def packedCount (idx : Nat) : Nat := if idx < 2 then 2 else if idx < 6 then 4 else 8

/-- A predicate output of class 0: bit 55 enables it, and with bit 55 clear bits 54:52 are 0 (R130). -/
def predOutOk (m : BitVec 16) : Bool := mbit m 55 || mfld m 54 52 == 0

/-- Class 0 (R128 to R132). `im` says that the form is the 96-bit one, whose IMM32 stands in place of B. -/
def encClass0 (op : Op) (im : Bool) (m : BitVec 16) (imm : BitVec 64) : Enc :=
  let kd := mbit m 63; let ka := mbit m 62; let kb := mbit m 61
  let xd := mbit m 60; let xa := mbit m 59
  let ty := mfld m 58 57
  let sat := mbit m 56
  let w := if 2 ≤ ty then 2 else 1
  let tyB := mrng 58 57
  -- a scalar form names S registers wherever it reads A or B (R131); IMM32 keeps KB at 0
  let scalA := !kd || ka
  let scalB := if im then !kb else !kd || kb
  let fB (n : Nat) : FKind := if im then .none else vs kb n
  let three (fn : BitVec 16) (n : Nat) (c : FKind) (extra : Bool) : Enc :=
    { d := vs kd w, a := vs ka w, b := fB n, c := c, guard := !kd,
      ok := only m (mrng 63 61 ||| tyB ||| fn) && scalA && scalB && extra }
  let two (dn : Nat) (fn : BitVec 16) (extra : Bool) : Enc :=
    { d := vs kd dn, a := vs ka w, guard := !kd,
      ok := only m (mrng 63 62 ||| tyB ||| fn) && scalA && extra }
  match op with
  | .mov =>
    { d := if xd then .x else vs kd w, a := if xa then .x else vs ka w, guard := !(kd || xd),
      ok := only m (mrng 63 62 ||| mrng 60 57) && !(xd && kd) && !(xa && ka)
        && (!(xd || kd) || ka || xa) }
  | .movi =>
    { d := if xd then .x else vs kd w, guard := !(kd || xd),
      ok := only m (mrng 63 63 ||| mrng 60 60 ||| tyB) && !(xd && kd) && (!xd || imm.ult 256) }
  | .movw => { d := vs kd 2, guard := !kd, ok := only m (mrng 63 63) }
  | .iadd | .isub => three (mrng 55 52) w .none (predOutOk m && !(kd && mbit m 55))
  | .iaddc | .isubb => three (mrng 55 52) w .p (predOutOk m && !kd)
  | .iadds | .imul | .imulh | .imin | .imax | .andL | .orL | .xorL | .andn => three 0 w .none true
  | .imad => three 0 w (vs kd w) true
  | .imadw =>
    { d := .v 2 2, a := vs ka 1, b := fB 1, c := .v 2 2,
      ok := only m (mrng 62 61 ||| tyB) && scalB && ty < 2 }
  | .iabs => two w (mrng 56 56) (ty == 0 || ty == 2)
  | .ineg => two w (mrng 56 56) (!sat || ty == 0 || ty == 2)
  | .icmp =>
    { d := .p, a := vs ka w, b := fB w,
      ok := only m (mrng 62 61 ||| tyB ||| mrng 50 48) && scalB && mfld m 50 48 ≤ 5 }
  | .isel =>
    { d := .v w w, a := vs ka w, b := fB w, c := .p, ok := only m (mrng 62 61 ||| tyB) && scalB }
  | .shl | .shr | .sar | .rotl | .bfx => three 0 1 .none true
  | .notL | .brev => two w 0 true
  | .popc | .clz | .ctz => two 1 0 true
  | .bmux => three (mrng 55 48) w (vs kd w) true
  | .bfi => three 0 1 (vs kd w) true
  | .bsr =>
    { d := .v 1 1, a := .v 5 2, b := .v 1 1, c := .v 5 2, ok := only m (mrng 55 52) && predOutOk m }
  | .bsrld =>
    { d := .v 5 2, a := .v 2 2, b := .v 2 2, c := .v 1 1, ok := only m (mrng 49 48) && mfld m 49 48 ≤ 2 }
  | .idot4 =>
    { d := .v 1 1, a := vs ka 1, b := vs kb 1, c := .v 1 1,
      ok := only m (mrng 62 61 ||| mrng 56 56 ||| mrng 49 48) }
  | .lea =>
    { d := vs kd 2, a := vs ka 2, b := fB w, guard := !kd,
      ok := only m (mrng 63 61 ||| tyB ||| mrng 50 48) && scalA && scalB }
  | _ => { ok := false }

/-- Class 1 (R148 to R151). -/
def encClass1 (op : Op) (im : Bool) (m : BitVec 16) : Enc :=
  let kd := mbit m 63; let ka := mbit m 62; let kb := mbit m 61; let kc := mbit m 60
  let kbOk := !im || !kb
  let fB : FKind := if im then .none else vs kb 1
  let b64 := mbit m 53
  let pairN := if b64 then 2 else 1
  let rop := mfld m 51 48
  -- `.b64` stands with no floating-point operation (R151)
  let ropOk := rop ≤ 10 && !(b64 && (rop == 1 || rop == 6 || rop == 7))
  let bin (fn : BitVec 16) : Enc :=
    { d := .v 1 1, a := vs ka 1, b := fB, ok := only m (mrng 62 61 ||| fn) && kbOk }
  let tri (fn : BitVec 16) : Enc :=
    { d := .v 1 1, a := vs ka 1, b := fB, c := vs kc 1, ok := only m (mrng 62 60 ||| fn) && kbOk }
  let una (fn : BitVec 16) (extra : Bool) : Enc :=
    { d := .v 1 1, a := vs ka 1, ok := only m (mrng 62 62 ||| fn) && extra }
  match op with
  | .fadd | .fsub | .fmul | .fmin | .fmax | .fscale => bin 0
  | .ffma => tri 0
  | .fcmp => { d := .p, a := vs ka 1, b := fB, ok := only m (mrng 62 61 ||| mrng 50 48) && kbOk }
  | .fclass => { d := .p, a := vs ka 1, ok := only m (mrng 62 62 ||| mrng 57 48) }
  | .frnd => una (mrng 50 48) (mfld m 50 48 ≤ 5)
  | .hadd2 | .hmul2 => bin (mrng 48 48)
  | .hfma2 => tri (mrng 48 48)
  | .cvti =>
    let n := if mfld m 50 48 == 2 || mfld m 50 48 == 3 then 2 else 1
    { d := .v n n, a := vs ka 1, ok := only m (mrng 62 62 ||| mrng 53 48) && mfld m 52 51 ≤ 2 }
  | .cvtf =>
    { d := .v 1 1, a := vs ka (if 2 ≤ mfld m 49 48 then 2 else 1), ok := only m (mrng 62 62 ||| mrng 49 48) }
  | .cvtn =>
    let idx := mfld m 52 48
    let sw := if mfld m 54 53 == 0 then 32 else 16
    { d := .v 1 1, a := .v (packedCount idx * sw / 32) 1, c := if 7 ≤ idx then .v 1 1 else .none,
      ok := only m (mrng 54 48) && idx ≤ 8 && mfld m 54 53 ≤ 2 }
  | .cvtw =>
    let idx := mfld m 52 48
    { d := .v (packedCount idx) 1, a := vs ka 1, c := if 7 ≤ idx then vs kc 1 else .none,
      ok := only m (mrng 62 62 ||| mrng 60 60 ||| mrng 52 48) && idx ≤ 8 && (!kc || 7 ≤ idx) }
  | .rcp | .rsq | .sqrt | .ex2 | .lg2 | .sin | .cos | .tanh => una 0 true
  | .rng => { d := .v 1 1, ok := only m (mrng 48 48) }
  | .seed =>
    { a := if im then .none else vs ka 1, ok := only m (mrng 62 62 ||| mrng 48 48) && (!im || !ka) }
  | .shfl =>
    { d := .v pairN pairN, a := .v pairN pairN, b := fB,
      ok := only m (mrng 61 61 ||| mrng 53 48) && kbOk && mfld m 52 50 ≤ 6 }
  | .vote =>
    let mode := mfld m 50 48
    { d := if kd then .s 1 1 else .p, a := if mode == 2 then .v 1 1 else .p, guard := !kd,
      ok := only m (mrng 63 63 ||| mrng 50 48) && mode ≤ 5 && (if kd then 3 ≤ mode else mode ≤ 3) }
  | .qred => { d := .v pairN pairN, a := .v pairN pairN, ok := only m (mrng 53 53 ||| mrng 51 48) && ropOk }
  | .gred =>
    -- DEDUCED (R104): the S register of GRED `.team` is marked by KB, as every S field of class 1 is
    if mbit m 54 then
      { d := .v pairN pairN, b := .s 1 1, ok := only m (mrng 61 61 ||| mrng 54 53 ||| mrng 51 48) && kb && ropOk }
    else
      { d := .v pairN pairN, a := .v pairN pairN, ok := only m (mrng 53 53 ||| mrng 51 48) && ropOk }
  | .gshuf =>
    { d := .v 1 1, a := .v (mfld m 53 48 + 1) 1, b := vs kb 1, ok := only m (mrng 61 61 ||| mrng 53 48) }
  | .bcast =>
    { d := vs kd 1, a := .v 1 1, b := if kb then .s 1 1 else .none, guard := !kd,
      ok := only m (mrng 63 63 ||| mrng 61 61 ||| mrng 53 48) && (!kb || mfld m 53 48 == 0) }
  | _ => { ok := false }

/-- The selectors of GETSR whose value is 64 bits wide, or 57 (R125). -/
def srWide (sel : Nat) : Bool := [0x0B, 0x0C, 0x0E, 0x11, 0x12, 0x13, 0x15].contains sel

/-- Class 2 (R174, R175). NOP is not here: its fields may hold anything (R109). -/
def encClass2 (op : Op) (m : BitVec 16) (imm : BitVec 64) : Enc :=
  match op with
  | .bra => { ok := only m 0 && imm.extractLsb' 0 2 == 0 }
  | .brx => { a := if mbit m 48 then .s 1 1 else .v 2 2, ok := only m (mrng 48 48) }
  | .call => { d := .v 2 2, ok := only m 0 && imm.extractLsb' 0 2 == 0 }
  | .ret => { a := .v 2 2, ok := only m 0 }
  | .join | .region | .tret | .yield => { guard := false, ok := only m 0 }
  | .exit => { ok := only m 0 }
  | .elect => { d := .p, ok := only m 0 }
  | .pmov =>
    let dir := mfld m 49 48
    { d := if dir == 2 then .s 1 1 else .p, a := if dir == 1 then .s 1 1 else .p, guard := false,
      ok := only m (mrng 49 48) && dir ≤ 2 }
  | .pmux => { d := .p, a := .p, b := .p, c := .p, guard := false, ok := only m (mrng 55 48) }
  | .trap => { ok := only m (mrng 59 48) }
  | .bkpt => { ok := only m (mrng 55 48) }
  | .setrm => { guard := false, ok := only m (mrng 52 48) && mfld m 50 48 ≤ 6 }
  | .getsr =>
    let sel := mfld m 55 48; let toS := mbit m 56
    let n := if srWide sel then 2 else 1
    { d := if toS then .s 1 1 else .v n n, guard := !toS,
      ok := only m (mrng 56 48) && sel ≤ 0x15 && !(toS && sel < 2) }
  | .setsr =>
    { a := .s 1 1, guard := false, ok := only m (mrng 55 48) && (mfld m 55 48 == 0x0F || mfld m 55 48 == 0x10) }
  | .spawn => { d := .s 1 1, a := .s 1 1, b := .s 1 1, guard := false, ok := only m 0 && imm.ult 16 }
  | .sleepm => { d := .s 1 1, a := .s 1 1, b := .s 1 1, guard := false, ok := only m (mrng 53 48) }
  | _ => { ok := false }

/-- The bytes of an access by its size code (R238). -/
def szBytes (sz : Nat) : Nat :=
  match sz with
  | 0 => 4
  | 1 => 1
  | 2 => 2
  | 3 => 8
  | 4 => 16
  | 5 => 32
  | _ => 64

/-- The V run of a data operand by its size code (R238). -/
def szV (sz : Nat) : FKind :=
  match sz with
  | 3 => .v 2 2
  | 4 => .v 4 4
  | _ => .v 1 1

/-- The S run of a data operand by its size code (R238). -/
def szS (sz : Nat) : FKind :=
  match sz with
  | 4 => .s 2 2
  | 5 => .s 4 4
  | 6 => .s 8 8
  | _ => .s 1 1

/-- Class 3 (R237 to R239). -/
def encClass3 (op : Op) (im : Bool) (m : BitVec 16) : Enc :=
  let seq := mbit m 63
  let spc := mfld m 59 57
  let sx := mbit m 53
  let sz := mfld m 52 50
  let ka := mbit m 49
  let absB := mbit m 48
  let o16 := !im
  let sxOk := !sx || sz == 1 || sz == 2
  let szB := mrng 52 50
  -- LD, LDL, LDB and their stores: `g` says that the space is `g:`, `load` that SX is allowed
  let lane (g load : Bool) (sp : BitVec 16) (spOk : Bool) : Enc :=
    { d := szV sz
      a := if absB then .none else if ka then .s 1 1 else if g then .v 2 2 else .v 1 1
      off16 := o16
      ok := only m (mrng 63 63 ||| sp ||| (if load then mrng 53 53 else 0) ||| szB ||| mrng 49 48)
        && spOk && sz ≤ 4 && sxOk && !(absB && (ka || g)) && (!seq || ka) }
  let uni (load : Bool) : Enc :=
    { d := szS sz, a := if absB then .none else .s 1 1, off16 := o16, guard := false,
      ok := only m (mrng 59 57 ||| (if load then mrng 53 53 else 0) ||| szB ||| mrng 49 48)
        && spc ≤ 4 && sz ≤ 6 && sxOk && (ka != absB) && !(absB && spc == 0) }
  let lanX (load : Bool) : Enc :=
    { d := szV sz, a := .s 1 1, b := .v 1 1,
      ok := only m (mrng 61 57 ||| (if load then mrng 53 53 else 0) ||| szB) && spc ≤ 4 && sz ≤ 4 && sxOk }
  let n := if sz == 3 then 2 else 1
  let szA := sz == 0 || sz == 3
  match op with
  | .ld => lane true true 0 true
  | .st => lane true false 0 true
  | .ldl => lane false true 0 true
  | .stl => lane false false 0 true
  | .ldb => lane false true (mrng 59 57) (2 ≤ spc && spc ≤ 4)
  | .stb => lane false false (mrng 59 57) (2 ≤ spc && spc ≤ 4)
  | .ldx => lanX true
  | .stx => lanX false
  | .ldu => uni true
  | .stu => uni false
  | .atom =>
    let aop := mfld m 63 60; let kb := absB
    { d := .v n n, a := if ka then .s 1 1 else if spc == 0 then .v 2 2 else .v 1 1, b := vs kb n,
      c := if aop == 9 then vs kb n else .none
      ok := only m (mrng 63 57 ||| szB ||| mrng 49 48) && aop ≤ 9 && spc ≤ 1 && szA }
  | .lr => { d := .v n n, a := vs ka 2, ok := only m (szB ||| mrng 49 49) && szA }
  | .sc => { d := .v 1 1, a := vs ka 2, b := vs absB n, ok := only m (szB ||| mrng 49 48) && szA }
  | .fence | .acq | .rel => { guard := false, ok := only m (mrng 63 59 ||| mrng 56 54) && mfld m 56 54 ≤ 5 }
  -- DEDUCED (R237, R239): KA is assigned to ACQR, whose A field is an S register in any case: both values
  | .acqr => { a := .s 1 1, guard := false, ok := only m (mrng 63 59 ||| mrng 49 49) }
  -- DEDUCED (log entry 69; R237, R253): WAYS is CARVE's field whatever KA says, and is not read where KA is 1
  | .carve =>
    { d := .s 1 1, a := if ka then .s 1 1 else .none, guard := false,
      ok := only m (mrng 63 60 ||| mrng 49 49) && mfld m 63 60 ≤ 12 }
  | .pref => { a := vs ka 2, off16 := o16, ok := only m (mrng 61 60 ||| mrng 49 49) && mfld m 61 60 ≤ 1 }
  | _ => { ok := false }

/-- Class 4 (R265, R266, R278). -/
def encClass4 (op : Op) (im : Bool) (m : BitVec 16) (imm : BitVec 64) : Enc :=
  let ke := mbit m 62
  let kb : FKind := if ke then .k else .none
  let spc := mfld m 59 57
  let zku := mrng 63 61
  match op with
  | .mma => { d := .s 1 1, a := .s 2 2, b := kb, guard := false, ok := only m zku }
  | .mmax => { d := .s 1 1, a := .s 2 2, b := kb, c := .v 1 1, guard := false, ok := only m (zku ||| mrng 55 48) }
  | .mms => { d := .s 1 1, a := .s 2 2, b := kb, c := .s 1 1, guard := false, ok := only m zku }
  | .czero => { a := .s 1 1, b := kb, guard := false, ok := only m (mrng 62 62 ||| mrng 53 48) }
  -- DEDUCED (log entry 69; R265 over R108): B is the descriptor's or the length's S register in the 96-bit forms too
  | .drain =>
    let dsp := mfld m 59 58; let df := mfld m 55 52
    { d := if dsp == 0 then .v 1 1 else .s 1 1, a := .s 2 2, b := .s 1 1, c := kb, guard := dsp == 0,
      ok := only m (mrng 62 62 ||| mrng 59 58 ||| mrng 55 52) && dsp ≤ 2 && df ≤ 10 && !(im && dsp == 0) }
  | .kzero => { d := .k, guard := false, ok := only m 0 }
  | .kld =>
    -- DEDUCED: B as for DRAIN (log entry 69); the `.s` form takes the table's spaces and lengths (log entry 8)
    { d := .k, a := .s 1 1, b := .s 1 1, guard := false, ok := only m (mrng 59 56) && spc ≤ 1 }
  | .kst => { d := .k, a := .s 1 1, guard := false, ok := only m (mrng 59 56) && spc ≤ 1 }
  | .klop => { d := .k, a := .k, b := .k, c := .k, guard := false, ok := only m (mrng 55 48) }
  | .kset => { d := .k, a := .s 1 1, guard := false, ok := only m 0 && imm.ult 4096 }
  | .bxpose =>
    let src := mfld m 56 54
    { d := .s 1 1, a := .s 1 1, guard := false,
      ok := only m (mrng 59 54 ||| mrng 49 48) && (spc == 2 || spc == 3) && 2 ≤ src && src ≤ 4 && mfld m 49 48 ≤ 2 }
  | _ => { ok := false }

/-- Classes 5 to 9 (R309, R327, R349, R365, R382, R387, R388). -/
def encClass5to9 (op : Op) (im : Bool) (m : BitVec 16) (imm : BitVec 64) : Enc :=
  let s1 : FKind := .s 1 1
  let ng (e : Enc) : Enc := { e with guard := false }
  match op with
  | .cpy | .cpyg => { a := s1, b := .v 4 4, c := .s 2 2, ok := only m 0 }
  | .cpyv => { d := .vdir (mfld m 57 53 + 1), a := s1, b := .v 4 4, c := .s 2 2, ok := only m (mrng 57 53 ||| mrng 51 48) }
  | .crwait => ng { d := s1, a := s1, ok := only m (mrng 52 48) }
  | .thnew | .threl | .thqry => ng { d := s1, a := s1, ok := only m 0 }
  | .thacq => ng { d := s1, a := s1, ok := only m (mrng 63 62 ||| mrng 52 48) }
  | .thsplit => ng { d := s1, a := s1, b := s1, ok := only m 0 }
  | .thfree => ng { a := s1, ok := only m 0 }
  | .thbnd => ng { a := s1, b := s1, ok := only m (mrng 51 48) && mfld m 49 48 ≤ 2 && mfld m 51 50 ≤ 2 }
  | .seam | .unpick => { a := .v 1 1, b := .v 1 1, c := s1 }
  | .isld => ng { d := .s 2 2, a := s1, ok := only m 0 }
  | .isst => ng { a := s1, b := s1, ok := only m 0 }
  | .settle => { a := .v 2 2, ok := only m 0 }
  | .wake => { a := .v 1 1, c := s1, ok := only m 0 }
  | .pbar => ng { d := s1, ok := only m 0 }
  | .stepc => ng { d := s1, a := s1, ok := only m 0 }
  | .islq => { d := .v 2 2, a := .v 1 1, c := s1, ok := only m 0 }
  | .sqopen => ng { d := s1, a := s1, b := if mbit m 63 then s1 else .none, ok := only m (mrng 63 63) }
  | .sqsig => ng { a := .v 16 1, b := s1, c := s1, ok := only m 0 }
  | .skld | .skst => ng { d := .k, a := s1, b := s1, ok := only m 0 }
  | .sqclose => ng { d := s1, a := s1, ok := only m 0 }
  | .waitc => ng { c := .tl, ok := only m (mrng 59 48) }
  | .closeb => ng { d := s1, ok := only m 0 }
  | .waitb => ng { d := s1, a := s1, ok := only m (mrng 52 48) }
  | .bar => ng { d := if mbit m 62 then s1 else .none, a := .bar, ok := only m (mrng 63 62) }
  | .barset =>
    ng { d := .bar, a := if im then .none else s1,
         ok := only m 0 && (!im || (imm &&& ~~~0xF1F#64 == 0 && imm.extractLsb' 0 5 ≤ 16#5)) }
  | .cntrd =>
    let sel := mfld m 55 48
    ng { d := s1, a := if 6 ≤ sel && sel ≤ 0x0B && sel != 9 then s1 else .none, ok := only m (mrng 55 48) && sel ≤ 0x0E }
  | _ => { ok := false }

/-- What the entry of `op` allows in its form of length `len` with these MOD bits and immediate. -/
def encOf (op : Op) (len : Len) (m : BitVec 16) (imm : BitVec 64) : Enc :=
  let im := len == .w96
  match op.code / 64 with
  | 0 => encClass0 op im m imm
  | 1 => encClass1 op im m
  | 2 => if op = .nop then { ok := true } else encClass2 op m imm
  | 3 => encClass3 op im m
  | 4 => encClass4 op im m imm
  | _ => encClass5to9 op im m imm

end Sys2Proof.Machine
end

