-- ==== Sys2Proof/WellFormed.lean ====
section
/-!
DEFINITION. Which instruction terms stand for words of the machine: the fields that R101 to R104, R106
and each instruction's entry allow. Every check is read from the one description of Machine/Encoding.lean.
-/

namespace Sys2Proof

open Sys2Proof.Machine

/-- An operand is one that a field of this kind can hold (R102 to R104, R238). -/
def FKindFits (kd : FKind) (o : Opd) : Bool :=
  match kd, o with
  | .none, .none => true
  | .v _ al, .v (.dir n) => n.toNat % al == 0
  | .v _ _, .v (.idx _ _) => true
  | .vdir _, .v (.dir _) => true
  | .s _ al, .s n => n.toNat % al == 0
  | .x, .x _ => true
  | .p, .p _ => true
  | .k, .k _ => true
  | .bar, .bar _ => true
  | .tl, .tl _ => true
  | _, _ => false

/-- The immediate is one that the form's length can carry (R99, R101, R239): none in a 64-bit form but
for the sign-extended 16-bit offset, 32 bits in a 96-bit form, 64 bits in a 128-bit form. -/
def immFits (len : Len) (off16 : Bool) (imm : BitVec 64) : Bool :=
  match len with
  | .w64 => if off16 then imm == (((imm.setWidth 16).signExtend 32).setWidth 64) else imm == 0
  | .w96 => imm == (imm.setWidth 32).setWidth 64
  | .w128 => true

/-- The one term that stands for a NOP of any fields (R109). -/
def Ops.nop : Ops := ⟨Guard.none, .none, .none, .none, .none, 0, 0⟩

/-- The fields of an instruction word are ones that its entry allows (R101 to R104). -/
def opsWellFormed (op : Op) (len : Len) (o : Ops) : Bool :=
  if op = .nop then o == Ops.nop
  else
    let e := encOf op len o.m o.imm
    e.ok && (e.guard || o.g == Guard.none) && FKindFits e.d o.d && FKindFits e.a o.a
      && FKindFits e.b o.b && FKindFits e.c o.c && immFits len e.off16 o.imm

/-- The opcodes that R106 rule 2 keeps out of a pair word, among classes 0 and 1. -/
def Op.unpairable : List Op :=
  [Op.movi, Op.movw, Op.bsr, Op.bsrld, Op.rng, Op.seed, Op.shfl, Op.vote, Op.qred, Op.gred, Op.gshuf, Op.bcast]

/-- R106 rules 2 to 4 for one half; a MOV half has XD and XA 0 (R133). -/
def Half.pairable (h : Half) : Bool :=
  h.op.code / 64 ≤ 1 && !Op.unpairable.contains h.op && opsWellFormed h.op .w64 h.o
    && !mbit h.o.m 63 && !mbit h.o.m 62 && !mbit h.o.m 61
    && (h.op != .mov || (!mbit h.o.m 60 && !mbit h.o.m 59))
    && [h.o.d, h.o.a, h.o.b, h.o.c].all fun f => match f with
      | .v (.idx _ _) => false
      | _ => true

/-- The V registers that a direct V operand covers. -/
def directRun (kd : FKind) (o : Opd) : List Nat :=
  match kd, o with
  | .v n _, .v (.dir r) => (List.range n).map (r.toNat + ·)
  | _, _ => []

/-- The V registers that a half reads (R106 rule 5, R173). -/
def Half.reads (h : Half) : List Nat :=
  let e := encOf h.op .w64 h.o.m h.o.imm
  directRun e.a h.o.a ++ directRun e.b h.o.b ++ (if h.op = .cvtn then [] else directRun e.c h.o.c)

/-- The registers that a half writes (R106 rule 6, R173): V registers by number, and the predicates
P0 to P6, its DST or its carry-out, as 128 + number. P7 receives no change (R118). -/
def Half.writes (h : Half) : List Nat :=
  let e := encOf h.op .w64 h.o.m h.o.imm
  let preds := (match h.o.d with
      | .p n => [n.toNat]
      | _ => [])
    ++ (if [Op.iadd, Op.isub, Op.iaddc, Op.isubb].contains h.op && mbit h.o.m 55 then [mfld h.o.m 54 52] else [])
  directRun e.d h.o.d ++ (if h.op = .cvtn then directRun e.c h.o.c else [])
    ++ (preds.filter (· != 7)).map (128 + ·)

/-- R106: the two halves may share a pair word. -/
def pairWellFormed (h0 h1 : Half) : Bool :=
  let r0 := h0.reads.eraseDups
  let r1 := h1.reads.eraseDups
  let rs := (r0 ++ r1).eraseDups
  h0.pairable && h1.pairable && h0.op.code / 64 != h1.op.code / 64
    && (r0.filter r1.contains).length ≤ 1
    && (rs.map (· % 4)).eraseDups.length == rs.length
    && !(h0.writes.any h1.writes.contains)

/-- An instruction term stands for a word of the machine. Events and packets are no words. -/
def Instr.wellFormed (i : Instr) : Bool :=
  match i with
  | .pairWord h0 h1 => pairWellFormed h0 h1
  | i => match i.word? with
    | some (op, len, o) => Instr.ofWord op len o == some i && opsWellFormed op len o
    | none => false

end Sys2Proof
end

