-- ==== Sys2Proof/Decode.lean ====
section
/-!
DEFINITION. The decoder and the encoder of instruction words (R99 to R111). A word is a natural number
whose bit i is instruction bit i, so parcel n is bits 32n+31 to 32n and, memory being little-endian, the
byte at offset k is bits 8k+7 to 8k. The decoder is total: what is no instruction is `none`.
-/

namespace Sys2Proof

open Sys2Proof.Machine

/-- Bits `lo` to `lo + n - 1` of a word. -/
def wbits (w lo n : Nat) : BitVec n := BitVec.ofNat n (w >>> lo)

/-- The operand that a register field of this kind names (R102, R104), where there is one. -/
def FKindDecode (kd : FKind) (f : BitVec 8) : Option Opd :=
  let num : BitVec 7 := f.extractLsb' 0 7
  let small (bound : Nat) (o : Opd) : Option Opd := if f.toNat < bound then some o else none
  match kd with
  | .none => small 1 .none
  | .v _ al =>
    if f.getLsbD 7 then some (.v (.idx (f.extractLsb' 5 2) (f.extractLsb' 0 5)))
    else if num.toNat % al == 0 then some (.v (.dir num)) else none
  | .vdir _ => small 128 (.v (.dir num))
  | .s _ al => if f.toNat % al == 0 then small 64 (.s (f.extractLsb' 0 6)) else none
  | .x => small 4 (.x (f.extractLsb' 0 2))
  | .p => small 8 (.p (f.extractLsb' 0 3))
  | .k => small 16 (.k (f.extractLsb' 0 4))
  | .bar => small 128 (.bar num)
  | .tl => small 64 (.tl (f.extractLsb' 0 6))

/-- The register field that names an operand (R102, R104). -/
def opdField (o : Opd) : BitVec 8 :=
  match o with
  | .none => 0
  | .v (.dir n) => n.setWidth 8
  | .v (.idx xi base) => 1#1 ++ xi ++ base
  | .s n => n.setWidth 8
  | .x n => n.setWidth 8
  | .p n => n.setWidth 8
  | .k n => n.setWidth 8
  | .bar n => n.setWidth 8
  | .tl n => n.setWidth 8

/-- The fields of one word of R100 for an opcode and a length, where the entry allows them. The length
code is not looked at here. -/
def decodeOps (op : Op) (len : Len) (w : Nat) : Option Ops :=
  if op = .nop then some Ops.nop
  else
    let m := wbits w 48 16
    let immRaw : BitVec 64 := match len with
      | .w64 => 0
      | .w96 => (wbits w 64 32).setWidth 64
      | .w128 => wbits w 64 64
    let e := encOf op len m immRaw
    let g : Guard := ⟨wbits w 12 3, (wbits w 15 1).getLsbD 0⟩
    let off : BitVec 16 := wbits w 32 16
    let imm : BitVec 64 := if e.off16 then (off.signExtend 32).setWidth 64 else immRaw
    let fb : BitVec 8 := if e.off16 then 0 else wbits w 32 8
    let fc : BitVec 8 := if e.off16 then 0 else wbits w 40 8
    match FKindDecode e.d (wbits w 16 8), FKindDecode e.a (wbits w 24 8),
        FKindDecode e.b fb, FKindDecode e.c fc with
    | some d, some a, some b, some c =>
      if e.ok && (e.guard || g == Guard.none) then some ⟨g, d, a, b, c, m, imm⟩ else none
    | _, _, _, _ => none

/-- The length that LEN gives outside a pair word (R99). -/
def lenOfCode (n : Nat) : Len :=
  match n with
  | 0 => .w64
  | 1 => .w96
  | _ => .w128

/-- The length in bytes of the instruction whose first parcel's LEN is `n` (R99). -/
def lenBytes (n : Nat) : Nat := if n = 0 then 8 else if n = 1 then 12 else 16

/-- A half of a pair word (R106). -/
def decodeHalf (w : Nat) : Option Half :=
  match Op.ofCode (wbits w 2 10).toNat with
  | none => none
  | some op => (decodeOps op .w64 w).map fun o => ⟨op, o⟩

/-- The instruction of a word of 128 bits, of which an instruction shorter than that reads only its own
(R99, R106, R111). -/
def decodeWord (w : Nat) : Option Instr :=
  let code := (wbits w 0 2).toNat
  if code = 3 then
    if (wbits w 64 2).toNat = 0 then
      match decodeHalf w, decodeHalf (w >>> 64) with
      | some h0, some h1 => if pairWellFormed h0 h1 then some (.pairWord h0 h1) else none
      | _, _ => none
    else none
  else
    match Op.ofCode (wbits w 2 10).toNat with
    | none => none
    | some op =>
      match decodeOps op (lenOfCode code) w with
      | none => none
      | some o => Instr.ofWord op (lenOfCode code) o

/-- The word of a list of bytes, the first at the lowest address (R2, R99). -/
def wordOfBytes : List Byte → Nat
  | [] => 0
  | b :: bs => b.toNat + 256 * wordOfBytes bs

/-- Decoding from bytes: a total function of any bytes; bytes past the end read as zero. -/
def decodeBytes (bs : List Byte) : Option Instr := decodeWord (wordOfBytes (bs.take 16))

/-- What the decoder gives for a row of spec/opcode_table.json, whose bits are numbered as this
machine's words are; the bits above `nbits` are zero. -/
def decodeTableWord (nbits w : Nat) : Option Instr := decodeWord (w % 2 ^ nbits)

/-- The LEN code of a length (R99). -/
def lenCode (len : Len) : Nat :=
  match len with
  | .w64 => 0
  | .w96 => 1
  | .w128 => 2

/-- Bits 63:0 of a word of R100. -/
def encodeLow (op : Op) (code : Nat) (off16 : Bool) (o : Ops) : BitVec 64 :=
  let mid : BitVec 16 := if off16 then o.imm.setWidth 16 else opdField o.c ++ opdField o.b
  o.m ++ mid ++ opdField o.a ++ opdField o.d ++ (BitVec.ofBool o.g.gn) ++ o.g.gi
    ++ BitVec.ofNat 10 op.code ++ BitVec.ofNat 2 code

/-- The word of an opcode, a length and fields (R100). -/
def encodeOps (op : Op) (len : Len) (o : Ops) : Nat :=
  let off16 := op != .nop && (encOf op len o.m o.imm).off16
  let low := (encodeLow op (lenCode len) off16 o).toNat
  match len with
  | .w64 => low
  | .w96 => low + 2 ^ 64 * (o.imm.setWidth 32).toNat
  | .w128 => low + 2 ^ 64 * o.imm.toNat

/-- The word of a well-formed instruction (R100, R106); 0 for a term that is no word. -/
def encode (i : Instr) : Nat :=
  match i with
  | .pairWord h0 h1 => (encodeLow h0.op 3 false h0.o).toNat + 2 ^ 64 * (encodeLow h1.op 0 false h1.o).toNat
  | i => match i.word? with
    | some (op, len, o) => encodeOps op len o
    | none => 0

/-- The bytes of a word, the first at the lowest address (R2). -/
def bytesOfWord (n w : Nat) : List Byte :=
  match n with
  | 0 => []
  | k + 1 => BitVec.ofNat 8 w :: bytesOfWord k (w / 256)

/-- The length of an instruction in bytes (R99). -/
def Instr.bytes (i : Instr) : Nat :=
  match i.word? with
  | some (_, len, _) => len.bytes
  | none => 16

end Sys2Proof
end

