-- ==== Sys2Proof/Machine/State.lean ====
section
/-!
DEFINITION. The state of the machine as plain data: everything the spec's inventories name (R15, R16), and
the few fields of the model's own that are marked so: the agenda, the issue list, the issuing split and
the counter of free values. The Fault and Refusal reasons and the state after reset stand here too.
-/

namespace Sys2Proof.Machine

/-! ## Sparse tables -/

/-- A sparse table: pairs of a key and a value, keys strictly rising, no value equal to the default. -/
abbrev SMap (α : Type) := List (Nat × α)

/-- Bytes of one memory and the bytes of it that are poisoned (R207). An unlisted byte reads 0. -/
structure Bank where
  bytes : List Host.Cell
  poison : SMap Bool
  deriving DecidableEq, Repr

/-- The address spaces of R198, in the order of their space codes (R237). -/
inductive Space where
  | g | l | w | a | c
  deriving DecidableEq, Repr

/-! ## The group: registers and control state (R114) -/

/-- A path set aside in a quad: a PC, its lanes (of the group's 64), and whether it waits at a boundary
instruction (R21, R24). -/
structure Path where
  pc : BitVec 57
  lanes : Mask
  waiting : Bool
  deriving DecidableEq, Repr

/-- The control state of one quad: PC and lanes of the running path, deferred paths, and the label of the
split that the hardware has fused it into (R20, R21). -/
structure Quad where
  pc : BitVec 57
  run : Mask
  deferred : List Path
  split : Nat
  deriving DecidableEq, Repr

/-- A K register (R119). -/
structure KReg where
  tiles : BitVec 64
  tagIdx : BitVec 16
  tagGen : BitVec 8
  deriving DecidableEq, Repr

/-- The replay mask PM (R51). -/
structure Replay where
  mask : Mask
  pc : BitVec 57
  occ : BitVec 16
  valid : Bool
  deriving DecidableEq, Repr

/-- A trap-stack frame (R123). -/
structure Frame where
  lanes : Mask
  rpc : BitVec 57
  code : BitVec 12
  deriving DecidableEq, Repr

/-- One byte held by the region store buffer: offset in its line, value, the storing lane (`none` for a
group-wide byte), whether it is poison (R392), the DRAIN whose data it still waits for (R44, R272), and the access path
of its store as R223 numbers it: 0 vector, 1 gather, 2 matrix for a DRAIN's, 3 copy. -/
structure BufByte where
  off : Nat
  val : Byte
  tag : Option Nat
  pois : Bool
  wait : Option Nat
  path : Nat
  deriving DecidableEq, Repr

/-- One entry of the region store buffer (R44): a 128-byte line of a space. For `g:` `line` is the
physical line and `vline` the virtual line it was translated from; for `l:` `line` counts from the core's
scratch offset 0. -/
structure BufLine where
  space : Space
  line : Nat
  vline : Nat
  bytes : List BufByte
  deriving DecidableEq, Repr

/-- The legality tracking of R46 and R47. `vw` holds a V register's 16-bit written mask. -/
structure Track where
  vw : SMap (BitVec 16)
  vl : SMap Bool
  sw : BitVec 64
  sl : BitVec 64
  xw : BitVec 4
  xl : BitVec 4
  pw : BitVec 8
  pl : BitVec 8
  kw : BitVec 16
  kl : BitVec 16
  rmrR : Bool
  gsrW : Bool
  gsrL : Bool
  cw : BitVec 64
  cl : BitVec 64
  deriving DecidableEq, Repr

/-- A register write still to land (R117). -/
inductive RegWrite where
  | v (r lane : Nat) (val : W32)
  | s (n : Nat) (val : W64)
  | k (n : Nat) (val : KReg)
  deriving DecidableEq, Repr

/-- A load-kind instruction whose results have not landed (R241, R374), or a DRAIN to registers (R272), which
counts in CNT.TL and not in CNT.LD; `regs` are the V registers it scoreboards, `sregs` and `kregs` the S and K
registers. -/
structure PendLoad where
  id : Nat
  ld : Bool
  regs : List Nat
  sregs : List Nat
  kregs : List Nat
  writes : List RegWrite
  deriving DecidableEq, Repr

/-- What a sleeping split waits for (R189, R312, R385). -/
inductive SleepKind where
  | sleepm (va : Nat) (b64 : Bool) (expected : W64)
  | crwait (n : Nat)
  | waitb (target r : Nat)
  deriving DecidableEq, Repr

/-- A sleeping split: its label, what it waits for, its destination S register and its deadline in cycles
of its die. -/
structure Sleeper where
  split : Nat
  kind : SleepKind
  dst : Nat
  deadline : Option Nat
  deriving DecidableEq, Repr

/-- A batch of copies that is not complete: its number and the copies left (R377). -/
structure Batch where
  num : Nat
  left : Nat
  deriving DecidableEq, Repr

/-- The issue order of one split (R32, R188): the cycle in which it last became ready (`none` while it is
not ready) and the splits that a YIELD lets go first, as pairs of group and split. -/
structure SplitAge where
  split : Nat
  age : Option Nat
  yields : List (Nat × Nat)
  deriving DecidableEq, Repr

/-- What holds a group back, apart from its splits' own waits. -/
inductive Status where
  /-- Its splits may issue. -/
  | running
  /-- Parked for a system call in a slot of the ring, or with the reply delivered (R185). -/
  | parked (slot : Nat)
  /-- Stopped at a BKPT by Loupe (R190): the labels of the splits that stand at one. -/
  | bkpt (splits : List Nat)
  /-- A boundary that has acted waits to be woken: a named barrier in a phase (R386). -/
  | atBarrier (b phase : Nat) (rd : Option Nat) (lanes : Mask) (pc : BitVec 57)
  /-- PBAR's wait (R353). -/
  | atPanel (phase : Nat) (dst : Nat) (lanes : Mask) (pc : BitVec 57)
  /-- A THACQ whose request waits (R329). -/
  | atTenure (req : Nat)
  /-- A region is being discarded, by its cause of R391: waits for its loads and tile operations (R50). -/
  | discarding (cause : Nat)
  /-- Waits for the answer to fault records of its context (R50). -/
  | faultWait
  /-- No live lane: waits for its operations to be acknowledged (R33). -/
  | draining
  /-- Stopped with its context (R396). -/
  | halted
  deriving DecidableEq, Repr

/-- A group (R17, R114): identity, registers, control state, open region, outstanding operations. -/
structure Group where
  ctx : Nat
  grid : Nat
  team : Nat
  teamId : Nat
  gnum : Nat
  role : Nat
  queue : Nat
  world : Option Nat
  core : Nat
  slot : Nat
  allot : Nat
  /-- The first register of its range of the core's 2,048 (R30, R115). -/
  regBase : Nat
  placedAt : Nat
  /-- Evicted to its context's save area (R35). -/
  evicted : Bool
  /-- Chosen for eviction: it issues nothing (R35). -/
  evicting : Bool
  /-- Excluded from eviction until its region fixes (R53). -/
  noEvict : Bool
  /-- A gang's group has still to acquire at device scope as it first issues (R438). -/
  acquire : Bool
  v : List (List W32)
  vpoison : SMap Bool
  s : List W64
  x : List (BitVec 8)
  p : List Mask
  k : List KReg
  rmr : W32
  rmrPend : Option W32
  gsr : W32
  launched : Mask
  exited : Mask
  dead : Mask
  /-- Lanes that have consumed an error in this cycle, in which other splits of the group issue too: they die when those have
  issued (R122). The model's own. -/
  dying : Mask
  pm : Replay
  frames : List Frame
  depth : Nat
  rng : List W32
  quads : List Quad
  ages : List SplitAge
  sleepers : List Sleeper
  status : Status
  /-- The region before a boundary that has not acted yet is closed (R40). -/
  closed : Bool
  /-- The region is being closed: some of its lines are handed on, and others wait for room (R375). -/
  closing : Bool
  /-- The open region's number, the model's own: DRAIN lines of a closed region are handed on (R272). -/
  regionNo : Nat
  reentry : Nat
  /-- A detected error came while the region was being discarded (R50). -/
  again : Bool
  /-- Causes of the discards that the re-entry counter saw, oldest first (R53, R391). -/
  causes : List Nat
  entryQuads : List Quad
  entryRng : List W32
  entryDepth : Nat
  /-- Issues of each LDX PC since the region's latest entry (R52). -/
  ldxCount : SMap Nat
  buf : List BufLine
  /-- Lines of closed regions that wait for a DRAIN's data before they are handed on (R272). -/
  late : List BufLine
  track : Track
  /-- Fault records that the group's faulted lanes wait on, in lane order: SEQ, the address of the lowest lane,
  and the answer when it has come (true for Retry) (R432); the faulting instruction's PC and active lanes. -/
  faultRecs : List (Nat × Nat × Option Bool)
  faultPc : BitVec 57
  faultLanes : Mask
  cntLd : Nat
  cntSt : Nat
  cntTl : Nat
  pending : List PendLoad
  latest : BitVec 16
  pend : Nat
  batches : List Batch
  /-- Copies posted whose records are not written (R33). -/
  copiesLeft : Nat
  /-- Registers that pending CPYVs hold, by copy number (R311). -/
  cpyvRegs : List (Nat × Nat)
  /-- Class 3 instructions issued since the last LR (R249). -/
  lrCount : Nat
  /-- BAR phases in which the group has arrived, by barrier (R380). -/
  arrived : SMap Nat
  /-- S and X as they stood before this cycle's issues (R131): the model's own. -/
  snap : Option (List W64 × List (BitVec 8))
  /-- The phase of its panel barrier in which the group last arrived at a PBAR (R353). -/
  panelAt : Option (BitVec 32)
  /-- Quads whose splits have issued in this cycle, in which other splits of the group issue too (R32). The model's own. -/
  moved : List Nat
  deriving DecidableEq, Repr

/-! ## Teams, grids, barriers (R17, R26, R379) -/

/-- A named barrier (R379). -/
structure Barrier where
  cnt : BitVec 5
  mask : BitVec 4
  arr : Nat
  phase : BitVec 16
  deriving DecidableEq, Repr

/-- A launch shape (R28, R195, R285). -/
structure Shape where
  entry : BitVec 64
  roles : Nat
  groups : List Nat
  allot : List Nat
  scratch : Nat
  tbuf : Bool
  barriers : Nat
  lanes : Nat
  deriving DecidableEq, Repr

/-- What the streamer knows of a gang (R345, R346). -/
structure Gang where
  world : Nat
  step : BitVec 32
  island : BitVec 32
  firstRank : Nat
  panel : Nat
  bodies : List Nat
  staged : Bool
  written : Bool
  deriving DecidableEq, Repr

/-- Where a team stands. -/
inductive Place where
  | waiting
  | placed (core base : Nat)
  /-- Evicted whole from a core, its scratch in the save area (R34, R36). -/
  | evicted (core : Nat) (scratch : Bank)
  | gone
  deriving DecidableEq, Repr

/-- A team (R17): shape, argument, placement and its barriers. -/
structure Team where
  ctx : Nat
  grid : Nat
  teamId : Nat
  queue : Nat
  shape : Shape
  arg : W64
  dies : BitVec 4
  place : Place
  queuedAt : Nat
  /-- Tries that failed, whether one has been made, and the order in which the patience limit was reached (R31). -/
  failed : Nat
  tried : Bool
  limitAt : Option Nat
  closedCore : Option Nat
  /-- The core on which it pre-empts (R34). -/
  preempt : Option Nat
  /-- Its groups are being evicted as a whole team (R34). -/
  leaving : Bool
  /-- The typed buffers saved with a team evicted whole: W, A, C (R204). -/
  bufs : Option (Bank × Bank × Bank)
  barriers : List Barrier
  /-- Groups, by number, that have executed their last EXIT (R380). -/
  exited : List Nat
  gang : Option Gang
  groupsLeft : Nat
  deriving DecidableEq, Repr

/-- A grid (R17, R26): its spawn-tree counter and what it completes. -/
structure Grid where
  serial : BitVec 32
  ctx : Nat
  counter : Nat
  nextTeam : Nat
  dies : BitVec 4
  queue : Nat
  packet : Option Nat
  world : Option Nat
  deriving DecidableEq, Repr

/-! ## Cores, engines, directories -/

/-- A fixed line on its way to memory (R42, R375): its group, space, line and bytes. A line of `l:`, `w:`,
`a:` or `c:` has been written when it was handed on, and until it is acknowledged the engines may still read what its
bytes held before, `old` (R223, R228). So has a line that a copy of the group has written there, all on path 3. `late` marks a line of a closed region that still waits on the core for a DRAIN's data
(R272). -/
structure OutLine where
  gid : Nat
  space : Space
  line : Nat
  vline : Nat
  bytes : List BufByte
  old : List (Byte × Bool)
  late : Bool
  deriving DecidableEq, Repr

/-- A translation held by a TLB (R212): context, virtual page start, size as a power of two, frame, leaf bits. -/
structure TlbEntry where
  ctx : Nat
  va : Nat
  size : Nat
  frame : Nat
  wr : Bool
  exec : Bool
  key : Nat
  deriving DecidableEq, Repr

/-- A core (R8, R198, R373). `sw` is the scratch-way count (R200); `l1` maps lines held to their bytes;
`bufCtx` is the context whose groups last used the typed buffers (R204). -/
structure CoreSt where
  scratch : Bank
  wbuf : Bank
  abuf : Bank
  cbuf : Bank
  sw : Nat
  l1 : SMap (List Byte)
  tlb : List TlbEntry
  outbound : List OutLine
  bufCtx : Option Nat
  ecor : BitVec 32
  eunc : BitVec 32
  erec : BitVec 32
  spareUsed : Bool
  retired : Bool
  /-- Declared failed, and not yet rejoined (R406, R407). -/
  failed : Bool
  /-- It has failed on its own, and does not rejoin with its die (R407). -/
  alone : Bool
  /-- It has failed, and its self-test is still to be done again (R407). -/
  untested : Bool
  closedTo : Option Nat
  inc : BitVec 8
  deriving DecidableEq, Repr

/-- The kinds of tile operation (R260, R262): those that go to the arbiter, and CZERO, which does not. -/
inductive TileKind where
  | mma | mmax | mms | drain | czero
  deriving DecidableEq, Repr

/-- A request of a matrix engine: everything the operation samples at issue (R260). -/
structure TileOp where
  id : Nat
  gid : Nat
  core : Nat
  kind : TileKind
  z : Bool
  urgent : Bool
  /-- Effective priority, and the cycle of posting or of the latest step of ageing (R261). -/
  prio : Nat
  agedAt : Nat
  /-- The cycle at which the current k-step ends (R62). -/
  due : Nat
  pc : BitVec 57
  desc : BitVec 64
  fmt0 : BitVec 64
  fmt1 : BitVec 64
  tiles : BitVec 64
  /-- MMAX: pool rows of its 64 output rows (`none`: the row reads as +0) and PM (R268). -/
  rows : List (Option Nat)
  pm : Nat
  /-- MMS: the bitmap descriptor (R269). -/
  bitmaps : BitVec 64
  /-- DRAIN: format, RMR, the lanes' random states at issue, range entry, destination (R272, R326). -/
  df : Nat
  rmr : W32
  draws : List W32
  rmin : BitVec 32
  rmax : BitVec 32
  rkind : Nat
  ract : Nat
  dreg : Option Nat
  active : Mask
  space : Space
  addr : Int
  /-- DRAIN to memory: the line of an address and the line of its place (R44). -/
  lines : List (Nat × Nat)
  regionNo : Nat
  kdone : Nat
  deriving DecidableEq, Repr

/-- A matrix engine (R260, R261): the requests posted, the operation that runs and the one that it has overtaken, and the
CZEROs that wait for earlier operations of their groups (R263, R271). -/
structure MatrixEng where
  requests : List TileOp
  running : Option TileOp
  suspended : Option TileOp
  clears : List TileOp
  retired : Bool
  deriving DecidableEq, Repr

/-- How a copy walks (R301, R302, R311). The target of a CPYV is absent where the group had exited, was draining or
was none of the team's. -/
inductive CopyKind where
  | plain
  | generator
  | toRegs (target : Option Nat) (reg nreg : Nat)
  deriving DecidableEq, Repr

/-- A copy command and its issuer (R304): the control fields and the seed are bits 255:192 and 319:256 of the
command. `packet` names the queue and packet of a COPY packet. -/
structure CopyCmd where
  id : Nat
  ctx : Nat
  kind : CopyKind
  layout : BitVec 64
  coord : List (BitVec 32)
  ctl : BitVec 64
  seed : BitVec 64
  gid : Option Nat
  grid : BitVec 32
  gnum : Nat
  teamId : Nat
  core : Nat
  batch : Nat
  packet : Option (Nat × Nat)
  deriving DecidableEq, Repr

/-- A tensor layout record as an engine has read it (R297): extents, box and strides of the dimensions in order. -/
structure Layout where
  src : Nat
  dst : Nat
  hdr : Nat
  tdim : List Nat
  box : List Nat
  sstr : List Int
  dstr : List Int
  sfmt : Nat
  dfmt : Nat
  sspc : Nat
  dspc : Nat
  dir : Bool
  uops : List (BitVec 32)
  deriving DecidableEq, Repr

/-- A command that an engine has started (R296, R305): where its walk stands and what its record will say. -/
structure CopyRun where
  cmd : CopyCmd
  layout : Option Layout
  /-- Next element, next micro-operation, elements emitted of it, coordinates and loop counters (R302). -/
  elem : Nat
  uop : Nat
  emit : Nat
  c : List (BitVec 32)
  loopCnt : List (Option Nat)
  loopStart : List Nat
  rng : W32
  flags : BitVec 4
  /-- Converted elements of the tile being gathered for a signature, and the signatures still to be delivered as
  tile, SIGSUM and SIGABS (R303). -/
  sig : List (BitVec 64)
  sigs : List (Nat × Nat × Nat)
  /-- The virtual address that the walk is held up at (R307). -/
  waits : Option Nat
  /-- Finished: status, fault code, faulting address; and the number of its record, when it has one. -/
  done : Option (Nat × Nat × Nat)
  num : Option Nat
  deriving DecidableEq, Repr

/-- A copy engine (R296). -/
structure CopyEng where
  queue : List CopyCmd
  running : List CopyRun
  retired : Bool
  deriving DecidableEq, Repr

/-- A tenure entry (R322): held by a group, of a core and slot, on a handle, and whether it is being recalled. Lines are the
footprint (R319); a waiting entry is a TenureReq. -/
structure Tenure where
  id : Nat
  ctx : Nat
  index : BitVec 16
  gen : BitVec 8
  gid : Nat
  core : Nat
  slot : Nat
  inc : BitVec 8
  write : Bool
  recalling : Bool
  anchor : Nat
  lines : List Nat
  order : Nat
  deriving DecidableEq, Repr

/-- A waiting request for tenure (R323, R324), its deadline, and its THACQ's destination and PC. -/
structure TenureReq where
  id : Nat
  ctx : Nat
  index : BitVec 16
  gen : BitVec 8
  gid : Nat
  core : Nat
  slot : Nat
  inc : BitVec 8
  write : Bool
  anchor : Nat
  lines : List Nat
  deadline : Option Nat
  dst : Nat
  pc : BitVec 57
  deriving DecidableEq, Repr

/-- A reservation entry: one group's lanes on one line, each with its address and size (R248). -/
structure Reservation where
  id : Nat
  gid : Nat
  inc : BitVec 8
  line : Nat
  lanes : List (Nat × Nat × Nat)
  deriving DecidableEq, Repr

/-! ## Contexts, handles, step sets -/

/-- A handle table entry (R317). -/
structure Handle where
  gen : BitVec 8
  state : BitVec 2
  base : BitVec 57
  e0 : BitVec 32
  e1 : BitVec 16
  e2 : BitVec 16
  e3 : BitVec 16
  st1 : BitVec 32
  st2 : BitVec 32
  st3 : BitVec 32
  rmin : BitVec 32
  rmax : BitVec 32
  rkind : BitVec 2
  ract : BitVec 2
  deriving DecidableEq, Repr

/-- A step-set entry (R359). -/
structure StepSet where
  map : BitVec 57
  handle : BitVec 32
  tcnt : Nat
  thr : BitVec 32
  maxRun : BitVec 8
  state : BitVec 2
  epoch : BitVec 16
  step : BitVec 32
  nskip : Nat
  nsig : Nat
  flags : BitVec 3
  total : BitVec 32
  deriving DecidableEq, Repr

/-- The kinds of access that a walk is made for (R214, R294). -/
inductive AccKind where
  | load | store | atomic | fetch | gather | copyRead | copyWrite | frontEnd
  deriving DecidableEq, Repr

/-- Who waits on a walk or a fault record (R213, R294). -/
inductive Waiter where
  /-- A group's access, and whether it needs WR. -/
  | group (gid : Nat) (wr : Bool)
  | fetch (gid : Nat) (pc : BitVec 57)
  | copy (engine id : Nat)
  | frontEnd (q : Nat)
  | world (w : Nat)
  /-- The front end reads the reply in a slot of the context's ring (R293). -/
  | reply (slot : Nat)
  /-- The sequencer of a step set (R358). -/
  | sequencer (set : Nat)
  /-- The front end ends the packets of a queue whose context allows none (R289, R290). -/
  | ending (q : Nat)
  /-- A prefetch of a core, into its L1 or not, which holds nothing up (R254). -/
  | prefetch (core : Nat) (l1 : Bool)
  deriving DecidableEq, Repr

/-- An open fault record: its SEQ and slot, page, kind (R214, R294). -/
structure FaultRec where
  seq : Nat
  slot : Nat
  va : Nat
  kind : AccKind
  waiters : List Waiter
  deriving DecidableEq, Repr

/-- The answer to a record that came before a group acted on the record (R214): its SEQ, address and kind, the group, whether
its access needs WR, and whether the answer was Retry. -/
structure Early where
  seq : Nat
  va : Nat
  kind : AccKind
  gid : Nat
  wr : Bool
  retry : Bool
  deriving DecidableEq, Repr

/-- The life of a context (R414, R419). -/
inductive CtxState where
  | free | enabled | stopping | stopped
  deriving DecidableEq, Repr

/-- A stop record that waits to be written, or the cause (R391, R398). -/
structure StopRec where
  kind : Nat
  source : Nat
  cause : Bool
  second : Bool
  agent : Nat
  slot : Nat
  groupId : Nat
  reentry : Nat
  depth : Nat
  gridId : BitVec 32
  lanes : W64
  pc : BitVec 57
  d0 : W64
  d1 : W64
  teamId : BitVec 32
  cyc : BitVec 32
  die : Nat
  deriving DecidableEq, Repr

/-- A context as the device holds it (R314, R357, R373, R394, R414). -/
structure Ctx where
  state : CtxState
  htBase : BitVec 64
  sqBase : BitVec 64
  handles : SMap Handle
  sets : SMap StepSet
  sysSeq : Nat
  /-- System-call slots in use: slot and the group parked on it. -/
  sysSlots : List (Nat × Nat)
  /-- Slots whose reply has been rung and is still to be read: a tenure on it is being recalled (R293, R325). -/
  rung : List Nat
  frSeq : Nat
  records : List FaultRec
  early : List Early
  crSeq : Nat
  /-- Stop records: how many are written and how many dropped; the cause; faults that wait to be recorded; engines still
  to halt (R395, R397, R398). -/
  stopSeq : Nat
  stopDropped : Nat
  stopCause : Option StopRec
  stopFaults : List StopRec
  haltLeft : List Nat
  /-- Engines that have halted since the line was raised: work that reaches one later halts there at once (R395, R396). -/
  haltDone : List Nat
  /-- Engines of the context that have been declared failed, with their incarnations (R406, R409). -/
  lost : List (Nat × Nat)
  /-- Records of engines that were lost with their die while they had still to halt, by the engine's code (R409). -/
  lostRecs : List (Nat × StopRec)
  /-- Loupe is attached, and the BKPT codes it has armed (R190). -/
  loupe : Bool
  armed : List Nat
  /-- Typed buffers saved with evicted groups, by the core they were on: W, A, C (R204). -/
  savedBufs : SMap (Bank × Bank × Bank)
  deriving DecidableEq, Repr

/-- One miss that waits on a walk (R213, R214): access kind, whether it needs WR, the ENGINE code of
R294, the address whose record it would be, the core and the cluster whose TLBs it fills, and its waiter. -/
structure Miss where
  kind : AccKind
  wr : Bool
  engine : Nat
  va : Nat
  core : Option Nat
  cluster : Option Nat
  who : Waiter
  deriving DecidableEq, Repr

/-- A page walk (R213): its number, die, context, 4 KiB virtual page and the misses that wait on it. -/
structure Walk where
  id : Nat
  die : Nat
  ctx : Nat
  page : Nat
  misses : List Miss
  deriving DecidableEq, Repr

/-! ## The queue front end (R281 to R292) -/

/-- A packet that the front end has started and not retired (R286). -/
structure Started where
  num : Nat
  /-- The packet's bytes as read at its start, as a 512-bit number. -/
  img : BitVec 512
  /-- Its operation is under way; a SIGNAL or COPY that waits has started and not acted yet (R286). -/
  acted : Bool
  latched : BitVec 5
  /-- Work finished: STATUS, REASON and the GRIDID of the record. -/
  done : Option (Nat × Nat × BitVec 32)
  /-- The signal of the retirement is written, or is not to be (R287). -/
  signalled : Bool
  retired : Bool
  /-- The AREASON of the abort that follows the retirement (R289). -/
  abort : Option Nat
  deriving DecidableEq, Repr

/-- What the front end keeps of one queue (R286 to R292). -/
structure QueueSt where
  resident : Bool
  next : Nat
  started : List Started
  /-- WRITE as the last doorbell announced it. -/
  announced : Nat
  /-- Since when the next packet has been able to start, and the steps of ageing since (R291). -/
  startableAt : Option Nat
  aged : Nat
  /-- Whole quanta spent with work but not resident, whether it had work at the latest quantum end, and when it was
  resident last (R292). -/
  quanta : Nat
  worked : Bool
  lastResident : Nat
  /-- Accesses that wait on fault records, and those whose record was answered Deny: page and access (R448). -/
  waits : List (Nat × Nat)
  denied : List (Nat × Nat)
  /-- Packets whose slot could not be reached: each is dealt with before a later packet starts (R448). -/
  blocked : List Nat
  deriving DecidableEq, Repr

/-! ## The Seam unit (R336 to R348) -/

/-- A gang that a close launches (R343, stage 8; R345): its key's LOW, island, bodies, first rank, panel, panels. -/
structure GangPlan where
  low : Nat
  island : BitVec 32
  bodies : List Nat
  firstRank : Nat
  panel : Nat
  panels : Nat
  deriving DecidableEq, Repr

/-- A report of a world's contact report stream (R295). -/
structure Report where
  a : Nat
  b : Nat
  unpick : Bool
  edge : BitVec 16
  step : BitVec 32
  core : Nat
  deriving DecidableEq, Repr

/-- An island table entry (R340). -/
structure Island where
  gen : BitVec 8
  state : BitVec 2
  fray : Bool
  wakep : Bool
  moved : Bool
  rpt : Bool
  world : Nat
  low : Nat
  nb : Nat
  still : BitVec 8
  home : Nat
  homeV : Bool
  lmax : BitVec 32
  amax : BitVec 32
  user : W64
  phase : BitVec 32
  arr : Nat
  deriving DecidableEq, Repr

/-- A body map entry (R341). -/
structure Body where
  isl : BitVec 24
  rank : BitVec 20
  sel : Bool
  sleep : Bool
  lstill : BitVec 8
  lwake : Bool
  lmoved : Bool
  lrpt : Bool
  deriving DecidableEq, Repr

/-- An edge of the edge store: bodies in ascending order, kind and count (R338). -/
structure Edge where
  a : Nat
  b : Nat
  kind : BitVec 16
  count : Int
  deriving DecidableEq, Repr

/-- A world descriptor's fields (R337). -/
structure WorldDesc where
  ctx : Nat
  nbody : Nat
  panel : Nat
  gallot : Nat
  crow : Nat
  stilln : Nat
  body : Nat
  grec : Nat
  stepsig : Nat
  entry : BitVec 64
  linv : BitVec 32
  angv : BitVec 32
  queue : Nat
  seama : Nat
  elog2 : Nat
  tbuf : Bool
  deriving DecidableEq, Repr

/-- A world of a Seam unit (R336, R343, R348, R354). -/
structure World where
  isOpen : Bool
  desc : WorldDesc
  step : BitVec 32
  flags : BitVec 4
  error : Bool
  /-- A STEPC has been accepted and its close has not finished. -/
  closing : Bool
  /-- The gangs of a close whose earlier stages are done and whose gang records are still to be written (R343, stage 8). -/
  launch : Option (List GangPlan)
  /-- What STEPSIG has still to receive, once the gangs launched have retired (R348). -/
  sigDue : Option W64
  /-- WCLOSE has been latched. -/
  ending : Bool
  /-- The grid of the gangs launched, whose spawn-tree counter is the world's (R345). -/
  grid : Option Nat
  stream : List Report
  bodies : SMap Body
  edges : List Edge
  /-- Panel barrier of gangs without an island entry, keyed by team: phase and arrivals (R353). -/
  loosePanels : SMap (BitVec 32 × Nat)
  /-- Pages of the Seam unit's accesses whose records were answered Deny, with the access kind's number (R348). -/
  denied : List (Nat × Nat)
  deriving DecidableEq, Repr

/-! ## Dies, host, device -/

/-- A black-box record (R408). -/
structure BlackBox where
  seq : BitVec 32
  event : Nat
  kind : Nat
  ctx : Nat
  cycle : W64
  agent : W64
  addr : W64
  data : BitVec 256
  deriving DecidableEq, Repr

/-- A die (R12, R14, R339, R344, R408, R421). -/
structure Die where
  cycle : W64
  powered : Bool
  /-- Its failure has been declared, and it has not rejoined (R406, R407). -/
  failed : Bool
  divisor : Nat
  cap : Nat
  box : List BlackBox
  boxSeq : BitVec 32
  inc : BitVec 8
  islands : SMap Island
  forwards : List (BitVec 32 × BitVec 32 × Nat)
  deriving DecidableEq, Repr

/-- A fabric port (R381, R416). -/
structure Port where
  state : BitVec 2
  spare : Bool
  lsn : BitVec 16
  peer : BitVec 32
  fcor : BitVec 32
  frpl : BitVec 32
  /-- Drain rounds done of a dead link, and the cycle of its die at which the current one began (R405). -/
  drainRounds : Nat
  drainAt : Nat
  /-- The device at the far end of a dead link, and the cycle of the port's die in which it last accepted a flit (R405). -/
  far : BitVec 32
  acceptAt : Nat
  deriving DecidableEq, Repr

/-- A running transfer or checkpoint job (R417, R418). -/
structure Job where
  num : Nat
  ckpt : Bool
  ports : BitVec 24
  localBase : Nat
  peerBase : W64
  len : Nat
  pull : Bool
  jobWord : W64
  linesDone : Nat
  deriving DecidableEq, Repr

/-- An invalidation under way (R215): context and pages, each die's cycle at the request, the regions that held a line of the
range (group and region number), and the walks that were running. -/
structure Inval where
  ctx : Nat
  lo : Nat
  hi : Nat
  asOf : List Nat
  held : List (Nat × Nat)
  walks : List Nat
  deriving DecidableEq, Repr

/-- A command in progress: the latched window and the words still to be answered (R413). -/
structure Command where
  op : Nat
  args : List W64
  deriving DecidableEq, Repr

/-- The host register block and what stands behind it (R411 to R421). -/
structure HostSt where
  ready : BitVec 64
  qdesc : BitVec 64
  ctxbase : BitVec 64
  cmd : List W64
  busy : Bool
  ovr : Bool
  status : BitVec 8
  completions : BitVec 32
  command : Option Command
  inval : Option Inval
  qexp : Nat
  qexpNext : Nat
  eunThr : BitVec 32
  /-- The four job slots (R417, R419). -/
  jobs : SMap Job
  nextJob : Nat
  /-- Key slots 1 to 127: the data key and the tweak key (R420). -/
  keys : SMap (Option (BitVec 512))
  /-- The bytes that the latest CXL.mem read has returned, each with its poison (R410). -/
  answer : List (Byte × Bool)
  /-- Bytes that the device has written into host memory through CXL.cache (R410). -/
  hostMem : List Host.Cell
  /-- Incarnations of the host and of the peers, by serial number (R236, R407). -/
  inc : BitVec 8
  peerInc : SMap (BitVec 8)
  /-- The incarnation of the host, and those of peers, that have been retired: their messages are dropped until they rejoin
  (R236, R406). -/
  lost : Bool
  peersLost : SMap Bool
  deriving DecidableEq, Repr

/-- What a line of device memory is encrypted under (R211, R420): a key that was loaded into a slot, the management key of slot
0, or nothing that the device knows yet: a restored line stands as its image had it (R418). -/
inductive LineKey where
  | raw
  | management
  | loaded (key : BitVec 512)
  deriving DecidableEq, Repr

/-- A page of physical memory and the key of the leaf that mapped it first: frame, size as a power of two, key (R211). -/
structure PageKey where
  frame : Nat
  size : Nat
  key : LineKey
  deriving DecidableEq, Repr

/-- What a walk has returned to a unit that has no TLB, for the access that it has under way (R213): context, 4 KiB page, the unit,
and the translation, or none where the walk failed. -/
structure UnitTr where
  ctx : Nat
  page : Nat
  who : Waiter
  entry : Option TlbEntry
  deriving DecidableEq, Repr

/-- The events that the bobbins take (R419): a fault record and a system call, each with the queue in whose order it stands; a
queue that waits (R292); the end of a quantum. -/
inductive DeviceEvent where
  | faultRecord (ctx seq queue : Nat)
  | sysCall (ctx slot queue : Nat)
  | waitingQueue (q : Nat)
  | quantumEnd
  deriving DecidableEq, Repr

/-- A split chosen to issue in the current cycle. -/
structure IssueRef where
  gid : Nat
  split : Nat
  deriving DecidableEq, Repr

/-- The split that is issuing, as the step found it: its group, label, PC, the lanes of its running path
(or of the waiting lanes that a boundary has fused), and the instruction's length. The model's own. -/
structure Issuing where
  gid : Nat
  split : Nat
  pc : BitVec 57
  lanes : Mask
  fused : Bool
  len : Nat
  deriving DecidableEq, Repr

/-- The machine. -/
structure State where
  mem : Bank
  /-- Bytes written under tenure by a die that is not their home and not yet written back: byte to die + 1, and the byte and
  its poison as the home still has them (R206). -/
  l2dirty : SMap (Nat × Byte × Bool)
  /-- Lines that the L2 slices of their homes hold, with the mask of the bytes that HBM has not (R198). -/
  l2home : SMap Nat
  /-- Lines that the L2 of another die holds a clean copy of under a tenure of it, each by its line and die (R198, R206). -/
  l2copies : SMap Bool
  /-- What single lines are encrypted under, and what pages are, the first leaf that mapped them first (R211). `mem` holds each
  line as it reads under its key. -/
  lineKeys : SMap LineKey
  pageKeys : List PageKey
  /-- What bytes held before they were changed while a grid ran: value, and the number that the next grid was to get (R113). -/
  past : SMap (List (Byte × Nat))
  /-- Halves of lines that the host holds (R234): half number to true. -/
  hostHalves : SMap Bool
  groups : SMap Group
  teams : SMap Team
  grids : SMap Grid
  nextGid : Nat
  nextTeamKey : Nat
  nextGridKey : Nat
  gridSerial : BitVec 32
  cores : SMap CoreSt
  clusterTlb : SMap (List TlbEntry)
  matrix : SMap MatrixEng
  copyEng : SMap CopyEng
  tenures : List Tenure
  tenureReqs : List TenureReq
  reservations : List Reservation
  walks : List Walk
  /-- What the walks of the units without a TLB have returned to them (R213). -/
  unitTrs : List UnitTr
  /-- The device-wide event queue in its order of arrival, each event with the bobbin whose firmware has failed on it, and the
  events that the twelve bobbins handle (R419). -/
  events : List (DeviceEvent × Option Nat)
  bobbins : SMap DeviceEvent
  ctxs : SMap Ctx
  queues : SMap QueueSt
  /-- Queues whose descriptor's STATE has been written since reset (R283). -/
  stateSet : SMap Bool
  /-- Quantum start of the current quantum, in cycles of die 0 (R292). -/
  quantumAt : Nat
  /-- The queue that has won arbitration, and the cycle of die 0 of the latest start (R291). -/
  feGrant : Option Nat
  feAt : Option Nat
  /-- The cycle of die 0 in which the scheduler last tried every waiting team (R31). -/
  tryAt : Nat
  /-- Retirements that wait for stops to end (R409): twice the engine's code, plus 1 where it has failed. -/
  retireDue : List Nat
  /-- Cores whose failing quad is to be mapped onto the spare when these regions, by group and region number, have ended (R401). -/
  sparing : SMap (List (Nat × Nat))
  worlds : SMap World
  dies : SMap Die
  ports : SMap Port
  /-- Link-state updates that the device has sent on, as port and number, the latest last (R405). -/
  floods : List (Nat × BitVec 16)
  host : HostSt
  /-- Spare rows used per bank and bad frames (R404). -/
  spareRows : SMap Nat
  /-- Corrected errors of a row, and the frames that lie in it. -/
  rowErrors : SMap (Nat × List Nat)
  badFrames : SMap Bool
  /-- Numbers that the model gives to loads, copies, walks, tenures and requests. -/
  nextId : Nat
  /-- The model's own: inputs of the outside world and timing choices still to be taken. -/
  agenda : List Instr
  /-- The model's own: splits chosen in the current issue cycle. -/
  issue : List IssueRef
  /-- The model's own: the split that is issuing. -/
  cur : Option Issuing
  /-- The model's own: what has issued in the current cycle of each die, as core, group and quads (R32). -/
  inCycle : List (Nat × Nat × Nat)
  /-- The model's own: how many free values have been drawn. -/
  fresh : Nat
  deriving DecidableEq, Repr

/-! ## Stops of the model -/

/-- Why a step stops with a fault. No program fault of the spec is among them: those are next states. -/
inductive Fault where
  /-- Raised by an instruction's meaning when no split is issuing it. Safe: the machine issues no
  instruction without a split. -/
  | noIssuingSplit
  deriving DecidableEq, Repr

/-- Why a step is refused. -/
inductive Refusal where
  /-- Raised by Machine/Dispatch.lean for an instruction that has no meaning yet. Safe. -/
  | notModelled (mnemonic : String)
  deriving DecidableEq, Repr

/-! ## Reset values -/

/-- A memory with nothing listed. -/
def Bank.empty : Bank := ⟨[], []⟩

/-- The tracking of a region that has read and written nothing (R46, R47). -/
def Track.clear : Track := ⟨[], [], 0, 0, 0, 0, 0, 0, 0, 0, false, false, false, 0, 0⟩

/-- A core at reset: every way cache and empty (R198), buffers 0, counters 0, in service. -/
def CoreSt.reset : CoreSt :=
  ⟨Bank.empty, Bank.empty, Bank.empty, Bank.empty, 0, [], [], [], none, 0, 0, 0, false, false, false, false, false, none, 1⟩

/-- A matrix engine at reset: no request. -/
def MatrixEng.reset : MatrixEng := ⟨[], none, none, [], false⟩

/-- A copy engine at reset: no command. -/
def CopyEng.reset : CopyEng := ⟨[], [], false⟩

/-- A handle table entry at reset: free, GEN 1 (R314). -/
def Handle.reset : Handle := ⟨1, 0, 0, 0, 0, 0, 0, 0, 0, 0, 0, 0, 0, 0⟩

/-- A step-set entry at reset: unused, EPOCH 0 (R357). -/
def StepSet.reset : StepSet := ⟨0, 0, 0, 0, 0, 0, 0, 0, 0, 0, 0, 0⟩

/-- A context that is not enabled. -/
def Ctx.reset : Ctx := ⟨.free, 0, 0, [], [], 0, [], [], 0, [], [], 0, 0, 0, none, [], [], [], [], [], false, [], []⟩

/-- A queue that the front end has not seen (R281, R292). -/
def QueueSt.reset : QueueSt := ⟨false, 0, [], 0, none, 0, 0, false, 0, [], [], []⟩

/-- An island table entry at reset: free, GEN 1 (R336). -/
def Island.reset : Island := ⟨1, 0, false, false, false, false, 0, 0, 0, 0, 0, false, 0, 0, 0, 0, 0⟩

/-- A body at reset: loose and awake, still count 0 (R336). -/
def Body.reset : Body := ⟨0, 0, false, false, 0, false, false, false⟩

/-- A closed world (R336, R337). -/
def World.reset : World :=
  ⟨false, ⟨0, 0, 0, 0, 0, 0, 0, 0, 0, 0, 0, 0, 0, 0, 0, false⟩, 0, 0, false, false, none, none, false, none, [], [], [],
   [], []⟩

/-- A die out of reset: counter 0 (R12), cap 1,300 W (R421), black box empty. -/
def Die.reset : Die := ⟨0, true, false, 1, 1300, [], 0, 1, [], []⟩

/-- A port at reset: down (R416). -/
def Port.reset : Port := ⟨0, false, 0, 0, 0, 0, 0, 0, 0, 0⟩

/-- The host registers at reset (R411 to R414, R292). -/
def HostSt.reset : HostSt :=
  ⟨0, 0, 0, List.replicate 8 0, false, false, 0, 0, none, none, 20, 20, 64, [], 1, [], [], [], 1, [], false, []⟩

/-- The machine right after reset: nothing listed, no context, no group, every table empty. -/
def State.reset : State where
  mem := Bank.empty
  l2dirty := []
  l2home := []
  l2copies := []
  lineKeys := []
  pageKeys := []
  past := []
  hostHalves := []
  groups := []
  teams := []
  grids := []
  nextGid := 0
  nextTeamKey := 0
  nextGridKey := 0
  gridSerial := 0
  cores := []
  clusterTlb := []
  matrix := []
  copyEng := []
  tenures := []
  tenureReqs := []
  reservations := []
  walks := []
  unitTrs := []
  events := []
  bobbins := []
  ctxs := []
  queues := []
  stateSet := []
  quantumAt := 0
  feGrant := none
  feAt := none
  tryAt := 0
  retireDue := []
  sparing := []
  worlds := []
  dies := []
  ports := []
  floods := []
  host := HostSt.reset
  spareRows := []
  rowErrors := []
  badFrames := []
  nextId := 0
  agenda := []
  issue := []
  cur := none
  inCycle := []
  fresh := 0

end Sys2Proof.Machine
end

