-- ==== Sys2Proof/Machine/Base.lean ====
section
/-!
DEFINITION. The ground of the named operations: sparse tables, memories, words and masks, accessors of the parts of the
state, homes (R10), lanes of a group, and the device's reading of physical memory.
-/

namespace Sys2Proof.Machine

/-! ## Sparse tables -/

/-- The value at a key, where one is listed. -/
def smFind {α : Type} (m : SMap α) (k : Nat) : Option α :=
  match m with
  | [] => none
  | (j, v) :: t => if k = j then some v else smFind t k

/-- Put a value at a key. -/
def smPut {α : Type} (m : SMap α) (k : Nat) (v : α) : SMap α :=
  match m with
  | [] => [(k, v)]
  | (j, w) :: t => if k = j then (k, v) :: t else if k < j then (k, v) :: (j, w) :: t else (j, w) :: smPut t k v

/-- Take a key away. -/
def smDel {α : Type} (m : SMap α) (k : Nat) : SMap α :=
  match m with
  | [] => []
  | (j, w) :: t => if k = j then smDel t k else (j, w) :: smDel t k

/-- The value at a key, `d` where none is listed. -/
def smGet {α : Type} (d : α) (m : SMap α) (k : Nat) : α := (smFind m k).getD d

/-- Set the value at a key; the value that an unlisted key reads as removes the entry. -/
def smSet {α : Type} [DecidableEq α] (d : α) (m : SMap α) (k : Nat) (v : α) : SMap α :=
  if v = d then smDel m k else smPut m k v

/-- The canonical form of a sparse table: keys strictly rising, no value equal to the default. -/
def smWf {α : Type} [DecidableEq α] (d : α) (m : SMap α) : Bool :=
  match m with
  | [] => true
  | (j, v) :: t => v != d && (match t with
    | [] => true
    | (k, _) :: _ => j < k) && smWf d t

/-- The keys of a table with their values, changed where `f` says so. -/
def smMap {α : Type} (f : Nat → α → α) (m : SMap α) : SMap α := m.map fun kv => (kv.1, f kv.1 kv.2)

/-! ## Memories -/

/-- The byte at an address; a byte that nothing has written reads 0 (DESIGN CHOICE, log entry 1; R199). -/
def bankByte (b : Bank) (a : Nat) : Byte := smGet 0 b.bytes a

/-- The byte at an address is poisoned (R207). -/
def bankPoison (b : Bank) (a : Nat) : Bool := smGet false b.poison a

/-- One write event's byte: address, value, and whether the write itself is a poisoning one. -/
structure WByte where
  addr : Nat
  val : Byte
  pois : Bool
  deriving DecidableEq, Repr

/-- Write one byte's value. -/
def bankPut (b : Bank) (a : Nat) (v : Byte) : Bank := { b with bytes := smSet 0 b.bytes a v }

/-- Mark or clear one byte's poison. -/
def bankMark (b : Bank) (a : Nat) (p : Bool) : Bank := { b with poison := smSet false b.poison a p }

/-- A write event: every byte takes its value; the poison of each aligned 4-byte word whose four bytes the
event writes is cleared (R207); bytes that the event poisons are marked. -/
def bankWrite (b : Bank) (ws : List WByte) : Bank :=
  let b1 := ws.foldl (fun b w => bankPut b w.addr w.val) b
  let whole (a : Nat) : Bool := (List.range 4).all fun i => ws.any fun w => w.addr == a / 4 * 4 + i
  let b2 := ws.foldl (fun b w => if bankPoison b w.addr && whole w.addr then bankMark b w.addr false else b) b1
  ws.foldl (fun b w => if w.pois then bankMark b w.addr true else b) b2

/-- The canonical form of a memory's two tables. -/
def Bank.wf (b : Bank) : Bool := smWf 0 b.bytes && smWf false b.poison

/-- `n` bytes from an address, each with its poison. -/
def bankBytes (b : Bank) (a n : Nat) : List (Byte × Bool) :=
  (List.range n).map fun i => (bankByte b (a + i), bankPoison b (a + i))

/-- The little-endian value of bytes (R2). -/
def leNat (bs : List Byte) : Nat := wordOfBytes bs

/-- The little-endian bytes of a value (R2). -/
def leBytes (n v : Nat) : List Byte := bytesOfWord n v

/-- Consecutive write bytes from an address. -/
def wbytes (a : Nat) (bs : List Byte) : List WByte := bs.zipIdx.map fun p => ⟨a + p.2, p.1, false⟩

/-! ## Words and masks -/

/-- Bits `hi` to `lo` of a number. -/
def nfld (v hi lo : Nat) : Nat := (v >>> lo) % 2 ^ (hi + 1 - lo)

/-- A lane is in a mask. -/
def inMask (m : Mask) (l : Nat) : Bool := m.getLsbD l

/-- The mask of one lane. -/
def laneBit (l : Nat) : Mask := 1#64 <<< l

/-- The mask of the lanes that satisfy `f`. -/
def maskOf (f : Nat → Bool) : Mask :=
  BitVec.ofNat 64 ((List.range 64).foldl (fun n l => if f l then n + 2 ^ l else n) 0)

/-- The lanes of a mask in ascending order. -/
def lanesOf (m : Mask) : List Nat := (List.range 64).filter (inMask m)

/-- The four lanes of quad q (R5). -/
def quadMask (q : Nat) : Mask := 0xF#64 <<< (4 * q)

/-- The signed value of a 32-bit word. -/
def sval32 (w : W32) : Int := w.toInt

/-- Consecutive numbers. -/
def run (n len : Nat) : List Nat := (List.range len).map (n + ·)

/-- The element of a list at an index changed; a list too short for it grows with `d`. -/
def setAt {α : Type} (d : α) (l : List α) (i : Nat) (x : α) : List α :=
  match l, i with
  | [], 0 => [x]
  | [], n + 1 => d :: setAt d [] n x
  | _ :: t, 0 => x :: t
  | a :: t, n + 1 => a :: setAt d t n x

/-! ## Parts of the state -/

def State.core (s : State) (n : Nat) : CoreSt := smGet CoreSt.reset s.cores n
def State.setCore (s : State) (n : Nat) (c : CoreSt) : State := { s with cores := smSet CoreSt.reset s.cores n c }
def State.group? (s : State) (gid : Nat) : Option Group := smFind s.groups gid
def State.setGroup (s : State) (gid : Nat) (g : Group) : State := { s with groups := smPut s.groups gid g }
def State.die (s : State) (d : Nat) : Die := smGet Die.reset s.dies d
def State.setDie (s : State) (d : Nat) (x : Die) : State := { s with dies := smSet Die.reset s.dies d x }
def State.ctx (s : State) (c : Nat) : Ctx := smGet Ctx.reset s.ctxs c
def State.setCtx (s : State) (c : Nat) (x : Ctx) : State := { s with ctxs := smSet Ctx.reset s.ctxs c x }
def State.world (s : State) (w : Nat) : World := smGet World.reset s.worlds w
def State.setWorld (s : State) (w : Nat) (x : World) : State := { s with worlds := smSet World.reset s.worlds w x }
def State.queue (s : State) (q : Nat) : QueueSt := smGet QueueSt.reset s.queues q
def State.setQueue (s : State) (q : Nat) (x : QueueSt) : State := { s with queues := smSet QueueSt.reset s.queues q x }
def State.matrixEng (s : State) (e : Nat) : MatrixEng := smGet MatrixEng.reset s.matrix e
def State.setMatrix (s : State) (e : Nat) (x : MatrixEng) : State :=
  { s with matrix := smSet MatrixEng.reset s.matrix e x }
def State.copyEngine (s : State) (e : Nat) : CopyEng := smGet CopyEng.reset s.copyEng e
def State.setCopyEng (s : State) (e : Nat) (x : CopyEng) : State :=
  { s with copyEng := smSet CopyEng.reset s.copyEng e x }
def State.port (s : State) (p : Nat) : Port := smGet Port.reset s.ports p
def State.setPort (s : State) (p : Nat) (x : Port) : State := { s with ports := smSet Port.reset s.ports p x }
def State.team? (s : State) (t : Nat) : Option Team := smFind s.teams t
def State.setTeam (s : State) (t : Nat) (x : Team) : State := { s with teams := smPut s.teams t x }
def State.grid? (s : State) (g : Nat) : Option Grid := smFind s.grids g
def State.setGrid (s : State) (g : Nat) (x : Grid) : State := { s with grids := smPut s.grids g x }
def Ctx.handle (c : Ctx) (i : Nat) : Handle := smGet Handle.reset c.handles i
def Ctx.setHandle (c : Ctx) (i : Nat) (h : Handle) : Ctx := { c with handles := smSet Handle.reset c.handles i h }
def Ctx.set (c : Ctx) (i : Nat) : StepSet := smGet StepSet.reset c.sets i
def Ctx.setSet (c : Ctx) (i : Nat) (x : StepSet) : Ctx := { c with sets := smSet StepSet.reset c.sets i x }
def Die.island (d : Die) (i : Nat) : Island := smGet Island.reset d.islands i
def Die.setIsland (d : Die) (i : Nat) (x : Island) : Die := { d with islands := smSet Island.reset d.islands i x }
def World.bodyAt (w : World) (b : Nat) : Body := smGet Body.reset w.bodies b
def World.setBody (w : World) (b : Nat) (x : Body) : World := { w with bodies := smSet Body.reset w.bodies b x }

/-- The next free value of the run, and the state that has drawn it. -/
def State.draw (s : State) : Bool × State := (Config.freeBit s.fresh, { s with fresh := s.fresh + 1 })

/-! ## Units and homes (R9, R10) -/

def dieOfCore (n : Nat) : Nat := n / 256
def clusterOfCore (n : Nat) : Nat := n / 4
def engineOfCore (n : Nat) : Nat := n / 4
def homeDie (pa : Nat) : Nat := pa / Config.diePhys

/-- The home slice of a physical address, numbered 64·die + slice (R10). -/
def homeSlice (pa : Nat) : Nat :=
  let o := pa % Config.diePhys
  64 * homeDie pa + (((o >>> 7) % 64) ^^^ ((o >>> 13) % 64) ^^^ ((o >>> 19) % 64))

/-- The device stack of a physical address (R10). -/
def homeStack (pa : Nat) : Nat := 3 * homeDie pa + ((pa % Config.diePhys) >>> 12) % 3

/-- A row of a bank of a device stack by one number, and its bank (R404). -/
def rowKey (stack bank row : Nat) : Nat := (stack * 2 ^ 16 + bank) * 2 ^ 32 + row
def bankKey (stack bank : Nat) : Nat := stack * 2 ^ 16 + bank

/-- The row that holds a physical byte (R404). Where the rows of a stack lie is FREE (log entry 87). -/
def rowAt (pa : Nat) : Nat :=
  rowKey (homeStack pa) (Config.rowOf pa / 2 ^ 32 % 2 ^ 16) (Config.rowOf pa % 2 ^ 32)

/-- The bank of a core that a space other than `g:` lies in (R198). -/
def CoreSt.bank (c : CoreSt) (sp : Space) : Bank :=
  match sp with
  | .g | .l => c.scratch
  | .w => c.wbuf
  | .a => c.abuf
  | .c => c.cbuf

def CoreSt.setBank (c : CoreSt) (sp : Space) (b : Bank) : CoreSt :=
  match sp with
  | .g | .l => { c with scratch := b }
  | .w => { c with wbuf := b }
  | .a => { c with abuf := b }
  | .c => { c with cbuf := b }

def spaceCode (sp : Space) : Nat :=
  match sp with
  | .g => 0
  | .l => 1
  | .w => 2
  | .a => 3
  | .c => 4

def spaceOf (n : Nat) : Space :=
  match n with
  | 0 => .g
  | 1 => .l
  | 2 => .w
  | 3 => .a
  | _ => .c

/-- The size of a typed buffer (R198). -/
def bufSize (sp : Space) : Nat := if sp = .a then 131072 else 262144

/-! ## Lanes of a group (R19, R118) -/

/-- P7: lanes launched, not exited, not dead (R118). -/
def Group.live (g : Group) : Mask := g.launched &&& ~~~g.exited &&& ~~~g.dead

/-- A predicate register as read (R118). DESIGN CHOICE (log entry 95): a split reads what an earlier-picked split of the same cycle has
written to it; R131 gives the values before the cycle for S and X registers alone. -/
def Group.pred (g : Group) (n : Nat) : Mask := if n = 7 then g.live else g.p.getD n 0

/-- The lanes that a guard selects (R19, R82). -/
def Group.guardMask (g : Group) (gd : Guard) : Mask :=
  let p := g.pred gd.gi.toNat
  if gd.gn then ~~~p else p

/-! ## The device's access to physical memory -/

/-- Device memory answers at an address: it exists, and its die has power and has not failed (R10, R406). -/
def State.memUp (s : State) (pa : Nat) : Bool :=
  pa < Config.physEnd && (s.die (homeDie pa)).powered && !(s.die (homeDie pa)).failed

/-- `n` bytes read at their home; bytes of a die without power read as poison (R406). -/
def State.memRead (s : State) (pa n : Nat) : List (Byte × Bool) :=
  (List.range n).map fun i =>
    if s.memUp (pa + i) then (bankByte s.mem (pa + i), bankPoison s.mem (pa + i)) else (0, true)

/-- A number read at its home, with its poison. -/
def State.memNat (s : State) (pa n : Nat) : Nat × Bool :=
  let bs := s.memRead pa n
  (leNat (bs.map (·.1)), bs.any (·.2))

end Sys2Proof.Machine
end

