-- ==== Sys2Proof/Machine/Cipher.lean ====
section
/-!
DEFINITION. The encryption of a page's data between L2 and HBM (R211, R420): AES-256-XTS over the 128-byte line, and what a
change of a page's key does to the bytes that the page reads as.
-/

namespace Sys2Proof.Machine

/-! ## AES-256 -/

/-- Twice an element of the field of AES. -/
def gfTwice (a : Nat) : Nat := if a < 128 then 2 * a else (2 * a) ^^^ 0x11B

/-- The product of two elements, over the bits of the second. -/
def gfMul (a b : Nat) : Nat :=
  ((List.range 8).foldl (fun p i => ((if b.testBit i then p.1 ^^^ p.2 else p.1), gfTwice p.2)) (0, a)).1

/-- The inverse of an element, its power of 254; that of 0 is 0. -/
def gfInv (a : Nat) : Nat :=
  let a2 := gfMul a a
  let a4 := gfMul a2 a2
  let a8 := gfMul a4 a4
  let a16 := gfMul a8 a8
  let a32 := gfMul a16 a16
  let a64 := gfMul a32 a32
  let a128 := gfMul a64 a64
  gfMul a128 (gfMul a64 (gfMul a32 (gfMul a16 (gfMul a8 (gfMul a4 a2)))))

/-- A byte turned left. -/
def rotl8 (a n : Nat) : Nat := (a <<< n) % 256 ||| a >>> (8 - n)

/-- The substitution of a byte, and its inverse. -/
def aesSub (a : Nat) : Nat :=
  let i := gfInv a
  i ^^^ rotl8 i 1 ^^^ rotl8 i 2 ^^^ rotl8 i 3 ^^^ rotl8 i 4 ^^^ 0x63
def aesUnsub (a : Nat) : Nat := gfInv (rotl8 a 1 ^^^ rotl8 a 3 ^^^ rotl8 a 6 ^^^ 5)

/-- Two rows of bytes added. -/
def xorBytes (a b : List Nat) : List Nat := (a.zip b).map fun p => p.1 ^^^ p.2

/-- The next words of the key schedule, four bytes each: `n` more, of which the latest eight are given, newest last. -/
def keyWords : Nat → Nat → Nat → List (List Nat) → List (List Nat)
  | 0, _, _, _ => []
  | n + 1, i, rcon, ws =>
    let last := ws.getD 7 []
    let t := if i % 8 = 0 then xorBytes ((last.drop 1 ++ last.take 1).map aesSub) [rcon, 0, 0, 0]
      else if i % 8 = 4 then last.map aesSub else last
    let w := xorBytes (ws.headD []) t
    w :: keyWords n (i + 1) (if i % 8 = 0 then gfTwice rcon else rcon) (ws.drop 1 ++ [w])

/-- The fifteen round keys of a 256-bit key, 16 bytes each. -/
def aesKeys (key : List Nat) : List (List Nat) :=
  let first := (List.range 8).map fun i => (key.drop (4 * i)).take 4
  let ws := first ++ keyWords 52 8 1 first
  (List.range 15).map fun r => ((ws.drop (4 * r)).take 4).flatten

/-- The rows of a block, bytes in columns, turned left by `by_` times their number. -/
def turnRows (by_ : Nat) (b : List Nat) : List Nat :=
  (List.range 16).map fun i => b.getD ((i + 4 * by_ * (i % 4)) % 16) 0

/-- A block's columns multiplied by the circulant of four coefficients. -/
def mixCols (c : List Nat) (b : List Nat) : List Nat :=
  (List.range 16).map fun i =>
    (List.range 4).foldl (fun n j => n ^^^ gfMul (b.getD (i / 4 * 4 + j) 0) (c.getD ((j + 4 - i % 4) % 4) 0)) 0

/-- AES-256 of a block of 16 bytes under its round keys. -/
def aesEnc (keys : List (List Nat)) (block : List Nat) : List Nat :=
  let mid := ((keys.drop 1).take 13).foldl (fun b k => xorBytes (mixCols [2, 3, 1, 1] (turnRows 1 (b.map aesSub))) k)
    (xorBytes block (keys.headD []))
  xorBytes (turnRows 1 (mid.map aesSub)) (keys.getD 14 [])

/-- Its inverse. -/
def aesDec (keys : List (List Nat)) (block : List Nat) : List Nat :=
  let back (b : List Nat) : List Nat := (turnRows 3 b).map aesUnsub
  let mid := (((keys.drop 1).take 13).reverse).foldl (fun b k => back (mixCols [14, 11, 13, 9] (xorBytes b k)))
    (back (xorBytes block (keys.getD 14 [])))
  xorBytes mid (keys.headD [])

/-! ## XTS over a line -/

/-- The next tweak of a line: the product with the field's root, bytes little-endian. -/
def nextTweak (t : Nat) : Nat := if t < 2 ^ 127 then 2 * t else (2 * t) % 2 ^ 128 ^^^ 0x87

/-- One data unit of 128 bytes at a physical line address, through AES-256-XTS under a data key and a tweak key, the data
key in the first 32 bytes (R211, R420). -/
def xtsLine (decrypt : Bool) (key : BitVec 512) (pa : Nat) (bytes : List Nat) : List Nat :=
  let kb := (leBytes 64 key.toNat).map (·.toNat)
  let data := aesKeys (kb.take 32)
  let first := aesEnc (aesKeys (kb.drop 32)) ((leBytes 16 pa).map (·.toNat))
  let t0 := leNat (first.map (BitVec.ofNat 8))
  ((List.range 8).foldl (fun (p : List Nat × Nat) i =>
    let t := (leBytes 16 p.2).map (·.toNat)
    let x := xorBytes ((bytes.drop (16 * i)).take 16) t
    (p.1 ++ xorBytes (if decrypt then aesDec data x else aesEnc data x) t, nextTweak p.2)) ([], t0)).1

/-! ## The keys of lines (R209, R211, R418, R420) -/

/-- The bytes of a line run through the cipher of a key, either way. -/
def LineKey.run (k : LineKey) (decrypt : Bool) (line : Nat) (bytes : List Nat) : List Nat :=
  match k with
  | .raw => bytes
  | .management => xtsLine decrypt Config.managementKey (128 * line) bytes
  | .loaded key => xtsLine decrypt key (128 * line) bytes

/-- A line's bytes as they read under another key than the one that HBM holds them under. -/
def recode (line : Nat) (old new : LineKey) (bytes : List Nat) : List Nat := new.run true line (old.run false line bytes)

/-- What the pages of a slot are encrypted under: slot 0 holds the management key, which the device makes and which never leaves
it. No access goes through a slot without a key (R211). -/
def State.slotKey (s : State) (slot : Nat) : LineKey :=
  if slot = 0 then .management
  else match smGet none s.host.keys slot with
    | some k => .loaded k
    | none => .raw

/-- A page holds a line. -/
def PageKey.covers (p : PageKey) (line : Nat) : Bool := p.frame ≤ 128 * line && 128 * line < p.frame + 2 ^ p.size

/-- The key that a line is held under. DESIGN CHOICE (log entry 52): that of the leaf through which it was last accessed, and
before that of the leaf that a walk found first over its page; a line that no leaf has mapped yet has none, and keeps its bytes as they
read when one does (R211 names no key for it). -/
def State.lineKey (s : State) (line : Nat) : Option LineKey :=
  match smFind s.lineKeys line with
  | some k => some k
  | none => (s.pageKeys.find? (·.covers line)).map (·.key)

/-- A line may be accessed through a leaf with a key slot as it is held. -/
def State.keyFits (s : State) (line slot : Nat) : Bool :=
  match s.lineKey line with
  | none => true
  | some k => k == s.slotKey slot

/-- The bytes of a line as they stand. -/
def State.lineNow (s : State) (line : Nat) : List Nat := (run (128 * line) 128).map fun a => (bankByte s.mem a).toNat

/-- No L2 holds a line. -/
def State.dropL2 (s : State) (line : Nat) : State :=
  { s with l2home := smDel s.l2home line
           l2dirty := s.l2dirty.filter fun kv => kv.1 / 128 != line
           l2copies := s.l2copies.filter fun kv => kv.1 / 4 != line }

/-- A line is held under the key of a leaf's slot from now on (R211): where it was held under another, it is written back under
that, and HBM's ciphertext reads through the leaf's key. DESIGN CHOICE (log entry 52): an L2 serves a line only to accesses
under the key that it holds it under. -/
def State.useLine (s : State) (line slot : Nat) : State :=
  match s.lineKey line with
  | none => s
  | some k =>
    if k = s.slotKey slot then s
    else
      let bytes := recode line k (s.slotKey slot) (s.lineNow line)
      { s.dropL2 line with
        mem := bytes.zipIdx.foldl (fun b p => bankPut b (128 * line + p.2) (BitVec.ofNat 8 p.1)) s.mem
        lineKeys := smPut s.lineKeys line (s.slotKey slot) }

/-- Bytes of a page-table frame, which are read under slot 0 (R211): of a line that is held under another key, as they would
read under the management key. -/
def State.tableRead (s : State) (pa n : Nat) : List (Byte × Bool) :=
  let plain := s.memRead pa n
  match s.lineKey (pa / 128) with
  | none => plain
  | some k =>
    if k = .management then plain
    else
      let bytes := recode (pa / 128) k .management (s.lineNow (pa / 128))
      plain.zipIdx.map fun p => (BitVec.ofNat 8 (bytes.getD (pa % 128 + p.2) 0), p.1.2)

/-- `n` bytes, of two lines at most, read at a physical address that no leaf maps. DESIGN CHOICE (log entry 52): a restored line
(R418) reads so under slot 0. -/
def State.physRead (s : State) (pa n : Nat) : List (Byte × Bool) :=
  let part (a k : Nat) : List (Byte × Bool) := if s.lineKey (a / 128) = some .raw then s.tableRead a k else s.memRead a k
  let k := min n (128 - pa % 128)
  part pa k ++ part (pa + k) (n - k)

/-- A line is written so: it is held under slot 0 from then on, where it stood as it was restored. -/
def State.openLine (s : State) (line : Nat) : State := if s.lineKey line = some .raw then s.useLine line 0 else s

/-- A walk has found a leaf over a page: lines of it that have no key yet are held under the leaf's (R211). No byte changes (R216). -/
def State.keyPage (s : State) (p : PageKey) : State :=
  if s.pageKeys.contains p then s else { s with pageKeys := s.pageKeys ++ [p] }

/-- The home's L2 or another die's holds a line dirty, and in plain text (R420). -/
def State.lineDirty (s : State) (line : Nat) : Bool :=
  smGet 0 s.l2home line != 0 || s.l2dirty.any fun kv => kv.1 / 128 == line

/-- The lines of a slot leave the L2, the dirty ones written back under the key that the slot holds (R420). -/
def State.flushSlot (s : State) (slot : Nat) : State :=
  let of (line : Nat) : Bool := s.lineKey line == some (s.slotKey slot)
  { s with l2home := s.l2home.filter fun kv => !of kv.1
           l2dirty := s.l2dirty.filter fun kv => !of (kv.1 / 128)
           l2copies := s.l2copies.filter fun kv => !of (kv.1 / 4) }

/-- A key is installed in a slot (R420): lines held under the old one read through the new one when they are accessed next. -/
def State.loadKey (s : State) (slot : Nat) (key : BitVec 512) : State :=
  let s := s.flushSlot slot
  { s with host := { s.host with keys := smSet none s.host.keys slot (some key) } }

/-- A slot is emptied (R420): its lines stay encrypted under the key that it held. -/
def State.clearKey (s : State) (slot : Nat) : State :=
  let s := s.flushSlot slot
  { s with host := { s.host with keys := smSet none s.host.keys slot none } }

end Sys2Proof.Machine
end

