-- ==== Sys2Proof/Machine/Walk.lean ====
section
/-!
DEFINITION. Page tables and TLBs as the device reads them (R208 to R212): the walk of a table, the entries that it reads, and
the translation that a TLB holds.
-/

namespace Sys2Proof.Machine

/-- The number of an access kind in a fault record (R294). -/
def accCode (k : AccKind) : Nat :=
  match k with
  | .load => 0
  | .store => 1
  | .atomic => 2
  | .fetch => 3
  | .gather => 4
  | .copyRead => 5
  | .copyWrite => 6
  | .frontEnd => 7

/-- What the device reads as a number in physical memory. What it takes for a poisoned one is FREE (log entry 13): poison is never
read as a value (R392). -/
def State.physNat (s : State) (pa n : Nat) : Nat :=
  let bs := s.physRead pa n
  if bs.any (·.2) then Config.poisonedWord pa else leNat (bs.map (·.1))

/-- A word of 8 bytes of a descriptor (R282, R283). -/
def State.physWord (s : State) (pa : Nat) : Nat := s.physNat pa 8

/-- An entry of a table, read by the walker as one access under slot 0 (R211); none where a byte of it is poisoned (R392). -/
def State.tableWord (s : State) (pa : Nat) : Option Nat :=
  let bs := s.tableRead pa 8
  if bs.any (·.2) then none else some (leNat (bs.map (·.1)))

/-- Word `i` of a context's descriptor (R282, R411). -/
def State.ctxWord (s : State) (c i : Nat) : Nat := s.physWord (s.host.ctxbase.toNat + 64 * c + 8 * i)

/-- The end of a walk: a leaf with its page size as a power of two, or a failure with CAUSE, LEVEL and the
entry's physical address (R208, R209, R294). -/
inductive WalkEnd where
  | leaf (entry size frame : Nat)
  | fail (cause level entryPa : Nat)
  deriving DecidableEq, Repr

/-- The frame bits 39:12 of an entry, as an address (R209). -/
def entryFrame (e : Nat) : Nat := nfld e 39 12 * 4096

/-- The index of a virtual address in a table of a level (R208). -/
def levelIndex (va level : Nat) : Nat :=
  match level with
  | 4 => nfld va 56 48
  | 3 => nfld va 47 39
  | 2 => nfld va 38 31
  | 1 => nfld va 30 21
  | _ => nfld va 20 12

/-- The size of a leaf's page as a power of two (R208, R209). -/
def leafSize (e level : Nat) : Nat :=
  match level with
  | 2 => 31
  | 1 => 21
  | _ => if e.testBit 4 then 16 else 12

/-- A valid entry of a level is malformed (R209). -/
def entryMalformed (e level : Nat) : Bool :=
  let leaf := e.testBit 1
  let align := if leaf then 2 ^ leafSize e level else if level = 2 then 8192 else 4096
  nfld e 11 5 != 0 || nfld e 55 40 != 0 || e.testBit 63
    || (leaf && 3 ≤ level) || (!leaf && level == 0)
    || (e.testBit 4 && level != 0)
    || (!leaf && nfld e 62 56 != 0)
    || entryFrame e % align != 0 || Config.physEnd ≤ entryFrame e

/-- The walk from a table of a level downward (R208, R211). DESIGN CHOICE (log entry 70): where the 16 entries of a 64 KiB page
differ, the address's own entry translates it, or the one that a TLB holds already; R210 allows any. DESIGN CHOICE (log entry 13):
a poisoned entry, which is not read as a value (R392), fails as a malformed one does. -/
def State.walkFrom (s : State) (va table level : Nat) : WalkEnd :=
  let pa := table + 8 * levelIndex va level
  match s.tableWord pa with
  | none => .fail 4 level pa
  | some e =>
    if !e.testBit 0 then .fail 1 level pa
    else if entryMalformed e level then .fail 4 level pa
    else if e.testBit 1 then .leaf e (leafSize e level) (entryFrame e)
    else match level with
      | 0 => .fail 4 0 pa
      | n + 1 => s.walkFrom va (entryFrame e) n

/-- The walk of a context's tables for an address (R208, R282). -/
def State.walk (s : State) (c va : Nat) : WalkEnd := s.walkFrom va (entryFrame (s.ctxWord c 0)) 4

/-- The entries that such a walk reads. -/
def State.entriesFrom (s : State) (va table level : Nat) : List Nat :=
  let pa := table + 8 * levelIndex va level
  pa :: (match s.tableWord pa, level with
    | none, _ => []
    | some _, 0 => []
    | some e, n + 1 => if !e.testBit 0 || entryMalformed e (n + 1) || e.testBit 1 then [] else s.entriesFrom va (entryFrame e) n)

/-- The physical addresses that the walk of a context's tables for an address reads. -/
def State.walkReads (s : State) (c va : Nat) : List Nat := s.entriesFrom va (entryFrame (s.ctxWord c 0)) 4

/-- A key slot holds a loaded key; slot 0 holds the management key (R211, R420). -/
def State.keyOk (s : State) (n : Nat) : Bool := n == 0 || (smGet none s.host.keys n).isSome

/-- What a TLB entry denies an access, as a CAUSE of R294 (R211, R214). -/
def denyCause (s : State) (kind : AccKind) (wr : Bool) (hasWr hasExec : Bool) (key : Nat) : Option Nat :=
  if wr && !hasWr then some 2
  else if kind = .fetch && !hasExec then some 3
  else if !s.keyOk key then some 5
  else none

/-- A TLB entry translates an address of a context. -/
def TlbEntry.covers (e : TlbEntry) (c va : Nat) : Bool := e.ctx == c && va / 2 ^ e.size == e.va / 2 ^ e.size

/-- The TLB entry that an access finds: its core's TLB first, then its cluster's (R212). DESIGN CHOICE (log entry 70): a hit in
the cluster's TLB puts nothing into the core's, which the spec leaves open. -/
def State.tlbHit (s : State) (c va : Nat) (core cluster : Option Nat) : Option TlbEntry :=
  let own := match core with
    | some n => (s.core n).tlb.find? (·.covers c va)
    | none => none
  match own with
  | some e => some e
  | none => match cluster with
    | some k => (smGet [] s.clusterTlb k).find? (·.covers c va)
    | none => none

/-- The physical address of the entry of a level that a walk for an address reads. -/
def State.walkEntry (s : State) (c va level : Nat) : Nat :=
  let down (t n : Nat) : Nat := entryFrame ((s.tableWord (t + 8 * levelIndex va n)).getD 0)
  let t2 := down (down (entryFrame (s.ctxWord c 0)) 4) 3
  match level with
  | 2 => t2 + 8 * levelIndex va 2
  | 1 => down t2 2 + 8 * levelIndex va 1
  | _ => down (down t2 2) 1 + 8 * levelIndex va 0

/-- The level of a leaf by its page size (R208). -/
def levelOfSize (size : Nat) : Nat := if size = 31 then 2 else if size = 21 then 1 else 0

/-! ## The key of an access's leaf (R209, R211) -/

/-- The slot that the leaf of an address names, for a group of a core: as its TLBs hold the leaf, or else as the tables have it. -/
def State.leafKey (s : State) (c va core : Nat) : Option Nat :=
  match s.tlbHit c va (some core) (some (clusterOfCore core)) with
  | some e => some e.key
  | none => match s.walk c va with
    | .leaf e _ _ => some (nfld e 62 56)
    | .fail .. => none

/-- A line that a group stores to is held under the key of the leaf that the group stores through (R211). -/
def State.underLeaf (s : State) (o : OutLine) : State :=
  if (s.lineKey o.line).isNone then s
  else match s.group? o.gid with
    | none => s
    | some g => match s.leafKey g.ctx (128 * o.vline) g.core with
      | none => s
      | some k => if s.keyOk k then s.useLine o.line k else s

end Sys2Proof.Machine
end

