-- ==== Sys2Proof/Machine/Ops.lean ====
section
/-!
DEFINITION. The named operations over the state: accesses to device memory with tenures, reservations and the key of a line,
outbound lines, and the raising of a program fault, which is this machine's taking of an exception (R394).
-/

namespace Sys2Proof.Machine

/-! ## Writes to physical memory -/

/-- An access to these physical bytes by another agent than the holder intrudes on a tenure: one of them lies in the
tile's footprint (R325). -/
def Tenure.touches (t : Tenure) (who : Option Nat) (pas : List Nat) : Bool :=
  who != some t.gid && pas.any fun a => t.lines.contains (a / 128)

/-- The lines that an L2 slice holds (R198: 6 MiB). -/
def sliceLines : Nat := 49152

/-- A slice of the L2 that holds more lines than it has room for gives one up, written back where it is dirty; which, is free
(R198). -/
def State.makeRoom (s : State) (slice : Nat) : State :=
  let mine (kv : Nat × Nat) : Bool := homeSlice (128 * kv.1) == slice
  let n := (s.l2home.filter mine).length
  if n ≤ sliceLines then s
  else match (s.l2home.filter mine)[Config.freePick s.fresh % n]? with
    | none => s
    | some kv => { s with l2home := smDel s.l2home kv.1, fresh := s.fresh + 1 }

/-- Queues whose descriptor's STATE, in its byte 19, these bytes write (R283). -/
def State.stateBytes (s : State) (ws : List WByte) : List Nat :=
  let base := s.host.qdesc.toNat
  ws.filterMap fun w => if base ≤ w.addr && w.addr < base + 65536 && (w.addr - base) % 64 == 19 then some ((w.addr - base) / 64) else none

/-- Slices give lines up until none holds more than it has room for. -/
def State.makeRooms (s : State) (pas : List Nat) : State :=
  if s.l2home.length ≤ sliceLines then s
  else ((pas.map (· / 128)).eraseDups).foldl (fun s l => s.makeRoom (homeSlice (128 * l))) s

/-- The L2 slices of their homes hold the lines of bytes that have been read from HBM (R198). -/
def State.fillL2 (s : State) (pas : List Nat) : State :=
  let add (m : SMap Nat) (a : Nat) : SMap Nat := match smFind m (a / 128) with
    | some _ => m
    | none => smPut m (a / 128) 0
  let up := pas.filter s.memUp
  ({ s with l2home := up.foldl add s.l2home } : State).makeRooms up

/-- What bytes held before these ones change them is kept while a grid runs: a fetch may still find it (R113). -/
def State.keepPast (s : State) (ws : List WByte) : State :=
  if s.grids.isEmpty then (if s.past.isEmpty then s else { s with past := [] })
  else
    let keep (m : SMap (List (Byte × Nat))) (w : WByte) : SMap (List (Byte × Nat)) :=
      let old := bankByte s.mem w.addr
      if old = w.val then m
      else smPut m w.addr ((smGet [] m w.addr).filter (·.1 != old) ++ [(old, s.nextGridKey)])
    { s with past := ws.foldl keep s.past }

/-- Bytes are written at their homes: the L2 slices hold their lines dirty (R198, R206). -/
def State.putMem (s : State) (ws : List WByte) : State :=
  let set := (s.stateBytes ws).foldl (fun m q => smSet false m q true) s.stateSet
  let dirty := ws.foldl (fun m w => smPut m (w.addr / 128) (smGet 0 m (w.addr / 128) ||| 2 ^ (w.addr % 128))) s.l2home
  ({ s.keepPast ws with mem := bankWrite s.mem ws, l2home := dirty, stateSet := set } : State).makeRooms (ws.map (·.addr))

/-- The bytes of an outbound line as a write event. -/
def lineBytes (line : Nat) (bytes : List BufByte) : List WByte := bytes.map fun b => ⟨line * 128 + b.off, b.val, b.pois⟩

/-- The host holds a half that one of these bytes lies in (R234). -/
def State.hostHolds (s : State) (pas : List Nat) : Bool :=
  !s.hostHalves.isEmpty && pas.any fun a => smGet false s.hostHalves (a / 64)

/-- A write event to lines by `who` ends the reservations of every other group on them (R249). -/
def State.loseReservations (s : State) (who : Option Nat) (lines : List Nat) : State :=
  if s.reservations.isEmpty then s
  else { s with reservations := s.reservations.filter fun r => who == some r.gid || !(lines.contains r.line) }

/-- The lines of a tile are written back to their homes (R206, R232): no die holds the only copy of them. -/
def State.writeBack (s : State) (t : Tenure) : State :=
  if s.l2dirty.isEmpty then s else { s with l2dirty := s.l2dirty.filter fun kv => !(t.lines.contains (kv.1 / 128)) }

/-- Another die's L2 holds a copy of a line only while its die holds tenure over a tile that covers it (R206). -/
def State.pruneCopies (s : State) : State :=
  if s.l2copies.isEmpty then s
  else { s with l2copies := s.l2copies.filter fun kv => s.tenures.any fun t => dieOfCore t.core == kv.1 % 4 && t.lines.contains (kv.1 / 4) }

/-- Lines that a group has read under its tenures from other dies are copied into its own die's L2 (R206). -/
def State.copyLines (s : State) (gid : Nat) (lines : List Nat) : State :=
  let held (t : Tenure) (l : Nat) : Bool := t.gid == gid && t.lines.contains l && homeDie (128 * l) != dieOfCore t.core
  let add (m : SMap Bool) (l : Nat) : SMap Bool := match s.tenures.find? (held · l) with
    | some t => smSet false m (4 * l + dieOfCore t.core) true
    | none => m
  if s.tenures.isEmpty then s else { s with l2copies := lines.foldl add s.l2copies }

/-- The group as the state holds it, changed. -/
def State.modGroup (s : State) (gid : Nat) (f : Group → Group) : State :=
  match s.group? gid with
  | none => s
  | some g => s.setGroup gid (f g)

/-- Fixed lines of closed regions that wait on a core for a DRAIN's data (R272). -/
def State.lateOn (s : State) (core : Nat) : List OutLine :=
  s.groups.flatMap fun kv => if kv.2.core == core then kv.2.late.map fun b => ⟨kv.1, b.space, b.line, b.vline, b.bytes, [], true⟩ else []

/-- A line's store ends the reservations of other groups on it, and a DRAIN's those of its own group too (R249). -/
def State.lineEnds (s : State) (o : OutLine) : State :=
  s.loseReservations (if o.bytes.any (·.path == 2) then none else some o.gid) [o.line]

/-- One outbound line is performed at its home, and its group's CNT.ST falls (R375). -/
def State.performLine (s : State) (o : OutLine) : State :=
  let s := s.lineEnds o
  let s := (s.underLeaf o).putMem ((lineBytes o.line o.bytes).filter fun w => s.memUp w.addr)
  s.modGroup o.gid fun g => { g with cntSt := g.cntSt - 1 }

/-- A die's SRAM and what runs there: it has power (R14). -/
def State.coreUp (s : State) (core : Nat) : Bool := (s.die (dieOfCore core)).powered

/-- Lines on their way that satisfy `p`, marked, and with them the earlier ones that they may not overtake: lines of one place
are performed in order (R218, R231). -/
def inOrder (p : OutLine → Bool) : List OutLine → List (OutLine × Bool)
  | [] => []
  | o :: rest =>
    let r := inOrder p rest
    (o, p o || r.any fun q => q.2 && q.1.space == o.space && q.1.line == o.line) :: r

/-- The holder's fixed lines of a tile. -/
def Tenure.owns (t : Tenure) (o : OutLine) : Bool := o.gid == t.gid && o.space == .g && t.lines.contains o.line

/-- A holder's fixed lines of a tile still wait for a DRAIN's data (R272), or its die has lost power, and its failure is still
to be declared (R14, R406). -/
def State.recallLate (s : State) (t : Tenure) : Bool := (s.lateOn t.core).any t.owns || !s.coreUp t.core

/-- A holder's fixed lines of a tile cannot all be performed yet: the host has still to give up a half (R234), or more (see
`recallLate`). -/
def State.recallHeld (s : State) (t : Tenure) : Bool :=
  (inOrder t.owns (s.core t.core).outbound).any (fun q => q.2 && s.hostHolds ((lineBytes q.1.line q.1.bytes).map (·.addr)))
    || s.recallLate t

/-- Lines on their way of which the host holds a half, and later ones of the same places (R234). -/
def State.hostBlocks (s : State) (held : List Nat) : List (OutLine × Bool) → List (OutLine × Bool)
  | [] => []
  | (o, p) :: rest =>
    let wait := o.space == .g && (held.contains o.line || s.hostHolds ((lineBytes o.line o.bytes).map (·.addr)))
    (o, p && !wait) :: s.hostBlocks (if wait then o.line :: held else held) rest

/-- The lines that the recall of a tenure performs: its holder's, and earlier ones of the same places. A line that waits
for the host to give up a half stays, and with it the later ones of its place (R234). -/
def State.recallLines (s : State) (t : Tenure) : List (OutLine × Bool) :=
  s.hostBlocks [] (inOrder t.owns (s.core t.core).outbound)

/-- A write tenure is recalled or released (R232): what its holder has fixed of the tile is performed, and its
lines are written back. -/
def State.recall (s : State) (t : Tenure) : State :=
  let c := s.core t.core
  let all := s.recallLines t
  let out := (all.filter (·.2)).map (·.1)
  let s := if out.isEmpty then s
    else out.foldl State.performLine (s.setCore t.core { c with outbound := (all.filter (!·.2)).map (·.1) })
  s.writeBack t

/-- The lines of other groups that the recall of a tenure performs: their stores intrude themselves (R325). -/
def State.recallOthers (s : State) (t : Tenure) : List OutLine :=
  ((s.recallLines t).filter fun q => q.2 && q.1.gid != t.gid).map (·.1)

/-- A line of another group than its holder lies in a tenure's footprint: its store intrudes on the tenure (R325). -/
def Tenure.metBy (t : Tenure) (os : List OutLine) : Bool := os.any fun o => o.gid != t.gid && t.lines.contains o.line

/-- Tenures that are to be recalled, and after them those that the lines of other groups meet which a recall performs, over at
most `n` turns (R325). -/
def State.recallSet (s : State) (n : Nat) (ts : List Tenure) : List Tenure :=
  match n with
  | 0 => ts
  | n + 1 =>
    let os := (ts.filter (·.write)).flatMap s.recallOthers
    let more := if os.isEmpty then [] else s.tenures.filter fun t => !ts.contains t && t.metBy os
    if more.isEmpty then ts else s.recallSet n (ts ++ more)

/-- The same, with as many turns as there are tenures. -/
def State.recalled (s : State) (ts : List Tenure) : List Tenure := if ts.isEmpty then [] else s.recallSet s.tenures.length ts

/-- Tenures are recalled, those that a performed line of another group meets before that line is performed; they end, and so does
each of the first that such a line meets (R232, R325). -/
def State.recallAll (s : State) (ts : List Tenure) : State :=
  let all := s.recalled ts
  let os := (all.filter (·.write)).flatMap s.recallOthers
  let gone (t : Tenure) : Bool := (all.contains t && !ts.contains t) || (ts.contains t && t.metBy os)
  let s := all.reverse.foldl (fun s t => if t.write then s.recall t else s) s
  if os.isEmpty then s else { s with tenures := s.tenures.filter (!gone ·) }

/-- The write tenures that an access to these bytes meets. -/
def State.metWrites (s : State) (who : Option Nat) (pas : List Nat) : List Tenure :=
  s.tenures.filter fun t => t.write && t.touches who pas

/-- An access to these bytes meets a tenure whose recall is not over: it is served after it (R232, R325). -/
def State.intrudeWaits (s : State) (who : Option Nat) (pas : List Nat) : Bool :=
  (s.recalled (s.metWrites who pas)).any fun t => t.write && s.recallHeld t

/-- A write that the host makes to a half that it holds waits for a recall only where fixed lines of the holder have no data
yet: lines that wait for the host are performed after the host's bytes (R234). -/
def State.giveUpWaits (s : State) (pas : List Nat) : Bool :=
  (s.recalled (s.metWrites none pas)).any fun t => t.write && s.recallLate t

/-- The tenures that such an access waits for are being recalled (R322, R325). -/
def State.callBack (s : State) (who : Option Nat) (pas : List Nat) : State :=
  { s with tenures := s.tenures.map fun t => if t.write && t.touches who pas then { t with recalling := true } else t }

/-- An access intrudes on tenures (R325): a read recalls write tenures to read tenures, a write ends every
tenure that it meets. -/
def State.intrude (s : State) (who : Option Nat) (pas : List Nat) (write : Bool) : State :=
  let hit := s.tenures.filter fun t => t.touches who pas && (write || t.write)
  if hit.isEmpty then s
  else
    let s := s.recallAll hit
    let keep (t : Tenure) : Option Tenure :=
      if t.touches who pas && (write || t.write) then
        (if write then none else some { t with write := false, recalling := false })
      else some t
    ({ s with tenures := s.tenures.filterMap keep } : State).pruneCopies

/-- An agent that is no core may not write these bytes yet: the host holds a half (R234), or a recall is not over (R325). -/
def State.writeHeld (s : State) (pa n : Nat) : Bool :=
  s.hostHolds [pa, pa + n - 1] || s.intrudeWaits none (List.range n |>.map (pa + ·))

/-- The tenures in the way of such a write are being recalled (R322). -/
def State.writeRecall (s : State) (pa n : Nat) : State := s.callBack none (List.range n |>.map (pa + ·))

/-- `n` bytes read at their home by an agent that is no core, after the tenures in its way have been recalled; none while such
a recall is not over (R325). -/
def State.readThrough (s : State) (who : Option Nat) (pa n : Nat) : State × Option (List (Byte × Bool)) :=
  if s.intrudeWaits who (List.range n |>.map (pa + ·)) then (s.callBack who (List.range n |>.map (pa + ·)), none)
  else
    let s := s.intrude who (List.range n |>.map (pa + ·)) false
    (s, some (s.memRead pa n))

/-- The die whose L2 holds a tenured byte of `who` dirty: its own die, when that is not the home (R206). -/
def State.dirtyDie (s : State) (who : Option Nat) (pa : Nat) : Nat :=
  match who with
  | none => 0
  | some gid => match s.tenures.find? (fun t => t.gid == gid && t.write && t.lines.contains (pa / 128)) with
    | none => 0
    | some t => if dieOfCore t.core = homeDie pa then 0 else dieOfCore t.core + 1

/-- A write event to physical memory by `who` (a group, or none for any other agent): intrusions, lost
reservations, poison, and the dirty copies of a tenure's holder; writes to a die without power are dropped. -/
def State.memWrite (s : State) (who : Option Nat) (ws : List WByte) : State :=
  let ws := ws.filter fun w => s.memUp w.addr
  let pas := ws.map (·.addr)
  let s1 := s.intrude who pas true
  let s2 := s1.loseReservations who (pas.map (· / 128))
  let old (a : Nat) : Byte × Bool := match smFind s2.l2dirty a with
    | some x => x.2
    | none => (bankByte s2.mem a, bankPoison s2.mem a)
  let next (a : Nat) : Nat × Byte × Bool := match s2.dirtyDie who a with
    | 0 => (0, 0, false)
    | d => (d, old a)
  let dirty := if s2.tenures.isEmpty && s2.l2dirty.isEmpty then s2.l2dirty
    else pas.foldl (fun m a => smSet (0, 0, false) m a (next a)) s2.l2dirty
  { s2.putMem ws with l2dirty := dirty }

/-- The device writes bytes of one line at a physical address, as to a descriptor or a record, with no leaf (R282). -/
def State.physWrite (s : State) (pa : Nat) (bs : List Byte) : State := (s.openLine (pa / 128)).memWrite none (wbytes pa bs)

/-- The device writes bytes into host memory through CXL.cache (R410). -/
def State.hostPut (s : State) (a : Nat) (bs : List Byte) : State :=
  { s with host := { s.host with hostMem := bs.zipIdx.foldl (fun m p => smPut m (a + p.2) p.1) s.host.hostMem } }

/-- An event comes into the device-wide event queue (R419). -/
def State.pushEvent (s : State) (e : DeviceEvent) : State := { s with events := s.events ++ [(e, none)] }

/-! ## Outbound lines (R42, R221, R375) -/

/-- Some byte of a line was stored on a path of a mask (R223). -/
def OutLine.onPaths (o : OutLine) (mask : Nat) : Bool := o.bytes.any fun b => mask.testBit b.path

/-- The bytes that outbound lines name in `g:`. -/
def OutLine.pas (o : OutLine) : List Nat := if o.space == .g then o.bytes.map fun b => 128 * o.line + b.off else []

/-- A line is acknowledged: a `g:` line is performed at its home, and CNT.ST falls (R375); a copy's line counts nowhere. -/
def State.ackLine (s : State) (o : OutLine) : State :=
  let s := if o.space == .g then ((s.lineEnds o).underLeaf o).memWrite (some o.gid) (lineBytes o.line o.bytes) else s
  if o.onPaths 8 then s else s.modGroup o.gid fun g => { g with cntSt := g.cntSt - 1 }

/-- Every outbound line of a core that satisfies `p` is acknowledged, in order, with the earlier ones of the same places. -/
def State.drainLines (s : State) (core : Nat) (p : OutLine → Bool) : State :=
  let c := s.core core
  let all := inOrder p c.outbound
  let out := (all.filter (·.2)).map (·.1)
  if out.isEmpty then s
  else out.foldl State.ackLine (s.setCore core { c with outbound := (all.filter (!·.2)).map (·.1) })

/-- An outbound line must wait: for the host to give up a half (R234), or for the recall of a tenure (R325). -/
def State.lineWaits (s : State) (o : OutLine) : Bool :=
  o.space == .g && (s.hostHolds o.pas || s.intrudeWaits (some o.gid) o.pas)

/-- Outbound lines of a core that satisfy `p`, or that such lines may not overtake, must wait; those of a die without power
are performed no more (R14). -/
def State.outHeld (s : State) (core : Nat) (p : OutLine → Bool) : Bool :=
  (inOrder p (s.core core).outbound).any fun q => q.2 && (s.lineWaits q.1 || !s.coreUp core)

/-- Stores fixed on a core that satisfy `p` cannot all be performed now: outbound lines must wait, or lines of closed regions
wait for a DRAIN's data (R272). -/
def State.drainHeld (s : State) (core : Nat) (p : OutLine → Bool) : Bool := s.outHeld core p || (s.lateOn core).any p

/-- Outbound lines among these of a space. -/
def onLinesOf (sp : Space) (lines : List Nat) (o : OutLine) : Bool := o.space == sp && lines.contains o.line

/-- Outbound `g:` lines among these physical lines. -/
def onLines (lines : List Nat) (o : OutLine) : Bool := onLinesOf .g lines o

/-- A memory of a core without the bytes of a line that were stored on other paths than `path`. -/
def bankUndo (b : Bank) (o : OutLine) (path : Nat) : Bank :=
  (o.bytes.zip o.old).foldl (fun b p => if p.1.path = path then b
    else bankMark (bankPut b (128 * o.line + p.1.off) p.2.1) (128 * o.line + p.1.off) p.2.2) b

/-- A core's own memories as an engine on a path reads them: of what other paths have stored there, it finds the lines that
are acknowledged (R223, R228). -/
def CoreSt.seenBy (c : CoreSt) (path : Nat) : CoreSt :=
  (c.outbound.filter (·.space != .g)).foldr (fun o d => d.setBank o.space (bankUndo (d.bank o.space) o path)) c

/-! ## What a core reads through its outbound lines, and its L1 (R205, R218) -/

/-- The bytes of a line after one line on its way to memory: of a poisoned word that it writes in part, every byte stays
poisoned (R207). -/
def layLine (bs : List (Byte × Bool)) (o : OutLine) : List (Byte × Bool) :=
  let whole (off : Nat) : Bool := (List.range 4).all fun i => o.bytes.any fun b => b.off == off / 4 * 4 + i
  o.bytes.foldl (fun bs b => bs.set b.off (b.val, b.pois || (!whole b.off && (bs.getD b.off (0, false)).2))) bs

/-- The bytes of a `g:` line with the core's own lines on their way to memory laid over them (R218). -/
def overlay (out : List OutLine) (line : Nat) (bytes : List (Byte × Bool)) : List (Byte × Bool) :=
  out.foldl (fun bs o => if o.space == .g && o.line == line then layLine bs o else bs) bytes

/-- The lines that a core's L1 can hold: those of the ways that are cache (R198, R200). -/
def CoreSt.l1Room (c : CoreSt) : Nat := 512 * (12 - c.sw)

/-- A core's L1 takes a line; of a full one another line leaves, and which is free. -/
def State.fillL1 (s : State) (core line : Nat) (bytes : List Byte) : State :=
  let c := s.core core
  let others := smDel c.l1 line
  if c.l1Room = 0 then s
  else if others.length < c.l1Room then s.setCore core { c with l1 := smPut others line bytes }
  else { s.setCore core { c with l1 := smPut (others.eraseIdx (Config.freePick s.fresh % others.length)) line bytes } with
         fresh := s.fresh + 1 }

/-! ## Stop records and the raising of a fault (R391 to R398) -/

/-- The numbers by which a context's engines are halted: cores, and beyond them matrix engines, copy engines and Seam
units. -/
def matrixCode (e : Nat) : Nat := 1024 + e
def copyCode (e : Nat) : Nat := 2048 + e
def seamCode (d : Nat) : Nat := 4096 + d

/-- An engine of a context whose stop line is raised has halted already (R396). -/
def State.haltedAt (s : State) (ctx code : Nat) : Bool := (s.ctx ctx).state == .stopping && (s.ctx ctx).haltDone.contains code

/-- An engine is given work of a context: once the stop line is raised it is one of those that have still to halt (R395). -/
def State.giveWork (s : State) (ctx code : Nat) : State :=
  let x := s.ctx ctx
  if x.state = .stopping && !x.haltLeft.contains code && !x.haltDone.contains code then
    s.setCtx ctx { x with haltLeft := x.haltLeft ++ [code] }
  else s

/-- The highest and the lowest PC among a list of PCs. -/
def minPc (l : List (BitVec 57)) : BitVec 57 :=
  match l with
  | [] => 0
  | a :: t => t.foldl (fun m x => if x < m then x else m) a

def maxPc (l : List (BitVec 57)) : BitVec 57 := l.foldl (fun m x => if m < x then x else m) 0

/-- Every PC of a control state: running paths with lanes and deferred paths. -/
def quadPcs (qs : List Quad) : List (BitVec 57) :=
  qs.flatMap fun q => (if q.run = 0 then [] else [q.pc]) ++ q.deferred.map (·.pc)

/-- The record of a group (R398): identity, re-entry, trap depth; LANES the live mask and PC the lowest
re-entry PC unless a fault gives its own. -/
def Group.stopRec (g : Group) (s : State) (kind : Nat) (d0 d1 : W64) (lanes : Mask) (pc : BitVec 57) : StopRec :=
  let die := dieOfCore g.core
  { kind := kind, source := 0, cause := false, second := false, agent := g.core, slot := g.slot,
    groupId := g.gnum, reentry := g.reentry, depth := g.depth,
    gridId := ((s.grid? g.grid).map (·.serial)).getD 0, lanes := lanes, pc := pc, d0 := d0, d1 := d1,
    teamId := BitVec.ofNat 32 g.teamId, cyc := (s.die die).cycle.setWidth 32, die := die }

/-- A program fault of the issuing split (R112, R391, R394): the instruction makes no change, the group
stops issuing, and its record goes to the management core, which raises the context's stop line. -/
def State.raiseFault (s : State) (gid : Nat) (kind : Nat) (d0 d1 : W64) (lanes : Mask) (pc : BitVec 57) : State :=
  match s.group? gid with
  | none => s
  | some g =>
    let r := g.stopRec s kind d0 d1 lanes pc
    let c := s.ctx g.ctx
    (s.setCtx g.ctx { c with stopFaults := c.stopFaults ++ [r] }).setGroup gid { g with status := .halted }

/-- A record without a group. -/
def StopRec.plain (kind source agent die : Nat) (d0 d1 : W64) (cyc : BitVec 32) : StopRec :=
  { kind := kind, source := source, cause := false, second := false, agent := agent, slot := 0, groupId := 0,
    reentry := 0, depth := 0, gridId := 0, lanes := 0, pc := 0, d0 := d0, d1 := d1, teamId := 0, cyc := cyc, die := die }

/-- A fault of a context that no engine's own record carries: the management core of a die records it (R394, R398). -/
def State.raiseManaged (s : State) (ctx kind d0 d1 die : Nat) : State :=
  let x := s.ctx ctx
  if x.state = .enabled || x.state = .stopping then
    let r := StopRec.plain kind 8 die die (BitVec.ofNat 64 d0) (BitVec.ofNat 64 d1) ((s.die die).cycle.setWidth 32)
    s.setCtx ctx { x with stopFaults := x.stopFaults ++ [r] }
  else s

end Sys2Proof.Machine
end

