-- ==== Sys2Proof/Machine/Control.lean ====
section
/-!
DEFINITION. The control state of a group (R19 to R24): quads, running paths, deferred paths, splits, the
waiting at boundaries, and its record for re-entry (R38).
-/

namespace Sys2Proof.Machine

/-- A quad with nothing running and nothing deferred. -/
def Quad.idle : Quad := ⟨0, 0, [], 0⟩

def Group.quad (g : Group) (q : Nat) : Quad := g.quads.getD q Quad.idle

/-- Put a path among deferred ones: a path with the same PC and the same waiting takes its lanes (R21). -/
def addPath (p : Path) (l : List Path) : List Path :=
  if p.lanes = 0 then l
  else if l.any fun x => x.pc == p.pc && x.waiting == p.waiting then
    l.map fun x => if x.pc == p.pc && x.waiting == p.waiting then { x with lanes := x.lanes ||| p.lanes } else x
  else l ++ [p]

/-- The lowest PC among a quad's deferred paths that do not wait at a boundary (R22, R24). -/
def Quad.lowest (q : Quad) : Option (BitVec 57) :=
  match (q.deferred.filter (!·.waiting)).map (·.pc) with
  | [] => none
  | a :: t => some (minPc (a :: t))

/-- A quad without a running path resumes the deferred path with the lowest PC that is not waiting, with the
lanes of every such path at that PC (R22, R24). -/
def Quad.resume (q : Quad) : Quad :=
  if q.run ≠ 0 then q
  else match q.lowest with
    | none => q
    | some pc =>
      let take := q.deferred.filter fun p => !p.waiting && p.pc == pc
      { q with
        pc := pc
        run := take.foldl (fun m p => m ||| p.lanes) 0
        deferred := q.deferred.filter fun p => p.waiting || p.pc != pc }

/-- The lanes of a path that has issued, each at its next PC, as one path for each distinct PC (R21). -/
def pathsOf (lanes : Mask) (next : Nat → BitVec 57) : List Path :=
  (lanesOf lanes).foldl (fun l n => addPath ⟨next n, laneBit n, false⟩ l) []

/-- Give the lanes of a quad's path that has issued their next PCs (R20, R21): those with the lowest form the running path,
and each other set with a common PC becomes an entry. Entries set aside before stay as they are, whatever their PCs
(R22); only a quad with no lane that goes on resumes one. -/
def Quad.spread (q : Quad) (lanes : Mask) (next : Nat → BitVec 57) : Quad :=
  let paths := pathsOf lanes next
  if q.run ≠ 0 then { q with deferred := q.deferred ++ paths }
  else match paths with
    | [] => q.resume
    | a :: t =>
      let pc := minPc ((a :: t).map (·.pc))
      { q with
        pc := pc
        run := (paths.filter (·.pc == pc)).foldl (fun m p => m ||| p.lanes) 0
        deferred := q.deferred ++ paths.filter (·.pc != pc) }

/-- Lanes leave every mask of a quad; a path without lanes is discarded (R21). -/
def Quad.drop (q : Quad) (lanes : Mask) : Quad :=
  ({ q with
     run := q.run &&& ~~~lanes
     deferred := (q.deferred.map fun p => { p with lanes := p.lanes &&& ~~~lanes }).filter (·.lanes != 0) } :
    Quad).resume

/-- These quads have moved together: the split of each is the set of those of them that run at its PC, labelled by the
lowest (R20). Every other split keeps its quads, and takes the lowest of them for its label; what is kept of a
split that has moved whole is dropped. -/
def Group.relabel (g : Group) (qs : List Nat) : Group :=
  let running (q : Nat) : Bool := (g.quad q).run != 0
  let rest := (List.range 16).filter fun q => running q && !qs.contains q
  let keep (label : Nat) : Option Nat := rest.find? fun q => (g.quad q).split == label
  let fresh (q : Nat) : Nat := (qs.find? fun r => running r && (g.quad r).pc == (g.quad q).pc).getD q
  { g with
    quads := g.quads.zipIdx.map fun p =>
      { p.1 with split := if qs.contains p.2 then fresh p.2 else (keep p.1.split).getD p.1.split }
    ages := g.ages.filterMap fun a => (keep a.split).map fun n => { a with split := n }
    sleepers := g.sleepers.filterMap fun a => (keep a.split).map fun n => { a with split := n } }

/-- Change some quads, in ascending order, and regroup them into splits by their PCs (R20). -/
def Group.mapQuads (g : Group) (qs : List Nat) (f : Quad → Quad) : Group :=
  ({ g with quads := g.quads.zipIdx.map fun p => if qs.contains p.2 then f p.1 else p.1 } : Group).relabel qs

/-- The quads of a split: they run, and carry its label. -/
def Group.splitQuads (g : Group) (label : Nat) : List Nat :=
  (List.range 16).filter fun q => (g.quad q).run != 0 && (g.quad q).split == label

/-- The labels of the group's splits, in ascending order of their lowest quads. -/
def Group.splits (g : Group) : List Nat :=
  ((List.range 16).filter fun q => (g.quad q).run != 0).map (fun q => (g.quad q).split) |>.eraseDups

/-- The lanes of the running paths of a split. -/
def Group.splitLanes (g : Group) (label : Nat) : Mask :=
  (g.splitQuads label).foldl (fun m q => m ||| (g.quad q).run) 0

/-- The PC of a split. -/
def Group.splitPc (g : Group) (label : Nat) : BitVec 57 :=
  match g.splitQuads label with
  | [] => 0
  | q :: _ => (g.quad q).pc

/-- These quads have issued in this cycle, while other splits of the group issue too (R32). -/
def Group.noteMoved (g : Group) (qs : List Nat) : Group :=
  if g.snap.isSome then { g with moved := g.moved ++ qs } else g

/-- A split's lanes go on, each to its next PC, and its quads are regrouped (R20, R21). -/
def Group.goOn (g : Group) (label : Nat) (next : Nat → BitVec 57) : Group :=
  (g.mapQuads (g.splitQuads label) fun q =>
    ({ q with run := 0, pc := q.pc } : Quad).spread q.run next).noteMoved (g.splitQuads label)

/-- The quads that stand at a PC, but for those that have come there in this cycle, in which they issue no more (R32). -/
def Group.quadsAt (g : Group) (pc : BitVec 57) : List Nat :=
  (List.range 16).filter fun q => (g.quad q).run != 0 && (g.quad q).pc == pc && !g.moved.contains q

/-- Every split of the group that stands at a PC fuses with the given one (R23). -/
def Group.fuseAt (g : Group) (pc : BitVec 57) : Group := g.relabel (g.quadsAt pc)

/-- JOIN at a PC (R22, R23): the splits that stand there fuse; in each of their quads the running lanes are
set aside at the JOIN and the lowest path resumes; where that is the JOIN's own, its lanes pass. -/
def Group.join (g : Group) (label : Nat) (pc next : BitVec 57) : Group :=
  let g := g.fuseAt pc
  let lab := (g.quadsAt pc).headD label
  (g.mapQuads (g.splitQuads lab) fun q =>
    let r := ({ q with run := 0, deferred := addPath ⟨pc, q.run, false⟩ q.deferred } : Quad).resume
    if r.pc = pc then { r with pc := next } else r).noteMoved (g.splitQuads lab)

/-- A split that reaches a boundary instruction waits there, and its quads resume (R24). -/
def Group.arrive (g : Group) (label : Nat) (pc : BitVec 57) : Group :=
  g.mapQuads (g.splitQuads label) fun q =>
    ({ q with run := 0, deferred := addPath ⟨pc, q.run, true⟩ q.deferred } : Quad).resume

/-- Every live lane waits at a boundary instruction (R24). -/
def Group.allWait (g : Group) : Bool :=
  g.quads.all fun q => q.run == 0 && q.deferred.all (·.waiting)

/-- The PCs at which lanes wait. -/
def Group.waitPcs (g : Group) : List (BitVec 57) :=
  g.quads.flatMap fun q => (q.deferred.filter (·.waiting)).map (·.pc)

/-- The lanes that wait at a PC. -/
def Group.waitLanes (g : Group) (pc : BitVec 57) : Mask :=
  g.quads.foldl (fun m q => (q.deferred.filter fun p => p.waiting && p.pc == pc).foldl (fun m p => m ||| p.lanes) m) 0

/-- The fused boundary that may issue: the lowest PC at which lanes wait, when every live lane waits (R24). -/
def Group.fused? (g : Group) : Option (BitVec 57 × Mask) :=
  if g.allWait then
    match g.waitPcs with
    | [] => none
    | a :: t => some (minPc (a :: t), g.waitLanes (minPc (a :: t)))
  else none

/-- The lanes that waited at a boundary pass it, each to its next PC (R24, R38). -/
def Group.passBoundary (g : Group) (pc : BitVec 57) (next : Nat → BitVec 57) : Group :=
  let qs := (List.range 16).filter fun q => (g.quad q).deferred.any fun p => p.waiting && p.pc == pc
  g.mapQuads qs fun q =>
    let lanes := (q.deferred.filter fun p => p.waiting && p.pc == pc).foldl (fun m p => m ||| p.lanes) 0
    ({ q with deferred := q.deferred.filter fun p => !(p.waiting && p.pc == pc) } : Quad).spread lanes next

/-- Lanes leave the control state (R21). A quad whose running path loses its last lane and resumes another
leaves its split; quads of one split that resume the same PC stay one, and those of two do not fuse (R23). -/
def Group.dropLanes (g : Group) (lanes : Mask) : Group :=
  let gone (q : Nat) : Bool := (g.quad q).run != 0 && (g.quad q).run &&& ~~~lanes == 0
  let moved := g.splits.map fun n => (g.splitQuads n).filter gone
  let left : Group := { g with quads := g.quads.map fun q => if q.run = 0 && q.deferred.isEmpty then q else q.drop lanes }
  moved.foldl (fun g qs => if qs.isEmpty then g else g.relabel qs) left

/-- The label of a split after lanes have left: that of its quads that still run. `none` where none does. -/
def Group.labelAfter (g h : Group) (lanes : Mask) (label : Nat) : Option Nat :=
  if label = 16 then some 16
  else ((g.splitQuads label).find? fun q => (g.quad q).run &&& ~~~lanes != 0).map fun q => (h.quad q).split

/-- Lanes leave the recorded re-entry state (R48). -/
def Group.dropEntry (g : Group) (lanes : Mask) : Group :=
  { g with entryQuads := (({ g with quads := g.entryQuads } : Group).dropLanes lanes).quads }

/-- Lanes exit (R183). -/
def Group.exitLanes (g : Group) (lanes : Mask) : Group :=
  ({ g with exited := g.exited ||| lanes } : Group).dropLanes lanes

/-- The splits that stand at a BKPT at which Loupe has stopped the group (R190). -/
def Group.bkptSplits (g : Group) : List Nat :=
  match g.status with
  | .bkpt l => l
  | _ => []

/-- A load's results after lanes have died: what was to land for them is not written (R393). -/
def PendLoad.without (p : PendLoad) (dies : Nat → Bool) : PendLoad :=
  { p with writes := p.writes.filter fun w => match w with
    | .v _ l _ => !dies l
    | _ => true }

/-- Every lane that a load was still to give a result has died: it counts no longer (R374). -/
def PendLoad.allDead (p : PendLoad) (dies : Nat → Bool) : Bool :=
  p.ld && !p.writes.isEmpty && (p.without dies).writes.isEmpty

/-- Lanes die (R122, R393): their bits in D, their control state and re-entry state, their buffered bytes,
and results still to land for them. -/
def Group.killLanes (g : Group) (lanes : Mask) : Group :=
  if lanes = 0 then g
  else
    let dies (l : Nat) : Bool := inMask lanes l
    let g := ({ g with dead := g.dead ||| (lanes &&& g.live) } : Group)
    let g := (g.dropLanes lanes).dropEntry lanes
    { g with
      buf := g.buf.map fun b => { b with bytes := b.bytes.filter fun x => match x.tag with
        | some l => !dies l
        | none => true }
      cntLd := g.cntLd - (g.pending.filter (·.allDead dies)).length
      pending := (g.pending.filter (!·.allDead dies)).map (·.without dies) }

/-- The state of the control state of a group placed with these launched lanes: every quad at the entry,
every live lane running, all quads one split (R38). -/
def startQuads (pc : BitVec 57) (live : Mask) : List Quad :=
  (List.range 16).map fun q => ⟨pc, live &&& quadMask q, [], 0⟩

end Sys2Proof.Machine
end

