-- ==== Sys2Proof/Machine/Operands.lean ====
section
/-!
DEFINITION. Operands: effective register numbers (R102, R103), the registers an instruction reads and
writes, the bounds check, the scoreboard (R117) and the legality check (R46), and reading and writing
registers (R117, R118, R129).
-/

namespace Sys2Proof.Machine

/-- S and X registers as an instruction reads them: when several splits of the group issue in one cycle, as
they stood before it (R131). -/
def Group.rdS (g : Group) (n : Nat) : W64 :=
  match g.snap with
  | some sx => sx.1.getD n 0
  | none => g.s.getD n 0

def Group.rdX (g : Group) (n : Nat) : BitVec 8 :=
  match g.snap with
  | some sx => sx.2.getD n 0
  | none => g.x.getD n 0

/-- The effective number of a V field (R102). -/
def Group.effV (g : Group) (f : VField) : Nat :=
  match f with
  | .dir n => n.toNat
  | .idx xi base => (g.rdX xi.toNat).toNat + base.toNat

/-- The effective number of the V register that an operand names; 0 for another operand. -/
def Group.opV (g : Group) (o : Opd) : Nat :=
  match o with
  | .v f => g.effV f
  | _ => 0

/-- The number of an S, X, P, K register or barrier that an operand names (R104). -/
def opNum (o : Opd) : Nat :=
  match o with
  | .s n => n.toNat
  | .x n => n.toNat
  | .p n => n.toNat
  | .k n => n.toNat
  | .bar n => n.toNat
  | .tl n => n.toNat
  | _ => 0

/-- The registers that an instruction uses: V registers read in the quads of its active lanes (`rv`) or in all
16 quads (`rvAll`), V registers written (`wv`), V registers that a copy is to write (`hold`, R311), and for S, X, P and K
registers those read and those written.
`spans` are the V runs as first effective number, length and alignment. `rmr` says that it samples the RMR;
`anyAct` that its predicate writes take place whatever lanes are active; `mute` that its destination field names P7, so that it
sets no legality tracking (R118; DEDUCED, log entry 92: its reads are not marked either). -/
structure Foot where
  spans : List (Nat × Nat × Nat) := []
  rv : List Nat := []
  rvAll : List Nat := []
  wv : List Nat := []
  hold : List Nat := []
  rs : List Nat := []
  ws : List Nat := []
  rx : List Nat := []
  wx : List Nat := []
  rp : List Nat := []
  wp : List Nat := []
  rk : List Nat := []
  wk : List Nat := []
  rmr : Bool := false
  anyAct : Bool := false
  mute : Bool := false
  deriving DecidableEq, Repr

/-- How an instruction uses the registers of one field. `readBoth` is the read of a register by the active lanes that counts
in all 16 quads for R46 (R166); `hold` is a write that lands by itself and is no write of the region, but that waits for the
register (R117, R311). -/
inductive Use where
  | read | readAll | readBoth | write | hold | span
  deriving DecidableEq, Repr

/-- Add one field's registers to a footprint (R46, R102, R103). -/
def Group.addField (g : Group) (kd : FKind) (o : Opd) (u : Use) (f : Foot) : Foot :=
  let idx : List Nat := match o with
    | .v (.idx xi _) => [xi.toNat]
    | _ => []
  let f := { f with rx := f.rx ++ idx }
  let vrun (n al : Nat) : Foot :=
    let r := run (g.opV o) n
    let f := { f with spans := f.spans ++ [(g.opV o, n, al)] }
    match u with
    | .read => { f with rv := f.rv ++ r }
    | .readAll => { f with rvAll := f.rvAll ++ r }
    | .readBoth => { f with rv := f.rv ++ r, rvAll := f.rvAll ++ r }
    | .write => { f with wv := f.wv ++ r }
    | .hold => { f with hold := f.hold ++ r }
    | .span => f
  let wr := u = .write
  match kd with
  | .v n al => vrun n al
  | .vdir n => vrun n 1
  | .s n _ => if wr then { f with ws := f.ws ++ run (opNum o) n } else { f with rs := f.rs ++ run (opNum o) n }
  | .x => if wr then { f with wx := f.wx ++ [opNum o] } else { f with rx := f.rx ++ [opNum o] }
  | .p => if wr then { f with wp := f.wp ++ [opNum o] } else { f with rp := f.rp ++ [opNum o] }
  | .k => if wr then { f with wk := f.wk ++ [opNum o] } else { f with rk := f.rk ++ [opNum o] }
  | .none | .bar | .tl => f

/-- How each opcode uses its DST field (R39, R46, R239, R265, R365): stores and tile operations read it. -/
def useD (op : Op) (m : BitVec 16) : Use :=
  match op with
  | .st | .stl | .stb | .stx | .stu | .kst | .skst | .mma | .mmax | .mms | .bxpose => .read
  | .drain => if mfld m 59 58 = 0 then .span else .read
  | .cpyv => .span
  | _ => .write

/-- How each opcode uses its A field: cross-lane instructions read all 16 quads (R166). -/
def useA (op : Op) : Use :=
  match op with
  | .shfl | .gshuf | .gred | .bcast | .sqsig => .readAll
  | _ => .read

/-- How each opcode uses its B field: SHFL and GSHUF read every source register in all 16 quads (R166). -/
def useB (op : Op) : Use :=
  match op with
  | .shfl | .gshuf => .readBoth
  | _ => .read

/-- How each opcode uses its C field: CVTN and BSR write it (R147, R160); MMAX's index is read in all 16
quads (R268). -/
def useC (op : Op) : Use :=
  match op with
  | .cvtn | .bsr => .write
  | .mmax => .readAll
  | _ => .read

/-- The opcodes that sample the RMR (R46, R65, R66): instructions that round under MODE, SAT or FTZ, and
copies and DRAIN. -/
def samplesRmr (op : Op) (m : BitVec 16) : Bool :=
  match op with
  | .fadd | .fsub | .fmul | .ffma | .fmin | .fmax | .fcmp | .frnd | .fscale | .hadd2 | .hmul2 | .hfma2 | .cvti
  | .cvtf | .cvtn | .cvtw | .rcp | .rsq | .sqrt | .ex2 | .lg2 | .sin | .cos | .tanh | .drain => true
  | .qred | .gred => mfld m 51 48 == 1 || mfld m 51 48 == 6 || mfld m 51 48 == 7
  | .getsr => mfld m 55 48 == 0x0F
  | _ => false

/-- The predicate outputs of class 0 that stand in MOD: CO and EO (R130). -/
def predOut (op : Op) (m : BitVec 16) : List Nat :=
  match op with
  | .iadd | .isub | .iaddc | .isubb | .bsr => if mbit m 55 then [mfld m 54 52] else []
  | _ => []

/-- The registers that an instruction word uses. -/
def Group.foot (g : Group) (op : Op) (len : Len) (o : Ops) : Foot :=
  let e := encOf op len o.m o.imm
  let f : Foot := { rp := [o.g.gi.toNat], rmr := samplesRmr op o.m,
                    anyAct := [Op.pmov, Op.pmux, Op.elect, Op.vote].contains op
                    mute := match o.d with
                      | .p n => n == 7
                      | _ => false }
  let f := g.addField e.a o.a (useA op) f
  let f := g.addField e.b o.b (useB op) f
  let f := g.addField e.c o.c (useC op) f
  let own := op = .cpyv && mfld o.m 51 48 == g.gnum
  let f := g.addField e.d o.d (if own then .hold else useD op o.m) f
  -- TRAP reads S63, or S8 to S15 for a system call (R41, R184, R185)
  let trapS := if op = .trap then (if mbit o.m 59 then [63] else run 8 8) else []
  { f with wp := f.wp ++ predOut op o.m, rs := f.rs ++ trapS }

/-- Two footprints as one instruction's (R107). -/
def Foot.both (a b : Foot) : Foot :=
  ⟨a.spans ++ b.spans, a.rv ++ b.rv, a.rvAll ++ b.rvAll, a.wv ++ b.wv, a.hold ++ b.hold, a.rs ++ b.rs, a.ws ++ b.ws, a.rx ++ b.rx,
   a.wx ++ b.wx, a.rp ++ b.rp, a.wp ++ b.wp, a.rk ++ b.rk, a.wk ++ b.wk, a.rmr || b.rmr, a.anyAct || b.anyAct, a.mute && b.mute⟩

/-- The first V register number that breaks R103: at or above the allotment, or a run that starts misaligned
(for an indexed field; a misaligned direct field is no instruction). DESIGN CHOICE (log entry 94): where several break it, DETAIL0
names the first field in the order A, B, C, DST, and of a run its first register at or above the allotment; R391 says only
'effective register number'. -/
def Foot.outOfBounds (f : Foot) (allot : Nat) : Option Nat :=
  f.spans.findSome? fun sp =>
    if sp.1 % sp.2.2 ≠ 0 then some sp.1
    else (run sp.1 sp.2.1).find? fun r => allot ≤ r

/-- A V register has a write pending (R117). -/
def Group.busyV (g : Group) (r : Nat) : Bool :=
  g.pending.any (fun p => p.regs.contains r) || g.cpyvRegs.any fun c => c.2 == r

/-- A register that the instruction uses has a write pending (R117, R272, R311). -/
def Group.busy (g : Group) (f : Foot) : Bool :=
  (f.rv ++ f.rvAll ++ f.wv ++ f.hold).any g.busyV
    || (f.rs ++ f.ws).any (fun r => g.pending.any fun p => p.sregs.contains r)
    || (f.rk ++ f.wk).any fun r => g.pending.any fun p => p.kregs.contains r

/-- A region legality fault: DETAIL0 and DETAIL1 (R391). -/
structure Illegal where
  d0 : Nat
  d1 : Nat
  deriving DecidableEq, Repr

/-- The quads in which a mask has a lane. -/
def quadsOf (m : Mask) : List Nat := (List.range 16).filter fun q => m &&& quadMask q != 0

/-- The reads of an instruction with these active lanes (R46). -/
def Track.reads (t₀ : Track) (f : Foot) (act : Mask) : Track :=
  let t := t₀
  let readV (qs : List Nat) (t : Track) (r : Nat) : Track :=
    let w := smGet 0 t.vw r
    if qs.any fun q => !w.getLsbD q then { t with vl := smSet false t.vl r true } else t
  let t := f.rv.foldl (readV (quadsOf act)) t
  let t := f.rvAll.foldl (readV (List.range 16)) t
  let live1 {n : Nat} (w l : BitVec n) (rs : List Nat) : BitVec n :=
    rs.foldl (fun l r => if w.getLsbD r then l else l ||| (1#n <<< r)) l
  if f.mute then t₀ else
  { t with
    sl := live1 t.sw t.sl f.rs
    xl := live1 t.xw t.xl f.rx
    pl := live1 t.pw t.pl (f.rp.filter (· != 7))
    kl := live1 t.kw t.kl f.rk
    rmrR := t.rmrR || f.rmr }

/-- The first write to a live-in register (R46, R391). A V or predicate write by no lane is no write. -/
def Track.firstIllegal (t : Track) (f : Foot) (act : Mask) : Option Illegal :=
  let v := if act = 0 then none else (f.wv.find? fun r => smGet false t.vl r).map fun r => ⟨r, 0⟩
  let s := (f.ws.find? fun r => t.sl.getLsbD r).map fun r => ⟨r, 3⟩
  let x := (f.wx.find? fun r => t.xl.getLsbD r).map fun r => ⟨r, 4⟩
  let p := if act = 0 && !f.anyAct then none
    else (f.wp.find? fun r => r != 7 && t.pl.getLsbD r).map fun r => ⟨r, 5⟩
  let k := (f.wk.find? fun r => t.kl.getLsbD r).map fun r => ⟨r, 6⟩
  v <|> s <|> x <|> p <|> k

/-- The writes of an instruction (R46): a V register's bit for a quad is set when the write covers every
live lane of the quad. DEDUCED (log entry 11): any V write by some lane covers a quad without a live lane. -/
def Track.writes (t : Track) (f : Foot) (act live : Mask) : Track :=
  let cover : BitVec 16 := BitVec.ofNat 16 ((List.range 16).foldl
    (fun n q => if (live &&& quadMask q) &&& ~~~act = 0 then n + 2 ^ q else n) 0)
  let vw := if act = 0 then t.vw else f.wv.foldl (fun m r => smSet 0 m r (smGet 0 m r ||| cover)) t.vw
  let set {n : Nat} (w : BitVec n) (rs : List Nat) : BitVec n := rs.foldl (fun w r => w ||| (1#n <<< r)) w
  if f.mute then t else
  { t with
    vw := vw
    sw := set t.sw f.ws
    xw := set t.xw f.wx
    pw := if act = 0 && !f.anyAct then t.pw else set t.pw (f.wp.filter (· != 7))
    kw := set t.kw f.wk }

/-- A lane's value of a V register (R129). -/
def Group.rdV (g : Group) (r l : Nat) : W32 := (g.v.getD r []).getD l 0

/-- A lane's value of a pair (R5, R129). -/
def Group.rdPair (g : Group) (r l : Nat) : W64 := g.rdV (r + 1) l ++ g.rdV r l

/-- The 64 lanes of a value. -/
def lanes64 {α : Type} (f : Nat → α) : List α := (List.range 64).map f

/-- The V registers after the lanes of a mask of one of them are written (R117). -/
def vWrite (v : List (List W32)) (r : Nat) (m : Mask) (vals : List W32) : List (List W32) :=
  if m = 0 then v
  else
    let old := v.getD r []
    setAt [] v r (lanes64 fun l => if inMask m l then vals.getD l 0 else old.getD l 0)

/-- The poisoned lanes of V registers after such a write: a written lane is poisoned no more. -/
def vClean (vp : SMap Bool) (r : Nat) (m : Mask) : SMap Bool :=
  if vp.isEmpty then [] else vp.filter fun kv => !(kv.1 / 64 == r && inMask m (kv.1 % 64))

/-- The predicates after the bits of a mask of one of them are written; P7 receives no change (R118). -/
def pWrite (p : List Mask) (n : Nat) (m val : Mask) : List Mask :=
  if n = 7 then p else setAt 0 p n ((p.getD n 0 &&& ~~~m) ||| (val &&& m))

/-- Write the lanes of a mask of a V register. -/
def Group.wrV (g : Group) (r : Nat) (m : Mask) (vals : List W32) : Group :=
  { g with v := vWrite g.v r m vals, vpoison := vClean g.vpoison r m }

/-- Write one lane of a V register. -/
def Group.wrLane (g : Group) (r l : Nat) (x : W32) : Group := g.wrV r (laneBit l) (List.replicate 64 x)

/-- Write an S register. -/
def Group.wrS (g : Group) (n : Nat) (x : W64) : Group := { g with s := setAt 0 g.s n x }

/-- Write a K register. -/
def Group.wrK (g : Group) (n : Nat) (x : KReg) : Group := { g with k := setAt ⟨0, 0, 0⟩ g.k n x }

/-- Active lanes that would read a poisoned lane of a V register (R122, R392). -/
def Group.poisonedLanes (g : Group) (rs : List Nat) (act : Mask) : Mask :=
  if g.vpoison.isEmpty then 0
  else maskOf fun l => inMask act l && rs.any fun r => smGet false g.vpoison (64 * r + l)

end Sys2Proof.Machine
end

