-- ==== Sys2Proof/Machine/TileGeo.lean ====
section
/-!
DEFINITION. What a tile operation touches (R256 to R259): descriptors and format blocks, tiles and their scales as byte
ranges; the order of a group's tile operations on `c:` (R263), their completion (R262), and CZERO, which waits for that order
and for nothing else (R271).
-/

namespace Sys2Proof.Machine

/-! ## Descriptors and formats (R62, R63, R258, R259) -/

/-- The fields of a pass descriptor (R258); offsets in bytes. -/
structure Geo where
  cb : Nat
  ab : Nat
  bb : Nat
  m : Nat
  n : Nat
  k : Nat
  fromC : Bool
  pitch : Nat
  deriving DecidableEq, Repr

def geoOf (d : W64) : Geo :=
  let v := d.toNat
  ⟨128 * nfld v 10 0, 128 * nfld v 21 11, 128 * nfld v 32 22, nfld v 35 33 + 1, nfld v 38 36 + 1, nfld v 46 39 + 1,
    v.testBit 47, nfld v 63 48⟩

/-- The element bits of a format code (R62). -/
def codeBits (c : Nat) : Nat :=
  match c with
  | 0 | 28 => 32
  | 1 | 2 | 29 | 30 => 16
  | 5 | 6 | 10 | 11 => 6
  | 7 | 12 | 16 | 17 | 21 | 22 | 23 | 26 => 4
  | 18 | 19 => 2
  | 20 => 1
  | _ => 8

/-- A code is for C (R62). -/
def isCCode (c : Nat) : Bool := c == 0 || c == 28 || c == 29 || c == 30

/-- The block kind of a code (R62, R259): none, block 16, block 32, FP32 for a row. -/
def codeBlock (c : Nat) : Nat :=
  if (8 ≤ c && c ≤ 13) || c == 21 || c == 23 then 2
  else if c == 22 || c == 26 || c == 27 || c == 31 then 1
  else if c == 24 || c == 25 then 3
  else 0

/-- Tile products of a cycle that a code allows (R62). -/
def codeRate (c : Nat) : Nat := if codeBits c = 16 then 1 else if 6 ≤ codeBits c then 2 else 4

/-- Codes 14 to 20, which INT32 accumulation takes (R63). -/
def intCode (c : Nat) : Bool := 14 ≤ c && c ≤ 20

/-- A reserved bit of the format block is set (R259). -/
def fmtReserved (f0 f1 : Nat) : Bool :=
  f0.testBit 7 || f0.testBit 15 || nfld f0 23 21 != 0 || nfld f0 63 60 != 0 || nfld f1 63 32 != 0

/-- The format block is illegal for a pass (R259, R63). -/
def fmtIllegal (f0 f1 : Nat) : Bool :=
  let a := nfld f0 4 0
  let b := nfld f0 12 8
  let c := nfld f0 20 16
  fmtReserved f0 f1 || nfld f0 6 5 != codeBlock a || nfld f0 14 13 != codeBlock b
    || nfld f0 41 24 % 32 != 0 || nfld f0 59 42 % 32 != 0
    || isCCode a || isCCode b || !isCCode c || (c == 28 && !(intCode a && intCode b))

/-! ## Tile operations -/

def TileOp.geo (o : TileOp) : Geo := geoOf o.desc
def TileOp.aCode (o : TileOp) : Nat := nfld o.fmt0.toNat 4 0
def TileOp.bCode (o : TileOp) : Nat := nfld o.fmt0.toNat 12 8
def TileOp.cCode (o : TileOp) : Nat := nfld o.fmt0.toNat 20 16
def TileOp.aScale (o : TileOp) : Nat := nfld o.fmt0.toNat 41 24
def TileOp.bScale (o : TileOp) : Nat := nfld o.fmt0.toNat 59 42
def TileOp.handle (o : TileOp) : Nat := nfld o.fmt1.toNat 31 0
def TileOp.aSpace (o : TileOp) : Space := if o.geo.fromC then .c else .a
def TileOp.isPass (o : TileOp) : Bool := o.kind != .drain && o.kind != .czero

/-- The enabled tiles, i outer and j inner (R264, R272). -/
def TileOp.enabled (o : TileOp) : List (Nat × Nat) :=
  (List.range o.geo.m).flatMap fun i =>
    (List.range o.geo.n).filterMap fun j => if o.tiles.getLsbD (8 * i + j) then some (i, j) else none

/-- The bytes of a C tile: its offset and its size (R257). -/
def TileOp.cTile (o : TileOp) (t : Nat × Nat) : Nat × Nat :=
  let w := codeBits o.cCode
  (o.geo.cb + (t.1 * o.geo.n + t.2) * 128 * w, 128 * w)

/-- The tile number of A's and of B's tiles along k (R257). MMAX's pool has PM row tiles (R268). -/
def TileOp.aRows (o : TileOp) : Nat := if o.kind = .mmax then o.pm else o.geo.m
def TileOp.aTileNo (o : TileOp) (i t : Nat) : Nat := t * o.aRows + i
def TileOp.bTileNo (o : TileOp) (j t : Nat) : Nat := t * o.geo.n + j
def TileOp.aTileOff (o : TileOp) (i t : Nat) : Nat := o.geo.ab + o.aTileNo i t * 128 * codeBits o.aCode
def TileOp.bTileOff (o : TileOp) (j t : Nat) : Nat := o.geo.bb + o.bTileNo j t * 128 * codeBits o.bCode

/-- Where row or column `r` of a tile finds scale data for half `h` (R257): offset and size. `tile` is the tile's
number along k, `idx` the row tile of A or the column tile of B. -/
def scalePlace (code so tile idx r h : Nat) : Option (Nat × Nat) :=
  if code = 21 then some (so + 64 * tile + 2 * r, 2)
  else if code = 22 then some (so + 128 * tile + 4 * r + 2 * h, 2)
  else match codeBlock code with
    | 2 => some (so + 32 * tile + r, 1)
    | 1 => some (so + 64 * tile + 2 * r + h, 1)
    | 3 => some (so + 128 * idx + 4 * r, 4)
    | _ => none

/-- The row tile and row of A that output row `r` of tile row `i` takes; none reads as +0 (R267, R268). -/
def TileOp.aRow (o : TileOp) (i r : Nat) : Option (Nat × Nat) :=
  if o.kind = .mmax then (o.rows.getD (32 * i + r) none).map fun p => (p / 32, p % 32) else some (i, r)

/-- The scale bytes of a row over both halves. -/
def scaleSpans (code so tile idx r : Nat) : List (Nat × Nat) :=
  ((List.range 2).filterMap fun h => scalePlace code so tile idx r h).eraseDups

/-- The bytes of A that the rows of a tile row read in k-step `t`, with their scales (R257, R268). -/
def TileOp.aSpans (o : TileOp) (i t : Nat) : List (Nat × Nat) :=
  (List.range 32).flatMap fun r => match o.aRow i r with
    | none => []
    | some (p, q) =>
      (o.aTileOff p t + 4 * codeBits o.aCode * q, 4 * codeBits o.aCode)
        :: scaleSpans o.aCode o.aScale (o.aTileNo p t) p q

def TileOp.bSpans (o : TileOp) (j t : Nat) : List (Nat × Nat) :=
  (List.range 32).flatMap fun c =>
    (o.bTileOff j t + 4 * codeBits o.bCode * c, 4 * codeBits o.bCode)
      :: scaleSpans o.bCode o.bScale (o.bTileNo j t) j c

/-- The bitmap bytes of an MMS (R269). -/
def TileOp.aMap (o : TileOp) (i t : Nat) : Nat := nfld o.bitmaps.toNat 17 0 + 128 * o.aTileNo i t
def TileOp.bMap (o : TileOp) (j t : Nat) : Nat := nfld o.bitmaps.toNat 35 18 + 128 * o.bTileNo j t

/-- The offsets of the slots that a CZERO clears (R271). -/
def TileOp.slots (o : TileOp) : List Nat :=
  (List.range 64).filterMap fun i => if o.tiles.getLsbD i then some (o.addr.toNat + 4096 * i) else none

/-- Every byte range that a tile operation reads or writes in the typed buffers, by space (R257): for each enabled
tile its C bytes, then its operands by k-step. A CZERO touches the slots that it clears (R271). DESIGN CHOICE (log entry 99): where
several do not fit, DETAIL0 names the first in this order, tile by tile: C, then by k-step the A rows with their scales, the B columns
with theirs, the bitmaps. -/
def TileOp.spans (o : TileOp) : List (Space × Nat × Nat) :=
  if o.kind = .czero then o.slots.map fun off => (Space.c, off, 4096)
  else o.enabled.flatMap fun t =>
    (Space.c, o.cTile t) ::
      (if o.isPass then
        (List.range o.geo.k).flatMap fun u =>
          (o.aSpans t.1 u).map (fun p => (o.aSpace, p)) ++ (o.bSpans t.2 u).map (fun p => (Space.w, p))
            ++ (if o.kind = .mms then [(o.aSpace, o.aMap t.1 u, 128), (Space.w, o.bMap t.2 u, 128)] else [])
      else [])

/-- The ranges of `c:` that an operation touches (R263). -/
def TileOp.cRanges (o : TileOp) : List (Nat × Nat) :=
  (o.spans.filter fun p => p.1 == Space.c).map (·.2)

/-- Two lists of ranges share a byte. -/
def rangesMeet (a b : List (Nat × Nat)) : Bool :=
  a.any fun p => b.any fun q => p.1 < q.1 + q.2 && q.1 < p.1 + p.2

/-! ## Order and completion (R262, R263, R271) -/

/-- Every operation that goes to an engine's arbiter and is not complete (R260). -/
def MatrixEng.all (e : MatrixEng) : List TileOp := e.suspended.toList ++ e.running.toList ++ e.requests

/-- Every tile operation that is not complete: those, and the CZEROs that wait. -/
def MatrixEng.pending (e : MatrixEng) : List TileOp := e.all ++ e.clears

/-- No earlier operation of its group that is not complete touches an operation's bytes of `c:` (R263). -/
def MatrixEng.grantable (e : MatrixEng) (o : TileOp) : Bool :=
  !(e.pending.any fun p => p.gid == o.gid && p.id < o.id && rangesMeet p.cRanges o.cRanges)

/-- A tile operation of a group is complete: CNT.TL falls, its flags rise, and its registers are free (R262, R117). Of a
halted group nothing changes (R389, R396). -/
def State.finishTile (s : State) (o : TileOp) (fl : W32) : State :=
  s.modGroup o.gid fun g => if g.status = .halted then g else { g with
    cntTl := g.cntTl - 1
    gsr := g.gsr ||| fl
    pending := g.pending.filter (·.id != o.id) }

/-- The lines of 128 bytes that byte ranges lie in. -/
def rangeLines (l : List (Nat × Nat)) : List Nat :=
  (l.flatMap fun p => (List.range ((p.1 + p.2 + 127) / 128 - p.1 / 128)).map (p.1 / 128 + ·)).eraseDups

/-- Before the matrix path writes ranges of a core's `c:`, the stores of other paths there are acknowledged: a later
acknowledgement undoes nothing of it. -/
def State.settleC (s : State) (core : Nat) (ranges : List (Nat × Nat)) : State :=
  s.drainLines core (onLinesOf .c (rangeLines ranges))

/-- Bytes of a bank read 0, and are poison no more. -/
def bankClear (b : Bank) (off n : Nat) : Bank :=
  ⟨b.bytes.filter fun kv => !(off ≤ kv.1 && kv.1 < off + n), b.poison.filter fun kv => !(off ≤ kv.1 && kv.1 < off + n)⟩

/-- A CZERO clears its slots, and is complete (R271). -/
def State.clearSlots (s : State) (o : TileOp) : State :=
  let s := s.settleC o.core o.cRanges
  let c := s.core o.core
  (s.setCore o.core { c with cbuf := o.slots.foldl (fun b off => bankClear b off 4096) c.cbuf }).finishTile o 0

/-- The CZEROs of an engine's cores that wait for nothing any more are performed, in their order (R263, R271): `n` bounds
their number. -/
def settleClears (n : Nat) (s : State) (engine : Nat) : State :=
  match n with
  | 0 => s
  | n + 1 =>
    let e := s.matrixEng engine
    match e.clears.find? e.grantable with
    | none => s
    | some o =>
      settleClears n ((s.setMatrix engine { e with clears := e.clears.filter (·.id != o.id) }).clearSlots o) engine

/-- The same, for all that wait. -/
def State.runClears (s : State) (engine : Nat) : State := settleClears (s.matrixEng engine).clears.length s engine

end Sys2Proof.Machine
end

