-- ==== Sys2Proof/Machine/Translate.lean ====
section
/-!
DEFINITION. Translation (R208 to R216): the page walk, the TLBs, walks that misses wait on, and fault
records (R294).
-/

namespace Sys2Proof.Machine

/-- A walk's reads meet tenures that they have to recall first (R325). -/
def State.walkMeets (s : State) (c va : Nat) : Bool :=
  !s.tenures.isEmpty && s.tenures.any fun t => t.write && t.touches none (s.walkReads c va)

/-- Those tenures are recalled, or waited for (R232, R325). -/
def State.walkRecall (s : State) (c va : Nat) : State :=
  if s.intrudeWaits none (s.walkReads c va) then s.callBack none (s.walkReads c va) else s.intrude none (s.walkReads c va) false

/-- The outcome of a translation for one address: a physical address, a walk still to be made, an open
fault record to wait on, a denial that has yet to post its record, or an address outside the space. -/
inductive Tr where
  | ok (pa : Nat)
  | miss
  | recorded (seq : Nat)
  | denied (cause : Nat)
  | outside
  deriving DecidableEq, Repr

/-- A requester of translations: context, access kind, need of WR, core, cluster, ENGINE code, die and waiter. -/
structure Req where
  ctx : Nat
  kind : AccKind
  wr : Bool
  core : Option Nat
  cluster : Option Nat
  engine : Nat
  die : Nat
  who : Waiter
  deriving DecidableEq, Repr

/-- The open record of an access's page and kind (R214). -/
def State.openRec (s : State) (r : Req) (va : Nat) : Option FaultRec :=
  (s.ctx r.ctx).records.find? fun f => f.kind == r.kind && f.va / 4096 == va / 4096

/-- A record of a group's access of this page and kind that has been answered before the group acted on it. -/
def State.earlyRec (s : State) (r : Req) (va : Nat) : Option Early :=
  (s.ctx r.ctx).early.find? fun e => r.who == .group e.gid e.wr && e.kind == r.kind && e.va / 4096 == va / 4096

/-- Translate one address for a requester. An access whose walk failed waits on the record of its page and
kind, and so does one that a held leaf denies while such a record is open (R214). -/
def State.translate (s : State) (r : Req) (va : Nat) : Tr :=
  if Config.virtEnd ≤ va then .outside
  else match s.earlyRec r va with
  | some e => .recorded e.seq
  | none => match s.tlbHit r.ctx va r.core r.cluster with
    | none => match s.openRec r va with
      | some f => if f.waiters.contains r.who then .recorded f.seq else .miss
      | none => .miss
    | some e => match denyCause s r.kind r.wr e.wr e.exec e.key with
      | none => .ok (e.frame + va % 2 ^ e.size)
      | some c => match s.openRec r va with
        | some f => if f.waiters.contains r.who then .recorded f.seq else .denied c
        | none => .denied c

/-- One more waiter on an open record. -/
def State.joinRecord (s : State) (r : Req) (seq : Nat) : State :=
  let x := s.ctx r.ctx
  if x.records.any fun f => f.seq == seq && !f.waiters.contains r.who then
    s.setCtx r.ctx { x with records := x.records.map fun f =>
      if f.seq = seq && !f.waiters.contains r.who then { f with waiters := f.waiters ++ [r.who] } else f }
  else s

/-- A miss joins the running walk of its page on its die, or starts one; when 256 walks run, it waits
(R213). -/
def State.requestWalk (s : State) (r : Req) (va : Nat) : State :=
  let m : Miss := ⟨r.kind, r.wr, r.engine, va, r.core, r.cluster, r.who⟩
  match s.walks.find? (fun w => w.die == r.die && w.ctx == r.ctx && w.page == va / 4096) with
  | some w =>
    if w.misses.any (fun x => x.kind == m.kind && x.wr == m.wr && x.who == m.who && (!(m.who matches .prefetch ..) || x.va == m.va)) then s
    else { s with walks := s.walks.map fun x => if x.id = w.id then { x with misses := x.misses ++ [m] } else x }
  | none =>
    if 256 ≤ (s.walks.filter (·.die == r.die)).length then s
    else { s with walks := s.walks ++ [⟨s.nextId, r.die, r.ctx, va / 4096, [m]⟩], nextId := s.nextId + 1 }

/-- Every translation of the device that maps a page for a context is dropped (R214): TLB entries, and what walks have returned to
units that have still to use it. -/
def State.dropTlb (s : State) (c : Nat) (hit : TlbEntry → Bool) : State :=
  let keep (e : TlbEntry) : Bool := !(e.ctx == c && hit e)
  { s with unitTrs := s.unitTrs.filter fun a => keep (a.entry.getD ⟨a.ctx, 4096 * a.page, 12, 0, false, false, 0⟩)
           cores := s.cores.filterMap fun kv =>
             let x : CoreSt := { kv.2 with tlb := kv.2.tlb.filter keep }
             if x = CoreSt.reset then none else some (kv.1, x)
           clusterTlb := s.clusterTlb.filterMap fun kv =>
             let x := kv.2.filter keep
             if x.isEmpty then none else some (kv.1, x) }

/-- The records of a fault record queue (R282). -/
def State.frqSize (s : State) (c : Nat) : Nat := 2 ^ (s.ctxWord c 2 % 32)

/-- The physical address of a slot of the fault record queue (R282, R294). -/
def State.frqSlot (s : State) (c slot : Nat) : Nat := s.ctxWord c 2 / 4096 * 4096 + 64 * slot

/-- A slot of the fault record queue is free for the next record (R294), and the host does not hold it (R234). -/
def State.frqFree (s : State) (c : Nat) : Bool :=
  let x := s.ctx c
  let slot := x.frSeq % s.frqSize c
  !(x.records.any fun f => f.slot == slot) && !s.hostHolds [s.frqSlot c slot]

/-- The queue whose work waits on a record or a walk, in whose order the record's event stands (R419). -/
def State.waiterQueue (s : State) (w : Waiter) : Nat :=
  let ofGroup (gid : Nat) : Nat := ((s.group? gid).map (·.queue)).getD 0
  match w with
  | .group gid _ => ofGroup gid
  | .fetch gid _ => ofGroup gid
  | .copy e id => match (s.copyEngine e).running.find? (·.cmd.id == id) with
    | none => 0
    | some r => match r.cmd.packet, r.cmd.gid with
      | some p, _ => p.1
      | none, some gid => ofGroup gid
      | none, none => 0
  | .frontEnd q => q
  | .ending q => q
  | .world n => (s.world n).desc.queue
  | .reply _ => 0
  | .sequencer _ => 0
  | .prefetch .. => 0

/-- Post a fault record: drop the page's TLB entries, write the 64 bytes with SEQ, open the record (R214, R294). Its event goes to
the bobbins (R419). -/
def State.postRecord (s : State) (c : Nat) (m : Miss) (cause level entryPa : Nat) (ws : List Waiter) : State :=
  let s := s.dropTlb c (·.covers c m.va)
  let x := s.ctx c
  let seq := x.frSeq + 1
  let slot := x.frSeq % s.frqSize c
  let w0 := cause + accCode m.kind * 256 + level * 4096 + m.engine * 32768 + (seq % 2 ^ 32) * 2 ^ 32
  let pa := s.frqSlot c slot
  let bytes := leBytes 8 w0 ++ leBytes 8 m.va ++ leBytes 8 entryPa ++ List.replicate 40 0
  let s := s.physWrite pa bytes
  let s := s.pushEvent (.faultRecord c seq (((ws.head?).map s.waiterQueue).getD 0))
  s.setCtx c { x with frSeq := seq, records := x.records ++ [⟨seq, slot, m.va, m.kind, ws⟩] }

/-- Put a translation into a TLB of a size: the oldest entry leaves a full one (R212). -/
def tlbInsert (cap : Nat) (e : TlbEntry) (l : List TlbEntry) : List TlbEntry :=
  let l := l.filter fun x => !(x.ctx == e.ctx && x.va == e.va && x.size == e.size)
  (l ++ [e]).drop (l.length + 1 - cap)

/-- A walk's translation fills the TLBs of a miss that waited on it (R212). -/
def State.fillTlb (s : State) (e : TlbEntry) (m : Miss) : State :=
  let s := match m.core with
    | some n => s.setCore n { s.core n with tlb := tlbInsert 64 e (s.core n).tlb }
    | none => s
  match m.cluster with
  | some k => { s with clusterTlb := smSet [] s.clusterTlb k (tlbInsert 2048 e (smGet [] s.clusterTlb k)) }
  | none => s

/-- The translations of a list of addresses, in order. -/
def State.translateAll (s : State) (r : Req) (vas : List Nat) : List (Nat × Tr) :=
  vas.map fun va => (va, s.translate r va)

/-- A denied access waits on the open record of its page and kind, or posts one without a walk, when a slot is free (R214). -/
def State.postDenied (s : State) (r : Req) (va cause : Nat) : State :=
  match s.openRec r va with
  | some f => s.joinRecord r f.seq
  | none => if s.frqFree r.ctx then
    let level := match s.tlbHit r.ctx va r.core r.cluster with
      | some e => levelOfSize e.size
      | none => 0
    s.postRecord r.ctx ⟨r.kind, r.wr, r.engine, va, r.core, r.cluster, r.who⟩ cause level
      (s.walkEntry r.ctx va level) [r.who]
  else s

/-- The lines that addresses of one instruction or access reach through leaves of other keys than they are held under, each with
the slot of its leaf (R211). Of two leaves that reach one line, the first counts. -/
def State.misKeyed (s : State) (r : Req) (vas : List Nat) : List (Nat × Nat) :=
  if s.lineKeys.isEmpty && s.pageKeys.isEmpty then []
  else
    let at_ := vas.filterMap fun va => match s.translate r va with
      | .ok pa => some (pa / 128, ((s.tlbHit r.ctx va r.core r.cluster).map (·.key)).getD 0)
      | _ => none
    let firsts := at_.foldl (fun l p => if l.any (·.1 == p.1) then l else l ++ [p]) ([] : List (Nat × Nat))
    firsts.filter fun p => !s.keyFits p.1 p.2

/-- Translate the addresses of one instruction or access, in lane order, and set going what they wait for: walks for the
misses, records for the denials (R213, R214, R432), and the key of its leaf for a line that is held under another (R211). -/
def State.seekAll (s : State) (r : Req) (vas : List Nat) : State :=
  (s.misKeyed r vas).foldl (fun s p => s.useLine p.1 p.2)
    (vas.foldl (fun s va => match s.translate r va with
      | .miss => s.requestWalk r va
      | .denied c => s.postDenied r va c
      | .recorded seq => s.joinRecord r seq
      | _ => s) s)

/-- Misses of one access kind on one 4 KiB page fail: they wait on the open record of the page and kind, or post one when a
slot is free (R214). DESIGN CHOICE (log entry 104): of several requesters, the one whose miss came first gives the record its VA and
ENGINE; R432 fixes the VA among the lanes of one instruction alone. -/
def State.failMisses (s : State) (c : Nat) (ms : List Miss) (cause level pa : Nat) : State :=
  match ms with
  | [] => s
  | m :: _ =>
    let x := s.ctx c
    match x.records.find? fun f => f.kind == m.kind && f.va / 4096 == m.va / 4096 with
    | some f => s.setCtx c { x with records := x.records.map fun y =>
        if y.seq = f.seq then { y with waiters := y.waiters ++ ms.map (·.who) } else y }
    | none => if s.frqFree c then s.postRecord c m cause level pa (ms.map (·.who)) else s

/-- Misses by access kind and 4 KiB page, in order. -/
def missGroups (ms : List Miss) : List (List Miss) :=
  let key (m : Miss) : AccKind × Nat := (m.kind, m.va / 4096)
  (ms.map key).eraseDups.map fun k => ms.filter fun m => key m == k

/-- The walks that a walk's leaf answers: its own, and those of its die and context inside the leaf's page (R213). -/
def State.answered (s : State) (w : Walk) (size : Nat) : List Walk :=
  s.walks.filter fun v => v.id == w.id || (v.die == w.die && v.ctx == w.ctx && v.page * 4096 / 2 ^ size == w.page * 4096 / 2 ^ size)

/-- Who waits on a walk and posts no record when it fails: the reading of a reply, the sequencer (R372), a prefetch (R254), and the
front end where no context could take the record. -/
def Waiter.quiet (w : Waiter) : Bool := w matches .reply _ | .sequencer _ | .prefetch .. | .ending _

/-- What a walk has found for a miss of a unit without a TLB, which the unit then uses (R213); a prefetch's line is brought (R254). -/
def State.tellUnit (s : State) (c : Nat) (m : Miss) (e : Option TlbEntry) : State :=
  match m.who with
  | .group .. | .fetch .. | .copy .. => s
  | .prefetch core l1 => match e with
    | none => s
    | some e =>
      let line := (e.frame + m.va % 2 ^ e.size) / 128
      let s := s.fillL2 [128 * line]
      let bs := overlay (s.core core).outbound line (s.memRead (128 * line) 128)
      if l1 && s.keyFits line e.key && bs.all (!·.2) then s.fillL1 core line (bs.map (·.1)) else s
  | w => { s with unitTrs := (s.unitTrs.filter fun a => !(a.ctx == c && a.who == w && a.page == m.va / 4096)) ++ [⟨c, m.va / 4096, w, e⟩] }

/-- Misses of a walk fail: those that post records do, and the others learn of it. -/
def State.failAll (s : State) (c : Nat) (ms : List Miss) (cause : Miss → Nat) (level pa : Nat) : State :=
  (missGroups (ms.filter (!·.who.quiet))).foldl (fun s g => s.failMisses c g ((g.head?.map cause).getD 0) level pa)
    ((ms.filter (·.who.quiet)).foldl (fun s m => s.tellUnit c m none) s)

/-- What a leaf denies a miss. -/
def State.missDenied (s : State) (e : Nat) (m : Miss) : Option Nat :=
  denyCause s m.kind m.wr (e.testBit 2) (e.testBit 3) (nfld e 62 56)

/-- A walk ends (R213, R214): a valid leaf answers every waiting miss inside its page. Of those that it allows the TLBs are filled;
those that it denies, or all where no leaf is found, post one record for each access kind and page, and fill none. DEDUCED (log
entry 105): misses that the leaf allows wait on no record of those that it denies, for reads are always allowed (R209). -/
def State.endWalk (s : State) (w : Walk) : State :=
  match s.walk w.ctx (w.page * 4096) with
  | .fail cause level pa =>
    ({ s with walks := s.walks.filter (·.id != w.id) } : State).failAll w.ctx w.misses (fun _ => cause) level pa
  | .leaf e size frame =>
    let done := s.answered w size
    let s : State := { s with walks := s.walks.filter fun v => !(done.any fun d => d.id == v.id) }
    let t : TlbEntry := ⟨w.ctx, w.page * 4096 / 2 ^ size * 2 ^ size, size, frame, e.testBit 2, e.testBit 3,
      nfld e 62 56⟩
    let level := levelOfSize size
    let denied (m : Miss) : Bool := (s.missDenied e m).isSome
    let end1 (u : State) (v : Walk) : State :=
      (v.misses.filter (!denied ·)).foldl (fun u m => (u.fillTlb t m).tellUnit w.ctx m (some t))
        (u.failAll w.ctx (v.misses.filter denied) (fun m => (s.missDenied e m).getD 0) level
          (s.walkEntry w.ctx (v.page * 4096) level))
    let s' := done.foldl end1 s
    if done.any fun v => v.misses.any (!denied ·) then s'.keyPage ⟨frame, size, s.slotKey (nfld e 62 56)⟩ else s'

/-- A walk may end: a failing one needs a free slot for each record it posts (R294). -/
def State.walkReady (s : State) (w : Walk) : Bool :=
  match s.walk w.ctx (w.page * 4096) with
  | .leaf e size _ =>
    s.frqFree w.ctx || (s.answered w size).all fun v => v.misses.all fun m => m.who.quiet || (s.missDenied e m).isNone
  | .fail .. => s.frqFree w.ctx || w.misses.all (·.who.quiet)

/-! ## Units without a TLB (R213, R294, R448) -/

/-- An access of such a unit: context, kind, need of WR, ENGINE code, the die whose walkers serve it, and the unit. -/
structure Unit7 where
  ctx : Nat
  kind : AccKind
  wr : Bool
  engine : Nat
  die : Nat
  who : Waiter
  deriving DecidableEq, Repr

/-- What one access of a unit finds: its place, a walk that has failed, a leaf that denies it, or a wait. -/
inductive UnitReach where
  | ok (pa : Nat)
  | failed
  | denied (cause : Nat)
  | wait (s : State)

/-- A walk has returned a unit what it needs for an address. -/
def UnitTr.serves (a : UnitTr) (c : Nat) (who : Waiter) (va : Nat) : Bool :=
  a.ctx == c && a.who == who && (match a.entry with
    | some e => e.covers c va
    | none => a.page == va / 4096)

/-- One access of a unit, for bytes of one line (R208, R211, R213): it waits for a walk as every engine's does, and for the line to
be held under its leaf's key. -/
def State.unitAsk (s : State) (u : Unit7) (va : Nat) : UnitReach :=
  if Config.virtEnd ≤ va then .failed
  else match s.unitTrs.find? (·.serves u.ctx u.who va) with
  | none => .wait (s.requestWalk ⟨u.ctx, u.kind, u.wr, none, none, u.engine, u.die, u.who⟩ va)
  | some a => match a.entry with
    | none => .failed
    | some e => match denyCause s u.kind u.wr e.wr e.exec e.key with
      | some c => .denied c
      | none =>
        let pa := e.frame + va % 2 ^ e.size
        if s.keyFits (pa / 128) e.key then .ok pa else .wait (s.useLine (pa / 128) e.key)

/-- A unit has done what it needed translations for: it holds none of them any longer (R212 gives it no TLB). -/
def State.unitDone (s : State) (c : Nat) (who : Waiter) : State :=
  if s.unitTrs.isEmpty then s else { s with unitTrs := s.unitTrs.filter fun a => !(a.ctx == c && a.who == who) }

/-- The requester of a group's translations (R212, R294). -/
def Group.req (g : Group) (gid : Nat) (kind : AccKind) (wr : Bool) : Req :=
  ⟨g.ctx, kind, wr, some g.core, some (clusterOfCore g.core), g.core, dieOfCore g.core, .group gid wr⟩

end Sys2Proof.Machine
end

