-- ==== Sys2Proof/Machine/Region.lean ====
section
/-!
DEFINITION. Regions (R38 to R53): the region store buffer, closing and fixing, opening, discard and
re-entry; the death of lanes and the end of a group without live lanes (R122, R393).
-/

namespace Sys2Proof.Machine

/-! ## The region store buffer (R44) -/

/-- The buffer holds an entry for a line of a space. -/
def hasLine (buf : List BufLine) (sp : Space) (line : Nat) : Bool :=
  buf.any fun b => b.space == sp && b.line == line

/-- A buffered byte of a line. -/
def bufByte (buf : List BufLine) (sp : Space) (line off : Nat) : Option BufByte :=
  (buf.find? fun b => b.space == sp && b.line == line).bind fun b => b.bytes.find? (·.off == off)

/-- Allocate an entry for a line when none is held (R42: entries keep the order of their allocation). -/
def allocLine (buf : List BufLine) (sp : Space) (line vline : Nat) : List BufLine :=
  if hasLine buf sp line then buf else buf ++ [⟨sp, line, vline, []⟩]

/-- Put one byte into a held line, over an earlier byte of the same offset (R44). -/
def putByte (buf : List BufLine) (sp : Space) (line : Nat) (x : BufByte) : List BufLine :=
  buf.map fun b =>
    if b.space == sp && b.line == line then { b with bytes := b.bytes.filter (·.off != x.off) ++ [x] } else b

/-- One byte that a store puts into the buffer: the address in its space as the fault records name it (virtual
in `g:`), where it lies (physical in `g:`, the core's scratch offset in `l:`), value and tag. -/
structure StByte where
  va : Nat
  at_ : Nat
  val : Byte
  tag : Option Nat
  pois : Bool
  wait : Option Nat
  deriving DecidableEq, Repr

/-- A store to a byte whose tag is another lane's, or that crosses between a lane and the whole group, is a
store conflict (R44): the first conflicting byte's address. -/
def storeConflict (buf : List BufLine) (sp : Space) (bs : List StByte) : Option Nat :=
  (bs.find? fun b => match bufByte buf sp (b.at_ / 128) (b.at_ % 128) with
    | some x => x.tag != b.tag
    | none => false).map (·.va)

/-- The store needs more than 64 entries (R45): the address of the byte that needed the 65th line. -/
def overCapacity (buf : List BufLine) (sp : Space) (bs : List StByte) : Option Nat :=
  let r := bs.foldl (fun (p : List BufLine × Option Nat) b =>
    match p.2 with
    | some _ => p
    | none =>
      let buf' := allocLine p.1 sp (b.at_ / 128) (b.va / 128)
      if 64 < buf'.length then (p.1, some b.va) else (buf', none)) (buf, none)
  r.2

/-- Place the bytes of one store of an access path (R223), in order: later lanes over earlier ones (R44). -/
def placeStore (buf : List BufLine) (sp : Space) (path : Nat) (bs : List StByte) : List BufLine :=
  bs.foldl (fun buf b =>
    putByte (allocLine buf sp (b.at_ / 128) (b.va / 128)) sp (b.at_ / 128) ⟨b.at_ % 128, b.val, b.tag, b.pois, b.wait, path⟩) buf

/-! ## Fixing (R42, R375) -/

/-- A line held by a core's L1 takes the bytes of a fixed store (R205); a line with a poisoned byte is not held. -/
def l1Store (l1 : SMap (List Byte)) (line : Nat) (bytes : List BufByte) : SMap (List Byte) :=
  match smFind l1 line with
  | none => l1
  | some old => if bytes.any (·.pois) then smDel l1 line else smPut l1 line (bytes.foldl (fun l b => l.set b.off b.val) old)

/-- Hand one line to the core's outbound write path (R42): it counts in CNT.ST until it is acknowledged. A line
of the core's own memories is written at once, after an earlier line there of another path; a `g:` line is performed at
its home when it is acknowledged. -/
def State.handOn (s : State) (gid : Nat) (b : BufLine) : State :=
  match s.group? gid with
  | none => s
  | some g =>
    let n := g.core
    match b.space with
    | .g =>
      let c := s.core n
      let c := { c with l1 := l1Store c.l1 b.line b.bytes, outbound := c.outbound ++ [⟨gid, .g, b.line, b.vline, b.bytes, [], false⟩] }
      (s.setCore n c).setGroup gid { g with cntSt := g.cntSt + 1 }
    | sp =>
      let s := s.drainLines n fun o => onLinesOf sp [b.line] o && o.bytes.any fun x => b.bytes.any (·.path != x.path)
      let c := s.core n
      let old := b.bytes.map fun x => (bankByte (c.bank sp) (128 * b.line + x.off), bankPoison (c.bank sp) (128 * b.line + x.off))
      let c := { c.setBank sp (bankWrite (c.bank sp) (lineBytes b.line b.bytes)) with
                 outbound := c.outbound ++ [⟨gid, sp, b.line, b.vline, b.bytes, old, false⟩] }
      (s.setCore n c).modGroup gid fun g => { g with cntSt := g.cntSt + 1 }

/-- A line holds a byte that waits for a DRAIN's data (R272). -/
def BufLine.waits (b : BufLine) : Bool := b.bytes.any (·.wait.isSome)

/-- Hand on the buffered lines in the order of their allocation while CNT.ST is below 63 (R42, R375). A line
that waits for a DRAIN's data is set aside until the data arrives (R272). -/
def handLines (n : Nat) (s : State) (gid : Nat) : State :=
  match n with
  | 0 => s
  | n + 1 =>
    match s.group? gid with
    | none => s
    | some g =>
      match g.buf with
      | [] => s
      | b :: rest =>
        if b.bytes.isEmpty then handLines n (s.setGroup gid { g with buf := rest }) gid
        else if b.waits || hasLine g.late b.space b.line then
          handLines n (s.setGroup gid { g with buf := rest, late := g.late ++ [b] }) gid
        else if 63 ≤ g.cntSt then s
        else handLines n ((s.setGroup gid { g with buf := rest }).handOn gid b) gid

/-- The first line of a closed region that can be handed on: it waits no more, and no earlier one of its place stands before
it (R272). -/
def Group.lateReady (g : Group) : Option (BufLine × Nat) :=
  g.late.zipIdx.find? fun p => !p.1.waits && !(hasLine (g.late.take p.2) p.1.space p.1.line)

/-- The lines of closed regions that no longer wait are handed on, in order (R272). A full CNT.ST first has the group's own
lines acknowledged, where none of them must wait, and else they stay until there is room (R375, R234). -/
def handLate (n : Nat) (s : State) (gid : Nat) : State :=
  match n with
  | 0 => s
  | n + 1 => match s.group? gid with
    | none => s
    | some g => match g.lateReady with
      | none => s
      | some p =>
        if 63 ≤ g.cntSt && s.outHeld g.core (·.gid == gid) then s
        else
          let s := if 63 ≤ g.cntSt then s.drainLines g.core (·.gid == gid) else s
          let s := s.modGroup gid fun g => { g with late := g.late.eraseIdx p.2 }
          handLate n (s.handOn gid p.1) gid

/-- Fixed lines of a group that wait for a DRAIN's data hold bytes of some paths (R223, R272). -/
def Group.lateOn (g : Group) (mask : Nat) : Bool := g.late.any fun b => b.bytes.any fun x => mask.testBit x.path

/-- A group that has just closed its region: tracking, replay mask and re-entry counter cleared, and the
control state recorded (R38, R42, R53). -/
def Group.closeRegion (g : Group) : Group :=
  { g with
    closed := true
    closing := false
    track := Track.clear
    pm := ⟨0, 0, 0, false⟩
    reentry := 0
    causes := []
    noEvict := false
    ldxCount := []
    regionNo := g.regionNo + 1
    entryQuads := g.quads
    entryRng := g.rng
    entryDepth := g.depth }

/-- Close a group's region (R42): hand on its lines, and when none is left clear what the region tracked. A
close with too many lines waits for acknowledgements (R375); its region, of which lines are fixed, is discarded no more. -/
def State.close (s : State) (gid : Nat) : State :=
  let s := handLines 65 s gid
  match s.group? gid with
  | none => s
  | some g =>
    if g.closed then s
    else if g.buf.isEmpty then s.setGroup gid g.closeRegion
    else s.setGroup gid { g with closing := true }

/-- A group has an open region, which a discard would empty (R49). -/
def Group.inRegion (g : Group) : Bool := !g.closed && !g.closing

/-- A region opens (R38): the control state is its re-entry state, random state and trap depth are copied
(R48), the re-entry counter is 0 (R53), and a pending RMR write takes effect (R65). -/
def Group.openRegion (g : Group) : Group :=
  { g with
    closed := false
    reentry := 0
    causes := []
    entryQuads := g.quads
    entryRng := g.rng
    entryDepth := g.depth
    ldxCount := []
    rmr := g.rmrPend.getD g.rmr
    rmrPend := none }

/-- When no live lane of a group is left, its open region closes as EXIT would close it and the group becomes
draining (R183, R393). A request for tenure of it waits no more (R323). -/
def State.endIfEmpty (s : State) (gid : Nat) : State :=
  match s.group? gid with
  | none => s
  | some g =>
    if g.live = 0 && g.status != .halted && g.status != .draining then
      let s := ({ s with tenureReqs := s.tenureReqs.filter fun (r : TenureReq) => r.gid != gid } : State).close gid
      match s.group? gid with
      | none => s
      | some g => s.setGroup gid { g with status := .draining, sleepers := [] }
    else s

/-- Splits of a group that are named elsewhere — chosen in this cycle, or let go first by a YIELD — keep their places when
lanes of theirs leave; a split of which nothing is left drops out (R20, R32, R188). -/
def State.relabelled (s : State) (gid : Nat) (g h : Group) (lanes : Mask) : State :=
  let issue := s.issue.filterMap fun r =>
    if r.gid = gid then (g.labelAfter h lanes r.split).map fun n => { r with split := n } else some r
  let yield (y : Nat × Nat) : Option (Nat × Nat) := if y.1 = gid then (g.labelAfter h lanes y.2).map fun n => (gid, n) else some y
  let age (a : SplitAge) : SplitAge := { a with yields := a.yields.filterMap yield }
  { s with issue := issue
           groups := if s.groups.all fun kv => kv.2.ages.all (·.yields.isEmpty) then s.groups
             else smMap (fun _ k => { k with ages := k.ages.map age }) s.groups }

/-- A group some of whose lanes have left, with the BKPTs it stands at under their splits' new labels (R190). -/
def Group.bkptAfter (g h : Group) (lanes : Mask) : Group :=
  match h.status with
  | .bkpt l => { h with status := .bkpt (l.filterMap (g.labelAfter h lanes)) }
  | _ => h

/-- Lanes die: they leave the group's state and control state (R122, R393). -/
def State.loseLanes (s : State) (gid : Nat) (lanes : Mask) : State :=
  match s.group? gid with
  | none => s
  | some g =>
    let h := g.killLanes lanes
    ((s.setGroup gid (g.bkptAfter h lanes)).relabelled gid g h lanes).endIfEmpty gid

/-- Active lanes consume an uncorrectable error and die (R122); the core counts them (R381). While other splits of the group
that were chosen in the same cycle have still to issue, for which the lanes are alive, the death waits. -/
def State.killLanes (s : State) (gid : Nat) (lanes : Mask) : State :=
  if lanes = 0 then s
  else match s.group? gid with
    | none => s
    | some g =>
      let n := (lanesOf (lanes &&& g.live &&& ~~~g.dying)).length
      let c := s.core g.core
      let s := s.setCore g.core { c with eunc := BitVec.ofNat 32 (min (c.eunc.toNat + n) 0xFFFFFFFF) }
      if g.snap.isSome && s.issue.any (·.gid == gid) then s.setGroup gid { g with dying := g.dying ||| (lanes &&& g.live) }
      else (s.setGroup gid { g with dying := 0 }).loseLanes gid (lanes ||| g.dying)

/-- Lanes whose death has waited for the other splits of a cycle die (R122). -/
def State.settleDying (s : State) (gid : Nat) : State :=
  match s.group? gid with
  | none => s
  | some g => if g.dying = 0 then s else (s.setGroup gid { g with dying := 0 }).loseLanes gid g.dying

/-! ## Discard and re-entry (R49, R50, R53) -/

/-- The group's tile operations posted in its open region that are not complete (R50). -/
def State.openOps (s : State) (gid : Nat) : List TileOp :=
  match s.group? gid with
  | none => []
  | some g =>
    (s.matrixEng (engineOfCore g.core)).pending.filter fun o => o.gid == gid && o.regionNo == g.regionNo

/-- Withdraw the group's ungranted requests of its open region; they count as complete with no effect (R280). A CZERO is no
request (R271): it is performed once nothing stands before it. -/
def State.withdraw (s : State) (gid : Nat) : State :=
  match s.group? gid with
  | none => s
  | some g =>
    let n := engineOfCore g.core
    let e := s.matrixEng n
    let out (o : TileOp) : Bool := o.gid == gid && o.regionNo == g.regionNo && g.inRegion
    let gone := e.requests.filter out
    let s := s.setMatrix n { e with requests := e.requests.filter (!out ·) }
    (s.setGroup gid { g with
      cntTl := g.cntTl - gone.length
      pending := g.pending.filter fun p => !(gone.any fun o => o.id == p.id) }).runClears n

/-- A region is to be discarded for a cause of R391 (1 translation, 2 detected error, 3 pre-emption): issue
stops and ungranted requests of the region are withdrawn (R50, R280). -/
def State.startDiscard (s : State) (gid cause : Nat) : State :=
  let s := s.withdraw gid
  match s.group? gid with
  | none => s
  | some g => s.setGroup gid { g with status := .discarding cause }

/-- The answers that came for a group before it acted on their records are forgotten. -/
def State.dropEarly (s : State) (c gid : Nat) : State :=
  let x := s.ctx c
  if x.early.any (·.gid == gid) then s.setCtx c { x with early := x.early.filter (·.gid != gid) } else s

/-- An instruction's or a boundary's lanes fault in translation (R49, R432): the group waits on their records,
given in lane order as SEQ and the address of the record's lowest lane, and the region is discarded. -/
def State.translationFault (s : State) (gid : Nat) (recs : List (Nat × Nat)) (pc : BitVec 57) (act : Mask) : State :=
  match s.group? gid with
  | none => s
  | some g =>
    let answer (seq : Nat) : Option Bool :=
      ((s.ctx g.ctx).early.find? fun e => e.gid == gid && e.seq == seq).map fun e => e.retry
    let keep := recs.foldl (fun l r => if l.any (fun x => x.1 == r.1) then l else l ++ [(r.1, r.2, answer r.1)])
      ([] : List (Nat × Nat × Option Bool))
    let s := s.dropEarly g.ctx gid
    (s.setGroup gid { g with faultRecs := keep, faultPc := pc, faultLanes := act }).startDiscard gid 1

/-- The causes of the last 15 discards, two bits each from bit 0 for the oldest (R391). -/
def causeBits (l : List Nat) : Nat :=
  ((l.drop (l.length - 15)).foldr (fun c n => c + 4 * n) 0)

/-- Steps 2 to 5 of a discard (R50): buffer emptied, reservation lost, random state and trap depth restored,
tracking cleared, re-entry counter raised, control state restored, splits no longer sleeping. A recoverable
discard that finds the counter at 15 is the fatal re-entry limit (R53); the replay mask is kept. -/
def State.discard (s : State) (gid cause : Nat) : State :=
  match s.group? gid with
  | none => s
  | some g =>
    let s := s.dropEarly g.ctx gid
    let s := { s with reservations := s.reservations.filter (·.gid != gid)
                      tenureReqs := s.tenureReqs.filter (·.gid != gid) }
    let causes := g.causes ++ [cause]
    let quads := (({ g with quads := g.entryQuads } : Group).dropLanes (~~~g.live)).quads
    let g1 : Group := { g with
      buf := []
      rng := g.entryRng
      depth := g.entryDepth
      track := Track.clear
      quads := quads
      sleepers := []
      ages := []
      ldxCount := []
      rmrPend := if g.closed then g.rmrPend else none
      regionNo := g.regionNo + 1 }
    if g.reentry = 15 && cause ≠ 3 then
      (s.setGroup gid g1).raiseFault gid 0x0C (BitVec.ofNat 64 (maxPc (quadPcs quads)).toNat)
        (BitVec.ofNat 64 (causeBits causes)) g1.live (minPc (quadPcs quads))
    else
      let c := s.core g.core
      let s := if cause = 2 then
        s.setCore g.core { c with erec := BitVec.ofNat 32 (min (c.erec.toNat + 1) 0xFFFFFFFF) } else s
      s.setGroup gid { g1 with
        reentry := min (g.reentry + 1) 15
        causes := causes
        status := if g.faultRecs.isEmpty then .running else .faultWait }

/-- The open region of a group that is parked for a system call, in which nothing has issued, is discarded (R49, R185): the group
stays parked. -/
def State.discardParked (s : State) (gid cause : Nat) : State :=
  match s.group? gid with
  | none => s
  | some g => (s.discard gid cause).modGroup gid fun h => if h.status = .halted then h else { h with status := g.status }

/-- The group's recoverable translation wait is over when every record has its answer (R432): re-entry on
Retry, and the fatal protection fault of the lowest denied lane on a Deny. -/
def State.resolveFaults (s : State) (gid : Nat) : State :=
  match s.group? gid with
  | none => s
  | some g =>
    if g.status = .faultWait && g.faultRecs.all (·.2.2.isSome) then
      match g.faultRecs.find? (fun r => r.2.2 == some false) with
      | some r => s.raiseFault gid 0x06 (BitVec.ofNat 64 r.2.1) 7 g.faultLanes g.faultPc
      | none => s.setGroup gid { g with status := .running, faultRecs := [] }
    else s

end Sys2Proof.Machine
end

