-- ==== Sys2Proof/Machine/Issue.lean ====
section
/-!
DEFINITION. The issue of one instruction by one split: the lanes that are active (R19), the checks of R103
and R46, the scoreboard (R117), the commit of an instruction's effects, and the frame of a boundary
instruction (R24, R38, R40, R42).
-/

namespace Sys2Proof.Machine

/-- The outcomes of this machine. -/
abbrev Out := Host.Outcome State Fault Refusal

/-- An event that the agenda asks for and that does not come about in this state, or has to wait in it: nothing changes. -/
abbrev noEvent (s : State) : Out := .next s

/-- What a meaning reads of the issue: the state, the issuing split, its group, and the active lanes. -/
structure IC where
  s : State
  cu : Issuing
  g : Group
  act : Mask
  deriving DecidableEq, Repr

/-- The issuing split with a guard's active lanes: live, running, and set in the guard (R19). -/
def State.ic (s : State) (gd : Guard) : Option IC :=
  match s.cur with
  | none => none
  | some cu => match s.group? cu.gid with
    | none => none
    | some g => some ⟨s, cu, g, cu.lanes &&& g.live &&& g.guardMask gd⟩

/-- The device core, die, cluster of the issuing group. -/
def IC.core (x : IC) : Nat := x.g.core
def IC.dieNo (x : IC) : Nat := dieOfCore x.g.core

/-- A program fault of this issue (R112): the instruction makes no other change. -/
def IC.fault (x : IC) (kind d0 d1 : Nat) : Out :=
  .next (x.s.raiseFault x.cu.gid kind (BitVec.ofNat 64 d0) (BitVec.ofNat 64 d1) x.act x.cu.pc)

/-- The instruction is not ready: nothing has issued (R32, R117). -/
def IC.stall (x : IC) : Out := .next x.s

/-- The address of the next instruction (R20). -/
def IC.nextPc (x : IC) : BitVec 57 := x.cu.pc + BitVec.ofNat 57 x.cu.len

/-- The checks that every instruction makes before its own (R103, R117, R46): the fault or stall that ends
the issue, or the group with its tracking brought up to date. -/
inductive Prep where
  | stop (o : Out)
  | go (g : Group)
  deriving Repr

/-- Every check that comes before an instruction's own passes: its registers are within the allotment (R103), none of
them has a write pending (R117), and it writes no live-in of its region (R46). -/
def IC.ready (x : IC) (f : Foot) : Prop :=
  f.outOfBounds x.g.allot = none ∧ x.g.busy f = false ∧ (x.g.track.reads f x.act).firstIllegal f x.act = none

/-- The issuing group with its tracking brought up to date (R46). -/
def IC.tracked (x : IC) (f : Foot) : Group :=
  { x.g with track := (x.g.track.reads f x.act).writes f x.act x.g.live }

/-- Register bounds, then scoreboard, then region legality. `legal` is false for a boundary, whose reads
belong to the region that it closes and whose results belong to none (R41). An instruction whose destination field names P7 marks
nothing (DEDUCED, log entry 92). -/
def IC.prepare (x : IC) (f : Foot) (legal : Bool) : Prep :=
  match f.outOfBounds x.g.allot with
  | some r => .stop (x.fault 0x02 r x.g.allot)
  | none =>
    if x.g.busy f then .stop x.stall
    else if !legal then .go x.g
    else
      let t := x.g.track.reads f x.act
      match t.firstIllegal f x.act with
      | some e => .stop (x.fault 0x04 e.d0 e.d1)
      | none => .go (x.tracked f)

/-- The checks of a pair word, which is one instruction to them (R107): both halves' reads come before both
halves' writes. `y` has the second half's active lanes. -/
def IC.preparePair (x y : IC) (f h : Foot) : Prep :=
  match (f.both h).outOfBounds x.g.allot with
  | some r => .stop (x.fault 0x02 r x.g.allot)
  | none =>
    if x.g.busy (f.both h) then .stop x.stall
    else
      let t := (x.g.track.reads f x.act).reads h y.act
      match t.firstIllegal f x.act <|> t.firstIllegal h y.act with
      | some e => .stop (x.fault 0x04 e.d0 e.d1)
      | none => .go { x.g with track := (t.writes f x.act x.g.live).writes h y.act x.g.live }

/-- The effects of an instruction on its group's registers: V registers with a value for each lane, written
for the active lanes; S, X and K registers; predicates with the lanes they are written in; flags raised in
the GSR; random state of the active lanes; lanes that die beside those that read a poisoned register. -/
structure Eff where
  v : List (Nat × List W32) := []
  s : List (Nat × W64) := []
  x : List (Nat × BitVec 8) := []
  p : List (Nat × Mask × Mask) := []
  k : List (Nat × KReg) := []
  gsr : W32 := 0
  rng : Option (List W32) := none
  die : Mask := 0
  deriving DecidableEq, Repr

/-- Put an instruction's effects into its group, for these active lanes (R107, R117, R121). -/
def Group.commit (g : Group) (act : Mask) (e : Eff) : Group :=
  let m := act &&& ~~~e.die
  { g with
    v := e.v.foldl (fun v w => vWrite v w.1 m w.2) g.v
    vpoison := e.v.foldl (fun p w => vClean p w.1 m) g.vpoison
    s := e.s.foldl (fun l w => setAt 0 l w.1 w.2) g.s
    x := e.x.foldl (fun l w => setAt 0 l w.1 w.2) g.x
    p := e.p.foldl (fun p w => pWrite p w.1 (w.2.1 &&& ~~~e.die) w.2.2) g.p
    k := e.k.foldl (fun l w => setAt ⟨0, 0, 0⟩ l w.1 w.2) g.k
    gsr := g.gsr ||| e.gsr
    rng := match e.rng with
      | none => g.rng
      | some r => lanes64 fun l => if inMask m l then r.getD l 0 else g.rng.getD l 0 }

/-- An instruction's effects with these further lanes dying: a lane that dies is written nothing, and raises no flag
(R122). -/
def IC.dying (x : IC) (eff : IC → Ops → Eff) (o : Ops) (lanes : Mask) : Eff :=
  let e := eff x o
  let die := e.die ||| lanes
  { e with die := die, gsr := if die = 0 then e.gsr else (eff { x with act := x.act &&& ~~~die } o).gsr }

/-- The effects of an instruction whose active lanes die where they read a poisoned register of its footprint (R122). -/
def IC.effects (x : IC) (eff : IC → Ops → Eff) (o : Ops) (f : Foot) : Eff :=
  x.dying eff o (x.g.poisonedLanes f.rv x.act)

/-- The split has issued a plain instruction: its lanes go on, each to its next PC (R20), and it is ready again
no earlier than the next cycle (R32). -/
def Group.stepOver (g : Group) (cu : Issuing) (next : Nat → BitVec 57) : Group :=
  let g := { g with ages := g.ages.filter (·.split != cu.split) }
  g.goOn cu.split next

/-- A split that has issued no longer holds back those that yielded to it (R188). -/
def State.releaseYields (s : State) (core gid split : Nat) : State :=
  if s.groups.all fun kv => kv.2.ages.all (·.yields.isEmpty) then s
  else { s with groups := smMap (fun _ g => if g.core = core then
      { g with ages := g.ages.map fun a => { a with yields := a.yields.filter (· != (gid, split)) } } else g) s.groups }

/-- The end of the issue of a plain instruction whose group is now `g`: registers written, each lane gone on
to its next PC, lanes that consumed an error dead (R122). -/
def IC.retireTo (x : IC) (g : Group) (die : Mask) (next : Nat → BitVec 57) : Out :=
  let s := x.s.setGroup x.cu.gid (g.stepOver x.cu next)
  .next ((s.releaseYields x.g.core x.cu.gid x.cu.split).killLanes x.cu.gid die)

/-- The same, with every lane gone on to the next instruction. -/
def IC.retire (x : IC) (g : Group) (die : Mask) : Out := x.retireTo g die fun _ => x.nextPc

/-- The issue of an instruction with effects of its own beyond registers: after the checks that every
instruction makes, `act` ends it, with the group whose tracking is up to date and the registers used. -/
def issueFoot (foot : IC → Foot) (act : IC → Ops → Foot → Group → Out) (o : Ops) (s : State) : Out :=
  match s.ic o.g with
  | none => .fault .noIssuingSplit
  | some x =>
    let f := foot x
    match x.prepare f true with
    | .stop r => r
    | .go g => act x o f g

/-- The same, for an instruction whose footprint its word alone gives. -/
def issueWith (op : Op) (len : Len) (act : IC → Ops → Foot → Group → Out) (o : Ops) (s : State) : Out :=
  issueFoot (fun x => x.g.foot op len o) act o s

/-- The issue of an instruction that only computes over registers: its effects are read from the state before
it, committed for the active lanes, and the split goes on. -/
def issueAlu (op : Op) (len : Len) (eff : IC → Ops → Eff) (o : Ops) (s : State) : Out :=
  match s.ic o.g with
  | none => .fault .noIssuingSplit
  | some x =>
    let f := x.g.foot op len o
    match x.prepare f true with
    | .stop r => r
    | .go g =>
      let e := x.effects eff o f
      x.retire (g.commit x.act e) e.die

/-! ## Boundary instructions -/

/-- A boundary's effect, made between two regions, ends in one of these. -/
inductive Act where
  /-- It has acted: the state, and the next PC of each lane that passes it. -/
  | passed (s : State) (next : Nat → BitVec 57)
  /-- It waits at the boundary and has not acted (R40, R185, R310). -/
  | wait (s : State)
  /-- It has acted and waits to be woken; the region opens then (R329, R353, R386). -/
  | held (s : State)
  /-- It stopped with a fault or on a translation (R40). -/
  | stop (s : State)

/-- The lanes that issued a boundary pass it, and the next region opens (R24, R38). A group left without live
lanes opens none and drains (R183). A boundary that has issued holds back none that yielded to it (R188). -/
def State.passAndOpen (s : State) (gid : Nat) (pc : BitVec 57) (next : Nat → BitVec 57) : State :=
  match s.group? gid with
  | none => s
  | some g =>
    let core := g.core
    let g : Group := { g.passBoundary pc next with ages := [] }
    let s := if g.live = 0 then s.setGroup gid { g with status := .draining, sleepers := [] }
      else s.setGroup gid g.openRegion
    s.releaseYields core gid 16

/-- The boundary instructions (R24, R40). -/
def boundaryOp (op : Op) : Bool :=
  match op with
  | .region | .exit | .trap | .spawn | .atom | .sc | .bar | .cpy | .cpyg | .cpyv | .thnew | .thacq | .threl | .thsplit
  | .thfree | .seam | .unpick | .wake | .settle | .pbar | .stepc | .sqopen | .sqsig | .sqclose => true
  | _ => false

/-- The boundary instructions of load kind, which are not ready while CNT.LD stands at 63 (R373, R374). -/
def ldBoundary (op : Op) : Bool := op == .atom || op == .sc

/-- A split that has reached a boundary waits there, and its quads resume (R24). It takes no issue slot (R32). -/
def IC.reached (x : IC) : State :=
  let g := { x.g.arrive x.cu.split x.cu.pc with ages := x.g.ages.filter (·.split != x.cu.split) }
  (x.s.setGroup x.cu.gid g).releaseYields x.g.core x.cu.gid x.cu.split

/-- The issue of a boundary instruction. A split that reaches it waits there until every live lane waits at a
boundary; the lanes at the lowest such PC then issue it as one (R24). The region before it closes, the
instruction acts, and the next region opens (R38, R42). -/
def issueBoundary (op : Op) (len : Len) (act : IC → Ops → Act) (o : Ops) (s : State) : Out :=
  match s.ic o.g with
  | none => .fault .noIssuingSplit
  | some x =>
    if !x.cu.fused then .next x.reached
    else match x.prepare (x.g.foot op len o) false with
      | .stop r => r
      | .go _ => if ldBoundary op && 63 ≤ x.g.cntLd then x.stall else
        let s1 := x.s.close x.cu.gid
        match s1.group? x.cu.gid with
        | none => .next s1
        | some g1 =>
          if !g1.closed then .next s1
          else
            let die := x.g.poisonedLanes (x.g.foot op len o).rv x.act
            match act { x with s := s1, g := g1, act := x.act &&& ~~~die } o with
            | .passed s2 next => .next ((s2.killLanes x.cu.gid die).passAndOpen x.cu.gid x.cu.pc next)
            | .wait s2 => .next s2
            | .held s2 => .next (s2.killLanes x.cu.gid die)
            | .stop s2 => .next s2

/-- A program fault found by a boundary after its close (R40). -/
def IC.actFault (x : IC) (kind d0 d1 : Nat) : Act :=
  .stop (x.s.raiseFault x.cu.gid kind (BitVec.ofNat 64 d0) (BitVec.ofNat 64 d1) x.act x.cu.pc)

/-- A boundary that has acted with every lane going on to the next instruction. -/
def IC.pass (x : IC) (s : State) : Act := .passed s fun _ => x.nextPc

end Sys2Proof.Machine
end

