-- ==== Sys2Proof/Machine/Fetch.lean ====
section
/-!
DEFINITION. A group as placement makes it (R38, R114, R124), and the fetch of the instruction that a chosen
split issues (R110 to R113).
-/

namespace Sys2Proof.Machine

/-- A group at placement: every register at the reset of R114, S0 the argument (R116), the first region open
with every live lane at the entry (R38). -/
def Group.start (ctx grid team teamId gnum role queue : Nat) (world : Option Nat) (core slot allot placedAt : Nat)
    (arg : W64) (launched : Mask) (entry : BitVec 57) : Group :=
  { ctx := ctx, grid := grid, team := team, teamId := teamId, gnum := gnum, role := role, queue := queue,
    world := world, core := core, slot := slot, allot := allot, regBase := 0, placedAt := placedAt, evicted := false,
    evicting := false, noEvict := false, acquire := false, v := List.replicate allot (List.replicate 64 0), vpoison := [],
    s := arg :: List.replicate 63 0, x := List.replicate 4 0, p := List.replicate 7 0,
    k := List.replicate 16 ⟨0, 0, 0⟩, rmr := 0, rmrPend := none, gsr := 0, launched := launched, exited := 0,
    dead := 0, dying := 0, pm := ⟨0, 0, 0, false⟩, frames := List.replicate 4 ⟨0, 0, 0⟩, depth := 0,
    rng := lanes64 fun l => 0x6D2B79F5#32 ^^^ BitVec.ofNat 32 l, quads := startQuads entry launched, ages := [],
    sleepers := [], status := .running, closed := false, closing := false, regionNo := 0, reentry := 0, again := false, causes := [],
    entryQuads := startQuads entry launched, entryRng := lanes64 fun l => 0x6D2B79F5#32 ^^^ BitVec.ofNat 32 l,
    entryDepth := 0, ldxCount := [], buf := [], late := [], track := Track.clear, faultRecs := [], faultPc := 0,
    faultLanes := 0, cntLd := 0, cntSt := 0, cntTl := 0, pending := [], latest := 0, pend := 0, batches := [],
    copiesLeft := 0, cpyvRegs := [], lrCount := 64, arrived := [], snap := none, panelAt := none, moved := [] }

/-- The mask of the first `n` lanes. -/
def firstLanes (n : Nat) : Mask := BitVec.ofNat 64 (2 ^ n - 1)

/-- The issuing split of a reference, where it may issue: its group runs, or has stopped at a BKPT of this very cycle
(R197), and the split exists, does not sleep and does not stand at such a BKPT; label 16 is the fused boundary
(R24, R32). -/
def State.refIssuing (s : State) (r : IssueRef) : Option Issuing :=
  match s.group? r.gid with
  | none => none
  | some g =>
    if !(g.status == .running || g.status matches .bkpt _) || g.evicted || g.evicting || g.bkptSplits.contains r.split then none
    else if r.split = 16 then
      match g.fused? with
      | some (pc, lanes) => some ⟨r.gid, 16, pc, lanes, true, 0⟩
      | none => none
    else if (g.splitQuads r.split).isEmpty || g.sleepers.any (·.split == r.split) then none
    else some ⟨r.gid, r.split, g.splitPc r.split, g.splitLanes r.split, false, 0⟩

/-- What a fetch finds: nothing to issue, a translation still to be made, bytes of which one is poisoned, or an instruction of a
split. -/
inductive Fetched where
  | nothing
  | miss (gid : Nat) (pc : BitVec 57)
  | poisoned (cu : Issuing)
  | got (i : Instr) (cu : Issuing)
  deriving DecidableEq, Repr

/-- The bytes at an address as a fetch of a group of a grid finds them. Each may be any value that it has held since the grid was
launched, where it has changed since (R113): which, is FREE (log entry 27). No instruction cache is told apart from this: what one
held from before the launch is invalidated as the grid's first group is placed. -/
def State.codeBytes (s : State) (grid pa n : Nat) : List (Byte × Bool) :=
  if s.past.isEmpty then s.memRead pa n
  else (s.memRead pa n).zipIdx.map fun p =>
    let old := ((smGet [] s.past (pa + p.2)).filter (grid < ·.2)).map (·.1)
    (old.getD (Config.freePick (s.fresh + p.2) % (old.length + 1)) p.1.1, p.1.2)

/-- The free values that such a fetch has drawn. -/
def State.codeDraws (s : State) : Nat := if s.past.isEmpty then 0 else 16

/-- Fetch and decode the instruction at a split's PC (R110, R111). An instruction must lie in the 32-byte block
of its first parcel; what is no instruction issues as an illegal one. -/
def State.fetch (s : State) (r : IssueRef) : Fetched :=
  match s.refIssuing r with
  | none => .nothing
  | some cu =>
    let g := (s.group? r.gid)
    match g with
    | none => .nothing
    | some g =>
      let va := cu.pc.toNat
      let rq : Req := { g.req r.gid .fetch false with who := .fetch r.gid cu.pc }
      match s.translate rq va with
      | .ok pa =>
        let bytes := s.codeBytes g.grid pa (min 16 (32 - va % 32))
        let w := leNat (bytes.map (·.1))
        let len := lenBytes (w % 4)
        if !(s.misKeyed rq [va]).isEmpty then .miss r.gid cu.pc
        else if (bytes.take (if (bytes.take 1).any (·.2) then 1 else len)).any (·.2) then .poisoned cu
        else if va % 4 ≠ 0 || 32 < va % 32 + len then .got (.illegalInstruction (.boundary (va % 32) len)) { cu with len := len }
        else match decodeWord w with
          | some i => .got i { cu with len := len }
          | none => .got (.illegalInstruction (.illegal (BitVec.ofNat 32 w) (BitVec.ofNat 32 (w >>> 32)))) { cu with len := len }
      | .recorded _ => .nothing
      | _ => .miss r.gid cu.pc

/-- A split's fetch finds a poisoned byte, which is not read as a value (R392). DESIGN CHOICE (log entry 13): the lanes that
would have run the instruction die, as lanes that read poison do (R122, R244). -/
def State.fetchPoison (s : State) (cu : Issuing) : State :=
  let s := s.modGroup cu.gid fun g => { g with ages := g.ages.filter (·.split != cu.split) }
  s.killLanes cu.gid cu.lanes

/-- ILLEGAL_INSTRUCTION (R110, R111): the issue of what is no instruction is a fatal program fault, and makes
no other change. -/
def execIllegalInstruction (k : IllKind) (s : State) : Out :=
  match s.ic Guard.none with
  | none => .fault .noIssuingSplit
  | some x => match k with
    | .illegal p0 p1 => x.fault 0x01 p0.toNat p1.toNat
    | .boundary pcMod len => x.fault 0x03 pcMod len

/-- INSTRUCTION_FETCH_MISS (R112): the split does not become ready; a walk is made for its page, or a record
posted where a held leaf denies the fetch (R214). -/
def execInstructionFetchMiss (gid pc : Nat) (s : State) : Out :=
  match s.group? gid with
  | none => noEvent s
  | some g =>
    let rq : Req := { g.req gid .fetch false with who := .fetch gid (BitVec.ofNat 57 pc) }
    .next (s.seekAll rq [pc])

/-- An instruction is a boundary (R24). -/
def isBoundary (i : Instr) : Bool :=
  match i.word? with
  | some (op, _, _) => boundaryOp op
  | none => false

/-- Where the model places the code that withFetchWord stores: a virtual and physical page of die 0. -/
def fetchPage : Nat := 0x10000

/-- A state in which the next step fetches and issues the given instruction: context 0 enabled, one group of 64
lanes on core 0 at the start of a page that core 0's TLB maps for fetch, load and store. Before a boundary all 64 lanes
wait, as they do when it issues (R24). -/
def State.placeWord (s : State) (w : Nat) : State :=
  let atEnd := match decodeWord w with
    | some i => isBoundary i
    | none => false
  let g0 := Group.start 0 0 0 0 0 0 0 none 0 0 256 0 0 (firstLanes 64) (BitVec.ofNat 57 fetchPage)
  let g := if atEnd then g0.arrive 0 (BitVec.ofNat 57 fetchPage) else g0
  let e : TlbEntry := ⟨0, fetchPage, 12, fetchPage, true, true, 0⟩
  let s := { s with mem := bankWrite s.mem (wbytes fetchPage (leBytes 16 w)) }
  let s := s.setCore 0 { s.core 0 with tlb := [e] }
  let s := s.setCtx 0 { s.ctx 0 with state := .enabled, records := [] }
  { s.setGroup 0 g with issue := [⟨0, if atEnd then 16 else 0⟩] }

end Sys2Proof.Machine
end

