-- ==== Sys2Proof/Machine/Barriers.lean ====
section
/-!
DEFINITION. Named barriers (R379, R380, R386): expected counts, arrivals, the completion of a phase and the
waking of the groups that wait on it.
-/

namespace Sys2Proof.Machine

/-- A barrier at reset (R379). -/
def Barrier.reset : Barrier := ⟨0, 0xF, 0, 0⟩

def Team.barrier (t : Team) (b : Nat) : Barrier := t.barriers.getD b Barrier.reset

/-- A role is in MASK; a MASK of 0 reads as 0xF (R379). -/
def Barrier.hasRole (b : Barrier) (role : Nat) : Bool := b.mask == 0 || b.mask.getLsbD role

/-- The role of a group number: role 0's groups come first (R18). -/
def Shape.roleOf (groups : List Nat) (g : Nat) : Nat :=
  match groups with
  | [] => 0
  | n :: rest => if g < n then 0 else 1 + Shape.roleOf rest (g - n)

/-- The groups of a shape. -/
def Shape.total (sh : Shape) : Nat := sh.groups.foldl (· + ·) 0

/-- The expected count E (R380). -/
def Team.expected (t : Team) (b : Barrier) : Nat :=
  if b.cnt = 0 then ((t.shape.groups.zipIdx.filter fun p => b.hasRole p.2).map (·.1)).foldl (· + ·) 0
  else b.cnt.toNat

/-- Where ARR starts in a phase (R380): in automatic mode, at the groups of MASK roles that have executed
their last EXIT. -/
def Team.startArr (t : Team) (b : Barrier) : Nat :=
  if b.cnt = 0 then (t.exited.filter fun g => b.hasRole (Shape.roleOf t.shape.groups g)).length else 0

/-- A barrier after an event: a phase whose arrivals suffice completes, once (R380). -/
def Team.settle (t : Team) (b : Barrier) : Barrier × Bool :=
  if t.expected b ≤ b.arr then ({ b with phase := b.phase + 1, arr := t.startArr b }, true) else (b, false)

/-- A group that waits on a barrier wakes: its phase read is written, its lanes pass the BAR and the next
region opens (R386). -/
def State.wakeBarrier (s : State) (gid : Nat) (phase : BitVec 16) : State :=
  match s.group? gid with
  | none => s
  | some g => match g.status with
    | .atBarrier _ _ rd _ pc =>
      let g := match rd with
        | some n => g.wrS n (phase.setWidth 64)
        | none => g
      (s.setGroup gid { g with status := .running }).passAndOpen gid pc fun _ => pc + 8
    | _ => s

/-- Put a barrier's state back. When its phase has completed, no group of the team has arrived in the next one, and every group
that waits on it wakes (R380). -/
def State.putBarrier (s : State) (team n : Nat) (b : Barrier) : State :=
  match s.team? team with
  | none => s
  | some t =>
    let r := t.settle b
    let s := s.setTeam team { t with barriers := t.barriers.set n r.1 }
    if r.2 then
      let s : State := { s with groups := smMap (fun _ g =>
        if g.team = team then { g with arrived := smDel g.arrived n } else g) s.groups }
      let waiting := s.groups.filter fun kv => kv.2.team == team && (match kv.2.status with
        | .atBarrier m _ _ _ _ => m == n
        | _ => false)
      waiting.foldl (fun s kv => s.wakeBarrier kv.1 r.1.phase) s
    else s

/-- The arrival of a group at a barrier (R380): it counts when its role is in MASK. -/
def State.arriveBarrier (s : State) (gid n : Nat) : State :=
  match s.group? gid with
  | none => s
  | some g => match s.team? g.team with
    | none => s
    | some t =>
      let b := t.barrier n
      if b.hasRole g.role then
        (s.setGroup gid { g with arrived := smSet 0 g.arrived n (b.phase.toNat + 1) }).putBarrier g.team n
          { b with arr := b.arr + 1 }
      else s

/-- The last EXIT of a group (R380): it counts as arrived at every automatic barrier of its role at which it
has not arrived in the phase. -/
def State.exitBarriers (s : State) (gid : Nat) : State :=
  match s.group? gid with
  | none => s
  | some g => match s.team? g.team with
    | none => s
    | some t =>
      let s := s.setTeam g.team { t with exited := t.exited ++ [g.gnum] }
      (List.range t.barriers.length).foldl (fun s n =>
        match s.team? g.team with
        | none => s
        | some t =>
          let b := t.barrier n
          if b.cnt = 0 && b.hasRole g.role && smGet 0 g.arrived n != b.phase.toNat + 1 then
            s.putBarrier g.team n { b with arr := b.arr + 1 }
          else s) s

end Sys2Proof.Machine
end

