-- ==== Sys2Proof/Machine/Values.lean ====
section
/-!
DEFINITION. How source values are formed and results placed (R128, R129, R131): lanes, scalars, immediates.
-/

namespace Sys2Proof

open Sys2Proof.Machine

/-- The type field of class 0 (R128). -/
def Ops.ty (o : Ops) : Nat := mfld o.m 58 57

/-- The type is 64 bits wide, and the type is signed (R128). -/
def Ops.wide (o : Ops) : Bool := 2 ≤ o.ty
def Ops.signed (o : Ops) : Bool := o.ty % 2 == 0

end Sys2Proof

namespace Sys2Proof.Machine

/-- The width W of a type (R128). -/
def widthOf (wide : Bool) : Nat := if wide then 64 else 32

/-- The value of a source in a lane, zero-extended to 64 bits (R129). -/
def IC.val (x : IC) (o : Opd) (wide : Bool) (l : Nat) : W64 :=
  match o with
  | .v f => if wide then x.g.rdPair (x.g.effV f) l else (x.g.rdV (x.g.effV f) l).setWidth 64
  | .s n => if wide then x.g.rdS n.toNat else ((x.g.rdS n.toNat).setWidth 32).setWidth 64
  | .x n => (x.g.rdX n.toNat).setWidth 64
  | _ => 0

/-- A 32-bit source in a lane. -/
def IC.val32 (x : IC) (o : Opd) (l : Nat) : W32 := (x.val o false l).setWidth 32

/-- IMM32 as a source (R129): a bit pattern of 32 bits; sign-extended under `.s64` alone. -/
def immVal (ty : Nat) (imm : W64) : W64 := if ty = 2 then (imm.setWidth 32).signExtend 64 else (imm.setWidth 32).setWidth 64

/-- B, or the IMM32 that stands in its place in a 96-bit form (R129). -/
def IC.valB (x : IC) (im : Bool) (o : Ops) (l : Nat) : W64 :=
  if im then immVal o.ty o.imm else x.val o.b o.wide l

/-- A 32-bit B, or IMM32. -/
def IC.valB32 (x : IC) (im : Bool) (o : Ops) (l : Nat) : W32 := if im then o.imm.setWidth 32 else x.val32 o.b l

/-- A value read per its type (R129). -/
def iv (wide signed : Bool) (v : W64) : Int :=
  if signed then (if wide then v.toInt else (v.setWidth 32).toInt) else ((if wide then v.toNat else v.toNat % 2 ^ 32 : Nat) : Int)

/-- A number kept within bounds. -/
def clampInt (lo hi t : Int) : Int := if t < lo then lo else if hi < t then hi else t

/-- A 32-bit result in an S register (R131): sign-extended or zero-extended. -/
def extS (signed : Bool) (v : W64) : W64 :=
  if signed then (v.setWidth 32).signExtend 64 else (v.setWidth 32).setWidth 64

/-- A result in the destination (R117, R131, R133): every lane of a V register or pair, one S register, or
the low 8 bits of an X register. -/
def IC.dest (x : IC) (o : Ops) (wide signed : Bool) (f : Nat → W64) : Eff :=
  match o.d with
  | .v fld =>
    let r := x.g.effV fld
    let vals := lanes64 f
    if wide then { v := [(r, vals.map (·.setWidth 32)), (r + 1, vals.map fun v => v.extractLsb' 32 32)] }
    else { v := [(r, vals.map (·.setWidth 32))] }
  | .s n => { s := [(n.toNat, if wide then f 0 else extS signed (f 0))] }
  | .x n => { x := [(n.toNat, (f 0).setWidth 8)] }
  | _ => {}

/-- A 32-bit result in every lane of a V destination. -/
def IC.dest32 (x : IC) (o : Ops) (f : Nat → W32) : Eff := { v := [(x.g.opV o.d, lanes64 f)] }

/-- A bit of each active lane in a predicate destination (R118). -/
def IC.destP (x : IC) (n : Nat) (f : Nat → Bool) : Eff := { p := [(n, x.act, maskOf f)] }

/-- Two effects as one. -/
def Eff.both (a b : Eff) : Eff :=
  { v := a.v ++ b.v, s := a.s ++ b.s, x := a.x ++ b.x, p := a.p ++ b.p, k := a.k ++ b.k, gsr := a.gsr ||| b.gsr,
    rng := a.rng <|> b.rng, die := a.die ||| b.die }

end Sys2Proof.Machine
end

