-- ==== Sys2Proof/Machine/IntOps.lean ====
section
/-!
DEFINITION. The integer, logic, bit-field and address instructions of class 0 (R128 to R147).
-/

namespace Sys2Proof.Machine

/-! ## What each computes on values -/

/-- The sum of R134 without limit, and its carry. -/
def addCarry (wide : Bool) (a b : W64) (ci : Bool) : W64 × Bool :=
  let t := a.toNat + b.toNat + ci.toNat
  (BitVec.ofNat 64 t, 2 ^ widthOf wide ≤ t)

/-- The difference of R134, and its borrow. -/
def subBorrow (a b : W64) (ci : Bool) : W64 × Bool :=
  (a - b - BitVec.ofNat 64 ci.toNat, decide (a.toNat < b.toNat + ci.toNat))

/-- The least and the greatest value of a type (R134). -/
def tyMin (wide signed : Bool) : Int := if signed then -(2 ^ (widthOf wide - 1) : Nat) else 0
def tyMax (wide signed : Bool) : Int :=
  if signed then (2 ^ (widthOf wide - 1) : Nat) - 1 else (2 ^ widthOf wide : Nat) - 1

/-- IADDS (R134). -/
def addSat (wide signed : Bool) (a b : W64) : W64 :=
  BitVec.ofInt 64 (clampInt (tyMin wide signed) (tyMax wide signed) (iv wide signed a + iv wide signed b))

/-- IMULH (R135): the upper half of the exact product. -/
def mulHigh (wide signed : Bool) (a b : W64) : W64 :=
  BitVec.ofInt 64 ((iv wide signed a * iv wide signed b) / (2 ^ widthOf wide : Nat))

/-- IMADW (R135). -/
def mulAddWide (signed : Bool) (a b c : W64) : W64 :=
  BitVec.ofInt 64 (iv false signed a * iv false signed b + c.toNat)

/-- IMIN and IMAX (R136). -/
def iminV (wide signed : Bool) (a b : W64) : W64 := if iv wide signed b < iv wide signed a then b else a
def imaxV (wide signed : Bool) (a b : W64) : W64 := if iv wide signed a < iv wide signed b then b else a

/-- A result of 2^(W−1) under `.sat` (R136). -/
def satTop (wide sat : Bool) (t : Int) : Int :=
  if sat && t == (2 ^ (widthOf wide - 1) : Nat) then t - 1 else t

/-- IABS and INEG (R136). -/
def iabsV (wide sat : Bool) (a : W64) : W64 := BitVec.ofInt 64 (satTop wide sat (iv wide true a).natAbs)
def inegV (wide signed sat : Bool) (a : W64) : W64 := BitVec.ofInt 64 (satTop wide sat (-(iv wide signed a)))

/-- The conditions of ICMP by their codes (R137). -/
def icmpV (wide signed : Bool) (cond : Nat) (a b : W64) : Bool :=
  let a := iv wide signed a
  let b := iv wide signed b
  match cond with
  | 0 => a == b
  | 1 => a != b
  | 2 => a < b
  | 3 => a ≤ b
  | 4 => b < a
  | _ => b ≤ a

/-- The shifts of R139; a count of W or more leaves zeros or copies of the sign. -/
def shlV (wide : Bool) (a : W64) (n : Nat) : W64 := if widthOf wide ≤ n then 0 else a <<< n
def shrV (wide : Bool) (a : W64) (n : Nat) : W64 := if widthOf wide ≤ n then 0 else a >>> n
def sarV (wide : Bool) (a : W64) (n : Nat) : W64 := BitVec.ofInt 64 (iv wide true a / (2 ^ min n 64 : Nat))
def rotlV (wide : Bool) (a : W64) (n : Nat) : W64 :=
  if wide then a.rotateLeft (n % 64) else ((a.setWidth 32).rotateLeft (n % 32)).setWidth 64

/-- The 64 bits of a value made bit by bit. -/
def bits64 (f : Nat → Bool) : W64 := maskOf f

/-- BMUX (R140): the nibble of the selector's bit gives the function of B and C. -/
def bmuxV (sel : Nat) (a b c : W64) : W64 :=
  bits64 fun i =>
    let n := if a.getLsbD i then sel % 16 else sel / 16
    n.testBit ((b.getLsbD i).toNat + 2 * (c.getLsbD i).toNat)

/-- The numbers of R141. -/
def popcV (w : Nat) (a : W64) : Nat := ((List.range w).filter a.getLsbD).length
def clzV (w : Nat) (a : W64) : Nat := (((List.range w).reverse).takeWhile fun i => !a.getLsbD i).length
def ctzV (w : Nat) (a : W64) : Nat := ((List.range w).takeWhile fun i => !a.getLsbD i).length
def brevV (w : Nat) (a : W64) : W64 := bits64 fun i => i < w && a.getLsbD (w - 1 - i)

/-- BFX (R142). -/
def bfxV (wide signed : Bool) (a : W64) (b : W32) : W64 :=
  let p := b.toNat % 256
  let m := min (b.toNat / 256 % 256) (widthOf wide)
  let f := (iv wide signed a / (2 ^ p : Nat)) % (2 ^ m : Nat)
  BitVec.ofInt 64 (if m = 0 then 0 else if signed && (2 ^ (m - 1) : Nat) ≤ f then f - (2 ^ m : Nat) else f)

/-- BFI (R142). -/
def bfiV (wide : Bool) (a : W64) (b : W32) (c : W64) : W64 :=
  let p := b.toNat % 256
  let m := min (b.toNat / 256 % 256) (widthOf wide)
  bits64 fun i => if p ≤ i && i < p + m && i < widthOf wide then a.getLsbD (i - p) else c.getLsbD i

/-- A byte of a word read as signed or unsigned. -/
def byteInt (uns : Bool) (v : W32) (k : Nat) : Int :=
  let b : Byte := v.extractLsb' (8 * k) 8
  if uns then b.toNat else b.toInt

/-- IDOT4 (R143). -/
def idot4V (ua ub sat : Bool) (a b c : W32) : W32 :=
  let t := (List.range 4).foldl (fun t k => t + byteInt ua a k * byteInt ub b k) c.toInt
  BitVec.ofInt 32 (if sat then clampInt (-(2 ^ 31 : Nat)) ((2 ^ 31 : Nat) - 1) t else t)

/-- LEA (R144). -/
def leaV (wide signed : Bool) (base idx : W64) (sh : Nat) : W64 :=
  base + (BitVec.ofInt 64 (iv wide signed idx)) <<< sh

/-! ## Bit streams (R145 to R147) -/

/-- A stream-state run of one lane (R145). -/
structure Stream where
  win : W64
  ref0 : W32
  ref1 : W32
  pos : Nat
  cnt : Nat
  deriving DecidableEq, Repr

/-- The five registers of a run. -/
def Stream.regs (t : Stream) : List W32 :=
  [t.win.setWidth 32, t.win.extractLsb' 32 32, t.ref0, t.ref1, BitVec.ofNat 32 (t.pos % 64 + 64 * t.cnt)]

/-- A run as a lane reads it; CNT 3 reads as 2 (R147). -/
def Group.stream (g : Group) (r l : Nat) : Stream :=
  let st := (g.rdV (r + 4) l).toNat
  ⟨g.rdPair r l, g.rdV (r + 2) l, g.rdV (r + 3) l, st % 64, min 2 (st / 64 % 4)⟩

/-- The next field of a stream and the state after it (R147). -/
def bsrStep (t : Stream) (w : Nat) : W32 × Stream :=
  if w < 1 || 32 < w then (0, t)
  else
    let field : W32 := BitVec.ofNat 32 ((t.win >>> t.pos).toNat % 2 ^ w)
    let pos := t.pos + w
    if 32 ≤ pos then
      let win := t.win >>> 32
      let refill : W32 := if t.cnt = 2 then t.ref0 else t.ref1
      if 0 < t.cnt then (field, { t with win := win ||| (refill.setWidth 64 <<< 32), pos := pos - 32, cnt := t.cnt - 1 })
      else (field, { t with win := win, pos := pos - 32 })
    else (field, { t with pos := pos })

/-- The five registers of a run written from each lane's state. -/
def runWrites (r : Nat) (f : Nat → Stream) : List (Nat × List W32) :=
  let ts := lanes64 fun l => (f l).regs
  (List.range 5).map fun i => (r + i, ts.map fun q => q.getD i 0)

/-! ## Effects -/

/-- The carry-out predicate, where CO enables it (R130, R134). -/
def IC.carryOut (x : IC) (o : Ops) (f : Nat → Bool) (e : Eff) : Eff :=
  if mbit o.m 55 then { e with p := e.p ++ [(mfld o.m 54 52, x.act, maskOf f)] } else e

/-- A result of A alone. -/
def IC.unary (x : IC) (o : Ops) (f : W64 → W64) : Eff :=
  x.dest o o.wide o.signed fun l => f (x.val o.a o.wide l)

/-- A result of A and B. -/
def IC.binary (x : IC) (im : Bool) (o : Ops) (f : W64 → W64 → W64) : Eff :=
  x.dest o o.wide o.signed fun l => f (x.val o.a o.wide l) (x.valB im o l)

/-- A result of A and a 32-bit B (R139, R142). -/
def IC.counted (x : IC) (im : Bool) (o : Ops) (f : W64 → W32 → W64) : Eff :=
  x.dest o o.wide o.signed fun l => f (x.val o.a o.wide l) (x.valB32 im o l)

def effMov (x : IC) (o : Ops) : Eff := x.unary o id
def effMovi (x : IC) (o : Ops) : Eff := x.dest o o.wide o.signed fun _ => immVal o.ty o.imm
def effMovw (x : IC) (o : Ops) : Eff := x.dest o true true fun _ => o.imm

def effIadd (im : Bool) (x : IC) (o : Ops) : Eff :=
  let f (l : Nat) := addCarry o.wide (x.val o.a o.wide l) (x.valB im o l) false
  x.carryOut o (fun l => (f l).2) (x.dest o o.wide o.signed fun l => (f l).1)

def effIsub (im : Bool) (x : IC) (o : Ops) : Eff :=
  let f (l : Nat) := subBorrow (x.val o.a o.wide l) (x.valB im o l) false
  x.carryOut o (fun l => (f l).2) (x.dest o o.wide o.signed fun l => (f l).1)

/-- The carry in of a lane (R134). -/
def IC.carryIn (x : IC) (o : Ops) (l : Nat) : Bool := inMask (x.g.pred (opNum o.c)) l

def effIaddc (im : Bool) (x : IC) (o : Ops) : Eff :=
  let f (l : Nat) := addCarry o.wide (x.val o.a o.wide l) (x.valB im o l) (x.carryIn o l)
  x.carryOut o (fun l => (f l).2) (x.dest o o.wide o.signed fun l => (f l).1)

def effIsubb (im : Bool) (x : IC) (o : Ops) : Eff :=
  let f (l : Nat) := subBorrow (x.val o.a o.wide l) (x.valB im o l) (x.carryIn o l)
  x.carryOut o (fun l => (f l).2) (x.dest o o.wide o.signed fun l => (f l).1)

def effIadds (im : Bool) (x : IC) (o : Ops) : Eff := x.binary im o (addSat o.wide o.signed)
def effImul (im : Bool) (x : IC) (o : Ops) : Eff := x.binary im o (· * ·)
def effImulh (im : Bool) (x : IC) (o : Ops) : Eff := x.binary im o (mulHigh o.wide o.signed)

def effImad (im : Bool) (x : IC) (o : Ops) : Eff :=
  x.dest o o.wide o.signed fun l => x.val o.a o.wide l * x.valB im o l + x.val o.c o.wide l

def effImadw (im : Bool) (x : IC) (o : Ops) : Eff :=
  x.dest o true o.signed fun l => mulAddWide o.signed (x.val o.a false l) (x.valB im o l) (x.val o.c true l)

def effImin (im : Bool) (x : IC) (o : Ops) : Eff := x.binary im o (iminV o.wide o.signed)
def effImax (im : Bool) (x : IC) (o : Ops) : Eff := x.binary im o (imaxV o.wide o.signed)
def effIabs (x : IC) (o : Ops) : Eff := x.unary o (iabsV o.wide (mbit o.m 56))
def effIneg (x : IC) (o : Ops) : Eff := x.unary o (inegV o.wide o.signed (mbit o.m 56))

def effIcmp (im : Bool) (x : IC) (o : Ops) : Eff :=
  x.destP (opNum o.d) fun l => icmpV o.wide o.signed (mfld o.m 50 48) (x.val o.a o.wide l) (x.valB im o l)

def effIsel (im : Bool) (x : IC) (o : Ops) : Eff :=
  x.dest o o.wide o.signed fun l =>
    if inMask (x.g.pred (opNum o.c)) l then x.val o.a o.wide l else x.valB im o l

def effShl (im : Bool) (x : IC) (o : Ops) : Eff := x.counted im o fun a n => shlV o.wide a n.toNat
def effShr (im : Bool) (x : IC) (o : Ops) : Eff := x.counted im o fun a n => shrV o.wide a n.toNat
def effSar (im : Bool) (x : IC) (o : Ops) : Eff := x.counted im o fun a n => sarV o.wide a n.toNat
def effRotl (im : Bool) (x : IC) (o : Ops) : Eff := x.counted im o fun a n => rotlV o.wide a n.toNat

def effAnd (im : Bool) (x : IC) (o : Ops) : Eff := x.binary im o (· &&& ·)
def effOr (im : Bool) (x : IC) (o : Ops) : Eff := x.binary im o (· ||| ·)
def effXor (im : Bool) (x : IC) (o : Ops) : Eff := x.binary im o (· ^^^ ·)
def effAndn (im : Bool) (x : IC) (o : Ops) : Eff := x.binary im o fun a b => a &&& ~~~b
def effNot (x : IC) (o : Ops) : Eff := x.unary o (~~~ ·)

def effBmux (im : Bool) (x : IC) (o : Ops) : Eff :=
  x.dest o o.wide o.signed fun l =>
    bmuxV (mfld o.m 55 48) (x.val o.a o.wide l) (x.valB im o l) (x.val o.c o.wide l)

/-- POPC, CLZ and CTZ write one 32-bit register (R141). -/
def IC.counting (x : IC) (o : Ops) (f : Nat → W64 → Nat) : Eff :=
  x.dest o false o.signed fun l => BitVec.ofNat 64 (f (widthOf o.wide) (x.val o.a o.wide l))

def effPopc (x : IC) (o : Ops) : Eff := x.counting o popcV
def effClz (x : IC) (o : Ops) : Eff := x.counting o clzV
def effCtz (x : IC) (o : Ops) : Eff := x.counting o ctzV
def effBrev (x : IC) (o : Ops) : Eff := x.unary o (brevV (widthOf o.wide))
def effBfx (im : Bool) (x : IC) (o : Ops) : Eff := x.counted im o (bfxV o.wide o.signed)

def effBfi (im : Bool) (x : IC) (o : Ops) : Eff :=
  x.dest o o.wide o.signed fun l => bfiV o.wide (x.val o.a o.wide l) (x.valB32 im o l) (x.val o.c o.wide l)

/-- BSR (R147): the new run, then the field, which wins inside it; the empty predicate after the step. -/
def effBsr (x : IC) (o : Ops) : Eff :=
  let f (l : Nat) := bsrStep (x.g.stream (x.g.opV o.a) l) (x.val32 o.b l).toNat
  let e : Eff := { v := runWrites (x.g.opV o.c) (fun l => (f l).2) ++ [(x.g.opV o.d, lanes64 fun l => (f l).1)] }
  x.carryOut o (fun l => (f l).2.cnt == 0) e

/-- BSRLD (R146). -/
def effBsrld (x : IC) (o : Ops) : Eff :=
  let b := x.g.opV o.b
  { v := runWrites (x.g.opV o.d) fun l =>
      ⟨x.val o.a true l, x.g.rdV b l, x.g.rdV (b + 1) l, (x.val32 o.c l).toNat % 32, 2 - mfld o.m 49 48⟩ }

def effIdot4 (x : IC) (o : Ops) : Eff :=
  x.dest32 o fun l => idot4V (mbit o.m 48) (mbit o.m 49) (mbit o.m 56) (x.val32 o.a l) (x.val32 o.b l) (x.val32 o.c l)

def effLea (im : Bool) (x : IC) (o : Ops) : Eff :=
  x.dest o true o.signed fun l => leaV o.wide o.signed (x.val o.a true l) (x.valB im o l) (mfld o.m 50 48)

/-! ## Meanings -/

/-- MOV (R133). -/
def execMov (o : Ops) (s : State) : Out := issueAlu .mov .w64 effMov o s

/-- MOVI (R133). -/
def execMovi (o : Ops) (s : State) : Out := issueAlu .movi .w96 effMovi o s

/-- MOVW (R133). -/
def execMovw (o : Ops) (s : State) : Out := issueAlu .movw .w128 effMovw o s

/-- IADD (R134). -/
def execIadd (o : Ops) (s : State) : Out := issueAlu .iadd .w64 (effIadd false) o s

/-- IADD with IMM32 in place of B (R134, R129). -/
def execIaddImm (o : Ops) (s : State) : Out := issueAlu .iadd .w96 (effIadd true) o s

/-- ISUB (R134). -/
def execIsub (o : Ops) (s : State) : Out := issueAlu .isub .w64 (effIsub false) o s

/-- ISUB with IMM32 in place of B (R134, R129). -/
def execIsubImm (o : Ops) (s : State) : Out := issueAlu .isub .w96 (effIsub true) o s

/-- IADDC (R134). -/
def execIaddc (o : Ops) (s : State) : Out := issueAlu .iaddc .w64 (effIaddc false) o s

/-- IADDC with IMM32 in place of B (R134, R129). -/
def execIaddcImm (o : Ops) (s : State) : Out := issueAlu .iaddc .w96 (effIaddc true) o s

/-- ISUBB (R134). -/
def execIsubb (o : Ops) (s : State) : Out := issueAlu .isubb .w64 (effIsubb false) o s

/-- ISUBB with IMM32 in place of B (R134, R129). -/
def execIsubbImm (o : Ops) (s : State) : Out := issueAlu .isubb .w96 (effIsubb true) o s

/-- IADDS (R134). -/
def execIadds (o : Ops) (s : State) : Out := issueAlu .iadds .w64 (effIadds false) o s

/-- IADDS with IMM32 in place of B (R134, R129). -/
def execIaddsImm (o : Ops) (s : State) : Out := issueAlu .iadds .w96 (effIadds true) o s

/-- IMUL (R135). -/
def execImul (o : Ops) (s : State) : Out := issueAlu .imul .w64 (effImul false) o s

/-- IMUL with IMM32 in place of B (R135, R129). -/
def execImulImm (o : Ops) (s : State) : Out := issueAlu .imul .w96 (effImul true) o s

/-- IMULH (R135). -/
def execImulh (o : Ops) (s : State) : Out := issueAlu .imulh .w64 (effImulh false) o s

/-- IMULH with IMM32 in place of B (R135, R129). -/
def execImulhImm (o : Ops) (s : State) : Out := issueAlu .imulh .w96 (effImulh true) o s

/-- IMAD (R135). -/
def execImad (o : Ops) (s : State) : Out := issueAlu .imad .w64 (effImad false) o s

/-- IMAD with IMM32 in place of B (R135, R129). -/
def execImadImm (o : Ops) (s : State) : Out := issueAlu .imad .w96 (effImad true) o s

/-- IMADW (R135). -/
def execImadw (o : Ops) (s : State) : Out := issueAlu .imadw .w64 (effImadw false) o s

/-- IMADW with IMM32 in place of B (R135, R129). -/
def execImadwImm (o : Ops) (s : State) : Out := issueAlu .imadw .w96 (effImadw true) o s

/-- IMIN (R136). -/
def execImin (o : Ops) (s : State) : Out := issueAlu .imin .w64 (effImin false) o s

/-- IMIN with IMM32 in place of B (R136, R129). -/
def execIminImm (o : Ops) (s : State) : Out := issueAlu .imin .w96 (effImin true) o s

/-- IMAX (R136). -/
def execImax (o : Ops) (s : State) : Out := issueAlu .imax .w64 (effImax false) o s

/-- IMAX with IMM32 in place of B (R136, R129). -/
def execImaxImm (o : Ops) (s : State) : Out := issueAlu .imax .w96 (effImax true) o s

/-- IABS (R136). -/
def execIabs (o : Ops) (s : State) : Out := issueAlu .iabs .w64 effIabs o s

/-- INEG (R136). -/
def execIneg (o : Ops) (s : State) : Out := issueAlu .ineg .w64 effIneg o s

/-- ICMP (R137). -/
def execIcmp (o : Ops) (s : State) : Out := issueAlu .icmp .w64 (effIcmp false) o s

/-- ICMP with IMM32 in place of B (R137, R129). -/
def execIcmpImm (o : Ops) (s : State) : Out := issueAlu .icmp .w96 (effIcmp true) o s

/-- ISEL (R138). -/
def execIsel (o : Ops) (s : State) : Out := issueAlu .isel .w64 (effIsel false) o s

/-- ISEL with IMM32 in place of B (R138, R129). -/
def execIselImm (o : Ops) (s : State) : Out := issueAlu .isel .w96 (effIsel true) o s

/-- SHL (R139). -/
def execShl (o : Ops) (s : State) : Out := issueAlu .shl .w64 (effShl false) o s

/-- SHL with IMM32 in place of B (R139, R129). -/
def execShlImm (o : Ops) (s : State) : Out := issueAlu .shl .w96 (effShl true) o s

/-- SHR (R139). -/
def execShr (o : Ops) (s : State) : Out := issueAlu .shr .w64 (effShr false) o s

/-- SHR with IMM32 in place of B (R139, R129). -/
def execShrImm (o : Ops) (s : State) : Out := issueAlu .shr .w96 (effShr true) o s

/-- SAR (R139). -/
def execSar (o : Ops) (s : State) : Out := issueAlu .sar .w64 (effSar false) o s

/-- SAR with IMM32 in place of B (R139, R129). -/
def execSarImm (o : Ops) (s : State) : Out := issueAlu .sar .w96 (effSar true) o s

/-- ROTL (R139). -/
def execRotl (o : Ops) (s : State) : Out := issueAlu .rotl .w64 (effRotl false) o s

/-- ROTL with IMM32 in place of B (R139, R129). -/
def execRotlImm (o : Ops) (s : State) : Out := issueAlu .rotl .w96 (effRotl true) o s

/-- AND (R140). -/
def execAndL (o : Ops) (s : State) : Out := issueAlu .andL .w64 (effAnd false) o s

/-- AND with IMM32 in place of B (R140, R129). -/
def execAndImm (o : Ops) (s : State) : Out := issueAlu .andL .w96 (effAnd true) o s

/-- OR (R140). -/
def execOrL (o : Ops) (s : State) : Out := issueAlu .orL .w64 (effOr false) o s

/-- OR with IMM32 in place of B (R140, R129). -/
def execOrImm (o : Ops) (s : State) : Out := issueAlu .orL .w96 (effOr true) o s

/-- XOR (R140). -/
def execXorL (o : Ops) (s : State) : Out := issueAlu .xorL .w64 (effXor false) o s

/-- XOR with IMM32 in place of B (R140, R129). -/
def execXorImm (o : Ops) (s : State) : Out := issueAlu .xorL .w96 (effXor true) o s

/-- ANDN (R140). -/
def execAndn (o : Ops) (s : State) : Out := issueAlu .andn .w64 (effAndn false) o s

/-- ANDN with IMM32 in place of B (R140, R129). -/
def execAndnImm (o : Ops) (s : State) : Out := issueAlu .andn .w96 (effAndn true) o s

/-- NOT (R140). -/
def execNotL (o : Ops) (s : State) : Out := issueAlu .notL .w64 effNot o s

/-- BMUX (R140). -/
def execBmux (o : Ops) (s : State) : Out := issueAlu .bmux .w64 (effBmux false) o s

/-- BMUX with IMM32 in place of B (R140, R129). -/
def execBmuxImm (o : Ops) (s : State) : Out := issueAlu .bmux .w96 (effBmux true) o s

/-- POPC (R141). -/
def execPopc (o : Ops) (s : State) : Out := issueAlu .popc .w64 effPopc o s

/-- CLZ (R141). -/
def execClz (o : Ops) (s : State) : Out := issueAlu .clz .w64 effClz o s

/-- CTZ (R141). -/
def execCtz (o : Ops) (s : State) : Out := issueAlu .ctz .w64 effCtz o s

/-- BREV (R141). -/
def execBrev (o : Ops) (s : State) : Out := issueAlu .brev .w64 effBrev o s

/-- BFX (R142). -/
def execBfx (o : Ops) (s : State) : Out := issueAlu .bfx .w64 (effBfx false) o s

/-- BFX with IMM32 in place of B (R142, R129). -/
def execBfxImm (o : Ops) (s : State) : Out := issueAlu .bfx .w96 (effBfx true) o s

/-- BFI (R142). -/
def execBfi (o : Ops) (s : State) : Out := issueAlu .bfi .w64 (effBfi false) o s

/-- BFI with IMM32 in place of B (R142, R129). -/
def execBfiImm (o : Ops) (s : State) : Out := issueAlu .bfi .w96 (effBfi true) o s

/-- BSR (R147). -/
def execBsr (o : Ops) (s : State) : Out := issueAlu .bsr .w64 effBsr o s

/-- BSRLD (R146). -/
def execBsrld (o : Ops) (s : State) : Out := issueAlu .bsrld .w64 effBsrld o s

/-- IDOT4 (R143). -/
def execIdot4 (o : Ops) (s : State) : Out := issueAlu .idot4 .w64 effIdot4 o s

/-- LEA (R144). -/
def execLea (o : Ops) (s : State) : Out := issueAlu .lea .w64 (effLea false) o s

/-- LEA with IMM32 in place of B (R144, R129). -/
def execLeaImm (o : Ops) (s : State) : Out := issueAlu .lea .w96 (effLea true) o s

end Sys2Proof.Machine
end

