-- ==== Sys2Proof/Machine/Flags.lean ====
section
/-!
DEFINITION. Number formats and rounding (R54 to R69) and the flags of the GSR that they raise (R120): exact
values, their decoding, the one rounding, and exact sums, products and comparisons.
-/

namespace Sys2Proof.Machine

/-! ## The flags of the GSR (R120) -/

/-- The flags that one operation raises. -/
structure Fl where
  nv : Bool := false
  of : Bool := false
  fmt : Bool := false
  dlr : Bool := false
  stale : Bool := false
  range : Bool := false
  deriving DecidableEq, Repr

/-- The flags of two operations. -/
def Fl.or (a b : Fl) : Fl :=
  ⟨a.nv || b.nv, a.of || b.of, a.fmt || b.fmt, a.dlr || b.dlr, a.stale || b.stale, a.range || b.range⟩

/-- The flags as bits of the GSR (R120). -/
def Fl.bits (a : Fl) : W32 :=
  (BitVec.ofBool a.range ++ BitVec.ofBool a.stale ++ BitVec.ofBool a.dlr ++ BitVec.ofBool a.fmt ++ BitVec.ofBool a.of
    ++ BitVec.ofBool a.nv).setWidth 32

/-! ## Exact values -/

/-- An exact value: a NaN, an infinity of a sign, a zero of a sign, or ±m·2^e with m above 0. -/
inductive Num where
  | nan
  | inf (neg : Bool)
  | zero (neg : Bool)
  | fin (neg : Bool) (m : Nat) (e : Int)
  deriving DecidableEq, Repr

/-- ±m·2^e, where m may be 0. -/
def Num.mk (neg : Bool) (m : Nat) (e : Int) : Num := if m = 0 then .zero neg else .fin neg m e

/-- The value of t·2^e; an exact zero is +0. -/
def Num.ofInt (t e : Int) : Num := if t = 0 then .zero false else .fin (t < 0) t.natAbs e

/-- The sign of a value; a NaN counts as positive. -/
def Num.neg? : Num → Bool
  | .nan => false
  | .inf n => n
  | .zero n => n
  | .fin n _ _ => n

def Num.negate : Num → Num
  | .nan => .nan
  | .inf n => .inf (!n)
  | .zero n => .zero (!n)
  | .fin n m e => .fin (!n) m e

def Num.isNan : Num → Bool
  | .nan => true
  | _ => false

/-- ±m with the sign. -/
def sgn (neg : Bool) (m : Nat) : Int := if neg then -(m : Int) else m

/-- m·2^e over a common exponent f, at most e. -/
def scaleTo (neg : Bool) (m : Nat) (e f : Int) : Int := sgn neg (m <<< (e - f).toNat)

/-- The number of bits of m, less one. -/
def log2 (m : Nat) : Nat := m.log2

/-! ## Formats (R54) -/

/-- What the top exponent stands for: infinities and NaNs, one NaN code, or plain values (R54). -/
inductive Top where
  | ieee | oneNan | plain
  deriving DecidableEq, Repr

/-- A floating-point format: exponent bits, mantissa bits, bias, its top codes, and whether its NaNs may be
signalling (R54, R151). -/
structure Fmt where
  eb : Nat
  mb : Nat
  bias : Nat
  top : Top
  snans : Bool
  deriving DecidableEq, Repr

def Fmt.f32 : Fmt := ⟨8, 23, 127, .ieee, true⟩
def Fmt.f16 : Fmt := ⟨5, 10, 15, .ieee, true⟩
def Fmt.bf16 : Fmt := ⟨8, 7, 127, .ieee, true⟩
def Fmt.e4m3 : Fmt := ⟨4, 3, 7, .oneNan, false⟩
def Fmt.e5m2 : Fmt := ⟨5, 2, 15, .ieee, false⟩
def Fmt.e3m2 : Fmt := ⟨3, 2, 3, .plain, false⟩
def Fmt.e2m3 : Fmt := ⟨2, 3, 1, .plain, false⟩
def Fmt.e2m1 : Fmt := ⟨2, 1, 1, .plain, false⟩

/-- The width of a format in bits. -/
def Fmt.width (f : Fmt) : Nat := 1 + f.eb + f.mb

/-- The exponent field and the mantissa field of the largest finite value (R54). -/
def Fmt.maxFields (f : Fmt) : Nat × Nat :=
  match f.top with
  | .ieee => (2 ^ f.eb - 2, 2 ^ f.mb - 1)
  | .oneNan => (2 ^ f.eb - 1, 2 ^ f.mb - 2)
  | .plain => (2 ^ f.eb - 1, 2 ^ f.mb - 1)

/-- A code from its fields. -/
def Fmt.code (f : Fmt) (neg : Bool) (ef mf : Nat) : Nat := neg.toNat * 2 ^ (f.eb + f.mb) + ef * 2 ^ f.mb + mf

/-- The canonical NaN (R55): sign clear; 0 in a format without one. -/
def Fmt.qnan (f : Fmt) : Nat :=
  match f.top with
  | .ieee => f.code false (2 ^ f.eb - 1) (2 ^ (f.mb - 1))
  | .oneNan => f.code false (2 ^ f.eb - 1) (2 ^ f.mb - 1)
  | .plain => 0

def Fmt.sign (f : Fmt) (c : Nat) : Bool := c.testBit (f.eb + f.mb)
def Fmt.expo (f : Fmt) (c : Nat) : Nat := (c >>> f.mb) % 2 ^ f.eb
def Fmt.mant (f : Fmt) (c : Nat) : Nat := c % 2 ^ f.mb

/-- The value of a code; with FTZ a subnormal reads as zero of its sign (R54, R67). -/
def Fmt.dec (f : Fmt) (ftz : Bool) (c : Nat) : Num :=
  let s := f.sign c
  let e := f.expo c
  let m := f.mant c
  let top := 2 ^ f.eb - 1
  if f.top = .ieee && e == top then (if m = 0 then .inf s else .nan)
  else if f.top = .oneNan && e == top && m == 2 ^ f.mb - 1 then .nan
  else if e = 0 then (if ftz then .zero s else .mk s m (1 - (f.bias : Int) - f.mb))
  else .fin s (m + 2 ^ f.mb) ((e : Int) - f.bias - f.mb)

/-- A code is a signalling NaN (R151). -/
def Fmt.snan (f : Fmt) (c : Nat) : Bool :=
  f.snans && f.expo c == 2 ^ f.eb - 1 && f.mant c != 0 && f.mant c < 2 ^ (f.mb - 1)

/-! ## Rounding (R66 to R69) -/

/-- The rounding settings of the RMR (R64). -/
structure Rnd where
  mode : Nat
  sat : Bool
  ftz : Bool
  deriving DecidableEq, Repr

def rndOf (rmr : W32) : Rnd := ⟨rmr.toNat % 8, rmr.getLsbD 3, rmr.getLsbD 4⟩

/-- mode' of R152: RNE in place of stochastic. -/
def Rnd.wide (r : Rnd) : Rnd := { r with mode := if r.mode = 6 then 0 else r.mode }

/-- m·2^e over 2^q truncated, and whether the mode rounds it up (R66, R69). `r` is the draw. -/
def roundMag (mode : Nat) (r : Nat) (neg : Bool) (m : Nat) (e q : Int) : Nat × Bool :=
  if q ≤ e then (m <<< (e - q).toNat, false)
  else
    let k := (q - e).toNat
    let n := m >>> k
    let rem := m % 2 ^ k
    let half := 2 ^ (k - 1)
    let up := rem != 0 && (match mode with
      | 0 => half < rem || (rem == half && n % 2 == 1)
      | 1 => false
      | 2 => !neg
      | 3 => neg
      | 4 => half ≤ rem
      | 5 => n % 2 == 0
      | _ => 2 ^ 16 ≤ r + (if 16 ≤ k then rem >>> (k - 16) else rem <<< (16 - k)))
    (n, up)

/-- A rounded magnitude. -/
def roundUp (p : Nat × Bool) : Nat := p.1 + p.2.toNat

/-- A result beyond the largest finite value (R67). `away` says that the mode rounds away from zero there. -/
def Fmt.over (f : Fmt) (neg away sat : Bool) : Nat :=
  let mx := f.maxFields
  let largest := f.code neg mx.1 mx.2
  let inf := f.code neg (2 ^ f.eb - 1) 0
  match f.top with
  | .ieee => if f = Fmt.f32 then (if away then inf else largest) else if sat || !away then largest else inf
  | .oneNan => if sat then largest else f.qnan
  | .plain => largest

/-- The one rounding of an exact value into a format (R55, R66, R67, R69), with the flags that it raises. A
format wider than 16 bits takes RNE for the stochastic mode. -/
def Fmt.enc (f : Fmt) (rd : Rnd) (r : Nat) (x : Num) : Nat × Fl :=
  let mode := if rd.mode = 6 && 16 < f.width then 0 else rd.mode
  match x with
  | .nan => (f.qnan, { nv := f.top == .plain })
  | .zero s => (f.code s 0 0, {})
  | .inf s => if f.top = .ieee then (f.code s (2 ^ f.eb - 1) 0, {}) else (f.over s true rd.sat, { of := true })
  | .fin s m e =>
    let q := max ((log2 m : Int) + e) (1 - (f.bias : Int)) - f.mb
    let p := roundMag mode r s m e q
    let n := roundUp p
    let (n, q) := if 2 ^ (f.mb + 1) ≤ n then (n / 2, q + 1) else (n, q)
    if n = 0 then (f.code s 0 0, {})
    else
      let ef := if n < 2 ^ f.mb then 0 else (q + f.mb + f.bias).toNat
      let mf := n % 2 ^ f.mb
      let mx := f.maxFields
      if mx.1 < ef || (ef == mx.1 && mx.2 < mf) then
        if mode = 6 then
          if p.2 then (f.over s true rd.sat, { of := true }) else (f.code s mx.1 mx.2, {})
        else
          let away := mode == 0 || mode == 4 || (mode == 2 && !s) || (mode == 3 && s)
          (f.over s away rd.sat, { of := true })
      else if ef = 0 && rd.ftz then (f.code s 0 0, {})
      else (f.code s ef mf, {})

/-- Rounding into an integer format with its limits: a result outside them sets OF, but for one that the stochastic mode has truncated
(R55, R66, R67, R158, R273). -/
def Num.toInt (x : Num) (rd : Rnd) (r : Nat) (lo hi : Int) : Int × Fl :=
  match x with
  | .nan => (0, { nv := true })
  | .zero _ => (0, {})
  | .inf s => (if s then lo else hi, { of := true })
  | .fin s m e =>
    let p := roundMag rd.mode r s m e 0
    let v := sgn s (roundUp p)
    let beyond : Fl := { of := rd.mode != 6 || p.2 }
    if v < lo then (lo, beyond) else if hi < v then (hi, beyond) else (v, {})

/-! ## Exact arithmetic (R152, IEEE 754-2019) -/

/-- The exact sum; a zero sum of opposite signs is −0 under RDN alone (R152). DESIGN CHOICE (log entry 67): under the
stochastic mode it is +0 for 16-bit elements too, which R157 leaves open. -/
def Num.add (mode : Nat) (a b : Num) : Num :=
  match a, b with
  | .nan, _ => .nan
  | _, .nan => .nan
  | .inf s, .inf t => if s = t then .inf s else .nan
  | .inf s, _ => .inf s
  | _, .inf t => .inf t
  | .zero s, .zero t => .zero (if mode = 3 then s || t else s && t)
  | .zero _, y => y
  | x, .zero _ => x
  | .fin s m e, .fin t n f =>
    let g := min e f
    let v := scaleTo s m e g + scaleTo t n f g
    if v = 0 then .zero (mode == 3) else .ofInt v g

/-- The exact product. -/
def Num.mul (a b : Num) : Num :=
  match a, b with
  | .nan, _ => .nan
  | _, .nan => .nan
  | .inf _, .zero _ => .nan
  | .zero _, .inf _ => .nan
  | .inf s, y => .inf (s != y.neg?)
  | x, .inf t => .inf (x.neg? != t)
  | .zero s, y => .zero (s != y.neg?)
  | x, .zero t => .zero (x.neg? != t)
  | .fin s m e, .fin t n f => .fin (s != t) (m * n) (e + f)

/-- The order of two values that are no NaN: −0 equals +0 (R154). -/
def Num.lt (a b : Num) : Bool :=
  let key : Num → Int × Int × Int := fun x => match x with
    | .nan => (0, 0, 0)
    | .inf s => (sgn s 2, 0, 0)
    | .zero _ => (0, 0, 0)
    | .fin s m e => (sgn s 1, sgn s m, e)
  match key a, key b with
  | (ka, ma, ea), (kb, mb, eb) =>
    if ka != kb then ka < kb
    else if ka = 0 || ka = 2 || ka = -2 then false
    else ma * ((2 ^ (ea - min ea eb).toNat : Nat) : Int) < mb * ((2 ^ (eb - min ea eb).toNat : Nat) : Int)

/-- A zero times an infinity (R151). -/
def Num.zeroInf (a b : Num) : Bool :=
  match a, b with
  | .zero _, .inf _ => true
  | .inf _, .zero _ => true
  | _, _ => false

/-- Two infinities of opposite signs meet in a sum (R151). -/
def Num.infClash (a b : Num) : Bool :=
  match a, b with
  | .inf s, .inf t => s != t
  | _, _ => false

/-! ## Random state (R68) -/

/-- A random state that is never 0. -/
def rngFix (s : W32) : W32 := if s = 0 then 0x6D2B79F5 else s

/-- One draw: the new state; its top 16 bits are the draw. -/
def rngNext (s : W32) : W32 :=
  let s := s ^^^ (s <<< 13)
  let s := s ^^^ (s >>> 17)
  rngFix (s ^^^ (s <<< 5))

def drawOf (s : W32) : Nat := (s >>> 16).toNat

end Sys2Proof.Machine
end

