-- ==== Sys2Proof/Machine/FloatOps.lean ====
section
/-!
DEFINITION. The floating-point and conversion instructions of class 1 (R148 to R162): arithmetic on FP32 and
packed 16-bit floats, conversions, the Q4O blocks of R59 to R61, and random numbers (R164, R165).
-/

namespace Sys2Proof.Machine

/-! ## The frame of the family -/

/-- What an operation gives one lane: its registers, flags, and its random state. -/
structure LaneR where
  vals : List W32
  fl : Fl
  rng : W32
  deriving DecidableEq, Repr

/-- The rounding settings in force for the group (R65). -/
def IC.rnd (x : IC) : Rnd := rndOf x.g.rmr

/-- The results of a lane operation in `n` registers from `r` (R151): flags of the active lanes alone. -/
def IC.lanewise (x : IC) (r n : Nat) (draws : Bool) (f : Nat → W32 → LaneR) : Eff :=
  let rs := lanes64 fun l =>
    let st := x.g.rng.getD l 0
    if inMask x.act l then f l st else ⟨[], {}, st⟩
  { v := (List.range n).map fun i => (r + i, rs.map fun q => q.vals.getD i 0)
    gsr := (rs.foldl (fun a q => a.or q.fl) ({} : Fl)).bits
    rng := if draws then some (rs.map (·.rng)) else none }

/-- A one-register result without draws. -/
def IC.lane1 (x : IC) (o : Ops) (f : Nat → Nat × Fl) : Eff :=
  x.lanewise (x.g.opV o.d) 1 false fun l st => let r := f l; ⟨[BitVec.ofNat 32 r.1], r.2, st⟩

/-- A predicate result with flags; with P7 for its destination the instruction makes no change (R118). DEDUCED (log entry 92):
it raises no NV either, for all that R151 says of it. -/
def IC.laneP (x : IC) (o : Ops) (f : Nat → Bool × Fl) : Eff :=
  let rs := lanes64 fun l => if inMask x.act l then f l else (false, {})
  { p := [(opNum o.d, x.act, maskOf fun l => (rs.getD l (false, {})).1)]
    gsr := if opNum o.d = 7 then 0 else (rs.foldl (fun a q => a.or q.2) ({} : Fl)).bits }

/-! ## Arithmetic on codes of one format -/

/-- NV of signalling operands (R151). -/
def snanFl (f : Fmt) (cs : List Nat) : Bool := cs.any f.snan

/-- A sum rounded once (R152, R157). -/
def fltAdd (f : Fmt) (rd : Rnd) (r : Nat) (a b : Nat) : Nat × Fl :=
  let x := f.dec rd.ftz a
  let y := f.dec rd.ftz b
  let z := f.enc rd r (x.add rd.mode y)
  (z.1, z.2.or { nv := snanFl f [a, b] || x.infClash y })

/-- A code with its sign changed. -/
def Fmt.flip (f : Fmt) (c : Nat) : Nat := c ^^^ 2 ^ (f.eb + f.mb)

/-- A product rounded once (R152, R157). -/
def fltMul (f : Fmt) (rd : Rnd) (r : Nat) (a b : Nat) : Nat × Fl :=
  let x := f.dec rd.ftz a
  let y := f.dec rd.ftz b
  let z := f.enc rd r (x.mul y)
  (z.1, z.2.or { nv := snanFl f [a, b] || x.zeroInf y })

/-- A product and a sum with one rounding (R152, R157). -/
def fltFma (f : Fmt) (rd : Rnd) (r : Nat) (a b c : Nat) : Nat × Fl :=
  let x := f.dec rd.ftz a
  let y := f.dec rd.ftz b
  let w := f.dec rd.ftz c
  let p := x.mul y
  let z := f.enc rd r (p.add rd.mode w)
  (z.1, z.2.or { nv := snanFl f [a, b, c] || x.zeroInf y || p.infClash w })

/-- FSCALE (R152): A·2^B; an exponent beyond what any FP32 value spans acts as the bound does. -/
def fltScale (rd : Rnd) (a : Nat) (b : W32) : Nat × Fl :=
  let n : Int := clampInt (-2000) 2000 b.toInt
  let x := Fmt.f32.dec rd.ftz a
  let y := match x with
    | .fin s m e => .fin s m (e + n)
    | x => x
  let z := Fmt.f32.enc rd 0 y
  (z.1, z.2.or { nv := Fmt.f32.snan a })

/-- FMIN and FMAX (R153): −0 stands below +0, and a number stands over a NaN. -/
def fltMinMax (mx ftz : Bool) (a b : Nat) : Nat × Fl :=
  let f := Fmt.f32
  let x := f.dec ftz a
  let y := f.dec ftz b
  let below (p q : Num) : Bool := p.lt q || (match p, q with
    | .zero s, .zero t => s && !t
    | _, _ => false)
  let pick := if x.isNan then y else if y.isNan then x
    else if mx then (if below x y then y else x) else (if below y x then y else x)
  ((f.enc ⟨0, false, ftz⟩ 0 pick).1, { nv := snanFl f [a, b] })

/-- FCMP (R154). -/
def fltCmp (ftz : Bool) (cond a b : Nat) : Bool × Fl :=
  let f := Fmt.f32
  let x := f.dec ftz a
  let y := f.dec ftz b
  let un := x.isNan || y.isNan
  let lt := x.lt y
  let gt := y.lt x
  let r := match cond with
    | 0 => !un && !lt && !gt
    | 1 => un || lt || gt
    | 2 => !un && lt
    | 3 => !un && !gt
    | 4 => !un && gt
    | 5 => !un && !lt
    | 6 => un
    | _ => !un
  (r, { nv := snanFl f [a, b] })

/-- The class of an FP32 encoding, by its bit of FCLASS's mask (R155). -/
def fltClass (c : Nat) : Nat :=
  let f := Fmt.f32
  let s := f.sign c
  match f.dec false c with
  | .nan => if f.snan c then 8 else 9
  | .inf _ => if s then 0 else 7
  | .zero _ => if s then 3 else 4
  | .fin _ _ _ => if f.expo c = 0 then (if s then 2 else 5) else (if s then 1 else 6)

/-- FRND (R156). -/
def fltRnd (rd : Rnd) (a : Nat) : Nat × Fl :=
  let f := Fmt.f32
  let y := match f.dec rd.ftz a with
    | .fin s m e => Num.mk s (roundUp (roundMag rd.mode 0 s m e 0)) 0
    | x => x
  ((f.enc rd 0 y).1, { nv := f.snan a })

/-! ## FP32 instructions -/

/-- A and B as codes. -/
def IC.codeA (x : IC) (o : Ops) (l : Nat) : Nat := (x.val32 o.a l).toNat
def IC.codeB (x : IC) (im : Bool) (o : Ops) (l : Nat) : Nat := (x.valB32 im o l).toNat
def IC.codeC (x : IC) (o : Ops) (l : Nat) : Nat := (x.val32 o.c l).toNat

def effFadd (im : Bool) (x : IC) (o : Ops) : Eff :=
  x.lane1 o fun l => fltAdd .f32 x.rnd.wide 0 (x.codeA o l) (x.codeB im o l)

/-- FSUB is the sum with B's sign changed; a NaN stays what it is (R152). -/
def effFsub (im : Bool) (x : IC) (o : Ops) : Eff :=
  x.lane1 o fun l => fltAdd .f32 x.rnd.wide 0 (x.codeA o l) (Fmt.f32.flip (x.codeB im o l))

def effFmul (im : Bool) (x : IC) (o : Ops) : Eff :=
  x.lane1 o fun l => fltMul .f32 x.rnd.wide 0 (x.codeA o l) (x.codeB im o l)

def effFfma (im : Bool) (x : IC) (o : Ops) : Eff :=
  x.lane1 o fun l => fltFma .f32 x.rnd.wide 0 (x.codeA o l) (x.codeB im o l) (x.codeC o l)

def effFmin (im : Bool) (x : IC) (o : Ops) : Eff :=
  x.lane1 o fun l => fltMinMax false x.rnd.ftz (x.codeA o l) (x.codeB im o l)

def effFmax (im : Bool) (x : IC) (o : Ops) : Eff :=
  x.lane1 o fun l => fltMinMax true x.rnd.ftz (x.codeA o l) (x.codeB im o l)

def effFcmp (im : Bool) (x : IC) (o : Ops) : Eff :=
  x.laneP o fun l => fltCmp x.rnd.ftz (mfld o.m 50 48) (x.codeA o l) (x.codeB im o l)

def effFclass (x : IC) (o : Ops) : Eff :=
  x.laneP o fun l => ((mfld o.m 57 48).testBit (fltClass (x.codeA o l)), {})

def effFrnd (x : IC) (o : Ops) : Eff :=
  let mode := mfld o.m 50 48
  let rd : Rnd := if mode = 0 then x.rnd.wide else { x.rnd with mode := mode - 1 }
  x.lane1 o fun l => fltRnd rd (x.codeA o l)

def effFscale (im : Bool) (x : IC) (o : Ops) : Eff :=
  x.lane1 o fun l => fltScale x.rnd.wide (x.codeA o l) (x.valB32 im o l)

/-! ## Packed 16-bit arithmetic (R157) -/

/-- The format that FN bit 48 selects. -/
def half2Fmt (o : Ops) : Fmt := if mbit o.m 48 then .bf16 else .f16

/-- Element `e` of a packed register. -/
def half (e v : Nat) : Nat := v / 2 ^ (16 * e) % 65536

/-- Two elements of a lane, rounded in ascending order with one draw each under the stochastic mode. -/
def IC.packed2 (x : IC) (o : Ops) (f : Nat → Nat → Nat → Nat × Fl) : Eff :=
  let sto := x.rnd.mode == 6
  x.lanewise (x.g.opV o.d) 1 sto fun l st =>
    let s1 := if sto then rngNext st else st
    let s2 := if sto then rngNext s1 else s1
    let r0 := f l 0 (drawOf s1)
    let r1 := f l 1 (drawOf s2)
    ⟨[BitVec.ofNat 32 (r1.1 * 65536 + r0.1)], r0.2.or r1.2, s2⟩

def effHadd2 (im : Bool) (x : IC) (o : Ops) : Eff :=
  x.packed2 o fun l e r => fltAdd (half2Fmt o) x.rnd r (half e (x.codeA o l)) (half e (x.codeB im o l))

def effHmul2 (im : Bool) (x : IC) (o : Ops) : Eff :=
  x.packed2 o fun l e r => fltMul (half2Fmt o) x.rnd r (half e (x.codeA o l)) (half e (x.codeB im o l))

def effHfma2 (im : Bool) (x : IC) (o : Ops) : Eff :=
  x.packed2 o fun l e r =>
    fltFma (half2Fmt o) x.rnd r (half e (x.codeA o l)) (half e (x.codeB im o l)) (half e (x.codeC o l))

/-! ## Conversions with integers (R158, R159) -/

/-- A source format by its code (R158, R160). -/
def srcFmt (n : Nat) : Fmt :=
  match n with
  | 0 => .f32
  | 1 => .f16
  | _ => .bf16

/-- The width and the signedness of CVTI's types by their codes (R158). -/
def cvtType (t : Nat) : Nat × Bool := ([32, 32, 64, 64, 16, 16, 8, 8].getD t 32, t % 2 == 0)

/-- The limits of an integer type. -/
def intLimits (w : Nat) (signed : Bool) : Int × Int :=
  if signed then (-(2 ^ (w - 1) : Nat), (2 ^ (w - 1) : Nat) - 1) else (0, (2 ^ w : Nat) - 1)

def effCvti (x : IC) (o : Ops) : Eff :=
  let t := mfld o.m 50 48
  let (w, signed) := cvtType t
  let f := srcFmt (mfld o.m 52 51)
  let rz := mbit o.m 53
  let rd : Rnd := if rz then { x.rnd with mode := 1 } else if 4 ≤ t then x.rnd else x.rnd.wide
  let sto := rd.mode == 6
  let lim := intLimits w signed
  x.lanewise (x.g.opV o.d) (if w = 64 then 2 else 1) sto fun l st =>
    let s1 := if sto then rngNext st else st
    let c := x.codeA o l % 2 ^ f.width
    let r := (f.dec rd.ftz c).toInt rd (drawOf s1) lim.1 lim.2
    let v := BitVec.ofInt 64 r.1
    ⟨[v.setWidth 32, v.extractLsb' 32 32], r.2.or { nv := f.snan c }, s1⟩

def effCvtf (x : IC) (o : Ops) : Eff :=
  let t := mfld o.m 49 48
  let wide := 2 ≤ t
  x.lane1 o fun l => ((Fmt.f32.enc x.rnd.wide 0 (.ofInt (iv wide (t % 2 == 0) (x.val o.a wide l)) 0)).1, {})

/-! ## Narrowing and widening (R160, R162) -/

/-- A packed format by its index (R150); the Q4O indices name none. -/
def packFmt (idx : Nat) : Fmt := [Fmt.bf16, .f16, .e4m3, .e5m2, .e3m2, .e2m3].getD idx .e2m1

/-- Bits of a lane's run of registers, read as one little-endian string (R57, R160). -/
def Group.runBits (g : Group) (r l lo w : Nat) : Nat :=
  (g.rdV (r + lo / 32) l).toNat / 2 ^ (lo % 32) % 2 ^ w

/-- Elements packed at w·i (R57). -/
def packBits (w : Nat) (es : List Nat) : Nat := es.foldr (fun e n => e + n * 2 ^ w) 0

/-- Round a lane's source elements in order, with one draw each under the stochastic mode (R160). -/
def narrowAll (dst src : Fmt) (rd : Rnd) : List Nat → W32 → List Nat × Fl × W32
  | [], st => ([], {}, st)
  | c :: cs, st =>
    let st := if rd.mode = 6 then rngNext st else st
    let z := dst.enc rd (drawOf st) (src.dec rd.ftz c)
    let rest := narrowAll dst src rd cs st
    (z.1 :: rest.1, (z.2.or { nv := src.snan c }).or rest.2.1, rest.2.2)

/-- The source elements of a lane (R160). -/
def IC.srcElems (x : IC) (o : Ops) (n l : Nat) : List Nat :=
  let sw := (srcFmt (mfld o.m 54 53)).width
  (List.range n).map fun i => x.g.runBits (x.g.opV o.a) l (sw * i) sw

/-! ## Q4O blocks (R59 to R61) -/

/-- ±m·2^e is at least n·2^f. -/
def geMag (x : Num) (n : Nat) (f : Int) : Bool :=
  match x with
  | .fin _ m e => let g := min e f; n * 2 ^ (f - g).toNat ≤ m * 2 ^ (e - g).toNat
  | .inf _ => true
  | _ => n == 0

/-- ±m·2^e is above n·2^f in magnitude. -/
def gtMag (x : Num) (n : Nat) (f : Int) : Bool :=
  match x with
  | .fin _ m e => let g := min e f; n * 2 ^ (f - g).toNat < m * 2 ^ (e - g).toNat
  | .inf _ => true
  | _ => false

/-- The magnitude of a value. -/
def Num.abs : Num → Num
  | .nan => .nan
  | .inf _ => .inf false
  | .zero _ => .zero false
  | .fin _ m e => .fin false m e

/-- The largest magnitude of a list; +0 for none. -/
def maxMag (l : List Num) : Num := l.foldl (fun a x => if a.lt x.abs then x.abs else a) (.zero false)

/-- floor(log2) of a magnitude that is not zero. -/
def floorLog2 (x : Num) : Int :=
  match x with
  | .fin _ m e => log2 m + e
  | _ => 0

/-- A value over 2^q rounded to an integer (R66). -/
def roundInt (mode r : Nat) (x : Num) (q : Int) : Int :=
  match x with
  | .fin s m e => sgn s (roundUp (roundMag mode r s m e q))
  | _ => 0

/-- The `k` even slots of largest magnitude, ties to the lower slot (R61). -/
def topEven (k : Nat) (xs : List Num) (taken : List Nat) : List Nat :=
  match k with
  | 0 => taken
  | k + 1 =>
    let free := (List.range xs.length).filter fun i => i % 2 == 0 && !taken.contains i
    let best := free.foldl (fun (b : Option Nat) i => match b with
      | none => some i
      | some j => if (xs.getD j .nan).abs.lt (xs.getD i .nan).abs then some i else some j) none
    match best with
    | none => taken
    | some i => topEven k xs (taken ++ [i])

/-- A Q4O block as R61 encodes it: its header and one nibble for each slot. -/
def q4oEncode (rd : Rnd) (xs : List Num) (draws : List Nat) : Nat × List Nat :=
  let at_ (i : Nat) : Num := xs.getD i (.zero false)
  let slots := List.range xs.length
  let none4 := slots.map fun _ => 0
  let special (x : Num) : Bool := match x with
    | .nan => true
    | .inf _ => true
    | _ => false
  if xs.any special then (0x00FF, none4)
  else
    let c := topEven 4 xs []
    let rest := maxMag ((slots.filter fun i => !c.contains i).map at_)
    let isZero (x : Num) : Bool := x == .zero false
    let b := if isZero rest then maxMag (c.map at_) else rest
    let c := if isZero rest then [] else c
    if isZero b then (0, none4)
    else
      let es := clampInt (-127) 127 (floorLog2 b - 2)
      let big := c.filter fun i => gtMag (at_ i) 7 es
      let e : Int := if big.isEmpty then 0 else clampInt 1 15 (floorLog2 (maxMag (big.map at_)) - es + 7)
      let out := big.filter fun i => geMag (at_ i) 1 (e - 7 + es)
      let nib (i : Nat) : Nat :=
        let r := draws.getD i 0
        if out.contains i then 8
        else if 0 < i && out.contains (i - 1) then
          let r := draws.getD (i - 1) 0
          let m := match at_ (i - 1) with
            | .fin _ m f =>
              let t := e - 10 + es
              let g := min f t
              roundInt rd.mode r (Num.ofInt ((m * 2 ^ (f - g).toNat : Nat) - (8 * 2 ^ (t - g).toNat : Nat)) g) t
            | _ => 0
          let m := if e < 15 then min m 7 else if 6 < m then (if rd.sat then 6 else 7) else m
          (at_ (i - 1)).neg?.toNat * 8 + m.toNat
        else ((clampInt (-7) 7 (roundInt rd.mode r (at_ i) es)) % 16).toNat
      ((e.toNat * 256) + (es + 127).toNat, slots.map nib)

/-- The two elements of one byte of a Q4O block, and the format flag (R60). An outlier with E of 0 is the
format's subnormal. -/
def q4oByte (header b : Nat) (ftz : Bool) : Num × Num × Bool :=
  let scale := header % 256
  let e := header / 256 % 16
  let lo := b % 16
  let h := b / 16
  let s : Int := (scale : Int) - 127
  let flag := lo != 8 && h == 8
  let plain (n : Nat) : Num := .ofInt (if 8 ≤ n then (n : Int) - 16 else n) s
  if scale = 255 then (.nan, .nan, flag)
  else if lo = 8 then
    let m := h % 8
    let neg := 8 ≤ h
    let v := if e = 15 && m == 7 then .nan
      else if e = 0 then (if ftz then .zero neg else .mk neg m (-9 + s))
      else .fin neg (8 + m) ((e : Int) - 10 + s)
    (v, .zero false, flag)
  else if h = 8 then (plain lo, .zero false, flag)
  else (plain lo, plain h, flag)

/-- CVTN into a Q4O format (R161): blocks across lanes, one header for each. DEDUCED (log entry 17): a lane whose source is
poisoned dies; its block is encoded from the bits that it holds. -/
def IC.cvtnQ4o (x : IC) (o : Ops) (perBlock : Nat) : Eff :=
  let rd := x.rnd
  let src := srcFmt (mfld o.m 54 53)
  let sto := rd.mode == 6
  let states (l : Nat) : List W32 := ((List.range 8).foldl (fun (p : List W32) _ =>
    p ++ [rngNext (p.getLast?.getD (x.g.rng.getD l 0))]) [])
  let block (j : Nat) : Nat × List Nat :=
    let ls := run (perBlock * j) perBlock
    let elems := ls.flatMap fun l => if inMask x.act l then (x.srcElems o 8 l).map (src.dec rd.ftz) else
      List.replicate 8 (.zero false)
    let draws := ls.flatMap fun l => if sto && inMask x.act l then (states l).map drawOf else List.replicate 8 0
    q4oEncode rd elems draws
  let blocks := (List.range (64 / perBlock)).map block
  let laneOut (l : Nat) : W32 × W32 :=
    let b := blocks.getD (l / perBlock) (0, [])
    (BitVec.ofNat 32 (packBits 4 ((b.2.drop (8 * (l % perBlock))).take 8)), BitVec.ofNat 32 b.1)
  let outs := lanes64 laneOut
  let nv := (lanesOf x.act).any fun l => snanFl src (x.srcElems o 8 l)
  { v := [(x.g.opV o.d, outs.map (·.1)), (x.g.opV o.c, outs.map (·.2))]
    gsr := ({ nv := nv } : Fl).bits
    rng := if sto then some (lanes64 fun l => (states l).getLast?.getD 0) else none }

def effCvtn (x : IC) (o : Ops) : Eff :=
  let idx := mfld o.m 52 48
  if idx = 7 then x.cvtnQ4o o 4
  else if idx = 8 then x.cvtnQ4o o 2
  else
    let dst := packFmt idx
    x.lanewise (x.g.opV o.d) 1 (x.rnd.mode == 6) fun l st =>
      let z := narrowAll dst (srcFmt (mfld o.m 54 53)) x.rnd (x.srcElems o (packedCount idx) l) st
      ⟨[BitVec.ofNat 32 (packBits dst.width z.1)], z.2.1, z.2.2⟩

/-- CVTW (R162). DESIGN CHOICE (log entry 68): an element of a Q4O block beyond FP32's largest value, which FP32 cannot hold
exactly, gives a free value and no flag. -/
def effCvtw (x : IC) (o : Ops) : Eff :=
  let idx := mfld o.m 52 48
  let n := packedCount idx
  let f := packFmt idx
  let ftz := x.rnd.ftz
  let out (v : Num) : W32 := BitVec.ofNat 32 (Fmt.f32.enc ⟨0, false, ftz⟩ 0 v).1
  let wide (h b n : Nat) (v : Num) : W32 := if (Fmt.f32.enc ⟨0, false, ftz⟩ 0 v).2.of then Config.wideBeyond h b n else out v
  x.lanewise (x.g.opV o.d) n false fun l st =>
    let a := x.codeA o l
    if 7 ≤ idx then
      let h := x.codeC o l % 65536
      let bs := (List.range 4).map fun k => (a / 256 ^ k % 256, q4oByte h (a / 256 ^ k % 256) ftz)
      ⟨bs.flatMap fun b => [wide h b.1 0 b.2.1, wide h b.1 1 b.2.2.1], { fmt := bs.any (·.2.2.2) }, st⟩
    else
      let cs := (List.range n).map fun i => a / 2 ^ (f.width * i) % 2 ^ f.width
      ⟨cs.map fun c => out (f.dec ftz c), { nv := snanFl f cs }, st⟩

/-! ## Random numbers (R164, R165) -/

def effRng (x : IC) (o : Ops) : Eff :=
  x.lanewise (x.g.opV o.d) 1 true fun _ st =>
    let s := rngNext st
    let f := (Fmt.f32.enc ⟨0, false, false⟩ 0 (Num.mk false (s.toNat / 256) (-24))).1
    ⟨[if mbit o.m 48 then BitVec.ofNat 32 f else s], {}, s⟩

def effSeed (im : Bool) (x : IC) (o : Ops) : Eff :=
  x.lanewise 0 0 true fun l _ =>
    let v : W32 := if im then o.imm.setWidth 32 else x.val32 o.a l
    ⟨[], {}, rngFix (if mbit o.m 48 then v ^^^ BitVec.ofNat 32 l else v)⟩

end Sys2Proof.Machine
end

