-- ==== Sys2Proof/Machine/Special.lean ====
section
/-!
DEFINITION. The special functions (R72 to R74, R163). RCP, RSQ and SQRT are correctly rounded. For EX2, LG2,
SIN, COS and TANH the cases that the spec fixes are computed; elsewhere the result is a free one among those
that the stated bound and the stated monotonicity allow (Config.specialCut, Config.specialChoice).
-/

namespace Sys2Proof.Machine

/-! ## Correctly rounded functions (R72) -/

/-- The integer square root, from bit `k` downward. -/
def isqrtFrom (n : Nat) : Nat → Nat → Nat
  | 0, r => r
  | k + 1, r => isqrtFrom n k (if (r + 2 ^ k) * (r + 2 ^ k) ≤ n then r + 2 ^ k else r)

/-- floor(√n) for n below 2^128. -/
def isqrt (n : Nat) : Nat := isqrtFrom n 64 0

/-- A truncated magnitude over 2^e with its lost bits as one more low bit, so that rounding sees them. -/
def sticky (neg : Bool) (n : Nat) (exact : Bool) (e : Int) : Num := .mk neg (2 * n + (!exact).toNat) (e - 1)

/-- 1/x. -/
def rcpNum (x : Num) : Num :=
  match x with
  | .nan => .nan
  | .inf s => .zero s
  | .zero s => .inf s
  | .fin s m e =>
    let k := log2 m + 40
    sticky s (2 ^ k / m) (2 ^ k % m == 0) (-(k : Int) - e)

/-- m·2^e with an even exponent. -/
def evenExp (m : Nat) (e : Int) : Nat × Int := if e % 2 = 0 then (m, e) else (2 * m, e - 1)

/-- √x, and whether the operand is in error. -/
def sqrtNum (x : Num) : Num × Bool :=
  match x with
  | .nan => (.nan, false)
  | .inf s => if s then (.nan, true) else (.inf false, false)
  | .zero s => (.zero s, false)
  | .fin s m e =>
    if s then (.nan, true)
    else
      let (m, e) := evenExp m e
      let n := m * 2 ^ 64
      let r := isqrt n
      (sticky false r (r * r == n) (e / 2 - 32), false)

/-- 1/√x, and whether the operand is in error. -/
def rsqNum (x : Num) : Num × Bool :=
  match x with
  | .nan => (.nan, false)
  | .inf s => if s then (.nan, true) else (.zero false, false)
  | .zero s => (.inf s, false)
  | .fin s m e =>
    if s then (.nan, true)
    else
      let (m, e) := evenExp m e
      let r := isqrt (2 ^ 100 / m)
      (sticky false r (r * r * m == 2 ^ 100) (-50 - e / 2), false)

/-! ## True values in fixed point -/

/-- π·2^300 and ln 2·2^160, truncated. -/
def piFix : Nat := 0x3243f6a8885a308d313198a2e03707344a4093822299f31d0082efa98ec4e6c89452821e638d
def ln2Fix : Nat := 0xb17217f7d1cf79abc9e3b39803f2f6af40f34326

/-- The fraction bits of the fixed-point values below. -/
def fixBits : Nat := 160

/-- e^y over 2^160 for y over 2^160 with 0 ≤ y < 32: `n` terms of its series from the `i`-th. -/
def expTerms (y : Nat) : Nat → Nat → Nat → Nat
  | 0, _, t => t
  | n + 1, i, t => t + expTerms y n (i + 1) (t * y / (2 ^ fixBits * i))

def expFix (y : Nat) : Nat := expTerms y 160 1 (2 ^ fixBits)

/-- The alternating series whose next term is the last one times y²/((i+1)(i+2)). -/
def trigTerms (y : Nat) : Nat → Nat → Nat → Int
  | 0, _, _ => 0
  | n + 1, i, t => (t : Int) - trigTerms y n (i + 2) (t * y / 2 ^ fixBits * y / (2 ^ fixBits * ((i + 1) * (i + 2))))

/-- sin and cos over 2^160 of an angle over 2^160 from 0 up to 2π. -/
def sinFix (y : Nat) : Int := trigTerms y 40 1 y
def cosFix (y : Nat) : Int := trigTerms y 40 0 (2 ^ fixBits)

/-- The magnitude of a finite operand reduced exactly modulo 2π, over 2^160 (R74). -/
def reduceAngle (m : Nat) (e : Int) : Nat := ((m * 2 ^ (e + 300).toNat) % (2 * piFix)) / 2 ^ 140

/-- `n` bits of log2 of y over 2^200, from 1 up to 2, one squaring for each. -/
def logBits : Nat → Nat → Nat → Nat
  | 0, _, acc => acc
  | n + 1, y, acc =>
    let z := y * y / 2 ^ 200
    if 2 ^ 201 ≤ z then logBits n (z / 2) (2 * acc + 1) else logBits n z (2 * acc)

/-! ## Results within bounds -/

/-- The place of an FP32 encoding that is no NaN in the order of values: 0 for both zeros. -/
def ordOf (c : Nat) : Int := if 2 ^ 31 ≤ c then -((c : Int) - 2 ^ 31) else c

/-- The encoding at a place. -/
def codeAt (o : Int) : Nat := if o < 0 then 2 ^ 31 + o.natAbs else o.natAbs

/-- One of the results from place `lo` to place `hi`, where no monotonicity is stated (R163). -/
def pickResult (op : Nat) (c : Nat) (ftz : Bool) (lo hi : Int) : Int :=
  lo + ((Config.specialChoice op (BitVec.ofNat 32 c) ftz % ((hi - lo).toNat + 1) : Nat) : Int)

/-- A free monotonic function of an operand's place: the `n` bits that follow the bits of `acc`, each a one from some
operand on. -/
def monoBits (op : Nat) (ftz : Bool) (x : Int) : Nat → Nat → Nat
  | 0, acc => acc
  | n + 1, acc => monoBits op ftz x n (2 * acc + (decide (Config.specialCut op ftz n acc ≤ x)).toNat)

/-- One of the results from place `lo` to place `hi` that does not decrease as the operand's place `x` increases, where `lo`
and `hi` do not (R73, R74, R163). -/
def pickMono (op : Nat) (ftz : Bool) (x lo hi : Int) : Int :=
  max lo (min hi ((monoBits op ftz x 32 0 : Int) - 2 ^ 31))

/-- The FP32 value at or below a value, and the one at or above. -/
def floorOrd (x : Num) : Int := ordOf (Fmt.f32.enc ⟨3, false, false⟩ 0 x).1
def ceilOrd (x : Num) : Int := ordOf (Fmt.f32.enc ⟨2, false, false⟩ 0 x).1

/-- A result between the FP32 neighbours of a true value that lies strictly between t and t + 1 over 2^e (R73). -/
def nearResult (op c : Nat) (ftz : Bool) (t e : Int) : Nat :=
  let x := Num.ofInt (2 * t + 1) (e - 1)
  codeAt (pickMono op ftz (ordOf c) (floorOrd x) (ceilOrd x))

/-- The places within 2^-b of a true value over 2^160 that is known to 2^20 units (R74). -/
def withinPlaces (t : Int) (b : Nat) : Int × Int :=
  let d : Int := (2 ^ (fixBits - b) : Nat) - 2 ^ 20
  (ceilOrd (.ofInt (t - d) (-(fixBits : Int))), floorOrd (.ofInt (t + d) (-(fixBits : Int))))

/-- The encoding at a place of SIN or COS: the sign of a zero is not stated. -/
def trigAt (op c : Nat) (ftz : Bool) (o : Int) : Nat :=
  if o = 0 then Fmt.f32.code (Config.specialChoice op (BitVec.ofNat 32 c) ftz % 2 == 1) 0 0 else codeAt o

/-- SIN of a finite operand: monotonic from −π/2 to π/2, and there of the operand's sign (R74). -/
def sinResult (ftz : Bool) (c : Nat) (neg : Bool) (m : Nat) (e : Int) : Nat :=
  let y := sinFix (reduceAngle m e)
  let r := withinPlaces (if neg then -y else y) 22
  trigAt 2 c ftz (if 2 * (m * 2 ^ (e + 300).toNat) ≤ piFix then
      (if neg then pickMono 2 ftz (ordOf c) r.1 (min r.2 0) else pickMono 2 ftz (ordOf c) (max r.1 0) r.2)
    else pickResult 2 c ftz r.1 r.2)

/-- COS of a finite operand: falling from 0 to π, and there at most 1 (R74). -/
def cosResult (ftz : Bool) (c : Nat) (neg : Bool) (m : Nat) (e : Int) : Nat :=
  let r := withinPlaces (cosFix (reduceAngle m e)) 22
  trigAt 3 c ftz (if !neg && m * 2 ^ (e + 300).toNat ≤ piFix then
      pickMono 3 ftz (-(ordOf c)) r.1 (min r.2 (ordOf 0x3F800000))
    else pickResult 3 c ftz r.1 r.2)

/-- A subnormal FP32 result becomes zero of its sign under FTZ (R67). -/
def flush (ftz : Bool) (c : Nat) : Nat :=
  if ftz && Fmt.f32.expo c == 0 then Fmt.f32.code (Fmt.f32.sign c) 0 0 else c

/-- EX2 of an operand (R73). -/
def ex2Code (ftz : Bool) (c : Nat) : Nat :=
  match Fmt.f32.dec ftz c with
  | .nan => Fmt.f32.qnan
  | .inf s => if s then 0 else 0x7F800000
  | .zero _ => 0x3F800000
  | .fin s m e =>
    if !s && geMag (.fin false m e) 128 0 then 0x7F800000
    else if s && geMag (.fin false m e) 150 0 then codeAt (pickMono 0 ftz (ordOf c) 0 1)
    else
      -- x over 2^160 as floor and fraction
      let v : Int := sgn s (m * 2 ^ (e + 160).toNat / 2 ^ (-(e + 160)).toNat)
      let n := v / (2 ^ 160 : Nat)
      let f := (v % (2 ^ 160 : Nat)).toNat
      if f = 0 && -160 ≤ e then (Fmt.f32.enc ⟨0, false, false⟩ 0 (.fin false 1 n)).1
      else nearResult 0 c ftz ((expFix (f * ln2Fix / 2 ^ 160) / 2 ^ 40 : Nat) : Int) (n - 120)

/-- LG2 of an operand, and whether it is in error (R73). -/
def lg2Code (ftz : Bool) (c : Nat) : Nat × Bool :=
  match Fmt.f32.dec ftz c with
  | .nan => (Fmt.f32.qnan, false)
  | .inf s => if s then (Fmt.f32.qnan, true) else (0x7F800000, false)
  | .zero _ => (0xFF800000, false)
  | .fin s m e =>
    if s then (Fmt.f32.qnan, true)
    else
      let k := log2 m
      let n : Int := k + e
      if m = 2 ^ k then ((Fmt.f32.enc ⟨0, false, false⟩ 0 (.ofInt n 0)).1, false)
      else
        let t : Int := n * (2 ^ 90 : Nat) + logBits 90 (m * 2 ^ (200 - k)) 0
        (nearResult 1 c ftz t (-90), false)

/-- SIN and COS of an operand, and whether it is in error (R74). -/
def trigCode (isCos ftz : Bool) (c : Nat) : Nat × Bool :=
  match Fmt.f32.dec ftz c with
  | .nan => (Fmt.f32.qnan, false)
  | .inf _ => (Fmt.f32.qnan, true)
  | .zero s => (if isCos then 0x3F800000 else Fmt.f32.code s 0 0, false)
  | .fin s m e =>
    (if isCos then cosResult ftz c s m e else sinResult ftz c s m e, false)

/-- TANH of an operand (R74): an odd, monotonic function of magnitude at most 1; so TANH(±0) is a zero, here of the operand's
sign. -/
def tanhCode (ftz : Bool) (c : Nat) : Nat :=
  let s := Fmt.f32.sign c
  let a := c % 2 ^ 31
  match Fmt.f32.dec ftz a with
  | .nan => Fmt.f32.qnan
  | .inf _ => Fmt.f32.code s 127 0
  | .zero _ => Fmt.f32.code s 0 0
  | x =>
    if geMag x 9 0 then Fmt.f32.code s 127 0
    else
      -- 1 − 2/(e^(2x) + 1) over 2^160
      let t : Int := match x with
        | .fin _ m e =>
          let y := m * 2 ^ (e + 161).toNat / 2 ^ (-(e + 161)).toNat
          (2 ^ fixBits : Nat) - ((2 * 2 ^ (2 * fixBits) / (expFix y + 2 ^ fixBits) : Nat) : Int)
        | _ => 0
      let w := withinPlaces t 23
      let r := codeAt (pickMono 4 ftz (ordOf a) (max w.1 0) (min w.2 (ordOf 0x3F800000)))
      if s then Fmt.f32.flip r else r

/-! ## Instructions -/

/-- A special function in each lane (R163): NV of a signalling NaN or of an operand in error. -/
def IC.special (x : IC) (o : Ops) (f : Bool → Nat → Nat × Bool) : Eff :=
  let ftz := x.rnd.ftz
  x.lane1 o fun l =>
    let c := x.codeA o l
    let r := f ftz c
    (flush ftz r.1, { nv := r.2 || Fmt.f32.snan c })

/-- A correctly rounded function as an operation on encodings. -/
def rounded (f : Num → Num × Bool) (ftz : Bool) (c : Nat) : Nat × Bool :=
  let r := f (Fmt.f32.dec ftz c)
  ((Fmt.f32.enc ⟨0, false, ftz⟩ 0 r.1).1, r.2)

def effRcp (x : IC) (o : Ops) : Eff := x.special o (rounded fun v => (rcpNum v, false))
def effRsq (x : IC) (o : Ops) : Eff := x.special o (rounded rsqNum)
def effSqrt (x : IC) (o : Ops) : Eff := x.special o (rounded sqrtNum)
def effEx2 (x : IC) (o : Ops) : Eff := x.special o fun ftz c => (ex2Code ftz c, false)
def effLg2 (x : IC) (o : Ops) : Eff := x.special o lg2Code
def effSin (x : IC) (o : Ops) : Eff := x.special o (trigCode false)
def effCos (x : IC) (o : Ops) : Eff := x.special o (trigCode true)
def effTanh (x : IC) (o : Ops) : Eff := x.special o fun ftz c => (tanhCode ftz c, false)

end Sys2Proof.Machine
end

