-- ==== Sys2Proof/Machine/CrossLane.lean ====
section
/-!
DEFINITION. The cross-lane instructions of class 1 that read registers alone (R166 to R172), the reductions of
R71, and the meanings of class 1 but for GRED with `.team`.
-/

namespace Sys2Proof.Machine

/-! ## Sources in other lanes (R25, R166) -/

/-- A V register's lane as a cross-lane read finds it: 0 of a dead lane, else the register as it stands. -/
def Group.crossV (g : Group) (r l : Nat) : W32 := if inMask g.dead l then 0 else g.rdV r l

/-- A V register's lane holds poison that a read would consume. -/
def Group.crossPois (g : Group) (r l : Nat) : Bool :=
  !inMask g.dead l && !g.vpoison.isEmpty && smGet false g.vpoison (64 * r + l)

/-- SHFL's source lane (R167). -/
def shflSource (mode m : Nat) (b : W32) (l : Nat) : Nat :=
  let i := l % m
  let base := l - i
  match mode with
  | 0 => base + b.toNat % m
  | 1 =>
    let k := (i : Int) + b.toInt
    if 0 ≤ k && k < m then base + k.toNat else l
  | 2 => base + (((i : Int) + b.toInt) % (m : Int)).toNat
  | _ => base + (i ^^^ b.toNat) % m

def effShfl (im : Bool) (x : IC) (o : Ops) : Eff :=
  let m := 64 >>> mfld o.m 52 50
  let n := if mbit o.m 53 then 2 else 1
  let a := x.g.opV o.a
  let src := lanes64 fun l => shflSource (mfld o.m 49 48) m (x.valB32 im o l) l
  let of (l : Nat) : Nat := src.getD l l
  { v := (List.range n).map fun i => (x.g.opV o.d + i, lanes64 fun l => x.g.crossV (a + i) (of l))
    gsr := ({ dlr := (lanesOf x.act).any fun l => inMask x.g.dead (of l) } : Fl).bits
    die := maskOf fun l => inMask x.act l && (List.range n).any fun i => x.g.crossPois (a + i) (of l) }

/-- The active lanes whose source predicate bit is 1 (R168). -/
def IC.voteMask (x : IC) (o : Ops) : Mask := x.act &&& x.g.pred (opNum o.a)

/-- The lowest lane of a mask, 64 when it has none (R168). -/
def lowestLane (m : Mask) : Nat := ctzV 64 m

/-- The truth value in all 64 bits. -/
def allBits (b : Bool) : Mask := if b then -1 else 0

def effVote (x : IC) (o : Ops) : Eff :=
  let m := x.voteMask o
  let a := x.g.opV o.a
  let acts := lanesOf x.act
  let same := acts.all fun l => x.g.rdV a l == x.g.rdV a (acts.headD 0)
  match mfld o.m 50 48 with
  | 0 => { p := [(opNum o.d, -1, allBits (m == x.act))] }
  | 1 => { p := [(opNum o.d, -1, allBits (m != 0))] }
  | 2 => { p := [(opNum o.d, -1, allBits same)]
           die := if acts.any (x.g.crossPois a) then x.act else 0 }
  | 3 => match o.d with
    | .s n => { s := [(n.toNat, m)] }
    | _ => { p := [(opNum o.d, -1, m)] }
  | 4 => { s := [(opNum o.d, BitVec.ofNat 64 (popcV 64 m))] }
  | _ => { s := [(opNum o.d, BitVec.ofNat 64 (lowestLane m))] }

/-! ## Reductions (R71, R169) -/

/-- The identity of an operation (R71), of 32 or 64 bits. -/
def redIdentity (rop : Nat) (b64 : Bool) : W64 :=
  let w := widthOf b64
  match rop with
  | 1 => 0x80000000
  | 2 => BitVec.ofNat 64 (2 ^ (w - 1) - 1)
  | 3 => BitVec.ofNat 64 (2 ^ (w - 1))
  | 4 => BitVec.ofNat 64 (2 ^ w - 1)
  | 6 => 0x7F800000
  | 7 => 0xFF800000
  | 8 => BitVec.ofNat 64 (2 ^ w - 1)
  | _ => 0

/-- One stage's operation on two values (R71, R169). -/
def redOp (rop : Nat) (b64 : Bool) (rd : Rnd) (a b : W64) : W64 × Fl :=
  let flt (r : Nat × Fl) : W64 × Fl := (BitVec.ofNat 64 r.1, r.2)
  match rop with
  | 0 => (if b64 then a + b else ((a + b).setWidth 32).setWidth 64, {})
  | 1 => flt (fltAdd .f32 rd.wide 0 a.toNat b.toNat)
  | 2 => (iminV b64 true a b, {})
  | 3 => (imaxV b64 true a b, {})
  | 4 => (iminV b64 false a b, {})
  | 5 => (imaxV b64 false a b, {})
  | 6 => flt (fltMinMax false rd.ftz a.toNat b.toNat)
  | 7 => flt (fltMinMax true rd.ftz a.toNat b.toNat)
  | 8 => (a &&& b, {})
  | 9 => (a ||| b, {})
  | _ => (a ^^^ b, {})

/-- One stage over a list of values at an xor distance (R71). -/
def redStage (op : W64 → W64 → W64 × Fl) (d : Nat) (p : List W64 × Fl) : List W64 × Fl :=
  let rs := (List.range p.1.length).map fun l => op (p.1.getD (min l (l ^^^ d)) 0) (p.1.getD (max l (l ^^^ d)) 0)
  (rs.map (·.1), rs.foldl (fun f r => f.or r.2) p.2)

/-- The stages at distances 1, 2, 4, … (R71). -/
def redStages (op : W64 → W64 → W64 × Fl) (stages : Nat) (vals : List W64) : List W64 × Fl :=
  (List.range stages).foldl (fun p n => redStage op (2 ^ n) p) (vals, {})

/-- QRED and GRED (R169): `stages` is 2 for a quad and 6 for the group. -/
def IC.reduce (x : IC) (o : Ops) (stages : Nat) : Eff :=
  let rop := mfld o.m 51 48
  let b64 := mbit o.m 53
  let a := x.g.opV o.a
  let n := if b64 then 2 else 1
  let vals := lanes64 fun l => if inMask x.act l then x.val o.a b64 l else redIdentity rop b64
  let r := redStages (redOp rop b64 x.rnd) stages vals
  let pois (l : Nat) : Bool := inMask x.act l && (List.range n).any fun i => x.g.crossPois (a + i) l
  let span := 2 ^ stages
  let bad : Nat → Bool := fun l => x.g.vpoison.isEmpty == false && (run (l / span * span) span).any pois
  { v := (List.range n).map fun i => (x.g.opV o.d + i, r.1.map fun (v : W64) => v.extractLsb' (32 * i) 32)
    gsr := r.2.bits
    die := maskOf fun l => inMask x.act l && bad l }

def effQred (x : IC) (o : Ops) : Eff := x.reduce o 2
def effGred (x : IC) (o : Ops) : Eff := x.reduce o 6

/-- GSHUF (R171): element e of the window is lane e mod 64 of its register e/64. -/
def effGshuf (x : IC) (o : Ops) : Eff :=
  let n := mfld o.m 53 48 + 1
  let a := x.g.opV o.a
  let idx := lanes64 fun l => (x.val32 o.b l).toNat
  let inside (l : Nat) : Bool := inMask x.act l && idx.getD l 0 < 64 * n
  let at_ {α : Type} (f : Nat → Nat → α) (l : Nat) : α := f (a + idx.getD l 0 / 64) (idx.getD l 0 % 64)
  { v := [(x.g.opV o.d, lanes64 fun l => if inside l then at_ x.g.crossV l else 0)]
    gsr := ({ dlr := (lanesOf x.act).any fun l => inside l && inMask x.g.dead (idx.getD l 0 % 64) } : Fl).bits
    die := maskOf fun l => inside l && at_ x.g.crossPois l }

/-- BCAST (R172). -/
def effBcast (x : IC) (o : Ops) : Eff :=
  let k := match o.b with
    | .s n => (x.g.rdS n.toNat).toNat % 64
    | _ => mfld o.m 53 48
  let a := x.g.opV o.a
  if x.g.crossPois a k then { die := x.act }
  else match o.d with
    | .s n => { s := [(n.toNat, (x.g.crossV a k).setWidth 64)] }
    | _ => x.dest32 o fun _ => x.g.crossV a k

/-! ## Meanings -/

/-- FADD (R152). -/
def execFadd (o : Ops) (s : State) : Out := issueAlu .fadd .w64 (effFadd false) o s

/-- FADD with IMM32 (R152, R148). -/
def execFaddImm (o : Ops) (s : State) : Out := issueAlu .fadd .w96 (effFadd true) o s

/-- FSUB (R152). -/
def execFsub (o : Ops) (s : State) : Out := issueAlu .fsub .w64 (effFsub false) o s

/-- FSUB with IMM32 (R152, R148). -/
def execFsubImm (o : Ops) (s : State) : Out := issueAlu .fsub .w96 (effFsub true) o s

/-- FMUL (R152). -/
def execFmul (o : Ops) (s : State) : Out := issueAlu .fmul .w64 (effFmul false) o s

/-- FMUL with IMM32 (R152, R148). -/
def execFmulImm (o : Ops) (s : State) : Out := issueAlu .fmul .w96 (effFmul true) o s

/-- FFMA (R152). -/
def execFfma (o : Ops) (s : State) : Out := issueAlu .ffma .w64 (effFfma false) o s

/-- FFMA with IMM32 (R152, R148). -/
def execFfmaImm (o : Ops) (s : State) : Out := issueAlu .ffma .w96 (effFfma true) o s

/-- FMIN (R153). -/
def execFmin (o : Ops) (s : State) : Out := issueAlu .fmin .w64 (effFmin false) o s

/-- FMIN with IMM32 (R153, R148). -/
def execFminImm (o : Ops) (s : State) : Out := issueAlu .fmin .w96 (effFmin true) o s

/-- FMAX (R153). -/
def execFmax (o : Ops) (s : State) : Out := issueAlu .fmax .w64 (effFmax false) o s

/-- FMAX with IMM32 (R153, R148). -/
def execFmaxImm (o : Ops) (s : State) : Out := issueAlu .fmax .w96 (effFmax true) o s

/-- FCMP (R154). -/
def execFcmp (o : Ops) (s : State) : Out := issueAlu .fcmp .w64 (effFcmp false) o s

/-- FCMP with IMM32 (R154, R148). -/
def execFcmpImm (o : Ops) (s : State) : Out := issueAlu .fcmp .w96 (effFcmp true) o s

/-- FCLASS (R155). -/
def execFclass (o : Ops) (s : State) : Out := issueAlu .fclass .w64 effFclass o s

/-- FRND (R156). -/
def execFrnd (o : Ops) (s : State) : Out := issueAlu .frnd .w64 effFrnd o s

/-- FSCALE (R152). -/
def execFscale (o : Ops) (s : State) : Out := issueAlu .fscale .w64 (effFscale false) o s

/-- FSCALE with IMM32 (R152, R148). -/
def execFscaleImm (o : Ops) (s : State) : Out := issueAlu .fscale .w96 (effFscale true) o s

/-- HADD2 (R157). -/
def execHadd2 (o : Ops) (s : State) : Out := issueAlu .hadd2 .w64 (effHadd2 false) o s

/-- HADD2 with IMM32 (R157, R148). -/
def execHadd2Imm (o : Ops) (s : State) : Out := issueAlu .hadd2 .w96 (effHadd2 true) o s

/-- HMUL2 (R157). -/
def execHmul2 (o : Ops) (s : State) : Out := issueAlu .hmul2 .w64 (effHmul2 false) o s

/-- HMUL2 with IMM32 (R157, R148). -/
def execHmul2Imm (o : Ops) (s : State) : Out := issueAlu .hmul2 .w96 (effHmul2 true) o s

/-- HFMA2 (R157). -/
def execHfma2 (o : Ops) (s : State) : Out := issueAlu .hfma2 .w64 (effHfma2 false) o s

/-- HFMA2 with IMM32 (R157, R148). -/
def execHfma2Imm (o : Ops) (s : State) : Out := issueAlu .hfma2 .w96 (effHfma2 true) o s

/-- CVTI (R158). -/
def execCvti (o : Ops) (s : State) : Out := issueAlu .cvti .w64 effCvti o s

/-- CVTF (R159). -/
def execCvtf (o : Ops) (s : State) : Out := issueAlu .cvtf .w64 effCvtf o s

/-- CVTN (R160, R161). -/
def execCvtn (o : Ops) (s : State) : Out := issueAlu .cvtn .w64 effCvtn o s

/-- CVTW (R162). -/
def execCvtw (o : Ops) (s : State) : Out := issueAlu .cvtw .w64 effCvtw o s

/-- RCP (R72). -/
def execRcp (o : Ops) (s : State) : Out := issueAlu .rcp .w64 effRcp o s

/-- RSQ (R72). -/
def execRsq (o : Ops) (s : State) : Out := issueAlu .rsq .w64 effRsq o s

/-- SQRT (R72). -/
def execSqrt (o : Ops) (s : State) : Out := issueAlu .sqrt .w64 effSqrt o s

/-- EX2 (R73). -/
def execEx2 (o : Ops) (s : State) : Out := issueAlu .ex2 .w64 effEx2 o s

/-- LG2 (R73). -/
def execLg2 (o : Ops) (s : State) : Out := issueAlu .lg2 .w64 effLg2 o s

/-- SIN (R74). -/
def execSin (o : Ops) (s : State) : Out := issueAlu .sin .w64 effSin o s

/-- COS (R74). -/
def execCos (o : Ops) (s : State) : Out := issueAlu .cos .w64 effCos o s

/-- TANH (R74). -/
def execTanh (o : Ops) (s : State) : Out := issueAlu .tanh .w64 effTanh o s

/-- RNG (R164). -/
def execRng (o : Ops) (s : State) : Out := issueAlu .rng .w64 effRng o s

/-- SEED (R165). -/
def execSeed (o : Ops) (s : State) : Out := issueAlu .seed .w64 (effSeed false) o s

/-- SEED with IMM32 (R165, R148). -/
def execSeedImm (o : Ops) (s : State) : Out := issueAlu .seed .w96 (effSeed true) o s

/-- SHFL (R167). -/
def execShfl (o : Ops) (s : State) : Out := issueAlu .shfl .w64 (effShfl false) o s

/-- SHFL with IMM32 (R167, R148). -/
def execShflImm (o : Ops) (s : State) : Out := issueAlu .shfl .w96 (effShfl true) o s

/-- VOTE (R168). -/
def execVote (o : Ops) (s : State) : Out := issueAlu .vote .w64 effVote o s

/-- QRED (R169). -/
def execQred (o : Ops) (s : State) : Out := issueAlu .qred .w64 effQred o s

/-- GRED (R169). -/
def execGred (o : Ops) (s : State) : Out := issueAlu .gred .w64 effGred o s

/-- GSHUF (R171). -/
def execGshuf (o : Ops) (s : State) : Out := issueAlu .gshuf .w64 effGshuf o s

/-- BCAST (R172). -/
def execBcast (o : Ops) (s : State) : Out := issueAlu .bcast .w64 effBcast o s

/-! ## Pair words (R106, R107) -/

/-- The effects of a half of a pair word: the opcodes of classes 0 and 1 that R106 allows in one. -/
def effHalf (h : Half) : IC → Ops → Eff :=
  match h.op with
  | .mov => effMov
  | .iadd => effIadd false
  | .isub => effIsub false
  | .iaddc => effIaddc false
  | .isubb => effIsubb false
  | .iadds => effIadds false
  | .imul => effImul false
  | .imulh => effImulh false
  | .imad => effImad false
  | .imadw => effImadw false
  | .imin => effImin false
  | .imax => effImax false
  | .iabs => effIabs
  | .ineg => effIneg
  | .icmp => effIcmp false
  | .isel => effIsel false
  | .shl => effShl false
  | .shr => effShr false
  | .sar => effSar false
  | .rotl => effRotl false
  | .andL => effAnd false
  | .orL => effOr false
  | .xorL => effXor false
  | .andn => effAndn false
  | .notL => effNot
  | .bmux => effBmux false
  | .popc => effPopc
  | .clz => effClz
  | .ctz => effCtz
  | .brev => effBrev
  | .bfx => effBfx false
  | .bfi => effBfi false
  | .idot4 => effIdot4
  | .lea => effLea false
  | .fadd => effFadd false
  | .fsub => effFsub false
  | .fmul => effFmul false
  | .ffma => effFfma false
  | .fmin => effFmin false
  | .fmax => effFmax false
  | .fcmp => effFcmp false
  | .fclass => effFclass
  | .frnd => effFrnd
  | .fscale => effFscale false
  | .hadd2 => effHadd2 false
  | .hmul2 => effHmul2 false
  | .hfma2 => effHfma2 false
  | .cvti => effCvti
  | .cvtf => effCvtf
  | .cvtn => effCvtn
  | .cvtw => effCvtw
  | .rcp => effRcp
  | .rsq => effRsq
  | .sqrt => effSqrt
  | .ex2 => effEx2
  | .lg2 => effLg2
  | .sin => effSin
  | .cos => effCos
  | .tanh => effTanh
  | _ => fun _ _ => {}

/-- A pair word (R107): both halves read the state before it, each with its own guard, and both write. It makes
one bounds check, one legality check and one step of the split. -/
def execPairWord (h0 h1 : Half) (s : State) : Out :=
  match s.ic h0.o.g, s.ic h1.o.g with
  | some x0, some x1 =>
    let f0 := x0.g.foot h0.op .w64 h0.o
    let f1 := x0.g.foot h1.op .w64 h1.o
    match x0.preparePair x1 f0 f1 with
    | .stop r => r
    | .go g =>
      let die := (effHalf h0 x0 h0.o).die ||| x0.g.poisonedLanes f0.rv x0.act
        ||| (effHalf h1 x1 h1.o).die ||| x0.g.poisonedLanes f1.rv x1.act
      let g := g.commit x0.act (x0.dying (effHalf h0) h0.o die)
      x0.retire (g.commit x1.act (x1.dying (effHalf h1) h1.o die)) die
  | _, _ => .fault .noIssuingSplit

end Sys2Proof.Machine
end

