-- ==== Sys2Proof/Machine/Mem.lean ====
section
/-!
DEFINITION. Memory as an instruction reaches it: lane addresses and protection (R240), the translation of the
bytes of an access, reads through the region store buffer, the core's outbound lines and its L1 (R44, R205),
stores into the buffer (R243), and the draining of outbound lines (R221, R375).
-/

namespace Sys2Proof.Machine

/-! ## Addresses and protection (R240) -/

/-- The issuing group's team. -/
def IC.team (x : IC) : Option Team := x.s.team? x.g.team

/-- A team's scratch reservation in bytes, its place in the core, and its use of typed buffers (R202, R204). -/
def scratchSize (t : Option Team) : Nat := ((t.map fun t => t.shape.scratch).getD 0) * 1024
def scratchBase (t : Option Team) : Nat :=
  match t with
  | some t => match t.place with
    | .placed _ base => base
    | _ => 0
  | none => 0
def usesBufs (t : Option Team) : Bool := (t.map fun t => t.shape.tbuf).getD false

/-- The base of a lane's address: all 64 bits in `g:`, 32 bits in the other spaces (R240). -/
def IC.addrBase (x : IC) (o : Opd) (g : Bool) (l : Nat) : Int :=
  if g then ((x.val o true l).toNat : Int) else (x.val o false l).toNat

/-- The signed offset of an access (R240). -/
def offsetOf (o : Ops) : Int := (o.imm.setWidth 32).toInt

/-- addr[L] of the lane accesses with a base and an offset (R240). -/
def IC.laneAddr (x : IC) (o : Ops) (sp : Space) (n l : Nat) : Int :=
  x.addrBase o.a (sp == .g) l + offsetOf o + (if mbit o.m 63 then (n * l : Nat) else 0)

/-- addr[L] of a gather or scatter (R245). -/
def IC.indexAddr (x : IC) (o : Ops) (sp : Space) (l : Nat) : Int :=
  x.addrBase o.a (sp == .g) l + ((x.val32 o.b l).toNat * 2 ^ mfld o.m 61 60 : Nat)

/-- Bytes at an address of a space that the group may reach (R208, R240). DEDUCED (log entry 78): of a `g:` access no byte
lies at 2^57 or above, though R240 names its address alone. -/
def inSpace (t : Option Team) (sp : Space) (a : Int) (n : Nat) : Bool :=
  match sp with
  | .g => 0 ≤ a && a + n ≤ (Config.virtEnd : Nat)
  | .l => 0 ≤ a && a + n ≤ (scratchSize t : Nat)
  | sp => usesBufs t && 0 ≤ a && a + n ≤ (bufSize sp : Nat)

/-- Where a byte of a space other than `g:` lies in its core's bank (R202). -/
def bankPlace (t : Option Team) (sp : Space) (a : Nat) : Nat := if sp = .l then scratchBase t + a else a

/-- The first lane whose address breaks R240, with its address. -/
def firstOutside (t : Option Team) (sp : Space) (n : Nat) (lanes : List (Nat × Int)) : Option Int :=
  (lanes.find? fun p => !inSpace t sp p.2 n).map (·.2)

/-- An address as a DETAIL0 (R447). -/
def addrDetail (a : Int) : Nat := (BitVec.ofInt 64 a).toNat

/-! ## Translation of accesses -/

/-- One address for each line that an access touches, and so for each page. -/
def lineVas (va n : Nat) : List Nat := va :: (run (va / 128 + 1) ((va + n - 1) / 128 - va / 128)).map (128 * ·)

/-- The outcome of the translations that one access needs. -/
inductive Span where
  | ok (pas : List Nat)
  | wait
  | faulted (recs : List (Nat × Nat))
  deriving DecidableEq, Repr

/-- The translation of the bytes of an access (R208): the physical address of each, or what it waits on. -/
def State.reachable (s : State) (r : Req) (va n : Nat) : Span :=
  let trs := s.translateAll r (lineVas va n)
  if trs.any fun p => (match p.2 with
    | .miss => true
    | .denied _ => true
    | .outside => true
    | _ => false) then .wait
  else
    let recs := trs.filterMap fun p => match p.2 with
      | .recorded seq => some (seq, p.1)
      | _ => none
    if recs.isEmpty then
      .ok ((List.range n).map fun i =>
        match trs.find? fun p => p.1 / 4096 == (va + i) / 4096 with
        | some (v, .ok pa) => pa + (va + i - v)
        | _ => 0)
    else .faulted recs

/-- Translate the bytes of an access (R208); its lines have to be held under its leaf's key (R211). -/
def State.span (s : State) (r : Req) (va n : Nat) : Span :=
  if (s.misKeyed r (lineVas va n)).isEmpty then s.reachable r va n else .wait

/-- What the lanes of one instruction find: a translation still to be made, or the lanes that translated and
the records that the others wait on, in lane order (R432). -/
inductive Spans where
  | wait
  | done (ok : List (Nat × List Nat)) (bad : List Nat) (recs : List (Nat × Nat))
  deriving DecidableEq, Repr

/-- Translate the accesses of the lanes of one instruction, whose lines have to be held under their leaves' keys. -/
def State.spans (s : State) (r : Req) (n : Nat) (lanes : List (Nat × Nat)) : Spans :=
  let rs := lanes.map fun p => (p.1, s.reachable r p.2 n)
  if (rs.any fun p => p.2 == .wait) || !(s.misKeyed r (lanes.flatMap fun p => lineVas p.2 n)).isEmpty then .wait
  else .done
    (rs.filterMap fun p => match p.2 with
      | .ok pas => some (p.1, pas)
      | _ => none)
    (rs.filterMap fun p => match p.2 with
      | .faulted _ => some p.1
      | _ => none)
    (rs.flatMap fun p => match p.2 with
      | .faulted recs => recs
      | _ => [])

/-- The walks and records that the lanes' accesses need are set going (R213, R214). -/
def State.seekLanes (s : State) (r : Req) (n : Nat) (lanes : List (Nat × Nat)) : State :=
  s.seekAll r (lanes.flatMap fun p => lineVas p.2 n)

/-! ## Reading -/

/-- One line of `g:` as a load of a core finds it (R205): from a copy that the L1 holds, which may be stale, or
from its home, with the core's own lines on their way to it (R218), which then fills the L1. Which of the two is free. Bytes
not accessed intrude on no tenure. -/
def State.loadLine (s : State) (gid core line : Nat) (pas : List Nat) : State × List (Byte × Bool) :=
  let held := smFind (s.core core).l1 line
  let (served, s) := match held with
    | some _ => s.draw
    | none => (false, s)
  match held, served with
  | some bs, true => (s, bs.map fun b => (b, false))
  | _, _ =>
    let s := ((s.intrude (some gid) pas false).fillL2 [128 * line]).copyLines gid [line]
    let bs := overlay (s.core core).outbound line (s.memRead (128 * line) 128)
    (if bs.all (!·.2) then s.fillL1 core line (bs.map (·.1))
      else s.setCore core { s.core core with l1 := smDel (s.core core).l1 line }, bs)

/-- The lines that bytes lie in. -/
def linesOf (pas : List Nat) : List Nat := (pas.map (· / 128)).eraseDups

/-- A group's access to bytes at their home waits: for its core's own lines there, or for the recall of a tenure (R325). -/
def State.homeHeld (s : State) (gid core : Nat) (pas : List Nat) : Bool :=
  s.drainHeld core (onLines (linesOf pas)) || s.intrudeWaits (some gid) pas

/-- Every `g:` line of an instruction's bytes, loaded. -/
def State.loadLines (s : State) (gid core : Nat) (pas : List Nat) : State × List (Nat × List (Byte × Bool)) :=
  (linesOf pas).foldl (fun p line =>
    let r := p.1.loadLine gid core line (pas.filter (· / 128 == line))
    (r.1, p.2 ++ [(line, r.2)])) (s, [])

/-- A byte as a reader finds it: the buffered one where its tag is the reader's lane or group-wide, else the
one below (R44). -/
def seeByte (buf : List BufLine) (sp : Space) (who : Option Nat) (at_ : Nat) (below : Byte × Bool) : Byte × Bool :=
  match bufByte buf sp (at_ / 128) (at_ % 128) with
  | some b => if b.tag = none || b.tag == who then (b.val, b.pois) else below
  | none => below

/-- The bytes of each reader's places: `g:` through the lines loaded, other spaces in the core's banks. -/
def State.readPlaces (s : State) (gid core : Nat) (buf : List BufLine) (sp : Space)
    (reads : List (Option Nat × List Nat)) : State × List (List (Byte × Bool)) :=
  if sp = .g then
    let r := s.loadLines gid core (reads.flatMap (·.2))
    (r.1, reads.map fun p => p.2.map fun pa =>
      let line := ((r.2.find? fun (q : Nat × List (Byte × Bool)) => q.1 == pa / 128).map (·.2)).getD []
      seeByte buf sp p.1 pa (line.getD (pa % 128) (0, false)))
  else
    let b := (s.core core).bank sp
    (s, reads.map fun p => p.2.map fun at_ => seeByte buf sp p.1 at_ (bankByte b at_, bankPoison b at_))

/-- The V registers of a loaded value (R238): whole words, or one word extended. -/
def vWords (n : Nat) (sx : Bool) (bs : List Byte) : List W32 :=
  let v := leNat bs
  match n with
  | 1 => [if sx then (BitVec.ofNat 8 v).signExtend 32 else BitVec.ofNat 32 v]
  | 2 => [if sx then (BitVec.ofNat 16 v).signExtend 32 else BitVec.ofNat 32 v]
  | n => (List.range (n / 4)).map fun k => BitVec.ofNat 32 (v >>> (32 * k))

/-- The S registers of a loaded value (R238). -/
def sWords (n : Nat) (sx : Bool) (bs : List Byte) : List W64 :=
  let v := leNat bs
  match n with
  | 1 => [if sx then (BitVec.ofNat 8 v).signExtend 64 else BitVec.ofNat 64 v]
  | 2 => [if sx then (BitVec.ofNat 16 v).signExtend 64 else BitVec.ofNat 64 v]
  | 4 => [BitVec.ofNat 64 v]
  | n => (List.range (n / 8)).map fun k => BitVec.ofNat 64 (v >>> (64 * k))

/-! ## The L1 and acquires (R218, R221) -/

/-- L1 copies of lines are dropped, so that no later load of the core goes back behind an access that has read or
written them at the home (R218). -/
def State.dropL1 (s : State) (core : Nat) (lines : List Nat) : State :=
  let c := s.core core
  if c.l1.isEmpty then s else s.setCore core { c with l1 := c.l1.filter fun kv => !lines.contains kv.1 }

/-- An acquire at cluster scope or wider empties the core's L1 (R221, R224). -/
def State.emptyL1 (s : State) (core : Nat) : State := s.setCore core { s.core core with l1 := [] }

/-! ## Loads in flight (R117, R241, R374) -/

/-- A group's load is in flight: its registers are scoreboarded until it lands, and it counts in CNT.LD. -/
def State.postLoad (s : State) (gid : Nat) (regs sregs kregs : List Nat) (writes : List RegWrite) : State :=
  let s := s.modGroup gid fun g => { g with
    cntLd := g.cntLd + 1
    pending := g.pending ++ [⟨s.nextId, true, regs, sregs, kregs, writes⟩] }
  { s with nextId := s.nextId + 1 }

/-- The same for a load by lanes: where all of them have died as it issued, nothing is left to land, and it counts no more
(R374). -/
def State.postLive (s : State) (gid : Nat) (regs : List Nat) (writes : List RegWrite) (died : Mask) : State :=
  if writes.isEmpty && died != 0 then s else s.postLoad gid regs [] [] writes

/-- The same for a boundary that loads, of which no lane is left to act: nothing is to land, and it counts no more (R374). -/
def State.postActive (s : State) (gid : Nat) (regs : List Nat) (writes : List RegWrite) (act died : Mask) : State :=
  if act = 0 then s else s.postLive gid regs writes died

/-- One more class 3 instruction of a group has issued; the 64th after its LR ends its reservations (R249). -/
def State.countClass3 (s : State) (gid : Nat) : State :=
  match s.group? gid with
  | none => s
  | some g =>
    if 64 ≤ g.lrCount then s
    else
      let s := s.setGroup gid { g with lrCount := g.lrCount + 1 }
      if g.lrCount = 63 then { s with reservations := s.reservations.filter (·.gid != gid) } else s

/-! ## The issue of loads and stores -/

/-- The size of an access in bytes and SX (R237, R238). -/
def accSize (o : Ops) : Nat := szBytes (mfld o.m 52 50)
def accSx (o : Ops) : Bool := mbit o.m 53

/-- The space that SPC names (R237). -/
def accSpace (o : Ops) : Space := spaceOf (mfld o.m 59 57)

/-- What a lane load has found of its addresses: a stop, or the lanes whose bytes are known, with their places,
the lanes that faulted, and the records that they wait on. -/
inductive Reach where
  | stop (o : Out)
  | go (ok : List (Nat × List Nat)) (bad : List Nat) (recs : List (Nat × Nat))
  deriving Repr

/-- A byte of a space still waits for a DRAIN's data (R272). -/
def Group.awaits (g : Group) (sp : Space) (places : List Nat) : Bool :=
  (g.buf.any BufLine.waits || !g.late.isEmpty) && places.any fun a =>
    (match bufByte g.buf sp (a / 128) (a % 128) with
      | some b => b.wait.isSome
      | none => false) || hasLine g.late sp (a / 128)

/-- Protection, then translation of the lanes of an instruction (R241); a load of a byte that a DRAIN has still to
write waits for it (R272), and one that recalls a tenure for the recall (R325). -/
def IC.reach (x : IC) (sp : Space) (n : Nat) (kind : AccKind) (wr : Bool) (lanes : List (Nat × Int)) : Reach :=
  let t := x.team
  match firstOutside t sp n lanes with
  | some a => .stop (x.fault 0x06 (addrDetail a) (spaceCode sp))
  | none =>
    if sp = .g then
      let rq := x.g.req x.cu.gid kind wr
      let vas := lanes.map fun p => (p.1, p.2.toNat)
      match x.s.spans rq n vas with
      | .wait => .stop (.next (x.s.seekLanes rq n vas))
      | .done ok bad recs =>
        let pas := ok.flatMap (·.2)
        if wr then .go ok bad recs
        else if x.g.awaits sp pas then .stop x.stall
        else if x.s.intrudeWaits (some x.cu.gid) pas then .stop (.next (x.s.callBack (some x.cu.gid) pas))
        else .go ok bad recs
    else
      let ok := lanes.map fun p => (p.1, run (bankPlace t sp p.2.toNat) n)
      if !wr && x.g.awaits sp (ok.flatMap (·.2)) then .stop x.stall else .go ok [] []

/-- The V writes of lanes that have read their bytes (R238, R241). -/
def loadWrites (r n : Nat) (sx : Bool) (got : List (Nat × List (Byte × Bool))) : List RegWrite :=
  got.flatMap fun p => (vWords n sx (p.2.map (·.1))).zipIdx.map fun w => .v (r + w.2) p.1 w.1

/-- The number of V registers of an access. -/
def vRegs (n : Nat) : Nat := (n + 3) / 4

/-- The lanes that read these places, their bytes, and the lanes among them that read poison. -/
def IC.readLanes (x : IC) (s : State) (sp : Space) (ok : List (Nat × List Nat)) :
    State × List (Nat × List (Byte × Bool)) × Mask :=
  let r := s.readPlaces x.cu.gid x.g.core x.g.buf sp (ok.map fun p => (some p.1, p.2))
  let got := (ok.map (·.1)).zip r.2
  let bad := got.filter fun p => p.2.any (·.2)
  (r.1, got.filter fun p => !(p.2.any (·.2)), maskOf fun l => bad.any fun p => p.1 == l)

/-- LD, LDL and LDB (R242). On a translation fault of some lanes the others load, and the region is discarded. -/
def issueLaneLoad (op : Op) (len : Len) (sp : Ops → Space) (o : Ops) (s : State) : Out :=
  issueWith op len (fun x o f g =>
    if 63 ≤ g.cntLd then x.stall
    else
      let n := accSize o
      let die := x.g.poisonedLanes f.rv x.act
      let lanes := (lanesOf (x.act &&& ~~~die)).map fun l => (l, x.laneAddr o (sp o) n l)
      match x.reach (sp o) n .load false lanes with
      | .stop r => r
      | .go ok _ recs =>
        let rd := x.readLanes (x.s.setGroup x.cu.gid g) (sp o) ok
        let d := x.g.opV o.d
        let s := (rd.1.postLive x.cu.gid (run d (vRegs n)) (loadWrites d n (accSx o) rd.2.1) (die ||| rd.2.2)).countClass3 x.cu.gid
        if recs.isEmpty then
          ({ x with s := s } : IC).retire ((s.group? x.cu.gid).getD g) (die ||| rd.2.2)
        else .next ((s.killLanes x.cu.gid (die ||| rd.2.2)).translationFault x.cu.gid recs x.cu.pc x.act)) o s

/-- The bytes that a lane's store places: the low n bytes of the data run (R243). -/
def IC.storeBytes (x : IC) (o : Ops) (n l : Nat) : List Byte :=
  let d := x.g.opV o.d
  ((List.range (vRegs n)).flatMap fun i => leBytes 4 (x.g.rdV (d + i) l).toNat).take n

/-- Put a store's bytes of an access path into the region store buffer, or fault (R44, R45): `starts` gives each byte's store
its address, and `class3` says that the store counts for R249. -/
def IC.intoBuffer (x : IC) (g : Group) (sp : Space) (path : Nat) (class3 : Bool) (bs : List StByte) (starts : StByte → Nat)
    (die : Mask) : Out :=
  match storeConflict g.buf sp bs with
  | some a => x.fault 0x04 a 2
  | none => match overCapacity g.buf sp bs with
    | some a =>
      let start := ((bs.find? fun b => b.va == a).map starts).getD a
      x.fault 0x05 start 64
    | none =>
      let s := if class3 then x.s.countClass3 x.cu.gid else x.s
      let lr := ((s.group? x.cu.gid).map fun g => g.lrCount).getD 64
      ({ x with s := s } : IC).retire { g with buf := placeStore g.buf sp path bs, lrCount := lr } die

/-- ST, STL, STB and STX (R243, R246): lanes in ascending order; a scatter is on the gather path (R223). -/
def issueLaneStore (op : Op) (len : Len) (sp : Ops → Space) (kind : AccKind) (addr : IC → Ops → Nat → Int)
    (o : Ops) (s : State) : Out :=
  issueWith op len (fun x o f g =>
    let n := accSize o
    let die := x.g.poisonedLanes f.rv x.act
    let lanes := (lanesOf (x.act &&& ~~~die)).map fun l => (l, addr x o l)
    match x.reach (sp o) n kind true lanes with
    | .stop r => r
    | .go ok _ recs =>
      if recs.isEmpty then
        let va (l : Nat) : Nat := ((lanes.find? fun p => p.1 == l).map fun p => p.2.toNat).getD 0
        let bs := ok.flatMap fun p => ((x.storeBytes o n p.1).zip p.2).zipIdx.map fun q =>
          (⟨va p.1 + q.2, q.1.2, q.1.1, some p.1, false, none⟩ : StByte)
        x.intoBuffer g (sp o) (if kind = .gather then 1 else 0) true bs (fun b => va (b.tag.getD 0)) die
      else .next (x.s.translationFault x.cu.gid recs x.cu.pc x.act)) o s

end Sys2Proof.Machine
end

