-- ==== Sys2Proof/Machine/MemOps.lean ====
section
/-!
DEFINITION. The instructions of class 3 (R237 to R254), and GRED with `.team`, which loads (R170).
-/

namespace Sys2Proof.Machine

/-! ## Loads and stores by lane (R242, R243) -/

/-- LD (R242). -/
def execLd (o : Ops) (s : State) : Out := issueLaneLoad .ld .w64 (fun _ => .g) o s
/-- LD with IMM32 as its offset (R242, R239). -/
def execLdImm (o : Ops) (s : State) : Out := issueLaneLoad .ld .w96 (fun _ => .g) o s
/-- LDL (R242). -/
def execLdl (o : Ops) (s : State) : Out := issueLaneLoad .ldl .w64 (fun _ => .l) o s
/-- LDL with IMM32 as its offset (R242, R239). -/
def execLdlImm (o : Ops) (s : State) : Out := issueLaneLoad .ldl .w96 (fun _ => .l) o s
/-- LDB (R242). -/
def execLdb (o : Ops) (s : State) : Out := issueLaneLoad .ldb .w64 accSpace o s
/-- LDB with IMM32 as its offset (R242, R239). -/
def execLdbImm (o : Ops) (s : State) : Out := issueLaneLoad .ldb .w96 accSpace o s

/-- The lane addresses of a store by lane, in its space (R240). -/
def storeAddr (sp : Ops → Space) (x : IC) (o : Ops) (l : Nat) : Int := x.laneAddr o (sp o) (accSize o) l

/-- ST (R243). -/
def execSt (o : Ops) (s : State) : Out := issueLaneStore .st .w64 (fun _ => .g) .store (storeAddr fun _ => .g) o s
/-- ST with IMM32 as its offset (R243, R239). -/
def execStImm (o : Ops) (s : State) : Out := issueLaneStore .st .w96 (fun _ => .g) .store (storeAddr fun _ => .g) o s
/-- STL (R243). -/
def execStl (o : Ops) (s : State) : Out := issueLaneStore .stl .w64 (fun _ => .l) .store (storeAddr fun _ => .l) o s
/-- STL with IMM32 as its offset (R243, R239). -/
def execStlImm (o : Ops) (s : State) : Out := issueLaneStore .stl .w96 (fun _ => .l) .store (storeAddr fun _ => .l) o s
/-- STB (R243). -/
def execStb (o : Ops) (s : State) : Out := issueLaneStore .stb .w64 accSpace .store (storeAddr accSpace) o s
/-- STB with IMM32 as its offset (R243, R239). -/
def execStbImm (o : Ops) (s : State) : Out := issueLaneStore .stb .w96 accSpace .store (storeAddr accSpace) o s

/-- STX (R246): its accesses are of the gather kind, as its path is (R223). -/
def execStx (o : Ops) (s : State) : Out :=
  issueLaneStore .stx .w64 accSpace .gather (fun x o l => x.indexAddr o (accSpace o) l) o s

/-! ## LDX and its replay (R245, R51, R52, R433) -/

/-- How often an LDX PC has issued since the region's latest entry (R52). -/
def Group.ldxSeen (g : Group) (pc : BitVec 57) : Nat := smGet 0 g.ldxCount pc.toNat

/-- This execution replays a partly completed LDX (R52). -/
def Group.replays (g : Group) (pc : BitVec 57) : Bool :=
  g.pm.valid && g.pm.pc == pc && g.pm.occ.toNat == g.ldxSeen pc

/-- The replay mask after an execution that replayed or not, whose lanes `bad` faulted (R52, R433). -/
def Group.pmAfter (g : Group) (pc : BitVec 57) (bad : Mask) : Replay :=
  let pm : Replay := if g.replays pc then { g.pm with mask := 0, valid := false } else g.pm
  if bad = 0 || pm.valid || 65535 ≤ g.ldxSeen pc then pm
  else ⟨bad, pc, BitVec.ofNat 16 (g.ldxSeen pc), true⟩

/-- LDX (R245): the lanes that translate load; a translation fault of others sets PM and discards the region. -/
def execLdx (o : Ops) (s : State) : Out :=
  issueWith .ldx .w64 (fun x o f g =>
    if 63 ≤ g.cntLd then x.stall
    else
      let n := accSize o
      let sp := accSpace o
      let die := x.g.poisonedLanes f.rv x.act
      let who := if x.g.replays x.cu.pc then x.act &&& x.g.pm.mask else x.act
      let lanes := (lanesOf (who &&& ~~~die)).map fun l => (l, x.indexAddr o sp l)
      match x.reach sp n .gather false lanes with
      | .stop r => r
      | .go ok bad recs =>
        let badMask := maskOf bad.contains
        let g : Group := { g with
          pm := x.g.pmAfter x.cu.pc badMask
          ldxCount := smSet 0 g.ldxCount x.cu.pc.toNat (x.g.ldxSeen x.cu.pc + 1) }
        let rd := x.readLanes (x.s.setGroup x.cu.gid g) sp ok
        let d := x.g.opV o.d
        let s := (rd.1.postLive x.cu.gid (run d (vRegs n)) (loadWrites d n (accSx o) rd.2.1) (die ||| rd.2.2)).countClass3 x.cu.gid
        if recs.isEmpty then ({ x with s := s } : IC).retire ((s.group? x.cu.gid).getD g) (die ||| rd.2.2)
        else .next ((s.killLanes x.cu.gid (die ||| rd.2.2)).translationFault x.cu.gid recs x.cu.pc x.act)) o s

/-! ## Uniform loads and stores (R244) -/

/-- The address of a uniform access: an S base or an absolute offset (R244, R240). -/
def IC.uniAddr (x : IC) (o : Ops) (sp : Space) : Int := x.addrBase o.a (sp == .g) 0 + offsetOf o

/-- Every live lane of the group consumes an error at once (R244, R446). -/
def IC.killAll (x : IC) (g : Group) : Out := x.retire g x.g.live

/-- LDU (R244). -/
def issueUniLoad (len : Len) (o : Ops) (s : State) : Out :=
  issueWith .ldu len (fun x o _ g =>
    if 63 ≤ g.cntLd then x.stall
    else
      let n := accSize o
      let sp := accSpace o
      match x.reach sp n .load false [(0, x.uniAddr o sp)] with
      | .stop r => r
      | .go ok _ recs =>
        if !recs.isEmpty then .next (x.s.translationFault x.cu.gid recs x.cu.pc x.act)
        else
          let rd := (x.s.setGroup x.cu.gid g).readPlaces x.cu.gid x.g.core x.g.buf sp [(none, (ok.map (·.2)).headD [])]
          let got := rd.2.headD []
          let s := rd.1.countClass3 x.cu.gid
          if got.any (·.2) then ({ x with s := s } : IC).killAll ((s.group? x.cu.gid).getD g)
          else
            let ws := sWords n (accSx o) (got.map (·.1))
            let d := opNum o.d
            let s := s.postLoad x.cu.gid [] (run d ws.length) [] (ws.zipIdx.map fun w => .s (d + w.2) w.1)
            ({ x with s := s } : IC).retire ((s.group? x.cu.gid).getD g) 0) o s

/-- LDU (R244). -/
def execLdu (o : Ops) (s : State) : Out := issueUniLoad .w64 o s
/-- LDU with IMM32 as its offset (R244, R239). -/
def execLduImm (o : Ops) (s : State) : Out := issueUniLoad .w96 o s

/-- STU (R244): its bytes are group-wide. -/
def issueUniStore (len : Len) (o : Ops) (s : State) : Out :=
  issueWith .stu len (fun x o _ g =>
    let n := accSize o
    let sp := accSpace o
    let a := x.uniAddr o sp
    match x.reach sp n .store true [(0, a)] with
    | .stop r => r
    | .go ok _ recs =>
      if !recs.isEmpty then .next (x.s.translationFault x.cu.gid recs x.cu.pc x.act)
      else
        let d := opNum o.d
        let data := ((List.range ((n + 7) / 8)).flatMap fun i => leBytes 8 (x.g.rdS (d + i)).toNat).take n
        let bs := (data.zip ((ok.map (·.2)).headD [])).zipIdx.map fun q =>
          (⟨a.toNat + q.2, q.1.2, q.1.1, none, false, none⟩ : StByte)
        x.intoBuffer g sp 0 true bs (fun _ => a.toNat) 0) o s

/-- STU (R244). -/
def execStu (o : Ops) (s : State) : Out := issueUniStore .w64 o s
/-- STU with IMM32 as its offset (R244, R239). -/
def execStuImm (o : Ops) (s : State) : Out := issueUniStore .w96 o s

/-! ## Atomic updates (R247) -/

/-- The new value of an atomic operation of n bytes (R247). -/
def atomNew (aop n : Nat) (old b c : W64) : W64 :=
  let wide := n == 8
  match aop with
  | 0 => old + b
  | 1 => iminV wide true old b
  | 2 => imaxV wide true old b
  | 3 => iminV wide false old b
  | 4 => imaxV wide false old b
  | 5 => old &&& b
  | 6 => old ||| b
  | 7 => old ^^^ b
  | 8 => b
  | _ => if old = c then b else old

/-- An address of a boundary's lane accesses: in its space and naturally aligned (R240). -/
def firstBad (t : Option Team) (sp : Space) (n : Nat) (lanes : List (Nat × Int)) : Option Int :=
  (lanes.find? fun p => !inSpace t sp p.2 n || p.2 % (n : Int) != 0).map (·.2)

/-- Bytes read where they are coherent: at the home for `g:`, in the core's bank for `l:`. -/
def State.readHome (s : State) (core : Nat) (sp : Space) (at_ n : Nat) : List (Byte × Bool) :=
  if sp = .g then s.memRead at_ n else bankBytes ((s.core core).bank sp) at_ n

/-- Bytes written where they are coherent, by a group. -/
def State.writeHome (s : State) (gid core : Nat) (sp : Space) (at_ : Nat) (bs : List Byte) : State :=
  if sp = .g then s.memWrite (some gid) (wbytes at_ bs)
  else s.setCore core ((s.core core).setBank sp (bankWrite ((s.core core).bank sp) (wbytes at_ bs)))

/-- Before an access at the home: the core's own lines there are performed, and its L1 keeps no copy. -/
def State.atHome (s : State) (core : Nat) (lines : List Nat) : State :=
  (s.drainLines core (onLines lines)).dropL1 core lines

/-- Before a group updates places: its core's own lines there are performed, and other holders' tenures there are recalled
(R247, R325). -/
def State.claim (s : State) (gid core : Nat) (sp : Space) (places : List Nat) : State :=
  let lines := linesOf places
  if sp = .g then (s.atHome core lines).intrude (some gid) places true else s.drainLines core (onLinesOf sp lines)

/-- What a boundary that accesses memory finds: its translations, or an end of the issue (R40). -/
inductive ActReach where
  | stop (a : Act)
  | go (ok : List (Nat × Nat))

/-- The checks of ATOM and SC (R40, R240): protection and alignment, then translation of every lane. -/
def IC.actReach (x : IC) (sp : Space) (n : Nat) (lanes : List (Nat × Int)) : ActReach :=
  let t := x.team
  match firstBad t sp n lanes with
  | some a => .stop (x.actFault 0x06 (addrDetail a) (spaceCode sp))
  | none =>
    if sp = .g then
      let rq := x.g.req x.cu.gid .atomic true
      let vas := lanes.map fun p => (p.1, p.2.toNat)
      match x.s.spans rq n vas with
      | .wait => .stop (.stop (x.s.seekLanes rq n vas))
      | .done ok _ recs =>
        if recs.isEmpty then
          let pas := ok.map fun p => p.2.headD 0
          if x.s.homeHeld x.cu.gid x.g.core pas || x.s.hostHolds pas || x.g.awaits sp pas then
            .stop (.wait (x.s.callBack (some x.cu.gid) pas))
          else .go (ok.map fun p => (p.1, p.2.headD 0))
        else .stop (.stop (x.s.translationFault x.cu.gid recs x.cu.pc x.act))
    else if x.g.awaits sp (lanes.map fun p => bankPlace t sp p.2.toNat) then .stop (.wait x.s)
    else .go (lanes.map fun p => (p.1, bankPlace t sp p.2.toNat))

/-- The result registers of a boundary's lanes (R41, R247). -/
def resultWrites (d n : Nat) (rs : List (Nat × W64)) : List RegWrite :=
  rs.flatMap fun p => if n = 8 then [.v d p.1 (p.2.setWidth 32), .v (d + 1) p.1 (p.2.extractLsb' 32 32)]
    else [.v d p.1 (p.2.setWidth 32)]

/-- The lanes of an ATOM, in ascending order, each seeing the one before (R247). A lane that reads poison dies. -/
def atomLanes (x : IC) (o : Ops) (sp : Space) (n : Nat) (ok : List (Nat × Nat)) (s : State) :
    State × List (Nat × W64) × List Nat :=
  ok.foldl (fun (p : State × List (Nat × W64) × List Nat) q =>
    let old := p.1.readHome x.g.core sp q.2 n
    if old.any (·.2) then (p.1, p.2.1, p.2.2 ++ [q.1])
    else
      let v := BitVec.ofNat 64 (leNat (old.map (·.1)))
      let b := x.val o.b (n == 8) q.1
      let c := x.val o.c (n == 8) q.1
      (p.1.writeHome x.cu.gid x.g.core sp q.2 (leBytes n (atomNew (mfld o.m 63 60) n v b c).toNat),
        p.2.1 ++ [(q.1, v)], p.2.2)) (s, [], [])

/-- ATOM (R247). -/
def execAtom (o : Ops) (s : State) : Out :=
  issueBoundary .atom .w64 (fun x o =>
    if 63 ≤ x.g.cntLd then .wait x.s
    else
      let n := accSize o
      let sp := accSpace o
      let lanes := (lanesOf x.act).map fun l => (l, x.addrBase o.a (sp == .g) l)
      match x.actReach sp n lanes with
      | .stop a => a
      | .go ok =>
        let s := x.s.claim x.cu.gid x.g.core sp (ok.map (·.2))
        let r := atomLanes x o sp n ok s
        let d := x.g.opV o.d
        let s := r.1.postActive x.cu.gid (run d (vRegs n)) (resultWrites d n r.2.1) x.act (maskOf r.2.2.contains)
        x.pass ((s.countClass3 x.cu.gid).killLanes x.cu.gid (maskOf r.2.2.contains))) o s

/-! ## Reservations (R248 to R250) -/

/-- A group's reservations are dropped. -/
def State.dropReservations (s : State) (gid : Nat) : State :=
  { s with reservations := s.reservations.filter (·.gid != gid) }

/-- One lane's reservation (R248): one entry serves a group's lanes on a line, and a full table of the line's
home slice loses its oldest entry (R249). -/
def State.reserve (s : State) (gid : Nat) (inc : BitVec 8) (lane pa n : Nat) : State :=
  if s.reservations.any fun r => r.gid == gid && r.line == pa / 128 then
    { s with reservations := s.reservations.map fun r =>
        if r.gid = gid && r.line == pa / 128 then { r with lanes := r.lanes ++ [(lane, pa, n)] } else r }
  else
    let sl := homeSlice pa
    let here := s.reservations.filter fun r => homeSlice (128 * r.line) == sl
    let kept := if 1024 ≤ here.length then
        match here.head? with
        | some old => s.reservations.filter (·.id != old.id)
        | none => s.reservations
      else s.reservations
    { s with reservations := kept ++ [⟨s.nextId, gid, inc, pa / 128, [(lane, pa, n)]⟩], nextId := s.nextId + 1 }

/-- LR (R248): read at the home, and reserve. DESIGN CHOICE (log entry 79): bytes of the region store buffer are not forwarded to
it, for R248 reads the home slice, and R44 speaks of every load. -/
def execLr (o : Ops) (s : State) : Out :=
  issueWith .lr .w64 (fun x o f g =>
    if 63 ≤ g.cntLd then x.stall
    else
      let n := accSize o
      let die := x.g.poisonedLanes f.rv x.act
      let lanes := (lanesOf (x.act &&& ~~~die)).map fun l => (l, x.addrBase o.a true l)
      match firstBad x.team .g n lanes with
      | some a => x.fault 0x06 (addrDetail a) 0
      | none =>
        match x.reach .g n .load false lanes with
        | .stop r => r
        | .go ok _ recs =>
          let pas := ok.flatMap (·.2)
          if x.s.homeHeld x.cu.gid x.g.core pas then x.stall
          else
            let s := ((x.s.setGroup x.cu.gid { g with lrCount := 0 }).dropReservations x.cu.gid)
            let s := (s.atHome x.g.core (linesOf pas)).intrude (some x.cu.gid) pas false
            let got := ok.map fun p => (p.1, p.2.map fun pa => (bankByte s.mem pa, bankPoison s.mem pa || !s.memUp pa))
            let bad := maskOf fun l => got.any fun p => p.1 == l && p.2.any (·.2)
            let good := got.filter fun p => !(p.2.any (·.2))
            let inc := (s.core x.g.core).inc
            let s := ok.foldl (fun s p => if inMask bad p.1 then s else s.reserve x.cu.gid inc p.1 (p.2.headD 0) n) s
            let d := x.g.opV o.d
            let s := s.postLive x.cu.gid (run d (vRegs n)) (loadWrites d n false good) (die ||| bad)
            if recs.isEmpty then ({ x with s := s } : IC).retire ((s.group? x.cu.gid).getD g) (die ||| bad)
            else .next ((s.killLanes x.cu.gid (die ||| bad)).translationFault x.cu.gid recs x.cu.pc x.act)) o s

/-- A lane holds a reservation for an address and a size (R250). -/
def State.holds (s : State) (gid lane pa n : Nat) : Bool :=
  s.reservations.any fun r => r.gid == gid && r.line == pa / 128 && r.lanes.contains (lane, pa, n)

/-- SC (R250): of the lanes that hold their reservations, the lowest of each line stores. DESIGN CHOICE (log entry 80): a
lane that fails claims its line as a write does, and ends tenures of others there, for the spec does not say whether it
intrudes. -/
def execSc (o : Ops) (s : State) : Out :=
  issueBoundary .sc .w64 (fun x o =>
    if 63 ≤ x.g.cntLd then .wait x.s
    else
      let n := accSize o
      let lanes := (lanesOf x.act).map fun l => (l, x.addrBase o.a true l)
      match x.actReach .g n lanes with
      | .stop a => a
      | .go ok =>
        let s := x.s.claim x.cu.gid x.g.core .g (ok.map (·.2))
        let r := ok.foldl (fun (p : State × List Nat × List (Nat × W64)) q =>
          if s.holds x.cu.gid q.1 q.2 n && !p.2.1.contains (q.2 / 128) then
            (p.1.writeHome x.cu.gid x.g.core .g q.2 (leBytes n (x.val o.b (n == 8) q.1).toNat),
              p.2.1 ++ [q.2 / 128], p.2.2 ++ [(q.1, 1)])
          else (p.1, p.2.1, p.2.2 ++ [(q.1, 0)])) (s, [], [])
        let d := x.g.opV o.d
        let s := (r.1.dropReservations x.cu.gid).postActive x.cu.gid [d] (resultWrites d 4 r.2.2) x.act 0
        x.pass s) o s

/-! ## Ordering instructions (R251, R252) -/

/-- SCOPE of FENCE, ACQ and REL (R221). -/
def scopeOf (o : Ops) : Nat := mfld o.m 56 54

/-- The path mask of FENCE, ACQ, REL and ACQR: no bit stands for the vector path alone (R223). -/
def pathMask (o : Ops) : Nat := if mfld o.m 63 59 = 0 then 1 else mfld o.m 63 59

/-- The outbound lines of a core that a release performs (R221, R224, R225): at cluster or wider its `g:` lines, and for a FENCE that
names a path of an engine, the host or a peer too, what stores of the named paths have written there and in the core's own
memories, by the group itself or at team scope and wider by the core. Earlier stores of the group are kept whatever paths the
release names (R231, note 4), and so are those that a BAR has ordered before it (R226); DESIGN CHOICE (log entry 97): every other
`g:` line of the core goes with them. Of the fixed lines that still wait for a DRAIN's data (R272) it waits, at team scope and wider,
for the group's own, and at cluster and wider for those with bytes of the named paths, vector or gather. -/
def releases (fence : Bool) (scope mask gid : Nat) (o : OutLine) : Bool :=
  (o.space == .g && 2 ≤ scope && (!o.late || o.onPaths (mask ||| 3)))
    || (fence && o.onPaths mask && 4 ≤ mask && (1 ≤ scope || o.gid == gid))
    || (o.late && 1 ≤ scope && o.gid == gid)

/-- A release and an acquire at a scope over a path mask (R221, R224, R225): the core's outbound lines that the release names
are acknowledged, and at cluster or wider the acquire empties its L1. -/
def issueOrder (op : Op) (rel acq : Bool) (o : Ops) (s : State) : Out :=
  issueWith op .w64 (fun x o _ g =>
    let named (q : OutLine) : Bool := rel && releases (rel && acq) (scopeOf o) (pathMask o) x.cu.gid q
    if x.s.drainHeld x.g.core named then x.stall
    else
      let s := ((x.s.setGroup x.cu.gid g).countClass3 x.cu.gid).drainLines x.g.core named
      let s := if acq && 2 ≤ scopeOf o then s.emptyL1 x.g.core else s
      ({ x with s := s } : IC).retire ((s.group? x.cu.gid).getD g) 0) o s

/-- FENCE (R251, R225). -/
def execFence (o : Ops) (s : State) : Out := issueOrder .fence true true o s
/-- ACQ (R251, R224). -/
def execAcq (o : Ops) (s : State) : Out := issueOrder .acq false true o s
/-- REL (R251, R224). -/
def execRel (o : Ops) (s : State) : Out := issueOrder .rel true false o s

/-- ACQR (R252, R233): the victim's stores, of every path, are acknowledged, its L1 and the issuer's emptied. A retired
victim has nothing to wait for (R11). The acquire over the paths named is the emptying of the issuer's L1. -/
def execAcqr (o : Ops) (s : State) : Out :=
  issueWith .acqr .w64 (fun x o _ g =>
    let v := (x.val o.a true 0).toNat
    if 1024 ≤ v then x.fault 0x06 v 8
    else
      let serves := !(x.s.core v).retired
      if serves && x.s.drainHeld v (fun _ => true) then x.stall
      else
        let s := (x.s.setGroup x.cu.gid g).countClass3 x.cu.gid
        let s := (if serves then (s.drainLines v fun _ => true).emptyL1 v else s).emptyL1 x.g.core
        ({ x with s := s } : IC).retire ((s.group? x.cu.gid).getD g) 0) o s

/-! ## The local store split and prefetch (R253, R254) -/

/-- One more than the highest way of a core that holds a reservation (R253). -/
def State.wayFloor (s : State) (core : Nat) : Nat :=
  s.teams.foldl (fun n kv => match kv.2.place with
    | .placed c base => if c = core && kv.2.shape.scratch != 0 then max n ((base + 1024 * kv.2.shape.scratch + 65535) / 65536) else n
    | _ => n) 0

/-- SW becomes a number of ways (R200, R201): ways that become scratch lose their cache lines, of which the rest have room
(DESIGN CHOICE, log entry 71: those of the highest addresses, for the spec lays no line into a way), and ways that become
cache lose their bytes. -/
def CoreSt.carve (c : CoreSt) (sw : Nat) : CoreSt :=
  { c with
    l1 := c.l1.take (512 * (12 - sw))
    scratch := if sw < c.sw then
        ⟨c.scratch.bytes.filter (·.1 < 65536 * sw), c.scratch.poison.filter (·.1 < 65536 * sw)⟩ else c.scratch
    sw := sw }

/-- CARVE (R253). -/
def execCarve (o : Ops) (s : State) : Out :=
  issueWith .carve .w64 (fun x o _ g =>
    let want := match o.a with
      | .s n => min 12 (x.g.rdS n.toNat).toNat
      | _ => mfld o.m 63 60
    let sw := max want (x.s.wayFloor x.g.core)
    let s := (x.s.setGroup x.cu.gid (g.wrS (opNum o.d) (BitVec.ofNat 64 sw))).countClass3 x.cu.gid
    let s := s.setCore x.g.core ((s.core x.g.core).carve sw)
    ({ x with s := s } : IC).retire ((s.group? x.cu.gid).getD g) 0) o s

/-- The line of an address whose translation a TLB holds comes into its home L2, and under `.l1` into the core's L1; a miss leaves
that to its walk, which PREF does not wait for; a denial drops the request (R254, R213). DEDUCED (log entry 81): for it changes nothing
that a program can observe, the line that it brings intrudes on no tenure. -/
def State.prefetch (s : State) (rq : Req) (core : Nat) (l1 : Bool) (va : Nat) : State :=
  match s.translate rq va with
  | .miss => s.requestWalk { rq with who := .prefetch core l1 } va
  | .ok pa =>
    let s := (s.misKeyed rq [va]).foldl (fun s p => s.useLine p.1 p.2) (s.fillL2 [pa])
    let c := s.core core
    let bs := overlay c.outbound (pa / 128) (s.memRead (128 * (pa / 128)) 128)
    if !l1 || (smFind c.l1 (pa / 128)).isSome || bs.any (·.2) then s else s.fillL1 core (pa / 128) (bs.map (·.1))
  | _ => s

/-- Every walker of a die is busy, with other pages than these misses' (R213). -/
def State.walkersBusy (s : State) (rq : Req) (vas : List Nat) : Bool :=
  256 ≤ (s.walks.filter (·.die == rq.die)).length && vas.any fun va => s.translate rq va == .miss
    && !s.walks.any fun w => w.die == rq.die && w.ctx == rq.ctx && w.page == va / 4096

/-- PREF (R254): each active lane's line is brought, where its address has a translation that allows it. -/
def issuePref (len : Len) (o : Ops) (s : State) : Out :=
  issueWith .pref len (fun x o f g =>
    let rq := x.g.req x.cu.gid .load false
    let die := x.g.poisonedLanes f.rv x.act
    let vas := (lanesOf (x.act &&& ~~~die)).filterMap fun l =>
      let a := x.laneAddr o .g 1 l
      if inSpace none .g a 1 then some a.toNat else none
    if x.s.walkersBusy rq vas then x.stall
    else
      let s := (x.s.setGroup x.cu.gid g).countClass3 x.cu.gid
      let s := vas.foldl (fun s va => s.prefetch rq x.g.core (mfld o.m 61 60 == 1) va) s
      ({ x with s := s } : IC).retire ((s.group? x.cu.gid).getD g) die) o s

/-- PREF (R254). -/
def execPref (o : Ops) (s : State) : Out := issuePref .w64 o s
/-- PREF with IMM32 as its offset (R254, R239). -/
def execPrefImm (o : Ops) (s : State) : Out := issuePref .w96 o s

/-! ## GRED with `.team` (R170, R71) -/

/-- GRED `.team` (R170): 16 entries read as an LDU reads them, combined over group numbers. DESIGN CHOICE (log entry 77): with
no active lane it still reads them, for LDU, as which it reads, has no guard. -/
def execGredTeam (o : Ops) (s : State) : Out :=
  issueWith .gred .w64 (fun x o _ g =>
    if 63 ≤ g.cntLd then x.stall
    else
      let rop := mfld o.m 51 48
      let b64 := mbit o.m 53
      let n := if b64 then 8 else 4
      let a : Int := (x.val o.b false 0).toNat
      match x.reach .l (16 * n) .load false [(0, a)] with
      | .stop r => r
      | .go ok _ _ =>
        let rd := (x.s.setGroup x.cu.gid g).readPlaces x.cu.gid x.g.core x.g.buf .l [(none, (ok.map (·.2)).headD [])]
        let got := rd.2.headD []
        if got.any (·.2) then ({ x with s := rd.1 } : IC).killAll g
        else
          let count := ((x.team).map fun t => Shape.total t.shape).getD 0
          let vals := (List.range 16).map fun k =>
            if k < count then BitVec.ofNat 64 (leNat ((got.map (·.1)).drop (n * k) |>.take n)) else redIdentity rop b64
          let r := redStages (redOp rop b64 x.rnd) 4 vals
          let v := r.1.headD 0
          let d := x.g.opV o.d
          let ws := (lanesOf x.act).flatMap fun l => resultWrites d n [(l, v)]
          let s := rd.1.postLoad x.cu.gid (run d (n / 4)) [] [] ws
          let g := (s.group? x.cu.gid).getD g
          ({ x with s := s } : IC).retire { g with gsr := g.gsr ||| r.2.bits } 0) o s

/-! ## LOAD_DATA_LANDS and STORE_ACKNOWLEDGED -/

/-- One landed register write; a written lane is poisoned no more. -/
def Group.land (g : Group) (w : RegWrite) : Group :=
  match w with
  | .v r l v => g.wrLane r l v
  | .s n v => g.wrS n v
  | .k n v => g.wrK n v

/-- LOAD_DATA_LANDS (R117, R374): the results of a load are written to the lanes that are not dead, and CNT.LD
falls. -/
def execLoadDataLands (gid op : Nat) (s : State) : Out :=
  match s.group? gid with
  | none => noEvent s
  | some g => match g.pending.find? fun p => p.id == op && p.ld with
    | none => noEvent s
    | some p =>
      if g.status = .halted || !(s.die (dieOfCore g.core)).powered then noEvent s
      else
        let g := p.writes.foldl Group.land g
        .next (s.setGroup gid { g with pending := g.pending.filter (·.id != op), cntLd := g.cntLd - 1 })

/-- A group of a core has lines of closed regions that wait for room alone (R272, R375). -/
def State.lateRoom (s : State) (core : Nat) : Option Nat :=
  (s.groups.find? fun kv => kv.2.core == core && kv.2.cntSt < 63 && kv.2.lateReady.isSome).map (·.1)

/-- STORE_ACKNOWLEDGED (R42, R375): the line at a position of a core's outbound path is performed. An earlier
line with the same bytes' line goes first, and a half that the host holds is waited for (R234). Where no line stands there,
lines of the core that have waited for room in CNT.ST are handed on (R272). -/
def execStoreAcknowledged (core pos : Nat) (s : State) : Out :=
  let c := s.core core
  match c.outbound[pos]? with
  | none => match s.lateRoom core with
    | none => noEvent s
    | some gid => if s.coreUp core then .next (handLate 65 s gid) else noEvent s
  | some o =>
    if (c.outbound.take pos).any (fun p => p.space == o.space && p.line == o.line) || s.lineWaits o
        || !(s.die (dieOfCore core)).powered then noEvent s
    else .next ((s.setCore core { c with outbound := c.outbound.eraseIdx pos }).ackLine o)

end Sys2Proof.Machine
end

