-- ==== Sys2Proof/Machine/Teams.lean ====
section
/-!
DEFINITION. Launch shapes and their admission (R28), and the queueing of a team for placement (R26, R30): what
LAUNCH, SPAWN and the Seam unit share.
-/

namespace Sys2Proof.Machine

/-- A bit of READY: the function may be used (R412). -/
def State.ready (s : State) (bit : Nat) : Bool := s.host.ready.getLsbD bit

/-- A core in service: not retired (R402), not failed (R406), its die has power (R406), and the die's compute is ready (R412). -/
def State.inService (s : State) (core : Nat) : Bool :=
  core < Config.coreCount && !(s.core core).retired && !(s.core core).failed && (s.die (dieOfCore core)).powered
    && s.ready (8 + dieOfCore core)

/-- A die with an in-service core (R28). -/
def State.dieServes (s : State) (d : Nat) : Bool :=
  d < Config.dieCount && (s.die d).powered && s.ready (8 + d) && (run (256 * d) 256).any fun c => !(s.core c).retired && !(s.core c).failed

/-- The dies of a set that have an in-service core. -/
def State.servingDies (s : State) (dies : BitVec 4) : List Nat :=
  (List.range 4).filter fun d => dies.getLsbD d && s.dieServes d

/-- The register allotment of group `g` of a shape (R18). -/
def Shape.allotOf (sh : Shape) (g : Nat) : Nat := sh.allot.getD (Shape.roleOf sh.groups g) 0

/-- The registers of a shape, over its groups (R28). -/
def Shape.registers (sh : Shape) : Nat := ((sh.groups.zip sh.allot).map fun p => p.1 * p.2).foldl (· + ·) 0

/-- The reason code of the first check of R28 that a shape and its die set fail. `roles` is the count that the
shape states. -/
def State.shapeRefusal (s : State) (sh : Shape) (dies : BitVec 4) : Option Nat :=
  if sh.roles < 1 || 4 < sh.roles then some 0x01
  else if sh.groups.any (· == 0) || Shape.total sh < 1 || 16 < Shape.total sh then some 0x02
  else if sh.allot.any fun a => a % 8 != 0 || a < 8 || 256 < a then some 0x03
  else if 2048 < sh.registers then some 0x04
  else if 768 < sh.scratch then some 0x05
  else if 128 < sh.barriers then some 0x06
  else if (s.servingDies dies).isEmpty then some 0x07
  else if sh.lanes < 1 || 64 < sh.lanes then some 0x08
  else none

/-- A shape from its fields: a byte of groups and of allotment divided by 8 for each role (R195, R285). -/
def shapeOf (entry roles groups allot scratch : Nat) (tbuf : Bool) (barriers lanes : Nat) : Shape :=
  { entry := BitVec.ofNat 64 entry
    roles := roles
    groups := (List.range (min roles 4)).map fun r => nfld groups (8 * r + 7) (8 * r)
    allot := (List.range (min roles 4)).map fun r => 8 * nfld allot (8 * r + 7) (8 * r)
    scratch := scratch
    tbuf := tbuf
    barriers := barriers
    lanes := lanes }

/-- A byte of a four-byte field is set for a role at or above ROLES (R195). -/
def unusedRole (roles field : Nat) : Bool :=
  (List.range 4).any fun r => roles ≤ r && nfld field (8 * r + 7) (8 * r) != 0

/-- Queue a team of a grid for placement, with the grid's next TEAMID (R26, R30). -/
def State.queueTeam (s : State) (grid : Nat) (sh : Shape) (arg : W64) (dies : BitVec 4) (gang : Option Gang) : State :=
  match s.grid? grid with
  | none => s
  | some q =>
    let t : Team := { ctx := q.ctx, grid := grid, teamId := q.nextTeam, queue := q.queue, shape := sh, arg := arg,
                      dies := dies, place := .waiting, queuedAt := s.nextTeamKey, failed := 0, tried := false,
                      limitAt := none, closedCore := none, preempt := none, leaving := false, bufs := none,
                      barriers := List.replicate sh.barriers Barrier.reset, exited := [], gang := gang,
                      groupsLeft := Shape.total sh }
    let s := (s.setGrid grid { q with nextTeam := q.nextTeam + 1 }).setTeam s.nextTeamKey t
    { s with nextTeamKey := s.nextTeamKey + 1 }

/-- A grid for a packet or a step close: the next GRIDID, which is never 0 (R125, R345). -/
def State.newGrid (s : State) (ctx counter : Nat) (dies : BitVec 4) (queue : Nat) (packet world : Option Nat) : State :=
  let serial := if s.gridSerial + 1 = 0 then 1 else s.gridSerial + 1
  let s := s.setGrid s.nextGridKey
    { serial := serial, ctx := ctx, counter := counter, nextTeam := 0, dies := dies, queue := queue,
      packet := packet, world := world }
  { s with nextGridKey := s.nextGridKey + 1, gridSerial := serial }

/-! ## Queue descriptors (R283) -/

/-- Word `i` of a queue's descriptor, with its fields PRIO, PATIENCE and URG. -/
def State.queueWord (s : State) (q i : Nat) : Nat := s.physWord (s.host.qdesc.toNat + 64 * q + 8 * i)
def State.queuePrio (s : State) (q : Nat) : Nat := nfld (s.queueWord q 2) 11 8
def State.queueUrg (s : State) (q : Nat) : Bool := (s.queueWord q 2).testBit 22
def State.queuePatience (s : State) (q : Nat) : Nat :=
  let p := nfld (s.queueWord q 2) 21 12
  if p = 0 then 64 else p

/-! ## Reads and writes that a group makes once (R446) -/

/-- The outcome of one translation of a boundary for bytes within a page. -/
inductive OneReach where
  | stop (a : Act)
  | go (pa : Nat)

/-- Translate one access of a boundary, for bytes that lie in one page, and make the home the place to access
it: the host gives up its half, and the core's own lines there are performed (R40, R234). -/
def IC.actOne (x : IC) (kind : AccKind) (wr : Bool) (va n : Nat) : OneReach :=
  let rq := x.g.req x.cu.gid kind wr
  match x.s.span rq va n with
  | .wait => .stop (.stop (x.s.seekLanes rq n [(0, va)]))
  | .faulted recs => .stop (.stop (x.s.translationFault x.cu.gid recs x.cu.pc x.act))
  | .ok pas =>
    let pa := pas.headD 0
    if x.s.homeHeld x.cu.gid x.g.core pas || (wr && x.s.hostHolds pas) || x.g.awaits .g pas then
      .stop (.wait (x.s.callBack (some x.cu.gid) pas))
    else .go pa

/-- Bytes read by a group at their home (R219): its own lines there are performed first. -/
def State.groupRead (s : State) (gid core pa n : Nat) : State × List (Byte × Bool) :=
  let s := (s.atHome core (linesOf (run pa n))).intrude (some gid) (run pa n) false
  (s, s.memRead pa n)

end Sys2Proof.Machine
end

