-- ==== Sys2Proof/Machine/Closing.lean ====
section
/-!
DEFINITION. The cores that are closed for a waiting team (R31), with what is resident on a core, and sorting.
-/

namespace Sys2Proof.Machine

/-! ## Sorting -/

/-- Insert into a list that rises by a key. -/
def insertBy {α : Type} (key : α → Nat) (x : α) : List α → List α
  | [] => [x]
  | y :: ys => if key x ≤ key y then x :: y :: ys else y :: insertBy key x ys

/-- A list sorted by a key. -/
def sortBy {α : Type} (key : α → Nat) (l : List α) : List α := l.foldr (insertBy key) []

/-! ## The residents of a core -/

/-- What is left out of a core's occupants while an eviction is planned: groups, and teams that leave whole. -/
structure Without where
  groups : List Nat
  teams : List Nat
  deriving DecidableEq, Repr

def Without.nobody : Without := ⟨[], []⟩

/-- The groups resident on a core. -/
def State.residents (s : State) (core : Nat) (w : Without) : List (Nat × Group) :=
  s.groups.filter fun kv => kv.2.core == core && !kv.2.evicted && !w.groups.contains kv.1

/-- The registers of a core that are allotted. -/
def State.allotted (s : State) (core : Nat) (w : Without) : Nat :=
  ((s.residents core w).map fun kv => kv.2.allot).foldl (· + ·) 0

/-- A team is not settled: it waits to be placed. -/
def Team.waits (t : Team) : Bool := t.place == .waiting

/-! ## Closing a core (R31) -/

/-- The closed cores of a die. -/
def State.closedOn (s : State) (die : Nat) : Nat :=
  (s.cores.filter fun kv => dieOfCore kv.1 == die && kv.2.closedTo.isSome).length

/-- A team has closed a core that is still in service and closed to it (R31, R402). -/
def State.hasClosed (s : State) (key : Nat) (t : Team) : Bool :=
  t.closedCore.any fun c => s.inService c && (s.core c).closedTo == some key

/-- A team that has reached its limit closes the least-loaded fitting core, where its die has one to spare (R31). -/
def State.closeFor (s : State) (key : Nat) : State :=
  match s.team? key with
  | none => s
  | some t =>
    if !t.waits || t.limitAt.isNone || s.hasClosed key t then s
    else
      let fits (c : Nat) : Bool := s.inService c && t.dies.getLsbD (dieOfCore c) && (s.core c).closedTo.isNone
        && s.closedOn (dieOfCore c) < 8 && !(t.shape.tbuf && (s.matrixEng (engineOfCore c)).retired)
      let less (a b : Nat) : Nat := if s.allotted b Without.nobody < s.allotted a Without.nobody then b else a
      match (List.range Config.coreCount).filter fits with
      | [] => s
      | c :: rest =>
        let c := rest.foldl less c
        (s.setCore c { s.core c with closedTo := some key }).setTeam key { t with closedCore := some c }

/-- Teams that have reached their limits close cores in the order in which they reached them (R31). -/
def State.closeWaiting (s : State) : State :=
  let ks := s.teams.filter fun kv => kv.2.waits && kv.2.limitAt.isSome && !s.hasClosed kv.1 kv.2
  (sortBy (fun (kv : Nat × Team) => kv.2.limitAt.getD 0) ks).foldl (fun s kv => s.closeFor kv.1) s

/-- A closed core opens again, for it was closed for this team (R31). -/
def State.reopen (s : State) (team : Nat) : State :=
  { s with cores := s.cores.filterMap fun kv =>
      let c : CoreSt := if kv.2.closedTo = some team then { kv.2 with closedTo := none } else kv.2
      if c = CoreSt.reset then none else some (kv.1, c) }

end Sys2Proof.Machine
end

