-- ==== Sys2Proof/Machine/ControlOps.lean ====
section
/-!
DEFINITION. The instructions of class 2 that act on a group's own state (R174 to R193): branches, JOIN, predicate
moves, EXIT, in-group traps, YIELD, BKPT and special registers. System calls, SPAWN and SLEEPM stand in
Machine/HostOps.lean.
-/

namespace Sys2Proof.Machine

/-! ## Branches, calls and returns (R176, R177) -/

/-- The issue of a branch: registers first, then each active lane to its target and the others to the next
instruction (R176, R177). -/
def issueJump (op : Op) (len : Len) (eff : IC → Ops → Eff) (target : IC → Ops → Nat → BitVec 57) (o : Ops)
    (s : State) : Out :=
  issueWith op len (fun x o f g =>
    let e := x.effects eff o f
    x.retireTo (g.commit x.act e) e.die fun l =>
      if inMask x.act l then target x o l else x.nextPc) o s

/-- PC + sext(IMM32) (R176). -/
def IC.relTarget (x : IC) (o : Ops) : BitVec 57 := x.cu.pc + (o.imm.setWidth 32).signExtend 57

/-- BRA (R176). -/
def execBra (o : Ops) (s : State) : Out := issueJump .bra .w96 (fun _ _ => {}) (fun x o _ => x.relTarget o) o s

/-- BRX (R177): a lane's V pair, or an S register. -/
def execBrx (o : Ops) (s : State) : Out :=
  issueJump .brx .w64 (fun _ _ => {}) (fun x o l => (x.val o.a true l).setWidth 57) o s

/-- CALL (R177): the return address goes to the active lanes' DST pair before the branch. -/
def execCall (o : Ops) (s : State) : Out :=
  issueJump .call .w96 (fun x o => x.dest o true false fun _ => x.nextPc.setWidth 64) (fun x o _ => x.relTarget o) o s

/-- RET (R177): as BRX with a V pair. -/
def execRet (o : Ops) (s : State) : Out :=
  issueJump .ret .w64 (fun _ _ => {}) (fun x o l => (x.val o.a true l).setWidth 57) o s

/-! ## JOIN and ELECT (R178, R179) -/

/-- JOIN (R178, R22, R23). Splits that fuse here issue it once, and none of them holds back one that yielded (R188). -/
def execJoin (o : Ops) (s : State) : Out :=
  issueWith .join .w64 (fun x _ _ g =>
    let fused (r : IssueRef) : Bool := r.gid == x.cu.gid && r.split < 16 && g.splitPc r.split == x.cu.pc
    let s : State := { x.s with issue := x.s.issue.filter (!fused ·) }
    let g : Group := { g with ages := g.ages.filter (·.split != x.cu.split) }
    let joined := g.splits.filter fun n => g.splitPc n == x.cu.pc
    let s := s.setGroup x.cu.gid (g.join x.cu.split x.cu.pc x.nextPc)
    .next (joined.foldl (fun s n => s.releaseYields x.g.core x.cu.gid n) (s.releaseYields x.g.core x.cu.gid x.cu.split))) o s

/-- All 64 bits of a predicate (R118, R175). -/
def allOf (n : Nat) (v : Mask) : Eff := { p := [(n, -1, v)] }

/-- The lowest lane of a mask, as a mask. -/
def lowestBit (m : Mask) : Mask := m &&& (-m)

/-- ELECT (R179). -/
def effElect (x : IC) (o : Ops) : Eff := allOf (opNum o.d) (lowestBit x.act)

def execElect (o : Ops) (s : State) : Out := issueAlu .elect .w64 effElect o s

/-! ## Predicate moves and logic (R180, R181) -/

/-- PMOV (R180). -/
def effPmov (x : IC) (o : Ops) : Eff :=
  match mfld o.m 49 48 with
  | 0 => allOf (opNum o.d) (x.g.pred (opNum o.a))
  | 1 => allOf (opNum o.d) (x.g.rdS (opNum o.a))
  | _ => { s := [(opNum o.d, x.g.pred (opNum o.a))] }

def execPmov (o : Ops) (s : State) : Out := issueAlu .pmov .w64 effPmov o s

/-- One function of two masks by its nibble (R140, R181). -/
def nibbleFn (n : Nat) (b c : Mask) : Mask :=
  (if n.testBit 0 then ~~~b &&& ~~~c else 0) ||| (if n.testBit 1 then b &&& ~~~c else 0)
    ||| (if n.testBit 2 then ~~~b &&& c else 0) ||| (if n.testBit 3 then b &&& c else 0)

/-- PMUX (R181). -/
def effPmux (x : IC) (o : Ops) : Eff :=
  let a := x.g.pred (opNum o.a)
  let b := x.g.pred (opNum o.b)
  let c := x.g.pred (opNum o.c)
  let t := mfld o.m 55 48
  allOf (opNum o.d) ((~~~a &&& nibbleFn (t / 16) b c) ||| (a &&& nibbleFn (t % 16) b c))

def execPmux (o : Ops) (s : State) : Out := issueAlu .pmux .w64 effPmux o s

/-! ## REGION and EXIT (R182, R183) -/

/-- REGION (R182): its close and its opening are its effect. -/
def execRegion (o : Ops) (s : State) : Out := issueBoundary .region .w64 (fun x _ => x.pass x.s) o s

/-- EXIT (R183): after the close its active lanes exit; the group's last EXIT arrives at automatic barriers
(R380). -/
def execExit (o : Ops) (s : State) : Out :=
  issueBoundary .exit .w64 (fun x _ =>
    let s := x.s.setGroup x.cu.gid (x.g.exitLanes x.act)
    x.pass (if x.act != 0 && (x.g.live &&& ~~~x.act) == 0 then s.exitBarriers x.cu.gid else s)) o s

/-! ## Traps in the group (R184, R186, R187) -/

/-- Push a frame and send the active lanes to their slot of the handler table at S63 (R184); at DEPTH 4 the
push is a fault (R187). -/
def IC.trapIn (x : IC) (code : Nat) : Act :=
  if 4 ≤ x.g.depth then x.actFault 0x09 code 4
  else
    let fr : Frame := ⟨x.act, x.nextPc, BitVec.ofNat 12 code⟩
    let g : Group := { x.g with frames := setAt ⟨0, 0, 0⟩ x.g.frames x.g.depth fr, depth := x.g.depth + 1 }
    let target : BitVec 57 := (x.g.rdS 63 + BitVec.ofNat 64 (32 * (code - 0x800))).setWidth 57
    .passed (x.s.setGroup x.cu.gid g) fun l => if inMask x.act l then target else x.nextPc

/-- TRET (R186). -/
def execTret (o : Ops) (s : State) : Out :=
  issueWith .tret .w64 (fun x _ _ g =>
    if x.g.depth = 0 then x.fault 0x0A 0 0
    else
      let fr := x.g.frames.getD (x.g.depth - 1) ⟨0, 0, 0⟩
      if x.act != fr.lanes &&& x.g.live then x.fault 0x0A x.g.depth fr.lanes.toNat
      else x.retireTo { g with depth := g.depth - 1 } 0 fun l => if inMask x.act l then fr.rpc else x.nextPc) o s

/-! ## YIELD, NOP and BKPT (R188, R109, R190) -/

/-- The other splits of a core that are ready: those whose age is set (R32). -/
def State.readySplits (s : State) (core : Nat) : List (Nat × Nat) :=
  s.groups.flatMap fun kv =>
    if kv.2.core = core && kv.2.status = .running then
      (kv.2.ages.filter (·.age.isSome)).map fun a => (kv.1, a.split)
    else []

/-- YIELD (R188): the split is not ready again until each of them has issued or stopped being ready. -/
def execYield (o : Ops) (s : State) : Out :=
  issueWith .yield .w64 (fun x _ _ g =>
    let others := (x.s.readySplits x.g.core).filter (· != (x.cu.gid, x.cu.split))
    let first := (g.splitQuads x.cu.split).headD 0
    let g := g.stepOver x.cu fun _ => x.nextPc
    let lab := (g.quad first).split
    let g : Group := if others.isEmpty then g else
      { g with ages := g.ages.filter (·.split != lab) ++ [⟨lab, none, others⟩] }
    .next ((x.s.setGroup x.cu.gid g).releaseYields x.g.core x.cu.gid x.cu.split)) o s

/-- NOP in its three lengths (R109). -/
def execNop (o : Ops) (s : State) : Out := issueAlu .nop .w64 (fun _ _ => {}) o s
def execNop96 (o : Ops) (s : State) : Out := issueAlu .nop .w96 (fun _ _ => {}) o s
def execNop128 (o : Ops) (s : State) : Out := issueAlu .nop .w128 (fun _ _ => {}) o s

/-- Loupe is attached and has armed a BKPT code; code 0 is armed whenever it is attached (R190). -/
def Ctx.bkptArmed (c : Ctx) (code : Nat) : Bool := c.loupe && (code == 0 || c.armed.contains code)

/-- BKPT (R190): where Loupe has armed its code the group stops there, once the splits already chosen in this cycle have
issued (R197); everywhere else it has no effect. -/
def execBkpt (o : Ops) (s : State) : Out :=
  issueWith .bkpt .w64 (fun x o _ g =>
    if x.act != 0 && (x.s.ctx x.g.ctx).bkptArmed (mfld o.m 55 48) then
      .next (x.s.setGroup x.cu.gid { g with status := .bkpt (g.bkptSplits ++ [x.cu.split]) })
    else x.retire g 0) o s

/-- BKPT_RESUME: Loupe lets a group that it stopped continue at PC + 8 (R190). -/
def execBkptResume (gid : Nat) (s : State) : Out :=
  match s.group? gid with
  | none => noEvent s
  | some g => match g.status with
    | .bkpt splits => .next (s.setGroup gid
        (splits.foldl (fun h n => h.goOn n fun _ => g.splitPc n + 8) ({ g with status := .running } : Group)))
    | _ => noEvent s

/-! ## Special registers (R125, R126, R191 to R193) -/

/-- A write to the RMR (R64, R65): pending until a region opens; a MODE of 7 leaves MODE. -/
def Group.putRmr (g : Group) (v : W32) : Group :=
  let old := g.rmrPend.getD g.rmr
  let v := v &&& 0x1F
  { g with rmrPend := some (if v.extractLsb' 0 3 = 7 then (v &&& 0x18) ||| (old &&& 7) else v) }

/-- SETRM (R191): no write may follow a sampling read of the region (R46). -/
def execSetrm (o : Ops) (s : State) : Out :=
  issueWith .setrm .w64 (fun x o _ g =>
    if g.track.rmrR then x.fault 0x04 0 7
    else x.retire (g.putRmr (BitVec.ofNat 32 (mfld o.m 52 48))) 0) o s

/-- SETSR (R193, R121). DESIGN CHOICE (log entry 65): a GETSR of the GSR that comes after a SETSR of it in the region reads
no live-in, and a further SETSR of the GSR does not fault (R46). -/
def execSetsr (o : Ops) (s : State) : Out :=
  issueWith .setsr .w64 (fun x o _ g =>
    let v := x.val32 o.a 0
    if mfld o.m 55 48 = 0x0F then
      if g.track.rmrR then x.fault 0x04 0 7 else x.retire (g.putRmr v) 0
    else if g.track.gsrL then x.fault 0x04 0 8
    else x.retire { g with gsr := v &&& 0x3F, track := { g.track with gsrW := true } } 0) o s

/-- PM bits 191:128 as one number (R51). -/
def Replay.occWord (p : Replay) : W64 := (BitVec.ofBool p.valid ++ (0#47) ++ p.occ).setWidth 64

/-- The value of a special register in a lane (R125). -/
def IC.special125 (x : IC) (sel l : Nat) : W64 :=
  let n (v : Nat) : W64 := BitVec.ofNat 64 v
  let g := x.g
  match sel with
  | 0x00 => n l
  | 0x01 => n (l / 4)
  | 0x02 => n g.gnum
  | 0x03 => n g.teamId
  | 0x04 => n g.role
  | 0x05 => (((x.s.grid? g.grid).map fun (q : Grid) => q.serial).getD 0).setWidth 64
  | 0x06 => n (dieOfCore g.core)
  | 0x07 => n (g.core % 256 / 4)
  | 0x08 => n g.core
  | 0x09 => n g.allot
  | 0x0A => n (g.world.getD 0xFFFFFFFF)
  | 0x0B => g.live
  | 0x0C => g.dead
  | 0x0D => n g.reentry
  | 0x0E => (x.s.die (dieOfCore g.core)).cycle
  | 0x0F => g.rmr.setWidth 64
  | 0x10 => g.gsr.setWidth 64
  | 0x11 => g.pm.mask
  | 0x12 => g.pm.pc.setWidth 64
  | 0x13 => g.pm.occWord
  | 0x14 => n g.depth
  | _ => x.cu.pc.setWidth 64

/-- GETSR (R192): the value zero-extended to S, or in every active lane of V. -/
def effGetsr (x : IC) (o : Ops) : Eff :=
  let sel := mfld o.m 55 48
  match o.d with
  | .s n => { s := [(n.toNat, x.special125 sel 0)] }
  | _ => x.dest o (srWide sel) false fun l => x.special125 sel l

def execGetsr (o : Ops) (s : State) : Out :=
  issueWith .getsr .w64 (fun x o f g =>
    let g : Group := if mfld o.m 55 48 = 0x10 && !g.track.gsrW then { g with track := { g.track with gsrL := true } } else g
    let e := x.effects effGetsr o f
    x.retire (g.commit x.act e) e.die) o s

end Sys2Proof.Machine
end

