-- ==== Sys2Proof/Machine/HostOps.lean ====
section
/-!
DEFINITION. The instructions of class 2 that reach beyond the group: system calls (R185, R293), SPAWN (R194 to
R196) and SLEEPM (R189), with the events that end their waits.
-/

namespace Sys2Proof.Machine

/-! ## TRAP and the system-call ring (R184, R185, R293) -/

/-- The base and the record count of a ring word of a context descriptor (R282). -/
def ringBase (w : Nat) : Nat := nfld w 56 12 * 4096
def ringSize (w : Nat) : Nat := 2 ^ (w % 32)

/-- The slot of a context's next system-call record, where it is free (R282, R293). -/
def State.sysSlot (s : State) (c : Nat) : Option Nat :=
  let slot := (s.ctx c).sysSeq % ringSize (s.ctxWord c 1)
  if (s.ctx c).sysSlots.any fun p => p.1 == slot then none else some slot

/-- The bytes of a system-call record but REPLY (R293). -/
def IC.sysRecord (x : IC) (code seq pa : Nat) : List WByte :=
  let grid := (((x.s.grid? x.g.grid).map fun (q : Grid) => q.serial).getD 0).toNat
  wbytes pa (leBytes 8 (code + (seq % 2 ^ 32) * 2 ^ 32) ++ leBytes 8 (grid + x.g.teamId % 2 ^ 32 * 2 ^ 32)
      ++ leBytes 8 (x.g.gnum % 16) ++ leBytes 8 x.act.toNat ++ leBytes 8 x.nextPc.toNat ++ leBytes 8 0)
    ++ wbytes (pa + 64) ((run 8 8).flatMap fun n => leBytes 8 (x.g.rdS n).toNat)

/-- A system call (R185): its record goes to the ring after a release at system scope, and the group is parked
until the reply. With no free slot the TRAP has not acted and waits. -/
def IC.sysCall (x : IC) (code : Nat) : Act :=
  match x.s.sysSlot x.g.ctx with
  | none => .wait x.s
  | some slot =>
    match x.actOne .store true (ringBase (x.s.ctxWord x.g.ctx 1) + 128 * slot) 128 with
    | .stop a => a
    | .go pa =>
      if x.s.drainHeld x.g.core (fun _ => true) then .wait x.s
      else
        let s := (x.s.drainLines x.g.core fun _ => true).dropL1 x.g.core [pa / 128]
        let c := s.ctx x.g.ctx
        let seq := c.sysSeq + 1
        let s := s.memWrite (some x.cu.gid) (x.sysRecord code seq pa)
        let s := (s.setCtx x.g.ctx { c with sysSeq := seq, sysSlots := c.sysSlots ++ [(slot, x.cu.gid)] }).pushEvent
          (.sysCall x.g.ctx slot x.g.queue)
        x.pass (s.modGroup x.cu.gid fun g => { g with status := .parked slot })

/-- TRAP (R184): with no active lane it has no effect. -/
def execTrap (o : Ops) (s : State) : Out :=
  issueBoundary .trap .w64 (fun x o =>
    let code := mfld o.m 59 48
    if x.act = 0 then x.pass x.s
    else if 0x800 ≤ code then x.trapIn code
    else x.sysCall code) o s

/-- A reply that has been rung waits to be read: its page is being walked (R213) or has no valid leaf now, or a tenure on its bytes
is being recalled (R325). -/
def State.replyWaits (s : State) (ctx slot : Nat) : State :=
  let c := s.ctx ctx
  if c.rung.contains slot then s else s.setCtx ctx { c with rung := c.rung ++ [slot] }

/-- A reply reaches the parked group of a slot, which is parked no more, and the slot is free (R185, R293). DESIGN CHOICE (log
entry 83): a poisoned reply word is not read as a value (R392), and every live lane of the group dies, as under R244; the spec
names no outcome for it. A discard that has waited for the group's loads goes on (R50). -/
def State.deliverReply (s : State) (ctx slot gid : Nat) (reply : List (Byte × Bool)) : State :=
  let w (i : Nat) : W64 := BitVec.ofNat 64 (leNat (((reply.map (·.1)).drop (8 * i)).take 8))
  let c := s.ctx ctx
  let s := s.setCtx ctx { c with sysSlots := c.sysSlots.filter (·.1 != slot), rung := c.rung.filter (· != slot) }
  let s := s.modGroup gid fun g => { g with status := .running }
  let s := if reply.any (·.2) then s.killLanes gid (((s.group? gid).map Group.live).getD 0)
    else s.modGroup gid fun g => (g.wrS 8 (w 0)).wrS 9 (w 1)
  if (s.group? gid).any (·.again) then (s.modGroup gid fun g => { g with again := false }).startDiscard gid 2 else s

/-- SYSCALL_REPLY (R293, R185): the reply words go to S8 and S9 of the parked group, which is parked no more, and
the slot is free. A reply for a slot that is free, or whose group has stopped, is ignored; one whose bytes lie under a tenure is
read when the recall is over (R325). -/
def execSyscallReply (ctx slot : Nat) (s : State) : Out :=
  match (s.ctx ctx).sysSlots.find? fun p => p.1 == slot with
  | none => .next s
  | some p => match s.group? p.2 with
    | none => .next s
    | some g =>
      if g.status != .parked slot then .next s
      else
        let va := ringBase (s.ctxWord ctx 1) + 128 * slot + 48
        match s.unitAsk ⟨ctx, .frontEnd, false, 0x1FFFF, 0, .reply slot⟩ va with
        | .wait s => .next (s.replyWaits ctx slot)
        | .failed | .denied _ => .next (s.replyWaits ctx slot)
        | .ok pa =>
          match s.readThrough none pa 16 with
          | (s, none) => .next (s.replyWaits ctx slot)
          | (s, some reply) => .next ((s.deliverReply ctx slot p.2 reply).unitDone ctx (.reply slot))

/-! ## SPAWN (R194 to R196) -/

/-- The shape of a spawn record and whether its form is refused (R195, R196). -/
def spawnShape (v : Nat) : Shape × Bool :=
  let roles := nfld v 71 64
  let groups := nfld v 103 72
  let allot := nfld v 135 104
  let bad := nfld v 63 57 != 0 || nfld v 151 147 != 0 || nfld v 255 168 != 0 || nfld v 56 0 % 32 != 0
    || unusedRole roles groups || unusedRole roles allot
  (shapeOf (nfld v 56 0) roles groups allot (nfld v 145 136) (v.testBit 146) (nfld v 159 152) (nfld v 167 160), bad)

/-- The refusal of a SPAWN, in the order of R196. -/
def State.spawnRefusal (s : State) (q : Grid) (sh : Shape) (badForm : Bool) (dies : BitVec 4) : Option Nat :=
  if badForm then some 0x21
  else match s.shapeRefusal sh dies with
    | some r => some r
    | none => if 2 ^ 31 - 1 < q.counter + Shape.total sh then some 0x20 else none

/-- SPAWN after its record has been read. -/
def IC.spawn (x : IC) (s : State) (d v mask : Nat) (arg : W64) : Act :=
  match s.grid? x.g.grid with
  | none => x.pass s
  | some q =>
    let sh := spawnShape v
    let dies := if mask = 0 then q.dies else q.dies &&& BitVec.ofNat 4 mask
    match s.spawnRefusal q sh.1 sh.2 dies with
    | some r => x.pass (s.modGroup x.cu.gid fun g => g.wrS d (BitVec.ofNat 64 (r + 0xFFFFFFFF * 2 ^ 32)))
    | none =>
      let s := s.drainLines x.g.core fun _ => true
      let s := s.setGrid x.g.grid { q with counter := q.counter + Shape.total sh.1 }
      let s := s.queueTeam x.g.grid sh.1 arg dies none
      x.pass (s.modGroup x.cu.gid fun g => g.wrS d (BitVec.ofNat 64 (q.nextTeam % 2 ^ 32 * 2 ^ 32)))

/-- SPAWN (R194 to R196, R446). -/
def execSpawn (o : Ops) (s : State) : Out :=
  issueBoundary .spawn .w96 (fun x o =>
    let a := (x.val o.a true 0).toNat
    if a % 32 ≠ 0 || Config.virtEnd ≤ a then x.actFault 0x06 a 0
    else match x.actOne .load false a 32 with
      | .stop r => r
      | .go pa =>
        let rd := x.s.groupRead x.cu.gid x.g.core pa 32
        if rd.2.any (·.2) then x.pass (rd.1.killLanes x.cu.gid x.g.live)
        else if rd.1.drainHeld x.g.core (fun _ => true) then .wait rd.1
        else x.spawn rd.1 (opNum o.d) (leNat (rd.2.map (·.1))) (nfld o.imm.toNat 3 0) (x.val o.b true 0)) o s

/-! ## SLEEPM (R189) -/

/-- A sleeping split wakes with a value for its destination, and goes on. -/
def State.wakeSplit (s : State) (gid split dst : Nat) (v : W64) : State :=
  s.modGroup gid fun g =>
    let g := { g.wrS dst v with sleepers := g.sleepers.filter (·.split != split) }
    g.goOn split fun _ => g.splitPc split + 8

/-- The value of a word that a SLEEPM compares, and the expected one. -/
def sleepWord (b64 : Bool) (v : Nat) : W64 := BitVec.ofNat 64 (if b64 then v else v % 2 ^ 32)

/-- SLEEPM (R189): the word is read at its home; while it has the expected value the split sleeps. -/
def execSleepm (o : Ops) (s : State) : Out :=
  issueWith .sleepm .w64 (fun x o _ g =>
    let b64 := mbit o.m 53
    let n := if b64 then 8 else 4
    let a := (x.val o.a true 0).toNat
    if a % n ≠ 0 || Config.virtEnd ≤ a then x.fault 0x06 a 0
    else match x.s.span (x.g.req x.cu.gid .load false) a n with
      | .wait => .next (x.s.seekLanes (x.g.req x.cu.gid .load false) n [(0, a)])
      | .faulted recs => .next (x.s.translationFault x.cu.gid recs x.cu.pc x.act)
      | .ok pas =>
        if x.s.homeHeld x.cu.gid x.g.core pas then .next (x.s.callBack (some x.cu.gid) pas)
        else
          let rd := (x.s.setGroup x.cu.gid g).groupRead x.cu.gid x.g.core (pas.headD 0) n
          let want := sleepWord b64 (x.val o.b true 0).toNat
          let g := (rd.1.group? x.cu.gid).getD g
          if rd.2.any (·.2) then ({ x with s := rd.1 } : IC).killAll g
          else if BitVec.ofNat 64 (leNat (rd.2.map (·.1))) != want then
            ({ x with s := rd.1 } : IC).retire (g.wrS (opNum o.d) 0) 0
          else
            let t := mfld o.m 52 48
            let dl := if t = 0 then none else some ((rd.1.die x.dieNo).cycle.toNat + 2 ^ t)
            let g : Group := { g with
              ages := g.ages.filter (·.split != x.cu.split)
              sleepers := g.sleepers ++ [⟨x.cu.split, .sleepm a b64 want, opNum o.d, dl⟩] }
            .next ((rd.1.setGroup x.cu.gid g).releaseYields x.g.core x.cu.gid x.cu.split)) o s

/-- The sleeper of a split of a group that runs. -/
def Group.sleeper (g : Group) (split : Nat) : Option Sleeper :=
  if g.status = .running then g.sleepers.find? fun q => q.split == split else none

/-- SLEEPM_REREAD (R189): the word is read again; a value other than the expected one ends the sleep. -/
def execSleepmReread (gid split : Nat) (s : State) : Out :=
  match s.group? gid with
  | none => noEvent s
  | some g => match g.sleeper split with
    | some ⟨_, .sleepm va b64 want, dst, _⟩ =>
      let n := if b64 then 8 else 4
      let rq := g.req gid .load false
      match s.span rq va n with
      | .wait => .next (s.seekLanes rq n [(0, va)])
      | .faulted recs => .next (s.translationFault gid recs (g.splitPc split) (g.splitLanes split))
      | .ok pas =>
        if s.homeHeld gid g.core pas then .next (s.callBack (some gid) pas)
        else
          let rd := s.groupRead gid g.core (pas.headD 0) n
          if rd.2.any (·.2) then .next (rd.1.killLanes gid g.live)
          else if BitVec.ofNat 64 (leNat (rd.2.map (·.1))) = want then .next rd.1
          else .next (rd.1.wakeSplit gid split dst 0)
    | _ => noEvent s

/-- A sleeper's limit has passed, in cycles of its die (R13, R189). -/
def State.pastDeadline (s : State) (g : Group) (q : Sleeper) : Bool :=
  match q.deadline with
  | some d => d ≤ (s.die (dieOfCore g.core)).cycle.toNat
  | none => false

/-- SLEEPM_TIMEOUT (R189): the word still had the expected value; the result is 1. -/
def execSleepmTimeout (gid split : Nat) (s : State) : Out :=
  match s.group? gid with
  | none => noEvent s
  | some g => match g.sleeper split with
    | some q => match q.kind with
      | .sleepm .. => if s.pastDeadline g q then .next (s.wakeSplit gid split q.dst 1) else noEvent s
      | _ => noEvent s
    | none => noEvent s

end Sys2Proof.Machine
end

