-- ==== Sys2Proof/Machine/Counters.lean ====
section
/-!
DEFINITION. Counters, copy batches and named barriers as instructions reach them (R373 to R389): class 9.
-/

namespace Sys2Proof.Machine

/-! ## WAITC (R383) -/

/-- All three counters are at or below WAITC's counts. -/
def Group.countersMet (g : Group) (o : Ops) : Bool :=
  g.cntLd ≤ mfld o.m 53 48 && g.cntSt ≤ mfld o.m 59 54 && g.cntTl ≤ opNum o.c

/-- WAITC (R383): the split is not ready until all three counters are low enough. -/
def execWaitc (o : Ops) (s : State) : Out :=
  issueWith .waitc .w64 (fun x o _ g => if x.g.countersMet o then x.retire g 0 else x.stall) o s

/-! ## Copy batches (R377, R378) -/

/-- Batch `b` is at or before batch `n` (R378). -/
def atOrBefore (b n : Nat) : Bool := (n + 65536 - b % 65536) % 65536 < 32768

/-- The copies of a group's batch whose completion records are not written. -/
def State.copiesOpen (s : State) (gid batch : Nat) : Nat :=
  let mine (c : CopyCmd) : Bool := c.gid == some gid && c.batch == batch
  (s.copyEng.map fun kv => (kv.2.queue.filter mine).length + (kv.2.running.filter fun r => mine r.cmd).length).foldl
    (· + ·) 0

/-- The pending copies become the next batch, of which `left` are not complete (R377). -/
def Group.formBatch (g : Group) (left : Nat) : Group :=
  let n := g.latest + 1
  { g with
    latest := n
    pend := 0
    batches := if left = 0 then g.batches else g.batches ++ [⟨n.toNat, left⟩] }

/-- The pending copies of a group in the state become its next batch. -/
def State.formBatch (s : State) (gid : Nat) : State :=
  s.modGroup gid fun g => g.formBatch (s.copiesOpen gid (g.latest + 1).toNat)

/-- CLOSEB (R384): it waits while 16 batches are open. -/
def execCloseb (o : Ops) (s : State) : Out :=
  issueWith .closeb .w64 (fun x o _ g =>
    if x.g.pend ≠ 0 && 16 ≤ x.g.batches.length then x.stall
    else
      let g := if x.g.pend = 0 then g else g.formBatch (x.s.copiesOpen x.cu.gid (g.latest + 1).toNat)
      x.retire (g.wrS (opNum o.d) (g.latest.setWidth 64)) 0) o s

/-- An open batch is at or before a target (R385). -/
def Group.batchOpen (g : Group) (target : Nat) : Bool := g.batches.any fun b => atOrBefore b.num target

/-- WAITB (R385). -/
def execWaitb (o : Ops) (s : State) : Out :=
  issueWith .waitb .w64 (fun x o _ g =>
    let n := (x.val o.a true 0).toNat % 65536
    let formed := atOrBefore n x.g.latest.toNat
    let target := if formed then n else x.g.latest.toNat
    let r := if formed then 0 else 2
    if !x.g.batchOpen target then x.retire (g.wrS (opNum o.d) (BitVec.ofNat 64 r)) 0
    else
      let t := mfld o.m 52 48
      let dl := if t = 0 then none else some ((x.s.die x.dieNo).cycle.toNat + 2 ^ t)
      let g : Group := { g with
        ages := g.ages.filter (·.split != x.cu.split)
        sleepers := g.sleepers ++ [⟨x.cu.split, .waitb target r, opNum o.d, dl⟩] }
      .next ((x.s.setGroup x.cu.gid g).releaseYields x.g.core x.cu.gid x.cu.split)) o s

/-- The sleeping WAITBs of a group whose batches are complete wake (R385, R389). -/
def State.wakeBatches (s : State) (gid : Nat) : State :=
  match s.group? gid with
  | none => s
  | some g => g.sleepers.foldl (fun s q => match q.kind with
    | .waitb target r => if g.batchOpen target then s else s.wakeSplit gid q.split q.dst (BitVec.ofNat 64 r)
    | _ => s) s

/-- WAITB_TIMEOUT (R385): a batch was still open at the limit; the result is 1. -/
def execWaitbTimeout (gid split : Nat) (s : State) : Out :=
  match s.group? gid with
  | none => noEvent s
  | some g => match g.sleeper split with
    | some q => match q.kind with
      | .waitb .. => if s.pastDeadline g q then .next (s.wakeSplit gid split q.dst 1) else noEvent s
      | _ => noEvent s
    | none => noEvent s

/-! ## Named barriers (R379, R380, R386, R387) -/

/-- The phase that a barrier of a team stands in. -/
def State.phaseOf (s : State) (team n : Nat) : W64 :=
  ((s.team? team).map fun (t : Team) => (t.barrier n).phase.setWidth 64).getD 0

/-- BAR (R386): arrival, and without `.arrive` the wait for the phase's completion. -/
def IC.bar (x : IC) (o : Ops) (t : Team) : Act :=
  let n := opNum o.a
  let rd := if mbit o.m 62 then some (opNum o.d) else none
  if mbit o.m 63 then
    let s := x.s.arriveBarrier x.cu.gid n
    x.pass (match rd with
      | some d => s.modGroup x.cu.gid fun g => g.wrS d (s.phaseOf x.g.team n)
      | none => s)
  else
    let st := Status.atBarrier n (t.barrier n).phase.toNat rd x.cu.lanes x.cu.pc
    .held ((x.s.modGroup x.cu.gid fun g => { g with status := st }).arriveBarrier x.cu.gid n)

/-- BAR (R386): its arrival waits for the group's fixed stores of the vector and gather paths that are held up (R226, R272). -/
def execBar (o : Ops) (s : State) : Out :=
  issueBoundary .bar .w64 (fun x o =>
    match x.team with
    | none => x.pass x.s
    | some t =>
      if t.barriers.length ≤ opNum o.a then x.actFault 0x06 (opNum o.a) 9
      else if x.g.lateOn 3 then .wait x.s
      else x.bar o t) o s

/-- BARSET (R387), with its value. -/
def issueBarset (len : Len) (value : IC → Ops → Nat) (o : Ops) (s : State) : Out :=
  issueWith .barset len (fun x o _ g =>
    let n := opNum o.d
    let v := value x o
    match x.team with
    | none => x.retire g 0
    | some t =>
      if t.barriers.length ≤ n then x.fault 0x06 n 9
      else if nfld v 31 12 != 0 || nfld v 7 5 != 0 || 16 < v % 32 then x.fault 0x06 v 8
      else
        let b := { t.barrier n with cnt := BitVec.ofNat 5 v, mask := BitVec.ofNat 4 (v / 256) }
        let s := (x.s.setGroup x.cu.gid g).putBarrier x.g.team n b
        ({ x with s := s } : IC).retire ((s.group? x.cu.gid).getD g) 0) o s

/-- BARSET (R387). -/
def execBarset (o : Ops) (s : State) : Out := issueBarset .w64 (fun x o => (x.val o.a true 0).toNat) o s
/-- BARSET with IMM32 as its value (R387). -/
def execBarsetImm (o : Ops) (s : State) : Out := issueBarset .w96 (fun _ o => o.imm.toNat % 2 ^ 32) o s

/-! ## CNTRD (R388) -/

/-- The counters of CNTRD that take no index (R388). -/
def IC.counter (x : IC) (sel : Nat) : Nat :=
  match sel with
  | 0 => x.g.cntLd
  | 1 => x.g.cntSt
  | 2 => x.g.cntTl
  | 3 => x.g.latest.toNat
  | 4 => x.g.batches.length
  | 5 => x.g.pend
  | 9 => ((x.s.grid? x.g.grid).map fun (q : Grid) => q.counter).getD 0
  | 12 => (x.s.core x.g.core).ecor.toNat
  | 13 => (x.s.core x.g.core).eunc.toNat
  | _ => (x.s.core x.g.core).erec.toNat

/-- The counters of a barrier (R388); a MASK of 0 reads as 0xF (R379). -/
def Barrier.counter (b : Barrier) (sel : Nat) : Nat :=
  match sel with
  | 6 => b.arr
  | 7 => b.phase.toNat
  | _ => b.cnt.toNat + (if b.mask = 0 then 15 else b.mask.toNat) * 256

/-- CNTRD (R388). -/
def execCntrd (o : Ops) (s : State) : Out :=
  issueWith .cntrd .w64 (fun x o _ g =>
    let sel := mfld o.m 55 48
    let a := (x.val o.a true 0).toNat
    let done (v : Nat) : Out := x.retire (g.wrS (opNum o.d) (BitVec.ofNat 64 v)) 0
    if 6 ≤ sel && sel ≤ 8 then
      let n := a % 128
      match x.team with
      | none => x.fault 0x06 n 9
      | some t => if t.barriers.length ≤ n then x.fault 0x06 n 9 else done ((t.barrier n).counter sel)
    else if sel = 10 || sel = 11 then
      if 256 ≤ a then x.fault 0x06 a 14
      else
        let e := (x.s.ctx x.g.ctx).set a
        done (if e.state = 0 then 0 else if sel = 10 then e.nskip else e.total.toNat)
    else done (x.counter sel)) o s

end Sys2Proof.Machine
end

