-- ==== Sys2Proof/Machine/Matrix.lean ====
section
/-!
DEFINITION. The matrix engine (R256 to R273): the elements of tiles and their scales, the computation of a pass, and the
conversion of a DRAIN.
-/

namespace Sys2Proof.Machine

/-- The accumulator's format; `none` for INT32 (R70). -/
def accFmt (c : Nat) : Option Fmt :=
  match c with
  | 0 => some .f32
  | 29 => some .f16
  | 30 => some .bf16
  | _ => none

/-- The first byte range outside its buffer, or in a buffer that the team may not use (R203, R204). -/
def firstBadBuf (t : Option Team) (l : List (Space × Nat × Nat)) : Option (Space × Nat) :=
  (l.find? fun p => !usesBufs t || bufSize p.1 < p.2.1 + p.2.2).map fun p => (p.1, p.2.1)

/-! ## Elements (R54 to R60, R75) -/

/-- An operand element: its value, whether a byte of it is poison, whether its code is reserved, and whether
products are formed with it (R269). -/
structure Elem where
  num : Num
  pois : Bool
  bad : Bool
  on : Bool
  deriving DecidableEq, Repr

/-- An element that reads as +0 (R75). DESIGN CHOICE (log entry 100): it is no factor of a product, so a poisoned byte of B leaves the
C elements of an MMAX row that reads as +0 unpoisoned; R392 poisons the sums that took a product of the byte. -/
def Elem.off : Elem := ⟨.zero false, false, false, false⟩

/-- The floating-point format of a code's elements, where it has one (R62). -/
def codeFmt (c : Nat) : Option Fmt :=
  match c with
  | 1 => some .f16
  | 2 => some .bf16
  | 3 | 8 | 25 | 27 => some .e4m3
  | 4 | 9 | 31 => some .e5m2
  | 5 | 10 => some .e3m2
  | 6 | 11 => some .e2m3
  | 7 | 12 | 26 => some .e2m1
  | _ => none

/-- A two's-complement number of w bits. -/
def sextNat (w v : Nat) : Int := if v.testBit (w - 1) then (v : Int) - 2 ^ w else v

/-- The value of a plain element by its code, without scale, and whether it is T2's reserved code (R57, R58). -/
def codeValue (c v : Nat) : Num × Bool :=
  match codeFmt c with
  | some f => (f.dec false v, false)
  | none => match c with
    | 13 => (.ofInt (sextNat 8 v) (-6), false)
    | 14 | 24 => (.ofInt (sextNat 8 v) 0, false)
    | 16 | 23 => (.ofInt (sextNat 4 v) 0, false)
    | 18 => (.ofInt (sextNat 2 v) 0, false)
    | 19 => (.ofInt ([0, 1, 0, -1].getD v 0) 0, v == 2)
    | 20 => (.ofInt (if v = 1 then 1 else -1) 0, false)
    | _ => (.ofInt v 0, false)

/-- A number and its poison at a place of a bank. -/
def bankNat (b : Bank) (off n : Nat) : Nat × Bool :=
  let bs := bankBytes b off n
  (leNat (bs.map (·.1)), bs.any (·.2))

/-- Element `e` of a stream of w-bit elements (R57). -/
def streamElem (b : Bank) (off w e : Nat) : Nat × Bool :=
  let p := w * e
  let first := off + p / 8
  let v := bankNat b first ((p % 8 + w + 7) / 8)
  ((v.1 >>> (p % 8)) % 2 ^ w, v.2)

/-- A value times 2^x. -/
def Num.shift (a : Num) (x : Int) : Num :=
  match a with
  | .fin s m e => .fin s m (e + x)
  | a => a

/-- A product in which a factor of zero gives +0 (R70). -/
def Num.mulZ (a b : Num) : Num :=
  match a, b with
  | .zero _, _ => .zero false
  | _, .zero _ => .zero false
  | a, b => a.mul b

/-- The elements of one row of A or column of B in a k-step (R256 to R60): `off` is the tile's offset, `r` the row
in it, and `tile` and `idx` locate its scales. -/
def rowElems (b : Bank) (code so off tile idx r : Nat) : List Elem :=
  let w := codeBits code
  let scale (u : Nat) : Nat × Bool := match scalePlace code so tile idx r (u / 16) with
    | some p => bankNat b p.1 p.2
    | none => (0, false)
  (List.range 32).map fun u =>
    let e := 32 * r + u
    let sc := scale u
    if code = 21 || code = 22 then
      let byte := streamElem b off 8 (e / 2)
      let d := q4oByte sc.1 byte.1 false
      ⟨if u % 2 = 0 then d.1 else d.2.1, byte.2 || sc.2, u % 2 == 1 && d.2.2, true⟩
    else
      let x := streamElem b off w e
      let v := codeValue code x.1
      let n := match codeBlock code with
        | 0 => v.1
        | 3 => v.1.mulZ (Fmt.f32.dec false sc.1)
        | _ => if sc.1 = 255 then .nan else v.1.shift ((sc.1 : Int) - 127)
      ⟨n, x.2 || sc.2, v.2, true⟩

/-- Elements under a bitmap (R269): one whose bit is 0 reads as zero. -/
def maskElems (b : Bank) (off r : Nat) (l : List Elem) : List Elem :=
  l.zipIdx.map fun p =>
    let x := streamElem b off 1 (32 * r + p.2)
    if x.1 = 1 then { p.1 with pois := p.1.pois || x.2 } else { Elem.off with pois := x.2, on := x.2 }

/-! ## Passes (R70, R267 to R270) -/

/-- Row `r` of tile row `i` of A, and column `c` of tile column `j` of B, in k-step `t`. -/
def TileOp.aElems (o : TileOp) (core : CoreSt) (i r t : Nat) : List Elem :=
  let b := core.bank o.aSpace
  match o.aRow i r with
  | none => List.replicate 32 Elem.off
  | some (p, q) =>
    let l := rowElems b o.aCode o.aScale (o.aTileOff p t) (o.aTileNo p t) p q
    if o.kind = .mms then maskElems b (o.aMap i t) r l else l

def TileOp.bElems (o : TileOp) (core : CoreSt) (j c t : Nat) : List Elem :=
  let l := rowElems core.wbuf o.bCode o.bScale (o.bTileOff j t) (o.bTileNo j t) j c
  if o.kind = .mms then maskElems core.wbuf (o.bMap j t) c l else l

/-- An accumulator: its bits, whether it is poison, and whether a NaN came from no NaN (R262). -/
structure Acc where
  bits : Nat
  pois : Bool
  nv : Bool
  deriving DecidableEq, Repr

/-- An exact integer of a value that is one. -/
def Num.toExact (x : Num) : Int :=
  match x with
  | .fin s m e => if 0 ≤ e then sgn s (m <<< e.toNat) else sgn s (m >>> (-e).toNat)
  | _ => 0

/-- RNE with SAT and FTZ clear, as a pass rounds (R70). -/
def passRnd : Rnd := ⟨0, false, false⟩

/-- One k-step of one element (R70): the exact sum of the products, then one rounding. -/
def accStep (code : Nat) (acc : Acc) (row col : List Elem) : Acc :=
  let ps := row.zip col
  let pois := acc.pois || ps.any fun p => p.1.on && p.2.on && (p.1.pois || p.2.pois)
  match accFmt code with
  | none =>
    let t := ps.foldl (fun t p => t + p.1.num.toExact * p.2.num.toExact) (0 : Int)
    ⟨(BitVec.ofInt 32 ((acc.bits : Int) + t)).toNat, pois, acc.nv⟩
  | some f =>
    let prods := ps.map fun p => p.1.num.mulZ p.2.num
    let sum := prods.foldl (Num.add 0) (.zero false)
    let a := f.dec false acc.bits
    let r := Num.add 0 a sum
    let clean := prods.all (!·.isNan)
    let nv := clean && r.isNan && (!a.isNan || sum.isNan)
    ⟨(f.enc passRnd 0 r).1, pois, acc.nv || nv⟩

/-- The element (r, c) of tile (i, j) after `kk` k-steps (R267). -/
def TileOp.element (o : TileOp) (core : CoreSt) (kk : Nat) (t : Nat × Nat) (r c : Nat) : Acc :=
  let w := codeBits o.cCode
  let start : Acc := if o.z then ⟨0, false, false⟩ else
    let x := streamElem core.cbuf (o.cTile t).1 w (32 * r + c)
    ⟨x.1, x.2, false⟩
  (List.range kk).foldl (fun a u => accStep o.cCode a (o.aElems core t.1 r u) (o.bElems core t.2 c u)) start

/-- A reserved code is decoded by a pass of `kk` k-steps (R60, R262); poison is not decoded (R392). -/
def TileOp.decodesBad (o : TileOp) (core : CoreSt) (kk : Nat) : Bool :=
  let bad (e : Elem) : Bool := e.bad && !e.pois
  o.enabled.any fun t => (List.range kk).any fun u => (List.range 32).any fun r =>
    (o.aElems core t.1 r u).any bad || (o.bElems core t.2 r u).any bad

/-- The C bytes and the flags that a pass leaves after `kk` k-steps. Every operand is read before any C byte is
written (R270). A poisoned element raises no flag (R392). -/
def TileOp.passResult (o : TileOp) (core : CoreSt) (kk : Nat) : List WByte × Fl :=
  let w := codeBits o.cCode
  let tiles := o.enabled.map fun t => (t, (List.range 1024).map fun e => o.element core kk t (e / 32) (e % 32))
  let bytes := tiles.flatMap fun p => p.2.zipIdx.flatMap fun q =>
    (leBytes (w / 8) q.1.bits).zipIdx.map fun b => (⟨(o.cTile p.1).1 + w / 8 * q.2 + b.2, b.1, q.1.pois⟩ : WByte)
  (bytes, { nv := tiles.any fun p => p.2.any (fun a => a.nv && !a.pois), fmt := o.decodesBad core kk })

/-- A pass ends after `kk` of its k-steps: its C tiles are written and it is complete. It reads on the matrix path (R223). -/
def State.endPass (s : State) (o : TileOp) (kk : Nat) : State :=
  let r := o.passResult ((s.core o.core).seenBy 2) kk
  let s := s.settleC o.core (o.enabled.map o.cTile)
  let c := s.core o.core
  ((s.setCore o.core { c with cbuf := bankWrite c.cbuf r.1 }).finishTile o r.2.bits).runClears (engineOfCore o.core)

/-! ## DRAIN (R272, R273, R326) -/

/-- The output width of a DRAIN in bits (R273). -/
def drainBits (df cc : Nat) : Nat :=
  match df with
  | 0 => codeBits cc
  | 1 | 2 | 10 => 16
  | 5 | 6 => 6
  | 7 => 4
  | 8 => 32
  | _ => 8

/-- DF matches the accumulator (R273). -/
def drainAllowed (df cc : Nat) : Bool :=
  if df = 0 then isCCode cc
  else if df ≤ 7 then cc == 0 || cc == 29 || cc == 30
  else if df = 8 then cc == 28 || cc == 29 || cc == 30
  else cc == 28

/-- The floating-point output format; `none` for an integer output (R273). -/
def drainFmt (df cc : Nat) : Option Fmt :=
  match df with
  | 0 => accFmt cc
  | 1 => some .bf16
  | 2 => some .f16
  | 3 => some .e4m3
  | 4 => some .e5m2
  | 5 => some .e3m2
  | 6 => some .e2m3
  | 7 => some .e2m1
  | 8 => some .f32
  | _ => none

/-- The limits of a DRAIN's integer output (R273). -/
def drainLimits (df : Nat) : Int × Int :=
  match df with
  | 9 => (-128, 127)
  | 10 => (-32768, 32767)
  | _ => (-2147483648, 2147483647)

/-- A code of w bits of an integer. -/
def intCodeOf (w : Nat) (v : Int) : Nat := (v % 2 ^ w).toNat

/-- The conversion of one element (R272): code, exact value, flags. Under FTZ a subnormal element reads as zero of its sign,
unrounded output included (R67). -/
def drainConvert (df cc : Nat) (rd : Rnd) (draw c : Nat) : Nat × Num × Fl :=
  let x : Num := match accFmt cc with
    | none => .ofInt (sextNat 32 c) 0
    | some f => f.dec rd.ftz c
  if df = 0 then (match accFmt cc, x with
    | some f, .zero _ => (f.enc passRnd 0 x).1
    | _, _ => c, x, {})
  else match drainFmt df cc with
    | some f =>
      let r := f.enc rd draw x
      (r.1, f.dec false r.1, r.2)
    | none =>
      let lim := drainLimits df
      let r := x.toInt rd draw lim.1 lim.2
      (intCodeOf (drainBits df cc) r.1, .ofInt r.1 0, r.2)

/-- A bound of a range entry (R326). -/
def boundOf (kind : Nat) (b : BitVec 32) : Num := if kind = 1 then Fmt.f32.dec false b.toNat else .ofInt b.toInt 0

/-- A bound rounded into the output format, down for a maximum and up for a minimum (R326). -/
def boundCode (df cc : Nat) (sat : Bool) (up : Bool) (b : Num) : Nat :=
  let rd : Rnd := ⟨if up then 2 else 3, sat, false⟩
  match drainFmt df cc with
  | some f => (f.enc rd 0 b).1
  | none => intCodeOf (drainBits df cc) (b.toInt rd 0 (drainLimits df).1 (drainLimits df).2).1

/-- One element after its range check: code, flags, and whether it fails under the trap action (R272, R326). -/
def TileOp.checked (o : TileOp) (v : Nat × Num × Fl) : Nat × Fl × Bool :=
  let lo := boundOf o.rkind o.rmin
  let hi := boundOf o.rkind o.rmax
  let above := !v.2.1.isNan && hi.lt v.2.1
  let fails := o.rkind != 0 && (v.2.1.isNan || v.2.1.lt lo || above)
  if !fails then (v.1, v.2.2, false)
  else match o.ract with
    | 0 => (v.1, v.2.2.or { range := true }, false)
    | 1 => (boundCode o.df o.cCode (rndOf o.rmr).sat (!above) (if above then hi else lo), v.2.2, false)
    | _ => (v.1, v.2.2, true)

/-- The random state of a lane after `n` draws. -/
def rngAfter (n : Nat) (s : W32) : W32 :=
  match n with
  | 0 => s
  | n + 1 => rngAfter n (rngNext s)

/-- A DRAIN takes draws: stochastic MODE, and an output of 16 bits or fewer (R272). -/
def drainDraws (df cc : Nat) (rmr : W32) : Bool := (rndOf rmr).mode == 6 && drainBits df cc ≤ 16

/-- The converted elements of the enabled tile that stands at `n` among them: code, flags, failing, poison. A poisoned element
is not read as a value: it raises no flag and meets no range check (R392). -/
def TileOp.drainTile (o : TileOp) (core : CoreSt) (n : Nat) (t : Nat × Nat) : List (Nat × Fl × Bool × Bool) :=
  let rd := rndOf o.rmr
  (List.range 1024).map fun e =>
    let x := streamElem core.cbuf (o.cTile t).1 (codeBits o.cCode) e
    let draw := if drainDraws o.df o.cCode o.rmr then
      drawOf (rngAfter (16 * n + e / 64 + 1) (o.draws.getD (e % 64) 0)) else 0
    if x.2 then (0, {}, false, true)
    else
      let r := o.checked (drainConvert o.df o.cCode rd draw x.1)
      (r.1, r.2.1, r.2.2, false)

/-- Bits `[lo, lo + n)` of a stream of w-bit codes, and whether a code in it is poison. -/
def streamBits (w : Nat) (cs : List (Nat × Bool)) (lo n : Nat) : Nat × Bool :=
  let first := lo / w
  let part := (cs.drop first).take ((lo + n - 1) / w + 1 - first)
  ((packBits w (part.map (·.1)) >>> (lo - first * w)) % 2 ^ n, part.any (·.2))

/-- Put the outputs of a DRAIN to registers: the words of the enabled tiles, and the lanes that read poison. -/
def TileOp.drainRegs (o : TileOp) (outs : List ((Nat × Nat) × List (Nat × Bool))) (live : Mask) (d : Nat) :
    List RegWrite × Mask :=
  let w := drainBits o.df o.cCode
  let nr := w / 2
  let ws := outs.flatMap fun p => (List.range (64 * nr)).filterMap fun k =>
    if inMask (o.active &&& live) (k % 64) then
      some (d + nr * (p.1.1 * o.geo.n + p.1.2) + k / 64, k % 64, streamBits w p.2 (32 * k) 32)
    else none
  let bad := maskOf fun l => ws.any fun x => x.2.1 == l && x.2.2.2
  ((ws.filter fun x => !inMask bad x.2.1).map fun x => RegWrite.v x.1 x.2.1 (BitVec.ofNat 32 x.2.2.1), bad)

/-- The bytes of row `r` of a tile's output: address, value, poison (R272). -/
def TileOp.drainRow (o : TileOp) (out : (Nat × Nat) × List (Nat × Bool)) (r : Nat) : List (Int × Byte × Bool) :=
  let w := drainBits o.df o.cCode
  let start := o.addr + ((32 * out.1.1 + r) * o.geo.pitch + 4 * w * out.1.2 : Nat)
  (List.range (4 * w)).map fun b =>
    let x := streamBits w out.2 (8 * (4 * w * r + b)) 8
    (start + (b : Int), BitVec.ofNat 8 x.1, x.2)

/-- The first address and the number of bytes of each row that a DRAIN to memory writes, in order (R272). -/
def TileOp.drainRows (o : TileOp) : List (Int × Nat) :=
  let w := drainBits o.df o.cCode
  o.enabled.flatMap fun t => (List.range 32).map fun r =>
    (o.addr + ((32 * t.1 + r) * o.geo.pitch + 4 * w * t.2 : Nat), 4 * w)

/-- A DRAIN's data arrives in a held line: the bytes that wait for it take their values. -/
def fillLine (id : Nat) (lines : List (Nat × Nat)) (outs : List (Int × Byte × Bool)) (b : BufLine) : BufLine :=
  { b with bytes := b.bytes.map fun x =>
      if x.wait = some id then
        match outs.reverse.find? fun (o : Int × Byte × Bool) =>
            o.1.toNat % 128 == x.off && lines.any fun m => m.1 == o.1.toNat / 128 && m.2 == b.line with
        | some o => { x with val := o.2.1, pois := o.2.2, wait := none }
        | none => { x with wait := none }
      else x }

/-- The DETAIL1 of a range-check record (R400). -/
def rangeDetail (t : Nat × Nat) (e code : Nat) : Nat := e + (8 * t.1 + t.2) * 1024 + code % 2 ^ 32 * 2 ^ 32

/-- What becomes of a DRAIN's outputs (R272, R400): a failing element under the trap action raises the stop line, and else
they land in registers or in the lines that wait for them. -/
def State.deliverDrain (s : State) (o : TileOp) (live : Mask) (tiles : List ((Nat × Nat) × List (Nat × Fl × Bool × Bool))) :
    State :=
  let failing := tiles.findSome? fun p => (p.2.zipIdx.find? fun q => q.1.2.2.1).map fun q => (p.1, q.2, q.1.1)
  let outs := tiles.map fun p => (p.1, p.2.map fun q => (q.1, q.2.2.2))
  match failing with
  | some (t, e, code) =>
    s.raiseFault o.gid 0x0B (BitVec.ofNat 64 o.handle) (BitVec.ofNat 64 (rangeDetail t e code)) o.active o.pc
  | none =>
    match o.dreg with
    | some d =>
      let r := o.drainRegs outs live d
      let s := s.modGroup o.gid fun g => r.1.foldl (fun g w => match w with
        | .v r l v => g.wrLane r l v
        | _ => g) g
      s.killLanes o.gid (r.2 &&& live)
    | none =>
      let bytes := outs.flatMap fun p => (List.range 32).flatMap fun r => o.drainRow p r
      let fill := fillLine o.id o.lines bytes
      handLate 128 (s.modGroup o.gid fun g => { g with buf := g.buf.map fill, late := g.late.map fill }) o.gid

/-- A DRAIN completes (R272): it has read its tiles on the matrix path (R223). Nothing of a halted group changes (R396). -/
def State.endDrain (s : State) (o : TileOp) : State :=
  match s.group? o.gid with
  | none => s
  | some g =>
    if g.status = .halted then s
    else
      let c := (s.core o.core).seenBy 2
      let tiles := o.enabled.zipIdx.map fun p => (p.1, o.drainTile c p.2 p.1)
      let fl := tiles.foldl (fun f p => p.2.foldl (fun f q => f.or q.2.1) f) ({} : Fl)
      ((s.finishTile o fl.bits).deliverDrain o g.live tiles).runClears (engineOfCore o.core)

end Sys2Proof.Machine
end

