-- ==== Sys2Proof/Machine/MatrixOps.lean ====
section
/-!
DEFINITION. The instructions of class 4 (R264 to R279), and the events of the matrix engine: grants, k-step
boundaries, ageing and completions (R261, R262).
-/

namespace Sys2Proof.Machine

/-! ## Handles and tile predicates as an instruction finds them (R119, R264, R315) -/

/-- The entry that a handle value names, when the value is live (R315). -/
def Ctx.liveHandle (c : Ctx) (v : Nat) : Option Handle :=
  let i := v % 65536
  let h := c.handle i
  if i ≠ 0 && nfld v 23 16 == 0 && h.state == 1 && h.gen.toNat == nfld v 31 24 then some h else none

/-- A K register is stale (R119). -/
def Ctx.stale (c : Ctx) (k : KReg) : Bool :=
  let h := c.handle k.tagIdx.toNat
  (k.tagIdx != 0 || k.tagGen != 0) && !(k.tagIdx != 0 && h.state == 1 && h.gen == k.tagGen)

/-- The tile predicate that an instruction uses (R264): all ones without a K register or with a stale one, which
sets STALE. -/
def IC.tiles (x : IC) (o : Opd) : W64 × Fl :=
  match o with
  | .k n =>
    let k := x.g.k.getD n.toNat ⟨0, 0, 0⟩
    if (x.s.ctx x.g.ctx).stale k then (-1, { stale := true }) else (k.tiles, {})
  | _ => (-1, {})

/-! ## Posting (R260, R261) -/

/-- The operations in a cluster's reservation table that are of a core (R260). -/
def State.requestsOf (s : State) (core : Nat) : Nat :=
  ((s.matrixEng (engineOfCore core)).all.filter (·.core == core)).length

/-- The engine of a group's core. -/
def Group.engine (g : Group) : Nat := engineOfCore g.core

/-- A tile operation may be posted: fewer than 16 of its core's are held, CNT.TL is below 63 (R260), and the engine is not
retired (R403). DESIGN CHOICE (log entry 84): a posting instruction that meets a retired engine waits, for the spec says only that
its group is evicted. -/
def IC.canPost (x : IC) : Bool :=
  x.s.requestsOf x.g.core < 16 && x.g.cntTl < 63 && !(x.s.matrixEng x.g.engine).retired

/-- A new operation of the issuing group, with its priority (R261). -/
def IC.newOp (x : IC) (kind : TileKind) (urgent : Bool) (desc fmt0 fmt1 tiles : W64) : TileOp :=
  let held := (x.s.matrixEng x.g.engine).all.any fun o => o.core == x.g.core && o.prio == 16
  let u := urgent && x.s.queueUrg x.g.queue && !held
  { id := x.s.nextId, gid := x.cu.gid, core := x.g.core, kind := kind, z := false, urgent := u,
    prio := if u then 16 else x.s.queuePrio x.g.queue, agedAt := (x.s.die x.dieNo).cycle.toNat, due := 0,
    pc := x.cu.pc, desc := desc, fmt0 := fmt0, fmt1 := fmt1, tiles := tiles, rows := [], pm := 1, bitmaps := 0,
    df := 0, rmr := 0, draws := [], rmin := 0, rmax := 0, rkind := 0, ract := 0, dreg := none, active := 0,
    space := .c, addr := 0, lines := [], regionNo := x.g.regionNo, kdone := 0 }

/-- A tile operation counts in CNT.TL from its issue, and takes a number (R262). -/
def State.countOp (s : State) (gid : Nat) : State :=
  { s.modGroup gid (fun g => { g with cntTl := g.cntTl + 1 }) with nextId := s.nextId + 1 }

/-- The context of a group. -/
def State.ctxOf (s : State) (gid : Nat) : Nat := ((s.group? gid).map (·.ctx)).getD 0

/-- Post an operation: it counts in CNT.TL (R262). One that reaches an engine which has halted for the context's stop is withdrawn
(R396). -/
def State.postOp (s : State) (engine : Nat) (o : TileOp) : State :=
  let ctx := s.ctxOf o.gid
  if s.haltedAt ctx (matrixCode engine) then s.countOp o.gid
  else
    let e := s.matrixEng engine
    ((s.setMatrix engine { e with requests := e.requests ++ [o] }).countOp o.gid).giveWork ctx (matrixCode engine)

/-- Issue a CZERO: it counts in CNT.TL, and is performed at once when nothing stands before it (R262, R271). -/
def State.postClear (s : State) (engine : Nat) (o : TileOp) : State :=
  let e := s.matrixEng engine
  ((s.setMatrix engine { e with clears := e.clears ++ [o] }).countOp o.gid).runClears engine

/-! ## The C-buffer's slots (R47) -/

/-- The slots that an operation's C tiles lie in, each with the bytes of it that the tiles cover. -/
def TileOp.slotBytes (o : TileOp) : List (Nat × Nat) :=
  (List.range 64).filterMap fun n =>
    let c := (o.enabled.map fun t =>
      let p := o.cTile t
      min (p.1 + p.2) (4096 * n + 4096) - max p.1 (4096 * n)).foldl (· + ·) 0
    if c = 0 then none else some (n, c)

/-- The tracking after a pass, or the slot whose write is illegal (R47): an accumulating pass reads its slots first;
`.z` sets the slots that it covers whole. -/
def Track.passSlots (t : Track) (z : Bool) (slots : List (Nat × Nat)) : Option Nat × Track :=
  let t := if z then t else slots.foldl (fun (t : Track) p =>
    if t.cw.getLsbD p.1 then t else { t with cl := t.cl ||| (1#64 <<< p.1) }) t
  match slots.find? fun p => t.cl.getLsbD p.1 with
  | some p => (some p.1, t)
  | none => (none, if z then slots.foldl (fun (t : Track) p =>
      if p.2 = 4096 then { t with cw := t.cw ||| (1#64 <<< p.1) } else t) t else t)

/-! ## MMA, MMAX and MMS (R267 to R269) -/

/-- The checks of a pass and its posting (R266): illegal format, protection, handle misuse, then C slots. DESIGN CHOICE (log entry
35): R266 gives the C slots' legality (R47) no place; the model reports it after handle misuse, as it needs the operation's
tiles. -/
def IC.postPass (x : IC) (op : Op) (o : TileOp) (illegal : Bool) (fl : Fl) (g : Group) (die : Mask) : Out :=
  if illegal || fmtIllegal o.fmt0.toNat o.fmt1.toNat then x.fault 0x08 o.fmt0.toNat o.fmt1.toNat
  else match firstBadBuf x.team o.spans with
    | some (sp, off) => x.fault 0x06 off (spaceCode sp)
    | none =>
      if o.handle ≠ 0 && ((x.s.ctx x.g.ctx).liveHandle o.handle).isNone then x.fault 0x07 o.handle op.code
      else
        let tr := g.track.passSlots o.z o.slotBytes
        match tr.1 with
        | some n => x.fault 0x04 (n + 0x1000) 1
        | none =>
          let g : Group := { g with gsr := g.gsr ||| fl.bits, track := tr.2 }
          let s := (x.s.setGroup x.cu.gid g).postOp x.g.engine o
          ({ x with s := s } : IC).retire ((s.group? x.cu.gid).getD g) die

/-- A pass as its instruction word gives it: descriptor, format block, Z, U, K (R265). -/
def IC.passOp (x : IC) (kind : TileKind) (o : Ops) : TileOp × Fl :=
  let a := opNum o.a
  let tl := x.tiles o.b
  ({ x.newOp kind (mbit o.m 61) (x.val o.d true 0) (x.g.rdS a) (x.g.rdS (a + 1)) tl.1 with z := mbit o.m 63 }, tl.2)

/-- MMA (R267). -/
def execMma (o : Ops) (s : State) : Out :=
  issueWith .mma .w64 (fun x o _ g =>
    if !x.canPost then x.stall
    else
      let p := x.passOp .mma o
      x.postPass .mma p.1 false p.2 g 0) o s

/-- MMAX (R268): each output row takes the pool row that its lane of the index register names; a lane that is not
live, or a row past the pool, reads as +0. A lane whose index is poison dies. -/
def execMmax (o : Ops) (s : State) : Out :=
  issueWith .mmax .w64 (fun x o f g =>
    if !x.canPost then x.stall
    else
      let p := x.passOp .mmax o
      let pm := mfld o.m 55 48 + 1
      let die := x.g.poisonedLanes f.rvAll x.g.live
      let r := x.g.opV o.c
      let rows := (List.range 64).map fun l =>
        let v := (x.g.rdV r l).toNat
        if inMask (x.g.live &&& ~~~die) l && v < 32 * pm then some v else none
      x.postPass .mmax { p.1 with rows := rows, pm := pm } (2 < p.1.geo.m) p.2 g die) o s

/-- MMS (R269). -/
def execMms (o : Ops) (s : State) : Out :=
  issueWith .mms .w64 (fun x o _ g =>
    if !x.canPost then x.stall
    else
      let p := x.passOp .mms o
      let b := x.val o.c true 0
      let bad := nfld b.toNat 63 36 != 0 || nfld b.toNat 17 0 % 128 != 0 || nfld b.toNat 35 18 % 128 != 0
      x.postPass .mms { p.1 with bitmaps := b } bad p.2 g 0) o s

/-! ## CZERO (R271) -/

/-- A group's operations that are not complete touch these bytes of `c:` (R263). -/
def State.tileBusy (s : State) (gid engine : Nat) (ranges : List (Nat × Nat)) : Bool :=
  (s.matrixEng engine).pending.any fun o => o.gid == gid && rangesMeet o.cRanges ranges

/-- The operation of a CZERO: its slots are the first n tiles of its mask, from an offset (R271). -/
def IC.clearOp (x : IC) (off n : Nat) (tiles : W64) : TileOp :=
  { x.newOp .czero false 0 0 0 (tiles &&& BitVec.ofNat 64 (2 ^ n - 1)) with addr := off }

/-- CZERO (R271): it follows the group's earlier operations on its slots, and the C-buffer port then clears them. -/
def execCzero (o : Ops) (s : State) : Out :=
  issueWith .czero .w64 (fun x o _ g =>
    let off := (x.val o.a false 0).toNat
    let n := mfld o.m 53 48 + 1
    let tl := x.tiles o.b
    let op := x.clearOp off n tl.1
    let slots := op.slots.map (· / 4096)
    if off % 4096 ≠ 0 || (firstBadBuf x.team [(Space.c, off, 4096 * n)]).isSome then x.fault 0x06 off 4
    else match slots.find? fun i => g.track.cl.getLsbD i with
      | some i => x.fault 0x04 (i + 0x1000) 1
      | none =>
        if 63 ≤ x.g.cntTl then x.stall
        else
          let cw := slots.foldl (fun (m : BitVec 64) i => m ||| (1#64 <<< i)) g.track.cw
          let g : Group := { g with gsr := g.gsr ||| tl.2.bits, track := { g.track with cw := cw } }
          let s := (x.s.setGroup x.cu.gid g).postClear x.g.engine op
          ({ x with s := s } : IC).retire ((s.group? x.cu.gid).getD g) 0) o s

/-! ## DRAIN (R272, R273) -/

/-- The operation of a DRAIN, with the range entry of its handle (R326). -/
def IC.drainOp (x : IC) (o : Ops) : TileOp × Fl :=
  let a := opNum o.a
  let tl := x.tiles o.c
  let op := x.newOp .drain false (x.val o.b true 0) (x.g.rdS a) (x.g.rdS (a + 1)) tl.1
  let dsp := mfld o.m 59 58
  let sp := if dsp = 2 then Space.g else .l
  let h := ((x.s.ctx x.g.ctx).liveHandle op.handle).getD Handle.reset
  ({ op with
     df := mfld o.m 55 52
     rmr := x.g.rmr
     draws := x.g.rng
     rmin := h.rmin
     rmax := h.rmax
     rkind := if op.handle = 0 then 0 else h.rkind.toNat
     ract := h.ract.toNat
     dreg := if dsp = 0 then some (x.g.opV o.d) else none
     active := x.act
     space := sp
     addr := if dsp = 0 then 0 else x.addrBase o.d (sp == .g) 0 + offsetOf o }, tl.2)

/-- The V registers of a DRAIN's enabled tiles, and of its whole run (R272). -/
def TileOp.drainRun (o : TileOp) (d : Nat) : List Nat :=
  let nr := drainBits o.df o.cCode / 2
  o.enabled.flatMap fun t => run (d + nr * (t.1 * o.geo.n + t.2)) nr
def TileOp.drainSpan (o : TileOp) : Nat := drainBits o.df o.cCode / 2 * o.geo.m * o.geo.n

/-- The footprint of a DRAIN: its run of registers follows from its descriptor and format block (R272). -/
def IC.drainFoot (len : Len) (o : Ops) (x : IC) : Foot :=
  let f := x.g.foot .drain len o
  let op := (x.drainOp o).1
  match op.dreg with
  | some d => { f with spans := [(d, op.drainSpan, 1)], wv := op.drainRun d }
  | none => f

/-- The checks of a DRAIN up to its destination (R266): a fault's kind and details. -/
def IC.drainFault (x : IC) (op : TileOp) : Option (Nat × Nat × Nat) :=
  let f0 := op.fmt0.toNat
  let f1 := op.fmt1.toNat
  if fmtReserved f0 f1 || !drainAllowed op.df op.cCode
      || (op.dreg.isNone && op.geo.pitch < 4 * drainBits op.df op.cCode * op.geo.n) then some (0x08, f0, f1)
  else match firstBadBuf x.team op.spans with
    | some (sp, off) => some (0x06, off, spaceCode sp)
    | none =>
      match (if op.dreg.isNone then op.drainRows.find? fun r => !inSpace x.team op.space r.1 r.2 else none) with
      | some r => some (0x06, addrDetail r.1, spaceCode op.space)
      | none =>
        if op.handle ≠ 0 && ((x.s.ctx x.g.ctx).liveHandle op.handle).isNone then
          some (0x07, op.handle, Op.drain.code)
        else none

/-- The group after a DRAIN has issued: its draws taken, STALE raised. -/
def Group.drained (g : Group) (op : TileOp) (fl : Fl) : Group :=
  let n := 16 * op.enabled.length
  { g with
    gsr := g.gsr ||| fl.bits
    rng := if drainDraws op.df op.cCode op.rmr then g.rng.map (rngAfter n) else g.rng }

/-- Post a DRAIN whose checks have passed. -/
def IC.postDrain (x : IC) (s : State) (g : Group) (op : TileOp) (fl : Fl) : Out :=
  let s := (s.setGroup x.cu.gid (g.drained op fl)).postOp x.g.engine op
  let s := match op.dreg with
    | some d => s.modGroup x.cu.gid fun g => { g with pending := g.pending ++ [⟨op.id, false, op.drainRun d, [], [], []⟩] }
    | none => s
  ({ x with s := s } : IC).retire ((s.group? x.cu.gid).getD g) 0

/-- DRAIN (R272). DESIGN CHOICE (log entry 85): its lines in `g:` and `l:` are on the matrix path, for R223 and R266 name the path
of its accesses in the typed buffers alone. -/
def issueDrain (len : Len) (o : Ops) (s : State) : Out :=
  match s.ic o.g with
  | none => .fault .noIssuingSplit
  | some x0 =>
    if x0.g.busy (x0.g.foot .drain len o) then x0.stall
    else issueFoot (IC.drainFoot len o) (fun x o _ g =>
      if !x.canPost then x.stall
      else
        let p := x.drainOp o
        match x.drainFault p.1 with
        | some e => x.fault e.1 e.2.1 e.2.2
        | none =>
          if p.1.dreg.isSome then x.postDrain x.s g p.1 p.2
          else
            let rows := p.1.drainRows
            let n := (rows.head?.map (·.2)).getD 0
            match x.reach p.1.space n .store true (rows.zipIdx.map fun r => (r.2, r.1.1)) with
            | .stop r => r
            | .go ok _ recs =>
              if !recs.isEmpty then .next (x.s.translationFault x.cu.gid recs x.cu.pc x.act)
              else
                let va (i : Nat) : Nat := ((rows.getD i (0, 0)).1).toNat
                let bs := ok.flatMap fun q => q.2.zipIdx.map fun b =>
                  (⟨va q.1 + b.2, b.1, 0, none, false, some p.1.id⟩ : StByte)
                let lines := (bs.map fun b => (b.va / 128, b.at_ / 128)).eraseDups
                match storeConflict g.buf p.1.space bs with
                | some a => x.fault 0x04 a 2
                | none => match overCapacity g.buf p.1.space bs with
                  | some a =>
                    let start := ((rows.find? fun r => r.1 ≤ (a : Int) && (a : Int) < r.1 + r.2).map fun r => r.1.toNat).getD a
                    x.fault 0x05 start 64
                  | none =>
                    x.postDrain x.s { g with buf := placeStore g.buf p.1.space 2 bs } { p.1 with lines := lines } p.2) o s

/-- DRAIN (R272). -/
def execDrain (o : Ops) (s : State) : Out := issueDrain .w64 o s
/-- DRAIN to memory with IMM32 as its offset (R272, R265). -/
def execDrainImm (o : Ops) (s : State) : Out := issueDrain .w96 o s

/-! ## Tile predicate registers (R274 to R278) -/

/-- A K register with the tag of a handle value (R275). -/
def tagged (tiles : W64) (h : W64) : KReg := ⟨tiles, h.extractLsb' 0 16, h.extractLsb' 24 8⟩

/-- KZERO (R274). -/
def execKzero (o : Ops) (s : State) : Out := issueAlu .kzero .w64 (fun _ o => { k := [(opNum o.d, ⟨0, 0, 0⟩)] }) o s

/-- KLD `.s` (R275): TILES is an S register. -/
def effKldS (x : IC) (o : Ops) : Eff := { k := [(opNum o.d, tagged (x.val o.a true 0) (x.val o.b true 0))] }

/-- KLD from memory (R275, R446). -/
def issueKld (len : Len) (o : Ops) (s : State) : Out :=
  issueWith .kld len (fun x o _ g =>
    if 63 ≤ g.cntLd then x.stall
    else
      let sp := accSpace o
      let a := x.addrBase o.a (sp == .g) 0 + offsetOf o
      if a % 8 ≠ 0 then x.fault 0x06 (addrDetail a) (spaceCode sp)
      else match x.reach sp 8 .load false [(0, a)] with
        | .stop r => r
        | .go ok _ recs =>
          if !recs.isEmpty then .next (x.s.translationFault x.cu.gid recs x.cu.pc x.act)
          else
            let rd := (x.s.setGroup x.cu.gid g).readPlaces x.cu.gid x.g.core x.g.buf sp [(none, (ok.map (·.2)).headD [])]
            let got := rd.2.headD []
            if got.any (·.2) then
              let g := (rd.1.group? x.cu.gid).getD g
              ({ x with s := rd.1 } : IC).retire g g.live
            else
              let d := opNum o.d
              let k := tagged (BitVec.ofNat 64 (leNat (got.map (·.1)))) (x.val o.b true 0)
              let s := rd.1.postLoad x.cu.gid [] [] [d] [.k d k]
              ({ x with s := s } : IC).retire ((s.group? x.cu.gid).getD g) 0) o s

/-- KLD (R275). -/
def execKld (o : Ops) (s : State) : Out := if mbit o.m 56 then issueAlu .kld .w64 effKldS o s else issueKld .w64 o s
/-- KLD with IMM32 as its offset (R275, R265); the `.s` form reads no memory, and its offset has no effect (DEDUCED, log entry 8). -/
def execKldImm (o : Ops) (s : State) : Out := if mbit o.m 56 then issueAlu .kld .w96 effKldS o s else issueKld .w96 o s

/-- The bytes that KST stores (R276). -/
def kstBytes (k : KReg) (tag : Bool) : List Byte :=
  leBytes 8 k.tiles.toNat ++ (if tag then leBytes 2 k.tagIdx.toNat ++ leBytes 1 k.tagGen.toNat ++ leBytes 5 0 else [])

/-- KST (R276): its bytes are group-wide. -/
def issueKst (len : Len) (o : Ops) (s : State) : Out :=
  issueWith .kst len (fun x o _ g =>
    let sp := accSpace o
    let bytes := kstBytes (x.g.k.getD (opNum o.d) ⟨0, 0, 0⟩) (mbit o.m 56)
    let a := x.addrBase o.a (sp == .g) 0 + offsetOf o
    if a % (bytes.length : Int) ≠ 0 then x.fault 0x06 (addrDetail a) (spaceCode sp)
    else match x.reach sp bytes.length .store true [(0, a)] with
      | .stop r => r
      | .go ok _ recs =>
        if !recs.isEmpty then .next (x.s.translationFault x.cu.gid recs x.cu.pc x.act)
        else
          let bs := (bytes.zip ((ok.map (·.2)).headD [])).zipIdx.map fun q =>
            (⟨a.toNat + q.2, q.1.2, q.1.1, none, false, none⟩ : StByte)
          x.intoBuffer g sp 0 false bs (fun _ => a.toNat) 0) o s

/-- KST (R276). -/
def execKst (o : Ops) (s : State) : Out := issueKst .w64 o s
/-- KST with IMM32 as its offset (R276, R265). -/
def execKstImm (o : Ops) (s : State) : Out := issueKst .w96 o s

/-- KLOP (R277): the selection table of BMUX; the tag is the first source's. -/
def effKlop (x : IC) (o : Ops) : Eff :=
  let k (n : Opd) : KReg := x.g.k.getD (opNum n) ⟨0, 0, 0⟩
  let a := k o.a
  let t := mfld o.m 55 48
  let b := (k o.b).tiles
  let c := (k o.c).tiles
  { k := [(opNum o.d, { a with tiles := (~~~a.tiles &&& nibbleFn (t / 16) b c) ||| (a.tiles &&& nibbleFn (t % 16) b c) })] }

def execKlop (o : Ops) (s : State) : Out := issueAlu .klop .w64 effKlop o s

/-- KSET (R278): a rectangle of tile predicates. -/
def effKset (x : IC) (o : Ops) : Eff :=
  let v := o.imm.toNat
  let tiles := maskOf fun i => nfld v 2 0 ≤ i / 8 && i / 8 ≤ nfld v 5 3 && nfld v 8 6 ≤ i % 8 && i % 8 ≤ nfld v 11 9
  { k := [(opNum o.d, tagged tiles (x.val o.a true 0))] }

def execKset (o : Ops) (s : State) : Out := issueAlu .kset .w96 effKset o s

/-! ## BXPOSE (R279) -/

/-- The transpose of a stream of w-bit elements: code and poison of element e (R279). -/
def transposed (w : Nat) (bs : List (Byte × Bool)) (e : Nat) : List (Byte × Bool) :=
  (bs.drop ((32 * (e % 32) + e / 32) * (w / 8))).take (w / 8)

/-- BXPOSE (R279): it reads and stores on the matrix path (R266). DESIGN CHOICE (log entry 86): of two bad offsets the fault names
the destination's, for R266 and R447 order no two faults of one kind here. -/
def execBxpose (o : Ops) (s : State) : Out :=
  issueWith .bxpose .w64 (fun x o _ g =>
    let w := [16, 8, 32].getD (mfld o.m 49 48) 16
    let dsp := accSpace o
    let ssp := spaceOf (mfld o.m 56 54)
    let d := (x.val o.d false 0).toNat
    let a := (x.val o.a false 0).toNat
    let n := 128 * w
    if d % 128 ≠ 0 || (firstBadBuf x.team [(dsp, d, n)]).isSome then x.fault 0x06 d (spaceCode dsp)
    else if a % 128 ≠ 0 || (firstBadBuf x.team [(ssp, a, n)]).isSome then x.fault 0x06 a (spaceCode ssp)
    else if (ssp == .c && x.s.tileBusy x.cu.gid x.g.engine [(a, n)]) || x.g.awaits ssp (run a n) then x.stall
    else
      let bank := ((x.s.core x.g.core).seenBy 2).bank ssp
      let src := (run a n).map fun at_ => seeByte x.g.buf ssp none at_ (bankByte bank at_, bankPoison bank at_)
      let out := (List.range 1024).flatMap fun e => transposed w src e
      let bs := out.zipIdx.map fun q => (⟨d + q.2, d + q.2, q.1.1, none, q.1.2, none⟩ : StByte)
      x.intoBuffer g dsp 2 false bs (fun _ => d) 0) o s

/-! ## Arbitration and completion (R261, R262) -/

/-- Of two requests the one that is granted first: higher priority, then earlier posting. -/
def TileOp.better (a b : TileOp) : TileOp := if a.prio < b.prio then b else a

/-- The best of the requests that may be granted. -/
def MatrixEng.best (e : MatrixEng) : Option TileOp :=
  match e.requests.filter e.grantable with
  | [] => none
  | o :: rest => some (rest.foldl TileOp.better o)

/-- A request below 15 has waited for a step of ageing (R261). -/
def ageDue (now : Nat) (o : TileOp) : Bool := o.prio < 15 && o.agedAt + 4096 ≤ now

/-- An engine works: its die has power. A retired engine has no request left, and ends the pass that it runs (R403). -/
def State.engineUp (s : State) (n : Nat) : Bool := (s.die (n / 64)).powered

/-- The cycles of one k-step of a pass, or of a DRAIN (R62, R261). -/
def TileOp.period (o : TileOp) : Nat :=
  let n := o.enabled.length
  if o.isPass then
    let r := min (codeRate o.aCode) (codeRate o.bCode)
    (n + r - 1) / r
  else n

/-- MATRIX_GRANT (R261): an idle engine grants a priority-16 request, resumes a suspended pass, or grants the best
request. -/
def execMatrixGrant (engine : Nat) (s : State) : Out :=
  let e := s.matrixEng engine
  let now := (s.die (engine / 64)).cycle.toNat
  if e.running.isSome || !s.engineUp engine || e.requests.any (ageDue now) then noEvent s
  else
    let start (o : TileOp) : Option TileOp := some { o with due := now + o.period }
    match e.suspended, e.best with
    | none, none => noEvent s
    | none, some o =>
      .next (s.setMatrix engine { e with requests := e.requests.filter (·.id != o.id), running := start o })
    | some p, some o =>
      if o.prio = 16 then
        .next (s.setMatrix engine { e with requests := e.requests.filter (·.id != o.id), running := start o })
      else .next (s.setMatrix engine { e with suspended := none, running := start p })
    | some p, none => .next (s.setMatrix engine { e with suspended := none, running := start p })

/-- KSTEP_BOUNDARY (R261): a k-step of the running pass ends, and more are left; a waiting priority-16 request
suspends a pass of lower priority. -/
def execKstepBoundary (engine : Nat) (s : State) : Out :=
  let e := s.matrixEng engine
  let now := (s.die (engine / 64)).cycle.toNat
  match e.running with
  | none => noEvent s
  | some o =>
    if !o.isPass || o.geo.k ≤ o.kdone + 1 || now < o.due || !s.engineUp engine then noEvent s
    else
      let o := { o with kdone := o.kdone + 1, due := now + o.period }
      if o.prio < 16 && e.suspended.isNone && (e.requests.any fun r => r.prio == 16 && e.grantable r) then
        .next (s.setMatrix engine { e with running := none, suspended := some o })
      else .next (s.setMatrix engine { e with running := some o })

/-- REQUEST_AGEING (R261): each request below 15 that has waited 4,096 cycles more gains one step. -/
def execRequestAgeing (engine : Nat) (s : State) : Out :=
  let e := s.matrixEng engine
  let now := (s.die (engine / 64)).cycle.toNat
  if e.requests.any (ageDue now) then
    let aged (o : TileOp) : TileOp := if ageDue now o then { o with prio := o.prio + 1, agedAt := o.agedAt + 4096 } else o
    .next (s.setMatrix engine { e with requests := e.requests.map aged })
  else noEvent s

/-- PASS_COMPLETE (R262): the last k-step of the running pass has ended. -/
def execPassComplete (engine op : Nat) (s : State) : Out :=
  let e := s.matrixEng engine
  let now := (s.die (engine / 64)).cycle.toNat
  match e.running with
  | none => noEvent s
  | some o =>
    if o.id != op || !o.isPass || !s.engineUp engine || now < o.due || (o.kdone + 1 < o.geo.k && !o.enabled.isEmpty) then
      noEvent s
    else .next ((s.setMatrix engine { e with running := none }).endPass o o.geo.k)

/-- The outbound path of a group has no room for all its lines that wait for a DRAIN's data, and cannot make it (R375, R234). -/
def State.lateBlocked (s : State) (gid : Nat) : Bool :=
  match s.group? gid with
  | none => false
  | some g => 63 < g.cntSt + g.late.length && s.outHeld g.core (·.gid == gid)

/-- DRAIN_COMPLETE (R272): the running DRAIN has converted its tiles. Its lines wait for room on their way (R375). -/
def execDrainComplete (engine op : Nat) (s : State) : Out :=
  let e := s.matrixEng engine
  let now := (s.die (engine / 64)).cycle.toNat
  match e.running with
  | none => noEvent s
  | some o =>
    if o.id != op || o.isPass || !s.engineUp engine || now < o.due
        || (o.dreg.isNone && s.lateBlocked o.gid) then noEvent s
    else .next ((s.setMatrix engine { e with running := none }).endDrain o)

end Sys2Proof.Machine
end

