-- ==== Sys2Proof/Machine/Sequencer.lean ====
section
/-!
DEFINITION. The latent step sequencer (R357 to R372): tile records, signatures, deliveries, and the instructions of
class 8. A set's sequencer takes its requests in the order in which steps make them (R358).
-/

namespace Sys2Proof.Machine

/-! ## Signatures (R362) -/

/-- The signature of a tile's values: SIGSUM and SIGABS as FP32 codes (R362). -/
def signatureOf (vals : List Num) : Nat × Nat :=
  let total (l : List Num) : Nat := (Fmt.f32.enc passRnd 0 (l.foldl (Num.add 0) (.zero false))).1
  (total vals, total (vals.map Num.abs))

/-- The exact distance of two FP32 codes. -/
def sigDistance (a b : Nat) : Num := ((Fmt.f32.dec false a).add 0 (Fmt.f32.dec false b).negate).abs

/-- d < THR for the greater of the two distances; false with a NaN (R363). -/
def withinThreshold (thr : Nat) (sum abs refSum refAbs : Nat) : Bool :=
  let d1 := sigDistance sum refSum
  let d2 := sigDistance abs refAbs
  let t := Fmt.f32.dec false thr
  !d1.isNan && !d2.isNan && d1.lt t && d2.lt t

/-! ## The entries of the table (R359) -/

/-- The 64 bytes of a step-set entry (R359). -/
def StepSet.bytes (x : StepSet) : List Byte :=
  leBytes 8 x.map.toNat ++ leBytes 4 x.handle.toNat ++ leBytes 4 x.tcnt ++ leBytes 4 x.thr.toNat ++ leBytes 1 x.maxRun.toNat
    ++ leBytes 1 x.state.toNat ++ leBytes 2 x.epoch.toNat ++ leBytes 4 x.step.toNat
    ++ leBytes 4 (x.nskip + x.flags.toNat * 2 ^ 13 + x.nsig * 2 ^ 16) ++ leBytes 4 x.total.toNat ++ List.replicate 28 0

/-- An entry from its 64 bytes; its reserved bits are not held. -/
def StepSet.ofNat (v : Nat) : StepSet :=
  { map := BitVec.ofNat 57 (nfld v 56 0), handle := BitVec.ofNat 32 (nfld v 95 64), tcnt := nfld v 108 96
    thr := BitVec.ofNat 32 (nfld v 159 128), maxRun := BitVec.ofNat 8 (nfld v 167 160), state := BitVec.ofNat 2 (nfld v 169 168)
    epoch := BitVec.ofNat 16 (nfld v 191 176), step := BitVec.ofNat 32 (nfld v 223 192), nskip := nfld v 236 224
    flags := BitVec.ofNat 3 (nfld v 239 237), nsig := nfld v 252 240, total := BitVec.ofNat 32 (nfld v 287 256) }

/-- The 64 bytes of a handle table entry, its lowest first (R317). -/
def Handle.bytes (h : Handle) : List Byte :=
  leBytes 8 (h.gen.toNat + h.state.toNat * 2 ^ 8) ++ leBytes 8 h.base.toNat ++ leBytes 4 h.e0.toNat ++ leBytes 2 h.e1.toNat
    ++ leBytes 2 h.e2.toNat ++ leBytes 2 h.e3.toNat ++ leBytes 4 h.st1.toNat ++ leBytes 4 h.st2.toNat ++ leBytes 4 h.st3.toNat
    ++ leBytes 4 h.rmin.toNat ++ leBytes 4 h.rmax.toNat ++ leBytes 1 (h.rkind.toNat + h.ract.toNat * 4) ++ List.replicate 17 0

/-- An entry from its 64 bytes; its reserved bits are not held (R317). -/
def Handle.ofNat (v : Nat) : Handle :=
  { gen := BitVec.ofNat 8 v, state := BitVec.ofNat 2 (nfld v 9 8), base := BitVec.ofNat 57 (nfld v 120 64)
    e0 := BitVec.ofNat 32 (nfld v 159 128), e1 := BitVec.ofNat 16 (nfld v 175 160), e2 := BitVec.ofNat 16 (nfld v 191 176)
    e3 := BitVec.ofNat 16 (nfld v 207 192), st1 := BitVec.ofNat 32 (nfld v 239 208), st2 := BitVec.ofNat 32 (nfld v 271 240)
    st3 := BitVec.ofNat 32 (nfld v 303 272), rmin := BitVec.ofNat 32 (nfld v 335 304), rmax := BitVec.ofNat 32 (nfld v 367 336)
    rkind := BitVec.ofNat 2 (nfld v 369 368), ract := BitVec.ofNat 2 (nfld v 371 370) }

/-- A table entry that holds a physical byte: the context, and its handle or step set (R314, R358). -/
inductive TableEntry where
  | handle (ctx n : Nat)
  | set (ctx n : Nat)
  deriving DecidableEq, Repr

/-- The entry whose 64 bytes hold a physical address (R314, R358): the tables of contexts in use. -/
def State.entryAt (s : State) (pa : Nat) : Option TableEntry :=
  let inTable (base : BitVec 64) (size : Nat) : Bool := base.toNat ≤ pa && pa < base.toNat + size
  match s.ctxs.find? fun kv => kv.2.state != .free && (inTable kv.2.sqBase 16384 || inTable kv.2.htBase 4194304) with
  | none => none
  | some kv =>
    if inTable kv.2.sqBase 16384 then some (.set kv.1 ((pa - kv.2.sqBase.toNat) / 64))
    else some (.handle kv.1 ((pa - kv.2.htBase.toNat) / 64))

/-- The 64 bytes of a table entry. -/
def State.entryBytes (s : State) (e : TableEntry) : List Byte :=
  match e with
  | .handle c n => ((s.ctx c).handle n).bytes
  | .set c n => ((s.ctx c).set n).bytes

/-- `n` bytes of memory as host and peers read them: those of a handle or sequencer table are its entries' (R314, R317, R358, R359). -/
def State.outsideRead (s : State) (pa n : Nat) : List (Byte × Bool) :=
  (s.physRead pa n).zipIdx.map fun q => match s.entryAt (pa + q.2) with
    | none => q.1
    | some e => ((s.entryBytes e).getD ((pa + q.2) % 64) 0, q.1.2)

/-- One byte that reaches a table changes its entry (R317, R358, R359). -/
def State.putEntry (s : State) (w : WByte) : State :=
  match s.entryAt w.addr with
  | none => s
  | some e =>
    let v := leNat ((s.entryBytes e).set (w.addr % 64) w.val)
    match e with
    | .handle c n => s.setCtx c ((s.ctx c).setHandle n (Handle.ofNat v))
    | .set c n => s.setCtx c ((s.ctx c).setSet n (StepSet.ofNat v))

/-- A write by the host or a peer (R325): to memory, and to the tables that it reaches (R314, R358). -/
def State.outsideWrite (s : State) (ws : List WByte) : State :=
  let s := ((ws.map (·.addr / 128)).eraseDups).foldl State.openLine s
  ((ws.filter fun w => s.memUp w.addr).foldl State.putEntry s).memWrite none ws

/-! ## Tile records (R361) -/

/-- A tile record (R361). -/
structure TileRec where
  refSum : Nat
  refAbs : Nat
  run : Nat
  skip : Bool
  epoch : Nat
  step : Nat
  deriving DecidableEq, Repr

/-- A record from the 16 bytes of memory. -/
def TileRec.ofNat (v : Nat) : TileRec :=
  ⟨nfld v 31 0, nfld v 63 32, nfld v 71 64, v.testBit 72, nfld v 95 80, nfld v 127 96⟩

/-- The 16 bytes of a record; its reserved bits are written 0. -/
def TileRec.bytes (r : TileRec) : List Byte :=
  leBytes 4 r.refSum ++ leBytes 4 r.refAbs ++ leBytes 1 r.run ++ leBytes 1 r.skip.toNat ++ leBytes 2 r.epoch
    ++ leBytes 4 r.step

/-- The sequencer's access to record `t` of set `n` (R358, R361): its walks are those of the set's die. -/
def State.recordAsk (s : State) (ctx n : Nat) (x : StepSet) (t : Nat) (wr : Bool) : UnitReach :=
  s.unitAsk ⟨ctx, .frontEnd, wr, 0, n % 4, .sequencer n⟩ (x.map.toNat + 16 * t)

/-- The physical address of a record, where the sequencer's access has succeeded (R361, R372). -/
def State.recordAt (s : State) (ctx n : Nat) (x : StepSet) (t : Nat) (wr : Bool) : Option Nat :=
  match s.recordAsk ctx n x t wr with
  | .ok pa => some pa
  | _ => none

/-- The sequencer's access to one of some records still waits for its walk, or for its line to be held under its leaf's key. -/
def State.recordsWait (s : State) (ctx n : Nat) (x : StepSet) (ts : List Nat) (wr : Bool) : Bool :=
  ts.any fun t => s.recordAsk ctx n x t wr matches .wait _

/-- What accesses to some records wait for is set going: their walks, and then the recall of the tenures on them (R213, R322,
R325). -/
def State.recordsSeek (s : State) (ctx n : Nat) (x : StepSet) (ts pas : List Nat) (wr : Bool) : State :=
  if s.recordsWait ctx n x ts wr then
    ts.foldl (fun s t => match s.recordAsk ctx n x t wr with
      | .wait s => s
      | _ => s) s
  else s.callBack none pas

/-- A record as the sequencer reads it; one with a poisoned byte counts as not valid. -/
def State.recordRead (s : State) (pa : Nat) : Option TileRec :=
  let r := s.memNat pa 16
  if r.2 then none else some (TileRec.ofNat r.1)

/-- A record is valid for a set, and current for its step (R361). -/
def TileRec.valid (r : TileRec) (x : StepSet) : Bool := r.epoch == x.epoch.toNat
def TileRec.current (r : TileRec) (x : StepSet) : Bool := r.valid x && r.step == x.step.toNat

/-! ## Deliveries (R363) -/

/-- The set's flags of a step: DUP, LATE, RANGE (R359). -/
def StepSet.flag (x : StepSet) (n : Nat) : StepSet := { x with flags := x.flags ||| (1#3 <<< n) }

/-- The record after a delivery that is applied, and whether the tile is skipped (R363). -/
def StepSet.applied (x : StepSet) (rec? : Option TileRec) (sum abs : Nat) : TileRec :=
  let fresh : TileRec := ⟨sum, abs, 0, false, x.epoch.toNat, x.step.toNat⟩
  match rec? with
  | none => fresh
  | some r =>
    if r.valid x && withinThreshold x.thr.toNat sum abs r.refSum r.refAbs && r.run < x.maxRun.toNat then
      { r with run := r.run + 1, skip := true, step := x.step.toNat }
    else fresh

/-- Skip counts are 13 bits wide (R357, R359). -/
def count13 (n : Nat) : Nat := n % 8192

/-- The delivery of a signature to a tile of a set (R363, R367, R372): the state, and whether the signature is
lost to a copy's record (R303). -/
def State.delivered (s : State) (ctx set tile sum abs : Nat) : State × Bool :=
  let c := s.ctx ctx
  let x := c.set set
  if x.state = 0 then (s, true)
  else if x.state = 1 then (s.setCtx ctx (c.setSet set (x.flag 1)), true)
  else if x.tcnt ≤ tile then (s.setCtx ctx (c.setSet set (x.flag 2)), true)
  else match s.recordAt ctx set x tile true with
    | none => (s.setCtx ctx (c.setSet set (x.flag 2)), true)
    | some pa =>
      let s := s.intrude none (run pa 16) true
      let r := s.recordRead pa
      if (r.map fun (q : TileRec) => q.current x).getD false then (s.setCtx ctx (c.setSet set (x.flag 0)), false)
      else
        let n := x.applied r sum abs
        let k := n.skip.toNat
        let s := s.memWrite none (wbytes pa n.bytes)
        (s.setCtx ctx (c.setSet set
          { x with nskip := count13 (x.nskip + k), nsig := count13 (x.nsig + 1), total := x.total + BitVec.ofNat 32 k }), false)

/-- The same, after which the sequencer holds no translation for it any longer. -/
def State.deliver (s : State) (ctx set tile sum abs : Nat) : State × Bool :=
  let r := s.delivered ctx set tile sum abs
  (r.1.unitDone ctx (.sequencer set), r.2)

/-- The sequencer of a set works: set s is served by that of die s mod 4, which has power (R358, R14). -/
def State.sequencerUp (s : State) (set : Nat) : Bool := (s.die (set % 4)).powered && !(s.die (set % 4)).failed

/-- A delivery waits: its sequencer does not work, or its record cannot be reached or written yet (R234, R325). -/
def State.deliveryHeld (s : State) (ctx set tile : Nat) : Bool :=
  let x := (s.ctx ctx).set set
  !s.sequencerUp set || (x.state == 2 && tile < x.tcnt && (s.recordsWait ctx set x [tile] true
    || (s.recordAt ctx set x tile true).any fun pa => s.writeHeld pa 16))

/-- What such a delivery waits for is set going. -/
def State.deliveryRecall (s : State) (ctx set tile : Nat) : State :=
  let x := (s.ctx ctx).set set
  if x.state == 2 && tile < x.tcnt then
    s.recordsSeek ctx set x [tile] ((s.recordAt ctx set x tile true).toList.flatMap fun pa => run pa 16) true
  else s

/-! ## The instructions of class 8 (R365 to R370) -/

/-- The set that a register names, where the checks of R365 allow it: `used` asks for a set that is not unused. -/
def IC.setNumber (x : IC) (o : Opd) (used : Bool) : Except Nat Nat :=
  let v := (x.val o true 0).toNat
  if 256 ≤ v then .error v
  else if used && ((x.s.ctx x.g.ctx).set v).state == 0 then .error v
  else .ok v

/-- Write the EPOCH bytes of every record of a set to 0, and set RANGE where one cannot be written (R366, R372). -/
def StepSet.epochBytes (s : State) (ctx n : Nat) (x : StepSet) : List (Option Nat) :=
  (List.range x.tcnt).map fun t => (s.recordAt ctx n x t true).map (· + 10)

/-- A new epoch opens: the records cleared, EPOCH advanced past 0, STEP 1 (R366). -/
def StepSet.newEpoch (x : StepSet) (lost : Bool) : StepSet :=
  { x with epoch := if x.epoch = 0xFFFF then 1 else x.epoch + 1
           step := 1
           nskip := 0
           nsig := 0
           flags := if lost then 4 else 0
           state := 2 }

/-- A set opens in a new epoch. -/
def IC.openEpoch (x : IC) (s : State) (n d : Nat) (e : StepSet) : Act :=
  let pas := e.epochBytes s x.g.ctx n
  let ok := pas.filterMap id
  if s.drainHeld x.g.core (fun _ => true) then .wait s
  else if s.recordsWait x.g.ctx n e (List.range e.tcnt) true || ok.any (fun a => s.writeHeld a 2) then
    .wait (s.recordsSeek x.g.ctx n e (List.range e.tcnt) (ok.flatMap fun a => run a 2) true)
  else
    let s := s.drainLines x.g.core fun _ => true
    let s := s.memWrite none (ok.flatMap fun a => wbytes a [0, 0])
    let c := s.ctx x.g.ctx
    let s := (s.setCtx x.g.ctx (c.setSet n (e.newEpoch (pas.any (·.isNone))))).unitDone x.g.ctx (.sequencer n)
    x.pass (s.modGroup x.cu.gid fun g => g.wrS d (BitVec.ofNat 64 (2 ^ 32)))

/-- A step-set descriptor is malformed (R360). -/
def setDescBad (v : Nat) : Bool :=
  nfld v 63 57 != 0 || nfld v 5 0 != 0 || nfld v 255 152 != 0 || nfld v 111 96 < 1 || 4096 < nfld v 111 96
    || 0x7F800000 ≤ nfld v 143 112

/-- An SQOPEN that changes no set (R366). -/
def IC.sqResult (x : IC) (s : State) (d r : Nat) : Act :=
  x.pass (s.modGroup x.cu.gid fun g => g.wrS d (BitVec.ofNat 64 r))

/-- SQOPEN `.init` with its descriptor read (R366). -/
def IC.sqInit (x : IC) (s : State) (n d v : Nat) : Act :=
  let c := s.ctx x.g.ctx
  let e := c.set n
  if e.state = 2 then x.sqResult s d 1
  else if setDescBad v then x.sqResult s d 2
  else if nfld v 95 64 ≠ 0 && (c.liveHandle (nfld v 95 64)).isNone then x.sqResult s d 3
  else x.openEpoch s n d { e with
    map := BitVec.ofNat 57 v
    handle := BitVec.ofNat 32 (nfld v 95 64)
    tcnt := nfld v 111 96
    thr := BitVec.ofNat 32 (nfld v 143 112)
    maxRun := BitVec.ofNat 8 (nfld v 151 144)
    total := 0 }

/-- SQOPEN without `.init` (R366). -/
def IC.sqPlain (x : IC) (n d : Nat) : Act :=
  let c := x.s.ctx x.g.ctx
  let e := c.set n
  if e.state = 2 then x.sqResult x.s d 1
  else if e.state = 0 then x.sqResult x.s d 4
  else if e.step = 0xFFFFFFFF then x.openEpoch x.s n d e
  else if x.s.drainHeld x.g.core (fun _ => true) then .wait x.s
  else
    let s := x.s.drainLines x.g.core fun _ => true
    let e := { e with step := e.step + 1, nskip := 0, nsig := 0, flags := 0, state := 2 }
    x.sqResult (s.setCtx x.g.ctx ((s.ctx x.g.ctx).setSet n e)) d (e.step.toNat * 2 ^ 32)

/-- SQOPEN (R366, R446). -/
def execSqopen (o : Ops) (s : State) : Out :=
  issueBoundary .sqopen .w64 (fun x o =>
    match x.setNumber o.a false with
    | .error v => x.actFault 0x06 v 14
    | .ok n =>
      let d := opNum o.d
      if !x.s.sequencerUp n then .wait x.s
      else if !mbit o.m 63 then x.sqPlain n d
      else
        let a := (x.val o.b true 0).toNat
        if a % 32 ≠ 0 || Config.virtEnd ≤ a then x.actFault 0x06 a 0
        else match x.actOne .load false a 32 with
          | .stop r => r
          | .go pa =>
            let rd := x.s.groupRead x.cu.gid x.g.core pa 32
            if rd.2.any (·.2) then x.pass (rd.1.killLanes x.cu.gid x.g.live)
            else x.sqInit rd.1 n d (leNat (rd.2.map (·.1)))) o s

/-- The lanes that hold a poisoned element of a run of 16 registers. -/
def Group.poisonedRun (g : Group) (r : Nat) : Mask := maskOf fun l => (run r 16).any fun q => g.crossPois q l

/-- The 1,024 elements of a run of 16 registers; a dead lane, and one that dies of its element, reads as +0
(R367). -/
def Group.tileElements (g : Group) (r : Nat) (die : Mask) : List Num :=
  (run r 16).flatMap fun q => (List.range 64).map fun l =>
    if inMask die l then .zero false else Fmt.f32.dec false (g.crossV q l).toNat

/-- SQSIG (R367). -/
def execSqsig (o : Ops) (s : State) : Out :=
  issueBoundary .sqsig .w64 (fun x o =>
    match x.setNumber o.c true with
    | .error v => x.actFault 0x06 v 14
    | .ok n =>
      let tile := (x.val o.b true 0).toNat % 65536
      if x.s.deliveryHeld x.g.ctx n tile then .wait (x.s.deliveryRecall x.g.ctx n tile)
      else
        let die := x.g.poisonedRun (x.g.opV o.a)
        let sig := signatureOf (x.g.tileElements (x.g.opV o.a) die)
        x.pass ((x.s.deliver x.g.ctx n tile sig.1 sig.2).1.killLanes x.cu.gid die)) o s

/-- The tile predicates of a window (R364). -/
def State.skipWindow (s : State) (ctx n : Nat) (x : StepSet) (t0 : Nat) : W64 :=
  maskOf fun b =>
    let t := t0 + b
    decide (t < x.tcnt) && !(match s.recordAt ctx n x t false with
      | some pa => ((s.recordRead pa).map fun (r : TileRec) => r.current x && r.skip).getD false
      | none => false)

/-- The tiles of a window that a set has, each with the place of its record (R364, R369). -/
def State.windowRecords (s : State) (ctx n : Nat) (x : StepSet) (t0 : Nat) (wr : Bool) : List (Nat × Option Nat) :=
  ((List.range 64).filter fun b => t0 + b < x.tcnt).map fun b => (b, s.recordAt ctx n x (t0 + b) wr)

/-- The tiles of a window that a set has. -/
def StepSet.window (x : StepSet) (t0 : Nat) : List Nat := (run t0 64).filter (· < x.tcnt)

/-- SKLD (R368, R364). -/
def execSkld (o : Ops) (s : State) : Out :=
  issueWith .skld .w64 (fun x o _ g =>
    match x.setNumber o.a true with
    | .error v => x.fault 0x06 v 14
    | .ok n =>
      let e := (x.s.ctx x.g.ctx).set n
      let t0 := (x.val o.b true 0).toNat % 65536
      let pas := (x.s.windowRecords x.g.ctx n e t0 false).flatMap fun p => p.2.toList.flatMap fun pa => run pa 16
      if 63 ≤ x.g.cntLd || !x.s.sequencerUp n then x.stall
      else if x.s.recordsWait x.g.ctx n e (e.window t0) false || x.s.intrudeWaits none pas then
        .next (x.s.recordsSeek x.g.ctx n e (e.window t0) pas false)
      else
        let s := (x.s.setGroup x.cu.gid g).intrude none pas false
        let k := tagged (s.skipWindow x.g.ctx n e t0) (e.handle.setWidth 64)
        let d := opNum o.d
        let s := (s.postLoad x.cu.gid [] [] [d] [.k d k]).unitDone x.g.ctx (.sequencer n)
        ({ x with s := s } : IC).retire ((s.group? x.cu.gid).getD g) 0) o s

/-- The bytes 9 to 15 of a record that SKST writes: SKIP, EPOCH and STEP (R369). -/
def StepSet.skipBytes (x : StepSet) (skip : Bool) (pa : Nat) : List WByte :=
  wbytes (pa + 9) (leBytes 1 skip.toNat ++ leBytes 2 x.epoch.toNat ++ leBytes 4 x.step.toNat)

/-- SKST (R369, R372). -/
def execSkst (o : Ops) (s : State) : Out :=
  issueWith .skst .w64 (fun x o _ g =>
    match x.setNumber o.a true with
    | .error v => x.fault 0x06 v 14
    | .ok n =>
      let c := x.s.ctx x.g.ctx
      let e := c.set n
      let t0 := (x.val o.b true 0).toNat % 65536
      let recs := x.s.windowRecords x.g.ctx n e t0 true
      if !x.s.sequencerUp n then x.stall
      else if x.s.recordsWait x.g.ctx n e (e.window t0) true || (recs.filterMap (·.2)).any (fun pa => x.s.writeHeld pa 16) then
        .next (x.s.recordsSeek x.g.ctx n e (e.window t0) ((recs.filterMap (·.2)).flatMap fun pa => run pa 16) true)
      else
        let tiles := (x.g.k.getD (opNum o.d) ⟨0, 0, 0⟩).tiles
        let s := recs.foldl (fun (s : State) p => match p.2 with
          | some pa => s.memWrite none (e.skipBytes (!tiles.getLsbD p.1) pa)
          | none => s) (x.s.setGroup x.cu.gid g)
        let s := (if recs.any (·.2.isNone) then s.setCtx x.g.ctx (c.setSet n (e.flag 2)) else s).unitDone x.g.ctx (.sequencer n)
        ({ x with s := s } : IC).retire ((s.group? x.cu.gid).getD g) 0) o s

/-- SQCLOSE's result (R370). -/
def StepSet.closeResult (x : StepSet) : W64 :=
  BitVec.ofNat 64 (x.nskip + x.nsig * 2 ^ 16 + x.flags.toNat * 2 ^ 32 + (if x.state = 2 then 0 else 2 ^ 40))

/-- SQCLOSE (R370). -/
def execSqclose (o : Ops) (s : State) : Out :=
  issueBoundary .sqclose .w64 (fun x o =>
    match x.setNumber o.a true with
    | .error v => x.actFault 0x06 v 14
    | .ok n =>
      let c := x.s.ctx x.g.ctx
      let e := c.set n
      if !x.s.sequencerUp n then .wait x.s
      else
        let s := if e.state = 2 then
            (x.s.setCtx x.g.ctx (c.setSet n { e with state := 1 })).emptyL1 x.g.core
          else x.s
        x.pass (s.modGroup x.cu.gid fun g => g.wrS (opNum o.d) e.closeResult)) o s

end Sys2Proof.Machine
end

