-- ==== Sys2Proof/Machine/Copy.lean ====
section
/-!
DEFINITION. The copy engine (R296 to R307): layout records, formats and conversion, the walk of the box, the
generator's micro-program, and the signatures that a walk gathers.
-/

namespace Sys2Proof.Machine

/-! ## Formats (R299) -/

/-- The bits of an element by its copy format code (R299). -/
def copyBits (f : Nat) : Nat := [32, 16, 16, 8, 8, 6, 6, 4, 8, 8, 16, 32, 4, 4, 8, 16, 32, 64].getD f 8

/-- The floating-point format of a code below 8. -/
def copyFmt (f : Nat) : Fmt := [Fmt.f32, .f16, .bf16, .e4m3, .e5m2, .e3m2, .e2m3].getD f .e2m1

/-- Raw formats, and the Q4O formats, by code (R299). -/
def copyRaw (f : Nat) : Bool := 14 ≤ f
def copyQ4o (f : Nat) : Bool := f == 12 || f == 13

/-- A format pair is allowed (R300). -/
def copyPair (sf df : Nat) : Bool :=
  sf < 18 && df < 18 && !copyQ4o df && (if copyRaw sf || copyRaw df then sf == df else true)

/-- The exact value of an element's bits (R300). -/
def copyDec (f : Nat) (ftz : Bool) (code : Nat) : Num :=
  if f < 8 then (copyFmt f).dec ftz code
  else .ofInt (if f = 9 then (code : Int) else (BitVec.ofNat (copyBits f) code).toInt) 0

/-- The one rounding into the destination format (R300, R67). -/
def copyEnc (f : Nat) (rd : Rnd) (draw : Nat) (v : Num) : Nat × Fl :=
  if f < 8 then (copyFmt f).enc rd draw v
  else
    let w := copyBits f
    let lim := intLimits w (f != 9)
    let r := v.toInt (if 16 < w then rd.wide else rd) draw lim.1 lim.2
    ((BitVec.ofInt w r.1).toNat, r.2)

/-- The signalling NaNs of a source element (R151). -/
def copySnan (f code : Nat) : Bool := f < 8 && (copyFmt f).snan code

/-! ## The layout record (R297, R298) -/

/-- A signed 64-bit field. -/
def sfld (v lo : Nat) : Int := (BitVec.ofNat 64 (v >>> lo)).toInt

/-- A layout record from its 192 bytes (R297). -/
def Layout.ofNat (v : Nat) : Layout :=
  let one (n : Nat) : Nat := if n = 0 then 1 else n
  { src := nfld v 63 0
    dst := nfld v 127 64
    hdr := nfld v 191 128
    tdim := (List.range 4).map fun k => one (nfld v (223 + 32 * k) (192 + 32 * k))
    box := (List.range 4).map fun k => one (nfld v (335 + 16 * k) (320 + 16 * k))
    sstr := (List.range 3).map fun k => sfld v (384 + 64 * k)
    dstr := (List.range 3).map fun k => sfld v (576 + 64 * k)
    sfmt := nfld v 775 768
    dfmt := nfld v 783 776
    sspc := nfld v 791 784
    dspc := nfld v 799 792
    dir := v.testBit 800
    uops := (List.range (min 16 (nfld v 815 808))).map fun j => BitVec.ofNat 32 (v >>> (1024 + 32 * j)) }

/-- The number of elements of the box. -/
def Layout.total (l : Layout) : Nat := l.box.foldl (· * ·) 1

/-- The widths of the two sides. -/
def Layout.ws (l : Layout) : Nat := copyBits l.sfmt
def Layout.wd (l : Layout) : Nat := copyBits l.dfmt

/-- A side narrower than 8 bits whose dimension 0 does not come in eights (R298). -/
def Layout.ragged (l : Layout) (w : Nat) (coordinated : Bool) (c0 : Int) : Bool :=
  w < 8 && (l.box.headD 1 % 8 != 0 || l.tdim.headD 1 % 8 != 0 || (coordinated && c0 % 8 != 0))

/-- A record is malformed (R298). -/
def layoutBad (v : Nat) (toRegs : Bool) (c0 : Int) : Bool :=
  let l := Layout.ofNat v
  nfld v 1023 816 != 0 || nfld v 807 801 != 0 || 16 < nfld v 815 808 || nfld v 63 57 != 0 || nfld v 127 121 != 0
    || 4 < l.sspc || 4 < l.dspc || !copyPair l.sfmt l.dfmt || (toRegs && l.dir)
    || l.ragged l.ws (!l.dir) c0 || l.ragged l.wd l.dir c0

/-! ## Commands and what the engine asks of memory (R304, R307) -/

/-- Fields of a command (R304). -/
def CopyCmd.sset (c : CopyCmd) : Nat := nfld c.ctl.toNat 39 32
def CopyCmd.tile0 (c : CopyCmd) : Nat := nfld c.ctl.toNat 31 16
def CopyCmd.tag (c : CopyCmd) : Nat := nfld c.ctl.toNat 15 0
def CopyCmd.sigOn (c : CopyCmd) : Bool := c.ctl.getLsbD 40
def CopyCmd.rnd (c : CopyCmd) : Rnd := rndOf (c.seed.extractLsb' 32 32)

/-- A command is malformed in itself (R304). -/
def CopyCmd.bad (c : CopyCmd) : Bool :=
  nfld c.layout.toNat 63 57 != 0 || nfld c.ctl.toNat 63 41 != 0 || nfld c.seed.toNat 63 37 != 0
    || nfld c.seed.toNat 34 32 == 7

/-- A coordinate of the command, signed (R304). -/
def CopyCmd.at (c : CopyCmd) (k : Nat) : Int := (c.coord.getD k 0).toInt

/-- The requester of a copy's translations (R296, R307). -/
def CopyCmd.req (c : CopyCmd) (engine : Nat) (wr : Bool) : Req :=
  ⟨c.ctx, if wr then .copyWrite else .copyRead, wr, none, some engine, 1024 + engine, engine / 64, .copy engine c.id⟩

/-- What an access of a copy finds: its places, something that a read or a write waits for at an address, or a fault of
R306. -/
inductive CopyReach where
  | ok (pas : List Nat)
  | held (va : Nat) (wr : Bool)
  | fault (code addr : Nat)
  deriving DecidableEq, Repr

/-- The team whose scratch and typed buffers a copy reaches; a packet's has none (R296). -/
def State.copyTeam (s : State) (c : CopyCmd) : Option Team :=
  (c.gid.bind s.group?).bind fun g => s.team? g.team

/-- The places of the bytes of one access (R301, R307). -/
def State.copyReach (s : State) (engine : Nat) (c : CopyCmd) (sp : Space) (wr : Bool) (a : Int) (n : Nat) :
    CopyReach :=
  let t := s.copyTeam c
  if !inSpace t sp a n then .fault 0x61 (addrDetail a)
  else if sp = .g then
    let rq := c.req engine wr
    match s.span rq a.toNat n with
    | .ok pas => if (wr && s.hostHolds pas) || s.intrudeWaits c.gid pas then .held a.toNat wr else .ok pas
    | _ => .held (((lineVas a.toNat n).find? fun va => match s.translate rq va with
        | .ok _ => !(s.misKeyed rq [va]).isEmpty
        | _ => true).getD a.toNat) wr
  else .ok (run (bankPlace t sp a.toNat) n)

/-- Bytes at places, as a copy reads them on its path: at L2 or in the core's banks (R223, R296). -/
def State.copyRead (s : State) (c : CopyCmd) (sp : Space) (pas : List Nat) : List (Byte × Bool) :=
  if sp = .g then pas.flatMap fun a => s.memRead a 1
  else
    let b := ((s.core c.core).seenBy 3).bank sp
    pas.map fun a => (bankByte b a, bankPoison b a)

/-- The tenures that a held access waits for are being recalled (R313, R322). -/
def State.copyHold (s : State) (engine : Nat) (c : CopyCmd) (sp : Space) (wr : Bool) (a : Int) (n : Nat) : State :=
  if sp != .g then s
  else match s.span (c.req engine wr) a.toNat n with
    | .ok pas => if s.intrudeWaits c.gid pas then s.callBack c.gid pas else s
    | _ => s

/-- The places that a copy is about to write: tenures there end (R325), or the stores that are fixed there come first. -/
def State.copyClaim (s : State) (c : CopyCmd) (sp : Space) (pas : List Nat) : State :=
  if sp = .g then s.intrude c.gid pas true
  else s.drainLines c.core fun o => onLinesOf sp (pas.map (· / 128)) o && !o.onPaths 8

/-- Bytes of one line that a copy writes into a core's own memories join its line on its way there, or are a new one (R223). -/
def joinCopy (gid : Nat) (sp : Space) (line : Nat) (new : List (BufByte × Byte × Bool)) (out : List OutLine) : List OutLine :=
  let mine (o : OutLine) : Bool := o.space == sp && o.line == line && o.gid == gid && o.onPaths 8
  if out.any mine then out.map fun o =>
    let more := if mine o then new.filter fun p => o.bytes.all (·.off != p.1.off) else []
    { o with bytes := o.bytes ++ more.map (·.1), old := o.old ++ more.map (·.2) }
  else out ++ [⟨gid, sp, line, line, new.map (·.1), new.map (·.2), false⟩]

/-- A copy writes bytes of a core's own memory: until its line is acknowledged, engines of other paths may still read what stood
there (R223, R228). -/
def State.copyLay (s : State) (c : CopyCmd) (sp : Space) (ws : List WByte) : State :=
  let k := s.core c.core
  let b := k.bank sp
  let new (line : Nat) : List (BufByte × Byte × Bool) := (ws.filter (·.addr / 128 == line)).map fun w =>
    (⟨w.addr % 128, w.val, none, w.pois, none, 3⟩, bankByte b w.addr, bankPoison b w.addr)
  let out := ((ws.map (·.addr / 128)).eraseDups).foldl (fun out n => joinCopy (c.gid.getD 0) sp n (new n) out) k.outbound
  s.setCore c.core { k.setBank sp (bankWrite b ws) with outbound := out }

/-- A copy's bytes are written at their places (R308); they end every reservation there (R249). -/
def State.copyWrite (s : State) (c : CopyCmd) (sp : Space) (ws : List WByte) : State :=
  if sp = .g then (s.loseReservations none (ws.map (·.addr / 128))).memWrite c.gid ws
  else s.copyLay c sp ws

/-- The words of a bank that a copy has written whole are poisoned no more (R207). -/
def bankSweep (b : Bank) (places : List Nat) : Bank :=
  if b.poison.isEmpty then b
  else places.foldl (fun b a =>
    if bankPoison b a && (run (a / 4 * 4) 4).all places.contains then bankMark b a false else b) b

/-- The same, in the space that a copy writes. -/
def State.copySweep (s : State) (c : CopyCmd) (sp : Space) (places : List Nat) : State :=
  if places.isEmpty then s
  else if sp = .g then { s with mem := bankSweep s.mem places }
  else s.setCore c.core ((s.core c.core).setBank sp (bankSweep ((s.core c.core).bank sp) places))

/-! ## One element (R300, R301) -/

/-- The place of an element of a side in bits: base, width, position and strides (R301). -/
def sideBit (base w : Nat) (str : List Int) (p : List Int) : Int :=
  8 * (base : Int) + w * p.headD 0 + 8 * (((p.drop 1).zip str).map fun q => q.1 * q.2).foldl (· + ·) 0

/-- The dense position of element `n` (R301, R302). -/
def Layout.dense (l : Layout) (n : Nat) : List Int :=
  (l.box.foldl (fun (p : List Int × Nat) d => (p.1 ++ [((p.2 % d : Nat) : Int)], p.2 / d)) ([], n)).1

/-- A position is inside the tensor (R301). -/
def Layout.inside (l : Layout) (x : List Int) : Bool := (x.zip l.tdim).all fun p => 0 ≤ p.1 && p.1 < (p.2 : Int)

/-- What the source side gives for an element: something to wait for, a fault, an element's bits, or a value. -/
inductive CopySrc where
  | held (va : Nat)
  | fault (code addr : Nat)
  | code (c : Nat)
  | value (v : Num) (fmt : Bool)

/-- The bytes of an access, or what stops it. A tenure of another holder is recalled first (R313, R325); poison stops a copy
(R306). -/
def State.copyBytes (s : State) (engine : Nat) (c : CopyCmd) (sp : Space) (a : Int) (n : Nat) :
    State × CopyReach × List Byte :=
  match s.copyReach engine c sp false a n with
  | .ok pas =>
    let s := if sp = .g then s.intrude c.gid pas false else s
    let bs := s.copyRead c sp pas
    match (bs.zipIdx.find? fun b => b.1.2) with
    | some b => (s, .fault 0x62 (addrDetail (a + b.2)), [])
    | none => (s, .ok pas, bs.map (·.1))
  | r => (s.copyHold engine c sp false a n, r, [])

/-- The source element at a position (R300, R301). -/
def State.copySource (s : State) (engine : Nat) (c : CopyCmd) (l : Layout) (p : List Int) : State × CopySrc :=
  let sp := spaceOf l.sspc
  let bit := sideBit l.src l.ws l.sstr p
  let a := bit / 8
  let sh := (bit % 8).toNat
  let r := s.copyBytes engine c sp a ((sh + l.ws + 7) / 8)
  match r.2.1 with
  | .held va _ => (r.1, .held va)
  | .fault k addr => (r.1, .fault k addr)
  | .ok _ =>
    if !copyQ4o l.sfmt then (r.1, .code (leNat r.2.2 / 2 ^ sh % 2 ^ l.ws))
    else
      let nib := bit / 4 - 2 * (l.src : Int)
      let h := r.1.copyBytes engine c sp ((l.hdr : Int) + 2 * (nib / (if l.sfmt = 12 then 32 else 16))) 2
      match h.2.1 with
      | .held va _ => (h.1, .held va)
      | .fault k addr => (h.1, .fault k addr)
      | .ok _ =>
        let b := q4oByte (leNat h.2.2) (leNat r.2.2) c.rnd.ftz
        (h.1, .value (if sh = 0 then b.1 else b.2.1) b.2.2)

/-- A command's flags from conditions of the number rules (R305). -/
def flagBits (f : Fl) : BitVec 4 := BitVec.ofNat 4 (f.nv.toNat + 2 * f.of.toNat + 4 * f.fmt.toNat)

/-- A source element converted into the destination format (R300), and its flags. -/
def copyConvert (l : Layout) (rd : Rnd) (draw : Nat) (v : CopySrc) : Nat × Fl :=
  match v with
  | .code c =>
    if l.sfmt = l.dfmt then (c, {})
    else
      let z := copyEnc l.dfmt rd draw (copyDec l.sfmt rd.ftz c)
      (z.1, z.2.or { nv := copySnan l.sfmt c })
  | .value x fmt =>
    let z := copyEnc l.dfmt rd draw x
    (z.1, z.2.or { fmt := fmt })
  | _ => (0, {})

/-- Bits put into bytes from a shift on (R57). -/
def insertBits (old : List Byte) (sh w code : Nat) : List Byte :=
  let v := leNat old
  leBytes old.length (v - (v / 2 ^ sh % 2 ^ w) * 2 ^ sh + code * 2 ^ sh)

/-- Bits put into a group's run of registers: bit `p` of the run from register `d`, in the live lanes (R311). -/
def Group.putBits (g : Group) (d p w code : Nat) : Group :=
  (run (p / 32) ((p % 32 + w + 31) / 32)).foldl (fun g k =>
    let r := d + k / 64
    let l := k % 64
    if !inMask g.live l then g
    else
      let old := (g.rdV r l).toNat
      let lo := max p (32 * k)
      let hi := min (p + w) (32 * k + 32)
      let part := code / 2 ^ (lo - p) % 2 ^ (hi - lo)
      let sh := lo - 32 * k
      g.wrLane r l (BitVec.ofNat 32 (old - (old / 2 ^ sh % 2 ^ (hi - lo)) * 2 ^ sh + part * 2 ^ sh))) g

/-- How the walk of one element ends. -/
inductive ElemEnd where
  | held (s : State) (va : Nat) (wr : Bool)
  | fault (s : State) (code addr : Nat)
  | ok (s : State) (r : CopyRun) (wrote : List Nat)

/-- The run after an element whose bits in the destination are `code` (R303): its signature takes the element, and is
due with the 1,024th. -/
def CopyRun.gather (r : CopyRun) (rng : W32) (fl : Fl) (code : Nat) : CopyRun :=
  let r : CopyRun := { r with elem := r.elem + 1, rng := rng, flags := r.flags ||| flagBits fl }
  if r.cmd.sigOn then { r with sig := BitVec.ofNat 64 code :: r.sig } else r

/-- The signature of the tile gathered so far joins those to be delivered (R303, R362). -/
def CopyRun.tileDone (r : CopyRun) (l : Layout) : CopyRun :=
  let sig := signatureOf (r.sig.map fun c => copyDec l.dfmt false c.toNat)
  { r with sig := [], sigs := r.sigs ++ [(r.cmd.tile0 + (r.elem - 1) / 1024, sig.1, sig.2)] }

/-- The generator's state with which an element rounds: under stochastic MODE each element of the walk takes a draw (R300). -/
def CopyRun.nextRng (r : CopyRun) : W32 := if r.cmd.rnd.mode = 6 then rngNext r.rng else r.rng

/-- The walk goes past an element that is not written; its draw is taken (R300). -/
def CopyRun.skip (r : CopyRun) : CopyRun := { r with elem := r.elem + 1, rng := r.nextRng }

/-- Element `r.elem` of the walk, at coordinates `x` (R301). -/
def State.copyElem (s : State) (engine : Nat) (r : CopyRun) (l : Layout) (x : List Int) : ElemEnd :=
  let c := r.cmd
  let b := l.dense r.elem
  let inside := l.inside x
  let src : State × CopySrc := if !l.dir && !inside then (s, if copyQ4o l.sfmt then .value (.zero false) false else .code 0)
    else s.copySource engine c l (if l.dir then b else x)
  let s := src.1
  match src.2 with
  | .held va => .held s va false
  | .fault k addr => .fault s k addr
  | src =>
    let rng := r.nextRng
    let z := copyConvert l c.rnd (drawOf rng) src
    let r1 := r.gather rng z.2 z.1
    match c.kind with
    | .toRegs target d _ =>
      let put (g : Group) : Group := g.putBits d (r.elem * l.wd) l.wd z.1
      .ok (match target with
        | some gid => s.modGroup gid put
        | none => s) r1 []
    | _ =>
      if l.dir && !inside then .ok s r1 []
      else
        let sp := spaceOf l.dspc
        let bit := sideBit l.dst l.wd l.dstr (if l.dir then x else b)
        let sh := (bit % 8).toNat
        match s.copyReach engine c sp true (bit / 8) ((sh + l.wd + 7) / 8) with
        | .held va wr => .held (s.copyHold engine c sp true (bit / 8) ((sh + l.wd + 7) / 8)) va wr
        | .fault k addr => .fault s k addr
        | .ok pas =>
          let s := s.copyClaim c sp pas
          let new := insertBits ((s.copyRead c sp pas).map (·.1)) sh l.wd z.1
          .ok (s.copyWrite c sp ((pas.zip new).map fun q => ⟨q.1, q.2, false⟩)) r1 pas

/-! ## The walk (R301, R302) -/

/-- What the walk does next. -/
inductive CopyNext where
  /-- Every element has been emitted. -/
  | finish
  | fault (code : Nat)
  /-- A micro-operation of the generator that emits nothing. -/
  | micro (r : CopyRun)
  /-- The next element, its coordinates, and the walk's place after it. -/
  | elem (x : List Int) (after : CopyRun → CopyRun)

/-- The generator's next micro-operation (R302). -/
def CopyRun.generate (r : CopyRun) (l : Layout) : CopyNext :=
  match l.uops[r.uop]? with
  | none => if r.elem < l.total then .fault 0x64 else .finish
  | some u =>
    let d := (u.extractLsb' 4 2).toNat
    let n := (u.extractLsb' 6 2).toNat
    let imm : Int := (u.extractLsb' 8 24).toInt
    let next : CopyRun := { r with uop := r.uop + 1 }
    match (u.extractLsb' 0 4).toNat with
    | 0 => if r.elem < l.total then .fault 0x64 else .finish
    | 1 => .micro { next with c := r.c.set d (BitVec.ofInt 32 (r.cmd.at d + imm)) }
    | 2 => .micro { next with c := r.c.set d (r.c.getD d 0 + BitVec.ofInt 32 imm) }
    | 3 =>
      let c0 : Int := (r.c.getD 0 0).toInt
      if imm < 1 then .fault 0x64
      else if (l.ws < 8 || l.wd < 8) && (c0 % 8 != 0 || imm % 8 != 0) then .fault 0x63
      else if l.total ≤ r.elem then .fault 0x64
      else
        let x := (c0 + r.emit) :: (r.c.drop 1).map BitVec.toInt
        .elem x fun q => if (r.emit : Int) + 1 < imm then { q with emit := r.emit + 1 }
          else { q with emit := 0, uop := r.uop + 1 }
    | 4 =>
      if imm < 1 then .fault 0x64
      else .micro { next with loopCnt := r.loopCnt.set n (some imm.toNat), loopStart := r.loopStart.set n (r.uop + 1) }
    | 5 => match r.loopCnt.getD n none with
      | none => .fault 0x64
      | some k =>
        let r1 : CopyRun := { next with loopCnt := r.loopCnt.set n (some (k - 1)) }
        .micro (if 1 < k then { r1 with uop := r.loopStart.getD n 0 } else r1)
    | _ => .fault 0x64

/-- What the walk does next: plain order, or the generator's (R301, R302). -/
def CopyRun.next (r : CopyRun) (l : Layout) : CopyNext :=
  match r.cmd.kind with
  | .generator => r.generate l
  | _ =>
    if l.total ≤ r.elem then .finish
    else .elem ((l.dense r.elem).zipIdx.map fun p => r.cmd.at p.2 + p.1) id

/-- A copy's walk has ended: STATUS, FAULT and FADDR of its record. -/
def CopyRun.finish (r : CopyRun) (status fault addr : Nat) : CopyRun :=
  { r with waits := none, done := some (status, fault, addr), sig := [] }

/-- The end of a walk that has written every element: a short last tile is due (R303). -/
def CopyRun.complete (r : CopyRun) (l : Layout) : CopyRun :=
  (if r.sig.isEmpty then r else r.tileDone l).finish 1 0 0

/-- A copy that has ended with a fault may have written any subset of the elements after it (R307): which, is free. `n` bounds
how far it had come. -/
def copyStray (n : Nat) (s : State) (engine : Nat) (r : CopyRun) (l : Layout) : State :=
  match n with
  | 0 => s
  | n + 1 => match r.next l with
    | .micro r => copyStray n s engine r l
    | .elem x after =>
      let d := s.draw
      match d.1, d.2.copyElem engine r l x with
      | true, .ok t r1 _ => copyStray n t engine (after r1) l
      | _, _ => copyStray n d.2 engine (after r.skip) l
    | _ => s

/-- The elements after the one that a copy's walk stands at. -/
def State.strayAfter (s : State) (engine n : Nat) (r : CopyRun) (l : Layout) : State :=
  match r.next l with
  | .elem _ after => copyStray n s engine (after r.skip) l
  | _ => s

/-- Walk on for at most `n` elements or micro-operations; at last, whether the walk waits for a write. -/
def copyWalk (n : Nat) (s : State) (engine : Nat) (r : CopyRun) (l : Layout) (wrote : List Nat) :
    State × CopyRun × List Nat × Bool :=
  match n with
  | 0 => (s, r, wrote, false)
  | n + 1 =>
    match r.next l with
    | .finish => (s, r.complete l, wrote, false)
    | .fault k => (s, r.finish 2 k 0, wrote, false)
    | .micro r => copyWalk n s engine r l wrote
    | .elem x after => match s.copyElem engine r l x with
      | .held s va wr => (s, { r with waits := some va }, wrote, wr)
      | .fault s k addr => (s.strayAfter engine n r l, r.finish 2 k addr, wrote, false)
      | .ok s r1 w =>
        let r1 := after r1
        copyWalk n s engine (if r1.elem % 1024 = 0 && !r1.sig.isEmpty then r1.tileDone l else r1) l (w ++ wrote)

/-- The registers of a CPYV's run are scoreboarded no more (R311). -/
def State.copyRelease (s : State) (c : CopyCmd) : State :=
  match c.kind with
  | .toRegs (some gid) _ _ => s.modGroup gid fun g => { g with cpyvRegs := g.cpyvRegs.filter (·.1 != c.id) }
  | _ => s

/-- Each register of a CPYV's run is scoreboarded no more when its lanes have landed (R311): `bits` have. -/
def State.copyLanded (s : State) (c : CopyCmd) (bits : Nat) : State :=
  match c.kind with
  | .toRegs (some gid) d _ => s.modGroup gid fun g =>
      { g with cpyvRegs := g.cpyvRegs.filter fun p => p.1 != c.id || d + bits / 2048 ≤ p.2 }
  | _ => s

/-- Walks and records that a held access needs are set going, as a read's or a write's (R307, R294). -/
def State.copySeek (s : State) (engine : Nat) (c : CopyCmd) (va : Nat) (wr : Bool) : State := s.seekAll (c.req engine wr) [va]

/-- The elements and micro-operations that a step walks at most. -/
def walkChunk : Nat := 4096

/-- Go on with a walk whose layout is known. -/
def State.copyGo (s : State) (engine : Nat) (r : CopyRun) (l : Layout) : State × CopyRun :=
  let w := copyWalk walkChunk s engine { r with waits := none } l []
  let s := w.1.copySweep r.cmd (spaceOf l.dspc) w.2.2.1
  let s := if w.2.1.done.isSome then s.copyRelease r.cmd else s.copyLanded r.cmd (w.2.1.elem * l.wd)
  match w.2.1.waits with
  | some va => (s.copySeek engine r.cmd va w.2.2.2, w.2.1)
  | none => (s, w.2.1)

/-- The size check of a CPYV (R311). -/
def CopyCmd.sizeBad (c : CopyCmd) (l : Layout) : Bool :=
  match c.kind with
  | .toRegs _ _ nreg => l.total * l.wd % 32 != 0 || 2048 * nreg < l.total * l.wd
  | _ => false

/-- A CPYV without a target (R311). -/
def CopyCmd.absent (c : CopyCmd) : Bool :=
  match c.kind with
  | .toRegs none _ _ => true
  | _ => false

/-- Start a command, or go on with one (R298, R304, R311). -/
def State.copyAdvance (s : State) (engine : Nat) (r : CopyRun) : State × CopyRun :=
  let c := r.cmd
  let stop (k addr : Nat) : State × CopyRun := (s.copyRelease c, r.finish 2 k addr)
  match r.layout with
  | some l => s.copyGo engine r l
  | none =>
    if c.absent then stop 0x67 0
    else if c.bad then stop 0x63 0
    else if c.layout.toNat % 64 ≠ 0 then stop 0x65 0
    else
      let b := s.copyBytes engine c .g c.layout.toNat 192
      let s := b.1
      match b.2.1 with
      | .held va wr => (s.copySeek engine c va wr, { r with waits := some va })
      | .fault k addr => (s.copyRelease c, r.finish 2 k addr)
      | .ok _ =>
        let v := leNat b.2.2
        let l := Layout.ofNat v
        if layoutBad v (c.kind matches .toRegs ..) (c.at 0) || c.sizeBad l then (s.copyRelease c, r.finish 2 0x63 0)
        else
          let lost := c.sigOn && copyRaw l.dfmt
          let c : CopyCmd := if lost then { c with ctl := c.ctl &&& ~~~(1#64 <<< 40) } else c
          s.copyGo engine { r with cmd := c, layout := some l, flags := if lost then 8 else r.flags } l

/-- A command as it starts (R300, R302). -/
def CopyCmd.start (c : CopyCmd) : CopyRun :=
  { cmd := c, layout := none, elem := 0, uop := 0, emit := 0, c := c.coord, loopCnt := List.replicate 4 none,
    loopStart := List.replicate 4 0, rng := rngFix (c.seed.setWidth 32), flags := 0, sig := [], sigs := [],
    waits := none, done := none, num := none }

end Sys2Proof.Machine
end

