-- ==== Sys2Proof/Machine/CopyOps.lean ====
section
/-!
DEFINITION. The instructions of class 5 (R309 to R312) and the events of the copy engine: the start and the going on
of commands, signature deliveries, completion records (R305), and the ends of CRWAIT's sleep.
-/

namespace Sys2Proof.Machine

/-! ## CPY, CPYG and CPYV (R310, R311) -/

/-- The command that a lane posts (R310). -/
def IC.copyCmd (x : IC) (o : Ops) (kind : CopyKind) (batch : Nat) (id l : Nat) : CopyCmd :=
  let c := opNum o.c
  { id := id, ctx := x.g.ctx, kind := kind, layout := (x.val o.a true 0) &&& 0x1FFFFFFFFFFFFFF,
    coord := (List.range 4).map fun k => x.g.rdV (x.g.opV o.b + k) l, ctl := x.g.rdS c,
    seed := ((x.g.rdS (c + 1)).setWidth 32).setWidth 64 ||| (((x.g.rmr &&& 0x1F).setWidth 64) <<< 32),
    gid := some x.cu.gid, grid := ((x.s.grid? x.g.grid).map fun (q : Grid) => q.serial).getD 0, gnum := x.g.gnum,
    teamId := x.g.teamId, core := x.g.core, batch := batch, packet := none }

/-- Put commands of a context into an engine's queue. Those that reach an engine which has halted for the context's stop end at
once with STATUS 3 and FAULT 0x66 (R313, R396). -/
def State.enqueue (s : State) (engine ctx : Nat) (cs : List CopyCmd) : State :=
  let e := s.copyEngine engine
  let t := if s.haltedAt ctx (copyCode engine) then
      s.setCopyEng engine { e with running := e.running ++ cs.map fun c => c.start.finish 3 0x66 0 }
    else (s.setCopyEng engine { e with queue := e.queue ++ cs }).giveWork ctx (copyCode engine)
  { t with nextId := s.nextId + cs.length }

/-- The registers that the commands of a CPYV hold in their target (R311). -/
def holdRegs (cs : List CopyCmd) : List (Nat × Nat) :=
  cs.flatMap fun c => match c.kind with
    | .toRegs (some _) d n => (run d n).map fun r => (c.id, r)
    | _ => []

/-- Post one copy for each active lane, in ascending order (R310, R311, R377), after the stores that the group has fixed on
the vector and gather paths are performed (R308). -/
def IC.postCopies (x : IC) (o : Ops) (kind : CopyKind) : Act :=
  let lanes := lanesOf x.act
  let n := lanes.length
  let close := 255 < x.g.pend + n
  if n = 0 then x.pass x.s
  else if 64 < (x.s.copyEngine x.g.engine).queue.length + n || (close && 16 ≤ x.g.batches.length)
      || x.s.drainHeld x.g.core (fun q => q.gid == x.cu.gid && q.onPaths 3) then .wait x.s
  else
    let s := x.s.drainLines x.g.core fun q => q.gid == x.cu.gid && q.onPaths 3
    let s := if close then s.formBatch x.cu.gid else s
    let latest := ((s.group? x.cu.gid).getD x.g).latest
    let cs := lanes.zipIdx.map fun p => x.copyCmd o kind (latest + 1).toNat (s.nextId + p.2) p.1
    let s := (s.enqueue x.g.engine x.g.ctx cs).modGroup x.cu.gid fun g =>
      { g with pend := g.pend + n, copiesLeft := g.copiesLeft + n }
    x.pass (match kind with
      | .toRegs (some t) _ _ => s.modGroup t fun g => { g with cpyvRegs := g.cpyvRegs ++ holdRegs cs }
      | _ => s)

/-- CPY (R310). -/
def execCpy (o : Ops) (s : State) : Out := issueBoundary .cpy .w64 (fun x o => x.postCopies o .plain) o s
/-- CPYG (R310). -/
def execCpyg (o : Ops) (s : State) : Out := issueBoundary .cpyg .w64 (fun x o => x.postCopies o .generator) o s

/-- The group of a number in the issuer's team, where it has not exited and is not draining (R311). -/
def IC.teamGroup (x : IC) (n : Nat) : Option (Nat × Group) :=
  x.s.groups.find? fun kv => kv.2.team == x.g.team && kv.2.gnum == n && kv.2.live != 0 && kv.2.status != .draining

/-- CPYV (R311). -/
def execCpyv (o : Ops) (s : State) : Out :=
  issueBoundary .cpyv .w64 (fun x o =>
    let d := x.g.opV o.d
    let n := mfld o.m 57 53 + 1
    match x.teamGroup (mfld o.m 51 48) with
    | none => x.postCopies o (.toRegs none d n)
    | some (gid, t) =>
      if t.allot < d + n then x.actFault 0x02 (max d t.allot) t.allot
      else if t.evicted || t.evicting then .wait x.s
      else x.postCopies o (.toRegs (some gid) d n)) o s

/-! ## The walk as events -/

/-- A copy waits on a walk or on a fault record. -/
def State.copyWaiting (s : State) (engine : Nat) (r : CopyRun) : Bool :=
  let who := Waiter.copy engine r.cmd.id
  s.walks.any (fun w => w.misses.any fun m => m.who == who)
    || (s.ctx r.cmd.ctx).records.any fun f => f.waiters.contains who

/-- A started command can go on. -/
def State.copyReady (s : State) (engine : Nat) (r : CopyRun) : Bool := r.done.isNone && !s.copyWaiting engine r

/-- Put a started command's new standing back. -/
def State.putRun (s : State) (engine : Nat) (r : CopyRun) : State :=
  let e := s.copyEngine engine
  s.setCopyEng engine { e with running := e.running.map fun q => if q.cmd.id = r.cmd.id then r else q }

/-- A command that has started goes on. -/
def State.advanceRun (s : State) (engine : Nat) (r : CopyRun) : State :=
  let w := s.copyAdvance engine r
  w.1.putRun engine w.2

/-- A started command is not held up by a half that the host holds, a recall, or a walker pool or fault record queue without room
(R213, R234, R294, R325): going on changes something. -/
def State.copyGoes (s : State) (engine : Nat) (r : CopyRun) : Bool := s.copyReady engine r && s.advanceRun engine r != s

/-- A copy engine works: its die has power (R14). -/
def State.copyUp (s : State) (engine : Nat) : Bool := (s.die (engine / 64)).powered && !(s.die (engine / 64)).failed

/-- COPY_START (R296): a started command of the engine that can go on does so; otherwise the next one of the queue
starts, while fewer than 8 are at work. -/
def execCopyStart (engine : Nat) (s : State) : Out :=
  let e := s.copyEngine engine
  if !s.copyUp engine then noEvent s
  else match e.running.find? (s.copyGoes engine) with
  | some r => .next (s.advanceRun engine r)
  | none => match e.queue with
    | [] => noEvent s
    | c :: rest =>
      if 8 ≤ (e.running.filter fun r => r.done.isNone).length then noEvent s
      else
        let s := s.setCopyEng engine { e with queue := rest, running := e.running ++ [c.start] }
        .next (s.advanceRun engine c.start)

/-- A started command by its number. -/
def CopyEng.find (e : CopyEng) (id : Nat) : Option CopyRun := e.running.find? fun r => r.cmd.id == id

/-- SIGNATURE_DELIVERY (R303): a copy's next signature is delivered as SQSIG delivers one. -/
def execSignatureDelivery (id : Nat) (s : State) : Out :=
  match (s.copyEng.findSome? fun kv => (kv.2.find id).map fun r => (kv.1, r)) with
  | none => noEvent s
  | some (engine, r) => match r.sigs with
    | [] => noEvent s
    | (tile, sum, abs) :: rest =>
      if s.deliveryHeld r.cmd.ctx r.cmd.sset tile then .next (s.deliveryRecall r.cmd.ctx r.cmd.sset tile)
      else
        let d := s.deliver r.cmd.ctx r.cmd.sset tile sum abs
        .next (d.1.putRun engine { r with sigs := rest, flags := if d.2 then r.flags ||| 8 else r.flags })

/-! ## Completion records (R305) -/

/-- The 64 bytes of a completion record (R305). -/
def CopyRun.record (r : CopyRun) (status fault addr seq : Nat) : List Byte :=
  let c := r.cmd
  let bytes := (r.layout.map fun l => r.elem * l.wd / 8).getD 0
  let pkt := if c.packet.isSome then 1 else 0
  leBytes 8 (status + fault * 2 ^ 8 + r.flags.toNat * 2 ^ 16 + seq % 2 ^ 32 * 2 ^ 32)
    ++ leBytes 8 (bytes % 2 ^ 32 + c.batch % 65536 * 2 ^ 32 + c.tag * 2 ^ 48)
    ++ leBytes 8 addr
    ++ leBytes 8 (r.elem % 2 ^ 32 + c.grid.toNat * 2 ^ 32)
    ++ leBytes 8 (c.gnum % 16 + c.core % 1024 * 16 + pkt * 2 ^ 14)
    ++ List.replicate 24 0

/-- A packet's work is finished: STATUS, REASON and GRIDID of its completion (R289). -/
def State.packetDone (s : State) (q n status reason : Nat) (grid : BitVec 32) : State :=
  let x := s.queue q
  s.setQueue q { x with started := x.started.map fun p =>
    if p.num = n && p.done.isNone then { p with done := some (status, reason, grid) } else p }

/-- A copy's record is written: its batch, its issuer and its packet know it (R33, R289, R377). A group that has
stopped takes no account of it (R389). -/
def State.copyDone (s : State) (c : CopyCmd) (status fault : Nat) : State :=
  let s := match c.packet with
    | some (q, n) => match status with
      | 1 => s.packetDone q n 1 0 0
      | 2 => s.packetDone q n 5 fault 0
      | _ => s.packetDone q n 6 0x50 0
    | none => s
  match c.gid with
  | none => s
  | some gid =>
    match s.group? gid with
    | none => s
    | some g =>
      if g.status = .halted then s
      else
        let bs := (g.batches.map fun b => if b.num = c.batch then { b with left := b.left - 1 } else b).filter fun b =>
          b.left != 0
        (s.setGroup gid { g with copiesLeft := g.copiesLeft - 1, batches := bs }).wakeBatches gid

/-- The number of a finished command's record: the ring allocator gives the next one when it first asks (R305). -/
def State.numberRun (s : State) (engine : Nat) (r : CopyRun) : State × CopyRun × Nat :=
  match r.num with
  | some n => (s, r, n)
  | none =>
    let x := s.ctx r.cmd.ctx
    let r := { r with num := some (x.crSeq + 1) }
    ((s.setCtx r.cmd.ctx { x with crSeq := x.crSeq + 1 }).putRun engine r, r, x.crSeq + 1)

/-- The virtual address of the slot of a context's completion record (R282, R305). -/
def State.ringSlot (s : State) (ctx n : Nat) : Nat :=
  let w := s.ctxWord ctx 3
  ringBase w + 64 * ((n - 1) % ringSize w)

/-- A finished command whose signatures are delivered: it may write its record. -/
def CopyRun.recordDue (r : CopyRun) : Option (Nat × Nat × Nat) := if r.sigs.isEmpty then r.done else none

/-- The slot of a record as the engine finds it: its place, whether it is free, or what it waits for. -/
inductive SlotFound where
  | free (pa : Nat)
  | busy
  | held (va : Nat) (wr : Bool)
  deriving DecidableEq, Repr

/-- Bytes 0 to 7 of a slot are read, and the slot is translated for the write (R305). -/
def State.findSlot (s : State) (engine : Nat) (c : CopyCmd) (va : Nat) : State × SlotFound :=
  let r := s.copyBytes engine c .g va 8
  match r.2.1 with
  | .ok pas =>
    if leNat r.2.2 != 0 then (r.1, .busy)
    else match r.1.copyReach engine c .g true va 64 with
      | .ok _ => (r.1, .free (pas.headD 0))
      | .held at_ wr => (r.1.copyHold engine c .g true va 64, .held at_ wr)
      | .fault .. => (r.1, .busy)
  | .held at_ wr => (r.1, .held at_ wr)
  | .fault .. => (r.1, .busy)

/-- COPY_COMPLETION_RECORD (R305): a finished command writes its record into a free slot. -/
def execCopyCompletionRecord (engine id : Nat) (s : State) : Out :=
  match (s.copyEngine engine).find id with
  | none => noEvent s
  | some r => match r.recordDue with
    | none => noEvent s
    | some (status, fault, addr) =>
      if s.copyWaiting engine r then noEvent s
      else
        let (s, r, n) := s.numberRun engine r
        let va := s.ringSlot r.cmd.ctx n
        match s.findSlot engine r.cmd va with
        | (s, .busy) => .next s
        | (s, .held va wr) => .next (s.copySeek engine r.cmd va wr)
        | (s, .free pa) =>
          let s := s.copyWrite r.cmd .g (wbytes pa (r.record status fault addr n))
          let e := s.copyEngine engine
          let s := s.setCopyEng engine { e with running := e.running.filter fun q => q.cmd.id != id }
          .next (s.copyDone r.cmd status fault)

/-- COPY_RING_SLOT_WAIT (R305): the engine finds the slot of a record still in use, and holds the record. -/
def execCopyRingSlotWait (engine id : Nat) (s : State) : Out :=
  match (s.copyEngine engine).find id with
  | none => noEvent s
  | some r => match r.recordDue with
    | none => noEvent s
    | some _ =>
      let (s, r, n) := s.numberRun engine r
      match s.findSlot engine r.cmd (s.ringSlot r.cmd.ctx n) with
      | (s, .busy) => .next s
      | (s, .held va wr) => .next (s.copySeek engine r.cmd va wr)
      | (s, .free _) => .next s

/-! ## CRWAIT (R312) -/

/-- A context's completion ring is defined: its record count is in the range of R282. -/
def State.ringDefined (s : State) (ctx : Nat) : Bool :=
  let n := s.ctxWord ctx 3 % 32
  6 ≤ n && n ≤ 20

/-- CRWAIT (R312). -/
def execCrwait (o : Ops) (s : State) : Out :=
  issueWith .crwait .w64 (fun x o _ g =>
    let n := (x.val o.a true 0).toNat % 2 ^ 32
    if n = 0 || !x.s.ringDefined x.g.ctx then x.fault 0x06 n 10
    else
      let va := x.s.ringSlot x.g.ctx n + 4
      let rq := x.g.req x.cu.gid .load false
      match x.s.span rq va 4 with
      | .wait => .next (x.s.seekLanes rq 4 [(0, va)])
      | .faulted recs => .next (x.s.translationFault x.cu.gid recs x.cu.pc x.act)
      | .ok pas =>
        if x.s.homeHeld x.cu.gid x.g.core pas then .next (x.s.callBack (some x.cu.gid) pas)
        else
          let rd := (x.s.setGroup x.cu.gid g).groupRead x.cu.gid x.g.core (pas.headD 0) 4
          let g := (rd.1.group? x.cu.gid).getD g
          if rd.2.any (·.2) then ({ x with s := rd.1 } : IC).killAll g
          else if leNat (rd.2.map (·.1)) = n then ({ x with s := rd.1 } : IC).retire (g.wrS (opNum o.d) 0) 0
          else
            let t := mfld o.m 52 48
            let dl := if t = 0 then none else some ((rd.1.die x.dieNo).cycle.toNat + 2 ^ t)
            let g : Group := { g with
              ages := g.ages.filter (·.split != x.cu.split)
              sleepers := g.sleepers ++ [⟨x.cu.split, .crwait n, opNum o.d, dl⟩] }
            .next ((rd.1.setGroup x.cu.gid g).releaseYields x.g.core x.cu.gid x.cu.split)) o s

/-- CRWAIT_REREAD (R312): the slot is read again; the record awaited ends the sleep. -/
def execCrwaitReread (gid split : Nat) (s : State) : Out :=
  match s.group? gid with
  | none => noEvent s
  | some g => match g.sleeper split with
    | some ⟨_, .crwait n, dst, _⟩ =>
      let va := s.ringSlot g.ctx n + 4
      let rq := g.req gid .load false
      match s.span rq va 4 with
      | .wait => .next (s.seekLanes rq 4 [(0, va)])
      | .faulted recs => .next (s.translationFault gid recs (g.splitPc split) (g.splitLanes split))
      | .ok pas =>
        if s.homeHeld gid g.core pas then .next (s.callBack (some gid) pas)
        else
          let rd := s.groupRead gid g.core (pas.headD 0) 4
          if rd.2.any (·.2) then .next (rd.1.killLanes gid g.live)
          else if leNat (rd.2.map (·.1)) = n then .next (rd.1.wakeSplit gid split dst 0)
          else .next rd.1
    | _ => noEvent s

/-- CRWAIT_TIMEOUT (R312): the record had not been written at the limit; the result is 1. -/
def execCrwaitTimeout (gid split : Nat) (s : State) : Out :=
  match s.group? gid with
  | none => noEvent s
  | some g => match g.sleeper split with
    | some q => match q.kind with
      | .crwait .. => if s.pastDeadline g q then .next (s.wakeSplit gid split q.dst 1) else noEvent s
      | _ => noEvent s
    | none => noEvent s

end Sys2Proof.Machine
end

