-- ==== Sys2Proof/Machine/Tiles.lean ====
section
/-!
DEFINITION. Tile handles, tenure and the instructions of class 6 (R314 to R335).
-/

namespace Sys2Proof.Machine

/-! ## The geometry of a tile (R319) -/

/-- The extents and strides of dimensions 1 to 3. -/
def Handle.dims (h : Handle) : List (Nat × Int) :=
  [(h.e1.toNat, h.st1.toInt), (h.e2.toNat, h.st2.toInt), (h.e3.toNat, h.st3.toInt)]

/-- lo and hi (R319). -/
def Handle.lo (h : Handle) : Int :=
  (h.base.toNat : Int) + (h.dims.map fun d => min 0 (((d.1 : Int) - 1) * d.2)).foldl (· + ·) 0
def Handle.hi (h : Handle) : Int :=
  (h.base.toNat : Int) + h.e0.toNat - 1 + (h.dims.map fun d => max 0 (((d.1 : Int) - 1) * d.2)).foldl (· + ·) 0

/-- The runs of bytes that a tile consists of, as starts and lengths: a stride no longer than a run joins the runs of
its dimension. -/
def Handle.runs (h : Handle) : List (Int × Nat) :=
  h.dims.foldl (fun rs d =>
    if d.1 ≤ 1 || d.2 = 0 then rs
    else rs.flatMap fun r =>
      if d.2.natAbs ≤ r.2 then [(r.1 + min 0 (((d.1 : Int) - 1) * d.2), r.2 + (d.1 - 1) * d.2.natAbs)]
      else (List.range d.1).map fun (i : Nat) => (r.1 + (i : Int) * d.2, r.2)) [((h.base.toNat : Int), h.e0.toNat)]

/-- The virtual 128-byte lines that hold a byte of the tile (R319). -/
def Handle.vlines (h : Handle) : List Nat :=
  let rs := h.runs
  let first := h.lo.toNat / 128
  (run first (h.hi.toNat / 128 - first + 1)).filter fun n =>
    rs.any fun r => r.1 < 128 * (n : Int) + 128 && 128 * (n : Int) < r.1 + r.2

/-- One address in each page of the span (R329). -/
def Handle.pageVas (h : Handle) : List Nat :=
  let first := h.lo.toNat / 4096
  (run first (h.hi.toNat / 4096 - first + 1)).map fun n => 4096 * n

/-- A descriptor in a handle table entry, which it makes live and without a range entry (R318, R328). -/
def Handle.describe (h : Handle) (v : Nat) : Handle :=
  let one (n : Nat) : BitVec 16 := if n = 0 then 1 else BitVec.ofNat 16 n
  { h with
    state := 1
    base := BitVec.ofNat 57 v
    e0 := BitVec.ofNat 32 (nfld v 95 64)
    e1 := one (nfld v 111 96)
    e2 := one (nfld v 127 112)
    e3 := one (nfld v 143 128)
    st1 := BitVec.ofNat 32 (nfld v 175 144)
    st2 := BitVec.ofNat 32 (nfld v 207 176)
    st3 := BitVec.ofNat 32 (nfld v 239 208)
    rkind := 0 }

/-- A descriptor is malformed (R318, R319). -/
def handleDescBad (v : Nat) : Bool :=
  let h := Handle.reset.describe v
  nfld v 63 57 != 0 || nfld v 255 240 != 0 || nfld v 95 64 < 1 || 2 ^ 21 < nfld v 95 64 || h.lo < 0
    || (Config.virtEnd : Int) ≤ h.hi || (2 ^ 21 : Int) < h.hi - h.lo + 1

/-! ## The handle table (R315, R316) -/

/-- The value of an index with a generation (R315). -/
def handleValue (i : Nat) (gen : BitVec 8) : Nat := i + gen.toNat * 2 ^ 24

/-- The lowest free index from `i` upward among the next `n` (R316). -/
def Ctx.freeFrom (c : Ctx) (n i : Nat) : Option Nat :=
  match n with
  | 0 => none
  | n + 1 => if (c.handle i).state = 0 then some i else c.freeFrom n (i + 1)

/-- The lowest free index above `i` (R316). -/
def Ctx.freeAbove (c : Ctx) (i : Nat) : Option Nat := c.freeFrom (65535 - i) (i + 1)

/-- The end of an index's life (R316). -/
def Handle.freed (h : Handle) : Handle :=
  if h.gen = 255 then { h with gen := 0, state := 2 } else { h with gen := h.gen + 1, state := 0 }

/-! ## Directories (R321 to R325) -/

/-- Two footprints share a line (R319). -/
def linesMeet (a b : List Nat) : Bool := a.any b.contains

/-- The tenures on a handle of a context. -/
def Tenure.on (t : Tenure) (ctx i : Nat) (gen : BitVec 8) : Bool := t.ctx == ctx && t.index.toNat == i && t.gen == gen

/-- A request may be granted (R323, R324): no other holder has write tenure there, and no earlier conflicting request
waits. -/
def State.grantable (s : State) (r : TenureReq) (ahead : List TenureReq) : Bool :=
  !(s.tenures.any fun t => t.gid != r.gid && t.write && linesMeet t.lines r.lines)
    && !(ahead.any fun q => q.gid != r.gid && (q.write || r.write) && linesMeet q.lines r.lines)

/-- Tenures end; write tenures by a recall or a release (R323). -/
def State.endTenures (s : State) (p : Tenure → Bool) : State :=
  let s := s.recallAll (s.tenures.filter p)
  ({ s with tenures := s.tenures.filter (!p ·) } : State).pruneCopies

/-- The tenure that a full anchor slice gives up for a new entry (R322): of those held there, the one granted least recently.
A request that is being granted, `but`, takes no second entry. -/
def State.oldestAt (s : State) (anchor : Nat) (but : Option Nat) : Option Tenure :=
  let held := s.tenures.filter fun t => t.anchor == anchor
  let waiting := s.tenureReqs.filter fun q => q.anchor == anchor && some q.id != but
  if held.length + waiting.length < 2048 then none
  else match held with
    | [] => none
    | t :: ts => some (ts.foldl (fun (a b : Tenure) => if b.order < a.order then b else a) t)

/-- A full anchor slice gives up its least recently granted held tenure (R322). -/
def State.revokeOldest (s : State) (anchor : Nat) (but : Option Nat) : State :=
  match s.oldestAt anchor but with
  | none => s
  | some o => s.endTenures fun q => q.id == o.id

/-- The holder's own tenure on a request's handle (R323). -/
def TenureReq.own (r : TenureReq) (t : Tenure) : Bool := t.gid == r.gid && t.on r.ctx r.index.toNat r.gen

/-- A tenure that the grant of a request ends, or turns from write to read (R322, R323, R324). -/
def State.endedBy (s : State) (r : TenureReq) (t : Tenure) : Bool :=
  (t.gid != r.gid && (t.write || r.write) && linesMeet t.lines r.lines) || (r.own t && t.write && !r.write)
    || (!(s.tenures.any r.own) && (s.oldestAt r.anchor (some r.id)).any (·.id == t.id))

/-- A recall that a grant waits for is not over (R232). -/
def State.grantHeld (s : State) (r : TenureReq) : Bool :=
  (s.recalled (s.tenures.filter fun t => t.write && s.endedBy r t)).any fun t => t.write && s.recallHeld t

/-- The write tenures that a grant waits for are being recalled (R322). -/
def State.callTenures (s : State) (p : Tenure → Bool) : State :=
  { s with tenures := s.tenures.map fun t => if t.write && p t then { t with recalling := true } else t }

/-- A grant (R323, R324): conflicting tenures of others end, the holder's own entry changes or a new one is made, every
reservation on the footprint is lost (R249), and the holder's core keeps no old copy of the tile (R232). -/
def State.grantTenure (s : State) (r : TenureReq) : State :=
  let s := s.endTenures fun t => t.gid != r.gid && (t.write || r.write) && linesMeet t.lines r.lines
  let s := s.recallAll (s.tenures.filter fun t => r.own t && t.write && !r.write)
  let s := match s.tenures.find? r.own with
    | some _ =>
      { s with tenures := s.tenures.map fun q =>
          if r.own q then { q with write := r.write, recalling := false, order := s.nextId } else q }
    | none =>
      let s := s.revokeOldest r.anchor (some r.id)
      let t : Tenure :=
        { id := s.nextId, ctx := r.ctx, index := r.index, gen := r.gen, gid := r.gid, core := r.core, slot := r.slot, inc := r.inc,
          write := r.write, recalling := false, anchor := r.anchor, lines := r.lines, order := s.nextId }
      { s with tenures := s.tenures ++ [t] }
  let s := { s with nextId := s.nextId + 1 }
  (s.loseReservations none r.lines).dropL1 r.core r.lines

/-- A waiting THACQ ends with a result: its lanes pass it (R329). -/
def State.endRequest (s : State) (r : TenureReq) (result : Nat) : State :=
  let s := { s with tenureReqs := s.tenureReqs.filter (·.id != r.id) }
  match s.group? r.gid with
  | none => s
  | some g =>
    (s.setGroup r.gid { g.wrS r.dst (BitVec.ofNat 64 result) with status := .running }).passAndOpen r.gid r.pc
      fun _ => r.pc + 8

/-- The waiting requests on a handle end with result 2 (R323). -/
def State.endRequests (s : State) (ctx i : Nat) (gen : BitVec 8) : State :=
  (s.tenureReqs.filter fun r => r.ctx == ctx && r.index.toNat == i && r.gen == gen).foldl
    (fun s r => s.endRequest r 2) s

/-- Some tenures cannot end yet: their holders' outbound lines wait for the host (R234), or a recall that this takes is not over,
as where a holder's die has lost power and its failure is still to be declared (R14, R235). -/
def State.tenuresHeld (s : State) (p : Tenure → Bool) : Bool :=
  (s.tenures.any fun t => p t && s.drainHeld t.core (onLines t.lines))
    || (s.recalled (s.tenures.filter p)).any fun t => t.write && s.recallHeld t

/-! ## THNEW (R328) -/

/-- A handle value read from an S register (R315). -/
def IC.handleIn (x : IC) (o : Opd) : Nat := (x.val o true 0).toNat % 2 ^ 32

/-- A result of a class 6 boundary. -/
def IC.tileResult (x : IC) (s : State) (o : Ops) (v : Nat) : Act :=
  x.pass (s.modGroup x.cu.gid fun g => g.wrS (opNum o.d) (BitVec.ofNat 64 v))

/-- THNEW (R328, R446). -/
def execThnew (o : Ops) (s : State) : Out :=
  issueBoundary .thnew .w64 (fun x o =>
    let a := (x.val o.a true 0).toNat
    if a % 32 ≠ 0 || Config.virtEnd ≤ a then x.actFault 0x06 a 0
    else match x.actOne .load false a 32 with
      | .stop r => r
      | .go pa =>
        let rd := x.s.groupRead x.cu.gid x.g.core pa 32
        let v := leNat (rd.2.map (·.1))
        let c := rd.1.ctx x.g.ctx
        if rd.2.any (·.2) then x.pass (rd.1.killLanes x.cu.gid x.g.live)
        else if handleDescBad v then x.tileResult rd.1 o 2
        else match c.freeAbove 0 with
          | none => x.tileResult rd.1 o 1
          | some i =>
            let h := (c.handle i).describe v
            x.tileResult (rd.1.setCtx x.g.ctx (c.setHandle i h)) o (handleValue i h.gen)) o s

/-! ## THACQ (R329) -/

/-- The pages of a tile as THACQ translates them: a stop, or each page's virtual number and physical start. -/
def IC.tilePages (x : IC) (h : Handle) (wr : Bool) : Except Act (List (Nat × Nat)) :=
  let rq := x.g.req x.cu.gid .load false
  let vas := h.pageVas
  let trs := x.s.translateAll rq vas
  if trs.any fun p => (match p.2 with
    | .ok _ => false
    | .recorded _ => false
    | _ => true) then .error (.stop (x.s.seekAll rq vas))
  else
    let recs := trs.filterMap fun p => match p.2 with
      | .recorded seq => some (seq, p.1)
      | _ => none
    if !recs.isEmpty then .error (.stop (x.s.translationFault x.cu.gid recs x.cu.pc x.act))
    else match (if wr then vas.find? fun va => match x.s.tlbHit x.g.ctx va (some x.g.core) (some (clusterOfCore x.g.core)) with
        | some e => !e.wr
        | none => true else none) with
      | some va => .error (x.actFault 0x06 va 0)
      | none => .ok (trs.map fun p => (p.1 / 4096, match p.2 with
          | .ok pa => pa
          | _ => 0))

/-- The physical line of a virtual line, by the pages that hold it. -/
def lineIn (pages : List (Nat × Nat)) (vline : Nat) : Nat :=
  ((pages.find? fun p => p.1 == vline / 32).map fun p => p.2 / 128 + vline % 32).getD 0

/-- The request of a THACQ (R322, R329). -/
def IC.tenureReq (x : IC) (o : Ops) (v : Nat) (h : Handle) (pages : List (Nat × Nat)) : TenureReq :=
  let t := mfld o.m 52 48
  { id := x.s.nextId, ctx := x.g.ctx, index := BitVec.ofNat 16 v, gen := h.gen, gid := x.cu.gid, core := x.g.core,
    slot := x.g.slot, inc := (x.s.core x.g.core).inc, write := mbit o.m 63,
    anchor := homeSlice (128 * lineIn pages (h.lo.toNat / 128)), lines := h.vlines.map (lineIn pages),
    deadline := if t = 0 then none else some ((x.s.die x.dieNo).cycle.toNat + 2 ^ t), dst := opNum o.d, pc := x.cu.pc }

/-- A request is granted on arrival (R323, R324): under `.f`, as the holder of the handle who asks for no more than it holds,
or with nothing in its way. -/
def State.grantsNow (s : State) (r : TenureReq) (f : Bool) : Bool :=
  f || (s.tenures.any fun q => r.own q && (q.write || !r.write)) || s.grantable r s.tenureReqs

/-- THACQ with its handle live and its span translated (R323, R324, R329). A grant that recalls write tenures waits for the
recalls (R232). -/
def IC.acquire (x : IC) (o : Ops) (v : Nat) (h : Handle) (pages : List (Nat × Nat)) : Act :=
  let r := x.tenureReq o v h pages
  let s := { x.s with nextId := x.s.nextId + 1 }
  if s.grantsNow r (mbit o.m 62) then
    if s.grantHeld r then .wait (x.s.callTenures (s.endedBy r)) else x.tileResult (s.grantTenure r) o 0
  else
    .wait ({ s with tenureReqs := s.tenureReqs ++ [r] }.modGroup x.cu.gid fun g => { g with status := .atTenure r.id })

/-- THACQ (R329). -/
def execThacq (o : Ops) (s : State) : Out :=
  issueBoundary .thacq .w64 (fun x o =>
    let v := x.handleIn o.a
    match (x.s.ctx x.g.ctx).liveHandle v with
    | none => x.actFault 0x07 v Op.thacq.code
    | some h => match x.tilePages h (mbit o.m 63) with
      | .error a => a
      | .ok pages => x.acquire o v h pages) o s

/-- A waiting request and those ahead of it. -/
def State.request (s : State) (id : Nat) : Option (TenureReq × List TenureReq) :=
  (s.tenureReqs.find? (·.id == id)).map fun r => (r, s.tenureReqs.takeWhile (·.id != id))

/-- THACQ_GRANT (R323, R324): the conditions of a waiting request are met. -/
def execThacqGrant (req : Nat) (s : State) : Out :=
  match s.request req with
  | none => noEvent s
  | some (r, ahead) => match s.group? r.gid with
    | none => noEvent s
    | some g =>
      if g.status = .atTenure req && s.grantable r ahead then
        if s.grantHeld r then .next (s.callTenures (s.endedBy r)) else .next ((s.grantTenure r).endRequest r 0)
      else noEvent s

/-- THACQ_TIMEOUT (R323, R329): the limit has passed; nothing new is held. -/
def execThacqTimeout (req : Nat) (s : State) : Out :=
  match s.request req with
  | none => noEvent s
  | some (r, _) => match s.group? r.gid, r.deadline with
    | some g, some d =>
      if g.status = .atTenure req && d ≤ (s.die (dieOfCore g.core)).cycle.toNat then .next (s.endRequest r 1)
      else noEvent s
    | _, _ => noEvent s

/-! ## THREL, THSPLIT and THFREE (R330 to R332) -/

/-- THREL (R330). -/
def execThrel (o : Ops) (s : State) : Out :=
  issueBoundary .threl .w64 (fun x o =>
    let v := x.handleIn o.a
    let own (t : Tenure) : Bool :=
      t.gid == x.cu.gid && nfld v 23 16 == 0 && t.on x.g.ctx (v % 65536) (BitVec.ofNat 8 (nfld v 31 24))
    if !x.s.tenures.any own then x.tileResult x.s o 1
    else if x.s.tenuresHeld own then .wait x.s
    else
      let s := (x.s.tenures.filter own).foldl (fun s t => s.drainLines x.g.core (onLines t.lines)) x.s
      x.tileResult (s.endTenures own) o 0) o s

/-- The child of a cut (R331). -/
def Handle.child (h : Handle) (d p : Nat) (second : Bool) (gen : BitVec 8) : Handle :=
  let size (e : Nat) : Nat := if second then e - p else p
  let off (st : Int) : BitVec 57 := if second then h.base + BitVec.ofInt 57 ((p : Int) * st) else h.base
  let h := { h with gen := gen }
  match d with
  | 0 => { h with e0 := BitVec.ofNat 32 (size h.e0.toNat), base := off 1 }
  | 1 => { h with e1 := BitVec.ofNat 16 (size h.e1.toNat), base := off h.st1.toInt }
  | 2 => { h with e2 := BitVec.ofNat 16 (size h.e2.toNat), base := off h.st2.toInt }
  | _ => { h with e3 := BitVec.ofNat 16 (size h.e3.toNat), base := off h.st3.toInt }

/-- A tenure on a parent as the tenure on a child (R331): its lines are those of the parent that hold the child. -/
def Tenure.inherit (t : Tenure) (parent child : Handle) (i id : Nat) : Tenure :=
  let lines := parent.vlines.zip t.lines
  let place (n : Nat) : Nat := ((lines.find? fun p => p.1 == n).map (·.2)).getD 0
  { t with
    id := id
    index := BitVec.ofNat 16 i
    gen := child.gen
    anchor := homeSlice (128 * place (child.lo.toNat / 128))
    lines := child.vlines.map place }

/-- The tenures on the parent as tenures on its children, in numbers from `n` on (R331). -/
def inheritAll (held : List Tenure) (h a b : Handle) (i j n : Nat) : List Tenure :=
  held.zipIdx.flatMap fun q => [q.1.inherit h a i (n + 2 * q.2), q.1.inherit h b j (n + 2 * q.2 + 1)]

/-- Inherited tenures take their entries one after another, in slices that give up others when they are full (R322), or the write
tenure whose recall has to be over first (R232). -/
def State.seat (s : State) (l : List Tenure) : Except Tenure State :=
  match l with
  | [] => .ok s
  | t :: rest =>
    match (s.oldestAt t.anchor none).filter fun o => (s.recalled [o]).any fun q => q.write && s.recallHeld q with
    | some o => .error o
    | none =>
      let s := s.revokeOldest t.anchor none
      ({ s with tenures := s.tenures ++ [t] } : State).seat rest

/-- THSPLIT whose cut is well formed, with its two indices (R331). -/
def IC.cut (x : IC) (o : Ops) (v d p : Nat) (h : Handle) (i j : Nat) : Act :=
  let c := x.s.ctx x.g.ctx
  let a := h.child d p false (c.handle i).gen
  let b := h.child d p true (c.handle j).gen
  let n := v % 65536
  let c := ((c.setHandle i a).setHandle j b).setHandle n h.freed
  let mine (t : Tenure) : Bool := t.on x.g.ctx n h.gen
  let held := x.s.tenures.filter mine
  let s := { x.s.setCtx x.g.ctx c with
    tenures := x.s.tenures.filter (!mine ·), nextId := x.s.nextId + 2 * held.length }
  let all := inheritAll held h a b i j x.s.nextId
  match s.seat all with
  | .error o => .wait (x.s.callTenures (·.id == o.id))
  | .ok s => x.tileResult (s.endRequests x.g.ctx n h.gen) o (handleValue i a.gen + handleValue j b.gen * 2 ^ 32)

/-- THSPLIT (R331). -/
def execThsplit (o : Ops) (s : State) : Out :=
  issueBoundary .thsplit .w64 (fun x o =>
    let v := x.handleIn o.a
    let cut := (x.val o.b true 0).toNat
    let d := cut % 4
    let p := cut / 2 ^ 32
    let c := x.s.ctx x.g.ctx
    match c.liveHandle v with
    | none => x.actFault 0x07 v Op.thsplit.code
    | some h =>
      let e := ([h.e0.toNat, h.e1.toNat, h.e2.toNat]).getD d h.e3.toNat
      if nfld cut 31 2 ≠ 0 || p < 1 || e ≤ p then x.tileResult x.s o 2
      else match c.freeAbove 0 with
        | none => x.tileResult x.s o 1
        | some i => match c.freeAbove i with
          | none => x.tileResult x.s o 1
          | some j => x.cut o v d p h i j) o s

/-- THFREE (R332). -/
def execThfree (o : Ops) (s : State) : Out :=
  issueBoundary .thfree .w64 (fun x o =>
    let v := x.handleIn o.a
    let c := x.s.ctx x.g.ctx
    match c.liveHandle v with
    | none => x.actFault 0x07 v Op.thfree.code
    | some h =>
      let n := v % 65536
      let mine (t : Tenure) : Bool := t.on x.g.ctx n h.gen
      if x.s.tenuresHeld mine then .wait x.s
      else
        let s := (x.s.tenures.filter mine).foldl (fun s t => s.drainLines t.core (onLines t.lines)) x.s
        let s := (s.endTenures mine).endRequests x.g.ctx n h.gen
        x.pass (s.setCtx x.g.ctx ((s.ctx x.g.ctx).setHandle n h.freed))) o s

/-! ## THQRY and THBND (R333, R334) -/

/-- What THQRY reports (R333). -/
def State.handleReport (s : State) (ctx gid v : Nat) : W64 :=
  let c := s.ctx ctx
  let i := v % 65536
  let h := c.handle i
  let own (w : Bool) : Bool := nfld v 23 16 == 0 &&
    s.tenures.any fun t => t.gid == gid && t.on ctx i (BitVec.ofNat 8 (nfld v 31 24)) && t.write == w
  let entry := if i = 0 then 0 else h.gen.toNat + h.state.toNat * 2 ^ 8 + (if h.rkind = 0 then 0 else 2 ^ 12)
  let live := (c.liveHandle v).isSome
  BitVec.ofNat 64 (entry + (own false).toNat * 2 ^ 10 + (own true).toNat * 2 ^ 11 + live.toNat * 2 ^ 13
    + (if live then (h.hi - h.lo + 1).toNat else 0) * 2 ^ 32)

/-- THQRY (R333). -/
def execThqry (o : Ops) (s : State) : Out :=
  issueWith .thqry .w64 (fun x o _ g =>
    x.retire (g.wrS (opNum o.d) (x.s.handleReport x.g.ctx x.cu.gid (x.handleIn o.a))) 0) o s

/-- A range is malformed (R334). -/
def rangeBad (kind : Nat) (lo hi : W32) : Bool :=
  match kind with
  | 1 =>
    let a := Fmt.f32.dec false lo.toNat
    let b := Fmt.f32.dec false hi.toNat
    a.isNan || b.isNan || b.lt a
  | 2 => hi.toInt < lo.toInt
  | _ => false

/-- THBND (R334). -/
def execThbnd (o : Ops) (s : State) : Out :=
  issueWith .thbnd .w64 (fun x o _ g =>
    let v := x.handleIn o.a
    let b := x.val o.b true 0
    let kind := mfld o.m 49 48
    let lo : W32 := b.setWidth 32
    let hi : W32 := b.extractLsb' 32 32
    let c := x.s.ctx x.g.ctx
    match c.liveHandle v with
    | none => x.fault 0x07 v Op.thbnd.code
    | some h =>
      if rangeBad kind lo hi then x.fault 0x07 v Op.thbnd.code
      else
        let h := { h with rmin := lo, rmax := hi, rkind := BitVec.ofNat 2 kind, ract := BitVec.ofNat 2 (mfld o.m 51 50) }
        ({ x with s := x.s.setCtx x.g.ctx (c.setHandle (v % 65536) h) } : IC).retire g 0) o s

end Sys2Proof.Machine
end

