-- ==== Sys2Proof/Machine/Units.lean ====
section
/-!
DEFINITION. What the units outside the cores share: their accesses in `g:`, which translate without a TLB and wait for walks
and on fault records (R213, R214, R294), the fall of a grid's spawn-tree counter and its end (R26, R27), and sorting.
-/

namespace Sys2Proof.Machine

/-! ## Accesses of the front end and of the Seam units -/

/-- A unit's walk failed: it joins the open record of the page and kind, or posts one when a slot is free (R214). -/
def State.unitRecord (s : State) (u : Unit7) (va cause level entry : Nat) : State :=
  let x := s.ctx u.ctx
  match x.records.find? fun f => f.kind == u.kind && f.va / 4096 == va / 4096 with
  | some f =>
    if f.waiters.contains u.who then s
    else s.setCtx u.ctx { x with records := x.records.map fun y =>
      if y.seq = f.seq then { y with waiters := y.waiters ++ [u.who] } else y }
  | none =>
    if s.frqFree u.ctx then
      s.postRecord u.ctx ⟨u.kind, u.wr, u.engine, va, none, none, u.who⟩ cause level entry [u.who]
    else s

/-- One access of a unit that posts records (R208, R211, R213, R214): it waits for a walk, for the answer to its record, and for
the line to be held under its leaf's key; an address outside the space has failed. -/
def State.unitReach (s : State) (u : Unit7) (va : Nat) : UnitReach :=
  let waits := (s.ctx u.ctx).records.any fun f => f.kind == u.kind && f.va / 4096 == va / 4096 && f.waiters.contains u.who
  if waits then .wait s
  else match s.unitAsk u va with
    | .denied c =>
      let size := (((s.unitTrs.find? (·.serves u.ctx u.who va)).bind (·.entry)).map (·.size)).getD 12
      .wait (s.unitRecord u va c (levelOfSize size) (s.walkEntry u.ctx va (levelOfSize size)))
    | r => r

/-- A waiter of a context waits on a fault record. -/
def State.recordWaits (s : State) (ctx : Nat) (who : Waiter) : Bool :=
  (s.ctx ctx).records.any fun f => f.waiters.contains who

/-! ## The end of groups and grids (R26, R27, R345) -/

/-- A grid's spawn-tree counter falls; at 0 the grid is complete, and its packet's work is finished (R27). -/
def State.gridDown (s : State) (grid n : Nat) : State :=
  match s.grid? grid with
  | none => s
  | some q =>
    if n < q.counter then s.setGrid grid { q with counter := q.counter - n }
    else
      let s : State := { s with grids := smDel s.grids grid, teams := s.teams.filter (·.2.grid != grid) }
      let s := match q.packet with
        | some p => s.packetDone q.queue p 1 0 q.serial
        | none => s
      match q.world with
      | some w => s.setWorld w { s.world w with grid := none }
      | none => s

/-- The spawn-tree counter of a world (R343). -/
def State.worldCounter (s : State) (w : Nat) : Nat :=
  (((s.world w).grid.bind s.grid?).map (·.counter)).getD 0

end Sys2Proof.Machine
end

