-- ==== Sys2Proof/Machine/Seam.lean ====
section
/-!
DEFINITION. The Seam unit's close of a step (R338 to R348, R439): edge counts, merges, recomputation of islands, ranks,
sleep and wake, panels, and the launch of gangs.
-/

namespace Sys2Proof.Machine

/-! ## Island values (R339, R344) -/

/-- The die of a device world number (R9), and its number within the Seam unit. -/
def worldDie (w : Nat) : Nat := w / 1024

/-- An island value from its entry's index (R339). -/
def islandValue (die i : Nat) (gen : BitVec 8) : BitVec 32 := BitVec.ofNat 32 (i + gen.toNat * 2 ^ 16 + die * 2 ^ 24)

/-- The index, the generation and the die of a value (R339). -/
def valIndex (v : BitVec 32) : Nat := v.toNat % 65536
def valDie (v : BitVec 32) : Nat := nfld v.toNat 25 24

/-- A value is current (R339). -/
def State.islandCurrent (s : State) (v : BitVec 32) : Bool :=
  let e := (s.die (valDie v)).island (valIndex v)
  nfld v.toNat 31 26 == 0 && valIndex v != 0 && e.state != 0 && e.gen.toNat == nfld v.toNat 23 16

/-- The current value that a value names, following forwarding entries (R344). -/
def State.resolveIsland (s : State) (n : Nat) (v : BitVec 32) : Option (BitVec 32) :=
  if s.islandCurrent v then some v
  else match n with
    | 0 => none
    | n + 1 => match (s.die (valDie v)).forwards.find? fun f => f.1 == v with
      | some f => s.resolveIsland n f.2.1
      | none => none

/-- The end of an entry's life (R339). -/
def Island.freed (e : Island) : Island := { Island.reset with gen := if e.gen = 255 then 1 else e.gen + 1 }

/-- The INDEX of a body's island; 0 for a loose body (R341). -/
def Body.index (b : Body) : Nat := b.isl.toNat % 65536

/-! ## Stage 1: counts (R343) -/

/-- The key of an edge: lower body, higher body, kind (R338). -/
def Report.key (r : Report) : Nat × Nat × BitVec 16 := (min r.a r.b, max r.a r.b, r.edge)

/-- An edge's place in the ascending order of R343. -/
def edgeOrder (k : Nat × Nat × BitVec 16) : Nat := (k.1 * 2 ^ 20 + k.2.1) * 2 ^ 16 + k.2.2.toNat

/-- The net change of an edge over a step's records. -/
def netChange (rs : List Report) (k : Nat × Nat × BitVec 16) : Int :=
  ((rs.filter fun r => r.key == k).map fun r => if r.unpick then (-1 : Int) else 1).foldl (· + ·) 0

/-- The edges after stage 1, in ascending order, with EFULL and the saturation flag (R343). -/
def countEdges (edges : List Edge) (rs : List Report) (room : Nat) : List Edge × Bool × Bool :=
  let keyOf (e : Edge) : Nat × Nat × BitVec 16 := (e.a, e.b, e.kind)
  let sum (c : Int) (k : Nat × Nat × BitVec 16) : Int := c + netChange rs k
  let old := edges.map fun e => { e with count := sum e.count (keyOf e) }
  let fresh := ((rs.map Report.key).eraseDups.filter fun k => !(edges.any fun e => keyOf e == k)).map fun k =>
    (⟨k.1, k.2.1, k.2.2, sum 0 k⟩ : Edge)
  let sat := (old ++ fresh).any fun e => e.count < -32767 || 32767 < e.count
  let clip (e : Edge) : Edge := { e with count := clampInt (-32767) 32767 e.count }
  let kept := (old.filter fun e => 0 < e.count).map clip
  let new := sortBy (fun e => edgeOrder (keyOf e)) ((fresh.filter fun e => 0 < e.count).map clip)
  let fits := room - kept.length
  (sortBy (fun e => edgeOrder (keyOf e)) (kept ++ new.take fits), decide (fits < new.length), sat)

/-! ## Graph walks (R338, R343) -/

/-- A body's neighbours over the present edges, ascending. -/
def neighbours (es : List Edge) (b : Nat) : List Nat :=
  sortBy id ((es.filterMap fun e => if e.a = b then some e.b else if e.b = b then some e.a else none).eraseDups)

/-- A breadth-first walk: bodies visited, then bodies still to visit. -/
def walkFrom (es : List Edge) (n : Nat) (seen todo : List Nat) : List Nat :=
  match n, todo with
  | 0, _ => seen
  | _, [] => seen
  | n + 1, b :: rest =>
    let new := (neighbours es b).filter fun c => !(seen.contains c || (b :: rest).contains c)
    walkFrom es n (seen ++ [b]) (rest ++ new)

/-- The components of some bodies, each in the order of its walk, from the lowest body not yet reached. -/
def components (es : List Edge) (n : Nat) (bodies : List Nat) : List (List Nat) :=
  match n, bodies with
  | 0, _ => []
  | _, [] => []
  | n + 1, b :: rest =>
    let c := walkFrom es (rest.length + 1) [] [b]
    c :: components es n (rest.filter fun x => !c.contains x)

/-! ## Stages 2 and 3: merges and recomputation (R343, R439) -/

/-- An island on its way through a close: its bodies in ascending order, the entry it keeps, and its state. -/
structure Isle where
  bodies : List Nat
  entry : Option Nat
  asleep : Bool
  wakep : Bool
  fray : Bool
  changed : Bool
  deriving DecidableEq, Repr

/-- A loose body's outcome: it was loose before, or was made loose. -/
structure LooseEnd where
  body : Nat
  asleep : Bool
  wakep : Bool
  deriving DecidableEq, Repr

/-- The unit that a body belongs to before the close: itself, or its island (R343, stage 2). -/
def World.unitOf (w : World) (b : Nat) : Nat :=
  let i := (w.bodyAt b).index
  if i = 0 then b else 2 ^ 20 + i

/-- The bodies of an entry, ascending. -/
def World.members (w : World) (i : Nat) : List Nat := (w.bodies.filter fun kv => kv.2.index == i).map (·.1)

/-- The entries of a world's islands. -/
def World.entries (w : World) : List Nat := ((w.bodies.map fun kv => kv.2.index).filter (· != 0)).eraseDups

/-- Units joined over the present edges: each unit with its label. -/
def joinUnits (w : World) (es : List Edge) : SMap Nat :=
  es.foldl (fun m e =>
    let label (u : Nat) : Nat := (smFind m u).getD u
    let ua := w.unitOf e.a
    let ub := w.unitOf e.b
    let la := label ua
    let lb := label ub
    let m := smPut (smPut m ua la) ub lb
    if la = lb then m else m.map fun kv => (kv.1, if kv.2 = max la lb then min la lb else kv.2)) []

/-- The entry that a joined island keeps: the most bodies, then the lowest LOW (R343). -/
def keptEntry (d : Die) (es : List Nat) : Option Nat :=
  match es with
  | [] => none
  | e :: t => some (t.foldl (fun a b =>
      let x := d.island a
      let y := d.island b
      if x.nb < y.nb || (x.nb == y.nb && y.low < x.low) then b else a) e)

/-- A set of units joined into one island, with the entries it gives up (R343, R439). -/
def joinIsle (w : World) (d : Die) (units : List Nat) : Isle × List Nat :=
  let es := (units.filter fun u => 2 ^ 20 ≤ u).map (· - 2 ^ 20)
  let bs := units.filter (· < 2 ^ 20)
  let keep := keptEntry d es
  let awake := es.any (fun i => (d.island i).state == 1) || bs.any fun b => !(w.bodyAt b).sleep
  let wakep := es.any (fun i => (d.island i).wakep) || bs.any fun b => (w.bodyAt b).lwake
  ({ bodies := sortBy id (bs ++ es.flatMap w.members), entry := keep, asleep := !awake, wakep := wakep,
     fray := es.any fun i => (d.island i).fray, changed := true },
   es.filter fun i => keep != some i)

/-- A step's islands after stages 2 and 3: islands, bodies made loose, entries given up with the entry that took
their place, and entries freed without one. -/
structure Joined where
  isles : List Isle
  loose : List LooseEnd
  merged : List (Nat × Nat)
  freed : List Nat
  deriving DecidableEq, Repr

/-- Stage 2 (R343). -/
def joinAll (w : World) (d : Die) (es : List Edge) : Joined :=
  let labels := joinUnits w es
  let sets := (labels.map (·.2)).eraseDups.map fun l => (labels.filter (·.2 == l)).map (·.1)
  let multi := sets.filter fun u => 1 < u.length
  let still := w.entries.filter fun i => !(multi.any fun u => u.contains (2 ^ 20 + i))
  let joined := multi.map (joinIsle w d)
  let alone := still.map fun i =>
    let e := d.island i
    ({ bodies := w.members i, entry := some i, asleep := e.state == 2, wakep := e.wakep, fray := e.fray,
       changed := false } : Isle)
  { isles := alone ++ joined.map (·.1)
    loose := []
    merged := joined.flatMap fun j => match j.1.entry with
      | some k => j.2.map fun i => (i, k)
      | none => []
    freed := [] }

/-- Stage 3 for one frayed island (R343); one that is found whole has not changed. -/
def splitIsle (es : List Edge) (i : Isle) : Joined :=
  let cs := components es i.bodies.length i.bodies
  if cs.length = 1 then ⟨[i], [], [], []⟩
  else
    let multi := cs.filter fun c => 1 < c.length
    let made (k : Nat × List Nat) : Isle :=
      { i with bodies := sortBy id k.2, entry := if k.1 = 0 then i.entry else none, changed := true }
    { isles := (multi.zipIdx.map fun p => made (p.2, p.1))
      loose := (cs.filter fun c => c.length ≤ 1).map fun c => ⟨c.headD 0, i.asleep, i.wakep⟩
      merged := []
      freed := if multi.isEmpty then i.entry.toList else [] }

/-- Stage 3 (R343). -/
def splitAll (es : List Edge) (j : Joined) : Joined :=
  j.isles.foldl (fun r i =>
    if i.fray then
      let k := splitIsle es i
      { r with isles := r.isles ++ k.isles, loose := r.loose ++ k.loose, freed := r.freed ++ k.freed }
    else { r with isles := r.isles ++ [i] }) { j with isles := [] }

/-! ## Stage 4: entries (R343, R344) -/

/-- Put forwarding entries into the table; the oldest leaves a full one (R344). The world's earlier entries end with
this close. -/
def Die.forward (d : Die) (world : Nat) (new : List (BitVec 32 × BitVec 32)) : Die :=
  let add := new.map fun p => (p.1, p.2, world)
  let over_ := d.forwards.length + add.length - 4096
  let old := d.forwards.drop over_
  { d with forwards := (old.filter fun f => f.2.2 != world) ++ add.drop (over_ - d.forwards.length) }

/-- The lowest free INDEX from `i` among the next `n` (R339). -/
def Die.freeIsland (d : Die) (n i : Nat) : Option Nat :=
  match n with
  | 0 => none
  | n + 1 => if (d.island i).state = 0 then some i else d.freeIsland n (i + 1)

/-- The entries of joined and split islands: what was given up is freed and forwarded, and new islands take entries in
ascending order of LOW; none when an entry cannot be found (R343). -/
def Joined.place (j : Joined) (world : Nat) (d : Die) : Die × Option (List (Isle × Nat)) :=
  let die := worldDie world
  let value (i : Nat) : BitVec 32 := islandValue die i (d.island i).gen
  let gone := j.merged.map fun m => (value m.1, value m.2)
  let free (d : Die) (i : Nat) : Die := d.setIsland i (d.island i).freed
  let d1 := ((j.merged.map (·.1)) ++ j.freed).foldl free d
  let d1 := d1.forward world gone
  let sorted := sortBy (fun i => i.bodies.headD 0) j.isles
  sorted.foldl (fun (p : Die × Option (List (Isle × Nat))) i => match p.2 with
    | none => p
    | some l => match i.entry with
      | some k => (p.1, some (l ++ [(i, k)]))
      | none => match p.1.freeIsland 65535 1 with
        | none => (p.1, none)
        | some k =>
          let e := p.1.island k
          (p.1.setIsland k { Island.reset with gen := e.gen, state := 1, world := world % 1024 }, some (l ++ [(i, k)])))
    (d1, some [])

/-! ## Stages 5 to 7 (R343) -/

/-- A still count of a step: it rises when there was a report and nothing moved (R343, stage 6). -/
def nextStill (still : BitVec 8) (changed rpt moved : Bool) : Nat :=
  if changed || !rpt || moved then 0 else min 255 (still.toNat + 1)

/-- A break of the island is reported in a step that has still to close (R342). -/
def Isle.brokenLater (i : Isle) (later : List Report) : Bool :=
  later.any fun r => r.unpick && (i.bodies.contains r.a || i.bodies.contains r.b)

/-- Stage 6 for an island's entry, with its new LOW and NB. DEDUCED (log entry 75): a break that an UNPICK of a later step
reports stays pending, since that step's close has still to cut the edge and to walk the island. -/
def Isle.entryAfter (i : Isle) (e : Island) (stilln : Nat) (later : List Report) : Island :=
  let base : Island := { e with
    fray := i.brokenLater later
    wakep := false
    moved := false
    rpt := false
    low := i.bodies.headD 0
    nb := i.bodies.length
    lmax := 0
    amax := 0
    phase := 0
    arr := 0 }
  let still0 : BitVec 8 := if i.changed then 0 else e.still
  if i.wakep then { base with state := 1, still := 0 }
  else if i.asleep then { base with state := 2, still := still0 }
  else
    let n := nextStill e.still i.changed e.rpt e.moved
    { base with state := if stilln ≤ n then 2 else 1, still := BitVec.ofNat 8 n }

/-- The panels of an island: how many, and 1 when it is not divided (R343, stage 7). -/
def panelsOf (nb panel : Nat) : Nat := if panel < nb then (nb + panel - 1) / panel else 1

/-- The body map entries of an island: rank, and SEL where it is divided and awake (R343, stages 5 and 7). -/
def isleBodies (es : List Edge) (order : List Nat) (die k : Nat) (gen : BitVec 8) (divided : Bool) (panel : Nat) :
    List (Nat × Body) :=
  let rankOf (b : Nat) : Nat := order.idxOf b
  order.zipIdx.map fun p =>
    let sel := divided && (neighbours es p.1).any fun c => rankOf c / panel != p.2 / panel
    (p.1, { Body.reset with isl := (islandValue die k gen).setWidth 24, rank := BitVec.ofNat 20 p.2, sel := sel })

/-- Stage 6 for a body that is loose after the close. -/
def looseAfter (b : Body) (made : Option LooseEnd) (stilln : Nat) : Body :=
  let asleep := (made.map (·.asleep)).getD b.sleep
  let wake := (made.map (·.wakep)).getD b.lwake
  let n := if made.isSome then 0 else nextStill b.lstill false b.lrpt b.lmoved
  let still : Nat := if made.isSome then 0 else b.lstill.toNat
  if wake then Body.reset
  else if asleep then { Body.reset with sleep := true, lstill := BitVec.ofNat 8 still }
  else if stilln ≤ n then { Body.reset with sleep := true, lstill := BitVec.ofNat 8 n }
  else { Body.reset with lstill := BitVec.ofNat 8 n }

/-! ## The close as a whole -/

/-- Cut a list into runs of at most `n`. -/
def chunks (n k : Nat) (l : List Nat) : List (List Nat) := (List.range k).map fun i => (l.drop (n * i)).take n

/-- The gangs of a close in ascending order of their keys (R343, stage 8). -/
def planGangs (w : World) (die : Nat) (isles : List (Isle × Nat × Island × List Nat)) : List GangPlan :=
  let pn := w.desc.panel
  let awake := isles.filter fun i => i.2.2.1.state == 1
  let ofIsle (i : Isle × Nat × Island × List Nat) : List GangPlan :=
    let n := panelsOf i.2.2.1.nb pn
    let v := islandValue die i.2.1 i.2.2.1.gen
    let parts := if n = 1 then [i.2.2.2] else chunks pn n i.2.2.2
    parts.zipIdx.map fun p => ⟨i.2.2.1.low, v, p.1, pn * p.2, p.2, n⟩
  let free := (List.range w.desc.nbody).filter fun b => (w.bodyAt b).index == 0 && !(w.bodyAt b).sleep
  let runs := chunks pn ((free.length + pn - 1) / pn) free
  sortBy (fun g => g.low * 2 ^ 20 + g.panel)
    (awake.flatMap ofIsle ++ runs.map fun r => ⟨r.headD 0, 0, r, 0, 0, 1⟩)

/-- Stages 1 to 7 of a close, and the gangs of stage 8: the die and the world after it, and none for the gangs where
an entry could not be found (R343). -/
def closeStages (w : World) (world : Nat) (d : Die) : Die × World × Option (List GangPlan) :=
  let n := w.step - 1
  let die := worldDie world
  let rs := w.stream.filter fun r => r.step == n
  let c := countEdges w.edges rs (2 ^ w.desc.elog2)
  let flags := w.flags ||| BitVec.ofNat 4 (c.2.1.toNat + 2 * c.2.2.toNat)
  let w : World := { w with edges := c.1, flags := flags, stream := w.stream.filter fun r => r.step != n }
  let j := splitAll w.edges (joinAll w d w.edges)
  match j.place world d with
  | (d1, none) => (d1, w, none)
  | (d1, some placed) =>
    let full := placed.map fun p =>
      let e := p.1.entryAfter (d1.island p.2) w.desc.stilln w.stream
      let order := walkFrom w.edges p.1.bodies.length [] [p.1.bodies.headD 0]
      (p.1, p.2, e, order)
    let d2 := full.foldl (fun (d : Die) f => d.setIsland f.2.1 f.2.2.1) d1
    let inIsles := full.flatMap fun f =>
      isleBodies w.edges f.2.2.2 die f.2.1 f.2.2.1.gen (f.2.2.1.state == 1 && w.desc.panel < f.2.2.1.nb) w.desc.panel
    let isIn (b : Nat) : Bool := inIsles.any fun p => p.1 == b
    let freed := j.loose.map fun l => (l.body, looseAfter (w.bodyAt l.body) (some l) w.desc.stilln)
    let isFreed (b : Nat) : Bool := j.loose.any fun l => l.body == b
    let others := (w.bodies.filter fun kv => !isIn kv.1 && !isFreed kv.1).map fun kv =>
      (kv.1, looseAfter kv.2 none w.desc.stilln)
    let w2 := ((inIsles ++ freed ++ others).foldl (fun (w : World) p => w.setBody p.1 p.2) { w with loosePanels := [] })
    (d2, w2, some (planGangs w2 die full))

end Sys2Proof.Machine
end

