-- ==== Sys2Proof/Machine/SeamOps.lean ====
section
/-!
DEFINITION. Worlds at work: the instructions of class 7 (R349 to R355), and the Seam unit's events: step close, staging,
write-back and the step signal (R343 to R348).
-/

namespace Sys2Proof.Machine

/-! ## The Seam unit's accesses and errors (R348) -/

/-- The Seam unit of a world as a requester (R294, R348). -/
def State.seamUnit (s : State) (w : Nat) (wr : Bool) : Unit7 :=
  ⟨(s.world w).desc.ctx, if wr then .copyWrite else .copyRead, wr, 0x1FFF0 + worldDie w, worldDie w, .world w⟩

/-- One access of a world's Seam unit; a page whose record was answered Deny is as an address outside the space. -/
def State.seamReach (s : State) (w : Nat) (wr : Bool) (va : Nat) : UnitReach :=
  if (s.world w).denied.contains (va / 4096, if wr then 6 else 5) then .failed
  else s.unitReach (s.seamUnit w wr) va

/-- The accesses of a list of addresses: places in order (none where outside or denied), or what they wait on. -/
def State.seamAll (s : State) (w : Nat) (wr : Bool) (vas : List Nat) : Except State (List (Option Nat)) :=
  let rs := vas.map fun va => (va, s.seamReach w wr va)
  if rs.any fun r => r.2 matches .wait _ then
    .error (rs.foldl (fun s r => match s.seamReach w wr r.1 with
      | .wait s => s
      | _ => s) s)
  else .ok (rs.map fun r => match r.2 with
    | .ok pa => some pa
    | _ => none)

/-! ## The panel barrier (R353) -/

/-- The teams that take part in a panel barrier: every gang of the island, or a loose run's own (R353). -/
def State.panelTeams (s : State) (team : Nat) (g : Gang) : List (Nat × Team) :=
  s.teams.filter fun kv =>
    if g.island = 0 then kv.1 == team
    else match kv.2.gang with
      | some h => h.world == g.world && h.island == g.island
      | none => false

/-- The panel barrier of a gang: PHASE and ARR (R340, R353). -/
def State.panelState (s : State) (team : Nat) (g : Gang) : BitVec 32 × Nat :=
  if g.island = 0 then smGet (0, 0) (s.world g.world).loosePanels team
  else
    let e := (s.die (worldDie g.world)).island (valIndex g.island)
    (e.phase, e.arr)

def State.setPanel (s : State) (team : Nat) (g : Gang) (p : BitVec 32 × Nat) : State :=
  if g.island = 0 then
    let x := s.world g.world
    s.setWorld g.world { x with loosePanels := smSet (0, 0) x.loosePanels team p }
  else
    let d := s.die (worldDie g.world)
    let i := valIndex g.island
    s.setDie (worldDie g.world) (d.setIsland i { d.island i with phase := p.1, arr := p.2 })

/-- A group that waits at the panel barrier wakes with PHASE, and acquires (R353). -/
def State.wakePanel (s : State) (gid : Nat) (phase : BitVec 32) : State :=
  match s.group? gid with
  | none => s
  | some g => match g.status with
    | .atPanel _ dst _ pc =>
      ((s.setGroup gid { g.wrS dst (phase.setWidth 64) with status := .running }).emptyL1 g.core).passAndOpen gid pc
        fun _ => pc + 8
    | _ => s

/-- A group that has drained counts as arrived in every later phase, and once in the phase in which it had arrived before (R353). -/
def State.leavePanel (s : State) (team : Nat) (q : Gang) (g : Group) : State :=
  let p := s.panelState team q
  if g.panelAt = some p.1 then s.setPanel team q (p.1, p.2 - 1) else s

/-- The panel barrier after an arrival or the end of a group: a phase that everyone has reached is complete. Groups
that have drained count in every phase (R353). -/
def State.settlePanel (s : State) (team : Nat) (g : Gang) : State :=
  let ts := s.panelTeams team g
  let total := (ts.map fun kv => Shape.total kv.2.shape).foldl (· + ·) 0
  let left := (ts.map fun kv => kv.2.groupsLeft).foldl (· + ·) 0
  let p := s.panelState team g
  if p.2 = 0 || p.2 + (total - left) < total then s
  else
    let s := s.setPanel team g (p.1 + 1, 0)
    let waiting := s.groups.filter fun kv => ts.any (fun t => t.1 == kv.2.team) && kv.2.status matches .atPanel ..
    waiting.foldl (fun s kv => s.wakePanel kv.1 (p.1 + 1)) s

/-! ## Worlds in error (R348) -/

/-- A gang that has not started is not placed, and its groups are counted down (R348); the cores closed for it open again (R31),
and a panel barrier that waited for it goes on (R353). -/
def State.cancelGang (s : State) (key : Nat) : State :=
  match s.team? key with
  | none => s
  | some t =>
    let s := { s with groups := s.groups.filter (·.2.team != key) }
    let s := ((s.setTeam key { t with place := .gone, groupsLeft := 0 }).reopen key).closeWaiting
    let s := match t.gang with
      | some g => s.settlePanel key g
      | none => s
    s.gridDown t.grid t.groupsLeft

/-- A gang of a world that has not started. -/
def Team.unstarted (t : Team) (w : Nat) : Bool :=
  match t.gang with
  | some g => g.world == w && !g.staged && t.place != .gone
  | none => false

/-- A world enters error (R348), with a flag of R354. -/
def State.worldError (s : State) (w flag : Nat) : State :=
  let x := s.world w
  let x : World := { x with flags := x.flags ||| BitVec.ofNat 4 flag }
  if x.error then s.setWorld w x
  else
    let s := s.setWorld w { x with error := true, closing := false, launch := none, sigDue := some (-1) }
    (s.teams.filter fun kv => kv.2.unstarted w).foldl (fun s kv => s.cancelGang kv.1) s

/-- Some of a Seam unit's writes have to wait (R234, R325). -/
def State.seamHeld (s : State) (pas : List (Option Nat)) (n : Nat) : Bool :=
  (pas.filterMap id).any fun pa => s.writeHeld pa n

/-- The tenures in the way of a Seam unit's accesses are being recalled (R322). -/
def State.seamRecall (s : State) (pas : List (Option Nat)) (n : Nat) : State :=
  s.callBack none ((pas.filterMap id).flatMap fun pa => run pa n)

/-- The Seam unit of a world works: its die has power (R14, R406). -/
def State.seamUp (s : State) (w : Nat) : Bool := (s.die (worldDie w)).powered && !(s.die (worldDie w)).failed

/-! ## Step close (R343, R345) -/

/-- A gang record (R345). -/
def GangPlan.record (p : GangPlan) (step : BitVec 32) (g : Nat) : List Byte :=
  leBytes 8 (step.toNat + p.island.toNat * 2 ^ 32)
    ++ leBytes 16 (p.bodies.length + p.firstRank * 2 ^ 20 + p.panel * 2 ^ 40 + p.panels * 2 ^ 58 + g * 2 ^ 96)
    ++ List.replicate 40 0

/-- The shape of a gang of b bodies (R29). -/
def WorldDesc.gangShape (d : WorldDesc) (b : Nat) : Shape :=
  { entry := d.entry, roles := 1, groups := [(b + 63) / 64], allot := [8 * d.gallot],
    scratch := (128 * b + 1024 * d.crow + 1023) / 1024, tbuf := d.tbuf, barriers := 0, lanes := 64 }

/-- The die set of a queue's descriptor (R283). -/
def State.queueDies (s : State) (q : Nat) : BitVec 4 :=
  let d := BitVec.ofNat 4 (nfld (s.queueWord q 2) 26 23)
  if d = 0 then 0xF else d

/-- The gangs of a close become the teams of one grid, in order (R345). -/
def State.launchGangs (s : State) (w : Nat) (x : World) (plan : List GangPlan) : State :=
  let total := (plan.map fun p => (p.bodies.length + 63) / 64).foldl (· + ·) 0
  let grid := s.nextGridKey
  let dies := s.queueDies x.desc.queue
  let s := s.newGrid x.desc.ctx total dies x.desc.queue none (some w)
  let s := s.setWorld w { s.world w with grid := some grid }
  plan.zipIdx.foldl (fun s p =>
    s.queueTeam grid (x.desc.gangShape p.1.bodies.length) (BitVec.ofNat 64 (x.desc.grec + 64 * p.2)) dies
      (some { world := w, step := x.step, island := p.1.island, firstRank := p.1.firstRank, panel := p.1.panel,
              bodies := p.1.bodies, staged := false, written := false })) s

/-- The launch of a close whose gang records can be written (R343, R345, R348). -/
def State.closeLaunch (s : State) (w : Nat) (x : World) (plan : List GangPlan) (pas : List Nat) : State :=
  let bytes := (plan.zipIdx.map fun p => p.1.record x.step p.2)
  let s := (pas.zip bytes).foldl (fun s p => s.memWrite none (wbytes p.1 p.2)) s
  let s := s.setWorld w { x with closing := false, launch := none, sigDue := some (x.step.setWidth 64) }
  if plan.isEmpty then s else s.launchGangs w x plan

/-- A close of a world is running: its state is that after the close, and its gangs are still to be launched (R355). -/
def State.closeRunning (s : State) (w : Nat) : Bool := (s.world w).launch.isSome

/-- A world's close may begin (R343): its STEPC is accepted and its counter is 0; the step signal of the step before
is stored. Once its context's stop line is raised no close starts, and a running one goes on (R396). -/
def State.closeReady (s : State) (w : Nat) : Bool :=
  let x := s.world w
  let st := (s.ctx x.desc.ctx).state
  x.isOpen && x.closing && !x.error && x.sigDue.isNone && s.worldCounter w == 0
    && !s.recordWaits x.desc.ctx (.world w) && s.seamUp w && (st == .enabled || (st == .stopping && s.closeRunning w))

/-- Stages 1 to 7 of a close (R343): its gangs are then to be launched, or the world is in error where no entry was free. -/
def State.closeState (s : State) (w : Nat) : State :=
  let r := closeStages (s.world w) w (s.die (worldDie w))
  let s := (s.setDie (worldDie w) r.1).setWorld w { r.2.1 with launch := r.2.2 }
  if r.2.2.isNone then s.worldError w 4 else s

/-- Stage 8 of a close (R343, R345, R348): the gang records are written, which may wait, and the gangs are queued. -/
def State.closeEnd (s : State) (w : Nat) (plan : List GangPlan) : State :=
  let x := s.world w
  match s.seamAll w true ((List.range plan.length).map fun g => x.desc.grec + 64 * g) with
  | .error s => s
  | .ok pas =>
    if pas.any (·.isNone) then s.worldError w 8
    else if s.seamHeld pas 64 then s.seamRecall pas 64
    else (s.closeLaunch w x plan (pas.filterMap id)).unitDone x.desc.ctx (.world w)

/-- STEP_CLOSE (R343): a close begins with all its stages but the last, and ends when its gang records are written. -/
def execStepClose (w : Nat) (s : State) : Out :=
  if !s.closeReady w then noEvent s
  else
    let s := if s.closeRunning w then s else s.closeState w
    .next (match (s.world w).launch with
      | some plan => s.closeEnd w plan
      | none => s)

/-! ## Staging and write-back (R346, R347) -/

/-- The last 8 bytes of a staged record: body number, SEL and STEP (R346). -/
def stagedTail (x : World) (g : Gang) (b : Nat) : List Byte :=
  leBytes 8 (b + (x.bodyAt b).sel.toNat * 2 ^ 31 + g.step.toNat * 2 ^ 32)

/-- The scratch bytes of a gang's bodies. -/
def State.stagedBytes (s : State) (x : World) (g : Gang) (base : Nat) (pas : List Nat) : List WByte :=
  (g.bodies.zip pas).zipIdx.flatMap fun p =>
    let src := s.memRead p.1.2 120 ++ (stagedTail x g p.1.1).map fun b => (b, false)
    src.zipIdx.map fun q => ⟨base + 128 * p.2 + q.2, q.1.1, q.1.2⟩

/-- GANG_STAGING (R346): the bodies' records are copied into a placed gang's scratch, and its groups may issue: each acquires as
it first does (R438, State.firstIssue). -/
def execGangStaging (team : Nat) (s : State) : Out :=
  match s.team? team with
  | none => noEvent s
  | some t => match t.gang, t.place with
    | some g, .placed core base =>
      let x := s.world g.world
      if g.staged || !s.seamUp g.world || (s.ctx t.ctx).state != .enabled || s.recordWaits t.ctx (.world g.world) then noEvent s
      else match s.seamAll g.world false (g.bodies.map fun b => x.desc.body + 128 * b) with
        | .error s => .next s
        | .ok pas =>
          if pas.any (·.isNone) then .next (s.worldError g.world 8)
          else
            let pas := pas.filterMap id
            let all := pas.flatMap fun a => run a 120
            if s.intrudeWaits none all then .next (s.callBack none all)
            else
              let s := s.intrude none all false
              let c := s.core core
              let s := s.setCore core { c with scratch := bankWrite c.scratch (s.stagedBytes x g base pas) }
              .next ((s.setTeam team { t with gang := some { g with staged := true } }).unitDone t.ctx (.world g.world))
    | _, _ => noEvent s

/-- Every operation of a draining group has been acknowledged (R33). -/
def Group.drainedNow (g : Group) : Bool :=
  g.status == .draining && g.cntLd == 0 && g.cntSt == 0 && g.cntTl == 0 && g.copiesLeft == 0 && g.buf.isEmpty
    && g.late.isEmpty

/-- GANG_WRITEBACK (R347, R348): when a gang's last group has drained, its bodies' records are written back. -/
def execGangWriteback (team : Nat) (s : State) : Out :=
  match s.team? team with
  | none => noEvent s
  | some t => match t.gang, t.place with
    | some g, .placed core base =>
      let x := s.world g.world
      let left := s.groups.filter fun kv => kv.2.team == team
      if !g.staged || g.written || !s.seamUp g.world || (s.ctx t.ctx).state != .enabled || t.groupsLeft != 1
          || !(left.all fun kv => kv.2.drainedNow) || s.recordWaits t.ctx (.world g.world) then noEvent s
      else match s.seamAll g.world true (g.bodies.map fun b => x.desc.body + 128 * b) with
        | .error s => .next s
        | .ok pas =>
          if s.seamHeld pas 120 then .next (s.seamRecall pas 120)
          else
            let bank := (s.core core).scratch
            let s1 := pas.zipIdx.foldl (fun s p => match p.1 with
              | some pa => s.memWrite none ((bankBytes bank (base + 128 * p.2) 120).zipIdx.map fun q =>
                  ⟨pa + q.2, q.1.1, q.1.2⟩)
              | none => s) s
            let s2 := (s1.setTeam team { t with gang := some { g with written := true } }).unitDone t.ctx (.world g.world)
            .next (if pas.any (·.isNone) then s2.worldError g.world 8 else s2)
    | _, _ => noEvent s

/-- STEPSIG_STORE (R348): the step's number, or all ones for a world in error, is stored to STEPSIG. -/
def execStepsigStore (w : Nat) (s : State) : Out :=
  let x := s.world w
  match x.sigDue with
  | none => noEvent s
  | some v =>
    if !s.seamUp w || !x.error && s.worldCounter w != 0 || s.recordWaits x.desc.ctx (.world w) then noEvent s
    else match s.seamReach w true x.desc.stepsig with
      | .wait s => .next s
      | .failed | .denied _ =>
        let s := s.worldError w 8
        .next (s.setWorld w { s.world w with sigDue := none })
      | .ok pa =>
        if s.writeHeld pa 8 then .next (s.writeRecall pa 8)
        else .next (((s.memWrite none (wbytes pa (leBytes 8 v.toNat))).setWorld w { x with sigDue := none }).unitDone x.desc.ctx (.world w))

/-! ## SEAM, UNPICK and WAKE (R342, R350, R352) -/

/-- The world that a register names (R349): its number, or the register's value where the check fails. -/
def IC.worldIn (x : IC) (o : Opd) : Except Nat Nat :=
  let v := (x.val o true 0).toNat
  let w := x.s.world v
  if v / 1024 = x.dieNo && w.isOpen && w.desc.ctx == x.g.ctx then .ok v else .error v

/-- The first body number of active lanes at or above NBODY (R349). -/
def IC.badBody (x : IC) (w : Nat) (os : List Opd) : Option Nat :=
  os.findSome? fun o => ((lanesOf x.act).find? fun l => (x.s.world w).desc.nbody ≤ (x.val32 o l).toNat).map fun l =>
    (x.val32 o l).toNat

/-- A body lies in a sleeping island, or is a sleeping loose body (R342). -/
def State.bodyAsleep (s : State) (w b : Nat) : Bool :=
  let y := (s.world w).bodyAt b
  if y.index = 0 then y.sleep else ((s.die (worldDie w)).island y.index).state == 2

/-- Change the island of a body, or the body itself when it is loose. -/
def State.onBody (s : State) (w b : Nat) (f : Island → Island) (h : Body → Body) : State :=
  let y := (s.world w).bodyAt b
  if y.index = 0 then s.setWorld w ((s.world w).setBody b (h y))
  else
    let d := s.die (worldDie w)
    s.setDie (worldDie w) (d.setIsland y.index (f (d.island y.index)))

/-- A wake of a body is pending (R342, R352). -/
def State.wakeBody (s : State) (w b : Nat) : State :=
  s.onBody w b (fun e => { e with wakep := true }) fun y => { y with lwake := true }

/-- A report is accepted (R295, R342). -/
def State.acceptReport (s : State) (w : Nat) (r : Report) : State :=
  let x := s.world w
  let s := s.setWorld w { x with stream := x.stream ++ [r] }
  if r.unpick then
    let fray (s : State) (b : Nat) : State :=
      s.onBody w b (fun e => { e with fray := true, wakep := e.wakep || e.state == 2 }) id
    fray (fray s r.a) r.b
  else
    let sa := s.bodyAsleep w r.a
    let sb := s.bodyAsleep w r.b
    if sa && !sb then s.wakeBody w r.a else if sb && !sa then s.wakeBody w r.b else s

/-- SEAM and UNPICK (R350). -/
def issueReport (op : Op) (unpick : Bool) (o : Ops) (s : State) : Out :=
  issueBoundary op .w64 (fun x o =>
    match x.worldIn o.c with
    | .error v => x.actFault 0x06 v 11
    | .ok w => match x.badBody w [o.a, o.b] with
      | some b => x.actFault 0x06 b 12
      | none =>
        let lanes := lanesOf x.act
        if 1024 < (x.s.world w).stream.length + lanes.length then .wait x.s
        else
          x.pass (lanes.foldl (fun s l =>
            let a := (x.val32 o.a l).toNat
            let b := (x.val32 o.b l).toNat
            if a = b then s
            else s.acceptReport w ⟨a, b, unpick, o.m, (x.s.world w).step, x.g.core⟩) x.s)) o s

/-- SEAM (R350). -/
def execSeam (o : Ops) (s : State) : Out := issueReport .seam false o s
/-- UNPICK (R350). -/
def execUnpick (o : Ops) (s : State) : Out := issueReport .unpick true o s

/-- WAKE (R352). -/
def execWake (o : Ops) (s : State) : Out :=
  issueBoundary .wake .w64 (fun x o =>
    match x.worldIn o.c with
    | .error v => x.actFault 0x06 v 11
    | .ok w => match x.badBody w [o.a] with
      | some b => x.actFault 0x06 b 12
      | none => x.pass ((lanesOf x.act).foldl (fun s l => s.wakeBody w (x.val32 o.a l).toNat) x.s)) o s

/-! ## SETTLE (R351) -/

/-- The larger magnitude, a NaN above every number and stored as the canonical one (R351). -/
def maxSpeed (a m : BitVec 32) : BitVec 32 :=
  let v := if a < m then m else a
  if 0x7F800000#32 < v then 0x7FC00000 else v

/-- A body's report (R351): magnitudes of linear and angular speed. -/
def State.reportSpeed (s : State) (w b : Nat) (lin ang : BitVec 32) : State :=
  let d := (s.world w).desc
  let moved := d.linv ≤ lin || d.angv ≤ ang
  s.onBody w b
    (fun e => { e with rpt := true
                       moved := e.moved || moved
                       lmax := maxSpeed e.lmax lin
                       amax := maxSpeed e.amax ang })
    fun y => { y with lrpt := true, lmoved := y.lmoved || moved }

/-- The gang of the issuing group. -/
def IC.gang (x : IC) : Option Gang := x.team.bind (·.gang)

/-- SETTLE (R351). -/
def execSettle (o : Ops) (s : State) : Out :=
  issueBoundary .settle .w64 (fun x o =>
    match x.gang with
    | none => x.actFault 0x06 0 13
    | some g =>
      let r := x.g.opV o.a
      x.pass ((lanesOf x.act).foldl (fun s l => match g.bodies[64 * x.g.gnum + l]? with
        | some b => s.reportSpeed g.world b (x.g.rdV r l &&& 0x7FFFFFFF) (x.g.rdV (r + 1) l &&& 0x7FFFFFFF)
        | none => s) x.s)) o s

/-! ## PBAR (R353) -/

/-- PBAR (R353). -/
def execPbar (o : Ops) (s : State) : Out :=
  issueBoundary .pbar .w64 (fun x o =>
    match x.gang with
    | none => x.actFault 0x06 0 13
    | some g =>
      if x.s.drainHeld x.g.core (fun _ => true) then .wait x.s
      else
        let s := x.s.drainLines x.g.core fun _ => true
        let p := s.panelState x.g.team g
        let st := Status.atPanel p.1.toNat (opNum o.d) x.cu.lanes x.cu.pc
        let s := s.modGroup x.cu.gid fun q => { q with status := st, panelAt := some p.1 }
        .held ((s.setPanel x.g.team g (p.1, p.2 + 1)).settlePanel x.g.team g)) o s

/-! ## STEPC (R354) -/

/-- A WCLOSE of a world has been latched and will be performed (R414). -/
def State.closeLatched (s : State) (w : Nat) : Bool :=
  s.ready (20 + worldDie w) && match s.host.command with
    | some c => c.op == 0x08 && (c.args.getD 0 0).toNat == w
    | none => false

/-- STEPC (R354, R414). -/
def execStepc (o : Ops) (s : State) : Out :=
  issueBoundary .stepc .w64 (fun x o =>
    match x.worldIn o.a with
    | .error v => x.actFault 0x06 v 11
    | .ok w =>
      if x.s.drainHeld x.g.core (fun _ => true) then .wait x.s
      else
        let s := x.s.drainLines x.g.core fun _ => true
        let y := s.world w
        let code := if y.error || y.ending || s.closeLatched w then 2 else if y.closing then 1 else 0
        let v := y.step.toNat + code * 2 ^ 32 + y.flags.toNat * 2 ^ 48
        let s := if code = 0 then s.setWorld w { y with step := y.step + 1, closing := true } else s
        x.pass (s.modGroup x.cu.gid fun g => g.wrS (opNum o.d) (BitVec.ofNat 64 v))) o s

/-! ## ISLD, ISST and ISLQ (R355) -/

/-- The island that an S register names (R355). -/
def IC.islandIn (x : IC) (o : Opd) : Option (BitVec 32) := x.s.resolveIsland 4096 ((x.val o true 0).setWidth 32)

/-- The entry of a current value. -/
def State.islandAt (s : State) (v : BitVec 32) : Island := (s.die (valDie v)).island (valIndex v)

/-- The world of an island is in the middle of a close: what reads or writes it waits (R355). -/
def State.islandCloses (s : State) (v : BitVec 32) : Bool := s.closeRunning (1024 * valDie v + (s.islandAt v).world)

/-- What an S register names must wait: its island's world is in the middle of a close, or it names nothing now, and a close that
runs on its die may have ended its entry, or the forwarding to its successor (R344, R355). -/
def IC.islandWaits (x : IC) (o : Opd) : Bool :=
  match x.islandIn o with
  | some v => x.s.islandCloses v
  | none =>
    let v : BitVec 32 := (x.val o true 0).setWidth 32
    valIndex v != 0 && x.s.worlds.any fun kv => worldDie kv.1 == valDie v && kv.2.launch.isSome

/-- ISLD (R355). -/
def execIsld (o : Ops) (s : State) : Out :=
  issueWith .isld .w64 (fun x o _ g =>
    let d := opNum o.d
    if x.islandWaits o.a then x.stall
    else
      let r : Nat × W64 := match x.islandIn o.a with
        | some v =>
          let e := x.s.islandAt v
          (v.toNat + (e.nb % 2 ^ 20 + e.state.toNat * 2 ^ 20 + e.fray.toNat * 2 ^ 22) * 2 ^ 32, e.user)
        | none => (0, 0)
      x.retire ((g.wrS d (BitVec.ofNat 64 r.1)).wrS (d + 1) r.2) 0) o s

/-- ISST (R355). -/
def execIsst (o : Ops) (s : State) : Out :=
  issueWith .isst .w64 (fun x o _ g =>
    if x.islandWaits o.a then x.stall
    else match x.islandIn o.a with
      | none => x.retire g 0
      | some v =>
        let d := x.s.die (valDie v)
        let s := x.s.setDie (valDie v) (d.setIsland (valIndex v) { d.island (valIndex v) with user := x.val o.b true 0 })
        ({ x with s := s } : IC).retire g 0) o s

/-- What ISLQ reads of a body: its island value, and RANK, sleep and SEL (R355). -/
def State.bodyReport (s : State) (w b : Nat) : W64 :=
  let y := (s.world w).bodyAt b
  let v := if y.isl = 0 then 0 else y.isl.toNat + worldDie w * 2 ^ 24
  BitVec.ofNat 64 (v + (y.rank.toNat + (s.bodyAsleep w b).toNat * 2 ^ 30 + y.sel.toNat * 2 ^ 31) * 2 ^ 32)

/-- ISLQ (R355). -/
def execIslq (o : Ops) (s : State) : Out :=
  issueWith .islq .w64 (fun x o f g =>
    let die := x.g.poisonedLanes f.rv x.act
    let x : IC := { x with act := x.act &&& ~~~die }
    match x.worldIn o.c with
    | .error v => x.fault 0x06 v 11
    | .ok w => match x.badBody w [o.a] with
      | some b => x.fault 0x06 b 12
      | none =>
        if x.s.closeRunning w then x.stall
        else
          let e := x.dest o true false fun l => x.s.bodyReport w (x.val32 o.a l).toNat
          x.retire (g.commit x.act e) die) o s

end Sys2Proof.Machine
end

