-- ==== Sys2Proof/Machine/Packets.lean ====
section
/-!
DEFINITION. The queue front end (R281 to R292, R448): descriptors, its accesses, the vetting of queues, the checks of
packets, starting, retiring and aborting.
-/

namespace Sys2Proof.Machine

/-! ## Descriptors (R282, R283) -/

/-- Nothing has written a descriptor's STATE since reset (R281, R283). -/
def State.queueUnset (s : State) (q : Nat) : Bool := !smGet false s.stateSet q

/-- Nothing has written a descriptor's STATE, counts and settings since reset: it is no queue of any context. -/
def State.queueBlank (s : State) (q : Nat) : Bool := s.queueUnset q && s.queueWord q 1 == 0 && s.queueWord q 2 == 0

def State.queueCtx (s : State) (q : Nat) : Nat := nfld (s.queueWord q 2) 7 0

/-- STATE: until its byte is written it reads as its reset value 2 (R281, R283; DESIGN CHOICE, log entry 73: the descriptors stand in
device memory, which the model takes as 0 until it is written). -/
def State.queueState (s : State) (q : Nat) : Nat := if s.queueUnset q then 2 else nfld (s.queueWord q 2) 29 27

def State.queueAreason (s : State) (q : Nat) : Nat := nfld (s.queueWord q 2) 37 30
def State.queueRead (s : State) (q : Nat) : Nat := nfld (s.queueWord q 1) 63 32
def State.queueWrite (s : State) (q : Nat) : Nat := nfld (s.queueWord q 1) 31 0

/-- The slots of a queue's ring. DESIGN CHOICE (log entry 101): 2^QLOG2 as the field stands, for a QLOG2 outside R283's 4 to 20 too,
for which the spec gives no outcome. -/
def State.queueSize (s : State) (q : Nat) : Nat := 2 ^ nfld (s.queueWord q 0) 4 0

/-- The virtual address of a packet's slot (R283). -/
def State.slotVa (s : State) (q n : Nat) : Nat := nfld (s.queueWord q 0) 56 12 * 4096 + 64 * (n % s.queueSize q)

/-- A ring word of a context descriptor keeps R282's range and alignment. -/
def ringWordOk (w lo hi : Nat) : Bool := nfld w 11 5 == 0 && nfld w 63 57 == 0 && lo ≤ w % 32 && w % 32 ≤ hi

/-- A context's descriptor keeps the ranges and alignments of R282. -/
def State.descriptorOk (s : State) (c : Nat) : Bool :=
  let w := s.ctxWord c
  nfld (w 0) 63 40 == 0 && nfld (w 0) 11 0 == 0 && ringWordOk (w 1) 4 16 && ringWordOk (w 2) 6 16
    && ringWordOk (w 3) 6 20 && w 6 == 0 && w 7 == 0

/-- STATE and AREASON are written to the descriptor of a queue (R283, R290). -/
def State.putQueueState (s : State) (q st areason : Nat) : State :=
  let w := s.queueWord q 2
  let rest := w % 2 ^ 27 + nfld w 63 38 * 2 ^ 38
  s.physWrite (s.host.qdesc.toNat + 64 * q + 19) (leBytes 2 ((rest + st * 2 ^ 27 + areason * 2 ^ 30) >>> 24))

/-- A queue's descriptor cannot be written yet. -/
def State.descHeld (s : State) (q : Nat) : Bool := s.writeHeld (s.host.qdesc.toNat + 64 * q) 64

/-- The distance of a packet from another in ring order. -/
def packetsFrom (a b : Nat) : Nat := (b + 2 ^ 32 - a % 2 ^ 32) % 2 ^ 32

/-- A queue as the front end keeps it, brought up to date with its descriptor: with no packet started the next packet
is the one at READ (R283, R290). -/
def State.queueNow (s : State) (q : Nat) : QueueSt :=
  let x := s.queue q
  if x.started.isEmpty then { x with next := s.queueRead q } else x

/-- A packet of the queue waits between its started packets and WRITE (R292). -/
def QueueSt.more (x : QueueSt) : Bool := x.next != x.announced
def State.queueWork (s : State) (q : Nat) : Bool := s.queueState q == 0 && (s.queueNow q).more

/-! ## The front end's accesses (R448) -/

/-- An access of the front end: its place; refused by an answer; set to wait; or waiting already. -/
inductive FeReach where
  | ok (pa : Nat)
  | denied (s : State)
  | wait (s : State)
  | held

/-- The accesses that a packet makes: its slot at the start, the target of its operation, its completion signal, its
completion record, and the signals of a BARRIER. -/
def accessOf (n stage : Nat) : Nat := 16 * n + stage

/-- The front end waits for a walk of a page, or for the answer to a record of it (R448). -/
def State.feWaiting (s : State) (q va : Nat) : Bool :=
  ((s.ctx (s.queueCtx q)).records.any fun f =>
    f.kind == .frontEnd && f.va / 4096 == va / 4096 && f.waiters.contains (.frontEnd q))
    || s.walks.any fun w => w.ctx == s.queueCtx q && w.page == va / 4096 && w.misses.any fun m => m.who == .frontEnd q

/-- One access of the front end for a queue. DESIGN CHOICE (log entry 98): the front end's walks are those of die 0 (R13). -/
def State.feReach (s : State) (q access : Nat) (wr : Bool) (va : Nat) : FeReach :=
  let x := s.queue q
  let key := (va / 4096, access)
  if x.denied.contains key then .denied (s.setQueue q { x with denied := x.denied.erase key })
  else if x.waits.contains key && s.feWaiting q va then .held
  else match s.unitReach ⟨s.queueCtx q, .frontEnd, wr, 0x1FFFF, 0, .frontEnd q⟩ va with
    | .ok pa => .ok pa
    | .failed | .denied _ => .denied s
    | .wait s =>
      let y := s.queue q
      .wait (if y.waits.contains key then s else s.setQueue q { y with waits := y.waits ++ [key] })

/-! ## Aborts and the vetting of a queue (R289, R290, R414) -/

/-- A queue aborts (R290). -/
def State.abortQueue (s : State) (q areason : Nat) : State := s.putQueueState q 1 areason

/-- A queue aborts for a slot that cannot be reached: nothing is retired from the slot onward (R448). -/
def State.blockQueue (s : State) (q n : Nat) : State :=
  let s := s.abortQueue q 0x30
  let x := s.queue q
  s.setQueue q { x with blocked := x.blocked.filter (· != n) ++ [n] }

/-- A packet as it starts. -/
def Started.fresh (n : Nat) (img : BitVec 512) : Started := ⟨n, img, false, 0, none, false, false, none⟩

/-- Put a packet among the started ones. -/
def State.addStarted (s : State) (q : Nat) (p : Started) : State :=
  let x := s.queueNow q
  s.setQueue q { x with next := (p.num + 1) % 2 ^ 32
                        started := x.started ++ [p]
                        blocked := x.blocked.filter (· != p.num)
                        startableAt := none
                        aged := 0 }

/-- The 64 bytes of a packet at a place, read with an acquire (R283); none while a tenure there is recalled (R325). DESIGN CHOICE
(log entry 13): a packet with a poisoned byte, which is not read as a value (R392), is taken as all ones, whose TYPE is
unassigned, so that it is malformed with reason 0x10 (R289). -/
def State.packetAt (s : State) (pa : Nat) : State × Option (BitVec 512) :=
  let r := s.readThrough none pa 64
  (r.1, r.2.map fun bs => if bs.any (·.2) then -1 else BitVec.ofNat 512 (leNat (bs.map (·.1))))

/-- Change a started packet. -/
def State.modStarted (s : State) (q n : Nat) (f : Started → Started) : State :=
  let x := s.queue q
  s.setQueue q { x with started := x.started.map fun p => if p.num = n then f p else p }

/-- The GRIDID of a packet's grid, where it has one, complete or not (R284). -/
def State.packetGrid (s : State) (q n : Nat) : BitVec 32 :=
  match ((s.queue q).started.find? (·.num == n)).bind (·.done) with
  | some d => d.2.2
  | none => ((s.grids.find? fun kv => kv.2.queue == q && kv.2.packet == some n).map fun kv => kv.2.serial).getD 0

/-- A packet is malformed: it retires with STATUS 3, and its queue aborts then (R289). -/
def State.malformPacket (s : State) (q n reason : Nat) : State :=
  s.modStarted q n fun p => { p with done := some (3, reason, s.packetGrid q n), abort := some reason }

/-- An access with which the front end ends packets of a queue whose context could take no record (R289, R290): where its walk fails
the slot is out of reach. -/
def State.endingReach (s : State) (q : Nat) (wr : Bool) (va : Nat) : UnitReach :=
  s.unitAsk ⟨s.queueCtx q, .frontEnd, wr, 0x1FFFF, 0, .ending q⟩ va

/-- The first packet after READ of a queue whose context does not allow it retires with STATUS 3 (R289, R414); with no packet
there the queue aborts at once, and so does one whose slot has no translation. -/
def State.vetContext (s : State) (q : Nat) : Option State :=
  let x := s.queueNow q
  match x.started.find? (!·.retired) with
  | some p => if p.signalled || p.abort.isSome then none else some (s.malformPacket q p.num 0x14)
  | none =>
    if !x.more then some (s.abortQueue q 0x14)
    else match s.endingReach q false (s.slotVa q x.next) with
      | .wait t => some t
      | .failed | .denied _ => some (((s.blockQueue q x.next).abortQueue q 0x14).unitDone (s.queueCtx q) (.ending q))
      | .ok pa => match s.packetAt pa with
        | (t, none) => some t
        | (t, some img) =>
          some (((t.addStarted q (Started.fresh x.next img)).malformPacket q x.next 0x14).unitDone (s.queueCtx q) (.ending q))

/-- The WRITE that the front end holds lies within the ring (R283). -/
def State.indexOk (s : State) (q : Nat) : Bool := packetsFrom (s.queueRead q) (s.queueNow q).announced ≤ s.queueSize q

/-- A queue with STATE 0 is vetted: its context is enabled, its context descriptor keeps R282, and the WRITE that the front end
holds lies within its ring (R289, R414). A WRITE that the host has mended is read anew. A queue that is aborted already is
vetted for an index error alone. -/
def State.vetQueue (s : State) (q : Nat) : Option State :=
  let c := s.queueCtx q
  let x := s.queueNow q
  if s.descHeld q then none
  else if s.queueState q = 1 then (if s.indexOk q || s.queueAreason q = 0x13 then none else some (s.abortQueue q 0x13))
  else if s.queueState q ≠ 0 then none
  else if (s.ctx c).state = .stopping then none
  else if (s.ctx c).state ≠ .enabled || !s.descriptorOk c then s.vetContext q
  else if s.indexOk q then none
  else if packetsFrom (s.queueRead q) (s.queueWrite q) ≤ s.queueSize q then
    some (s.setQueue q { x with announced := s.queueWrite q })
  else some (s.abortQueue q 0x13)

/-! ## The checks of a packet (R284, R285, R289) -/

/-- Bits `hi` to `lo` of a packet. -/
def pfld (img : BitVec 512) (hi lo : Nat) : Nat := nfld img.toNat hi lo

def packetType (img : BitVec 512) : Nat := pfld img 7 0
def packetBar (img : BitVec 512) : Bool := img.getLsbD 8
def packetSigop (img : BitVec 512) : Nat := pfld img 11 10
def packetSignal (img : BitVec 512) : Nat := pfld img 127 64

/-- A packet's SIGOP and SIGNAL allow a write (R289). -/
def signalAllowed (img : BitVec 512) : Bool :=
  (packetSigop img == 1 || packetSigop img == 2) && packetSignal img != 0 && packetSignal img % 8 == 0

/-- The five signals of a BARRIER (R285). -/
def barrierSig (img : BitVec 512) (k : Nat) : Nat := pfld img (191 + 64 * k) (128 + 64 * k)

/-- The reason for which a packet is malformed: the header before the body (R289). -/
def malformed (img : BitVec 512) : Option Nat :=
  let t := packetType img
  if 4 < t || pfld img 63 12 != 0 then some 0x10
  else if packetSigop img = 3 then some 0x11
  else if packetSignal img % 8 != 0 || (packetSigop img != 0 && packetSignal img == 0) then some 0x12
  else if (t == 0 && pfld img 447 128 != 0) || (t == 3 && pfld img 447 258 != 0) then some 0x10
  else if t == 3 && pfld img 257 256 == 3 then some 0x11
  else if (t == 2 && (List.range 5).any fun k => barrierSig img k % 8 != 0)
      || (t == 3 && pfld img 191 128 % 8 != 0) then some 0x12
  else none

/-- The shape of a LAUNCH packet (R285). -/
def launchShape (img : BitVec 512) : Shape :=
  shapeOf (pfld img 184 128) (pfld img 295 288) (pfld img 327 296) (pfld img 359 328) (pfld img 369 360)
    (img.getLsbD 370) (pfld img 383 376) (pfld img 391 384)

/-- The body form of a LAUNCH is refused (R289). -/
def launchBadForm (img : BitVec 512) : Bool :=
  let roles := pfld img 295 288
  pfld img 191 185 != 0 || pfld img 375 371 != 0 || pfld img 447 396 != 0 || pfld img 184 128 % 32 != 0
    || pfld img 287 256 == 0 || unusedRole roles (pfld img 327 296) || unusedRole roles (pfld img 359 328)

/-- The die set of a LAUNCH: DIES with the queue's, or the one of the two that is not 0 (R286). -/
def State.launchDies (s : State) (q : Nat) (img : BitVec 512) : BitVec 4 :=
  let d := BitVec.ofNat 4 (pfld img 395 392)
  if d = 0 then s.queueDies q else d &&& s.queueDies q

/-- The number of groups that a LAUNCH creates (R26). -/
def launchGroups (img : BitVec 512) : Nat := pfld img 287 256 * Shape.total (launchShape img)

/-- The reason for which a LAUNCH is rejected, in the order of R289. -/
def State.launchRefusal (s : State) (q : Nat) (img : BitVec 512) : Option Nat :=
  if launchBadForm img then some 0x21
  else match s.shapeRefusal (launchShape img) (s.launchDies q img) with
    | some r => some r
    | none => if 2 ^ 31 - 1 < launchGroups img then some 0x20 else none

/-! ## Starting (R286, R291) -/

/-- The next packet of a queue may start, but for arbitration (R286): no packet whose slot was out of reach is left before it
(R448). -/
def State.startable (s : State) (q : Nat) : Bool :=
  let x := s.queueNow q
  let c := s.queueCtx q
  let open_ := x.started.filter fun p => !p.retired
  s.ready 5 && x.resident && s.queueState q == 0 && x.more && (s.ctx c).state == .enabled && s.descriptorOk c
    && s.indexOk q && !s.descHeld q && x.blocked.all (· == x.next) && open_.length < 16 && open_.all (fun p => !packetBar p.img && p.abort.isNone)
    && x.waits.all fun w => w.2 / 16 != x.next || 1 < w.2 % 16 || !s.feWaiting q (w.1 * 4096)

/-- What the front end knows of how long each resident queue has been able to start is brought up to the cycle (R291), and of
whether each has had work for the whole quantum until now (R292). -/
def State.noteStartable (s : State) : State :=
  let now := (s.die 0).cycle.toNat
  s.queues.foldl (fun s kv =>
    let s := if (s.queue kv.1).worked && !s.queueWork kv.1 then s.setQueue kv.1 { s.queue kv.1 with worked := false } else s
    let x := s.queue kv.1
    if s.startable kv.1 then
      if x.startableAt.isSome then s else s.setQueue kv.1 { x with startableAt := some now, aged := 0 }
    else if x.startableAt.isSome then s.setQueue kv.1 { x with startableAt := none, aged := 0 } else s) s

/-- Effective priority of a queue whose next packet may start (R291). -/
def State.queueRank (s : State) (q : Nat) : Nat := min 15 (s.queuePrio q + (s.queue q).aged)

/-- The first of two queues in arbitration (R291). -/
def State.firstQueue (s : State) (a b : Nat) : Nat :=
  let ta := ((s.queue a).startableAt).getD (s.die 0).cycle.toNat
  let tb := ((s.queue b).startableAt).getD (s.die 0).cycle.toNat
  if s.queueRank a < s.queueRank b then b
  else if s.queueRank b < s.queueRank a then a
  else if tb < ta then b else a

/-- The queue that wins arbitration (R291). -/
def State.arbiter (s : State) : Option Nat :=
  match (s.queues.map (·.1)).filter s.startable with
  | [] => none
  | q :: qs => some (qs.foldl s.firstQueue q)

/-- The outcome of reading a packet at its start: read, or an outcome that leaves it unstarted. -/
inductive StartRead where
  | go (s : State) (img : BitVec 512)
  | stop (s : Option State)

/-- The front end reads the packet that a queue starts next (R283, R448): the queue wins in a cycle of die 0 in which none has
started yet (R291). -/
def State.readStart (s : State) (q n : Nat) : StartRead :=
  if s.feGrant ≠ some q || s.arbiter ≠ some q || s.feAt = some (s.die 0).cycle.toNat || (s.queueNow q).next ≠ n then .stop none
  else match s.feReach q (accessOf n 0) false (s.slotVa q n) with
    | .held => .stop none
    | .wait s => .stop (some { s with feGrant := none })
    | .denied s => .stop (some (({ s with feGrant := none } : State).blockQueue q n))
    | .ok pa => match s.packetAt pa with
      | (s, none) => .stop (some { s with feGrant := none })
      | (s, some img) => .go s img

end Sys2Proof.Machine
end

