-- ==== Sys2Proof/Machine/Bobbins.lean ====
section
/-!
DEFINITION. The bobbins (R8, R419): the device-wide event queue, the order lock of a queue, and what firmware does with an event.
-/

namespace Sys2Proof.Machine

/-- The bobbins that run firmware and handle no event: three of each die that has power (R8, R412). -/
def State.idleBobbins (s : State) : List Nat :=
  if !s.ready 4 then [] else (List.range 12).filter fun b => (s.die (b / 3)).powered && (smFind s.bobbins b).isNone

/-- The queue in whose order an event stands; the end of a quantum stands in none (R419). -/
def DeviceEvent.queue? (e : DeviceEvent) : Option Nat :=
  match e with
  | .faultRecord _ _ q => some q
  | .sysCall _ _ q => some q
  | .waitingQueue q => some q
  | .quantumEnd => none

/-- Two events stand in one queue's order. -/
def DeviceEvent.ordered (e f : DeviceEvent) : Bool := e.queue?.isSome && e.queue? == f.queue?

/-- The events of the queue that a bobbin may take: no event of their queue came before them or is being handled (R419). -/
def State.takeable (s : State) : List (DeviceEvent × Option Nat) :=
  let busy := s.bobbins.map (·.2)
  (s.events.zipIdx.filter fun p =>
    !busy.any (·.ordered p.1.1) && !(s.events.take p.2).any (·.1.ordered p.1.1)).map (·.1)

/-- A bobbin other than the one that has failed on an event can take it. -/
def State.bobbinFor (s : State) (p : DeviceEvent × Option Nat) : Option Nat :=
  match s.idleBobbins.filter fun b => p.2 != some b with
  | [] => none
  | bs => bs[Config.freePick s.fresh % bs.length]?

/-- A bobbin takes an event from the queue: events of different queues have no order, and any idle bobbin may be the one (R419). -/
def bobbinTakes (s : State) : Out :=
  let es := s.takeable.filter fun p => (s.bobbinFor p).isSome
  match es[Config.freePick (s.fresh + 1) % es.length]? with
  | none => noEvent s
  | some p => match s.bobbinFor p with
    | none => noEvent s
    | some b => .next { s with events := s.events.erase p, bobbins := smPut s.bobbins b p.1, fresh := s.fresh + 2 }

/-- An event is handled: by the bobbin that has taken it, or by one that can take it at once; none where no bobbin can (R419). -/
def State.handle (s : State) (e : DeviceEvent) : Option State :=
  if s.bobbins.any (·.2 == e) then (if s.ready 4 then some { s with bobbins := s.bobbins.filter (·.2 != e) } else none)
  else match s.takeable.find? (·.1 == e) with
    | none => none
    | some p => if (s.bobbinFor p).isSome then some { s with events := s.events.erase p } else none

/-- A queue waits for firmware (R292): it is resident and no packet of it may start, while another has work and is not resident; or
it is one that has work and is not resident, and a place is vacant. -/
def State.queueWaits (s : State) (q : Nat) : Bool :=
  let residents := s.queues.filter (·.2.resident)
  if (s.queue q).resident then !s.startable q && s.queues.any fun kv => !kv.2.resident && s.queueWork kv.1
  else s.queueWork q && residents.length < 64

/-- An event is in the queue, or a bobbin handles it. -/
def State.announcedEvent (s : State) (e : DeviceEvent) : Bool := s.events.any (·.1 == e) || s.bobbins.any (·.2 == e)

/-- The first of some queues whose event of waiting can be handled, and the state without it. -/
def State.handleQueue (s : State) (qs : List Nat) : Option (Nat × State) :=
  qs.findSome? fun q => (s.handle (.waitingQueue q)).map fun u => (q, u)

/-- The events that a cycle of die 0 brings: queues that wait, and the end of a quantum (R292, R419). -/
def State.noteFirmware (s : State) : State :=
  let tell (s : State) (e : DeviceEvent) : State := if s.announcedEvent e then s else s.pushEvent e
  let s := ((s.queues.map (·.1)).filter s.queueWaits).foldl (fun s q => tell s (.waitingQueue q)) s
  if s.quantumAt + 2 ^ s.host.qexp ≤ (s.die 0).cycle.toNat then tell s .quantumEnd else s

/-- A bobbin has done with an event that ends with its own work. A fault record may be forwarded into host memory (R410; log entry
82: the spec names no record that firmware forwards, and no place), and a system call is told to the host; DESIGN CHOICE (log entry
91): no bobbin holds either until the answer comes. The event of a queue that no longer waits asks for nothing. -/
def bobbinDone (b : Nat) (s : State) : Out :=
  match smFind s.bobbins b with
  | none => noEvent s
  | some e =>
    let free : State := { s with bobbins := smDel s.bobbins b }
    match e with
    | .faultRecord c seq _ => match (s.ctx c).records.find? (·.seq == seq), Config.forwardTo c seq with
      | some f, some a => .next (free.hostPut a ((s.physRead (s.frqSlot c f.slot) 64).map (·.1)))
      | _, _ => .next free
    | .sysCall .. => .next free
    | .waitingQueue q => if s.queueWaits q then noEvent s else .next free
    | .quantumEnd => noEvent s

/-- The events of bobbins go back to the head of the queue, each to be given to another (R419). -/
def State.giveBack (s : State) (gone : Nat → Bool) : State :=
  { s with events := (s.bobbins.filter fun kv => gone kv.1).map (fun kv => (kv.2, some kv.1)) ++ s.events
           bobbins := s.bobbins.filter fun kv => !gone kv.1 }

end Sys2Proof.Machine
end

