-- ==== Sys2Proof/Machine/PacketOps.lean ====
section
/-!
DEFINITION. The queue front end's events (R283 to R292): doorbell, arbitration, ageing and quanta; the five packet types;
the reading of a BARRIER's signals; retirement.
-/

namespace Sys2Proof.Machine

/-! ## The doorbell, arbitration and quanta (R283, R291, R292) -/

/-- QUEUE_DOORBELL (R283): the front end reads WRITE, and vets the queue. -/
def execQueueDoorbell (q : Nat) (s : State) : Out :=
  if !s.ready 5 then .next s
  else
    let s := s.setQueue q { s.queueNow q with announced := s.queueWrite q }
    .next ((s.vetQueue q).getD s).noteStartable.noteFirmware

/-- QUEUE_ARBITRATION (R291): the front end picks the queue whose next packet starts, of those that can start now. -/
def execQueueArbitration (s : State) : Out :=
  let t := s.noteStartable
  match t.arbiter with
  | none => noEvent s
  | some q => if t.feGrant = some q || t.feAt = some (t.die 0).cycle.toNat then noEvent s else .next { t with feGrant := some q }

/-- QUEUE_AGEING (R291): a queue that has been able to start for 65,536 cycles more rises by one. -/
def execQueueAgeing (q : Nat) (s : State) : Out :=
  let x := s.queue q
  match x.startableAt with
  | none => noEvent s
  | some t =>
    if s.queuePrio q + x.aged < 15 && t + 65536 * (x.aged + 1) ≤ (s.die 0).cycle.toNat then
      .next (s.setQueue q { x with aged := x.aged + 1 })
    else noEvent s

/-- The rank of a queue with work among those that are to be resident (R292). -/
def State.residentRank (s : State) (q : Nat) : Nat := min 15 (s.queuePrio q + (s.queue q).quanta)

/-- Since when a queue has not been resident; for a resident one, now. -/
def State.absentSince (s : State) (q : Nat) : Nat :=
  if (s.queue q).resident then (s.die 0).cycle.toNat else (s.queue q).lastResident

/-- The queues with work in the order of their ranks (R292). -/
def State.byRank (s : State) : List Nat :=
  let qs := (s.queues.map (·.1)).filter s.queueWork
  sortBy (fun q => 15 - s.residentRank q) (sortBy s.absentSince qs)

/-- QUANTUM_END (R292, R419): a bobbin handles the end of a quantum. Whole quanta spent with work but not resident are counted, and
the 64 queues with work of highest rank become resident. DESIGN CHOICE (log entry 103): a queue that becomes resident has its whole
quanta counted from 0 again, which the spec does not say. -/
def execQuantumEnd (s : State) : Out :=
  let now := (s.die 0).cycle.toNat
  if now < s.quantumAt + 2 ^ s.host.qexp then noEvent s
  else match s.handle .quantumEnd with
  | none => noEvent s
  | some s =>
    let whole (q : Nat) (x : QueueSt) : Bool :=
      s.queueWork q && x.worked && !x.resident && decide (x.lastResident ≤ s.quantumAt)
    let counted : State := { s with queues := smMap (fun q x =>
      { x with worked := s.queueWork q
               quanta := if whole q x then min 15 (x.quanta + 1) else x.quanta }) s.queues }
    let chosen := counted.byRank.take 64
    let placed : State := { counted with queues := smMap (fun q x =>
      if chosen.contains q then { x with resident := true, quanta := 0 }
      else if x.resident then { x with resident := false, lastResident := now } else x) counted.queues }
    .next { placed with quantumAt := now, host := { placed.host with qexp := placed.host.qexpNext } }

/-- QUEUE_REPLACEMENT (R292, R419): a bobbin handles a waiting queue. The non-resident queue of highest rank takes a vacant place, or
that of a resident queue with no packet that may start. DESIGN CHOICE (log entry 102): of several such resident queues the one of
lowest number gives up its place, on which the spec is silent. -/
def execQueueReplacement (q : Nat) (s : State) : Out :=
  let best := s.byRank.find? fun n => !(s.queue n).resident
  let residents := (s.queues.map (·.1)).filter fun n => (s.queue n).resident
  let enter (s : State) : State := s.setQueue q { s.queue q with resident := true, quanta := 0 }
  if best ≠ some q then noEvent s
  else if residents.length < 64 then match s.handleQueue (s.byRank.filter fun n => !(s.queue n).resident) with
    | none => noEvent s
    | some p => .next (enter p.2).noteStartable
  else match s.handleQueue (residents.filter fun n => !s.startable n) with
    | none => noEvent s
    | some p =>
      let s := p.2
      let now := (s.die 0).cycle.toNat
      .next (enter (s.setQueue p.1 { s.queue p.1 with resident := false, lastResident := now })).noteStartable

/-! ## The start of a packet (R286) -/

/-- What becomes of a packet that is to act: it has acted, or it waits. -/
inductive PacketAct where
  | acted (s : State)
  | waits (s : State)

/-- A started packet acts by its TYPE (R286). -/
def State.actPacket (s : State) (q n : Nat) (img : BitVec 512) (act : BitVec 512 → State → PacketAct) : State :=
  match act img s with
  | .acted s => s.modStarted q n fun p => { p with acted := true }
  | .waits s => s

/-- The start of a packet: it is read, it is counted as started, and it acts by its TYPE unless its form is wrong (R286,
R289). One that has started and must wait acts later, whatever has become of its queue (R290). -/
def startPacket (q n : Nat) (mine : Nat → Bool) (act : BitVec 512 → State → PacketAct) (s : State) : Out :=
  match (s.queue q).started.find? (·.num == n) with
  | some p =>
    if p.acted || p.done.isSome || !s.ready 5 || !mine (packetType p.img) || (s.ctx (s.queueCtx q)).state ≠ .enabled then noEvent s
    else .next (s.actPacket q n p.img act)
  | none => match s.readStart q n with
    | .stop none => noEvent s
    | .stop (some s) => .next s
    | .go t img =>
      if !mine (packetType img) then noEvent s
      else
        let now := (t.die 0).cycle.toNat
        let started := ({ t with feGrant := none, feAt := some now } : State).addStarted q (Started.fresh n img)
        .next (match malformed img with
          | some r => started.malformPacket q n r
          | none => started.actPacket q n img act)

/-- NOPK (R286): nothing happens, and it retires at once. A packet of an unassigned TYPE is malformed. -/
def execNopk (q n : Nat) (s : State) : Out :=
  startPacket q n (fun t => t == 0 || 4 < t) (fun _ s => .acted (s.packetDone q n 1 0 0)) s

/-- LAUNCH (R26, R28, R286, R289): a grid with its counter, and its teams queued for placement; or a rejection. -/
def execLaunch (q n : Nat) (s : State) : Out :=
  startPacket q n (· == 1) (fun img s =>
    match s.launchRefusal q img with
    | some r => .acted (s.packetDone q n 2 r 0)
    | none =>
      let grid := s.nextGridKey
      let dies := s.launchDies q img
      let s := s.newGrid (s.queueCtx q) (launchGroups img) dies q (some n) none
      let arg := BitVec.ofNat 64 (pfld img 255 192)
      .acted ((List.range (pfld img 287 256)).foldl (fun s _ => s.queueTeam grid (launchShape img) arg dies none) s)) s

/-- The new value of a SIGNAL packet's target (R286). -/
def signalValue (img : BitVec 512) (old : Nat) : Nat :=
  let v := pfld img 255 192
  match pfld img 257 256 with
  | 0 => v
  | 1 => (old + v) % 2 ^ 64
  | _ => (old + (2 ^ 64 - v)) % 2 ^ 64

/-- One single-copy atomic operation on a 64-bit word at its home (R219), after the tenures in its way have been recalled
(R325). A word whose old value is poisoned stays so, where the new value is computed from it. -/
def State.writeSignal (s : State) (pa : Nat) (value : Nat → Nat) (fromOld : Bool) : State :=
  let s := s.intrude none (run pa 8) true
  let old := s.memNat pa 8
  s.memWrite none ((wbytes pa (leBytes 8 (value old.1))).map fun w => { w with pois := fromOld && old.2 })

/-- SIGNAL (R286, R448). -/
def execSignal (q n : Nat) (s : State) : Out :=
  startPacket q n (· == 3) (fun img s =>
    match s.feReach q (accessOf n 1) true (pfld img 191 128) with
    | .held => .waits s
    | .wait s => .waits s
    | .denied s => .acted (s.malformPacket q n 0x30)
    | .ok pa =>
      if s.writeHeld pa 8 then .waits (s.writeRecall pa 8)
      else .acted ((s.writeSignal pa (signalValue img) (pfld img 257 256 != 0)).packetDone q n 1 0 0)) s

/-- The command of a COPY packet (R304, R285). -/
def State.packetCopy (s : State) (q n : Nat) (img : BitVec 512) : CopyCmd :=
  { id := s.nextId, ctx := s.queueCtx q, kind := .plain, layout := img.extractLsb' 128 64,
    coord := (List.range 4).map fun k => img.extractLsb' (192 + 32 * k) 32, ctl := img.extractLsb' 320 64,
    seed := img.extractLsb' 384 64, gid := none, grid := 0, gnum := 0, teamId := 0, core := 0, batch := 0,
    packet := some (q, n) }

/-- An in-service copy engine on a die of a queue's DIES with room in its queue (R286, R296). -/
def State.copyServes (s : State) (q engine : Nat) : Bool :=
  let d := engine / 64
  (s.queueDies q).getLsbD d && d < 4 && s.ready (8 + d) && (s.die d).powered && !(s.copyEngine engine).retired
    && (s.copyEngine engine).queue.length < 64

/-- COPY (R286): the command goes to a copy engine that the front end chooses; it waits while that engine has no room. -/
def execCopy (q n engine : Nat) (s : State) : Out :=
  startPacket q n (· == 4) (fun img s =>
    if s.copyServes q engine then .acted (s.enqueue engine (s.queueCtx q) [s.packetCopy q n img]) else .waits s) s

/-! ## BARRIER (R288) -/

/-- One signal of a round is read (R288, R448): its packet may latch it, abort the queue, or wait. -/
def State.readSignal (s : State) (q n k : Nat) : State :=
  match (s.queue q).started.find? (·.num == n) with
  | none => s
  | some p =>
    let va := barrierSig p.img k
    if p.done.isSome || va = 0 || p.latched.getLsbD k then s
    else match s.feReach q (accessOf n (4 + k)) false va with
      | .held => s
      | .wait s => s
      | .denied s => s.malformPacket q n 0x30
      | .ok pa => match s.readThrough none pa 8 with
        | (s, none) => s
        | (s, some bs) =>
          let v := leNat (bs.map (·.1))
          if bs.any (·.2) then s
          else if v = 0 then s.modStarted q n fun p => { p with latched := p.latched ||| (1#5 <<< k) }
          else if 2 ^ 63 ≤ v then
            if s.descHeld q then s
            else (s.packetDone q n 4 0x40 0).abortQueue q 0x40
          else s

/-- A round of reads, SIG0 to SIG4 in order; the packet is satisfied when every used signal is latched (R288). -/
def State.readRound (s : State) (q n : Nat) : State :=
  let s := (List.range 5).foldl (fun s k => s.readSignal q n k) s
  match (s.queue q).started.find? (·.num == n) with
  | none => s
  | some p =>
    if (List.range 5).all fun k => barrierSig p.img k == 0 || p.latched.getLsbD k then s.packetDone q n 1 0 0 else s

/-- BARRIER (R286, R288): its signals are read at the start. -/
def execBarrier (q n : Nat) (s : State) : Out :=
  startPacket q n (· == 2) (fun _ s => .acted (s.readRound q n)) s

/-- BARRIER_SIGNAL_READ (R288): a started BARRIER reads its signals again. -/
def execBarrierSignalRead (q n : Nat) (s : State) : Out :=
  match (s.queue q).started.find? (·.num == n) with
  | some p =>
    if packetType p.img == 2 && p.done.isNone && s.ready 5 && (s.ctx (s.queueCtx q)).state == .enabled then .next (s.readRound q n)
    else noEvent s
  | none => noEvent s

/-! ## Retirement (R287, R290, R448) -/

/-- READ passes the packets that have retired in order (R286). -/
def State.advanceRead (s : State) (q : Nat) : State :=
  let x := s.queue q
  let n := (x.started.takeWhile (·.retired)).length
  if n = 0 then s
  else
    let r := (s.queueRead q + n) % 2 ^ 32
    let s := s.setQueue q { x with started := x.started.drop n }
    s.physWrite (s.host.qdesc.toNat + 64 * q + 12) (leBytes 4 r)

/-- The outcome of one part of a retirement: gone on, ended for now, or nothing done. -/
inductive RetirePart where
  | go (s : State)
  | stop (s : State)
  | none

/-- A retiring packet's signal (R287, R289). -/
def State.retireSignal (s : State) (q : Nat) (p : Started) (status : Nat) : RetirePart :=
  let done (s : State) : State := s.modStarted q p.num fun p => { p with signalled := true }
  if p.signalled then .go s
  else if !signalAllowed p.img then .go (done s)
  else match s.feReach q (accessOf p.num 2) true (packetSignal p.img) with
    | .held => .none
    | .wait s => .stop s
    | .denied s => .stop (done (s.modStarted q p.num fun p =>
        { p with done := p.done.map fun d => (3, 0x30, d.2.2), abort := some 0x30 }))
    | .ok pa =>
      if s.writeHeld pa 8 then .stop (s.writeRecall pa 8)
      else
        let sub := packetSigop p.img == 1
        let v (old : Nat) : Nat := if status != 1 then 2 ^ 64 - 1 else if sub then (old + (2 ^ 64 - 1)) % 2 ^ 64 else 0
        .go (done (s.writeSignal pa v (status == 1 && sub)))

/-- A packet whose slot cannot be reached (R448): nothing is retired from it onward, and one that has not started is left to start
as usual. -/
def State.loseSlot (s : State) (q : Nat) (p : Started) : State :=
  let s := s.blockQueue q p.num
  if p.acted || p.done.all fun d => d.1 != 4 then s
  else
    let x := s.queue q
    s.setQueue q { x with next := p.num, started := x.started.filter (·.num != p.num) }

/-- A retiring packet's completion record, READ, and the abort that follows a malformed packet (R287, R289, R448). -/
def State.retireRecord (s : State) (q : Nat) (p : Started) (d : Nat × Nat × BitVec 32) : Option State :=
  let va := s.slotVa q p.num + 56
  match s.feReach q (accessOf p.num 3) true va with
  | .held => none
  | .wait s => some s
  | .denied s => some (s.loseSlot q p)
  | .ok pa =>
    if s.writeHeld pa 8 then some (s.writeRecall pa 8)
    else
      let s := s.memWrite none (wbytes pa (leBytes 8 (d.1 + d.2.1 * 256 + d.2.2.toNat * 2 ^ 32)))
      let s := (s.modStarted q p.num fun p => { p with retired := true }).unitDone (s.queueCtx q) (.frontEnd q)
      let x := s.queue q
      let s := (s.setQueue q { x with blocked := x.blocked.filter (· != p.num)
                                      waits := x.waits.filter (·.2 / 16 != p.num) }).advanceRead q
      some (match p.abort with
        | some r => s.abortQueue q r
        | none => s)

/-- A finished packet retires (R287): its signal, which is not written where its slot cannot be reached (R448), and its completion
record. -/
def State.retirePacket (s : State) (q : Nat) (p : Started) : Option State :=
  match p.done with
  | none => none
  | some d =>
    if p.signalled then s.retireRecord q p d
    else match s.feReach q (accessOf p.num 3) true (s.slotVa q p.num + 56) with
      | .held => none
      | .wait s => some s
      | .denied s => some (s.loseSlot q p)
      | .ok _ => match s.retireSignal q p d.1 with
        | .none => none
        | .stop s => some s
        | .go t => some ((t.retireRecord q p d).getD t)

/-- Retirement is not blocked at a packet: it lies before every slot out of reach, or the host has written STATE 0 (R448). -/
def State.unblocked (s : State) (q n : Nat) : Bool :=
  s.queueState q == 0
    || (s.queue q).blocked.all fun b => packetsFrom (s.queueRead q) n < packetsFrom (s.queueRead q) b

/-- A packet of an aborted queue retires unstarted: the one after the started ones, after those that it aborted before have
retired (R290), and not where WRITE gives no slots (R289). -/
def State.abortedNext (s : State) (q n : Nat) : Bool :=
  let x := s.queueNow q
  s.queueState q == 1 && s.queueAreason q != 0x13 && s.indexOk q && x.more && x.next == n && s.unblocked q n
    && x.started.all fun p => p.retired || p.done.all fun d => p.acted && d.1 != 4

/-- PACKET_RETIRE (R287, R290): a finished packet retires; the next packet of an aborted queue is taken up to retire
with STATUS 4; a queue is vetted. While its context stops, its packets wait for the stop (R290). -/
def execPacketRetire (q n : Nat) (s : State) : Out :=
  if !s.ready 5 || (s.ctx (s.queueCtx q)).state = .stopping || s.descHeld q then noEvent s
  else match (s.queue q).started.find? (·.num == n) with
  | some p =>
    if p.retired || !s.unblocked q n then noEvent s
    else match (s.setQueue q (s.queueNow q)).retirePacket q p with
      | none => noEvent s
      | some s => .next s
  | none =>
    if s.abortedNext q n then
      match s.feReach q (accessOf n 0) false (s.slotVa q n) with
      | .held => noEvent s
      | .wait s => .next s
      | .denied s => .next (s.blockQueue q n)
      | .ok pa => match s.packetAt pa with
        | (s, none) => .next s
        | (s, some img) => .next (s.addStarted q { Started.fresh n img with done := some (4, 0x40, 0) })
    else if (s.queueNow q).next = n then .next ((s.vetQueue q).getD s)
    else noEvent s

end Sys2Proof.Machine
end

