-- ==== Sys2Proof/Machine/Place.lean ====
section
/-!
DEFINITION. The scheduler's placement (R30, R31), pre-emption (R34), eviction (R35) and resumption (R36), with the local
store and the typed buffers that they carry along (R201, R202, R204).
-/

namespace Sys2Proof.Machine

/-! ## The resources of a core (R30) -/

/-- The teams placed on a core. -/
def State.teamsOn (s : State) (core : Nat) (w : Without) : List (Nat × Team) :=
  s.teams.filter fun kv => !w.teams.contains kv.1 && (match kv.2.place with
    | .placed c _ => c == core
    | _ => false)

/-- The lowest start, a multiple of `align`, of a range of `size` below `cap` that meets none of the used ranges. -/
def freeRange (used : List (Nat × Nat)) (size align cap : Nat) : Option Nat :=
  let starts := 0 :: used.map fun r => (r.1 + r.2 + align - 1) / align * align
  let ok (b : Nat) : Bool := b + size ≤ cap && used.all fun r => r.2 == 0 || b + size ≤ r.1 || r.1 + r.2 ≤ b
  (sortBy id starts).find? ok

/-- Register ranges for groups of some allotments, in order (R30). -/
def freeRegs (used : List (Nat × Nat)) : List Nat → Option (List Nat)
  | [] => some []
  | a :: rest => match freeRange used a 8 2048 with
    | none => none
    | some b => (freeRegs (used ++ [(b, a)]) rest).map (b :: ·)

/-- The free slots of a core, lowest first (R30). -/
def freeSlots (used : List Nat) : List Nat := (List.range 32).filter fun n => !used.contains n

/-- Where a team's or a group's needs fit on a core: register starts, slots, and the scratch start in bytes. -/
structure Fit where
  regs : List Nat
  slots : List Nat
  base : Nat
  deriving DecidableEq, Repr

/-- What is to be placed: allotments, scratch in KiB (`none` where the core holds it already), barriers, use of the
typed buffers, context. -/
structure Need where
  allots : List Nat
  scratch : Option Nat
  barriers : Nat
  tbuf : Bool
  ctx : Nat
  deriving DecidableEq, Repr

/-- A team's group uses the typed buffers. -/
def State.buffered (s : State) (g : Group) : Bool := ((s.team? g.team).map fun t => t.shape.tbuf).getD false

/-- The named barriers of the teams on a core. -/
def State.barriersOn (s : State) (core : Nat) (w : Without) : Nat :=
  ((s.teamsOn core w).map fun kv => kv.2.shape.barriers).foldl (· + ·) 0

/-- The scratch ranges of a core in KiB (R202). -/
def State.scratchOn (s : State) (core : Nat) (w : Without) : List (Nat × Nat) :=
  (s.teamsOn core w).map fun kv => match kv.2.place with
    | .placed _ base => (base / 1024, kv.2.shape.scratch)
    | _ => (0, 0)

/-- A core gives a need its registers, slots, scratch, barriers and buffers (R30, R204, R403). -/
def State.fitOn (s : State) (core : Nat) (n : Need) (w : Without) : Option Fit :=
  let rs := s.residents core w
  let slots := freeSlots (rs.map fun kv => kv.2.slot)
  let foreign := rs.any fun kv => kv.2.ctx != n.ctx && s.buffered kv.2
  if slots.length < n.allots.length || 128 < s.barriersOn core w + n.barriers then none
  else if n.tbuf && (foreign || (s.matrixEng (engineOfCore core)).retired) then none
  else
    let base := match n.scratch with
      | none => some 0
      | some k => freeRange (s.scratchOn core w) k 1 768
    match base, freeRegs (rs.map fun kv => (kv.2.regBase, kv.2.allot)) n.allots with
    | some b, some regs => some ⟨regs, slots.take n.allots.length, 1024 * b⟩
    | _, _ => none

/-- The need of a team that is placed whole. -/
def Team.need (t : Team) : Need :=
  { allots := (List.range (Shape.total t.shape)).map t.shape.allotOf, scratch := some t.shape.scratch,
    barriers := t.shape.barriers, tbuf := t.shape.tbuf, ctx := t.ctx }

/-! ## The typed buffers (R204) -/

/-- The three typed buffers of a core. -/
def CoreSt.buffers (c : CoreSt) : Bank × Bank × Bank := (c.wbuf, c.abuf, c.cbuf)
def CoreSt.setBuffers (c : CoreSt) (b : Bank × Bank × Bank) : CoreSt :=
  { c with wbuf := b.1, abuf := b.2.1, cbuf := b.2.2 }
def noBuffers : Bank × Bank × Bank := (Bank.empty, Bank.empty, Bank.empty)

/-- Groups of a context that use the buffers, of a core whose place they keep: resident there, or evicted alone from there. -/
def State.bufferUsers (s : State) (ctx core : Nat) : List (Nat × Group) :=
  s.groups.filter fun kv => kv.2.ctx == ctx && kv.2.core == core && s.buffered kv.2 && (!kv.2.evicted
    || (s.team? kv.2.team).any fun t => match t.place with
      | .placed c _ => c == core
      | _ => false)

/-- Copies of another context's buffer users of a core are not done: they may still write the buffers, and no user of this
context comes there before they are. DESIGN CHOICE (log entry 72). -/
def State.bufferBusy (s : State) (ctx core : Nat) : Bool :=
  s.groups.any fun kv => kv.2.core == core && kv.2.ctx != ctx && kv.2.copiesLeft != 0 && s.buffered kv.2

/-- The buffers of a context's users that have been evicted from a core are saved before another context's users take them
(R204). -/
def State.keepBuffers (s : State) (ctx core : Nat) : State :=
  if (s.bufferUsers ctx core).isEmpty then s
  else
    let x := s.ctx ctx
    s.setCtx ctx { x with savedBufs := smSet noBuffers x.savedBufs core (s.core core).buffers }

/-- A core is made ready for a buffer user of a context (R204): its lines on their way to the buffers are acknowledged; buffers
that another context used last are saved for its evicted users there and zeroed, and what was saved for this context comes
back: `own`, saved with a team that was evicted whole, or what its users evicted from here left. -/
def State.takeBuffers (s : State) (ctx core : Nat) (own : Option (Bank × Bank × Bank)) : State :=
  let s := s.drainLines core fun o => o.space != .g && o.space != .l
  let c := s.core core
  let own := if (s.bufferUsers ctx core).isEmpty then own else none
  if c.bufCtx = some ctx then s.setCore core (match own with
    | some b => c.setBuffers b
    | none => c)
  else
    let s := match c.bufCtx with
      | some old => s.keepBuffers old core
      | none => s
    let x := s.ctx ctx
    (s.setCtx ctx { x with savedBufs := smSet noBuffers x.savedBufs core noBuffers }).setCore core
      { c.setBuffers (own.getD (smGet noBuffers x.savedBufs core)) with bufCtx := some ctx }

/-- What is saved of the buffers with a team that has left its core whole: the buffers as they stand there, or as they were
saved when another context took them (R204). -/
def State.teamBuffers (s : State) (t : Team) (core : Nat) : Option (Bank × Bank × Bank) :=
  if !t.shape.tbuf then none
  else if (s.core core).bufCtx = some t.ctx then some (s.core core).buffers
  else some (smGet noBuffers (s.ctx t.ctx).savedBufs core)

/-- What was saved of a core's buffers for users evicted from there is forgotten when none is left (R204). -/
def State.tidyBuffers (s : State) (ctx core : Nat) : State :=
  if (s.bufferUsers ctx core).isEmpty then
    s.setCtx ctx { s.ctx ctx with savedBufs := smSet noBuffers (s.ctx ctx).savedBufs core noBuffers }
  else s

/-! ## The choice of a core (R30, R31, R36) -/

/-- A core may take new work of a team: in service, in its die set, and closed to no other (R30, R31). -/
def State.opensTo (s : State) (core key : Nat) (t : Team) : Bool :=
  s.inService core && t.dies.getLsbD (dieOfCore core)
    && ((s.core core).closedTo.isNone || (s.core core).closedTo == some key)

/-- Evicted work of equal or higher priority waits for a core (R36). -/
def State.reserved (s : State) (core prio : Nat) : Bool :=
  s.groups.any fun kv => kv.2.evicted && kv.2.core == core && kv.2.status != .halted
    && prio ≤ s.queuePrio kv.2.queue && (s.team? kv.2.team).any fun t => match t.place with
      | .placed c _ => c == core
      | _ => false

/-- Of two cores the one with fewer free registers, or of equals the lower number (R30). -/
def State.tighter (s : State) (a b : Nat) : Nat :=
  if s.allotted a Without.nobody < s.allotted b Without.nobody then b else a

/-- The best of some cores. -/
def State.tightest (s : State) (cs : List Nat) : Option Nat :=
  match cs with
  | [] => none
  | c :: rest => some (rest.foldl s.tighter c)

/-- The HOME core of a gang's island, while HOMEV is set (R347). -/
def State.homeCore (s : State) (t : Team) : Option Nat :=
  match t.gang with
  | some g =>
    let e := s.islandAt g.island
    if g.island = 0 || !e.homeV then none else some e.home
  | none => none

/-- The core on which a waiting team is placed, if any: its island's HOME where that has room, and otherwise the tightest
fit (R30, R347). -/
def State.coreFor (s : State) (key : Nat) (t : Team) : Option Nat :=
  let prio := s.queuePrio t.queue
  let fits (c : Nat) : Bool := s.opensTo c key t && !s.reserved c prio && (s.fitOn c t.need Without.nobody).isSome
    && !(t.shape.tbuf && s.bufferBusy t.ctx c)
  match s.homeCore t with
  | some c => if fits c then some c else s.tightest ((List.range Config.coreCount).filter fits)
  | none => s.tightest ((List.range Config.coreCount).filter fits)

/-! ## Placement (R30, R38, R114, R116, R202) -/

/-- A range of a core's scratch takes given contents, after SW has been raised to hold it (R201, R202). -/
def State.layScratch (s : State) (core base kib : Nat) (from_ : Bank) : State :=
  let c := s.core core
  let c := c.carve (if kib = 0 then c.sw else max c.sw ((base + 1024 * kib + 65535) / 65536))
  let put {α : Type} (old new : SMap α) : SMap α :=
    old.filter (fun kv => kv.1 < base) ++ new.map (fun kv => (base + kv.1, kv.2))
      ++ old.filter (fun kv => base + 1024 * kib ≤ kv.1)
  s.setCore core { c with scratch := ⟨put c.scratch.bytes from_.bytes, put c.scratch.poison from_.poison⟩, l1 := [] }

/-- The lanes that start as running in group `n` of a team (R19, R29). -/
def Team.lanesOf (t : Team) (n : Nat) : Mask :=
  match t.gang with
  | some g => firstLanes (min 64 (g.bodies.length - 64 * n))
  | none => firstLanes t.shape.lanes

/-- A group of a team as it is placed. -/
def Team.startGroup (t : Team) (key n core slot reg order : Nat) : Group :=
  { Group.start t.ctx t.grid key t.teamId n (Shape.roleOf t.shape.groups n) t.queue (t.gang.map (·.world)) core slot
      (t.shape.allotOf n) order t.arg (t.lanesOf n) (t.shape.entry.setWidth 57) with
    regBase := reg
    acquire := t.gang.isSome }

/-- The first gang of an island marks its die (R347): HOME and HOMEV. -/
def State.markHome (s : State) (t : Team) (core : Nat) : State :=
  match t.gang with
  | some g =>
    if g.island = 0 || g.panel ≠ 0 then s
    else
      let d := s.die (worldDie g.world)
      let i := valIndex g.island
      s.setDie (worldDie g.world) (d.setIsland i { d.island i with home := core, homeV := true })
  | none => s

/-- A team takes its place on a core: its groups, scratch and buffers (R30). -/
def State.placeTeam (s : State) (key core : Nat) : State :=
  match s.team? key with
  | none => s
  | some t => match s.fitOn core t.need Without.nobody with
    | none => s
    | some f =>
      let s := if t.shape.tbuf then s.takeBuffers t.ctx core none else s
      let s := s.layScratch core f.base t.shape.scratch Bank.empty
      let s := (f.regs.zip f.slots).zipIdx.foldl (fun s p =>
        let s := s.setGroup s.nextGid (t.startGroup key p.2 core p.1.2 p.1.1 s.nextId)
        { s with nextGid := s.nextGid + 1, nextId := s.nextId + 1 }) s
      let placed := { t with place := .placed core f.base, failed := 0, limitAt := none, closedCore := none,
                             preempt := none, tried := true }
      ((s.setTeam key placed).reopen key).markHome t core

/-! ## Pre-emption (R34) -/

/-- A region that has been discarded 15 times keeps its group from eviction until it fixes (R53). -/
def Group.mustStay (g : Group) : Bool :=
  g.noEvict || (g.reentry == 15 && (match g.status with
    | .running => g.inRegion
    | .bkpt _ => true
    | .faultWait => true
    | .parked _ => true
    | _ => false))

/-- A group may be evicted for a team of a priority: it is of a lower-priority queue and not draining (R34, R53). -/
def State.evictable (s : State) (prio : Nat) (g : Group) : Bool :=
  s.queuePrio g.queue < prio && g.status != .draining && g.status != .halted && !g.mustStay && !g.evicted && !g.evicting

/-- The groups that may be evicted, in order: lowest priority first, then the most recently placed (R34). -/
def State.victims (s : State) (core prio : Nat) : List (Nat × Group) :=
  let vs := (s.residents core Without.nobody).filter fun kv => s.evictable prio kv.2
  let top := vs.foldl (fun n kv => max n kv.2.placedAt) 0
  sortBy (fun (kv : Nat × Group) => s.queuePrio kv.2.queue * (top + 1) + (top - kv.2.placedAt)) vs

/-- The same with whole teams in view: a team on the core holds its scratch and barriers while its groups are evicted alone, and
leaves in the order that its groups have (R34, R36). -/
def State.teamVictims (s : State) (core prio : Nat) : List (Nat × Group) :=
  let keys := (s.teamsOn core Without.nobody).map (·.1)
  let gone := s.groups.filter fun kv => kv.2.evicted && keys.contains kv.2.team && s.queuePrio kv.2.queue < prio && kv.2.status != .halted
  let vs := s.victims core prio ++ gone
  let top := vs.foldl (fun n kv => max n kv.2.placedAt) 0
  sortBy (fun (kv : Nat × Group) => s.queuePrio kv.2.queue * (top + 1) + (top - kv.2.placedAt)) vs

/-- The groups of a team that are resident. -/
def State.teamResidents (s : State) (key : Nat) : List Nat :=
  (s.groups.filter fun kv => kv.2.team == key && !kv.2.evicted).map (·.1)

/-- A team may leave whole: each of its resident groups may be evicted, and its copies are done. -/
def State.mayLeave (s : State) (prio key : Nat) : Bool :=
  (s.groups.filter fun kv => kv.2.team == key).all fun kv => kv.2.evicted || s.evictable prio kv.2

/-- Take victims off in order until the need fits (R34). -/
def State.evictUntil (s : State) (core : Nat) (n : Need) (whole : Bool) (prio : Nat) : List (Nat × Group) → Without →
    Option Without
  | vs, w =>
    match vs with
    | [] => if (s.fitOn core n w).isSome then some w else none
    | v :: rest =>
      if (s.fitOn core n w).isSome then some w
      else if whole then
        if s.mayLeave prio v.2.team && !w.teams.contains v.2.team then
          s.evictUntil core n whole prio rest
            ⟨(w.groups ++ s.teamResidents v.2.team).eraseDups, w.teams ++ [v.2.team]⟩
        else s.evictUntil core n whole prio rest w
      else if w.groups.contains v.1 then s.evictUntil core n whole prio rest w
      else s.evictUntil core n whole prio rest { w with groups := w.groups ++ [v.1] }

/-- The evictions that let a team onto a core: whole teams when scratch or barriers are short, and first every buffer
user of another context when the team uses the buffers (R34, R204). -/
def State.evictionPlan (s : State) (core : Nat) (t : Team) : Option Without :=
  let n := t.need
  let prio := s.queuePrio t.queue
  let vs := s.victims core prio
  let users := if t.shape.tbuf then vs.filter fun kv => kv.2.ctx != t.ctx && s.buffered kv.2 else []
  let first : Without := ⟨users.map (·.1), []⟩
  let whole := (freeRange (s.scratchOn core Without.nobody) t.shape.scratch 1 768).isNone
    || 128 < s.barriersOn core Without.nobody + t.shape.barriers
  s.evictUntil core n whole prio (if whole then s.teamVictims core prio else vs) first

/-- The core on which the fewest evictions let a waiting team in (R34). -/
def State.preemptCore (s : State) (key : Nat) (t : Team) : Option (Nat × Without) :=
  let plans := (List.range Config.coreCount).filterMap fun c =>
    if s.opensTo c key t && !s.reserved c (s.queuePrio t.queue) then (s.evictionPlan c t).map fun w => (c, w) else none
  match plans with
  | [] => none
  | p :: rest => some (rest.foldl (fun a b => if b.2.groups.length < a.2.groups.length then b else a) p)

/-- A group is chosen for eviction (R35): it stops issue, and its region's ungranted requests are withdrawn (R280). At the
re-entry limit it is not chosen (R53). -/
def State.chooseVictim (s : State) (gid : Nat) : State :=
  match s.group? gid with
  | none => s
  | some g =>
    if g.mustStay then s
    else
      let s : State := { s with issue := s.issue.filter (·.gid != gid) }
      let s := if g.status = .running || g.status matches .bkpt _ then s.withdraw gid else s
      s.modGroup gid fun g => { g with evicting := true }

/-- A team leaves its core whole: every resident group is chosen. -/
def State.leaveWhole (s : State) (key : Nat) : State :=
  match s.team? key with
  | none => s
  | some t => (s.teamResidents key).foldl State.chooseVictim (s.setTeam key { t with leaving := true })

/-- The next victim of a pre-empting team is chosen, or the plan's whole teams (R34). -/
def State.pursue (s : State) (key : Nat) (core : Nat) (w : Without) : State :=
  match s.team? key with
  | none => s
  | some t =>
    let s := s.setTeam key { t with preempt := some core }
    match w.teams, w.groups with
    | k :: _, _ => s.leaveWhole k
    | [], g :: _ => s.chooseVictim g
    | [], [] => s

/-- A waiting team pre-empts where it can (R34). -/
def State.preempt (s : State) (key : Nat) : State :=
  match s.team? key with
  | none => s
  | some t =>
    if t.preempt.isSome then s
    else match s.preemptCore key t with
      | some (core, w) => s.pursue key core w
      | none => s

/-! ## A try (R31) -/

/-- One try for a team: it is placed, or its count rises, a core is closed at the limit, and it pre-empts where it
can (R30, R31, R34). -/
def State.tryTeam (s : State) (key : Nat) : State :=
  match s.team? key with
  | none => s
  | some t =>
    if !t.waits then s
    else match s.coreFor key t with
      | some c => (s.placeTeam key c).closeWaiting
      | none =>
        let n := t.failed + 1
        let reached := s.queuePatience t.queue ≤ n && t.limitAt.isNone
        let t' : Team := { t with failed := n, tried := true, limitAt := if reached then some s.nextId else t.limitAt }
        let s := ({ s with nextId := s.nextId + 1 } : State).setTeam key t'
        s.closeWaiting.preempt key

/-- The order of tries (R30): teams with a closed core, then higher priority, then the first queued. -/
def State.tryOrder (s : State) (ts : List (Nat × Team)) : List Nat :=
  let rank (kv : Nat × Team) : Nat := (if s.hasClosed kv.1 kv.2 then 0 else 16) + (15 - s.queuePrio kv.2.queue)
  (sortBy rank (sortBy (fun (kv : Nat × Team) => kv.2.queuedAt) ts)).map (·.1)

/-- The waiting teams of contexts that run. -/
def State.waitingTeams (s : State) : List (Nat × Team) :=
  s.teams.filter fun kv => kv.2.waits && (s.ctx kv.2.ctx).state == .enabled

/-- Tries for some waiting teams, in order. -/
def State.tryAll (s : State) (ts : List (Nat × Team)) : State := (s.tryOrder ts).foldl State.tryTeam s

/-! ## Eviction (R35) -/

/-- The tile operations of a group that hold its eviction back: granted ones of its open region, and all of closed
ones (R35, R280). -/
def State.tileWork (s : State) (gid : Nat) : Bool :=
  let e := s.matrixEng (match s.group? gid with
    | some g => engineOfCore g.core
    | none => 0)
  e.pending.any (·.gid == gid)

/-- A group chosen for eviction may be saved (R35). -/
def State.evictReady (s : State) (gid : Nat) (g : Group) : Bool :=
  g.evicting && !g.evicted && s.coreUp g.core && g.dying == 0 && g.cpyvRegs.isEmpty && g.cntLd == 0 && !g.closing && !s.tileWork gid
    && !(g.status matches .discarding _) && g.status != .halted && g.status != .draining

/-- The group's region is discarded for the eviction, unless it has none open; a group that waits for the answers to its fault
records is discarded once more (R436), and a waiting request for tenure is withdrawn (R35, R53, R323). `none` where the
re-entry limit excludes the group from eviction. -/
def State.evictDiscard (s : State) (gid : Nat) (g : Group) : Option State :=
  if g.mustStay then none
  else match g.status with
  | .running => some (if g.inRegion then s.discard gid 3 else s)
  | .bkpt _ => some (s.discard gid 3)
  | .faultWait => some (s.discard gid 3)
  | .parked _ => some (s.discardParked gid 3)
  | .atTenure _ =>
    let s := { s with tenureReqs := s.tenureReqs.filter (·.gid != gid) }
    some (s.setGroup gid { g with status := .running })
  | _ => some s

/-- The whole team has gone, and its copies have written the last of its scratch: its scratch, barriers and buffers are saved,
and its place is free (R34, R202, R204). The core's lines on their way there are acknowledged first. DESIGN CHOICE (log entry 72): what is
saved is kept with the team, for the spec gives the save area (SAVE of R282) no layout. -/
def State.finishLeave (s : State) (key : Nat) : State :=
  match s.team? key with
  | none => s
  | some t =>
    let gs := s.groups.filter fun kv => kv.2.team == key
    if !t.leaving || !(gs.all fun kv => kv.2.evicted && kv.2.copiesLeft == 0) then s
    else match t.place with
      | .placed core base => if !s.coreUp core then s else
        let top := base + 1024 * t.shape.scratch
        let s := s.drainLines core fun o => o.space != .g && (o.space != .l || (base ≤ 128 * o.line && 128 * o.line < top))
        let c := s.core core
        let cut {α : Type} (m : SMap α) : SMap α :=
          (m.filter fun kv => base ≤ kv.1 && kv.1 < top).map fun kv => (kv.1 - base, kv.2)
        (s.setTeam key { t with
          place := .evicted core ⟨cut c.scratch.bytes, cut c.scratch.poison⟩
          bufs := s.teamBuffers t core
          leaving := false }).tidyBuffers t.ctx core
      | _ => s

/-- An eviction on a core is under way. -/
def State.leavingOn (s : State) (core : Nat) : Bool :=
  (s.residents core Without.nobody).any (fun kv => kv.2.evicting) || (s.teamsOn core Without.nobody).any (fun kv => kv.2.leaving)

/-- Teams that pre-empt on a core, in order, go on there (R34): the first is placed, or the next victim is chosen for it. One
that evicted work has precedence over pre-empts no more (R36). -/
def State.carryTeams (s : State) (core : Nat) : List Nat → State
  | [] => s
  | key :: rest => match s.team? key with
    | none => s.carryTeams core rest
    | some t =>
      if s.reserved core (s.queuePrio t.queue) then (s.setTeam key { t with preempt := none }).carryTeams core rest
      else if s.opensTo core key t && (s.fitOn core t.need Without.nobody).isSome then
        if t.shape.tbuf && s.bufferBusy t.ctx core then s else (s.placeTeam key core).closeWaiting.carryTeams core rest
      else if s.leavingOn core then s
      else match s.evictionPlan core t with
        | some w => s.pursue key core w
        | none => (s.setTeam key { t with preempt := none }).carryTeams core rest

/-- After an eviction on a core the teams that pre-empt there go on, in the order of R30. -/
def State.carryOn (s : State) (core : Nat) : State :=
  s.carryTeams core (s.tryOrder (s.waitingTeams.filter fun kv => kv.2.preempt == some core))

/-! ## Resumption (R36) -/

/-- The groups of a resumed group's quads are made splits again, from their PCs (R36). -/
def Group.rebuilt (g : Group) : Group :=
  ({ g with ages := [] } : Group).relabel ((List.range 16).filter fun q => (g.quad q).run != 0)

/-- A group takes registers and a slot on a core again. -/
def State.seatGroup (s : State) (gid core reg slot : Nat) : State :=
  let s := s.modGroup gid fun g =>
    { g with evicted := false
             core := core
             regBase := reg
             slot := slot
             quads := g.rebuilt.quads
             ages := [] }
  s.emptyL1 core

/-- The tenures of a group that has come to another core and slot (R322, R36). -/
def State.moveTenures (s : State) (gid core slot : Nat) : State :=
  { s with tenures := s.tenures.map fun (t : Tenure) => if t.gid = gid then { t with core := core, slot := slot } else t }

/-- A team of higher priority pre-empts on a core, and evicted work waits for it (R34). -/
def State.preempted (s : State) (core prio : Nat) : Bool :=
  s.waitingTeams.any fun kv => kv.2.preempt == some core && prio < s.queuePrio kv.2.queue

/-- A group evicted alone resumes on its team's core (R36). -/
def State.resumeAlone (s : State) (gid : Nat) (g : Group) (t : Team) (core : Nat) : Option State :=
  let n : Need := { allots := [g.allot], scratch := none, barriers := 0, tbuf := t.shape.tbuf, ctx := g.ctx }
  if t.leaving || !s.inService core || s.preempted core (s.queuePrio g.queue) || (t.shape.tbuf && s.bufferBusy g.ctx core) then none
  else (s.fitOn core n Without.nobody).map fun f =>
    let s := if t.shape.tbuf then s.takeBuffers g.ctx core none else s
    s.seatGroup gid core (f.regs.headD 0) (f.slots.headD 0)

/-- A team evicted whole may come to a core: with buffer use, no other team of its context uses the core's buffers, and those that
were saved with it can come back (R36, R204). -/
def State.resumesOn (s : State) (t : Team) (n : Need) (core : Nat) : Bool :=
  s.inService core && t.dies.getLsbD (dieOfCore core) && (s.core core).closedTo.isNone
    && !s.preempted core (s.queuePrio t.queue) && (s.fitOn core n Without.nobody).isSome
    && (!t.shape.tbuf || ((s.bufferUsers t.ctx core).isEmpty && !s.bufferBusy t.ctx core))

/-- A team evicted whole resumes on a core of its die set (R36). DESIGN CHOICE (log entry 93): of the cores that it may resume on it
takes the one with the fewest free registers, and of equals the lowest number, as a placement does (R30), and none that is closed
for another team (R31); R36 says any in-service core. The lines on their way from its old core are performed first: its groups may
have read them there (R218, R230), those of other teams too. -/
def State.resumeWhole (s : State) (key : Nat) (t : Team) (old : Nat) (scratch : Bank) : Option State :=
  let gs := s.groups.filter fun kv => kv.2.team == key
  let n : Need := { allots := gs.map fun kv => kv.2.allot, scratch := some t.shape.scratch,
                    barriers := t.shape.barriers, tbuf := t.shape.tbuf, ctx := t.ctx }
  let seen (o : OutLine) : Bool := o.space == .g || gs.any fun kv => kv.1 == o.gid
  if s.drainHeld old seen then none
  else match s.tightest ((List.range Config.coreCount).filter (s.resumesOn t n)) with
    | none => none
    | some core => (s.fitOn core n Without.nobody).map fun f =>
      let s := s.drainLines old seen
      let s := if t.shape.tbuf then s.takeBuffers t.ctx core t.bufs else s
      let s := s.layScratch core f.base t.shape.scratch scratch
      let s := s.setTeam key { t with place := .placed core f.base, bufs := none }
      (gs.zip (f.regs.zip f.slots)).foldl (fun s p => (s.seatGroup p.1.1 core p.2.1 p.2.2).moveTenures p.1.1 core p.2.2) s

end Sys2Proof.Machine
end

