-- ==== Sys2Proof/Machine/SchedOps.lean ====
section
/-!
DEFINITION. The scheduler's events (R30 to R36): tries of placement, eviction, resumption, the end of a drained group; and
the issue cycle with the issue of boundaries (R24, R32).
-/

namespace Sys2Proof.Machine

/-! ## Placement, eviction, resumption (R31, R34 to R36) -/

/-- TEAM_PLACEMENT_TRY (R31): every 4,096 cycles each waiting team is tried, and a team just queued is tried at once.
DESIGN CHOICE (log entry 66): the cycles are those of die 0, for the spec names no die for these tries (R13). -/
def execTeamPlacementTry (s : State) : Out :=
  let now := (s.die 0).cycle.toNat
  let ts := s.waitingTeams
  if s.tryAt + 4096 ≤ now then .next { s.tryAll ts with tryAt := now }
  else
    let fresh := ts.filter fun kv => !kv.2.tried
    if fresh.isEmpty then noEvent s else .next (s.tryAll fresh)

/-- A team that has been evicted whole and has no in-service core left in its die set stops its context, by the loss of a core
(R402). -/
def State.stranded (s : State) (key core : Nat) : State :=
  match s.team? key with
  | none => s
  | some t => match t.place with
    | .evicted .. =>
      let serves (c : Nat) : Bool := s.inService c && t.dies.getLsbD (dieOfCore c)
        && !(t.shape.tbuf && (s.matrixEng (engineOfCore c)).retired)
      let x := s.ctx t.ctx
      if x.state != .enabled || x.stopFaults.any (·.kind == 0x10) || (List.range Config.coreCount).any serves then s
      else s.raiseManaged t.ctx 0x10 core (s.core core).inc.toNat (dieOfCore core)
    | _ => s

/-- The same of every team, when a core has been retired or has failed (R402, R406). -/
def State.strandAll (s : State) (core : Nat) : State := (s.teams.map (·.1)).foldl (fun s k => s.stranded k core) s

/-- What follows when a group has gone: its team has gone with it, or the pre-empting team goes on (R34, R402). -/
def State.afterLeave (s : State) (g : Group) : State :=
  ((s.finishLeave g.team).stranded g.team g.core).carryOn g.core

/-- GROUP_EVICTION (R34, R35): a chosen group that may be saved is evicted; at the re-entry limit it is not, and
another victim is chosen (R53). Of a team that leaves whole, a group that may be evicted again is chosen once more, and the
team has gone when the copies of its groups have ended. -/
def execGroupEviction (gid : Nat) (s : State) : Out :=
  match s.group? gid with
  | none => noEvent s
  | some g =>
    let leaves := (s.team? g.team).any fun t => t.leaving
    if leaves && g.evicted then .next (s.afterLeave g)
    else if leaves && !g.evicting && g.status != .draining && g.status != .halted && !g.mustStay then .next (s.chooseVictim gid)
    else if !s.evictReady gid g then noEvent s
    else match s.evictDiscard gid g with
      | none =>
        let s := s.setGroup gid { g with evicting := false, noEvict := true }
        .next (s.carryOn g.core)
      | some s =>
        .next ((s.modGroup gid fun g => { g with evicting := false, evicted := true, snap := none }).afterLeave g)

/-- GROUP_RESUME (R36): a group evicted alone resumes on its team's core, or a team evicted whole on a core of its die
set. -/
def execGroupResume (gid : Nat) (s : State) : Out :=
  match s.group? gid with
  | none => noEvent s
  | some g =>
    if !g.evicted || g.status = .halted || (s.ctx g.ctx).state ≠ .enabled then noEvent s
    else match s.team? g.team with
      | none => noEvent s
      | some t =>
        let r := match t.place with
          | .placed core _ => s.resumeAlone gid g t core
          | .evicted old scratch => s.resumeWhole g.team t old scratch
          | _ => none
        match r with
        | some s => .next s
        | none => noEvent s

/-- GROUP_DRAINED (R33): a drained group is freed, unless its core has lost power or its context's stop line is raised (R14, R398);
its tenures and reservations end, its team and grid are counted
down, and teams that wait for a core of its die are tried (R26, R31, R323). The last group of a gang waits for its
write-back (R347). -/
def execGroupDrained (gid : Nat) (s : State) : Out :=
  match s.group? gid with
  | none => noEvent s
  | some g => match s.team? g.team with
    | none => noEvent s
    | some t =>
      let unwritten := match t.gang with
        | some q => t.groupsLeft == 1 && !q.written
        | none => false
      let mine (x : Tenure) : Bool := x.gid == gid
      if !g.drainedNow || unwritten || s.tenuresHeld mine || !s.coreUp g.core || (s.ctx g.ctx).state == .stopping then noEvent s
      else
        let s := (s.endTenures mine).dropEarly g.ctx gid
        let s : State := { s with reservations := s.reservations.filter (·.gid != gid)
                                  groups := smDel s.groups gid }
        let t' := { t with groupsLeft := t.groupsLeft - 1, place := if t.groupsLeft ≤ 1 then .gone else t.place }
        let s := (s.setTeam g.team t').finishLeave g.team
        let s := match t.gang with
          | some q => (s.leavePanel g.team q g).settlePanel g.team q
          | none => s
        let s := s.gridDown g.grid 1
        let die := dieOfCore g.core
        .next ((s.tryAll (s.waitingTeams.filter fun kv => kv.2.dies.getLsbD die)).carryOn g.core)

/-! ## The issue cycle (R32) -/

/-- An instruction would raise CNT.LD (R373): the loads, the atomics and what else is of load kind. -/
def raisesLd (i : Instr) : Bool :=
  match i with
  | .ld _ | .ldImm _ | .ldl _ | .ldlImm _ | .ldb _ | .ldbImm _ | .ldx _ | .ldu _ | .lduImm _ | .lr _ | .atom _ | .sc _
  | .skld _ | .gredTeam _ => true
  | .kld o | .kldImm o => !mbit o.m 56
  | _ => false

/-- An instruction would raise CNT.TL (R373), and whether it posts a request (R260). -/
def raisesTl (i : Instr) : Option Bool :=
  match i with
  | .mma _ | .mmax _ | .mms _ | .drain _ | .drainImm _ => some true
  | .czero _ => some false
  | _ => none

/-- A counter or the reservation table has room for an instruction, and the engine that it posts to is not retired (R260, R374, R403). -/
def State.countersAllow (s : State) (g : Group) (i : Instr) : Bool :=
  !(raisesLd i && 63 ≤ g.cntLd) && (match raisesTl i with
    | some posts => g.cntTl < 63 && !(posts && (16 ≤ s.requestsOf g.core || (s.matrixEng g.engine).retired))
    | none => true)

/-- The registers that an instruction needs are not held by the scoreboard, a WAITC's counters are low enough, and the
counters that the instruction would raise have room (R32, R117, R260, R374, R383). -/
def State.operandsReady (s : State) (g : Group) (i : Instr) : Bool :=
  match i with
  | .waitc o => g.countersMet o
  | .pairWord h k => !g.busy ((g.foot h.op .w64 h.o).both (g.foot k.op .w64 k.o))
  | _ => match i.word? with
    | some (op, len, o) => !g.busy (g.foot op len o) && s.countersAllow g i
    | none => true

/-- A fused boundary that has closed its region still waits at it: a system call for a slot of the ring (R185), a copy for room
in its engine's queue (R310), a barrier for stores that are held up (R226). One whose region is being closed waits for room in CNT.ST (R375). It is not ready until the wait is over (R32). -/
def State.turnedAway (s : State) (g : Group) (i : Instr) (cu : Issuing) : Bool :=
  let active (op : Op) (o : Ops) : Mask :=
    let act := cu.lanes &&& g.live &&& g.guardMask o.g
    act &&& ~~~g.poisonedLanes (g.foot op .w64 o).rv act
  let crowded (op : Op) (o : Ops) : Bool :=
    let n := (lanesOf (active op o)).length
    n != 0 && (64 < (s.copyEngine (engineOfCore g.core)).queue.length + n || (255 < g.pend + n && 16 ≤ g.batches.length))
  (g.closing && 63 ≤ g.cntSt) || g.closed && (match i with
    | .trap o => mfld o.m 59 48 < 0x800 && active .trap o != 0 && (s.sysSlot g.ctx).isNone
    | .cpy o => crowded .cpy o
    | .cpyg o => crowded .cpyg o
    | .cpyv o => crowded .cpyv o
    | .bar _ => g.lateOn 3
    | _ => false)

/-- What a split could do in a cycle: issue, or, without an issue slot, go and look for its next instruction or come to wait
at a boundary (R24, R112). -/
inductive Cue where
  | ready
  | seek
  | idle
  deriving DecidableEq, Repr

/-- A walk is being made for a split's fetch (R112, R213). -/
def State.fetchWalks (s : State) (gid : Nat) (pc : BitVec 57) : Bool :=
  s.walks.any fun w => w.misses.any fun m => m.who == .fetch gid pc

/-- A split in a cycle (R32). -/
def State.cue (s : State) (gid split : Nat) (g : Group) : Cue :=
  match s.fetch ⟨gid, split⟩ with
  | .nothing => .idle
  | .miss _ pc => if s.fetchWalks gid pc then .idle else .seek
  | .poisoned _ => .ready
  | .got i cu =>
    if split ≠ 16 && isBoundary i then .seek
    else if s.operandsReady g i && !s.turnedAway g i cu then .ready else .idle

/-- The first quad and the number of quads of a split, or of the fused boundary (R20, R24). -/
def Group.quadSpan (g : Group) (split : Nat) : Nat × Nat :=
  let qs := if split = 16 then
      (match g.fused? with
      | some (_, m) => quadsOf m
      | none => [])
    else g.splitQuads split
  (qs.headD 0, qs.length)

/-- A candidate of an issue cycle: group, split, age, slot, first quad, quads, and the PC of a JOIN, at which every split of the
group that stands there issues with it (R23). -/
structure Cand where
  gid : Nat
  split : Nat
  age : Nat
  slot : Nat
  first : Nat
  quads : Nat
  fuse : Option (BitVec 57)
  deriving DecidableEq, Repr

/-- The PC of the JOIN that a split stands at. -/
def State.joinAt (s : State) (gid split : Nat) : Option (BitVec 57) :=
  match s.fetch ⟨gid, split⟩ with
  | .got (.join _) cu => some cu.pc
  | _ => none

/-- A split that is ready, as a candidate: a JOIN takes the slots of all the quads that fuse there (R23, R32). -/
def State.candidate (s : State) (gid : Nat) (g : Group) (split age : Nat) : Cand :=
  let sp := g.quadSpan split
  match s.joinAt gid split with
  | none => ⟨gid, split, age, g.slot, sp.1, sp.2, none⟩
  | some pc => ⟨gid, split, age, g.slot, sp.1, ((g.splits.filter fun n => g.splitPc n == pc).map fun n => (g.quadSpan n).2).sum, some pc⟩

/-- Ages of a group's splits brought up to a cycle: a split that is ready keeps its age or takes this cycle's, and one
that is not has none; of those that it lets go first, a split that is ready no more no longer holds it (R32, R188). -/
def Group.ageSplits (g : Group) (now : Nat) (ready : List Nat) (others : List (Nat × Nat)) : Group :=
  let old (n : Nat) : Option SplitAge := g.ages.find? (·.split == n)
  let held (n : Nat) : List (Nat × Nat) := ((old n).map fun a => a.yields.filter others.contains).getD []
  let entry (n : Nat) : Option SplitAge :=
    let y := held n
    if !y.isEmpty then some ⟨n, none, y⟩
    else if ready.contains n then some ⟨n, some (((old n).bind (·.age)).getD now), []⟩
    else none
  { g with ages := ((g.splits ++ [16]).filterMap entry), snap := none, moved := [] }

/-- A group's splits may issue: it is resident on its core, not chosen for eviction, not of an unstaged gang, its
context is not stopped, and no lane of it has still to die (R35, R122, R346, R396). -/
def State.mayIssue (s : State) (g : Group) : Bool :=
  g.status == .running && !g.evicted && !g.evicting && g.dying == 0 && (s.die (dieOfCore g.core)).powered
    && (match (s.team? g.team).bind (·.gang) with
      | some q => q.staged
      | none => true)

/-- The splits of a group that are ready, and those that must seek their instruction or reach a boundary. -/
def State.cues (s : State) (gid : Nat) (g : Group) : List Nat × List Nat :=
  if !s.mayIssue g then ([], [])
  else
    let all := (g.splits ++ [16]).map fun n => (n, s.cue gid n g)
    ((all.filter fun p => p.2 == .ready).map (·.1), (all.filter fun p => p.2 == .seek).map (·.1))

/-- Take candidates in order while four may issue and their quads fill 16 slots (R32). Of the splits that fuse at a JOIN the
first stands for all. -/
def pickCands (done : List (Nat × Option (BitVec 57))) : Nat → Nat → List Cand → List Cand
  | _, _, [] => []
  | 0, _, _ => []
  | n + 1, room, c :: rest =>
    if c.fuse.isSome && done.contains (c.gid, c.fuse) then pickCands done (n + 1) room rest
    else if c.quads ≤ room then c :: pickCands ((c.gid, c.fuse) :: done) n (room - c.quads) rest
    else pickCands done (n + 1) room rest

/-- A gang's group that issues for the first time acquires at device scope: its core's L1 is emptied (R438). -/
def State.firstIssue (s : State) (gid : Nat) : State :=
  match s.group? gid with
  | none => s
  | some g => if g.acquire then (s.setGroup gid { g with acquire := false }).emptyL1 g.core else s

/-- The order of issue: age, then group slot, then first quad (R32). -/
def Cand.key (c : Cand) : Nat := (c.age * 32 + c.slot) * 16 + c.first

/-- One core in a cycle: the splits that issue, in order, and then those that seek their instruction or reach a boundary. A
split that issues is not ready any more (R32), and neither is one that has been picked and finds that it has to wait: it holds
back none that has yielded to it (R188). -/
def State.issueCore (s : State) (now core : Nat) : State :=
  let gs := s.residents core Without.nobody
  let cs := gs.map fun kv => (kv.1, s.cues kv.1 kv.2)
  let ready : List (Nat × Nat) := cs.flatMap fun p => p.2.1.map fun n => (p.1, n)
  let aged (gid : Nat) (g : Group) : Group := match cs.find? (·.1 == gid) with
    | some p => g.ageSplits now p.2.1 ready
    | none => g
  let s : State := { s with groups := smMap aged s.groups }
  let cands := (s.residents core Without.nobody).flatMap fun kv =>
    kv.2.ages.filterMap fun a => a.age.map fun t => s.candidate kv.1 kv.2 a.split t
  let picked := pickCands [] 4 16 (sortBy Cand.key cands)
  let twice (gid : Nat) : Bool := 2 ≤ (picked.filter (·.gid == gid)).length
  let shot (gid : Nat) (g : Group) : Group := if twice gid then { g with snap := some (g.s, g.x) } else g
  let s : State := { s with groups := smMap shot s.groups }
  let gone (gid : Nat) (a : SplitAge) : Bool := picked.any fun c => c.gid == gid && c.split == a.split
  let young (gid : Nat) (g : Group) : Group := { g with ages := g.ages.filter (!gone gid ·) }
  let s : State := { s with groups := smMap young s.groups }
  let s := (picked.map (·.gid)).foldl State.firstIssue s
  let s := picked.foldl (fun s c => s.releaseYields core c.gid c.split) s
  let s : State := { s with inCycle := s.inCycle ++ picked.map fun (c : Cand) => (core, c.gid, c.quads) }
  let seeks : List IssueRef := cs.flatMap fun p => p.2.2.map fun n => ⟨p.1, n⟩
  { s with issue := s.issue ++ picked.map (fun c => ⟨c.gid, c.split⟩) ++ seeks }

/-- ISSUE_CYCLE (R12, R32): a die's counter advances, and each of its cores picks the splits that issue. What a failed walk has
told a unit counts for the cycle. -/
def execIssueCycle (die : Nat) (s : State) : Out :=
  let d := s.die die
  if 4 ≤ die || !d.powered || !s.issue.isEmpty then noEvent s
  else
    let s := s.setDie die { d with cycle := d.cycle + 1 }
    let s : State := { s with inCycle := s.inCycle.filter (fun p => dieOfCore p.1 != die),
                              unitTrs := s.unitTrs.filter (·.entry.isSome) }
    let cores := ((s.groups.filter fun kv => !kv.2.evicted && dieOfCore kv.2.core == die).map fun kv => kv.2.core).eraseDups
    let s := (sortBy id cores).foldl (fun s c => s.issueCore (d.cycle + 1).toNat c) s
    .next (if die = 0 then s.noteStartable.noteFirmware else s)

/-- The fused boundary of a group may issue in the current cycle of its core: fewer than four splits have issued in it, its quads fit
into the slots that are left, and none of the group's own splits is among them (R32). -/
def State.boundaryRoom (s : State) (gid : Nat) (g : Group) : Bool :=
  let mine := s.inCycle.filter (·.1 == g.core)
  s.mayIssue g && g.fused?.isSome && s.issue.isEmpty && mine.length < 4 && (mine.map (·.2.2)).sum + (g.quadSpan 16).2 ≤ 16
    && !mine.any (·.2.1 == gid)

/-- A group's fused boundary issues. -/
def State.issueFused (s : State) (gid : Nat) (g : Group) : State :=
  { (s.setGroup gid { g with snap := none }).firstIssue gid with
    issue := [⟨gid, 16⟩], inCycle := s.inCycle ++ [(g.core, gid, (g.quadSpan 16).2)] }

/-- BOUNDARY_ISSUE (R24, R42): every live lane of a group waits at a boundary, and the lanes at the lowest PC issue it;
a group without live lanes, or one to be evicted, whose last region's lines are not all handed on hands on more (R33, R35,
R375). Lanes whose death has waited for the splits of a cycle die before anything else issues (R122). -/
def execBoundaryIssue (gid : Nat) (s : State) : Out :=
  match s.group? gid with
  | none => noEvent s
  | some g =>
    if (g.status = .draining || (g.closing && g.evicting)) && !g.buf.isEmpty && g.cntSt < 63 then .next (s.close gid)
    else if s.boundaryRoom gid g then .next (s.issueFused gid g)
    else if g.dying != 0 && s.issue.isEmpty then .next (s.settleDying gid)
    else noEvent s

/-- SYSCALL_RING_SLOT_FREE: a TRAP that waits for a slot issues again (R185), as a ready boundary does in the current cycle (R32). -/
def execSyscallRingSlotFree (gid : Nat) (s : State) : Out :=
  match s.group? gid with
  | none => noEvent s
  | some g => if (s.sysSlot g.ctx).isSome && s.boundaryRoom gid g then .next (s.issueFused gid g) else noEvent s

end Sys2Proof.Machine
end

