-- ==== Sys2Proof/Machine/Stops.lean ====
section
/-!
DEFINITION. What the stop line writes (R394 to R399, R408): black-box records, stop records, the halting of each kind of
engine, and the abort of the queues (R290).
-/

namespace Sys2Proof.Machine

/-! ## The black-box record (R408) -/

/-- Append an event record to a die's ring of 4,096. -/
def State.logBox (s : State) (die event kind ctx : Nat) (agent addr : W64) (data : BitVec 256) : State :=
  let d := s.die die
  let seq := d.boxSeq + 1
  let r : BlackBox := ⟨seq, event, kind, ctx, d.cycle, agent, addr, data⟩
  let box := d.box ++ [r]
  s.setDie die { d with box := box.drop (box.length - 4096), boxSeq := seq }

/-- The 64 bytes of a black-box record. -/
def BlackBox.bytes (b : BlackBox) : List Byte :=
  leBytes 8 (b.seq.toNat + b.event * 2 ^ 32 + b.kind * 2 ^ 40 + b.ctx * 2 ^ 48) ++ leBytes 8 b.cycle.toNat
    ++ leBytes 8 b.agent.toNat ++ leBytes 8 b.addr.toNat ++ leBytes 32 b.data.toNat

/-- DATA of a black-box record: four 64-bit words, the first lowest (R408). DESIGN CHOICE (log entry 88): a count comes before its
threshold. -/
def boxData (ws : List Nat) : BitVec 256 :=
  BitVec.ofNat 256 ((ws.take 4).zipIdx.foldl (fun n w => n + w.1 * 2 ^ (64 * w.2)) 0)

/-- The number for no context. -/
def noCtx : Nat := 0xFF

/-! ## Stop records (R398, R399) -/

/-- The words of a stop record of a number. -/
def StopRec.words (r : StopRec) (seq : Nat) : List Nat :=
  [r.kind % 256 + r.source % 16 * 2 ^ 8 + r.cause.toNat * 2 ^ 12 + r.second.toNat * 2 ^ 13 + seq % 2 ^ 32 * 2 ^ 32,
   r.agent % 1024 + r.slot % 32 * 2 ^ 10 + r.groupId % 16 * 2 ^ 15 + r.reentry % 16 * 2 ^ 19 + r.depth % 8 * 2 ^ 23
     + r.gridId.toNat * 2 ^ 32,
   r.lanes.toNat, r.pc.toNat, r.d0.toNat, r.d1.toNat, r.teamId.toNat + r.cyc.toNat * 2 ^ 32, r.die % 4]

/-- The first 32 bytes of a stop record, for the black box. -/
def StopRec.half (r : StopRec) (seq : Nat) : BitVec 256 := boxData (r.words seq)

/-- Write eight words as record `n` of a context's stop-record area (R398). -/
def State.putStopWords (s : State) (ctx n : Nat) (ws : List Nat) : State :=
  s.physWrite (s.ctxWord ctx 5 + 64 * (n - 1)) (ws.flatMap (leBytes 8))

/-- The words of a continuation record: a frame's 192 bits in bits 255:64 (R399, R123). -/
def Frame.words (f : Frame) (r : StopRec) (seq : Nat) : List Nat :=
  [9 + 7 * 2 ^ 8 + seq % 2 ^ 32 * 2 ^ 32, f.lanes.toNat, f.rpc.toNat, f.code.toNat, 0, 0, r.cyc.toNat * 2 ^ 32, r.die % 4]

/-- A stop record reaches the management core: a trap-stack overflow or a re-entry escalation is recorded in the black box (R187,
R53), and the record is written with the next number, with a trap-stack overflow's four continuations, or dropped when the area
is full (R398, R399). DESIGN CHOICE (log entry 96): the copy of a dropped record in the black box carries the number after the
last that was given, which no record takes. -/
def State.putStop (s : State) (ctx : Nat) (r : StopRec) (frames : List Frame) : State :=
  let x := s.ctx ctx
  let n := x.stopSeq + 1
  let more := if r.kind = 9 && r.source = 0 then frames else []
  let s := if r.kind = 9 then s.logBox r.die 4 9 ctx (BitVec.ofNat 64 r.agent) (r.pc.setWidth 64) (r.half n)
    else if r.kind = 0xC then s.logBox r.die 3 0xC ctx (BitVec.ofNat 64 r.agent) (r.pc.setWidth 64) (r.half n)
    else s
  if 1023 < n + more.length then s.setCtx ctx { x with stopDropped := x.stopDropped + 1 + more.length }
  else
    let s := s.setCtx ctx { x with stopSeq := n + more.length }
    let s := s.putStopWords ctx n (r.words n)
    more.zipIdx.foldl (fun s p => s.putStopWords ctx (n + 1 + p.2) (p.1.words r (n + 1 + p.2))) s

/-! ## The engines that hold work of a context (R395, R398) -/

/-- A tile operation belongs to a context. -/
def State.opOf (s : State) (ctx : Nat) (o : TileOp) : Bool := (s.group? o.gid).any fun g => g.ctx == ctx

/-- Every operation that goes to an engine's arbiter, those granted first. -/
def MatrixEng.held (e : MatrixEng) : List TileOp := e.running.toList ++ e.suspended.toList ++ e.requests

/-- The open worlds of a context on a die. -/
def State.worldsOn (s : State) (ctx die : Nat) : List Nat :=
  (s.worlds.filter fun kv => kv.2.isOpen && kv.2.desc.ctx == ctx && worldDie kv.1 == die).map (·.1)

/-- The engines that hold work of a context, or that found its faults. -/
def State.engines (s : State) (ctx : Nat) (faults : List StopRec) : List Nat :=
  let cores := ((s.groups.filter fun kv => kv.2.ctx == ctx).map fun kv => kv.2.core).eraseDups
  let matrix := (s.matrix.filter fun kv => kv.2.held.any (s.opOf ctx)).map fun kv => matrixCode kv.1
  let copies := (s.copyEng.filter fun kv => kv.2.queue.any (·.ctx == ctx) || kv.2.running.any fun r => r.cmd.ctx == ctx).map
    fun kv => copyCode kv.1
  let found := (faults.filter (·.source == 2)).map fun r => copyCode r.agent
  let seams := ((List.range 4).filter fun d => !(s.worldsOn ctx d).isEmpty).map seamCode
  sortBy id (cores ++ matrix ++ (copies ++ found).eraseDups ++ seams)

/-! ## Halting (R396) -/

/-- The place of a group's team is on some cores: a group evicted alone comes back to it. -/
def State.teamStays (s : State) (cores : Nat → Bool) (g : Group) : Bool :=
  (s.team? g.team).any fun t => match t.place with
    | .placed c _ => cores c
    | _ => false

/-- The record of one group at the halt (R397, R398, R409): its own fault, whichever core it was on; a lost agent's, where its core
held something of it; or none of its own. -/
def State.groupRecord (s : State) (ctx : Nat) (g : Group) : StopRec :=
  let x := s.ctx ctx
  let mine (r : StopRec) : Bool := r.source == 0 && r.teamId == BitVec.ofNat 32 g.teamId && r.groupId == g.gnum
    && r.gridId == ((s.grid? g.grid).map (·.serial)).getD 0
  let cause := match x.stopCause with
    | some r => if mine r then some r else none
    | none => none
  let there := !g.evicted || s.teamStays (· == g.core) g
  match cause, x.stopFaults.find? mine, x.lost.find? fun l => there && l.1 == g.core with
  | some r, _, _ => r
  | none, some r, _ => { r with second := true }
  | none, none, some l =>
    g.stopRec s 0x10 (BitVec.ofNat 64 g.core) (BitVec.ofNat 64 l.2) g.live (minPc (quadPcs g.entryQuads))
  | none, none, none => g.stopRec s 0x0F 0 0 g.live (minPc (quadPcs g.entryQuads))

/-- A group halts: it issues no more, its open region and its loads in flight are discarded (R396). -/
def Group.halt (g : Group) : Group :=
  { g with
    status := .halted
    evicted := g.evicted || g.evicting
    evicting := false
    buf := []
    late := []
    pending := []
    sleepers := []
    ages := []
    snap := none }

/-- A context's groups on a core. -/
def State.groupsOn (s : State) (ctx core : Nat) : List (Nat × Group) :=
  s.groups.filter fun kv => kv.2.ctx == ctx && kv.2.core == core

/-- A core halts its groups of a context (R396), and with them go their waiting requests, reservations and CZEROs. -/
def State.haltGroups (s : State) (ctx core : Nat) : State :=
  let gs := s.groupsOn ctx core
  let mine (gid : Nat) : Bool := gs.any fun kv => kv.1 == gid
  let n := engineOfCore core
  let e := s.matrixEng n
  let s := s.setMatrix n { e with clears := e.clears.filter fun o => !mine o.gid }
  { s with issue := s.issue.filter fun (r : IssueRef) => !mine r.gid
           tenureReqs := s.tenureReqs.filter fun (r : TenureReq) => !mine r.gid
           reservations := s.reservations.filter fun (r : Reservation) => !mine r.gid
           groups := smMap (fun gid g => if mine gid then g.halt else g) s.groups }

/-- The halted groups' lines on their way are performed, and the records of the groups, as they stood, are written (R396,
R398). -/
def State.haltCore (s : State) (ctx core : Nat) : State :=
  let gs := s.groupsOn ctx core
  let t := (s.haltGroups ctx core).drainLines core fun o => gs.any fun kv => kv.1 == o.gid
  gs.foldl (fun t kv => t.putStop ctx (s.groupRecord ctx kv.2) kv.2.frames) t

/-- A core's halt waits: lines of its groups cannot be performed yet (R234, R325), or lanes that have consumed an error have still
to die (R122, R409). -/
def State.haltHeld (s : State) (ctx core : Nat) : Bool :=
  ((s.haltGroups ctx core).outHeld core fun o => (s.groupsOn ctx core).any fun kv => kv.1 == o.gid)
    || (s.groupsOn ctx core).any fun kv => kv.2.dying != 0

/-- The host holds a part of a context's stop-record area that is still to be written (R234). -/
def State.stopHeld (s : State) (ctx : Nat) : Bool :=
  let first := s.ctxWord ctx 5 / 64 + (s.ctx ctx).stopSeq
  s.hostHalves.any fun kv => first ≤ kv.1 && kv.1 < s.ctxWord ctx 5 / 64 + 1024

/-- A pass that stops keeps the k-steps that it has done (R280, R396). -/
def State.cutPass (s : State) (o : TileOp) : State :=
  if !o.isPass || o.kdone = 0 then s
  else
    let r := o.passResult ((s.core o.core).seenBy 2) o.kdone
    let s := s.settleC o.core (o.enabled.map o.cTile)
    let c := s.core o.core
    s.setCore o.core { c with cbuf := bankWrite c.cbuf r.1 }

/-- A record that carries the group of an operation (R398). -/
def State.opRecord (s : State) (r : StopRec) (gid : Nat) : StopRec :=
  match s.group? gid with
  | none => r
  | some g => { r with gridId := ((s.grid? g.grid).map fun (q : Grid) => q.serial).getD 0
                       teamId := BitVec.ofNat 32 g.teamId
                       groupId := g.gnum }

/-- The record of a matrix engine that holds work of a context (R398). -/
def State.matrixRecord (s : State) (ctx n kind : Nat) : StopRec :=
  let e := s.matrixEng n
  let mine (o : TileOp) : Bool := s.opOf ctx o
  let die := n / 64
  let first := ((e.running.toList ++ e.suspended.toList).filter mine ++ (sortBy (fun (o : TileOp) => o.id) (e.requests.filter mine))).head?
  let r := StopRec.plain kind 1 n die 0 0 ((s.die die).cycle.setWidth 32)
  match first with
  | some o => s.opRecord r o.gid
  | none => r

/-- A matrix engine halts a context's operations (R280, R396), and writes a record where it holds one (R398). -/
def State.haltMatrix (s : State) (ctx n : Nat) : State :=
  let e := s.matrixEng n
  let mine (o : TileOp) : Bool := s.opOf ctx o
  let r := s.matrixRecord ctx n (if (s.ctx ctx).lost.any (·.1 == matrixCode n) then 0x10 else 0x0F)
  let s := ((e.running.toList ++ e.suspended.toList).filter mine).foldl State.cutPass s
  let keep (o : Option TileOp) : Option TileOp := o.filter fun q => !mine q
  let s := s.setMatrix n { e with requests := e.requests.filter (!mine ·), running := keep e.running, suspended := keep e.suspended }
  if e.held.any mine then s.putStop ctx r [] else s

/-- Waiters of a context wait on its walks and fault records no more. -/
def State.dropWaiters (s : State) (ctx : Nat) (p : Waiter → Bool) : State :=
  let x := s.ctx ctx
  let s := s.setCtx ctx { x with records := x.records.map fun f => { f with waiters := f.waiters.filter (!p ·) } }
  { s with walks := s.walks.map fun w => if w.ctx = ctx then { w with misses := w.misses.filter fun m => !p m.who } else w }

/-- The record of a copy engine that holds a command of a context (R398). -/
def State.copyRecord (s : State) (ctx n kind : Nat) : StopRec :=
  let plain := StopRec.plain kind 2 n (n / 64) 0 0 ((s.die (n / 64)).cycle.setWidth 32)
  match (s.copyEngine n).running.find? fun r => r.cmd.ctx == ctx && r.done.isNone with
  | some r => { plain with gridId := r.cmd.grid, groupId := r.cmd.gnum, lanes := BitVec.ofNat 64 (r.elem % 2 ^ 32) }
  | none => plain

/-- A copy engine ends a context's commands with STATUS 3 and FAULT 0x66, those included that wait for a translation (R313,
R396), and writes its records where it holds a command or has found a fault (R398). -/
def State.haltCopies (s : State) (ctx n : Nat) : State :=
  let e := s.copyEngine n
  let x := s.ctx ctx
  let own := x.stopFaults.filter fun r => r.source == 2 && r.agent == n
  let cause := x.stopCause.filter fun r => r.source == 2 && r.agent == n
  let running := s.copyRecord ctx n (if x.lost.any (·.1 == copyCode n) then 0x10 else 0x0F)
  let found := cause.toList ++ own.map fun r => { r with second := true }
  let holds := e.queue.any (·.ctx == ctx) || e.running.any fun r => r.cmd.ctx == ctx
  let recs := if !found.isEmpty then found else if holds then [running] else []
  let stop (r : CopyRun) : CopyRun := if r.cmd.ctx = ctx && r.done.isNone then r.finish 3 0x66 0 else r
  let queued := (e.queue.filter (·.ctx == ctx)).map fun c => c.start.finish 3 0x66 0
  let s := ((e.running.filter fun r => r.cmd.ctx == ctx).map (·.cmd) ++ e.queue.filter (·.ctx == ctx)).foldl
    State.copyRelease s
  let s := s.setCopyEng n { e with queue := e.queue.filter (·.ctx != ctx), running := e.running.map stop ++ queued }
  let ended (w : Waiter) : Bool := e.running.any fun r => r.cmd.ctx == ctx && r.done.isNone && w == .copy n r.cmd.id
  recs.foldl (fun s r => s.putStop ctx r []) (s.dropWaiters ctx ended)

/-- A Seam unit's record, where it holds an open world: how many of the context's worlds it puts in error (R398, R409). -/
def State.haltSeam (s : State) (ctx die : Nat) : State :=
  let n := ((s.worldsOn ctx die).filter fun w => !(s.world w).error).length
  let kind := if (s.ctx ctx).lost.any (·.1 == seamCode die) then 0x10 else 0x0F
  if (s.worldsOn ctx die).isEmpty then s
  else s.putStop ctx (StopRec.plain kind 3 die die (BitVec.ofNat 64 n) 0 ((s.die die).cycle.setWidth 32)) []

/-! ## The queues of a stopped context (R290) -/

/-- What the packets of a stopped queue have come to: ended, as far as their slots can be reached, or waiting: for a walk that the
state given has set going, or for the host or a recall. -/
inductive Ending where
  | done (s : State)
  | wait (s : State)

/-- A packet retires with STATUS 6 (R290). The answer is false where the slot cannot be reached: the stop line ends the wait, and
nothing is retired from there onward (R448). -/
def State.stopPacket (s : State) (q n : Nat) (img : BitVec 512) : Except State (State × Bool) :=
  match s.endingReach q true (s.slotVa q n + 56) with
  | .wait s => .error s
  | .failed | .denied _ => .ok (s, false)
  | .ok pa =>
    let sig := if signalAllowed img then s.endingReach q true (packetSignal img) else .failed
    match sig with
    | .wait s => .error s
    | .ok a =>
      if s.writeHeld pa 8 || s.writeHeld a 8 then .error ((s.writeRecall pa 8).writeRecall a 8)
      else
        let s := s.writeSignal a (fun _ => 2 ^ 64 - 1) false
        .ok (s.memWrite none (wbytes pa (leBytes 8 (6 + 0x50 * 256 + (s.packetGrid q n).toNat * 2 ^ 32))), true)
    | _ =>
      if s.writeHeld pa 8 then .error (s.writeRecall pa 8)
      else .ok (s.memWrite none (wbytes pa (leBytes 8 (6 + 0x50 * 256 + (s.packetGrid q n).toNat * 2 ^ 32))), true)

/-- The unretired packets of a queue retire in ring order (R290). -/
def State.stopPackets (s : State) (q : Nat) : Nat → Ending
  | 0 => .done s
  | fuel + 1 =>
    let x := s.queueNow q
    match x.started.find? (!·.retired) with
    | some p =>
      match s.stopPacket q p.num p.img with
      | .error s => .wait s
      | .ok (s, false) => .done s
      | .ok (s, true) => ((s.modStarted q p.num fun p => { p with retired := true }).advanceRead q).stopPackets q fuel
    | none =>
      if !x.more || s.queueSize q < packetsFrom (s.queueRead q) x.announced then .done s
      else match s.endingReach q false (s.slotVa q x.next) with
        | .wait s => .wait s
        | .failed | .denied _ => .done s
        | .ok pa => match s.packetAt pa with
          | (s, none) => .wait s
          | (s, some img) => (s.addStarted q (Started.fresh x.next img)).stopPackets q fuel

/-- A queue of a stopped context aborts with 0x50 (R290). -/
def State.stopQueue (s : State) (q : Nat) : Ending :=
  if s.descHeld q then .wait s
  else
    let s := (s.abortQueue q 0x50).setQueue q { s.queueNow q with waits := [], denied := [], blocked := [] }
    match s.stopPackets q (2 * (16 + s.queueSize q) + 1) with
    | .done s => .done (s.unitDone (s.queueCtx q) (.ending q))
    | .wait s => .wait s

/-- The queues of a context (R290). -/
def State.queuesOf (s : State) (ctx : Nat) : List Nat :=
  (List.range 1024).filter fun q => s.queueCtx q == ctx && !s.queueBlank q

/-- All of them abort, in ascending order, as far as nothing has to be waited for. -/
def State.stopQueues (s : State) : List Nat → Ending
  | [] => .done s
  | q :: rest => match s.stopQueue q with
    | .wait s => .wait s
    | .done s => s.stopQueues rest

/-- The open step sets of a context close (R372). -/
def Ctx.closeSets (x : Ctx) : Ctx :=
  { x with sets := smMap (fun _ e => if e.state = 2 then { e with state := 1 } else e) x.sets }

end Sys2Proof.Machine
end

