-- ==== Sys2Proof/Machine/StopOps.lean ====
section
/-!
DEFINITION. Events of faults and stops: walks and the answers to fault records (R214, R294), discards (R49, R50), errors
(R392), the timeout of an invalidation (R215), and the stop line (R394 to R398).
-/

namespace Sys2Proof.Machine

/-! ## Walks and answers (R213, R214, R294) -/

/-- WALK_COMPLETE (R214): a walk ends: it fills TLBs, or posts a fault record for each access kind that failed. Tenures that
its reads intrude on are recalled first (R325). -/
def execWalkComplete (walk : Nat) (s : State) : Out :=
  match s.walks.find? (·.id == walk) with
  | none => noEvent s
  | some w =>
    if s.walkMeets w.ctx (w.page * 4096) then .next (s.walkRecall w.ctx (w.page * 4096))
    else if s.walkReady w then .next (s.endWalk w) else noEvent s

/-- The ANSWER of a fault record as it stands in memory (R294). -/
def State.answerOf (s : State) (ctx slot : Nat) : Nat :=
  s.physNat (s.frqSlot ctx slot + 24) 1 % 4

/-- A record is open no more, and its slot is free (R294). -/
def State.closeRecord (s : State) (ctx seq : Nat) : State :=
  let x := s.ctx ctx
  s.setCtx ctx { x with records := x.records.filter (·.seq != seq) }

/-- An answer reaches a group whose lanes wait on the record (R432), or one whose instruction has yet to act on it. -/
def State.answerGroup (s : State) (f : FaultRec) (gid : Nat) (wr retry : Bool) : State :=
  let seq := f.seq
  let s : State := match s.group? gid with
    | none => s
    | some g =>
      if (g.status == .running || g.status matches .bkpt _) && !g.evicted then
        let x := s.ctx g.ctx
        s.setCtx g.ctx { x with early := x.early ++ [⟨seq, f.va, f.kind, gid, wr, retry⟩] }
      else s
  (s.modGroup gid fun g => { g with faultRecs := g.faultRecs.map fun r =>
    if r.1 = seq then (r.1, r.2.1, some retry) else r }).resolveFaults gid

/-- What a queue waits for on a page is over (R448). -/
def State.answerQueue (s : State) (q page : Nat) (retry : Bool) : State :=
  let x := s.queue q
  let mine := x.waits.filter fun w => w.1 == page
  s.setQueue q { x with waits := x.waits.filter (fun w => w.1 != page)
                        denied := if retry then x.denied else x.denied ++ mine }

/-- A copy whose access was denied ends with 0x60 at its own address; a record whose slot was denied is lost, and the context
stops (R305, R307). -/
def State.denyCopy (s : State) (engine id : Nat) : State :=
  let e := s.copyEngine engine
  match e.find id with
  | none => s
  | some r =>
    if r.done.isNone then
      let s := match r.layout with
        | some l => s.strayAfter engine walkChunk r l
        | none => s
      (s.putRun engine (r.finish 2 0x60 (r.waits.getD 0))).copyRelease r.cmd
    else
      let va := (r.num.map (s.ringSlot r.cmd.ctx)).getD 0
      let s := s.setCopyEng engine { e with running := e.running.filter fun q => q.cmd.id != id }
      let x := s.ctx r.cmd.ctx
      let die := engine / 64
      let f := { StopRec.plain 0x06 2 engine die (BitVec.ofNat 64 va) 7 ((s.die die).cycle.setWidth 32) with
                 gridId := r.cmd.grid
                 groupId := r.cmd.gnum
                 lanes := BitVec.ofNat 64 (r.elem % 2 ^ 32) }
      s.setCtx r.cmd.ctx { x with stopFaults := x.stopFaults ++ [f] }

/-- A Deny reaches a waiter (R214, R307, R348, R448). A fetch faults at its PC. -/
def State.denyWaiter (s : State) (f : FaultRec) (w : Waiter) : State :=
  match w with
  | .group gid wr => s.answerGroup f gid wr false
  | .fetch gid pc => match s.group? gid with
    | none => s
    | some g =>
      if g.status != .running then s
      else
        let lanes := g.quads.foldl (fun m q => if q.run ≠ 0 && q.pc = pc then m ||| q.run else m) 0
        let lanes := if lanes = 0 then g.waitLanes pc else lanes
        if lanes = 0 then s else s.raiseFault gid 0x06 (pc.setWidth 64) 7 lanes pc
  | .copy engine id => s.denyCopy engine id
  | .frontEnd q => s.answerQueue q (f.va / 4096) false
  | .world n =>
    let x := s.world n
    (s.setWorld n { x with denied := x.denied ++ [(f.va / 4096, accCode f.kind)] }).worldError n 8
  | .reply _ | .sequencer _ | .prefetch .. | .ending _ => s

/-- A Retry reaches a waiter: it translates again. -/
def State.retryWaiter (s : State) (f : FaultRec) (w : Waiter) : State :=
  match w with
  | .group gid wr => s.answerGroup f gid wr true
  | .frontEnd q => s.answerQueue q (f.va / 4096) true
  | _ => s

/-- The answer register is rung for a slot (R214, R294): every waiter acts on the answer. A slot without an open record
is ignored. -/
def answerRecord (want : Nat) (act : State → FaultRec → State) (ctx slot : Nat) (s : State) : Out :=
  match (s.ctx ctx).records.find? (·.slot == slot) with
  | none => .next s
  | some f =>
    if s.answerOf ctx slot ≠ want then noEvent s
    else .next (act (s.closeRecord ctx f.seq) f)

/-- FAULT_RETRY (R214): every access that waits on the record translates again, and walks afresh. -/
def execFaultRetry (ctx slot : Nat) (s : State) : Out :=
  answerRecord 1 (fun s f => f.waiters.foldl (fun s w => s.retryWaiter f w) (s.dropTlb ctx (·.covers ctx f.va))) ctx slot s
/-- FAULT_DENY (R214, R448). -/
def execFaultDeny (ctx slot : Nat) (s : State) : Out :=
  answerRecord 2 (fun s f => f.waiters.foldl (fun s w => s.denyWaiter f w) s) ctx slot s

/-! ## Discards and errors (R49, R50, R392) -/

/-- REGION_DISCARD (R50): when the loads have landed and the region's granted operations are complete, the region is
discarded and re-entered. -/
def execRegionDiscard (gid : Nat) (s : State) : Out :=
  match s.group? gid with
  | none => noEvent s
  | some g => match g.status with
    | .discarding cause =>
      if g.cntLd ≠ 0 || !(s.openOps gid).isEmpty then noEvent s
      else
        let s := s.discard gid cause
        match s.group? gid with
        | none => .next s
        | some h =>
          if h.status = .halted then .next s
          else if g.again then
            .next ((s.setGroup gid { h with again := false }).startDiscard gid 2)
          else .next (s.resolveFaults gid)
    | .parked _ =>
      if g.cntLd ≠ 0 || !g.again then noEvent s
      else .next ((s.setGroup gid { g with again := false }).discardParked gid 2)
    | _ => noEvent s

/-- A recoverable detected error of a group (R49, R50): its open region is discarded; an error during a discard takes
effect when that is done, and one of a group that waits for the answers to its fault records is a further discard (R436). A
waiting request for tenure is withdrawn with it (R329). The open region of a parked group is discarded as it stands (R185), once
its loads have landed.
DESIGN CHOICE (log entry 76): several errors that arrive during one discard make one further discard, for the spec does not say
that each makes its own. A group that waits between two regions otherwise, or whose region is
being fixed, has none to discard. -/
def State.detectedError (s : State) (gid : Nat) (g : Group) : Option State :=
  if g.evicted then none
  else match g.status with
    | .running => if g.inRegion then some (s.startDiscard gid 2) else some s
    | .bkpt _ => some (s.startDiscard gid 2)
    | .faultWait => some (s.startDiscard gid 2)
    | .atTenure _ =>
      some (({ s with tenureReqs := s.tenureReqs.filter fun (r : TenureReq) => r.gid != gid } : State).startDiscard gid 2)
    | .discarding _ => some (s.setGroup gid { g with again := true })
    | .parked _ =>
      if g.cntLd = 0 then some (s.discardParked gid 2) else some (s.setGroup gid { g with again := true })
    | .halted => none
    | .draining => none
    | _ => some s

/-- RECOVERABLE_ERROR (R49). -/
def execRecoverableError (gid : Nat) (s : State) : Out :=
  match s.group? gid with
  | none => noEvent s
  | some g => match s.detectedError gid g with
    | some s => .next { s with issue := s.issue.filter (·.gid != gid) }
    | none => noEvent s

/-- Bytes of a bank are poisoned (R207, R392). -/
def bankSpoil (b : Bank) (off n : Nat) : Bank := (run off n).foldl (fun b a => bankMark b a true) b

/-- Dirty bytes held under tenure on a footprint by another die than their home are poisoned (R206, R235); a poisoning write
ends the reservations on its line (R249). -/
def State.spoilDirty (s : State) (hit : Nat → Nat → Bool) : State :=
  let bad := s.l2dirty.filter fun kv => hit kv.1 (kv.2.1 - 1)
  { s.loseReservations none (bad.map (·.1 / 128)) with
           mem := bad.foldl (fun b kv => bankMark b kv.1 true) s.mem
           l2dirty := s.l2dirty.filter fun kv => !hit kv.1 (kv.2.1 - 1) }

/-- A tenure is purged: nothing is written back, and the dirty bytes under it are poisoned (R235, R236, R392). -/
def State.purgeTenure (s : State) (t : Tenure) : State :=
  let s := if t.write then s.spoilDirty fun a _ => t.lines.contains (a / 128) else s
  { s with tenures := s.tenures.filter (·.id != t.id) }

/-- An uncorrectable error of lines counts against their rows as what calls for sparing at once (R404). DEDUCED (log entry 87): a
line that an L2 holds dirty has its error there, and every other in HBM. -/
def State.rowFaults (s : State) (pa n : Nat) : State :=
  let add (m : SMap (Nat × List Nat)) (l : Nat) : SMap (Nat × List Nat) :=
    let old := smGet (0, []) m (rowAt (128 * l))
    smSet (0, []) m (rowAt (128 * l)) (max 2 (old.1 + 1), (old.2 ++ [l / 32]).eraseDups)
  { s with rowErrors := ((run (pa / 128) ((pa + n + 127) / 128 - pa / 128)).filter fun l => !s.lineDirty l).foldl add s.rowErrors }

/-- What an uncorrectable error does where it lies (R392). -/
def State.spoil (s : State) (loc : ErrLoc) : Option (State × Nat) :=
  match loc with
  | .memory pa n =>
    if Config.physEnd < pa + n then none else some ({ s.rowFaults pa n with mem := bankSpoil s.mem pa n }, homeDie pa)
  | .scratch core off n =>
    if 65536 * (s.core core).sw < off + n then none
    else some (s.setCore core { s.core core with scratch := bankSpoil (s.core core).scratch off n }, dieOfCore core)
  | .buffer core spc off n =>
    let sp := spaceOf spc
    if spc < 2 || 4 < spc || bufSize sp < off + n then none
    else some (s.setCore core ((s.core core).setBank sp (bankSpoil ((s.core core).bank sp) off n)), dieOfCore core)
  | .rebuildable gid => match s.group? gid with
    | none => none
    | some g => (s.detectedError gid g).map fun s =>
      ({ s with issue := s.issue.filter fun (r : IssueRef) => r.gid != gid }, dieOfCore g.core)
  | .vlane gid reg lane => match s.group? gid with
    | none => none
    | some g =>
      if g.evicted || g.allot ≤ reg || 64 ≤ lane then none
      else some (s.setGroup gid { g with vpoison := smSet false g.vpoison (64 * reg + lane) true }, dieOfCore g.core)
  | .groupState gid => match s.group? gid with
    | none => none
    | some g =>
      if g.evicted then none
      else some (if g.status = .halted then s else s.killLanes gid g.live, dieOfCore g.core)
  | .table ctx tbl idx => some (s.raiseManaged ctx 0x0E tbl idx 0, 0)
  | .tenure id => match s.tenures.find? (·.id == id) with
    | none => none
    | some t => some (s.purgeTenure t, dieOfCore t.core)
  | .reservation id =>
    if s.reservations.any (·.id == id) then
      some ({ s with reservations := s.reservations.filter fun (r : Reservation) => r.id != id }, 0)
    else none
  | .firmware die => some (s, die)

/-- The agent and the address that the record of an uncorrectable error names (R408). -/
def State.errorPlace (s : State) (loc : ErrLoc) : Nat × Nat :=
  let core (gid : Nat) : Nat := ((s.group? gid).map fun g => g.core).getD 0
  match loc with
  | .memory pa _ => (homeDie pa, pa)
  | .scratch core off _ => (core, off)
  | .buffer core _ off _ => (core, off)
  | .rebuildable gid => (core gid, 0)
  | .vlane gid _ _ => (core gid, 0)
  | .groupState gid => (core gid, 0)
  | .table _ _ idx => (0, idx)
  | .tenure id => (((s.tenures.find? (·.id == id)).map fun t => t.core).getD 0, 0)
  | .reservation _ => (0, 0)
  | .firmware die => (die, 0)

/-- The context whose state an uncorrectable error has hit, or none (R408). -/
def State.errorCtx (s : State) (loc : ErrLoc) : Nat :=
  let owner (gid : Nat) : Nat := ((s.group? gid).map fun g => g.ctx).getD noCtx
  match loc with
  | .rebuildable gid => owner gid
  | .vlane gid _ _ => owner gid
  | .groupState gid => owner gid
  | .table ctx _ _ => ctx
  | .tenure id => ((s.tenures.find? (·.id == id)).map fun t => t.ctx).getD noCtx
  | .reservation id => ((s.reservations.find? (·.id == id)).map fun (r : Reservation) => owner r.gid).getD noCtx
  | .memory .. => noCtx
  | .scratch .. => noCtx
  | .buffer .. => noCtx
  | .firmware _ => noCtx

/-- The counts that the record of an uncorrectable error gives with their thresholds (R402, R404, R408): a row's errors, or the
EUNC of the core. -/
def State.errorCounts (s : State) (loc : ErrLoc) (agent : Nat) : List Nat :=
  let core (n : Nat) : List Nat := [(s.core n).eunc.toNat, s.host.eunThr.toNat]
  match loc with
  | .memory pa _ => [(smGet (0, []) s.rowErrors (rowAt pa)).1, 2]
  | .scratch .. => core agent
  | .buffer .. => core agent
  | .rebuildable _ => core agent
  | .vlane .. => core agent
  | .groupState _ => core agent
  | .tenure _ => core agent
  | .table .. => []
  | .reservation _ => []
  | .firmware _ => []

/-- UNCORRECTABLE_ERROR (R392, R122): its consequence by where it lies; the management core records it (R408). -/
def execUncorrectableError (loc : ErrLoc) (s : State) : Out :=
  match s.spoil loc with
  | none => noEvent s
  | some (t, die) =>
    let place := s.errorPlace loc
    .next (t.logBox die 5 0 (s.errorCtx loc) (BitVec.ofNat 64 place.1) (BitVec.ofNat 64 place.2) (boxData (t.errorCounts loc place.1)))

/-! ## The timeout of an invalidation (R215) -/

/-- A group's open region holds a line of a range of pages. -/
def Group.holdsRange (g : Group) (v : Inval) : Bool :=
  g.ctx == v.ctx && g.buf.any fun b => b.space == .g && v.lo ≤ b.vline / 32 && b.vline / 32 < v.hi

/-- INVALIDATION_TIMEOUT (R215): a region that still holds a line of the range 65,536 cycles after the request is
discarded as a recoverable translation event. -/
def execInvalidationTimeout (gid : Nat) (s : State) : Out :=
  match s.host.inval, s.group? gid with
  | some v, some g =>
    let die := dieOfCore g.core
    let late := v.asOf.getD die 0 + 65536 ≤ (s.die die).cycle.toNat
    if late && v.held.contains (gid, g.regionNo) && g.holdsRange v && !g.evicted && g.inRegion
        && (g.status == .running || g.status matches .bkpt _) then
      let s : State := { s with issue := s.issue.filter (·.gid != gid) }
      .next ((s.setGroup gid { g with faultRecs := [] }).startDiscard gid 1)
    else noEvent s
  | _, _ => noEvent s

/-! ## The stop line (R394 to R398) -/

/-- STOP_LINE_RAISE (R394, R395): the management core takes the first fault of a context as the cause, writes a
black-box record and raises the line. -/
def execStopLineRaise (s : State) : Out :=
  match s.ctxs.find? fun kv => kv.2.state == .enabled && !kv.2.stopFaults.isEmpty && !s.stopHeld kv.1 with
  | none => noEvent s
  | some (c, x) => match x.stopFaults with
    | [] => noEvent s
    | f :: rest =>
      let f := { f with cause := true }
      let s := s.setCtx c { x with state := .stopping, stopCause := some f, stopFaults := rest, haltDone := [],
                                   haltLeft := s.engines c x.stopFaults }
      let s := s.logBox f.die 1 f.kind c (BitVec.ofNat 64 f.agent) (f.pc.setWidth 64) (f.half (x.stopSeq + 1))
      .next (if f.source = 8 then s.putStop c f [] else s)

/-- An engine's die has lost power, and its failure is still to be declared: nothing runs on it, and nothing is recorded of it
before the declaration (R14, R406). -/
def State.engineDark (s : State) (engine : Nat) : Bool :=
  let d := if engine < 1024 then dieOfCore engine
    else if engine < 2048 then (engine - 1024) / 64
    else if engine < 4096 then (engine - 2048) / 64 else engine - 4096
  !(s.die d).powered && !(s.die d).failed

/-- ENGINE_HALT (R395, R396): an engine that holds work of a stopping context halts it, and writes its records. -/
def execEngineHalt (ctx engine : Nat) (s : State) : Out :=
  let x := s.ctx ctx
  if x.state ≠ .stopping || !x.haltLeft.contains engine || s.stopHeld ctx || (engine < 1024 && s.haltHeld ctx engine)
      || s.engineDark engine then noEvent s
  else
    let s := s.setCtx ctx { x with haltLeft := x.haltLeft.erase engine, haltDone := x.haltDone ++ [engine]
                                   lostRecs := x.lostRecs.filter (·.1 != engine) }
    .next (if engine < 1024 then s.haltCore ctx engine
      else match x.lostRecs.find? (·.1 == engine) with
      | some r => s.putStop ctx r.2 []
      | none => if engine < 2048 then s.haltMatrix ctx (engine - 1024)
      else if engine < 4096 then s.haltCopies ctx (engine - 2048)
      else s.haltSeam ctx (engine - 4096))

/-- A close of a context's world is running and goes on, once a fault record that it may wait on has been answered: it completes
before the worlds enter error (R396). -/
def State.closesLeft (s : State) (ctx : Nat) : Bool :=
  s.worlds.any fun kv => kv.2.isOpen && kv.2.desc.ctx == ctx && kv.2.launch.isSome && kv.2.closing && !kv.2.error && s.seamUp kv.1

/-- Every engine of a stopping context has written its stop record, its copies their completion records, and its running closes
have ended. -/
def State.halted (s : State) (ctx : Nat) : Bool :=
  let x := s.ctx ctx
  x.state == .stopping && x.haltLeft.isEmpty && !s.closesLeft ctx
    && !(s.copyEng.any fun kv => kv.2.queue.any (·.ctx == ctx) || kv.2.running.any fun r => r.cmd.ctx == ctx)

/-- The summary record, the last one (R398). -/
def State.putSummary (s : State) (ctx : Nat) : State :=
  let x := s.ctx ctx
  let kind := (x.stopCause.map (·.kind)).getD 0x0F
  let die := (x.stopCause.map (·.die)).getD 0
  let seq := if x.stopDropped = 0 then x.stopSeq + 1 else 1024
  let total := x.stopSeq + x.stopDropped + 1
  let r := StopRec.plain kind 6 die die (BitVec.ofNat 64 total) (BitVec.ofNat 64 x.stopDropped) ((s.die die).cycle.setWidth 32)
  let s := s.putStopWords ctx seq (r.words seq)
  (s.setCtx ctx { x with state := .stopped, stopSeq := seq }).logBox die 2 kind ctx
    (BitVec.ofNat 64 ((x.stopCause.map (·.agent)).getD 0)) ((x.stopCause.map fun r => r.pc.setWidth 64).getD 0)
    (boxData [total, x.stopDropped])

/-- What step 3 of R395 ends before the queues abort: tenures, open step sets, worlds, and what is left of faults and walks. -/
def State.stopRest (s : State) (ctx : Nat) : State :=
  let s := s.endTenures (·.ctx == ctx)
  let x := s.ctx ctx
  let extra := x.stopFaults.filter (·.source == 8)
  let s := extra.foldl (fun s r => s.putStop ctx { r with second := true } []) s
  let s := s.setCtx ctx { (s.ctx ctx).closeSets with stopFaults := [], records := [], early := [] }
  let ends (w : Waiter) : Bool := w matches .ending _
  let s : State := { s with walks := s.walks.filter fun w => w.ctx != ctx || w.misses.any fun m => ends m.who
                            unitTrs := s.unitTrs.filter fun a => a.ctx != ctx || ends a.who
                            tenureReqs := s.tenureReqs.filter fun (r : TenureReq) => r.ctx != ctx }
  let worlds := (s.worlds.filter fun kv => kv.2.isOpen && kv.2.desc.ctx == ctx).map (·.1)
  worlds.foldl (fun s w => s.worldError w 0) s

/-- STOP_COMPLETION (R395): tenures are released, step sets close, worlds enter error, queues abort, and the summary
record is written last. The queues' packets end as their slots are reached (R213); until all have, it comes again. -/
def execStopCompletion (ctx : Nat) (s : State) : Out :=
  if !s.halted ctx || s.tenuresHeld (·.ctx == ctx) || s.stopHeld ctx then noEvent s
  else match (s.stopRest ctx).stopQueues (s.queuesOf ctx) with
    | .wait t => .next t
    | .done t => .next (t.putSummary ctx)

end Sys2Proof.Machine
end

