-- ==== Sys2Proof/Machine/Repair.lean ====
section
/-!
DEFINITION. Sparing, retirement, links, failure and rejoin (R401 to R407), power (R14, R421), and readiness (R412).
-/

namespace Sys2Proof.Machine

/-! ## Errors that are corrected, and sparing (R381, R401, R404, R405) -/

/-- A 32-bit error counter saturates (R381). -/
def satAdd (c : BitVec 32) (n : Nat) : BitVec 32 := BitVec.ofNat 32 (min (c.toNat + n) 0xFFFFFFFF)

/-- CORRECTED_ERROR (R381, R404): it is counted, and changes nothing else. -/
def execCorrectedError (loc : CorrLoc) (s : State) : Out :=
  match loc with
  | .core n =>
    if Config.coreCount ≤ n then noEvent s
    else .next (s.setCore n { s.core n with ecor := satAdd (s.core n).ecor 1 })
  | .row stack bank row frames =>
    let k := rowKey stack bank row
    let old := smGet (0, []) s.rowErrors k
    .next { s with rowErrors := smSet (0, []) s.rowErrors k (old.1 + 1, (old.2 ++ frames).eraseDups) }

/-- A row has been dealt with (R408): the stack, bank and row are AGENT, and a bad frame is ADDR; the row's errors and the spare
rows in use are DATA, each before the number that is its limit (DESIGN CHOICE, log entry 88). -/
def State.logRow (s : State) (stack bank row errors used frame : Nat) : State :=
  s.logBox (stack / 3) 9 0 noCtx (BitVec.ofNat 64 (stack + 2 ^ 16 * bank + 2 ^ 32 * row)) (BitVec.ofNat 64 frame)
    (boxData [errors, 2, used, 8])

/-- ROW_SPARE (R404, R207): a row is copied into a spare row, and its bytes stay as they are; with no spare row left in
the bank, the row's frames are recorded as bad, those of its errors and every other (FREE, log entry 87), and each is reported to
the host by a record of its own (DESIGN CHOICE, log entry 88). -/
def execRowSpare (stack bank row : Nat) (s : State) : Out :=
  let k := bankKey stack bank
  let used := smGet 0 s.spareRows k
  let errors := (smGet (0, []) s.rowErrors (rowKey stack bank row)).1
  let frames := ((smGet (0, []) s.rowErrors (rowKey stack bank row)).2 ++ Config.rowFrames (rowKey stack bank row)).eraseDups
  if 12 ≤ stack then noEvent s
  else
    let s : State := { s with rowErrors := smDel s.rowErrors (rowKey stack bank row) }
    if used < 8 then
      .next (({ s with spareRows := smSet 0 s.spareRows k (used + 1) } : State).logRow stack bank row errors (used + 1) 0)
    else
      let s : State := { s with badFrames := frames.foldl (fun m f => smSet false m f true) s.badFrames }
      .next ((if frames.isEmpty then [0] else frames).foldl (fun s f => s.logRow stack bank row errors used f) s)

/-- The die of a device port (R9). -/
def dieOfPort (p : Nat) : Nat := p / 6

/-! ## READY (R412) -/

/-- Set or clear a bit of READY. -/
def State.setReady (s : State) (bit : Nat) (v : Bool) : State :=
  let m := 1#64 <<< bit
  { s with host := { s.host with ready := if v then s.host.ready ||| m else s.host.ready &&& ~~~m } }

/-- The bits of READY of a die: compute, L2, HBM, Seam unit. -/
def dieBits (d : Nat) : List Nat := [8 + d, 12 + d, 16 + d, 20 + d]

/-- A function's die has power: that of a part of a die, some die's for the bobbins, and die 0 for the device's others (R8;
DEDUCED, log entry 74). -/
def State.functionPower (s : State) (bit : Nat) : Bool :=
  if 8 ≤ bit then (s.die (bit % 4)).powered
  else if bit = 4 then (List.range Config.dieCount).any fun d => (s.die d).powered
  else (s.die 0).powered

/-- The self-test of a die's compute part is one of every core that has failed there (R407). -/
def State.testCores (s : State) (d : Nat) : State :=
  { s with cores := s.cores.map fun kv => if dieOfCore kv.1 = d then (kv.1, { kv.2 with untested := false }) else kv }

/-- SELF_TEST_COMPLETE (R412): a function becomes ready: the management core, the bobbins, the front end, the key engine,
the checkpoint engine, or a part of a die that has power. DESIGN CHOICE (log entry 106): the self-test that a failed core has to pass
before it rejoins (R407) is part of that of its die's compute function. -/
def execSelfTestComplete (bit : Nat) (s : State) : Out :=
  if bit < 3 || 24 ≤ bit || !s.functionPower bit then noEvent s
  else .next ((if bit / 4 = 2 then s.testCores (bit - 8) else s).setReady bit true)

/-- LINK_TRAINING (R412, R416): a part of the host link, or a fabric port that is not dead, comes up or is lost. -/
def execLinkTraining (bit : Nat) (up : Bool) (peer : BitVec 32) (s : State) : Out :=
  if bit < 3 then (if up && !s.functionPower bit then noEvent s else .next (s.setReady bit up))
  else if bit < 24 || 48 ≤ bit then noEvent s
  else
    let n := bit - 24
    let p := s.port n
    if p.state = 3 || !(s.die (dieOfPort n)).powered then noEvent s
    else .next ((s.setPort n { p with state := if up then 2 else 1, peer := if up then peer else 0,
                                      acceptAt := (s.die (dieOfPort n)).cycle.toNat }).setReady bit up)

/-! ## Dead links (R405) -/

/-- A link-state update is sent on to every die and every reachable peer (R405). -/
def State.flood (s : State) (port : Nat) (lsn : BitVec 16) : State := { s with floods := s.floods ++ [(port, lsn)] }

/-- A port's link is declared dead (R405): it takes a new link-state number, the update is flooded, and drain rounds follow. -/
def State.killLink (s : State) (port failures : Nat) : State :=
  let p := s.port port
  let d := dieOfPort port
  let now := (s.die d).cycle.toNat
  let s := s.setPort port { p with state := 3, peer := 0, lsn := p.lsn + 1, drainRounds := 0, drainAt := now, far := p.peer }
  ((s.setReady (24 + port) false).flood port (p.lsn + 1)).logBox d 11 0 noCtx
    (BitVec.ofNat 64 (port + (p.lsn + 1).toNat * 2 ^ 16)) 0 (boxData [failures, 2, now - p.acceptAt, 65536])

/-- A port has accepted no flit for 65,536 cycles of its die (R405). -/
def State.silent (s : State) (port : Nat) : Bool :=
  (s.port port).acceptAt + 65536 ≤ (s.die (dieOfPort port)).cycle.toNat

/-- LINK_DEAD (R405): a port that has accepted no flit for 65,536 cycles of its die makes its link dead. -/
def execLinkDead (port : Nat) (s : State) : Out :=
  let p := s.port port
  if 24 ≤ port || p.state ≠ 2 || !s.silent port then noEvent s
  else .next (s.killLink port p.spare.toNat)

/-- FABRIC_LANE_SPARE (R405, R381): a port's traffic moves to its spare lane, and the flits caught are replayed. A second lane
failure makes the link dead. -/
def execFabricLaneSpare (port replayed : Nat) (s : State) : Out :=
  let p := s.port port
  if 24 ≤ port || p.state ≠ 2 then noEvent s
  else if p.spare then .next (s.killLink port 2)
  else
    let frpl := satAdd p.frpl replayed
    .next ((s.setPort port { p with spare := true, frpl := frpl }).logBox (dieOfPort port) 10 0 noCtx (BitVec.ofNat 64 port) 0
      (boxData [1, 2, frpl.toNat]))

/-- A link-state number is newer than another. DESIGN CHOICE (log entry 89): numbers go round, and the newer is less than half the
range ahead. -/
def newerLsn (new old : BitVec 16) : Bool := new != old && (new - old).toNat < 32768

/-- LINK_STATE_UPDATE (R405): an update with a new number for the link of a port sets its LSN and is forwarded, once; any other is
dropped. -/
def execLinkStateUpdate (port lsn : Nat) (s : State) : Out :=
  let p := s.port port
  let n := BitVec.ofNat 16 lsn
  if 24 ≤ port || 2 ^ 16 ≤ lsn || !newerLsn n p.lsn then noEvent s
  else .next ((s.setPort port { p with lsn := n }).flood port n)

/-- A peer's failure is declared (R406): its incarnation is retired. -/
def State.failPeer (s : State) (n : Nat) : State :=
  let inc := smGet 1 s.host.peerInc n
  if smGet false s.host.peersLost n then s
  else
    let s : State := { s with host := { s.host with peersLost := smSet false s.host.peersLost n true } }
    s.logBox 0 12 0 noCtx (BitVec.ofNat 64 (n + inc.toNat * 2 ^ 32)) 0 0

/-- A peer is reached: over a port of its own that is up; over other peers, whose links the model does not hold, as a free choice
says (log entry 89). -/
def State.peerReached (s : State) (n : BitVec 32) : Bool × State :=
  let up := (List.range 24).filter fun p => (s.port p).state == 2
  if up.any fun p => (s.port p).peer == n then (true, s) else if up.isEmpty then (false, s) else s.draw

/-- DRAIN_ROUND (R405): one of the four drain rounds of a dead link ends. After the fourth what was still bound over the link is
dropped, and a peer that no route reaches any longer is declared failed. -/
def execDrainRound (port : Nat) (s : State) : Out :=
  let p := s.port port
  let now := (s.die (dieOfPort port)).cycle.toNat
  if p.state ≠ 3 || 4 ≤ p.drainRounds || now < p.drainAt + 65536 then noEvent s
  else
    let s := s.setPort port { p with drainRounds := p.drainRounds + 1, drainAt := p.drainAt + 65536 }
    if p.drainRounds ≠ 3 || p.far = 0 then .next s
    else
      let r := s.peerReached p.far
      .next (if r.1 then r.2 else r.2.failPeer p.far.toNat)

/-! ## Retirement (R402, R403, R409) -/

/-- A context is being stopped: retirements wait (R409). -/
def State.stopping (s : State) : Bool := s.ctxs.any fun kv => kv.2.state == .stopping

/-- A core is retired as planned (R402): it is closed to placement for good, and its teams are evicted whole. -/
def State.retireCore (s : State) (core : Nat) : State :=
  let keys := (s.teamsOn core Without.nobody).map (·.1)
  let s := s.setCore core { s.core core with retired := true, closedTo := none }
  let s := (keys.foldl State.leaveWhole s).strandAll core
  s.logBox (dieOfCore core) 7 0 noCtx (BitVec.ofNat 64 core) 0 (boxData [(s.core core).eunc.toNat, s.host.eunThr.toNat])

/-- A retirement comes: while a context is being stopped it waits (R409), by its engine's code and whether the engine has failed. -/
def State.retireNow (s : State) (code : Nat) (failed : Bool) (act : State → State) : State :=
  let key := 2 * code + failed.toNat
  if !s.stopping then act { s with retireDue := s.retireDue.filter (· / 2 != code) }
  else if s.retireDue.contains key then s
  else { s with retireDue := s.retireDue ++ [key] }

/-- CORE_RETIREMENT (R402, R409). -/
def execCoreRetirement (core : Nat) (s : State) : Out :=
  if Config.coreCount ≤ core || (s.core core).retired || (s.core core).failed then noEvent s
  else .next (s.retireNow core false fun s => s.retireCore core)

/-- The group's region is open, or is being closed. -/
def Group.midRegion (g : Group) : Bool := !g.closed && g.status != .halted && g.status != .draining

/-- The current regions of a core's resident groups. -/
def State.regionsOn (s : State) (core : Nat) : List (Nat × Nat) :=
  ((s.residents core Without.nobody).filter fun kv => kv.2.midRegion).map fun kv => (kv.1, kv.2.regionNo)

/-- A failing quad is mapped onto the spare (R401). -/
def State.mapSpare (s : State) (core : Nat) : State :=
  let s : State := { s.setCore core { s.core core with spareUsed := true } with sparing := smDel s.sparing core }
  s.logBox (dieOfCore core) 6 0 noCtx (BitVec.ofNat 64 core) 0 (boxData [1, 2])

/-- QUAD_SPARE (R401): a core's failing quad is mapped onto its spare when the current regions of its resident groups have ended;
programs see no difference. A second failing quad retires the core. -/
def execQuadSpare (core : Nat) (s : State) : Out :=
  let c := s.core core
  let now := s.regionsOn core
  if Config.coreCount ≤ core || c.retired || c.failed then noEvent s
  else if c.spareUsed || (smFind s.sparing core).isSome then execCoreRetirement core s
  else if now.isEmpty then .next (s.mapSpare core)
  else .next { s with sparing := smPut s.sparing core now }

/-- The regions that a sparing waits for have ended, and the quad is mapped (R401). -/
def sparingDone (core : Nat) (s : State) : Out :=
  match smFind s.sparing core with
  | none => noEvent s
  | some old => .next (if (s.regionsOn core).any old.contains then s
    else if (s.core core).retired || (s.core core).failed then { s with sparing := smDel s.sparing core }
    else s.mapSpare core)

/-- The data of a DRAIN that is withdrawn never come: the bytes that waited for them are stored no more (R272, R403). -/
def Group.forget (g : Group) (id : Nat) : Group :=
  let off (b : BufLine) : BufLine := { b with bytes := b.bytes.filter (·.wait != some id) }
  { g with buf := g.buf.map off
           late := (g.late.map off).filter (!·.bytes.isEmpty) }

/-- Requests of a matrix engine are withdrawn, and count as complete with no effect (R280, R403); what waited for them goes
on. -/
def State.withdrawAll (s : State) (n : Nat) : State :=
  let e := s.matrixEng n
  let s := s.setMatrix n { e with requests := [], retired := true }
  (e.requests.foldl (fun s o => (s.modGroup o.gid (·.forget o.id)).finishTile o 0) s).runClears n

/-- The contexts of the operations of an engine. -/
def State.opContexts (s : State) (os : List TileOp) : List Nat :=
  (os.filterMap fun o => (s.group? o.gid).map (·.ctx)).eraseDups

/-- Contexts stop because an agent that held their state is lost (R406): its engine's code, its number and
incarnation. -/
def State.loseAgent (s : State) (ctxs : List Nat) (code agent inc die : Nat) : State :=
  ctxs.foldl (fun s c =>
    let s := s.raiseManaged c 0x10 agent inc die
    let x := s.ctx c
    s.setCtx c { x with lost := x.lost ++ [(code, inc)] }) s

/-- A matrix engine is retired (R403): its requests are withdrawn, and teams that use the typed buffers leave its
cluster's cores; when it has failed, the contexts of its passes stop. -/
def State.retireMatrix (s : State) (n : Nat) (failed : Bool) : State :=
  let e := s.matrixEng n
  let ctxs := s.opContexts e.held
  let s := s.withdrawAll n
  let s := if failed then
      ((s.setMatrix n { s.matrixEng n with running := none, suspended := none }).runClears n).loseAgent ctxs (matrixCode n) n
        (s.die (n / 64)).inc.toNat (n / 64)
    else s
  let keys := (run (4 * n) 4).flatMap fun c =>
    ((s.teamsOn c Without.nobody).filter fun kv => kv.2.shape.tbuf).map (·.1)
  let count := (s.matrix.filter fun kv => kv.2.retired).length
  ((keys.foldl State.leaveWhole s).strandAll (4 * n)).logBox (n / 64) 8 0 noCtx (BitVec.ofNat 64 n) 0 (boxData [count, 256])

/-- A copy engine is retired, and its cluster's four cores with it (R403). -/
def State.retireCopy (s : State) (n : Nat) : State :=
  let s := s.setCopyEng n { s.copyEngine n with retired := true }
  let s := s.logBox (n / 64) 8 0 noCtx (BitVec.ofNat 64 n) 0 (boxData [(s.copyEng.filter fun kv => kv.2.retired).length, 256])
  ((run (4 * n) 4).filter fun c => !(s.core c).retired && !(s.core c).failed).foldl State.retireCore s

/-- ENGINE_RETIREMENT (R403, R409). -/
def execEngineRetirement (isCopy failed : Bool) (engine : Nat) (s : State) : Out :=
  let done := if isCopy then (s.copyEngine engine).retired else (s.matrixEng engine).retired
  if 256 ≤ engine || done then noEvent s
  else .next (if isCopy then s.retireNow (copyCode engine) failed fun s => s.retireCopy engine
    else s.retireNow (matrixCode engine) failed fun s => s.retireMatrix engine failed)

/-- A retirement that has waited for the stops to end (R409). -/
def dueRetirement (key : Nat) (s : State) : Out :=
  let code := key / 2
  if code < 1024 then execCoreRetirement code s
  else if code < 2048 then execEngineRetirement false (key % 2 == 1) (code - 1024) s
  else execEngineRetirement true (key % 2 == 1) (code - 2048) s

/-! ## Failure and rejoin (R406, R407) -/

/-- An incarnation number's successor (R407). -/
def nextInc (i : BitVec 8) : BitVec 8 := if i = 255 then 1 else i + 1

/-- The contexts with groups, passes or copies on some cores and engines. -/
def State.contextsOn (s : State) (cores : Nat → Bool) (engines : Nat → Bool) : List Nat :=
  let gs := (s.groups.filter fun kv => cores kv.2.core && (!kv.2.evicted || s.teamStays cores kv.2)).map fun kv => kv.2.ctx
  let ms := (s.matrix.filter fun kv => engines kv.1).flatMap fun kv => s.opContexts kv.2.held
  let cs := (s.copyEng.filter fun kv => engines kv.1).flatMap fun kv =>
    kv.2.queue.map (·.ctx) ++ kv.2.running.map fun r => r.cmd.ctx
  sortBy id (gs ++ ms ++ cs).eraseDups

/-- What a group holds in a core that fails or loses power is lost (R14): its registers and control state. DESIGN CHOICE (log entry
107): the live lanes, PC, trap depth and re-entry count that a record of it shows afterwards are FREE, for R398 still asks for a
record of every resident group. -/
def Group.wipe (g : Group) (n : Nat) : Group :=
  let pc := BitVec.ofNat 57 (Config.freePick n)
  { g with
    v := g.v.map (·.map fun _ => 0)
    vpoison := []
    s := g.s.map fun _ => 0
    x := g.x.map fun _ => 0
    p := g.p.map fun _ => 0
    k := g.k.map fun _ => ⟨0, 0, 0⟩
    rmr := 0
    rmrPend := none
    gsr := 0
    launched := BitVec.ofNat 64 (Config.freePick (n + 1))
    exited := 0
    dead := 0
    dying := 0
    frames := []
    depth := Config.freePick (n + 2) % 8
    rng := g.rng.map fun _ => 0
    quads := g.quads.map fun q => { q with pc := pc, deferred := [] }
    entryQuads := [⟨pc, -1, [], 0⟩]
    reentry := Config.freePick (n + 3) % 16 }

/-- The groups on some cores lose what they hold there. -/
def State.wipeGroups (s : State) (cores : Nat → Bool) : State :=
  (s.groups.filter fun kv => cores kv.2.core && !kv.2.evicted).foldl (fun s kv =>
    { s.setGroup kv.1 (kv.2.wipe s.fresh) with fresh := s.fresh + 4 }) s

/-- The groups on failed cores issue no more, hold nothing of what they held there (R14), and what they had stored and not handed on
is never performed (R235). -/
def State.haltOn (s : State) (cores : Nat → Bool) : State :=
  let s := s.wipeGroups cores
  let halt (g : Group) : Group :=
    if cores g.core && !g.evicted then
      { g with status := .halted, evicting := false, closing := false, buf := [], late := [], pending := [], sleepers := [] }
    else g
  { s with groups := smMap (fun _ g => halt g) s.groups
           issue := s.issue.filter fun (r : IssueRef) => !((s.group? r.gid).any fun g => cores g.core) }

/-- Tenures and reservations of failed cores are purged, and the dirty bytes under them poisoned (R235, R236). -/
def State.purgeCores (s : State) (cores : Nat → Bool) : State :=
  let s := (s.tenures.filter fun t => cores t.core).foldl State.purgeTenure s
  let far (gid : Nat) : Bool := (s.group? gid).any fun g => cores g.core
  { s with reservations := s.reservations.filter fun (r : Reservation) => !far r.gid
           tenureReqs := s.tenureReqs.filter fun (r : TenureReq) => !far r.gid }

/-- What a failed core held is gone; its counters stay until the host clears them. -/
def CoreSt.fail (c : CoreSt) : CoreSt :=
  { CoreSt.reset with
    ecor := c.ecor
    eunc := c.eunc
    erec := c.erec
    spareUsed := c.spareUsed
    retired := c.retired
    failed := true
    alone := c.alone
    untested := true
    inc := c.inc }

/-- A die's counter starts again at 0 (R12): what waits for one of its readings to pass counts from there. -/
def State.restartClock (s : State) (d : Nat) : State :=
  let s := s.setDie d { s.die d with cycle := 0 }
  let s := (run (6 * d) 6).foldl (fun s p => s.setPort p { s.port p with drainAt := 0, acceptAt := 0 }) s
  let inval := s.host.inval.map fun v => { v with asOf := v.asOf.set d 0 }
  let s : State := { s with host := { s.host with inval := inval } }
  if d ≠ 0 then s
  else { s with quantumAt := 0
                tryAt := 0
                feAt := none
                queues := smMap (fun _ x => { x with startableAt := x.startableAt.map fun _ => 0, aged := 0, lastResident := 0 })
                  s.queues }

/-- The lines that a lost die's own L2 held dirty (R14, R198): HBM keeps their older bytes. DESIGN CHOICE (log entry 90): what the L2
had written back by then is free, a line at a time; the bytes of a line that it had not are poisoned, for the only modified copy
is lost (R235). -/
def State.loseL2 (s : State) (d : Nat) : State :=
  let mine := s.l2home.filter fun kv => homeDie (128 * kv.1) == d
  let s : State := { s with l2home := s.l2home.filter fun kv => homeDie (128 * kv.1) != d }
  mine.foldl (fun s kv =>
    let c := s.draw
    if c.1 then c.2
    else { (c.2.loseReservations none [kv.1]) with
           mem := (run 0 128).foldl (fun b i => if kv.2.testBit i then bankMark b (128 * kv.1 + i) true else b) c.2.mem }) s

/-- Bytes that another die holds dirty of a lost die's memory are written back no more (R406): their homes keep what they had. -/
def State.loseCopies (s : State) (d : Nat) : State :=
  let bad := s.l2dirty.filter fun kv => homeDie kv.1 == d
  { s with mem := bad.foldl (fun b kv => bankMark (bankPut b kv.1 kv.2.2.1) kv.1 kv.2.2.2) s.mem
           l2dirty := s.l2dirty.filter fun kv => homeDie kv.1 != d }

/-- A die's static memories are lost, but for the black box (R14): islands and forwards, L2, directories, engines. -/
def State.loseDie (s : State) (d : Nat) : State :=
  let s := (s.loseCopies d).loseL2 d
  let s := (List.range 256).foldl (fun s i => s.setCore (256 * d + i) (s.core (256 * d + i)).fail) s
  let x := s.die d
  let s := s.setDie d { x with islands := [], forwards := [], failed := true }
  let here (e : Nat) : Bool := e / 64 == d
  let lost (kv : Nat × MatrixEng) : Option (Nat × MatrixEng) :=
    if !here kv.1 then some kv else if kv.2.retired then some (kv.1, { MatrixEng.reset with retired := true }) else none
  { s with tenures := s.tenures.filter fun (t : Tenure) => t.anchor / 64 != d
           reservations := s.reservations.filter fun (r : Reservation) => homeDie (128 * r.line) != d
           hostHalves := s.hostHalves.filter fun kv => homeDie (64 * kv.1) != d
           sparing := s.sparing.filter fun kv => dieOfCore kv.1 != d
           clusterTlb := s.clusterTlb.filter fun kv => !here kv.1
           matrix := s.matrix.filterMap lost
           copyEng := s.copyEng.filterMap fun kv =>
             if !here kv.1 then some kv
             else if kv.2.retired then some (kv.1, { CopyEng.reset with retired := true }) else none
           walks := s.walks.filter fun (w : Walk) => w.die != d }

/-- A core's failure is declared (R406). -/
def State.failCore (s : State) (n : Nat) : State :=
  let on (c : Nat) : Bool := c == n
  let ctxs := s.contextsOn on fun _ => false
  let inc := (s.core n).inc
  let s := ((s.purgeCores on).haltOn on).setCore n { (s.core n).fail with alone := true }
  let s : State := { s with sparing := smDel s.sparing n }
  ((s.loseAgent ctxs n n inc.toNat (dieOfCore n)).strandAll n).logBox (dieOfCore n) 12 0x10 noCtx
    (BitVec.ofNat 64 (n + inc.toNat * 2 ^ 32)) 0 0

/-- The records that the engines of a lost die had still to write for stopping contexts are written with kind 0x10 (R409). -/
def State.keepRecords (s : State) (d : Nat) : State :=
  let one (c code : Nat) : List (Nat × StopRec) :=
    if 1024 ≤ code && code < 2048 && (code - 1024) / 64 == d then
      (if (s.matrixEng (code - 1024)).held.any (s.opOf c) then [(code, s.matrixRecord c (code - 1024) 0x10)] else [])
    else if 2048 ≤ code && code < 4096 && (code - 2048) / 64 == d then
      (if (s.copyEngine (code - 2048)).queue.any (·.ctx == c) || (s.copyEngine (code - 2048)).running.any (·.cmd.ctx == c) then
        [(code, s.copyRecord c (code - 2048) 0x10)] else [])
    else []
  (s.ctxs.filter (·.2.state == .stopping)).foldl (fun s kv =>
    s.setCtx kv.1 { s.ctx kv.1 with lostRecs := (s.ctx kv.1).lostRecs ++ kv.2.haltLeft.flatMap (one kv.1) }) s

/-- A die's failure is declared: every agent on it fails (R14, R406), and its functions have their self-tests to pass again before
it rejoins (R407, R412). -/
def State.failDie (s : State) (d : Nat) : State :=
  let on (c : Nat) : Bool := dieOfCore c == d
  let worlds := ((s.worlds.filter fun kv => kv.2.isOpen && worldDie kv.1 == d).map fun kv => kv.2.desc.ctx)
  let ctxs := (s.contextsOn on (fun e => e / 64 == d) ++ worlds).eraseDups
  let inc := (s.die d).inc
  let cores := (run (256 * d) 256).filter fun c => !(s.core c).failed
  let used := cores.filter fun c => s.groups.any fun kv => kv.2.core == c
  let lost := used.map (fun c => (c, (s.core c).inc.toNat))
    ++ (s.matrix.filter fun kv => kv.1 / 64 == d).map (fun kv => (matrixCode kv.1, inc.toNat))
    ++ (s.copyEng.filter fun kv => kv.1 / 64 == d).map (fun kv => (copyCode kv.1, inc.toNat))
  let logs := cores.map fun c => c + (s.core c).inc.toNat * 2 ^ 32
  let s := (s.purgeCores on).spoilDirty fun _ e => e == d
  let s := ((s.keepRecords d).haltOn on).loseDie d
  let s := (dieBits d).foldl (fun s b => s.setReady b false) s
  let s := s.loseAgent ctxs (seamCode d) d inc.toNat d
  let s := ctxs.foldl (fun s x => s.setCtx x { s.ctx x with lost := (s.ctx x).lost ++ lost }) s
  let s := s.strandAll (256 * d)
  (logs ++ [d + inc.toNat * 2 ^ 32]).foldl (fun s a => s.logBox d 12 0x10 noCtx (BitVec.ofNat 64 a) 0 0) s

/-- The halves that the host holds when it fails: any of their bytes may have been modified there (R235). A poisoning write
ends the reservations on its line (R249). -/
def State.spoilHalf (s : State) (half : Nat) : State :=
  (run (64 * half) 64).foldl (fun s a =>
    let d := s.draw
    if d.1 then { (d.2.loseReservations none [a / 128]) with mem := bankMark d.2.mem a true } else d.2) s

/-- FAILURE_DECLARATION (R406): a core, a die, a peer or the host is declared failed. -/
def execFailureDeclaration (agent : Agent) (s : State) : Out :=
  match agent with
  | .core n => if Config.coreCount ≤ n || (s.core n).failed then noEvent s else .next (s.failCore n)
  | .die d => if 4 ≤ d || (s.die d).failed then noEvent s else .next (s.failDie d)
  | .peer n => .next (s.failPeer n)
  | .host =>
    if s.host.lost then noEvent s
    else
      let s := (s.hostHalves.map (·.1)).foldl State.spoilHalf s
      .next (({ s with hostHalves := [], host := { s.host with lost := true } } : State).logBox 0 12 0 noCtx (BitVec.ofNat 64 (s.host.inc.toNat * 2 ^ 32)) 0 0)

/-- A core rejoins in service, empty, with the next incarnation (R407). -/
def State.rejoinCore (s : State) (n : Nat) : State :=
  let c := s.core n
  let s := s.setCore n { c with failed := false, alone := false, untested := false, inc := nextInc c.inc }
  s.logBox (dieOfCore n) 13 0 noCtx (BitVec.ofNat 64 (n + (nextInc c.inc).toNat * 2 ^ 32)) 0 0

/-- AGENT_REJOIN (R407): an agent whose self-test is done rejoins with the next incarnation; a core empty, a die with empty
directories and its cycle counter at 0. The cores of a die rejoin with it, but for those that had failed on their own, each of
which has its own self-test to pass. -/
def execAgentRejoin (agent : Agent) (s : State) : Out :=
  match agent with
  | .core n =>
    let d := dieOfCore n
    if !(s.core n).failed || (s.core n).untested || !(s.die d).powered || (s.die d).failed || !s.ready (8 + d) then noEvent s
    else .next (s.rejoinCore n)
  | .die d =>
    let x := s.die d
    if !x.failed || !x.powered || !(dieBits d).all s.ready then noEvent s
    else
      let s := (s.setDie d { x with failed := false, inc := nextInc x.inc }).restartClock d
      let s := ((run (256 * d) 256).filter fun c => !(s.core c).alone).foldl State.rejoinCore s
      .next (s.logBox d 13 0 noCtx (BitVec.ofNat 64 (d + (nextInc x.inc).toNat * 2 ^ 32)) 0 0)
  | .peer n =>
    let i := nextInc (smGet 1 s.host.peerInc n)
    if !smGet false s.host.peersLost n then noEvent s
    else
      let host := { s.host with peerInc := smSet 1 s.host.peerInc n i, peersLost := smSet false s.host.peersLost n false }
      .next (({ s with host := host } : State).logBox 0 13 0 noCtx (BitVec.ofNat 64 (n + i.toNat * 2 ^ 32)) 0 0)
  | .host =>
    let i := nextInc s.host.inc
    if !s.host.lost then noEvent s
    else .next (({ s with host := { s.host with inc := i, lost := false } } : State).logBox 0 13 0 noCtx (BitVec.ofNat 64 (i.toNat * 2 ^ 32)) 0 0)

/-! ## Power (R14, R406, R421) -/

/-- A port without power is down; a dead one stays dead until its die is reset (R416). -/
def Port.dark (p : Port) : Port := { p with state := if p.state = 3 then 3 else 0, peer := 0 }

/-- The bits of READY that fall with a die's power (R8, R412): its own; with die 0 the host port, the management core and the
device's single engines; and with the last die the bobbins (DEDUCED, log entry 74). -/
def State.darkBits (s : State) (d : Nat) : List Nat :=
  let others := (List.range Config.dieCount).filter fun e => e != d && (s.die e).powered
  dieBits d ++ (if d = 0 then [0, 1, 2, 3, 5, 6, 7] else []) ++ (if others.isEmpty then [4] else [])

/-- A die loses power: its functions are ready no more, its counter stands still, and its TLBs and island tables are lost
(R412, R12, R14), and so are its groups' registers. What else it held is gone with the declaration that follows (R406), and nothing runs on it until then. -/
def State.powerDown (s : State) (d : Nat) : State :=
  let s := (s.darkBits d).foldl (fun s b => s.setReady b false) s
  let s := (run (6 * d) 6).foldl (fun s p => (s.setPort p (s.port p).dark).setReady (24 + p) false) s
  let s := s.logBox d 14 0 noCtx (BitVec.ofNat 64 d) 0 0
  let s := (s.setDie d { s.die d with powered := false, islands := [], forwards := [] }).giveBack (· / 3 == d)
  let s := s.wipeGroups fun c => dieOfCore c == d
  { s with clusterTlb := s.clusterTlb.filter fun kv => kv.1 / 64 != d }

/-- DIE_POWER_LOSS (R14, R406): its agents' failure is declared in its turn. -/
def execDiePowerLoss (die : Nat) (s : State) : Out :=
  if 4 ≤ die || !(s.die die).powered then noEvent s else .next (s.powerDown die)

/-- THERMAL_TRIP (R421): a die that reaches its thermal trip loses power. -/
def execThermalTrip (die : Nat) (s : State) : Out :=
  if 4 ≤ die || !(s.die die).powered then noEvent s else .next (s.powerDown die)

/-- POWER_RESTORED (R408): a die whose agents' failure has been declared has power again. -/
def execPowerRestored (die : Nat) (s : State) : Out :=
  let d := s.die die
  if 4 ≤ die || d.powered || !d.failed then noEvent s
  else .next (((s.setDie die { d with powered := true }).restartClock die).logBox die 15 0 noCtx (BitVec.ofNat 64 die) 0 0)

/-- POWER_CAP_THROTTLE (R421, R12): a die lowers its core clock to keep its cap; its counter follows. -/
def execPowerCapThrottle (die divisor : Nat) (s : State) : Out :=
  if 4 ≤ die || divisor = 0 || !(s.die die).powered then noEvent s
  else .next (s.setDie die { s.die die with divisor := divisor })

/-- DIE_RESET (R12, R198, R416): a die without work, whose L2 holds no byte of another die's memory alone, comes out of reset: counter
0, L2 written back and invalid, cores, directories and tables empty, ports down, functions to be tested again. -/
def execDieReset (die : Nat) (s : State) : Out :=
  let d := s.die die
  let busy := s.groups.any (fun kv => !kv.2.evicted && dieOfCore kv.2.core == die)
    || s.matrix.any (fun kv => kv.1 / 64 == die && !kv.2.held.isEmpty)
    || s.copyEng.any (fun kv => kv.1 / 64 == die && !(kv.2.queue.isEmpty && kv.2.running.isEmpty))
    || s.worlds.any (fun kv => kv.2.isOpen && worldDie kv.1 == die)
    || s.l2dirty.any fun kv => kv.2.1 == die + 1
  if 4 ≤ die || !d.powered || d.failed || busy then noEvent s
  else
    let s := (dieBits die).foldl (fun s b => s.setReady b false) s
    let s := (run (6 * die) 6).foldl (fun s p => (s.setPort p Port.reset).setReady (24 + p) false) s
    let s := (List.range 256).foldl (fun s i =>
      let c := s.core (256 * die + i)
      s.setCore (256 * die + i) { CoreSt.reset with spareUsed := c.spareUsed, retired := c.retired, inc := c.inc }) s
    let s := s.setDie die { s.die die with islands := [], forwards := [], divisor := 1 }
    let s : State := { s with
      l2home := s.l2home.filter fun kv => homeDie (128 * kv.1) != die
      reservations := s.reservations.filter fun (r : Reservation) => homeDie (128 * r.line) != die
      tenures := s.tenures.filter fun (t : Tenure) => t.anchor / 64 != die
      clusterTlb := s.clusterTlb.filter fun kv => kv.1 / 64 != die }
    .next (s.restartClock die)

/-- STANDBY_POWER_LOSS (R14): the black-box areas of dies without power are lost. -/
def execStandbyPowerLoss (s : State) : Out :=
  .next ((List.range 4).foldl (fun s d =>
    if (s.die d).powered then s else s.setDie d { s.die d with box := [], boxSeq := 0 }) s)

/-- FIRMWARE_ERROR (R392, R419): firmware fails on one of the die's bobbins, freely chosen. It is recorded, and the event that the
bobbin was handling is given to another. -/
def execFirmwareError (die : Nat) (s : State) : Out :=
  if 4 ≤ die || !(s.die die).powered then noEvent s
  else
    let b := 3 * die + Config.freePick s.fresh % 3
    .next ((({ s with fresh := s.fresh + 1 } : State).giveBack (· == b)).logBox die 16 0 noCtx (BitVec.ofNat 64 die) 0 0)

end Sys2Proof.Machine
end

