-- ==== Sys2Proof/Machine/HostIf.lean ====
section
/-!
DEFINITION. The device's edges to the host and to peers: CXL.mem accesses and half-line ownership (R234, R410), fabric
flits and jobs (R417, R418), and the register block (R411, R413, R416).
-/

namespace Sys2Proof.Machine

/-! ## CXL.mem (R234, R325, R410) -/

/-- The memory of an address answers the host: the link is up, and the die's memory is ready and has power (R410, R412);
messages of a host whose failure has been declared are dropped (R236). -/
def State.hostReaches (s : State) (pa : Nat) : Bool :=
  s.ready 1 && s.memUp pa && s.ready (16 + homeDie pa) && !s.host.lost

/-- The bytes of a half that go to the host. -/
def State.answerHost (s : State) (bs : List (Byte × Bool)) : State := { s with host := { s.host with answer := bs } }

/-- HOST_MEM_READ (R234, R325, R410): the host takes a half of a line, and intrudes on a tenure as a reader. A die whose
memory is not ready answers with poison. -/
def execHostMemRead (pa : Nat) (s : State) : Out :=
  let first := 64 * (pa / 64)
  let bytes := run first 64
  if !s.ready 1 || s.host.lost then noEvent s
  else if !s.hostReaches pa then .next (s.answerHost (List.replicate 64 (0, true)))
  else if s.intrudeWaits none bytes then .next (s.callBack none bytes)
  else
    let s := s.intrude none bytes false
    .next (({ s with hostHalves := smSet false s.hostHalves (pa / 64) true } : State).answerHost (s.outsideRead first 64))

/-- The host gives up a half. -/
def State.giveUp (s : State) (half : Nat) : State := { s with hostHalves := smSet false s.hostHalves half false }

/-- A write by the host waits: for the recall of a tenure (R325); of a half that it holds, only as `giveUpWaits` says (R234). -/
def State.hostWriteWaits (s : State) (half : Nat) (pas : List Nat) : Bool :=
  if smGet false s.hostHalves half then s.giveUpWaits pas else s.intrudeWaits none pas

/-- HOST_MEM_WRITE (R234, R325): the host writes bytes of one half, and gives the half up where it held it. A write to a die whose
memory is not ready is dropped. -/
def execHostMemWrite (pa : Nat) (bytes : List Byte) (s : State) : Out :=
  let pas := run pa bytes.length
  if 64 < pa % 64 + bytes.length then noEvent s
  else if !s.hostReaches pa then .next s
  else if s.hostWriteWaits (pa / 64) pas then .next (s.callBack none pas)
  else .next ((s.outsideWrite (wbytes pa bytes)).giveUp (pa / 64))

/-- BACK_INVALIDATE (R234): the home takes a half back from the host, which writes back its dirty bytes by mask. -/
def execBackInvalidate (half : Nat) (dirty : List (Nat × Byte)) (s : State) : Out :=
  let pas := dirty.map fun p => 64 * half + p.1
  if !smGet false s.hostHalves half || s.host.lost || dirty.any (fun p => 64 ≤ p.1) then noEvent s
  else if s.giveUpWaits pas then .next (s.callBack none pas)
  else if dirty.isEmpty then .next (s.giveUp half)
  else .next ((s.outsideWrite (dirty.map fun p => ⟨64 * half + p.1, p.2, false⟩)).giveUp half)

/-! ## Fabric (R416 to R418) -/

/-- A port's status register (R416). -/
def Port.status (p : Port) : Nat :=
  p.state.toNat + p.spare.toNat * 4 + p.lsn.toNat * 8 + p.peer.toNat * 2 ^ 32

/-- The up ports of a mask. -/
def State.upPorts (s : State) (mask : BitVec 24) : List Nat :=
  (List.range 24).filter fun p => mask.getLsbD p && (s.port p).state == 2

/-- The lines of a job (R417, R418). -/
def Job.lines (j : Job) : Nat := j.len / 128

/-- A flit that arrives on a port brings a job's next line. -/
def Job.takes (j : Job) (port pa : Nat) : Bool :=
  j.pull && j.ports.getLsbD port && j.linesDone < j.lines && pa == j.localBase + 128 * j.linesDone

/-- A flit is dropped on arrival: it bears an old link-state number (R405), or an incarnation of its peer that has been retired, or
that peer's failure stands declared (R236, R407). -/
def State.flitDropped (s : State) (port : Nat) (f : FlitHead) : Bool :=
  let p := s.port port
  f.lsn != p.lsn || f.inc != smGet 1 s.host.peerInc p.peer.toNat || smGet false s.host.peersLost p.peer.toNat

/-- A flit's line is written at its home, poison marked. The line of a restore comes as its image has it, encrypted under its page's
key, and stands so until it is accessed through a leaf (R418): HBM holds it, and no L2 does. -/
def State.putFlit (s : State) (port pa : Nat) (bytes : List (Byte × Bool)) : State :=
  let ws := bytes.zipIdx.map fun q => (⟨pa + q.2, q.1.1, q.1.2⟩ : WByte)
  if s.memUp pa && s.host.jobs.any fun kv => kv.2.ckpt && kv.2.takes port pa then
    let s := (s.outsideWrite ws).dropL2 (pa / 128)
    { s with lineKeys := smPut s.lineKeys (pa / 128) .raw }
  else s.outsideWrite ws

/-- A job has moved the line of a flit (R417). -/
def State.countFlit (s : State) (port pa : Nat) : State :=
  let jobs := smMap (fun _ (j : Job) => if j.takes port pa then { j with linesDone := j.linesDone + 1 } else j) s.host.jobs
  { s with host := { s.host with jobs := jobs } }

/-- A port counts a flit of which errors have been corrected on arrival (R381). -/
def State.countCorrected (s : State) (port : Nat) (corrected : Bool) : State :=
  if corrected then s.setPort port { s.port port with fcor := satAdd (s.port port).fcor 1 } else s

/-- A port accepts a flit (R405). -/
def State.acceptFlit (s : State) (port : Nat) (corrected : Bool) : State :=
  let s := s.countCorrected port corrected
  s.setPort port { s.port port with acceptAt := (s.die (dieOfPort port)).cycle.toNat }

/-- PEER_FLIT (R325, R381, R417): a whole line's flit from a peer is written at its home; a flit without bytes reads the line. A write
to a die without power is dropped (R406). A flit that is dropped on arrival has been counted where errors of it were corrected (R381). -/
def execPeerFlit (port pa : Nat) (bytes : List (Byte × Bool)) (head : FlitHead) (s : State) : Out :=
  if 24 ≤ port || (s.port port).state ≠ 2 || pa % 128 ≠ 0 || Config.physEnd ≤ pa
      || (bytes.length ≠ 0 && bytes.length ≠ 128) then noEvent s
  else if s.flitDropped port head then .next (s.countCorrected port head.corrected)
  else if s.intrudeWaits none (run pa 128) then .next (s.writeRecall pa 128)
  else if !bytes.isEmpty && s.hostHolds [pa, pa + 64] then noEvent s
  else
    let s := s.acceptFlit port head.corrected
    if bytes.isEmpty then .next (s.intrude none (run pa 128) false)
    else
      .next ((s.putFlit port pa bytes).countFlit port pa)

/-- A job ends (R417, R418): its number goes to its job word, with bit 63 where no port was left. -/
def State.endJob (s : State) (slot : Nat) (j : Job) (lost : Bool) : State :=
  let s := s.hostPut j.jobWord.toNat (leBytes 8 (j.num + if lost then 2 ^ 63 else 0))
  { s with host := { s.host with jobs := smDel s.host.jobs slot } }

/-- A running job of a slot: it is complete when its lines have been moved; without a port of its mask that is up it ends before
that. Lines that are pushed are read at their homes (R325), and the job is complete in its turn. -/
def completeJob (ckpt : Bool) (slot : Nat) (s : State) : Out :=
  match smFind s.host.jobs slot with
  | none => noEvent s
  | some j =>
    if j.ckpt != ckpt then noEvent s
    else if j.lines ≤ j.linesDone then .next (s.endJob slot j false)
    else if (s.upPorts j.ports).isEmpty then .next (s.endJob slot j true)
    else if j.pull then noEvent s
    else
      let top := j.localBase + j.len
      let met (t : Tenure) : Bool := t.write && t.lines.any fun l => j.localBase ≤ 128 * l + 127 && 128 * l < top
      let mark (f : Tenure → Tenure) (s : State) : State := { s with tenures := s.tenures.map fun t => if met t then f t else t }
      let hit := s.tenures.filter met
      if (s.recalled hit).any fun t => t.write && s.recallHeld t then .next (mark (fun t => { t with recalling := true }) s)
      else
        let s := mark (fun t => { t with write := false, recalling := false }) (s.recallAll hit)
        .next { s with host := { s.host with jobs := smPut s.host.jobs slot { j with linesDone := j.lines } } }

/-- XFER_JOB_COMPLETE (R417). -/
def execXferJobComplete (slot : Nat) (s : State) : Out := completeJob false slot s
/-- CKPT_JOB_COMPLETE (R418). -/
def execCkptJobComplete (slot : Nat) (s : State) : Out := completeJob true slot s

/-! ## The register block (R411, R413) -/

/-- A queue is active: its STATE is 0 (R283, R411). -/
def State.queueActive (s : State) : Bool := s.stateSet.any fun kv => s.queueState kv.1 == 0

/-- QDESC is written (R411): a descriptor at the new base has been written where it is not as memory nothing has written (log
entry 73). -/
def State.setQdesc (s : State) (v : W64) : State :=
  let s : State := { s with host := { s.host with qdesc := v &&& ~~~0xFFFF } }
  let mark (m : SMap Bool) (q : Nat) : SMap Bool := if (run 0 8).all fun i => s.queueWord q i == 0 then m else smPut m q true
  { s with stateSet := (List.range 1024).foldl mark [] }

/-- CMDSTAT (R413). -/
def HostSt.cmdstat (h : HostSt) : Nat :=
  h.busy.toNat + h.status.toNat * 2 ^ 8 + h.ovr.toNat * 2 ^ 16 + h.completions.toNat * 2 ^ 32

/-- What a read of the register block gives (R411): a doorbell and an offset not listed read 0. -/
def State.hostRegister (s : State) (off : Nat) : W64 :=
  let h := s.host
  if off = 0 then h.ready
  else if off = 0x20 then h.qdesc
  else if off = 0x28 then h.ctxbase
  else if 0x40 ≤ off && off < 0x80 && off % 8 = 0 then h.cmd.getD ((off - 0x40) / 8) 0
  else if off = 0x88 then BitVec.ofNat 64 h.cmdstat
  else if 0x100 ≤ off && off < 0x1C0 && off % 8 = 0 then BitVec.ofNat 64 (s.port ((off - 0x100) / 8)).status
  else 0

/-- A command doorbell: the window is latched while no command runs, and otherwise the write only sets OVR (R413). -/
def State.commandDoorbell (s : State) : State :=
  let h := s.host
  if h.busy then { s with host := { h with ovr := true } }
  else
    let w := h.cmd.getD 0 0
    { s with host := { h with busy := true, command := some ⟨w.toNat % 256, (h.cmd.drop 1).take 5⟩ } }

/-- HOST_REGISTER_WRITE (R411): a write of a register; a doorbell's event follows at once. -/
def execHostRegisterWrite (off : Nat) (value : W64) (s : State) : Out :=
  let h := s.host
  let v := value.toNat
  let then_ (i : Instr) : Out := .next { s with agenda := i :: s.agenda }
  if !s.ready 0 || h.lost then .next s
  else if off = 0x08 then then_ (.queueDoorbell (v % 1024))
  else if off = 0x10 then then_ (.syscallReply (v % 256) (nfld v 31 16))
  else if off = 0x18 then
    let c := nfld v 23 16
    match s.answerOf c (v % 65536) with
    | 1 => then_ (.faultRetry c (v % 65536))
    | 2 => then_ (.faultDeny c (v % 65536))
    | _ => .next s
  else if off = 0x20 then .next (if s.queueActive then s else s.setQdesc value)
  else if off = 0x28 then
    if s.ctxs.any fun kv => kv.2.state == .enabled then .next s
    else .next { s with host := { h with ctxbase := value &&& ~~~0x3FFF } }
  else if 0x40 ≤ off && off < 0x80 && off % 8 = 0 then
    .next { s with host := { h with cmd := setAt 0 h.cmd ((off - 0x40) / 8) value } }
  else if off = 0x80 then .next s.commandDoorbell
  else .next s

/-- COMMAND_OVERRUN (R413): a command doorbell while a command runs sets OVR. -/
def execCommandOverrun (s : State) : Out :=
  if s.host.busy then .next s.commandDoorbell else noEvent s

end Sys2Proof.Machine
end

