-- ==== Sys2Proof/Machine/Commands.lean ====
section
/-!
DEFINITION. The device commands (R413 to R421).
-/

namespace Sys2Proof.Machine

/-! ## The frame of a command (R413) -/

/-- What a command answers: the state after its effect, its status, RES0 and RES1. -/
structure Answer where
  s : State
  status : Nat
  res0 : W64 := 0
  res1 : W64 := 0

/-- A command ends (R413): results, status, completion count, BUSY. -/
def State.finishCommand (s : State) (status : Nat) (res0 res1 : W64) : State :=
  let h := s.host
  { s with host := { h with cmd := setAt 0 (setAt 0 h.cmd 6 res0) 7 res1
                            status := BitVec.ofNat 8 status
                            completions := h.completions + 1
                            busy := false
                            command := none } }

/-- A latched command of an OP is performed as a whole; `act` answers none where it has to wait. -/
def runCommand (op : Nat) (act : State → (Nat → Nat) → Option Answer) (s : State) : Out :=
  match s.host.command with
  | none => noEvent s
  | some c =>
    if c.op ≠ op || s.host.inval.isSome then noEvent s
    else match act s fun i => (c.args.getD i 0).toNat with
      | none => noEvent s
      | some a => .next (a.s.finishCommand a.status a.res0 a.res1)

/-- Status 1: a function that the command needs is not ready (R412). Status 2: a bad argument. Status 3: refused. -/
def notReady (s : State) : Option Answer := some ⟨s, 1, 0, 0⟩
def badArg (s : State) : Option Answer := some ⟨s, 2, 0, 0⟩
def refused (s : State) : Option Answer := some ⟨s, 3, 0, 0⟩
def done (s : State) : Option Answer := some ⟨s, 0, 0, 0⟩

/-! ## Contexts (R414) -/

/-- CTXEN. -/
def execCtxen (s : State) : Out :=
  runCommand 0x01 (fun s a =>
    if !s.ready 5 then notReady s
    else if 256 ≤ a 0 || a 1 % 2 ^ 22 != 0 || a 2 % 2 ^ 14 != 0 then badArg s
    else if (s.ctx (a 0)).state ≠ .free then refused s
    else done (s.setCtx (a 0) { Ctx.reset with state := .enabled, htBase := BitVec.ofNat 64 (a 1),
                                               sqBase := BitVec.ofNat 64 (a 2) })) s

/-- A world is closed and its island and forwarding entries are freed (R414, R339). -/
def State.closeWorld (s : State) (w : Nat) : State :=
  let d := s.die (worldDie w)
  let mine (e : Island) : Bool := e.world == w % 1024 && e.state != 0
  let islands := d.islands.filterMap fun kv =>
    let e := if mine kv.2 then kv.2.freed else kv.2
    if e = Island.reset then none else some (kv.1, e)
  let s := s.setDie (worldDie w) { d with islands := islands, forwards := d.forwards.filter fun f => f.2.2 != w }
  s.setWorld w World.reset

/-- No active queue, started packet, group, waiting team, copy, pass or world close of a context is left (R414). -/
def State.quiet (s : State) (c : Nat) : Bool :=
  !((List.range 1024).any fun q => s.queueCtx q == c && s.queueState q == 0)
    && !(s.queues.any fun kv => s.queueCtx kv.1 == c && kv.2.started.any (!·.retired))
    && !(s.groups.any fun kv => kv.2.ctx == c)
    && !(s.teams.any fun kv => kv.2.ctx == c && kv.2.waits)
    && !(s.copyEng.any fun kv => kv.2.queue.any (·.ctx == c) || kv.2.running.any fun r => r.cmd.ctx == c)
    && !(s.matrix.any fun kv => kv.2.held.any (s.opOf c))
    && !(s.worlds.any fun kv => kv.2.desc.ctx == c && kv.2.closing)

/-- The typed buffers no longer hold a context's bytes: the next team to take them there finds them zero, whatever context has
the number by then (R199, R204). -/
def State.forgetBuffers (s : State) (c : Nat) : State :=
  { s with cores := s.cores.filterMap fun kv =>
      let d : CoreSt := if kv.2.bufCtx = some c then { kv.2 with bufCtx := none } else kv.2
      if d = CoreSt.reset then none else some (kv.1, d) }

/-- Everything that the device holds of a context goes (R414). -/
def State.dropContext (s : State) (c : Nat) : State :=
  let worlds := (s.worlds.filter fun kv => kv.2.isOpen && kv.2.desc.ctx == c).map (·.1)
  let queues := (s.queues.filter fun kv => s.queueCtx kv.1 == c).map (·.1)
  let closed := (s.teams.filter fun kv => kv.2.ctx == c).map (·.1)
  let s := closed.foldl State.reopen s
  let s := worlds.foldl State.closeWorld s
  let s := queues.foldl (fun s q => s.setQueue q QueueSt.reset) s
  let out (o : OutLine) : Bool := (s.group? o.gid).any fun g => g.ctx == c
  let cores := (s.cores.filter fun kv => kv.2.outbound.any out).map (·.1)
  let s := cores.foldl (fun s n => s.drainLines n out) s
  let s := s.forgetBuffers c
  State.closeWaiting
  { s with groups := s.groups.filter fun kv => kv.2.ctx != c
           teams := s.teams.filter fun kv => kv.2.ctx != c
           grids := s.grids.filter fun kv => kv.2.ctx != c
           tenures := s.tenures.filter fun (t : Tenure) => t.ctx != c
           tenureReqs := s.tenureReqs.filter fun (t : TenureReq) => t.ctx != c
           walks := s.walks.filter fun (w : Walk) => w.ctx != c
           ctxs := smDel s.ctxs c }

/-- CTXREL. A context with a fault that has reached the management core is not enabled any more: its line is raised (R394). -/
def execCtxrel (s : State) : Out :=
  runCommand 0x02 (fun s a =>
    if !s.ready 5 then notReady s
    else if 256 ≤ a 0 then badArg s
    else match (s.ctx (a 0)).state with
      | .stopped => done (s.dropContext (a 0))
      | .enabled =>
        if s.quiet (a 0) && (s.ctx (a 0)).stopFaults.isEmpty then done (s.dropContext (a 0)) else refused s
      | _ => refused s) s

/-- CTXSTOP (R394). The line of a context with a fault that has reached the management core counts as raised. -/
def execCtxstop (s : State) : Out :=
  runCommand 0x03 (fun s a =>
    if !s.ready 3 then notReady s
    else if 256 ≤ a 0 then badArg s
    else match (s.ctx (a 0)).state with
      | .enabled =>
        if (s.ctx (a 0)).stopFaults.isEmpty then done (s.raiseManaged (a 0) 0x0D (a 1) 0 0) else some ⟨s, 0, 1, 0⟩
      | .stopping => some ⟨s, 0, 1, 0⟩
      | .stopped => some ⟨s, 0, 1, 0⟩
      | .free => refused s) s

/-! ## Translation and keys (R215, R420) -/

/-- A TLB entry maps a page of a range. -/
def TlbEntry.meets (e : TlbEntry) (lo hi : Nat) : Bool :=
  let base := e.va / 2 ^ e.size * 2 ^ e.size
  base < 4096 * hi && 4096 * lo < base + 2 ^ e.size

/-- A buffered or fixed line lies in a range of pages. -/
def lineMeets (lo hi vline : Nat) : Bool := lo ≤ vline / 32 && vline / 32 < hi

/-- INVAL (R215): every TLB drops the range's entries; the command ends when nothing of the old translations is left. -/
def execInval (s : State) : Out :=
  match s.host.command with
  | none => noEvent s
  | some c =>
    let a (i : Nat) : Nat := (c.args.getD i 0).toNat
    if c.op ≠ 0x04 || s.host.inval.isSome then noEvent s
    else if 256 ≤ a 0 || a 2 % 4096 != 0 || Config.virtEnd < a 1 + a 2 then .next (s.finishCommand 2 0 0)
    else
      let lo := a 1 / 4096
      let hi := (a 1 + a 2 + 4095) / 4096
      let s := s.dropTlb (a 0) (·.meets lo hi)
      let held := (s.groups.filter fun kv => kv.2.ctx == a 0 &&
        kv.2.buf.any fun b => b.space == .g && lineMeets lo hi b.vline).map fun kv => (kv.1, kv.2.regionNo)
      let v : Inval := ⟨a 0, lo, hi, (List.range 4).map fun d => (s.die d).cycle.toNat, held, s.walks.map (·.id)⟩
      .next { s with host := { s.host with inval := some v } }

/-- An invalidation has ended (R215). -/
def State.invalDone (s : State) (v : Inval) : Bool :=
  let old (p : Nat × Nat) : Bool := (s.group? p.1).any fun g => g.regionNo == p.2 && g.holdsRange v
  let fixed (o : OutLine) : Bool :=
    o.space == .g && lineMeets v.lo v.hi o.vline && (s.group? o.gid).any fun g => g.ctx == v.ctx
  !(s.walks.any fun w => v.walks.contains w.id) && !(v.held.any old)
    && !(s.cores.any fun kv => kv.2.outbound.any fixed)
    && !(s.groups.any fun kv => kv.2.ctx == v.ctx && kv.2.late.any fun b => b.space == .g && lineMeets v.lo v.hi b.vline)

/-- INVAL_COMPLETE (R215, R414). -/
def execInvalComplete (s : State) : Out :=
  match s.host.inval with
  | none => noEvent s
  | some v =>
    if s.invalDone v then .next (({ s with host := { s.host with inval := none } } : State).finishCommand 0 0 0)
    else noEvent s

/-- KEYLD (R420): 64 bytes of host memory are the slot's data key and tweak key. What an L2 holds dirty of the slot is written back
under the old key first. -/
def execKeyld (key : BitVec 512) (s : State) : Out :=
  runCommand 0x05 (fun s a =>
    if !s.ready 6 || !s.ready 2 then notReady s
    else if a 0 = 0 || 128 ≤ a 0 then badArg s
    else done (s.loadKey (a 0) key)) s

/-- KEYCLR (R420): the slot's dirty lines are written back, and the slot is emptied. -/
def execKeyclr (s : State) : Out :=
  runCommand 0x06 (fun s a =>
    if !s.ready 6 then notReady s
    else if a 0 = 0 || 128 ≤ a 0 then badArg s
    else done (s.clearKey (a 0))) s

/-! ## Worlds (R337, R29, R414) -/

/-- The fields of a world descriptor (R337). -/
def WorldDesc.ofNat (v : Nat) : WorldDesc :=
  { ctx := nfld v 7 0, nbody := nfld v 28 8, panel := nfld v 39 29, gallot := nfld v 45 40, crow := nfld v 55 46,
    stilln := nfld v 63 56, body := nfld v 120 64, grec := nfld v 184 128, stepsig := nfld v 248 192,
    entry := BitVec.ofNat 64 (nfld v 312 256), linv := BitVec.ofNat 32 (nfld v 351 320),
    angv := BitVec.ofNat 32 (nfld v 383 352), queue := nfld v 393 384, seama := nfld v 421 394,
    elog2 := nfld v 426 422, tbuf := v.testBit 427 }

/-- An FP32 threshold is positive and finite. -/
def goodSpeed (b : BitVec 32) : Bool := 0#32 < b && b < 0x7F800000#32

/-- A world descriptor breaks a range of R337. -/
def worldDescBad (v : Nat) : Bool :=
  let d := WorldDesc.ofNat v
  d.nbody < 1 || 2 ^ 20 < d.nbody || d.panel < 4 || 1024 < d.panel || d.gallot < 1 || 32 < d.gallot || 640 < d.crow
    || d.stilln < 1 || d.body % 128 != 0 || d.grec % 64 != 0 || Config.virtEnd < d.grec + 64 * d.nbody || d.stepsig % 8 != 0 || d.entry.toNat % 32 != 0
    || !goodSpeed d.linv || !goodSpeed d.angv || d.elog2 < 10 || 24 < d.elog2
    || nfld v 511 428 != 0 || nfld v 319 313 != 0 || nfld v 255 249 != 0 || nfld v 191 185 != 0 || nfld v 127 121 != 0

/-- The reason for which a world is refused: its descriptor, then its largest gang's shape (R29, R337). -/
def State.worldRefusal (s : State) (v : Nat) : Option Nat :=
  let d := WorldDesc.ofNat v
  if worldDescBad v then some 0x21 else s.shapeRefusal (d.gangShape 1024) (s.queueDies d.queue)

/-- WOPEN. -/
def execWopen (s : State) : Out :=
  runCommand 0x07 (fun s a =>
    if 4 ≤ a 0 || 1024 ≤ a 1 || Config.physEnd < a 2 + 64 then badArg s
    else if !s.ready (20 + a 0) then notReady s
    else
      let w := 1024 * a 0 + a 1
      if (s.world w).isOpen then refused s
      else
        let v := s.physNat (a 2) 64
        match s.worldRefusal v with
        | some r => some ⟨s, 0, BitVec.ofNat 64 r, 0⟩
        | none => done (s.setWorld w { World.reset with isOpen := true, desc := WorldDesc.ofNat v })) s

/-- WCLOSE (R414): every STEPC of the world returns 2 from now on. -/
def execWclose (s : State) : Out :=
  match s.host.command with
  | none => noEvent s
  | some c =>
    let w := (c.args.getD 0 0).toNat
    if c.op ≠ 0x08 then noEvent s
    else if 4096 ≤ w then .next (s.finishCommand 2 0 0)
    else if !s.ready (20 + w / 1024) then .next (s.finishCommand 1 0 0)
    else if !(s.world w).isOpen then .next (s.finishCommand 3 0 0)
    else if (s.world w).ending then noEvent s
    else .next (s.setWorld w { s.world w with ending := true })

/-- A running close has ended, its gangs have retired, and its step signal is stored (R347, R348, R414). -/
def State.worldIdle (s : State) (w : Nat) : Bool :=
  let x := s.world w
  let stopped := (s.ctx x.desc.ctx).state == .stopped || (s.ctx x.desc.ctx).state == .free
  !x.closing && (stopped || s.worldCounter w == 0) && x.sigDue.isNone

/-- WCLOSE_COMPLETE (R414). -/
def execWcloseComplete (s : State) : Out :=
  match s.host.command with
  | none => noEvent s
  | some c =>
    let w := (c.args.getD 0 0).toNat
    if c.op ≠ 0x08 || !(s.world w).ending || !s.worldIdle w then noEvent s
    else .next ((s.closeWorld w).finishCommand 0 0 0)

/-! ## Settings, counters, retirement (R292, R381, R402, R421) -/

/-- SETQ (R292): the quantum from the next one on. -/
def execSetq (s : State) : Out :=
  runCommand 0x09 (fun s a =>
    if !s.ready 4 then notReady s
    else if a 0 < 16 || 24 < a 0 then badArg s
    else done { s with host := { s.host with qexpNext := a 0 } }) s

/-- CLRERR (R381): the named counters of a core (mask bits 0 to 2: ECOR, EUNC, EREC) or of a port (bits 3 and 4: FCOR,
FRPL) become 0. -/
def execClrerr (s : State) : Out :=
  runCommand 0x0A (fun s a =>
    let m := a 1
    let core := m % 8 != 0
    let port := m / 8 != 0
    if 32 ≤ m || (core && 1024 ≤ a 0) || (port && 24 ≤ a 0) then badArg s
    else
      let z (b : Nat) (v : BitVec 32) : BitVec 32 := if m.testBit b then 0 else v
      let c := s.core (a 0)
      let s := if core then s.setCore (a 0) { c with ecor := z 0 c.ecor, eunc := z 1 c.eunc, erec := z 2 c.erec } else s
      let p := s.port (a 0)
      done (if port then s.setPort (a 0) { p with fcor := z 3 p.fcor, frpl := z 4 p.frpl } else s)) s

/-- SETTHR (R402). -/
def execSetthr (s : State) : Out :=
  runCommand 0x0B (fun s a =>
    if !s.ready 3 then notReady s
    else if a 0 < 1 || 2 ^ 32 ≤ a 0 then badArg s
    else done { s with host := { s.host with eunThr := BitVec.ofNat 32 (a 0) } }) s

/-- RETIRE (R402, R403): a core by its number, a copy engine by 1,024 and a matrix engine by 2,048 more. It waits while a
context is being stopped (R409). -/
def execRetire (s : State) : Out :=
  runCommand 0x0C (fun s a =>
    let n := a 0
    if !s.ready 3 then notReady s
    else if n < 1024 then
      if (s.core n).retired || (s.core n).failed then refused s else if s.stopping then none else done (s.retireCore n)
    else if n < 1280 then
      if (s.copyEngine (n - 1024)).retired then refused s else if s.stopping then none else done (s.retireCopy (n - 1024))
    else if 2048 ≤ n && n < 2304 then
      if (s.matrixEng (n - 2048)).retired then refused s
      else if s.stopping then none else done (s.retireMatrix (n - 2048) false)
    else badArg s) s

/-- PWRCAP (R421). -/
def execPwrcap (s : State) : Out :=
  runCommand 0x11 (fun s a =>
    if 4 ≤ a 0 || a 1 < 300 || 1300 < a 1 then badArg s
    else done (s.setDie (a 0) { s.die (a 0) with cap := a 1 })) s

/-! ## Reports to the host (R408, R419) -/

/-- A bitmap of numbers below `8 * n`. -/
def bitmapBytes (n : Nat) (f : Nat → Bool) : List Byte :=
  (List.range n).map fun i => BitVec.ofNat 8 ((List.range 8).foldl (fun v b => if f (8 * i + b) then v + 2 ^ b else v) 0)

/-- The number of a context's state (R419). -/
def ctxCode (c : CtxState) : Nat :=
  match c with
  | .free => 0
  | .enabled => 1
  | .stopping => 2
  | .stopped => 3

/-- The snapshot of SUMMARY (R419). -/
def State.summary (s : State) : List Byte :=
  let h := s.host
  let active (c : Nat) : Nat := ((List.range 1024).filter fun q => s.queueCtx q == c && s.queueState q == 0).length
  let head := leBytes 8 h.ready.toNat ++ leBytes 8 h.completions.toNat ++ leBytes 8 h.qexp ++ leBytes 8 h.eunThr.toNat
    ++ List.replicate 32 0
  let cores := bitmapBytes 128 fun n => (s.core n).retired
  let engines := bitmapBytes 32 fun n => (s.matrixEng n).retired
  let ctxs := (List.range 256).flatMap fun c =>
    leBytes 4 (ctxCode (s.ctx c).state) ++ leBytes 4 (s.ctx c).stopSeq ++ leBytes 8 (active c)
  let queues := (List.range 1024).flatMap fun q =>
    leBytes 4 (s.queueRead q) ++ leBytes 4 (s.queueWrite q) ++ leBytes 4 (s.queueState q)
      ++ leBytes 4 (s.queue q).resident.toNat
  let ports := (List.range 24).flatMap fun p => leBytes 8 (s.port p).status
  let jobs := (List.range 4).flatMap fun i => match smFind h.jobs i with
    | some j => leBytes 4 j.num ++ leBytes 4 (j.ckpt.toNat + 2 ^ 8) ++ leBytes 8 j.linesDone
    | none => List.replicate 16 0
  head ++ cores ++ engines ++ List.replicate 32 0 ++ ctxs ++ queues ++ ports ++ jobs

/-- SUMMARY (R419). -/
def execSummary (s : State) : Out :=
  runCommand 0x0D (fun s a =>
    if !s.ready 2 then notReady s
    else if a 0 % 64 != 0 then badArg s
    else done (s.hostPut (a 0) s.summary)) s

/-- BBREAD (R408, R414): the records with `count` event numbers from the first on, modulo 2^32. -/
def execBbread (s : State) : Out :=
  runCommand 0x0E (fun s a =>
    if !s.ready 2 || !s.ready 3 then notReady s
    else if 4 ≤ a 0 || 2 ^ 32 ≤ a 1 || a 2 < 1 || 4096 < a 2 then badArg s
    else
      let rs := (s.die (a 0)).box.filter fun b => decide ((b.seq - BitVec.ofNat 32 (a 1)).toNat < a 2)
      some ⟨s.hostPut (a 3) (rs.flatMap BlackBox.bytes), 0, BitVec.ofNat 64 rs.length, 0⟩) s

/-! ## Jobs (R417, R418) -/

/-- A job starts, where fewer than four run; RES0 is its number (R417). -/
def State.startJob (s : State) (j : Job) : Option Answer :=
  let h := s.host
  match (List.range 4).find? fun i => (smFind h.jobs i).isNone with
  | none => refused s
  | some i =>
    let host := { h with jobs := smPut h.jobs i { j with num := h.nextJob }, nextJob := h.nextJob + 1 }
    some ⟨{ s with host := host }, 0, BitVec.ofNat 64 h.nextJob, 0⟩

/-- XFER (R417). -/
def execXfer (s : State) : Out :=
  runCommand 0x0F (fun s a =>
    let mask := BitVec.ofNat 24 (a 0)
    let len := nfld (a 3) 39 0
    if !s.ready 2 || (a 0 < 2 ^ 24 && (s.upPorts mask).isEmpty) then notReady s
    else if 2 ^ 24 ≤ a 0 || nfld (a 3) 62 40 != 0 || len % 128 != 0 || a 1 % 128 != 0 || Config.physEnd < a 1 + len then
      badArg s
    else s.startJob { num := 0, ckpt := false, ports := mask, localBase := a 1, peerBase := BitVec.ofNat 64 (a 2),
                      len := len, pull := (a 3).testBit 63, jobWord := BitVec.ofNat 64 (a 4), linesDone := 0 }) s

/-- CKPT (R418). -/
def execCkpt (s : State) : Out :=
  runCommand 0x10 (fun s a =>
    let mask := BitVec.ofNat 24 (a 0)
    if !s.ready 7 || !s.ready 2 || (s.upPorts mask).length < 4 then notReady s
    else if 2 ^ 24 ≤ a 0 || a 3 % 2 ^ 63 != 0 then badArg s
    else s.startJob { num := 0, ckpt := true, ports := mask, localBase := 0, peerBase := BitVec.ofNat 64 (a 1),
                      len := Config.physEnd, pull := (a 3).testBit 63, jobWord := BitVec.ofNat 64 (a 4),
                      linesDone := 0 }) s

/-- UNKNOWN_COMMAND (R414): any other OP gives status 4. -/
def execUnknownCommand (s : State) : Out :=
  match s.host.command with
  | none => noEvent s
  | some c => if 1 ≤ c.op && c.op ≤ 0x11 then noEvent s else .next (s.finishCommand 4 0 0)

end Sys2Proof.Machine
end

