-- ==== Sys2Proof/Machine/Dispatch.lean ====
section
/-! DEFINITION. The dispatch: one arm for each constructor of Instr, one call of its meaning. -/

namespace Sys2Proof.Machine

/-- What one instruction, event, packet or command does. -/
def exec (i : Instr) (s : State) : Host.Outcome State Fault Refusal :=
  match i with
  | .mov o => Sys2Proof.Machine.execMov o s
  | .movi o => Sys2Proof.Machine.execMovi o s
  | .movw o => Sys2Proof.Machine.execMovw o s
  | .iadd o => Sys2Proof.Machine.execIadd o s
  | .iaddImm o => Sys2Proof.Machine.execIaddImm o s
  | .isub o => Sys2Proof.Machine.execIsub o s
  | .isubImm o => Sys2Proof.Machine.execIsubImm o s
  | .iaddc o => Sys2Proof.Machine.execIaddc o s
  | .iaddcImm o => Sys2Proof.Machine.execIaddcImm o s
  | .isubb o => Sys2Proof.Machine.execIsubb o s
  | .isubbImm o => Sys2Proof.Machine.execIsubbImm o s
  | .iadds o => Sys2Proof.Machine.execIadds o s
  | .iaddsImm o => Sys2Proof.Machine.execIaddsImm o s
  | .imul o => Sys2Proof.Machine.execImul o s
  | .imulImm o => Sys2Proof.Machine.execImulImm o s
  | .imulh o => Sys2Proof.Machine.execImulh o s
  | .imulhImm o => Sys2Proof.Machine.execImulhImm o s
  | .imad o => Sys2Proof.Machine.execImad o s
  | .imadImm o => Sys2Proof.Machine.execImadImm o s
  | .imadw o => Sys2Proof.Machine.execImadw o s
  | .imadwImm o => Sys2Proof.Machine.execImadwImm o s
  | .imin o => Sys2Proof.Machine.execImin o s
  | .iminImm o => Sys2Proof.Machine.execIminImm o s
  | .imax o => Sys2Proof.Machine.execImax o s
  | .imaxImm o => Sys2Proof.Machine.execImaxImm o s
  | .iabs o => Sys2Proof.Machine.execIabs o s
  | .ineg o => Sys2Proof.Machine.execIneg o s
  | .icmp o => Sys2Proof.Machine.execIcmp o s
  | .icmpImm o => Sys2Proof.Machine.execIcmpImm o s
  | .isel o => Sys2Proof.Machine.execIsel o s
  | .iselImm o => Sys2Proof.Machine.execIselImm o s
  | .shl o => Sys2Proof.Machine.execShl o s
  | .shlImm o => Sys2Proof.Machine.execShlImm o s
  | .shr o => Sys2Proof.Machine.execShr o s
  | .shrImm o => Sys2Proof.Machine.execShrImm o s
  | .sar o => Sys2Proof.Machine.execSar o s
  | .sarImm o => Sys2Proof.Machine.execSarImm o s
  | .rotl o => Sys2Proof.Machine.execRotl o s
  | .rotlImm o => Sys2Proof.Machine.execRotlImm o s
  | .andL o => Sys2Proof.Machine.execAndL o s
  | .andImm o => Sys2Proof.Machine.execAndImm o s
  | .orL o => Sys2Proof.Machine.execOrL o s
  | .orImm o => Sys2Proof.Machine.execOrImm o s
  | .xorL o => Sys2Proof.Machine.execXorL o s
  | .xorImm o => Sys2Proof.Machine.execXorImm o s
  | .andn o => Sys2Proof.Machine.execAndn o s
  | .andnImm o => Sys2Proof.Machine.execAndnImm o s
  | .notL o => Sys2Proof.Machine.execNotL o s
  | .bmux o => Sys2Proof.Machine.execBmux o s
  | .bmuxImm o => Sys2Proof.Machine.execBmuxImm o s
  | .popc o => Sys2Proof.Machine.execPopc o s
  | .clz o => Sys2Proof.Machine.execClz o s
  | .ctz o => Sys2Proof.Machine.execCtz o s
  | .brev o => Sys2Proof.Machine.execBrev o s
  | .bfx o => Sys2Proof.Machine.execBfx o s
  | .bfxImm o => Sys2Proof.Machine.execBfxImm o s
  | .bfi o => Sys2Proof.Machine.execBfi o s
  | .bfiImm o => Sys2Proof.Machine.execBfiImm o s
  | .bsr o => Sys2Proof.Machine.execBsr o s
  | .bsrld o => Sys2Proof.Machine.execBsrld o s
  | .idot4 o => Sys2Proof.Machine.execIdot4 o s
  | .lea o => Sys2Proof.Machine.execLea o s
  | .leaImm o => Sys2Proof.Machine.execLeaImm o s
  | .fadd o => Sys2Proof.Machine.execFadd o s
  | .faddImm o => Sys2Proof.Machine.execFaddImm o s
  | .fsub o => Sys2Proof.Machine.execFsub o s
  | .fsubImm o => Sys2Proof.Machine.execFsubImm o s
  | .fmul o => Sys2Proof.Machine.execFmul o s
  | .fmulImm o => Sys2Proof.Machine.execFmulImm o s
  | .ffma o => Sys2Proof.Machine.execFfma o s
  | .ffmaImm o => Sys2Proof.Machine.execFfmaImm o s
  | .fmin o => Sys2Proof.Machine.execFmin o s
  | .fminImm o => Sys2Proof.Machine.execFminImm o s
  | .fmax o => Sys2Proof.Machine.execFmax o s
  | .fmaxImm o => Sys2Proof.Machine.execFmaxImm o s
  | .fcmp o => Sys2Proof.Machine.execFcmp o s
  | .fcmpImm o => Sys2Proof.Machine.execFcmpImm o s
  | .fclass o => Sys2Proof.Machine.execFclass o s
  | .frnd o => Sys2Proof.Machine.execFrnd o s
  | .fscale o => Sys2Proof.Machine.execFscale o s
  | .fscaleImm o => Sys2Proof.Machine.execFscaleImm o s
  | .hadd2 o => Sys2Proof.Machine.execHadd2 o s
  | .hadd2Imm o => Sys2Proof.Machine.execHadd2Imm o s
  | .hmul2 o => Sys2Proof.Machine.execHmul2 o s
  | .hmul2Imm o => Sys2Proof.Machine.execHmul2Imm o s
  | .hfma2 o => Sys2Proof.Machine.execHfma2 o s
  | .hfma2Imm o => Sys2Proof.Machine.execHfma2Imm o s
  | .cvti o => Sys2Proof.Machine.execCvti o s
  | .cvtf o => Sys2Proof.Machine.execCvtf o s
  | .cvtn o => Sys2Proof.Machine.execCvtn o s
  | .cvtw o => Sys2Proof.Machine.execCvtw o s
  | .rcp o => Sys2Proof.Machine.execRcp o s
  | .rsq o => Sys2Proof.Machine.execRsq o s
  | .sqrt o => Sys2Proof.Machine.execSqrt o s
  | .ex2 o => Sys2Proof.Machine.execEx2 o s
  | .lg2 o => Sys2Proof.Machine.execLg2 o s
  | .sin o => Sys2Proof.Machine.execSin o s
  | .cos o => Sys2Proof.Machine.execCos o s
  | .tanh o => Sys2Proof.Machine.execTanh o s
  | .rng o => Sys2Proof.Machine.execRng o s
  | .seed o => Sys2Proof.Machine.execSeed o s
  | .seedImm o => Sys2Proof.Machine.execSeedImm o s
  | .shfl o => Sys2Proof.Machine.execShfl o s
  | .shflImm o => Sys2Proof.Machine.execShflImm o s
  | .vote o => Sys2Proof.Machine.execVote o s
  | .qred o => Sys2Proof.Machine.execQred o s
  | .gred o => Sys2Proof.Machine.execGred o s
  | .gredTeam o => Sys2Proof.Machine.execGredTeam o s
  | .gshuf o => Sys2Proof.Machine.execGshuf o s
  | .bcast o => Sys2Proof.Machine.execBcast o s
  | .bra o => Sys2Proof.Machine.execBra o s
  | .brx o => Sys2Proof.Machine.execBrx o s
  | .call o => Sys2Proof.Machine.execCall o s
  | .ret o => Sys2Proof.Machine.execRet o s
  | .join o => Sys2Proof.Machine.execJoin o s
  | .exit o => Sys2Proof.Machine.execExit o s
  | .elect o => Sys2Proof.Machine.execElect o s
  | .pmov o => Sys2Proof.Machine.execPmov o s
  | .pmux o => Sys2Proof.Machine.execPmux o s
  | .region o => Sys2Proof.Machine.execRegion o s
  | .trap o => Sys2Proof.Machine.execTrap o s
  | .tret o => Sys2Proof.Machine.execTret o s
  | .yield o => Sys2Proof.Machine.execYield o s
  | .nop o => Sys2Proof.Machine.execNop o s
  | .nop96 o => Sys2Proof.Machine.execNop96 o s
  | .nop128 o => Sys2Proof.Machine.execNop128 o s
  | .bkpt o => Sys2Proof.Machine.execBkpt o s
  | .setrm o => Sys2Proof.Machine.execSetrm o s
  | .getsr o => Sys2Proof.Machine.execGetsr o s
  | .setsr o => Sys2Proof.Machine.execSetsr o s
  | .spawn o => Sys2Proof.Machine.execSpawn o s
  | .sleepm o => Sys2Proof.Machine.execSleepm o s
  | .ld o => Sys2Proof.Machine.execLd o s
  | .ldImm o => Sys2Proof.Machine.execLdImm o s
  | .st o => Sys2Proof.Machine.execSt o s
  | .stImm o => Sys2Proof.Machine.execStImm o s
  | .ldl o => Sys2Proof.Machine.execLdl o s
  | .ldlImm o => Sys2Proof.Machine.execLdlImm o s
  | .stl o => Sys2Proof.Machine.execStl o s
  | .stlImm o => Sys2Proof.Machine.execStlImm o s
  | .ldb o => Sys2Proof.Machine.execLdb o s
  | .ldbImm o => Sys2Proof.Machine.execLdbImm o s
  | .stb o => Sys2Proof.Machine.execStb o s
  | .stbImm o => Sys2Proof.Machine.execStbImm o s
  | .ldx o => Sys2Proof.Machine.execLdx o s
  | .stx o => Sys2Proof.Machine.execStx o s
  | .ldu o => Sys2Proof.Machine.execLdu o s
  | .lduImm o => Sys2Proof.Machine.execLduImm o s
  | .stu o => Sys2Proof.Machine.execStu o s
  | .stuImm o => Sys2Proof.Machine.execStuImm o s
  | .atom o => Sys2Proof.Machine.execAtom o s
  | .lr o => Sys2Proof.Machine.execLr o s
  | .sc o => Sys2Proof.Machine.execSc o s
  | .fence o => Sys2Proof.Machine.execFence o s
  | .acq o => Sys2Proof.Machine.execAcq o s
  | .rel o => Sys2Proof.Machine.execRel o s
  | .acqr o => Sys2Proof.Machine.execAcqr o s
  | .carve o => Sys2Proof.Machine.execCarve o s
  | .pref o => Sys2Proof.Machine.execPref o s
  | .prefImm o => Sys2Proof.Machine.execPrefImm o s
  | .mma o => Sys2Proof.Machine.execMma o s
  | .mmax o => Sys2Proof.Machine.execMmax o s
  | .mms o => Sys2Proof.Machine.execMms o s
  | .czero o => Sys2Proof.Machine.execCzero o s
  | .drain o => Sys2Proof.Machine.execDrain o s
  | .drainImm o => Sys2Proof.Machine.execDrainImm o s
  | .kzero o => Sys2Proof.Machine.execKzero o s
  | .kld o => Sys2Proof.Machine.execKld o s
  | .kldImm o => Sys2Proof.Machine.execKldImm o s
  | .kst o => Sys2Proof.Machine.execKst o s
  | .kstImm o => Sys2Proof.Machine.execKstImm o s
  | .klop o => Sys2Proof.Machine.execKlop o s
  | .kset o => Sys2Proof.Machine.execKset o s
  | .bxpose o => Sys2Proof.Machine.execBxpose o s
  | .cpy o => Sys2Proof.Machine.execCpy o s
  | .cpyg o => Sys2Proof.Machine.execCpyg o s
  | .cpyv o => Sys2Proof.Machine.execCpyv o s
  | .crwait o => Sys2Proof.Machine.execCrwait o s
  | .thnew o => Sys2Proof.Machine.execThnew o s
  | .thacq o => Sys2Proof.Machine.execThacq o s
  | .threl o => Sys2Proof.Machine.execThrel o s
  | .thsplit o => Sys2Proof.Machine.execThsplit o s
  | .thfree o => Sys2Proof.Machine.execThfree o s
  | .thqry o => Sys2Proof.Machine.execThqry o s
  | .thbnd o => Sys2Proof.Machine.execThbnd o s
  | .seam o => Sys2Proof.Machine.execSeam o s
  | .unpick o => Sys2Proof.Machine.execUnpick o s
  | .isld o => Sys2Proof.Machine.execIsld o s
  | .isst o => Sys2Proof.Machine.execIsst o s
  | .settle o => Sys2Proof.Machine.execSettle o s
  | .wake o => Sys2Proof.Machine.execWake o s
  | .pbar o => Sys2Proof.Machine.execPbar o s
  | .stepc o => Sys2Proof.Machine.execStepc o s
  | .islq o => Sys2Proof.Machine.execIslq o s
  | .sqopen o => Sys2Proof.Machine.execSqopen o s
  | .sqsig o => Sys2Proof.Machine.execSqsig o s
  | .skld o => Sys2Proof.Machine.execSkld o s
  | .skst o => Sys2Proof.Machine.execSkst o s
  | .sqclose o => Sys2Proof.Machine.execSqclose o s
  | .waitc o => Sys2Proof.Machine.execWaitc o s
  | .closeb o => Sys2Proof.Machine.execCloseb o s
  | .waitb o => Sys2Proof.Machine.execWaitb o s
  | .bar o => Sys2Proof.Machine.execBar o s
  | .barset o => Sys2Proof.Machine.execBarset o s
  | .barsetImm o => Sys2Proof.Machine.execBarsetImm o s
  | .cntrd o => Sys2Proof.Machine.execCntrd o s
  | .pairWord h0 h1 => Sys2Proof.Machine.execPairWord h0 h1 s
  | .illegalInstruction k => Sys2Proof.Machine.execIllegalInstruction k s
  | .loadDataLands gid op => Sys2Proof.Machine.execLoadDataLands gid op s
  | .storeAcknowledged core pos => Sys2Proof.Machine.execStoreAcknowledged core pos s
  | .instructionFetchMiss gid pc => Sys2Proof.Machine.execInstructionFetchMiss gid pc s
  | .walkComplete walk => Sys2Proof.Machine.execWalkComplete walk s
  | .faultRetry ctx slot => Sys2Proof.Machine.execFaultRetry ctx slot s
  | .faultDeny ctx slot => Sys2Proof.Machine.execFaultDeny ctx slot s
  | .regionDiscard gid => Sys2Proof.Machine.execRegionDiscard gid s
  | .recoverableError gid => Sys2Proof.Machine.execRecoverableError gid s
  | .uncorrectableError loc => Sys2Proof.Machine.execUncorrectableError loc s
  | .invalidationTimeout gid => Sys2Proof.Machine.execInvalidationTimeout gid s
  | .issueCycle die => Sys2Proof.Machine.execIssueCycle die s
  | .boundaryIssue gid => Sys2Proof.Machine.execBoundaryIssue gid s
  | .teamPlacementTry => Sys2Proof.Machine.execTeamPlacementTry s
  | .groupEviction gid => Sys2Proof.Machine.execGroupEviction gid s
  | .groupResume gid => Sys2Proof.Machine.execGroupResume gid s
  | .groupDrained gid => Sys2Proof.Machine.execGroupDrained gid s
  | .matrixGrant engine => Sys2Proof.Machine.execMatrixGrant engine s
  | .kstepBoundary engine => Sys2Proof.Machine.execKstepBoundary engine s
  | .requestAgeing engine => Sys2Proof.Machine.execRequestAgeing engine s
  | .passComplete engine op => Sys2Proof.Machine.execPassComplete engine op s
  | .drainComplete engine op => Sys2Proof.Machine.execDrainComplete engine op s
  | .copyStart engine => Sys2Proof.Machine.execCopyStart engine s
  | .copyCompletionRecord engine copy => Sys2Proof.Machine.execCopyCompletionRecord engine copy s
  | .copyRingSlotWait engine copy => Sys2Proof.Machine.execCopyRingSlotWait engine copy s
  | .signatureDelivery copy => Sys2Proof.Machine.execSignatureDelivery copy s
  | .sleepmReread gid sleeper => Sys2Proof.Machine.execSleepmReread gid sleeper s
  | .sleepmTimeout gid sleeper => Sys2Proof.Machine.execSleepmTimeout gid sleeper s
  | .crwaitReread gid sleeper => Sys2Proof.Machine.execCrwaitReread gid sleeper s
  | .crwaitTimeout gid sleeper => Sys2Proof.Machine.execCrwaitTimeout gid sleeper s
  | .waitbTimeout gid sleeper => Sys2Proof.Machine.execWaitbTimeout gid sleeper s
  | .thacqGrant req => Sys2Proof.Machine.execThacqGrant req s
  | .thacqTimeout req => Sys2Proof.Machine.execThacqTimeout req s
  | .syscallRingSlotFree gid => Sys2Proof.Machine.execSyscallRingSlotFree gid s
  | .syscallReply ctx slot => Sys2Proof.Machine.execSyscallReply ctx slot s
  | .bkptResume gid => Sys2Proof.Machine.execBkptResume gid s
  | .queueDoorbell q => Sys2Proof.Machine.execQueueDoorbell q s
  | .queueArbitration => Sys2Proof.Machine.execQueueArbitration s
  | .queueAgeing q => Sys2Proof.Machine.execQueueAgeing q s
  | .quantumEnd => Sys2Proof.Machine.execQuantumEnd s
  | .queueReplacement q => Sys2Proof.Machine.execQueueReplacement q s
  | .nopk q n => Sys2Proof.Machine.execNopk q n s
  | .launch q n => Sys2Proof.Machine.execLaunch q n s
  | .barrier q n => Sys2Proof.Machine.execBarrier q n s
  | .signal q n => Sys2Proof.Machine.execSignal q n s
  | .copy q n engine => Sys2Proof.Machine.execCopy q n engine s
  | .barrierSignalRead q n => Sys2Proof.Machine.execBarrierSignalRead q n s
  | .packetRetire q n => Sys2Proof.Machine.execPacketRetire q n s
  | .stopLineRaise => Sys2Proof.Machine.execStopLineRaise s
  | .engineHalt ctx core => Sys2Proof.Machine.execEngineHalt ctx core s
  | .stopCompletion ctx => Sys2Proof.Machine.execStopCompletion ctx s
  | .stepClose world => Sys2Proof.Machine.execStepClose world s
  | .gangStaging team => Sys2Proof.Machine.execGangStaging team s
  | .gangWriteback team => Sys2Proof.Machine.execGangWriteback team s
  | .stepsigStore world => Sys2Proof.Machine.execStepsigStore world s
  | .quadSpare core => Sys2Proof.Machine.execQuadSpare core s
  | .coreRetirement core => Sys2Proof.Machine.execCoreRetirement core s
  | .engineRetirement isCopy failed engine => Sys2Proof.Machine.execEngineRetirement isCopy failed engine s
  | .rowSpare stack bank row => Sys2Proof.Machine.execRowSpare stack bank row s
  | .fabricLaneSpare port replayed => Sys2Proof.Machine.execFabricLaneSpare port replayed s
  | .linkDead port => Sys2Proof.Machine.execLinkDead port s
  | .linkStateUpdate port lsn => Sys2Proof.Machine.execLinkStateUpdate port lsn s
  | .drainRound port => Sys2Proof.Machine.execDrainRound port s
  | .failureDeclaration agent => Sys2Proof.Machine.execFailureDeclaration agent s
  | .agentRejoin agent => Sys2Proof.Machine.execAgentRejoin agent s
  | .diePowerLoss die => Sys2Proof.Machine.execDiePowerLoss die s
  | .thermalTrip die => Sys2Proof.Machine.execThermalTrip die s
  | .powerRestored die => Sys2Proof.Machine.execPowerRestored die s
  | .powerCapThrottle die divisor => Sys2Proof.Machine.execPowerCapThrottle die divisor s
  | .dieReset die => Sys2Proof.Machine.execDieReset die s
  | .selfTestComplete bit => Sys2Proof.Machine.execSelfTestComplete bit s
  | .linkTraining bit up peer => Sys2Proof.Machine.execLinkTraining bit up peer s
  | .hostMemRead pa => Sys2Proof.Machine.execHostMemRead pa s
  | .hostMemWrite pa bytes => Sys2Proof.Machine.execHostMemWrite pa bytes s
  | .backInvalidate half dirty => Sys2Proof.Machine.execBackInvalidate half dirty s
  | .peerFlit port pa bytes head => Sys2Proof.Machine.execPeerFlit port pa bytes head s
  | .xferJobComplete slot => Sys2Proof.Machine.execXferJobComplete slot s
  | .ckptJobComplete slot => Sys2Proof.Machine.execCkptJobComplete slot s
  | .ctxen => Sys2Proof.Machine.execCtxen s
  | .ctxrel => Sys2Proof.Machine.execCtxrel s
  | .ctxstop => Sys2Proof.Machine.execCtxstop s
  | .inval => Sys2Proof.Machine.execInval s
  | .invalComplete => Sys2Proof.Machine.execInvalComplete s
  | .keyld key => Sys2Proof.Machine.execKeyld key s
  | .keyclr => Sys2Proof.Machine.execKeyclr s
  | .wopen => Sys2Proof.Machine.execWopen s
  | .wclose => Sys2Proof.Machine.execWclose s
  | .wcloseComplete => Sys2Proof.Machine.execWcloseComplete s
  | .setq => Sys2Proof.Machine.execSetq s
  | .clrerr => Sys2Proof.Machine.execClrerr s
  | .setthr => Sys2Proof.Machine.execSetthr s
  | .retire => Sys2Proof.Machine.execRetire s
  | .summary => Sys2Proof.Machine.execSummary s
  | .bbread => Sys2Proof.Machine.execBbread s
  | .xfer => Sys2Proof.Machine.execXfer s
  | .ckpt => Sys2Proof.Machine.execCkpt s
  | .pwrcap => Sys2Proof.Machine.execPwrcap s
  | .unknownCommand => Sys2Proof.Machine.execUnknownCommand s
  | .commandOverrun => Sys2Proof.Machine.execCommandOverrun s
  | .hostRegisterWrite off value => Sys2Proof.Machine.execHostRegisterWrite off value s
  | .correctedError loc => Sys2Proof.Machine.execCorrectedError loc s
  | .firmwareError die => Sys2Proof.Machine.execFirmwareError die s
  | .standbyPowerLoss => Sys2Proof.Machine.execStandbyPowerLoss s

end Sys2Proof.Machine
end

