-- ==== Sys2Proof/Machine/Schedule.lean ====
section
/-!
DEFINITION. What the machine does when the agenda asks for nothing: of its own events that could come about, the first of a
fixed order; with none, the next cycle of a die. The spec leaves the order of such events open: the agenda can ask for
every other one, and no statement rests on this order (notes/assumptions).
-/

namespace Sys2Proof.Machine

/-- What an event would do. -/
abbrev Ev := State → Out

/-- An event would change the machine; the counter of free values does not count. -/
def State.moves (s : State) (e : Ev) : Bool :=
  match e s with
  | .next t => { t with fresh := s.fresh } ≠ s
  | _ => false

/-- Events that are thinkable only under a condition. -/
def Ev.when (c : Bool) (es : List Ev) : List Ev := if c then es else []

/-- Events of contexts: faults and stops (R214, R394). -/
def State.stopEvents (s : State) : List Ev :=
  let one (c : Nat) (x : Ctx) : List Ev :=
    x.rung.map (fun n => execSyscallReply c n) ++ Ev.when (x.state == .stopping) (x.haltLeft.map (fun e => execEngineHalt c e) ++ [execStopCompletion c])
  Ev.when (s.ctxs.any fun kv => !kv.2.stopFaults.isEmpty) [execStopLineRaise]
    ++ s.ctxs.flatMap (fun kv => one kv.1 kv.2)
    ++ s.walks.map (fun w => execWalkComplete w.id)

/-- Events of a sleeping split (R189, R312, R385). -/
def sleeperEvents (gid : Nat) (q : Sleeper) : List Ev :=
  match q.kind with
  | .sleepm .. => [execSleepmReread gid q.split, execSleepmTimeout gid q.split]
  | .crwait .. => [execCrwaitReread gid q.split, execCrwaitTimeout gid q.split]
  | .waitb .. => [execWaitbTimeout gid q.split]

/-- Events of one group (R33, R50, R118, R185, R189, R312, R385). -/
def State.groupEvents (s : State) (gid : Nat) (g : Group) : List Ev :=
  let leaves := (s.team? g.team).any fun t => t.leaving
  g.pending.map (fun p => execLoadDataLands gid p.id) ++ g.sleepers.flatMap (sleeperEvents gid)
    ++ Ev.when (g.again || g.status matches .discarding _) [execRegionDiscard gid]
    ++ Ev.when s.host.inval.isSome [execInvalidationTimeout gid]
    ++ Ev.when (g.evicting || leaves) [execGroupEviction gid]
    ++ Ev.when (g.status == .draining) [execGroupDrained gid]
    ++ Ev.when (g.dying != 0 || g.status == .draining || (g.closing && g.evicting)) [execBoundaryIssue gid]
    ++ Ev.when g.evicted [execGroupResume gid]

/-- Events of the matrix engines (R260 to R262). -/
def matrixEvents (engine : Nat) (m : MatrixEng) : List Ev :=
  Ev.when (m.running.isNone && !(m.requests.isEmpty && m.suspended.isNone)) [execMatrixGrant engine]
    ++ Ev.when m.running.isSome [execKstepBoundary engine]
    ++ Ev.when (!m.requests.isEmpty) [execRequestAgeing engine]
    ++ m.running.toList.flatMap fun o => [if o.isPass then execPassComplete engine o.id else execDrainComplete engine o.id]

/-- Events of the copy engines (R296, R303, R305). -/
def copyEvents (engine : Nat) (e : CopyEng) : List Ev :=
  Ev.when (!e.queue.isEmpty || e.running.any fun r => r.done.isNone) [execCopyStart engine]
    ++ e.running.flatMap fun r =>
      Ev.when (!r.sigs.isEmpty) [execSignatureDelivery r.cmd.id]
        ++ Ev.when r.recordDue.isSome [execCopyCompletionRecord engine r.cmd.id, execCopyRingSlotWait engine r.cmd.id]

/-- Events of the queue front end (R286 to R292). A queue that has left its place in this cycle does not come back. -/
def State.queueEvents (s : State) : List Ev :=
  let now := (s.die 0).cycle.toNat
  let one (q : Nat) (x : QueueSt) : List Ev :=
    let copies (n : Nat) : List Ev := (List.range Config.engineCount).map fun e => execCopy q n e
    let next : List Ev := if s.feGrant = some q then
        [execNopk q x.next, execLaunch q x.next, execBarrier q x.next, execSignal q x.next] ++ copies x.next
      else []
    let held := x.started.flatMap fun p => ([execPacketRetire q p.num, execBarrierSignalRead q p.num] : List Ev)
      ++ (if p.acted || p.done.isSome then [] else execSignal q p.num :: copies p.num)
    next ++ held ++ [execPacketRetire q x.next] ++ Ev.when x.startableAt.isSome [execQueueAgeing q]
      ++ (if x.resident || x.lastResident = now then [] else [execQueueReplacement q])
  execQuantumEnd :: s.queues.flatMap (fun kv => one kv.1 kv.2) ++ [execQueueArbitration]

/-- Events of teams and worlds (R31, R346 to R348). -/
def State.teamEvents (s : State) : List Ev :=
  execTeamPlacementTry
    :: s.teams.flatMap (fun kv => match kv.2.gang with
      | some g => Ev.when (!g.staged) [execGangStaging kv.1] ++ Ev.when (g.staged && !g.written) [execGangWriteback kv.1]
      | none => [])
    ++ s.worlds.flatMap fun kv =>
      Ev.when kv.2.closing [execStepClose kv.1] ++ Ev.when kv.2.sigDue.isSome [execStepsigStore kv.1]

/-- Failures and repairs that a rule itself calls for: the declaration for a die that has lost power (R406), the retirement of
a core with too many uncorrectable errors (R402), the sparing of a row after its second corrected error (R404), that of a quad when
the regions that it waits for have ended (R401), retirements that have waited for a stop (R409), and the death of a port that
brings none of the flits of a job over it (R405). -/
def State.repairEvents (s : State) : List Ev :=
  let dark := (List.range Config.dieCount).filter fun d => !(s.die d).powered && !(s.die d).failed
  let worn := s.cores.filter fun kv => s.host.eunThr < kv.2.eunc
  let rows := s.rowErrors.filter fun kv => 2 ≤ kv.2.1
  dark.map (fun d => execFailureDeclaration (.die d)) ++ worn.map (fun kv => execCoreRetirement kv.1)
    ++ rows.map (fun kv => execRowSpare (kv.1 / 2 ^ 48) (kv.1 / 2 ^ 32 % 2 ^ 16) (kv.1 % 2 ^ 32))
    ++ s.sparing.map (fun kv => sparingDone kv.1)
    ++ (if s.stopping then [] else s.retireDue.map fun k => dueRetirement k)
    ++ ((List.range 24).filter fun p => s.silent p && s.host.jobs.any fun kv => kv.2.ports.getLsbD p).map (fun p => execLinkDead p)

/-- The commands, of which the latched one can be performed (R413). -/
def commandEvents : List Ev :=
  [execCtxen, execCtxrel, execCtxstop, execInval, execInvalComplete, execKeyclr, execWopen, execWclose, execWcloseComplete, execSetq, execClrerr,
   execSetthr, execRetire, execSummary, execBbread, execXfer, execCkpt, execPwrcap, execUnknownCommand]

/-- The machine's own events that the state makes thinkable, in the order in which they are looked at. -/
def State.candidates (s : State) : List Ev :=
  s.repairEvents ++ s.stopEvents ++ bobbinTakes :: s.bobbins.map (fun kv => bobbinDone kv.1)
    ++ s.cores.flatMap (fun kv => if kv.2.outbound.isEmpty then [] else [execStoreAcknowledged kv.1 0])
    ++ (s.groups.filter fun kv => kv.2.lateReady.isSome).map (fun kv => execStoreAcknowledged kv.2.core (s.core kv.2.core).outbound.length)
    ++ s.groups.flatMap (fun kv => s.groupEvents kv.1 kv.2)
    ++ s.matrix.flatMap (fun kv => matrixEvents kv.1 kv.2)
    ++ s.copyEng.flatMap (fun kv => copyEvents kv.1 kv.2)
    ++ s.tenureReqs.flatMap (fun r => [execThacqGrant r.id, execThacqTimeout r.id])
    ++ s.queueEvents ++ s.teamEvents
    ++ (if s.host.busy then commandEvents else [])
    ++ ((List.range 24).filter fun p => (s.port p).state == 3).map (fun p => execDrainRound p)
    ++ s.host.jobs.flatMap fun kv => [execXferJobComplete kv.1, execCkptJobComplete kv.1]

/-- The powered die whose counter is lowest; a cycle of a throttled die is longer (R421). -/
def State.nextDie (s : State) : Nat :=
  let up := (List.range Config.dieCount).filter fun d => (s.die d).powered
  (sortBy (fun d => (s.die d).cycle.toNat * (s.die d).divisor) up).headD 0

/-- What comes about when the agenda is empty. -/
def State.runOwn (s : State) : Out :=
  match s.candidates.find? s.moves with
  | some e => e s
  | none => execIssueCycle s.nextDie s

end Sys2Proof.Machine
end

