-- ==== Sys2Proof/Machine/Step.lean ====
section
/-!
DEFINITION. One step of the machine: the next split chosen in the current issue cycle issues; with none left,
the next entry of the agenda comes about; with none there, the machine's own next event does.
-/

namespace Sys2Proof.Machine

/-- One step. An instruction runs only for a split chosen to issue: the agenda runs with no issuing split. -/
def step (s : State) : Host.Outcome State Fault Refusal :=
  match s.issue with
  | r :: rest =>
    let s : State := { s with issue := rest }
    match s.fetch r with
    | .nothing => .next s
    | .miss gid pc => exec (.instructionFetchMiss gid pc.toNat) s
    | .poisoned cu => .next (s.fetchPoison cu)
    | .got i cu => exec i { s with cur := some cu, fresh := s.fresh + s.codeDraws }
  | [] =>
    match s.agenda with
    | e :: rest => exec e { s with agenda := rest, cur := none }
    | [] => ({ s with cur := none } : State).runOwn

/-- The state in which the next step runs the instruction whose bits are `w` (spec/opcode_table.json numbers the
bits as this machine's words do), the bits above `nbits` zero. -/
def State.withFetchWord (s : State) (nbits w : Nat) : State := s.placeWord (w % 2 ^ nbits)

end Sys2Proof.Machine
end

