-- ==== Sys2Proof/Safety.lean ====
section
/-!
DEFINITION. What a safe run is, and the words in which statements speak of one step: how an instruction issues, and what
a step leaves alone. A program fault of the spec (R391) is a next state in which the context's stop line is on its way, so
a safe run may hold one.
-/

namespace Sys2Proof

/-- The state after `n` steps, where every one of them answers a next state. -/
def runSteps : Nat → Machine.State → Option Machine.State
  | 0, s => some s
  | n + 1, s => match Machine.step s with
    | .next t => runSteps n t
    | _ => none

/-- A run of `n` steps from `s` is safe: no step stops. -/
def SafeRun (n : Nat) (s : Machine.State) : Prop := (runSteps n s).isSome

end Sys2Proof

namespace Sys2Proof.Machine

/-! ## How an instruction issues -/

/-- A plain instruction with these registers issues: a split is issuing, the checks of R103, R117 and R46 pass, and no
active lane reads a poisoned register (R122). -/
structure Plain (s : State) (gd : Guard) (f : IC → Foot) (x : IC) : Prop where
  ic : s.ic gd = some x
  ready : x.ready (f x)
  clean : x.g.poisonedLanes (f x).rv x.act = 0

/-- A boundary instruction with these registers issues: every live lane of its group waits, its registers are within
bounds and free, and the region before it closes (R24, R38, R103, R117). `y` is the issue after the close. -/
structure Boundary (s : State) (gd : Guard) (f : IC → Foot) (x y : IC) : Prop where
  ic : s.ic gd = some x
  fused : x.cu.fused = true
  bounds : (f x).outOfBounds x.g.allot = none
  free : x.g.busy (f x) = false
  clean : x.g.poisonedLanes (f x).rv x.act = 0
  group : (s.close x.cu.gid).group? x.cu.gid = some y.g
  closed : y.g.closed = true
  after : y = { x with s := s.close x.cu.gid, g := y.g }

/-- The state after a plain instruction whose effects have made the state `u` and its group `h`: the group goes on to the
next instruction, and those that yielded to the split are released (R20, R188). -/
def IC.after (x : IC) (u : State) (h : Group) : State :=
  (u.setGroup x.cu.gid (h.stepOver x.cu fun _ => x.nextPc)).releaseYields x.g.core x.cu.gid x.cu.split

/-- The state after a boundary whose effect has made the state `u`: its lanes go on to the next instruction and the next
region opens (R24, R38). -/
def IC.past (x : IC) (u : State) : State := u.passAndOpen x.cu.gid x.cu.pc fun _ => x.nextPc

/-! ## What a step leaves alone -/

/-- Every byte of device memory and of every core's memories reads as before, and so does its poison. -/
def MemoryKept (s t : State) : Prop :=
  (∀ a, bankByte t.mem a = bankByte s.mem a ∧ bankPoison t.mem a = bankPoison s.mem a)
    ∧ ∀ n sp a, bankByte ((t.core n).bank sp) a = bankByte ((s.core n).bank sp) a
      ∧ bankPoison ((t.core n).bank sp) a = bankPoison ((s.core n).bank sp) a

/-- Another group is as before, but for the ages of its splits (R32, R188). -/
def OtherGroupsKept (s t : State) (gid : Nat) : Prop :=
  ∀ n h, n ≠ gid → s.group? n = some h → ∃ a, t.group? n = some { h with ages := a }

/-- Nothing but groups has changed, and of other groups nothing but the ages of their splits. -/
def GroupsOnly (s t : State) (gid : Nat) : Prop := t = { s with groups := t.groups } ∧ OtherGroupsKept s t gid

/-- The registers of a group outside a footprint's writes are as before: every V register in every lane but those of
`act`, and in `act` those not written; S, X, P and K registers not written; RMR, the trap stack, PM, the exited and the
dead lanes, the counters, the region store buffer. -/
structure RegistersKept (g h : Group) (f : Foot) (act : Mask) : Prop where
  v : ∀ r l, l < 64 → (¬ r ∈ f.wv ∨ inMask act l = false) → h.rdV r l = g.rdV r l
  s : ∀ n, ¬ n ∈ f.ws → h.s.getD n 0 = g.s.getD n 0
  x : ∀ n, ¬ n ∈ f.wx → h.x.getD n 0 = g.x.getD n 0
  p : ∀ n, ¬ n ∈ f.wp → h.p.getD n 0 = g.p.getD n 0
  k : ∀ n, ¬ n ∈ f.wk → h.k.getD n ⟨0, 0, 0⟩ = g.k.getD n ⟨0, 0, 0⟩
  rmr : h.rmr = g.rmr ∧ h.rmrPend = g.rmrPend
  traps : h.frames = g.frames ∧ h.depth = g.depth
  replay : h.pm = g.pm
  lanes : h.launched = g.launched ∧ h.exited = g.exited ∧ h.dead = g.dead
  counters : h.cntLd = g.cntLd ∧ h.cntSt = g.cntSt ∧ h.cntTl = g.cntTl ∧ h.latest = g.latest ∧ h.pend = g.pend
  buffer : h.buf = g.buf ∧ h.pending = g.pending

/-- Every register of a group, its settings, flags, random state and trap stack are as before. -/
structure RegsSame (g h : Group) : Prop where
  v : h.v = g.v ∧ h.vpoison = g.vpoison
  scalar : h.s = g.s ∧ h.x = g.x ∧ h.p = g.p ∧ h.k = g.k
  rmr : h.rmr = g.rmr ∧ h.rmrPend = g.rmrPend
  gsr : h.gsr = g.gsr
  rng : h.rng = g.rng
  traps : h.frames = g.frames ∧ h.depth = g.depth
  lanes : h.launched = g.launched ∧ h.exited = g.exited ∧ h.dead = g.dead

/-! ## Where lanes are -/

/-- A lane runs in a split (R20). -/
def Group.runsIn (g : Group) (split l : Nat) : Prop :=
  l < 64 ∧ inMask (g.quad (l / 4)).run l = true ∧ (g.quad (l / 4)).split = split

/-- A lane's path, running or deferred, stands at a PC (R21). -/
def Group.stands (g : Group) (l : Nat) (pc : BitVec 57) : Prop :=
  (inMask (g.quad (l / 4)).run l = true ∧ (g.quad (l / 4)).pc = pc)
    ∨ ∃ p ∈ (g.quad (l / 4)).deferred, p.pc = pc ∧ p.waiting = false ∧ inMask p.lanes l = true

/-- A lane waits at a boundary instruction at a PC (R24). -/
def Group.waitsAt (g : Group) (l : Nat) (pc : BitVec 57) : Prop :=
  l < 64 ∧ ∃ p ∈ (g.quad (l / 4)).deferred, p.pc = pc ∧ p.waiting = true ∧ inMask p.lanes l = true

/-- A region has just opened for a group that stood as `g`: what it recorded for re-entry (R38, R48, R53), and the
pending RMR write in effect (R65). -/
structure Opened (g h : Group) : Prop where
  quads : h.closed = false ∧ h.entryQuads = h.quads
  copies : h.entryRng = h.rng ∧ h.entryDepth = h.depth
  counter : h.reentry = 0 ∧ h.causes = []
  rmr : h.rmr = g.rmrPend.getD g.rmr ∧ h.rmrPend = none

/-! ## Results -/

/-- What the register of a destination reads as in a lane: a V register or pair (of effective number `r`), an S
register, an X register. -/
def Group.reads (g : Group) (r : Nat) (o : Opd) (wide : Bool) (l : Nat) : W64 :=
  match o with
  | .v _ => if wide then g.rdPair r l else (g.rdV r l).setWidth 64
  | .s n => g.s.getD n.toNat 0
  | .x n => (g.x.getD n.toNat 0).setWidth 64
  | _ => 0

/-- What a destination holds of a result (R131, R133): a V register or pair its low 32 or 64 bits, an S register the same
extended by the type, an X register the low 8 bits. -/
def heldAs (o : Opd) (wide signed : Bool) (v : W64) : W64 :=
  match o with
  | .v _ => if wide then v else (v.setWidth 32).setWidth 64
  | .s _ => if wide then v else if signed then (v.setWidth 32).signExtend 64 else (v.setWidth 32).setWidth 64
  | .x _ => (v.setWidth 8).setWidth 64
  | _ => 0

/-- The lanes whose result a statement speaks of: the active lanes of a V destination, and lane 0 for a scalar one. -/
def resultLane (act : Mask) (o : Opd) (l : Nat) : Prop :=
  match o with
  | .v _ => inMask act l = true
  | _ => l = 0

end Sys2Proof.Machine
end

