-- ==== Sys2Proof/Certificates/Slice0/Obligations.lean ====
section
/-!
DEFINITION. The statements for the provers. Each docstring names the rules of spec/ that it formalises. Statements about
instructions use the operand functions of Machine/Values.lean and the footprint of Machine/Operands.lean.
-/

namespace Sys2Proof.Claims

open Sys2Proof.Machine

/-! ## Tables of instructions -/

/-- An instruction that only computes over registers: constructor, opcode, length and effects. -/
structure RegRow where
  con : Ops → Instr
  op : Op
  len : Len
  eff : IC → Ops → Eff

def regRows1 : List RegRow :=
  [⟨.mov, .mov, .w64, effMov⟩,
   ⟨.movi, .movi, .w96, effMovi⟩,
   ⟨.movw, .movw, .w128, effMovw⟩,
   ⟨.iadd, .iadd, .w64, (effIadd false)⟩,
   ⟨.iaddImm, .iadd, .w96, (effIadd true)⟩,
   ⟨.isub, .isub, .w64, (effIsub false)⟩,
   ⟨.isubImm, .isub, .w96, (effIsub true)⟩,
   ⟨.iaddc, .iaddc, .w64, (effIaddc false)⟩,
   ⟨.iaddcImm, .iaddc, .w96, (effIaddc true)⟩,
   ⟨.isubb, .isubb, .w64, (effIsubb false)⟩,
   ⟨.isubbImm, .isubb, .w96, (effIsubb true)⟩,
   ⟨.iadds, .iadds, .w64, (effIadds false)⟩,
   ⟨.iaddsImm, .iadds, .w96, (effIadds true)⟩,
   ⟨.imul, .imul, .w64, (effImul false)⟩,
   ⟨.imulImm, .imul, .w96, (effImul true)⟩]

def regRows2 : List RegRow :=
  [⟨.imulh, .imulh, .w64, (effImulh false)⟩,
   ⟨.imulhImm, .imulh, .w96, (effImulh true)⟩,
   ⟨.imad, .imad, .w64, (effImad false)⟩,
   ⟨.imadImm, .imad, .w96, (effImad true)⟩,
   ⟨.imadw, .imadw, .w64, (effImadw false)⟩,
   ⟨.imadwImm, .imadw, .w96, (effImadw true)⟩,
   ⟨.imin, .imin, .w64, (effImin false)⟩,
   ⟨.iminImm, .imin, .w96, (effImin true)⟩,
   ⟨.imax, .imax, .w64, (effImax false)⟩,
   ⟨.imaxImm, .imax, .w96, (effImax true)⟩,
   ⟨.iabs, .iabs, .w64, effIabs⟩,
   ⟨.ineg, .ineg, .w64, effIneg⟩,
   ⟨.icmp, .icmp, .w64, (effIcmp false)⟩,
   ⟨.icmpImm, .icmp, .w96, (effIcmp true)⟩,
   ⟨.isel, .isel, .w64, (effIsel false)⟩]

def regRows3 : List RegRow :=
  [⟨.iselImm, .isel, .w96, (effIsel true)⟩,
   ⟨.shl, .shl, .w64, (effShl false)⟩,
   ⟨.shlImm, .shl, .w96, (effShl true)⟩,
   ⟨.shr, .shr, .w64, (effShr false)⟩,
   ⟨.shrImm, .shr, .w96, (effShr true)⟩,
   ⟨.sar, .sar, .w64, (effSar false)⟩,
   ⟨.sarImm, .sar, .w96, (effSar true)⟩,
   ⟨.rotl, .rotl, .w64, (effRotl false)⟩,
   ⟨.rotlImm, .rotl, .w96, (effRotl true)⟩,
   ⟨.andL, .andL, .w64, (effAnd false)⟩,
   ⟨.andImm, .andL, .w96, (effAnd true)⟩,
   ⟨.orL, .orL, .w64, (effOr false)⟩,
   ⟨.orImm, .orL, .w96, (effOr true)⟩,
   ⟨.xorL, .xorL, .w64, (effXor false)⟩,
   ⟨.xorImm, .xorL, .w96, (effXor true)⟩]

def regRows4 : List RegRow :=
  [⟨.andn, .andn, .w64, (effAndn false)⟩,
   ⟨.andnImm, .andn, .w96, (effAndn true)⟩,
   ⟨.notL, .notL, .w64, effNot⟩,
   ⟨.bmux, .bmux, .w64, (effBmux false)⟩,
   ⟨.bmuxImm, .bmux, .w96, (effBmux true)⟩,
   ⟨.popc, .popc, .w64, effPopc⟩,
   ⟨.clz, .clz, .w64, effClz⟩,
   ⟨.ctz, .ctz, .w64, effCtz⟩,
   ⟨.brev, .brev, .w64, effBrev⟩,
   ⟨.bfx, .bfx, .w64, (effBfx false)⟩,
   ⟨.bfxImm, .bfx, .w96, (effBfx true)⟩,
   ⟨.bfi, .bfi, .w64, (effBfi false)⟩,
   ⟨.bfiImm, .bfi, .w96, (effBfi true)⟩,
   ⟨.bsr, .bsr, .w64, effBsr⟩,
   ⟨.bsrld, .bsrld, .w64, effBsrld⟩]

def regRows5 : List RegRow :=
  [⟨.idot4, .idot4, .w64, effIdot4⟩,
   ⟨.lea, .lea, .w64, (effLea false)⟩,
   ⟨.leaImm, .lea, .w96, (effLea true)⟩,
   ⟨.fadd, .fadd, .w64, (effFadd false)⟩,
   ⟨.faddImm, .fadd, .w96, (effFadd true)⟩,
   ⟨.fsub, .fsub, .w64, (effFsub false)⟩,
   ⟨.fsubImm, .fsub, .w96, (effFsub true)⟩,
   ⟨.fmul, .fmul, .w64, (effFmul false)⟩,
   ⟨.fmulImm, .fmul, .w96, (effFmul true)⟩,
   ⟨.ffma, .ffma, .w64, (effFfma false)⟩,
   ⟨.ffmaImm, .ffma, .w96, (effFfma true)⟩,
   ⟨.fmin, .fmin, .w64, (effFmin false)⟩,
   ⟨.fminImm, .fmin, .w96, (effFmin true)⟩,
   ⟨.fmax, .fmax, .w64, (effFmax false)⟩,
   ⟨.fmaxImm, .fmax, .w96, (effFmax true)⟩]

def regRows6 : List RegRow :=
  [⟨.fcmp, .fcmp, .w64, (effFcmp false)⟩,
   ⟨.fcmpImm, .fcmp, .w96, (effFcmp true)⟩,
   ⟨.fclass, .fclass, .w64, effFclass⟩,
   ⟨.frnd, .frnd, .w64, effFrnd⟩,
   ⟨.fscale, .fscale, .w64, (effFscale false)⟩,
   ⟨.fscaleImm, .fscale, .w96, (effFscale true)⟩,
   ⟨.hadd2, .hadd2, .w64, (effHadd2 false)⟩,
   ⟨.hadd2Imm, .hadd2, .w96, (effHadd2 true)⟩,
   ⟨.hmul2, .hmul2, .w64, (effHmul2 false)⟩,
   ⟨.hmul2Imm, .hmul2, .w96, (effHmul2 true)⟩,
   ⟨.hfma2, .hfma2, .w64, (effHfma2 false)⟩,
   ⟨.hfma2Imm, .hfma2, .w96, (effHfma2 true)⟩,
   ⟨.cvti, .cvti, .w64, effCvti⟩,
   ⟨.cvtf, .cvtf, .w64, effCvtf⟩,
   ⟨.cvtn, .cvtn, .w64, effCvtn⟩]

def regRows7 : List RegRow :=
  [⟨.cvtw, .cvtw, .w64, effCvtw⟩,
   ⟨.rcp, .rcp, .w64, effRcp⟩,
   ⟨.rsq, .rsq, .w64, effRsq⟩,
   ⟨.sqrt, .sqrt, .w64, effSqrt⟩,
   ⟨.ex2, .ex2, .w64, effEx2⟩,
   ⟨.lg2, .lg2, .w64, effLg2⟩,
   ⟨.sin, .sin, .w64, effSin⟩,
   ⟨.cos, .cos, .w64, effCos⟩,
   ⟨.tanh, .tanh, .w64, effTanh⟩,
   ⟨.rng, .rng, .w64, effRng⟩,
   ⟨.seed, .seed, .w64, (effSeed false)⟩,
   ⟨.seedImm, .seed, .w96, (effSeed true)⟩,
   ⟨.shfl, .shfl, .w64, (effShfl false)⟩,
   ⟨.shflImm, .shfl, .w96, (effShfl true)⟩,
   ⟨.vote, .vote, .w64, effVote⟩]

def regRows8 : List RegRow :=
  [⟨.qred, .qred, .w64, effQred⟩,
   ⟨.gred, .gred, .w64, effGred⟩,
   ⟨.gshuf, .gshuf, .w64, effGshuf⟩,
   ⟨.bcast, .bcast, .w64, effBcast⟩,
   ⟨.elect, .elect, .w64, effElect⟩,
   ⟨.pmov, .pmov, .w64, effPmov⟩,
   ⟨.pmux, .pmux, .w64, effPmux⟩,
   ⟨.nop, .nop, .w64, (fun _ _ => {})⟩,
   ⟨.nop96, .nop, .w96, (fun _ _ => {})⟩,
   ⟨.nop128, .nop, .w128, (fun _ _ => {})⟩,
   ⟨.kzero, .kzero, .w64, (fun _ o => { k := [(opNum o.d, ⟨0, 0, 0⟩)] })⟩,
   ⟨.klop, .klop, .w64, effKlop⟩,
   ⟨.kset, .kset, .w96, effKset⟩]

/-- The instructions that only compute over registers. -/
def regRows : List RegRow :=
  regRows1 ++ regRows2 ++ regRows3 ++ regRows4 ++ regRows5 ++ regRows6 ++ regRows7 ++ regRows8

/-- The footprint of an instruction word for an issue. -/
def footOf (op : Op) (len : Len) (o : Ops) (x : IC) : Foot := x.g.foot op len o

/-- An instruction that gives each lane of its destination a value: whether the destination is 64 bits wide and whether a
scalar one is sign-extended, and the value in a lane. -/
structure LaneRow where
  con : Ops → Instr
  op : Op
  len : Len
  wide : Ops → Bool
  f : IC → Ops → Nat → W64

/-- A and B of an instruction whose type is in MOD; `im` says that IMM32 stands for B. -/
def srcA (x : IC) (o : Ops) (l : Nat) : W64 := x.val o.a o.wide l
def srcB (im : Bool) (x : IC) (o : Ops) (l : Nat) : W64 := x.valB im o l
def srcC (x : IC) (o : Ops) (l : Nat) : W64 := x.val o.c o.wide l

/-- The carry in of a lane: the bit of the predicate that C names (R134). -/
def carryBit (x : IC) (o : Ops) (l : Nat) : W64 := if inMask (x.g.pred (opNum o.c)) l then 1 else 0

/-- A value of the type as a number (R129). -/
def asInt (o : Ops) (v : W64) : Int := iv o.wide o.signed v

/-- A 32-bit value of the type sign-extended, for an arithmetic shift. -/
def asSigned (wide : Bool) (a : W64) : W64 := if wide then a else (a.setWidth 32).signExtend 64

/-- Sums, differences and products (R134, R135). -/
def sumRows : List LaneRow :=
  [⟨.iadd, .iadd, .w64, Ops.wide, fun x o l => srcA x o l + srcB false x o l⟩,
   ⟨.iaddImm, .iadd, .w96, Ops.wide, fun x o l => srcA x o l + srcB true x o l⟩,
   ⟨.isub, .isub, .w64, Ops.wide, fun x o l => srcA x o l - srcB false x o l⟩,
   ⟨.isubImm, .isub, .w96, Ops.wide, fun x o l => srcA x o l - srcB true x o l⟩,
   ⟨.iaddc, .iaddc, .w64, Ops.wide, fun x o l => srcA x o l + srcB false x o l + carryBit x o l⟩,
   ⟨.iaddcImm, .iaddc, .w96, Ops.wide, fun x o l => srcA x o l + srcB true x o l + carryBit x o l⟩,
   ⟨.isubb, .isubb, .w64, Ops.wide, fun x o l => srcA x o l - srcB false x o l - carryBit x o l⟩,
   ⟨.isubbImm, .isubb, .w96, Ops.wide, fun x o l => srcA x o l - srcB true x o l - carryBit x o l⟩,
   ⟨.imul, .imul, .w64, Ops.wide, fun x o l => srcA x o l * srcB false x o l⟩,
   ⟨.imulImm, .imul, .w96, Ops.wide, fun x o l => srcA x o l * srcB true x o l⟩,
   ⟨.imad, .imad, .w64, Ops.wide, fun x o l => srcA x o l * srcB false x o l + srcC x o l⟩,
   ⟨.imadImm, .imad, .w96, Ops.wide, fun x o l => srcA x o l * srcB true x o l + srcC x o l⟩]

/-- The greatest and the least value of a type (R134). -/
def topOf (o : Ops) : Int := if o.signed then 2 ^ (widthOf o.wide - 1) - 1 else 2 ^ widthOf o.wide - 1
def leastOf (o : Ops) : Int := if o.signed then -(2 ^ (widthOf o.wide - 1)) else 0

/-- The exact sum held between the least and the greatest value of the type (R134). -/
def saturated (o : Ops) (t : Int) : W64 := BitVec.ofInt 64 (max (leastOf o) (min (topOf o) t))

/-- The upper W bits of the exact product (R135). -/
def highPart (o : Ops) (t : Int) : W64 := BitVec.ofInt 64 (t / 2 ^ widthOf o.wide)

/-- Saturating sums, upper products, wide multiply-adds, minima and maxima, magnitudes (R134 to R136). -/
def orderRows : List LaneRow :=
  [⟨.iadds, .iadds, .w64, Ops.wide, fun x o l => saturated o (asInt o (srcA x o l) + asInt o (srcB false x o l))⟩,
   ⟨.iaddsImm, .iadds, .w96, Ops.wide, fun x o l => saturated o (asInt o (srcA x o l) + asInt o (srcB true x o l))⟩,
   ⟨.imulh, .imulh, .w64, Ops.wide, fun x o l => highPart o (asInt o (srcA x o l) * asInt o (srcB false x o l))⟩,
   ⟨.imulhImm, .imulh, .w96, Ops.wide, fun x o l => highPart o (asInt o (srcA x o l) * asInt o (srcB true x o l))⟩,
   ⟨.imadw, .imadw, .w64, fun _ => true, fun x o l => mulAddWide o.signed (x.val o.a false l) (srcB false x o l) (x.val o.c true l)⟩,
   ⟨.imadwImm, .imadw, .w96, fun _ => true, fun x o l => mulAddWide o.signed (x.val o.a false l) (srcB true x o l) (x.val o.c true l)⟩,
   ⟨.imin, .imin, .w64, Ops.wide,
    fun x o l => if asInt o (srcA x o l) ≤ asInt o (srcB false x o l) then srcA x o l else srcB false x o l⟩,
   ⟨.iminImm, .imin, .w96, Ops.wide,
    fun x o l => if asInt o (srcA x o l) ≤ asInt o (srcB true x o l) then srcA x o l else srcB true x o l⟩,
   ⟨.imax, .imax, .w64, Ops.wide,
    fun x o l => if asInt o (srcB false x o l) ≤ asInt o (srcA x o l) then srcA x o l else srcB false x o l⟩,
   ⟨.imaxImm, .imax, .w96, Ops.wide,
    fun x o l => if asInt o (srcB true x o l) ≤ asInt o (srcA x o l) then srcA x o l else srcB true x o l⟩,
   ⟨.iabs, .iabs, .w64, Ops.wide, fun x o l => iabsV o.wide (mbit o.m 56) (srcA x o l)⟩,
   ⟨.ineg, .ineg, .w64, Ops.wide, fun x o l => inegV o.wide o.signed (mbit o.m 56) (srcA x o l)⟩]

/-- Moves (R133). -/
def moveRows : List LaneRow :=
  [⟨.mov, .mov, .w64, Ops.wide, srcA⟩,
   ⟨.movi, .movi, .w96, Ops.wide, fun _ o _ => immVal o.ty o.imm⟩,
   ⟨.movw, .movw, .w128, fun _ => true, fun _ o _ => o.imm⟩,
   ⟨.isel, .isel, .w64, Ops.wide, fun x o l => if inMask (x.g.pred (opNum o.c)) l then srcA x o l else srcB false x o l⟩,
   ⟨.iselImm, .isel, .w96, Ops.wide, fun x o l => if inMask (x.g.pred (opNum o.c)) l then srcA x o l else srcB true x o l⟩,
   ⟨.lea, .lea, .w64, fun _ => true,
    fun x o l => x.val o.a true l + BitVec.ofInt 64 (asInt o (srcB false x o l)) <<< mfld o.m 50 48⟩,
   ⟨.leaImm, .lea, .w96, fun _ => true,
    fun x o l => x.val o.a true l + BitVec.ofInt 64 (asInt o (srcB true x o l)) <<< mfld o.m 50 48⟩]

/-- Logic (R138, R140). -/
def logicRows : List LaneRow :=
  [⟨.andL, .andL, .w64, Ops.wide, fun x o l => srcA x o l &&& srcB false x o l⟩,
   ⟨.andImm, .andL, .w96, Ops.wide, fun x o l => srcA x o l &&& srcB true x o l⟩,
   ⟨.orL, .orL, .w64, Ops.wide, fun x o l => srcA x o l ||| srcB false x o l⟩,
   ⟨.orImm, .orL, .w96, Ops.wide, fun x o l => srcA x o l ||| srcB true x o l⟩,
   ⟨.xorL, .xorL, .w64, Ops.wide, fun x o l => srcA x o l ^^^ srcB false x o l⟩,
   ⟨.xorImm, .xorL, .w96, Ops.wide, fun x o l => srcA x o l ^^^ srcB true x o l⟩,
   ⟨.andn, .andn, .w64, Ops.wide, fun x o l => srcA x o l &&& ~~~srcB false x o l⟩,
   ⟨.andnImm, .andn, .w96, Ops.wide, fun x o l => srcA x o l &&& ~~~srcB true x o l⟩,
   ⟨.notL, .notL, .w64, Ops.wide, fun x o l => ~~~srcA x o l⟩,
   ⟨.bmux, .bmux, .w64, Ops.wide, fun x o l => bmuxV (mfld o.m 55 48) (srcA x o l) (srcB false x o l) (srcC x o l)⟩,
   ⟨.bmuxImm, .bmux, .w96, Ops.wide, fun x o l => bmuxV (mfld o.m 55 48) (srcA x o l) (srcB true x o l) (srcC x o l)⟩]

/-- Shifts, bit counts and bit fields (R139, R141, R142). -/
def bitRows : List LaneRow :=
  [⟨.shl, .shl, .w64, Ops.wide, fun x o l => srcA x o l <<< (x.valB32 false o l).toNat⟩,
   ⟨.shlImm, .shl, .w96, Ops.wide, fun x o l => srcA x o l <<< (x.valB32 true o l).toNat⟩,
   ⟨.shr, .shr, .w64, Ops.wide, fun x o l => srcA x o l >>> (x.valB32 false o l).toNat⟩,
   ⟨.shrImm, .shr, .w96, Ops.wide, fun x o l => srcA x o l >>> (x.valB32 true o l).toNat⟩,
   ⟨.sar, .sar, .w64, Ops.wide, fun x o l => (asSigned o.wide (srcA x o l)).sshiftRight (x.valB32 false o l).toNat⟩,
   ⟨.sarImm, .sar, .w96, Ops.wide, fun x o l => (asSigned o.wide (srcA x o l)).sshiftRight (x.valB32 true o l).toNat⟩,
   ⟨.rotl, .rotl, .w64, Ops.wide, fun x o l => rotlV o.wide (srcA x o l) (x.valB32 false o l).toNat⟩,
   ⟨.rotlImm, .rotl, .w96, Ops.wide, fun x o l => rotlV o.wide (srcA x o l) (x.valB32 true o l).toNat⟩,
   ⟨.popc, .popc, .w64, fun _ => false, fun x o l => BitVec.ofNat 64 (popcV (widthOf o.wide) (srcA x o l))⟩,
   ⟨.clz, .clz, .w64, fun _ => false, fun x o l => BitVec.ofNat 64 (clzV (widthOf o.wide) (srcA x o l))⟩,
   ⟨.ctz, .ctz, .w64, fun _ => false, fun x o l => BitVec.ofNat 64 (ctzV (widthOf o.wide) (srcA x o l))⟩]
    ++ [⟨.brev, .brev, .w64, Ops.wide, fun x o l => brevV (widthOf o.wide) (srcA x o l)⟩,
   ⟨.bfx, .bfx, .w64, Ops.wide, fun x o l => bfxV o.wide o.signed (srcA x o l) (x.valB32 false o l)⟩,
   ⟨.bfxImm, .bfx, .w96, Ops.wide, fun x o l => bfxV o.wide o.signed (srcA x o l) (x.valB32 true o l)⟩,
   ⟨.bfi, .bfi, .w64, Ops.wide, fun x o l => bfiV o.wide (srcA x o l) (x.valB32 false o l) (srcC x o l)⟩,
   ⟨.bfiImm, .bfi, .w96, Ops.wide, fun x o l => bfiV o.wide (srcA x o l) (x.valB32 true o l) (srcC x o l)⟩]

/-- Each instruction of a table completes, and its destination reads as the table says in every lane that it writes. -/
def LaneResults (rows : List LaneRow) : Prop :=
  ∀ r ∈ rows, ∀ (o : Ops) (s : State) (x : IC), Plain s o.g (footOf r.op r.len o) x →
    ∃ t g', exec (r.con o) s = .next t ∧ t.group? x.cu.gid = some g' ∧
      ∀ l, resultLane x.act o.d l →
        g'.reads (x.g.opV o.d) o.d (r.wide o) l = heldAs o.d (r.wide o) o.signed (r.f x o l)

/-- An instruction that gives each active lane of one V register a 32-bit result and may raise flags. -/
structure FltRow where
  con : Ops → Instr
  op : Op
  len : Len
  f : IC → Ops → Nat → Nat × Fl

/-- B as an FP32 code. -/
def codeB (im : Bool) (x : IC) (o : Ops) (l : Nat) : Nat := x.codeB im o l

/-- FP32 arithmetic (R65, R152, R153, R156). -/
def fltRows : List FltRow :=
  [⟨.fadd, .fadd, .w64, fun x o l => fltAdd .f32 x.rnd.wide 0 (x.codeA o l) (codeB false x o l)⟩,
   ⟨.faddImm, .fadd, .w96, fun x o l => fltAdd .f32 x.rnd.wide 0 (x.codeA o l) (codeB true x o l)⟩,
   ⟨.fsub, .fsub, .w64, fun x o l => fltAdd .f32 x.rnd.wide 0 (x.codeA o l) (codeB false x o l ^^^ 2 ^ 31)⟩,
   ⟨.fsubImm, .fsub, .w96, fun x o l => fltAdd .f32 x.rnd.wide 0 (x.codeA o l) (codeB true x o l ^^^ 2 ^ 31)⟩,
   ⟨.fmul, .fmul, .w64, fun x o l => fltMul .f32 x.rnd.wide 0 (x.codeA o l) (codeB false x o l)⟩,
   ⟨.fmulImm, .fmul, .w96, fun x o l => fltMul .f32 x.rnd.wide 0 (x.codeA o l) (codeB true x o l)⟩,
   ⟨.ffma, .ffma, .w64, fun x o l => fltFma .f32 x.rnd.wide 0 (x.codeA o l) (codeB false x o l) (x.codeC o l)⟩,
   ⟨.ffmaImm, .ffma, .w96, fun x o l => fltFma .f32 x.rnd.wide 0 (x.codeA o l) (codeB true x o l) (x.codeC o l)⟩,
   ⟨.fmin, .fmin, .w64, fun x o l => fltMinMax false x.rnd.ftz (x.codeA o l) (codeB false x o l)⟩,
   ⟨.fminImm, .fmin, .w96, fun x o l => fltMinMax false x.rnd.ftz (x.codeA o l) (codeB true x o l)⟩,
   ⟨.fmax, .fmax, .w64, fun x o l => fltMinMax true x.rnd.ftz (x.codeA o l) (codeB false x o l)⟩,
   ⟨.fmaxImm, .fmax, .w96, fun x o l => fltMinMax true x.rnd.ftz (x.codeA o l) (codeB true x o l)⟩]
    ++ [⟨.fscale, .fscale, .w64, fun x o l => fltScale x.rnd.wide (x.codeA o l) (x.valB32 false o l)⟩,
   ⟨.fscaleImm, .fscale, .w96, fun x o l => fltScale x.rnd.wide (x.codeA o l) (x.valB32 true o l)⟩,
   ⟨.rcp, .rcp, .w64, fun x o l =>
     let r := rounded (fun v => (rcpNum v, false)) x.rnd.ftz (x.codeA o l)
     (flush x.rnd.ftz r.1, { nv := r.2 || Fmt.f32.snan (x.codeA o l) })⟩,
   ⟨.rsq, .rsq, .w64, fun x o l =>
     let r := rounded rsqNum x.rnd.ftz (x.codeA o l)
     (flush x.rnd.ftz r.1, { nv := r.2 || Fmt.f32.snan (x.codeA o l) })⟩,
   ⟨.sqrt, .sqrt, .w64, fun x o l =>
     let r := rounded sqrtNum x.rnd.ftz (x.codeA o l)
     (flush x.rnd.ftz r.1, { nv := r.2 || Fmt.f32.snan (x.codeA o l) })⟩]

/-- One of the four products of IDOT4, of bytes that are read signed or unsigned (R143). -/
def dotTerm (o : Ops) (a b : W32) (k : Nat) : Int :=
  (if mbit o.m 48 then ((a.extractLsb' (8 * k) 8).toNat : Int) else (a.extractLsb' (8 * k) 8).toInt)
    * (if mbit o.m 49 then ((b.extractLsb' (8 * k) 8).toNat : Int) else (b.extractLsb' (8 * k) 8).toInt)

/-- C plus the four products, exactly (R143). -/
def dotSum (o : Ops) (a b c : W32) : Int :=
  c.toInt + dotTerm o a b 0 + dotTerm o a b 1 + dotTerm o a b 2 + dotTerm o a b 3

/-- Rounding to integral values, conversion from integers, and the dot product of bytes (R143, R156, R159). -/
def roundRows : List FltRow :=
  [⟨.frnd, .frnd, .w64, fun x o l =>
     fltRnd (if mfld o.m 50 48 = 0 then x.rnd.wide else { x.rnd with mode := mfld o.m 50 48 - 1 }) (x.codeA o l)⟩,
   ⟨.cvtf, .cvtf, .w64, fun x o l =>
     ((Fmt.f32.enc x.rnd.wide 0 (.ofInt (iv (decide (2 ≤ mfld o.m 49 48)) (mfld o.m 49 48 % 2 == 0)
       (x.val o.a (decide (2 ≤ mfld o.m 49 48)) l)) 0)).1, {})⟩,
   ⟨.idot4, .idot4, .w64, fun x o l =>
     let t := dotSum o (x.val32 o.a l) (x.val32 o.b l) (x.val32 o.c l)
     ((BitVec.ofInt 32 (if mbit o.m 56 then max (-(2 ^ 31)) (min (2 ^ 31 - 1) t) else t)).toNat, {})⟩]

/-- The random state of a lane after `n` draws, which only the stochastic mode takes (R66, R164). -/
def drawn (x : IC) (sto : Bool) (l : Nat) : Nat → W32
  | 0 => x.g.rng.getD l 0
  | n + 1 => if sto then rngNext (drawn x sto l n) else drawn x sto l n

/-- Element `e` of a packed register, of 16 bits. -/
def elem16 (v : W32) (e : Nat) : Nat := (v.extractLsb' (16 * e) 16).toNat

/-- A packed instruction: constructor, opcode, length, and one element's operation with its draw (R157). -/
structure PackRow where
  con : Ops → Instr
  op : Op
  len : Len
  f : IC → Ops → Nat → Nat → Nat → Nat × Fl

/-- The 16-bit format of a packed instruction (R157). -/
def packed16 (o : Ops) : Fmt := if mbit o.m 48 then .bf16 else .f16

/-- HADD2, HMUL2 and HFMA2 (R157). -/
def packRows : List PackRow :=
  [⟨.hadd2, .hadd2, .w64, fun x o l e r =>
     fltAdd (packed16 o) x.rnd r (elem16 (x.val32 o.a l) e) (elem16 (x.valB32 false o l) e)⟩,
   ⟨.hadd2Imm, .hadd2, .w96, fun x o l e r =>
     fltAdd (packed16 o) x.rnd r (elem16 (x.val32 o.a l) e) (elem16 (x.valB32 true o l) e)⟩,
   ⟨.hmul2, .hmul2, .w64, fun x o l e r =>
     fltMul (packed16 o) x.rnd r (elem16 (x.val32 o.a l) e) (elem16 (x.valB32 false o l) e)⟩,
   ⟨.hmul2Imm, .hmul2, .w96, fun x o l e r =>
     fltMul (packed16 o) x.rnd r (elem16 (x.val32 o.a l) e) (elem16 (x.valB32 true o l) e)⟩,
   ⟨.hfma2, .hfma2, .w64, fun x o l e r =>
     fltFma (packed16 o) x.rnd r (elem16 (x.val32 o.a l) e) (elem16 (x.valB32 false o l) e) (elem16 (x.val32 o.c l) e)⟩,
   ⟨.hfma2Imm, .hfma2, .w96, fun x o l e r =>
     fltFma (packed16 o) x.rnd r (elem16 (x.val32 o.a l) e) (elem16 (x.valB32 true o l) e) (elem16 (x.val32 o.c l) e)⟩]

/-- The source formats of conversions and the packed formats, by their codes (R150, R158, R160). -/
def sourceFmt (n : Nat) : Fmt := [Fmt.f32, .f16, .bf16].getD n .bf16
def packedFmt (n : Nat) : Fmt := [Fmt.bf16, .f16, .e4m3, .e5m2, .e3m2, .e2m3, .e2m1].getD n .e2m1

/-- Source element `i` of a lane of CVTN, as a value (R67, R160). -/
def cvtnElem (x : IC) (o : Ops) (l i : Nat) : Machine.Num :=
  (sourceFmt (mfld o.m 54 53)).dec x.rnd.ftz
    (x.g.runBits (x.g.opV o.a) l ((sourceFmt (mfld o.m 54 53)).width * i) (sourceFmt (mfld o.m 54 53)).width)

/-- It is a signalling NaN (R151). -/
def cvtnSnan (x : IC) (o : Ops) (l i : Nat) : Bool :=
  (sourceFmt (mfld o.m 54 53)).snan
    (x.g.runBits (x.g.opV o.a) l ((sourceFmt (mfld o.m 54 53)).width * i) (sourceFmt (mfld o.m 54 53)).width)

/-- The FP32 code of an integer. -/
def intCode (n : Int) : Nat := (Fmt.f32.enc ⟨0, false, false⟩ 0 (.ofInt n 0)).1

/-- A special function: constructor, opcode, what R73 and R74 state of it (`v ftz c d`: the result of the code `c` is the code
`d`), and the operands in error, beside signalling NaNs. -/
structure SpecialRow where
  con : Ops → Instr
  op : Op
  v : Bool → Nat → Nat → Prop
  err : Bool → Nat → Prop

/-- A value below zero: subnormals read as zeros under FTZ (R67). -/
def belowZero (ftz : Bool) (c : Nat) : Prop := (if ftz then 0x80800000 else 0x80000001) ≤ c ∧ c ≤ 0xFF800000

/-- The special cases and the exact results of EX2, LG2, SIN, COS and TANH, by the codes of operands and results (R73, R74):
EX2 of the infinities, of 128 and more, and of integers; LG2 of zeros, of infinity, of values below zero and of powers of two;
SIN and COS of zeros and infinities; TANH from 9 on. -/
def specialRows : List SpecialRow :=
  [⟨.ex2, .ex2, fun _ c d => (0x43000000 ≤ c ∧ c ≤ 0x7F800000 ∧ d = 0x7F800000) ∨ (c = 0xFF800000 ∧ d = 0) ∨
      (c = 0x80000000 ∧ d = 0x3F800000) ∨
      ∃ k : Nat, 1 ≤ k ∧ k ≤ 254 ∧ c = intCode ((k : Int) - 127) ∧ d = k * 2 ^ 23, fun _ _ => False⟩,
   ⟨.lg2, .lg2, fun z c d => (c % 2 ^ 31 = 0 ∧ d = 0xFF800000) ∨ (c = 0x7F800000 ∧ d = 0x7F800000) ∨
      (belowZero z c ∧ d = 0x7FC00000) ∨ ∃ k : Nat, 1 ≤ k ∧ k ≤ 254 ∧ c = k * 2 ^ 23 ∧ d = intCode ((k : Int) - 127), belowZero⟩,
   ⟨.sin, .sin, fun _ c d => (c % 2 ^ 31 = 0 ∧ d = c) ∨ (c % 2 ^ 31 = 0x7F800000 ∧ d = 0x7FC00000),
    fun _ c => c % 2 ^ 31 = 0x7F800000⟩,
   ⟨.cos, .cos, fun _ c d => (c % 2 ^ 31 = 0 ∧ d = 0x3F800000) ∨ (c % 2 ^ 31 = 0x7F800000 ∧ d = 0x7FC00000),
    fun _ c => c % 2 ^ 31 = 0x7F800000⟩,
   ⟨.tanh, .tanh, fun _ c d => 0x41100000 ≤ c % 2 ^ 31 ∧ c % 2 ^ 31 ≤ 0x7F800000 ∧ d = c / 2 ^ 31 * 2 ^ 31 + 0x3F800000,
    fun _ _ => False⟩]

/-- Each instruction of a table completes; every active lane of its V destination holds the result; and the GSR keeps its
bits and gains those that the active lanes raise (R121). -/
def FltResults (rows : List FltRow) : Prop :=
  ∀ r ∈ rows, ∀ (o : Ops) (s : State) (x : IC), Plain s o.g (footOf r.op r.len o) x →
    ∃ t g', exec (r.con o) s = .next t ∧ t.group? x.cu.gid = some g' ∧
      (∀ l, inMask x.act l = true → g'.rdV (x.g.opV o.d) l = BitVec.ofNat 32 (r.f x o l).1) ∧
      g'.gsr = x.g.gsr ||| ((lanesOf x.act).foldl (fun a l => a.or (r.f x o l).2) ({} : Fl)).bits

end Sys2Proof.Claims

open Sys2Proof Sys2Proof.Machine Sys2Proof.Claims

/-! ## Class 0 and class 1: instructions that only compute over registers -/

/-- Every instruction that only computes over registers completes where its checks pass and no lane dies: the group's
registers, predicates, GSR and random state are those that its effects give the state before it, and nothing but groups
changes. The rules of the effects are R128 to R193 and R274 to R278. -/
def Sys2Proof.Claims.RegisterInstructionsComplete : Prop :=
  ∀ r ∈ regRows, ∀ (o : Ops) (s : State) (x : IC), Plain s o.g (footOf r.op r.len o) x → (r.eff x o).die = 0 →
    ∃ t g', exec (r.con o) s = .next t ∧ t.group? x.cu.gid = some g' ∧ GroupsOnly s t x.cu.gid ∧
      g'.v = (x.g.commit x.act (r.eff x o)).v ∧ g'.s = (x.g.commit x.act (r.eff x o)).s ∧
      g'.x = (x.g.commit x.act (r.eff x o)).x ∧ g'.p = (x.g.commit x.act (r.eff x o)).p ∧
      g'.k = (x.g.commit x.act (r.eff x o)).k ∧ g'.gsr = x.g.gsr ||| (r.eff x o).gsr ∧
      g'.rng = (x.g.commit x.act (r.eff x o)).rng

/-- The frame of the same instructions, as words of the machine: every byte of memory reads as before, and of the group
nothing changes but the registers that the word writes (in the active lanes), the GSR, which keeps its bits, the random
state, the tracking of the region and the split's place (R114, R117, R132, R151, R175). -/
def Obligations.RegisterInstructionsFrame : Prop :=
  ∀ r ∈ regRows, ∀ (o : Ops) (s : State) (x : IC), opsWellFormed r.op r.len o = true →
    Plain s o.g (footOf r.op r.len o) x → (r.eff x o).die = 0 →
    ∃ t g', exec (r.con o) s = .next t ∧ t.group? x.cu.gid = some g' ∧ GroupsOnly s t x.cu.gid ∧ MemoryKept s t ∧
      RegistersKept x.g g' (footOf r.op r.len o x) x.act ∧ g'.gsr &&& x.g.gsr = x.g.gsr

/-- Sums, differences, products and their carries in wrap at the type's width (R134, R135, R131). -/
def Sys2Proof.Claims.SumsAndProducts : Prop := LaneResults sumRows

/-- Saturating sums, upper halves of products, wide multiply-adds, minima, maxima and magnitudes (R134 to R136). -/
def Sys2Proof.Claims.SaturationAndOrder : Prop := LaneResults orderRows

/-- Sums, differences, products and their carries in wrap at the type's width (R134, R135, R131). Saturating sums,
upper halves of products, wide multiply-adds, minima, maxima and magnitudes (R134 to R136). -/
def Obligations.ArithmeticResults : Prop := Sys2Proof.Claims.SumsAndProducts ∧ Sys2Proof.Claims.SaturationAndOrder

/-- MOV, MOVI, MOVW, ISEL and LEA give each lane of their destination the source, the immediate, the selected source or the
address (R133, R138, R144). -/
def Sys2Proof.Claims.MovesAndSelections : Prop := LaneResults moveRows

/-- Bitwise logic and BMUX (R140). -/
def Sys2Proof.Claims.BitwiseLogic : Prop := LaneResults logicRows

/-- ISEL gives each active lane A where its bit of the predicate is set and B where it is clear, and changes nothing but its
destination (R138). -/
def Sys2Proof.Claims.IselSelects : Prop :=
  ∀ (o : Ops) (s : State) (x : IC) (im : Bool), opsWellFormed .isel (if im then .w96 else .w64) o = true →
    Plain s o.g (footOf .isel (if im then .w96 else .w64) o) x →
    ∃ t g', exec (if im then .iselImm o else .isel o) s = .next t ∧ t.group? x.cu.gid = some g' ∧ GroupsOnly s t x.cu.gid ∧
      RegistersKept x.g g' (footOf .isel (if im then .w96 else .w64) o x) x.act ∧ g'.gsr = x.g.gsr ∧
      ∀ l, inMask x.act l = true → g'.reads (x.g.opV o.d) o.d o.wide l =
        heldAs o.d o.wide o.signed (if inMask (x.g.pred (opNum o.c)) l then x.val o.a o.wide l else x.valB im o l)

/-- Shifts, whose counts of W or more leave zeros or copies of the sign, bit counts and bit fields (R139, R141, R142). -/
def Sys2Proof.Claims.ShiftsAndBitFields : Prop := LaneResults bitRows

/-- BSRLD sets up a run of five registers from its operands. BSR reads the next field of a stream: the low w bits of the
window from its position, 0 where w is not from 1 to 32; the new run holds the state after it, which takes a refill word, or
zeros, once the position passes 32; and the empty predicate says whether no refill is left (R145 to R147). -/
def Sys2Proof.Claims.StreamResults : Prop :=
  ∀ (o : Ops) (s : State) (x : IC),
    (Plain s o.g (footOf .bsrld .w64 o) x →
      ∃ t g', exec (.bsrld o) s = .next t ∧ t.group? x.cu.gid = some g' ∧
        ∀ l, inMask x.act l = true → g'.rdPair (x.g.opV o.d) l = x.val o.a true l ∧
          g'.rdV (x.g.opV o.d + 2) l = x.g.rdV (x.g.opV o.b) l ∧ g'.rdV (x.g.opV o.d + 3) l = x.g.rdV (x.g.opV o.b + 1) l ∧
          g'.rdV (x.g.opV o.d + 4) l = BitVec.ofNat 32 ((x.val32 o.c l).toNat % 32 + 64 * (2 - mfld o.m 49 48))) ∧
    (Plain s o.g (footOf .bsr .w64 o) x →
      ∃ t g', exec (.bsr o) s = .next t ∧ t.group? x.cu.gid = some g' ∧
        ∀ l, inMask x.act l = true →
          (let st := (x.g.rdV (x.g.opV o.a + 4) l).toNat
           let win := x.g.rdPair (x.g.opV o.a) l
           let pos := st % 64
           let cnt := min 2 (st / 64 % 4)
           let w := (x.val32 o.b l).toNat
           let bad : Bool := w < 1 || 32 < w
           let shift : Bool := !bad && 32 ≤ pos + w
           let refill : W32 := if cnt = 2 then x.g.rdV (x.g.opV o.a + 2) l else if cnt = 1 then x.g.rdV (x.g.opV o.a + 3) l else 0
           let win' : W64 := if shift then win >>> 32 ||| (refill.setWidth 64 <<< 32) else win
           let cnt' := if shift then cnt - 1 else cnt
           let pos' := if bad then pos else if shift then pos + w - 32 else pos + w
           g'.rdV (x.g.opV o.d) l = (if bad then 0 else BitVec.ofNat 32 ((win >>> pos).toNat % 2 ^ w)) ∧
           (∀ i, i < 5 → x.g.opV o.c + i ≠ x.g.opV o.d → g'.rdV (x.g.opV o.c + i) l =
             (match i with
              | 0 => win'.setWidth 32
              | 1 => win'.extractLsb' 32 32
              | 2 => x.g.rdV (x.g.opV o.a + 2) l
              | 3 => x.g.rdV (x.g.opV o.a + 3) l
              | _ => BitVec.ofNat 32 (pos' + 64 * cnt'))) ∧
           (mbit o.m 55 = true → mfld o.m 54 52 ≠ 7 → inMask (g'.p.getD (mfld o.m 54 52) 0) l = decide (cnt' = 0))))

/-- MOV, MOVI, MOVW, ISEL and LEA give each lane of their destination the source, the immediate, the selected source
or the address (R133, R138, R144). ISEL gives each active lane A where its bit of the predicate is set and B where it
is clear, and changes nothing but its destination (R138). Bitwise logic and BMUX (R140). Shifts, whose counts of W or
more leave zeros or copies of the sign, bit counts and bit fields (R139, R141, R142). BSRLD sets up a run of five
registers from its operands. BSR reads the next field of a stream: the low w bits of the window from its position, 0
where w is not from 1 to 32; the new run holds the state after it, which takes a refill word, or zeros, once the
position passes 32; and the empty predicate says whether no refill is left (R145 to R147). -/
def Obligations.MovesLogicAndShifts : Prop := Sys2Proof.Claims.MovesAndSelections ∧ Sys2Proof.Claims.IselSelects ∧ Sys2Proof.Claims.BitwiseLogic ∧ Sys2Proof.Claims.ShiftsAndBitFields ∧ Sys2Proof.Claims.StreamResults

/-- The carry-out predicate of IADD and IADDC, and the borrow-out of ISUB and ISUBB: where CO enables it, each active
lane's bit says whether the sum is 2^W or more, or A is below B with the borrow; other lanes keep theirs (R134). -/
def Sys2Proof.Claims.CarriesOut : Prop :=
  ∀ (o : Ops) (s : State) (x : IC) (im : Bool),
    mbit o.m 55 = true → mfld o.m 54 52 ≠ 7 →
    (Plain s o.g (footOf .iadd (if im then .w96 else .w64) o) x →
      ∃ t g', exec (if im then .iaddImm o else .iadd o) s = .next t ∧ t.group? x.cu.gid = some g' ∧
        ∀ l, l < 64 → inMask (g'.p.getD (mfld o.m 54 52) 0) l =
          if inMask x.act l then decide (2 ^ widthOf o.wide ≤ (srcA x o l).toNat + (srcB im x o l).toNat)
          else inMask (x.g.p.getD (mfld o.m 54 52) 0) l) ∧
    (Plain s o.g (footOf .iaddc (if im then .w96 else .w64) o) x →
      ∃ t g', exec (if im then .iaddcImm o else .iaddc o) s = .next t ∧ t.group? x.cu.gid = some g' ∧
        ∀ l, l < 64 → inMask (g'.p.getD (mfld o.m 54 52) 0) l =
          if inMask x.act l then
            decide (2 ^ widthOf o.wide ≤ (srcA x o l).toNat + (srcB im x o l).toNat + (carryBit x o l).toNat)
          else inMask (x.g.p.getD (mfld o.m 54 52) 0) l) ∧
    (Plain s o.g (footOf .isub (if im then .w96 else .w64) o) x →
      ∃ t g', exec (if im then .isubImm o else .isub o) s = .next t ∧ t.group? x.cu.gid = some g' ∧
        ∀ l, l < 64 → inMask (g'.p.getD (mfld o.m 54 52) 0) l =
          if inMask x.act l then decide ((srcA x o l).toNat < (srcB im x o l).toNat)
          else inMask (x.g.p.getD (mfld o.m 54 52) 0) l) ∧
    (Plain s o.g (footOf .isubb (if im then .w96 else .w64) o) x →
      ∃ t g', exec (if im then .isubbImm o else .isubb o) s = .next t ∧ t.group? x.cu.gid = some g' ∧
        ∀ l, l < 64 → inMask (g'.p.getD (mfld o.m 54 52) 0) l =
          if inMask x.act l then decide ((srcA x o l).toNat < (srcB im x o l).toNat + (carryBit x o l).toNat)
          else inMask (x.g.p.getD (mfld o.m 54 52) 0) l)

/-- ICMP writes each active lane's bit of its predicate with the comparison of A and B as numbers of the type, and leaves
the other lanes' bits; a P7 destination receives no change (R137, R118). -/
def Sys2Proof.Claims.CompareWritesPredicate : Prop :=
  ∀ (o : Ops) (s : State) (x : IC) (im : Bool), Plain s o.g (footOf .icmp (if im then .w96 else .w64) o) x →
    ∃ t g', exec (if im then .icmpImm o else .icmp o) s = .next t ∧ t.group? x.cu.gid = some g' ∧
      (opNum o.d = 7 → g'.p = x.g.p) ∧
      (opNum o.d ≠ 7 → ∀ l, l < 64 → inMask (g'.p.getD (opNum o.d) 0) l =
        if inMask x.act l then
          (let a := asInt o (srcA x o l)
           let b := asInt o (srcB im x o l)
           match mfld o.m 50 48 with
           | 0 => decide (a = b)
           | 1 => decide (a ≠ b)
           | 2 => decide (a < b)
           | 3 => decide (a ≤ b)
           | 4 => decide (b < a)
           | _ => decide (b ≤ a))
        else inMask (x.g.p.getD (opNum o.d) 0) l)

namespace Sys2Proof.Claims

/-- A finite value, a zero among them, over 2^-k, where its exponent is at least -k. -/
def fixedAt (k : Nat) : Machine.Num → Int
  | .fin neg m e => sgn neg (m * 2 ^ (e + k).toNat)
  | _ => 0

/-- A value that is no NaN and no infinity. -/
def finiteNum : Machine.Num → Prop
  | .fin _ _ _ => True
  | .zero _ => True
  | _ => False

/-- The one rounding of the exact value t·2^-320 into a format, with the flags that it raises; an exact zero has the given
sign. -/
def roundedOnce (f : Fmt) (rd : Rnd) (r : Nat) (neg : Bool) (t : Int) : Nat × Fl :=
  f.enc rd r (if t = 0 then .zero neg else .ofInt t (-320))

end Sys2Proof.Claims

/-- The sum, the product and the fused product and sum of finite FP32, FP16 and BF16 operands are one rounding of the exact result;
an exact zero has the sign of both terms, or of RDN where their signs differ. A NaN operand, or infinities of opposite signs, give a
sum the canonical NaN; an infinity and a finite operand give it that infinity (R55, R65, R151, R152, R157; the zero under the stochastic mode: log entry 67). -/
def Sys2Proof.Claims.ExactArithmetic : Prop :=
  ∀ f ∈ [Fmt.f32, .f16, .bf16], ∀ (rd : Rnd) (r a b c : Nat),
    (let x := f.dec rd.ftz a
     let y := f.dec rd.ftz b
     let z := f.dec rd.ftz c
     (finiteNum x → finiteNum y →
      fltAdd f rd r a b = roundedOnce f rd r (if x.neg? = y.neg? then x.neg? else rd.mode == 3) (fixedAt 320 x + fixedAt 320 y) ∧
      fltMul f rd r a b = roundedOnce f rd r (x.neg? != y.neg?) (fixedAt 160 x * fixedAt 160 y) ∧
      (finiteNum z → fltFma f rd r a b c =
        roundedOnce f rd r (if (x.neg? != y.neg?) = z.neg? then z.neg? else rd.mode == 3)
          (fixedAt 160 x * fixedAt 160 y + fixedAt 320 z))) ∧
     ((x = .nan ∨ y = .nan ∨ ∃ n, x = .inf n ∧ y = .inf (!n)) → (fltAdd f rd r a b).1 = f.qnan) ∧
     ∀ n, x = .inf n → finiteNum y → fltAdd f rd r a b = (f.code n (2 ^ f.eb - 1) 0, {}))

/-- FP32 arithmetic, minima and maxima, scaling, and the correctly rounded functions: each active lane holds one rounding of the
exact result, and the GSR gains the flags that the active lanes raise (stochastic corners: log entry 16) (R65, R72, R121, R152, R153). -/
def Sys2Proof.Claims.FloatRows : Prop := FltResults fltRows

/-- FRND gives the operand rounded to an integral value under its mode, CVTF an integer rounded to FP32, and IDOT4 the sum of
C and four products of bytes, held to 32 bits or saturated (R143, R156, R159). -/
def Sys2Proof.Claims.RoundsAndDots : Prop := FltResults roundRows

/-- HADD2, HMUL2 and HFMA2 give each active lane two results, each rounded once with a draw of its own under stochastic rounding,
element 0 first; the random states advance by those draws (a zero sum of opposite signs there: log entry 67) (R157, R164). -/
def Sys2Proof.Claims.PackedArithmetic : Prop :=
  ∀ r ∈ packRows, ∀ (o : Ops) (s : State) (x : IC), Plain s o.g (footOf r.op r.len o) x →
    (let sto := x.rnd.mode == 6
     let res (l e : Nat) : Nat × Fl := r.f x o l e (drawOf (drawn x sto l (e + 1)))
     ∃ t g', exec (r.con o) s = .next t ∧ t.group? x.cu.gid = some g' ∧
      (∀ l, inMask x.act l = true → g'.rdV (x.g.opV o.d) l = BitVec.ofNat 32 ((res l 1).1 * 65536 + (res l 0).1)) ∧
      g'.gsr = x.g.gsr ||| ((lanesOf x.act).foldl (fun a l => a.or ((res l 0).2.or (res l 1).2)) ({} : Fl)).bits ∧
      ∀ l, l < 64 → g'.rng.getD l 0 = if inMask x.act l then drawn x sto l 2 else x.g.rng.getD l 0)

/-- CVTI gives each active lane its operand rounded to an integer of the type, held within its limits. CVTN packs the lane's source
elements, each rounded into the format, or gives the lane's nibbles of a Q4O block and the header. CVTW gives the elements of A
exactly: of a Q4O block those that FP32 holds (log entry 68). The GSR gains the flags of the active lanes' elements (NV, OF, FMT), and
each active lane's random state advances by a draw for each element that rounds under the stochastic mode (log entry 16) (R60, R61, R66, R67, R121, R150, R151, R158, R160 to R162). -/
def Sys2Proof.Claims.Conversions : Prop :=
  ∀ (o : Ops) (s : State) (x : IC),
    (Plain s o.g (footOf .cvti .w64 o) x →
      (let t := mfld o.m 50 48
       let w := [32, 32, 64, 64, 16, 16, 8, 8].getD t 32
       let f := sourceFmt (mfld o.m 52 51)
       let rd : Rnd := if mbit o.m 53 then { x.rnd with mode := 1 } else if 4 ≤ t then x.rnd else x.rnd.wide
       let lim : Int × Int := if t % 2 = 0 then (-(2 ^ (w - 1)), 2 ^ (w - 1) - 1) else (0, 2 ^ w - 1)
       let res (l : Nat) : Int × Fl := (f.dec rd.ftz ((x.val32 o.a l).toNat % 2 ^ f.width)).toInt rd
         (drawOf (drawn x (rd.mode == 6) l 1)) lim.1 lim.2
       let fl (l : Nat) : Fl := (res l).2.or { nv := f.snan ((x.val32 o.a l).toNat % 2 ^ f.width) }
       ∃ u g', exec (.cvti o) s = .next u ∧ u.group? x.cu.gid = some g' ∧
        g'.gsr = x.g.gsr ||| ((lanesOf x.act).foldl (fun a l => a.or (fl l)) ({} : Fl)).bits ∧
        (∀ l, l < 64 → g'.rng.getD l 0 = if inMask x.act l then drawn x (rd.mode == 6) l 1 else x.g.rng.getD l 0) ∧
        ∀ l, inMask x.act l = true → g'.rdV (x.g.opV o.d) l = BitVec.ofInt 32 (res l).1 ∧
          (w = 64 → g'.rdPair (x.g.opV o.d) l = BitVec.ofInt 64 (res l).1))) ∧
    (Plain s o.g (footOf .cvtn .w64 o) x → mfld o.m 52 48 < 7 →
      (let f := packedFmt (mfld o.m 52 48)
       let n := packedCount (mfld o.m 52 48)
       let res (l i : Nat) : Nat × Fl := f.enc x.rnd (drawOf (drawn x (x.rnd.mode == 6) l (i + 1))) (cvtnElem x o l i)
       ∃ u g', exec (.cvtn o) s = .next u ∧ u.group? x.cu.gid = some g' ∧
        g'.gsr = x.g.gsr ||| ((lanesOf x.act).foldl (fun a l => (List.range n).foldl
          (fun a i => a.or ((res l i).2.or { nv := cvtnSnan x o l i })) a) ({} : Fl)).bits ∧
        (∀ l, l < 64 → g'.rng.getD l 0 =
          if inMask x.act l then drawn x (x.rnd.mode == 6) l n else x.g.rng.getD l 0) ∧
        ∀ l, inMask x.act l = true → g'.rdV (x.g.opV o.d) l =
          BitVec.ofNat 32 (packBits f.width ((List.range n).map fun i => (res l i).1)))) ∧
    (Plain s o.g (footOf .cvtn .w64 o) x → mfld o.m 52 48 = 7 ∨ mfld o.m 52 48 = 8 →
      (let p := if mfld o.m 52 48 = 7 then 4 else 2
       let elems (l : Nat) : List Machine.Num := (List.range 8).map fun i => if inMask x.act l then cvtnElem x o l i else .zero false
       let draws (l : Nat) : List Nat := (List.range 8).map fun i =>
         if x.rnd.mode == 6 && inMask x.act l then drawOf (drawn x true l (i + 1)) else 0
       let block (l : Nat) : Nat × List Nat := q4oEncode x.rnd ((run (l / p * p) p).flatMap elems) ((run (l / p * p) p).flatMap draws)
       ∃ u g', exec (.cvtn o) s = .next u ∧ u.group? x.cu.gid = some g' ∧
        g'.gsr = x.g.gsr ||| (if (lanesOf x.act).any fun l => (List.range 8).any (cvtnSnan x o l) then 1 else 0) ∧
        (∀ l, l < 64 → g'.rng.getD l 0 =
          if inMask x.act l then drawn x (x.rnd.mode == 6) l 8 else x.g.rng.getD l 0) ∧
        ∀ l, inMask x.act l = true → g'.rdV (x.g.opV o.c) l = BitVec.ofNat 32 (block l).1 ∧
          (x.g.opV o.c ≠ x.g.opV o.d → g'.rdV (x.g.opV o.d) l =
            BitVec.ofNat 32 (packBits 4 (((block l).2.drop (8 * (l % p))).take 8))))) ∧
    (Plain s o.g (footOf .cvtw .w64 o) x →
      (let out (v : Machine.Num) := Fmt.f32.enc ⟨0, false, x.rnd.ftz⟩ 0 v
       let idx := mfld o.m 52 48
       let part (l i : Nat) : Nat := (x.val32 o.a l).toNat / 2 ^ ((packedFmt idx).width * i) % 2 ^ (packedFmt idx).width
       ∃ u g', exec (.cvtw o) s = .next u ∧ u.group? x.cu.gid = some g' ∧ g'.rng = x.g.rng ∧
        (idx < 7 → g'.gsr = x.g.gsr |||
          (if (lanesOf x.act).any fun l => (List.range (packedCount idx)).any fun i => (packedFmt idx).snan (part l i) then 1 else 0)) ∧
        (7 ≤ idx → g'.gsr = x.g.gsr |||
          (if (lanesOf x.act).any fun l => (List.range 4).any fun k =>
            (x.val32 o.a l).toNat / 256 ^ k % 16 != 8 && (x.val32 o.a l).toNat / 256 ^ k % 256 / 16 == 8 then 4 else 0)) ∧
        (mfld o.m 52 48 < 7 → ∀ l i, inMask x.act l = true → i < packedCount (mfld o.m 52 48) →
          (let f := packedFmt (mfld o.m 52 48)
           g'.rdV (x.g.opV o.d + i) l = BitVec.ofNat 32 (out (f.dec x.rnd.ftz
            ((x.val32 o.a l).toNat / 2 ^ (f.width * i) % 2 ^ f.width))).1)) ∧
        (7 ≤ mfld o.m 52 48 → ∀ l k, inMask x.act l = true → k < 4 →
          (let b := q4oByte ((x.val32 o.c l).toNat % 65536) ((x.val32 o.a l).toNat / 256 ^ k % 256) x.rnd.ftz
           ((out b.1).2.of = false → g'.rdV (x.g.opV o.d + 2 * k) l = BitVec.ofNat 32 (out b.1).1) ∧
           ((out b.2.1).2.of = false → g'.rdV (x.g.opV o.d + (2 * k + 1)) l = BitVec.ofNat 32 (out b.2.1).1)))))

/-- EX2, LG2, SIN, COS and TANH: the special cases and exact results; the same result for the same operand bits in every lane; the
invalid flag of a signalling NaN and of an operand in error alone; and TANH(−x) = −TANH(x) (R73, R74, R163). -/
def Sys2Proof.Claims.SpecialFunctions : Prop :=
  ∀ r ∈ specialRows, ∀ (o : Ops) (s : State) (x : IC), Plain s o.g (footOf r.op .w64 o) x →
    ∃ t g', exec (r.con o) s = .next t ∧ t.group? x.cu.gid = some g' ∧
      (∀ l, inMask x.act l = true →
        (∀ d, r.v x.rnd.ftz (x.codeA o l) d → g'.rdV (x.g.opV o.d) l = BitVec.ofNat 32 d) ∧
        (0x7F800000 < x.codeA o l % 2 ^ 31 → g'.rdV (x.g.opV o.d) l = 0x7FC00000) ∧
        ∀ m, inMask x.act m = true →
          (x.codeA o l = x.codeA o m → g'.rdV (x.g.opV o.d) l = g'.rdV (x.g.opV o.d) m) ∧
          (r.op = .tanh → x.codeA o l % 2 ^ 31 ≤ 0x7F800000 → x.codeA o m = x.codeA o l ^^^ 2 ^ 31 →
            g'.rdV (x.g.opV o.d) m = g'.rdV (x.g.opV o.d) l ^^^ 0x80000000)) ∧
      ((∃ l, inMask x.act l = true ∧ (r.err x.rnd.ftz (x.codeA o l) ∨ Fmt.f32.snan (x.codeA o l) = true)) →
        g'.gsr = x.g.gsr ||| 1) ∧
      ((∀ l, inMask x.act l = true → ¬ r.err x.rnd.ftz (x.codeA o l) ∧ Fmt.f32.snan (x.codeA o l) = false) →
        g'.gsr = x.g.gsr)

/-- The sum, the product and the fused product and sum of finite FP32, FP16 and BF16 operands are one rounding of the
exact result; an exact zero has the sign of both terms, or of RDN where their signs differ. A NaN operand, or
infinities of opposite signs, give a sum the canonical NaN; an infinity and a finite operand give it that infinity
(R55, R65, R151, R152, R157; the zero under the stochastic mode: log entry 67). FP32 arithmetic, minima and maxima,
scaling, and the correctly rounded functions: each active lane holds one rounding of the exact result, and the GSR
gains the flags that the active lanes raise (stochastic corners: log entry 16) (R65, R72, R121, R152, R153). FRND
gives the operand rounded to an integral value under its mode, CVTF an integer rounded to FP32, and IDOT4 the sum of C
and four products of bytes, held to 32 bits or saturated (R143, R156, R159). HADD2, HMUL2 and HFMA2 give each active
lane two results, each rounded once with a draw of its own under stochastic rounding, element 0 first; the random
states advance by those draws (a zero sum of opposite signs there: log entry 67) (R157, R164). CVTI gives each active
lane its operand rounded to an integer of the type, held within its limits. CVTN packs the lane's source elements,
each rounded into the format, or gives the lane's nibbles of a Q4O block and the header. CVTW gives the elements of A
exactly: of a Q4O block those that FP32 holds (log entry 68). The GSR gains the flags of the active lanes' elements
(NV, OF, FMT), and each active lane's random state advances by a draw for each element that rounds under the
stochastic mode (log entry 16) (R60, R61, R66, R67, R121, R150, R151, R158, R160 to R162). EX2, LG2, SIN, COS and
TANH: the special cases and exact results; the same result for the same operand bits in every lane; the invalid flag
of a signalling NaN and of an operand in error alone; and TANH(−x) = −TANH(x) (R73, R74, R163). -/
def Obligations.FloatArithmetic : Prop := Sys2Proof.Claims.ExactArithmetic ∧ Sys2Proof.Claims.FloatRows ∧ Sys2Proof.Claims.RoundsAndDots ∧ Sys2Proof.Claims.PackedArithmetic ∧ Sys2Proof.Claims.Conversions ∧ Sys2Proof.Claims.SpecialFunctions

/-- FCMP and FCLASS write each active lane's bit of their predicate, and leave the other lanes' bits (R154, R155). -/
def Sys2Proof.Claims.FloatPredicates : Prop :=
  ∀ (o : Ops) (s : State) (x : IC), opNum o.d ≠ 7 →
    (∀ im : Bool, Plain s o.g (footOf .fcmp (if im then .w96 else .w64) o) x →
      ∃ t g', exec (if im then .fcmpImm o else .fcmp o) s = .next t ∧ t.group? x.cu.gid = some g' ∧
        ∀ l, l < 64 → inMask (g'.p.getD (opNum o.d) 0) l =
          if inMask x.act l then (fltCmp x.rnd.ftz (mfld o.m 50 48) (x.codeA o l) (codeB im x o l)).1
          else inMask (x.g.p.getD (opNum o.d) 0) l) ∧
    (Plain s o.g (footOf .fclass .w64 o) x →
      ∃ t g', exec (.fclass o) s = .next t ∧ t.group? x.cu.gid = some g' ∧
        ∀ l, l < 64 → inMask (g'.p.getD (opNum o.d) 0) l =
          if inMask x.act l then (mfld o.m 57 48).testBit (fltClass (x.codeA o l))
          else inMask (x.g.p.getD (opNum o.d) 0) l)

/-- PMOV copies all 64 bits of a predicate or an S register, and PMUX gives each bit of its predicate the bit of its table that
the three source bits select, whatever lanes are active (R180, R181). -/
def Sys2Proof.Claims.PredicateMoves : Prop :=
  ∀ (o : Ops) (s : State) (x : IC),
    (Plain s o.g (footOf .pmov .w64 o) x →
      ∃ t g', exec (.pmov o) s = .next t ∧ t.group? x.cu.gid = some g' ∧
        (mfld o.m 49 48 = 0 → opNum o.d ≠ 7 → ∀ l, l < 64 →
          inMask (g'.p.getD (opNum o.d) 0) l = inMask (x.g.pred (opNum o.a)) l) ∧
        (mfld o.m 49 48 = 1 → opNum o.d ≠ 7 → ∀ l, l < 64 → inMask (g'.p.getD (opNum o.d) 0) l = inMask (x.g.rdS (opNum o.a)) l) ∧
        (mfld o.m 49 48 = 2 → g'.s.getD (opNum o.d) 0 = x.g.pred (opNum o.a))) ∧
    (Plain s o.g (footOf .pmux .w64 o) x → opNum o.d ≠ 7 →
      ∃ t g', exec (.pmux o) s = .next t ∧ t.group? x.cu.gid = some g' ∧
        ∀ l, l < 64 → inMask (g'.p.getD (opNum o.d) 0) l =
          (let sel (n : Opd) : Nat := (inMask (x.g.pred (opNum n)) l).toNat
           (if sel o.a = 1 then mfld o.m 51 48 else mfld o.m 55 52).testBit (sel o.b + 2 * sel o.c)))

/-- The carry-out predicate of IADD and IADDC, and the borrow-out of ISUB and ISUBB: where CO enables it, each active
lane's bit says whether the sum is 2^W or more, or A is below B with the borrow; other lanes keep theirs (R134). ICMP
writes each active lane's bit of its predicate with the comparison of A and B as numbers of the type, and leaves the
other lanes' bits; a P7 destination receives no change (R137, R118). FCMP and FCLASS write each active lane's bit of
their predicate, and leave the other lanes' bits (R154, R155). PMOV copies all 64 bits of a predicate or an S
register, and PMUX gives each bit of its predicate the bit of its table that the three source bits select, whatever
lanes are active (R180, R181). -/
def Obligations.PredicateResults : Prop := Sys2Proof.Claims.CarriesOut ∧ Sys2Proof.Claims.CompareWritesPredicate ∧ Sys2Proof.Claims.FloatPredicates ∧ Sys2Proof.Claims.PredicateMoves

/-- RNG advances the random state of each active lane by the generator's step and gives that state, or under `.f32` the FP32
value of its upper 24 bits over 2^24, exactly; SEED sets it; the other lanes' states are kept (R164, R165). -/
def Sys2Proof.Claims.RandomState : Prop :=
  ∀ (o : Ops) (s : State) (x : IC),
    (Plain s o.g (footOf .rng .w64 o) x →
      ∃ t g', exec (.rng o) s = .next t ∧ t.group? x.cu.gid = some g' ∧
        (∀ l, l < 64 → g'.rng.getD l 0 = if inMask x.act l then rngNext (x.g.rng.getD l 0) else x.g.rng.getD l 0) ∧
        (mbit o.m 48 = false → ∀ l, inMask x.act l = true → g'.rdV (x.g.opV o.d) l = rngNext (x.g.rng.getD l 0)) ∧
        (mbit o.m 48 = true → ∀ l, inMask x.act l = true → (g'.rdV (x.g.opV o.d) l).getLsbD 31 = false ∧
          finiteNum (Fmt.f32.dec false (g'.rdV (x.g.opV o.d) l).toNat) ∧
          fixedAt 160 (Fmt.f32.dec false (g'.rdV (x.g.opV o.d) l).toNat) =
            ((rngNext (x.g.rng.getD l 0) >>> 8).toNat : Int) * 2 ^ 136)) ∧
    (∀ im : Bool, Plain s o.g (footOf .seed (if im then .w96 else .w64) o) x →
      ∃ t g', exec (if im then .seedImm o else .seed o) s = .next t ∧ t.group? x.cu.gid = some g' ∧
        ∀ l, l < 64 → g'.rng.getD l 0 =
          if inMask x.act l then
            (let v : W32 := if im then o.imm.setWidth 32 else x.val32 o.a l
             rngFix (if mbit o.m 48 then v ^^^ BitVec.ofNat 32 l else v))
          else x.g.rng.getD l 0)

/-- ELECT gives its predicate, in all 64 bits, the lowest active lane alone, and changes nothing else. VOTE gives every bit of
its predicate whether all or some of the active lanes have their source bit set, or whether they all hold the same word; the mask
of those lanes itself, in a predicate or an S register; or, in an S register, their number or the lowest of them, 64 where there
is none. SHFL gives each active lane its source lane's word or pair, 0 of a dead lane, which sets DLR (R120, R121, R166 to R168,
R179). -/
def Sys2Proof.Claims.CrossLaneResults : Prop :=
  ∀ (o : Ops) (s : State) (x : IC),
    (Plain s o.g (footOf .elect .w64 o) x →
      ∃ t g', exec (.elect o) s = .next t ∧ t.group? x.cu.gid = some g' ∧ GroupsOnly s t x.cu.gid ∧ MemoryKept s t ∧
        RegistersKept x.g g' (footOf .elect .w64 o x) x.act ∧ g'.gsr = x.g.gsr ∧ g'.rng = x.g.rng ∧
        (opNum o.d = 7 → g'.p = x.g.p) ∧
        (opNum o.d ≠ 7 → ∀ l, l < 64 → inMask (g'.p.getD (opNum o.d) 0) l =
          (inMask x.act l && (List.range l).all fun k => !inMask x.act k))) ∧
    (Plain s o.g (footOf .vote .w64 o) x →
      (let m : Mask := x.act &&& x.g.pred (opNum o.a)
       let mode := mfld o.m 50 48
       ∃ t g', exec (.vote o) s = .next t ∧ t.group? x.cu.gid = some g' ∧ g'.gsr = x.g.gsr ∧
        (mode < 3 → opNum o.d ≠ 7 → x.g.vpoison = [] → ∀ l, l < 64 → (inMask (g'.p.getD (opNum o.d) 0) l = true ↔
          (match mode with
           | 0 => m = x.act
           | 1 => m ≠ 0
           | _ => ∀ i j, inMask x.act i = true → inMask x.act j = true → x.g.rdV (x.g.opV o.a) i = x.g.rdV (x.g.opV o.a) j))) ∧
        (mode = 3 → (∀ n, o.d ≠ .s n) → opNum o.d ≠ 7 → ∀ l, l < 64 → inMask (g'.p.getD (opNum o.d) 0) l = inMask m l) ∧
        ∀ n, o.d = .s n → (mode = 3 → g'.s.getD n.toNat 0 = m) ∧
          (mode = 4 → g'.s.getD n.toNat 0 = BitVec.ofNat 64 ((List.range 64).filter (inMask m)).length) ∧
          (mode = 5 → (m = 0 → g'.s.getD n.toNat 0 = 64) ∧
            ∀ l, inMask m l = true → (∀ k, k < l → inMask m k = false) → g'.s.getD n.toNat 0 = BitVec.ofNat 64 l))) ∧
    (∀ im : Bool, Plain s o.g (footOf .shfl (if im then .w96 else .w64) o) x → x.g.vpoison = [] →
      (let from_ (l : Nat) : Nat := shflSource (mfld o.m 49 48) (64 >>> mfld o.m 52 50) (x.valB32 im o l) l
       ∃ t g', exec (if im then .shflImm o else .shfl o) s = .next t ∧ t.group? x.cu.gid = some g' ∧
        g'.gsr = x.g.gsr ||| (if (lanesOf x.act).any fun l => inMask x.g.dead (from_ l) then 8 else 0) ∧
        ∀ l, inMask x.act l = true →
          (mbit o.m 53 = false → g'.rdV (x.g.opV o.d) l =
            if inMask x.g.dead (from_ l) then 0 else x.g.rdV (x.g.opV o.a) (from_ l)) ∧
          (mbit o.m 53 = true → g'.rdPair (x.g.opV o.d) l =
            if inMask x.g.dead (from_ l) then 0 else x.g.rdPair (x.g.opV o.a) (from_ l))))

/-- QRED reduces each quad and GRED the group, over the stages of R71, in which a lane that is not active has the
operation's identity: each active lane gets its span's result, and the GSR the stages' flags. GSHUF gives each active lane the
element of its window that B names, 0 of a dead lane, which sets DLR, and beyond the window; BCAST gives every active lane, or
an S register, the value of one lane, and sets no flag (R71, R120, R121, R166, R169, R171, R172). -/
def Sys2Proof.Claims.ReductionsAndWindows : Prop :=
  ∀ (o : Ops) (s : State) (x : IC),
    (∀ r ∈ [(Instr.qred o, Op.qred, 2), (.gred o, .gred, 6)], Plain s o.g (footOf r.2.1 .w64 o) x →
      (let b64 := mbit o.m 53
       let vals := (List.range 64).map fun l => if inMask x.act l then x.val o.a b64 l else redIdentity (mfld o.m 51 48) b64
       let z := redStages (redOp (mfld o.m 51 48) b64 x.rnd) r.2.2 vals
       ∃ t g', exec r.1 s = .next t ∧ t.group? x.cu.gid = some g' ∧ g'.gsr = x.g.gsr ||| z.2.bits ∧
        ∀ l, inMask x.act l = true →
          (b64 = false → g'.rdV (x.g.opV o.d) l = (z.1.getD l 0).setWidth 32) ∧
          (b64 = true → g'.rdPair (x.g.opV o.d) l = z.1.getD l 0))) ∧
    (Plain s o.g (footOf .gshuf .w64 o) x → x.g.vpoison = [] →
      ∃ t g', exec (.gshuf o) s = .next t ∧ t.group? x.cu.gid = some g' ∧
        g'.gsr = x.g.gsr ||| (if (lanesOf x.act).any fun l => decide ((x.val32 o.b l).toNat < 64 * (mfld o.m 53 48 + 1)) &&
          inMask x.g.dead ((x.val32 o.b l).toNat % 64) then 8 else 0) ∧
        ∀ l, inMask x.act l = true → g'.rdV (x.g.opV o.d) l =
          (let i := (x.val32 o.b l).toNat
           if 64 * (mfld o.m 53 48 + 1) ≤ i ∨ inMask x.g.dead (i % 64) = true then 0
           else x.g.rdV (x.g.opV o.a + i / 64) (i % 64))) ∧
    (Plain s o.g (footOf .bcast .w64 o) x → x.g.vpoison = [] →
      (let k := match o.b with
        | .s n => (x.g.rdS n.toNat).toNat % 64
        | _ => mfld o.m 53 48
       let v : W32 := if inMask x.g.dead k then 0 else x.g.rdV (x.g.opV o.a) k
       ∃ t g', exec (.bcast o) s = .next t ∧ t.group? x.cu.gid = some g' ∧ g'.gsr = x.g.gsr ∧
        (∀ n, o.d = .s n → g'.s.getD n.toNat 0 = v.setWidth 64) ∧
        ∀ f, o.d = .v f → ∀ l, inMask x.act l = true → g'.rdV (x.g.opV o.d) l = v))

/-- RNG advances the random state of each active lane by the generator's step and gives that state, or under `.f32`
the FP32 value of its upper 24 bits over 2^24, exactly; SEED sets it; the other lanes' states are kept (R164, R165).
ELECT gives its predicate, in all 64 bits, the lowest active lane alone, and changes nothing else. VOTE gives every
bit of its predicate whether all or some of the active lanes have their source bit set, or whether they all hold the
same word; the mask of those lanes itself, in a predicate or an S register; or, in an S register, their number or the
lowest of them, 64 where there is none. SHFL gives each active lane its source lane's word or pair, 0 of a dead lane,
which sets DLR (R120, R121, R166 to R168, R179). QRED reduces each quad and GRED the group, over the stages of R71, in
which a lane that is not active has the operation's identity: each active lane gets its span's result, and the GSR the
stages' flags. GSHUF gives each active lane the element of its window that B names, 0 of a dead lane, which sets DLR,
and beyond the window; BCAST gives every active lane, or an S register, the value of one lane, and sets no flag (R71,
R120, R121, R166, R169, R171, R172). -/
def Obligations.RandomAndCrossLane : Prop := Sys2Proof.Claims.RandomState ∧ Sys2Proof.Claims.CrossLaneResults ∧ Sys2Proof.Claims.ReductionsAndWindows

/-- A pair word is one instruction: both halves read the state before it, each with its own guard, and both write
(R106, R107). -/
def Obligations.PairWordCompletes : Prop :=
  ∀ (h0 h1 : Half) (s : State) (x y : IC),
    s.ic h0.o.g = some x → s.ic h1.o.g = some y →
    ((x.g.foot h0.op .w64 h0.o).both (x.g.foot h1.op .w64 h1.o)).outOfBounds x.g.allot = none →
    x.g.busy ((x.g.foot h0.op .w64 h0.o).both (x.g.foot h1.op .w64 h1.o)) = false →
    ((x.g.track.reads (x.g.foot h0.op .w64 h0.o) x.act).reads (x.g.foot h1.op .w64 h1.o) y.act).firstIllegal
      (x.g.foot h0.op .w64 h0.o) x.act = none →
    ((x.g.track.reads (x.g.foot h0.op .w64 h0.o) x.act).reads (x.g.foot h1.op .w64 h1.o) y.act).firstIllegal
      (x.g.foot h1.op .w64 h1.o) y.act = none →
    x.g.poisonedLanes (x.g.foot h0.op .w64 h0.o).rv x.act = 0 → x.g.poisonedLanes (x.g.foot h1.op .w64 h1.o).rv y.act = 0 →
    (effHalf h0 x h0.o).die = 0 → (effHalf h1 y h1.o).die = 0 →
    ∃ t g', exec (.pairWord h0 h1) s = .next t ∧ t.group? x.cu.gid = some g' ∧ GroupsOnly s t x.cu.gid ∧ MemoryKept s t ∧
      g'.v = ((x.g.commit x.act (effHalf h0 x h0.o)).commit y.act (effHalf h1 y h1.o)).v ∧
      g'.s = ((x.g.commit x.act (effHalf h0 x h0.o)).commit y.act (effHalf h1 y h1.o)).s ∧
      g'.p = ((x.g.commit x.act (effHalf h0 x h0.o)).commit y.act (effHalf h1 y h1.o)).p ∧
      g'.x = ((x.g.commit x.act (effHalf h0 x h0.o)).commit y.act (effHalf h1 y h1.o)).x ∧
      g'.rng = ((x.g.commit x.act (effHalf h0 x h0.o)).commit y.act (effHalf h1 y h1.o)).rng ∧
      g'.gsr = x.g.gsr ||| (effHalf h0 x h0.o).gsr ||| (effHalf h1 y h1.o).gsr

/-! ## Class 2: control -/

namespace Sys2Proof.Claims

/-- A branch: constructor, opcode, length, and where an active lane goes. -/
structure JumpRow where
  con : Ops → Instr
  op : Op
  len : Len
  target : IC → Ops → Nat → BitVec 57

/-- BRA and CALL go to PC + sext(IMM32), BRX and RET to the low 57 bits of a lane's V pair or of an S register
(R176, R177). -/
def jumpRows : List JumpRow :=
  [⟨.bra, .bra, .w96, fun x o _ => x.cu.pc + (o.imm.setWidth 32).signExtend 57⟩,
   ⟨.brx, .brx, .w64, fun x o l => (x.val o.a true l).setWidth 57⟩,
   ⟨.call, .call, .w96, fun x o _ => x.cu.pc + (o.imm.setWidth 32).signExtend 57⟩,
   ⟨.ret, .ret, .w64, fun x o l => (x.val o.a true l).setWidth 57⟩]

/-- The special registers of GETSR that are group state, as a lane reads them (R125). -/
def srValues (x : IC) (l : Nat) : List (Nat × W64) :=
  [(0x00, BitVec.ofNat 64 l), (0x01, BitVec.ofNat 64 (l / 4)), (0x02, BitVec.ofNat 64 x.g.gnum), (0x03, BitVec.ofNat 64 x.g.teamId),
   (0x04, BitVec.ofNat 64 x.g.role), (0x05, (((x.s.grid? x.g.grid).map Grid.serial).getD 0).setWidth 64),
   (0x06, BitVec.ofNat 64 (dieOfCore x.g.core)), (0x07, BitVec.ofNat 64 (x.g.core / 4 % 64)), (0x08, BitVec.ofNat 64 x.g.core),
   (0x09, BitVec.ofNat 64 x.g.allot), (0x0A, BitVec.ofNat 64 (x.g.world.getD 0xFFFFFFFF)), (0x0B, x.g.live), (0x0C, x.g.dead), (0x0D, BitVec.ofNat 64 x.g.reentry),
   (0x0E, (x.s.die (dieOfCore x.g.core)).cycle), (0x0F, x.g.rmr.setWidth 64), (0x10, x.g.gsr.setWidth 64), (0x11, x.g.pm.mask),
   (0x12, x.g.pm.pc.setWidth 64), (0x13, x.g.pm.occWord), (0x14, BitVec.ofNat 64 x.g.depth), (0x15, x.cu.pc.setWidth 64)]

end Sys2Proof.Claims

/-- Every lane of the split of a register-only instruction goes on to the next instruction (R20). -/
def Sys2Proof.Claims.PlainInstructionsAdvance : Prop :=
  ∀ r ∈ regRows, ∀ (o : Ops) (s : State) (x : IC), Plain s o.g (footOf r.op r.len o) x → (r.eff x o).die = 0 →
    ∃ t g', exec (r.con o) s = .next t ∧ t.group? x.cu.gid = some g' ∧ ∀ l, x.g.runsIn x.cu.split l → g'.stands l x.nextPc

/-- Every instruction that only computes over registers completes where its checks pass and no lane dies: the group's
registers, predicates, GSR and random state are those that its effects give the state before it, and nothing but
groups changes. The rules of the effects are R128 to R193 and R274 to R278. Every lane of the split of a register-only
instruction goes on to the next instruction (R20). -/
def Obligations.PlainInstructionsComplete : Prop := Sys2Proof.Claims.RegisterInstructionsComplete ∧ Sys2Proof.Claims.PlainInstructionsAdvance

/-- A branch sends each active lane of its split to its target and every other one to the next instruction; CALL writes
the return address to its destination pair in the active lanes; the others write no register, and none changes memory
(R176, R177). -/
def Obligations.BranchesMoveLanes : Prop :=
  ∀ r ∈ jumpRows, ∀ (o : Ops) (s : State) (x : IC), Plain s o.g (footOf r.op r.len o) x →
    ∃ t g', exec (r.con o) s = .next t ∧ t.group? x.cu.gid = some g' ∧ GroupsOnly s t x.cu.gid ∧ MemoryKept s t ∧
      (∀ l, x.g.runsIn x.cu.split l → g'.stands l (if inMask x.act l then r.target x o l else x.nextPc)) ∧
      (r.op ≠ .call → RegsSame x.g g') ∧
      (r.op = .call → ∀ l, resultLane x.act o.d l →
        g'.reads (x.g.opV o.d) o.d true l = heldAs o.d true false (x.nextPc.setWidth 64))

/-- JOIN: every lane that runs at the JOIN's PC is set aside there while its quad has a deferred path at a lower PC that
does not wait at a boundary, and passes it otherwise, but for the lanes of a split that has issued in this cycle and issues no
more in it; no register changes (R22, R23, R32, R178). -/
def Obligations.JoinReconverges : Prop :=
  ∀ (o : Ops) (s : State) (x : IC), Plain s o.g (footOf .join .w64 o) x →
    ∃ t g', exec (.join o) s = .next t ∧ t.group? x.cu.gid = some g' ∧ RegsSame x.g g' ∧ MemoryKept s t ∧
      ∀ l, l < 64 → inMask (x.g.quad (l / 4)).run l = true → (x.g.quad (l / 4)).pc = x.cu.pc →
        x.g.moved.contains (l / 4) = false →
        ((∀ p ∈ (x.g.quad (l / 4)).deferred, p.waiting = false → ¬ p.pc < x.cu.pc) → g'.stands l x.nextPc) ∧
        ((∃ p ∈ (x.g.quad (l / 4)).deferred, p.waiting = false ∧ p.pc < x.cu.pc) → g'.stands l x.cu.pc)

/-- YIELD completes: its lanes go on to the next instruction, no register and nothing but groups changes, and where other
splits of the core are ready its split keeps them as those that go before it. BKPT completes the same way where Loupe has not
armed its code or no lane is active; where it has, the group stops at the BKPT and its lanes stay there. BKPT_RESUME lets a
group that stands at a BKPT run on at PC + 8, and changes nothing else of the group (R188, R190). -/
def Obligations.YieldAndBkpt : Prop :=
  ∀ (o : Ops) (s : State) (x : IC),
    (Plain s o.g (footOf .yield .w64 o) x →
      ∃ t g', exec (.yield o) s = .next t ∧ t.group? x.cu.gid = some g' ∧ RegsSame x.g g' ∧ GroupsOnly s t x.cu.gid ∧
        (∀ l, x.g.runsIn x.cu.split l → g'.stands l x.nextPc) ∧
        ((s.readySplits x.g.core).filter (· != (x.cu.gid, x.cu.split)) ≠ [] →
          ∃ a ∈ g'.ages, a.age = none ∧ a.yields = (s.readySplits x.g.core).filter (· != (x.cu.gid, x.cu.split)))) ∧
    (Plain s o.g (footOf .bkpt .w64 o) x → x.act = 0 ∨ (s.ctx x.g.ctx).bkptArmed (mfld o.m 55 48) = false →
      ∃ t g', exec (.bkpt o) s = .next t ∧ t.group? x.cu.gid = some g' ∧ RegsSame x.g g' ∧ GroupsOnly s t x.cu.gid ∧
        ∀ l, x.g.runsIn x.cu.split l → g'.stands l x.nextPc) ∧
    (Plain s o.g (footOf .bkpt .w64 o) x → x.act ≠ 0 → (s.ctx x.g.ctx).bkptArmed (mfld o.m 55 48) = true →
      ∃ t g', exec (.bkpt o) s = .next t ∧ t.group? x.cu.gid = some g' ∧ RegsSame x.g g' ∧ GroupsOnly s t x.cu.gid ∧
        g'.quads = x.g.quads ∧ g'.status = .bkpt (x.g.bkptSplits ++ [x.cu.split])) ∧
    ∀ gid g splits, s.group? gid = some g → g.status = .bkpt splits →
      ∃ g', exec (.bkptResume gid) s = .next (s.setGroup gid g') ∧
        g' = { g with status := .running, quads := g'.quads, ages := g'.ages, sleepers := g'.sleepers, moved := g'.moved } ∧
        ∀ n, splits = [n] → ∀ l, g.runsIn n l → g'.stands l (g.splitPc n + 8)

/-- SETRM and SETSR of the RMR leave the new value pending, where nothing of the region has sampled the RMR, and fault
where something has; a MODE of 7 leaves the MODE that is pending (log entry 22: the model's reading). SETSR of the GSR writes
it, where nothing of the region has read it before a write: one that has been written before it is read may be written again
(log entry 65: the model's choice between two sentences of R46). The rest of the group is as before (R46, R65, R191, R193). -/
def Sys2Proof.Claims.SettingsWritten : Prop :=
  ∀ (o : Ops) (s : State) (x : IC),
    (Plain s o.g (footOf .setrm .w64 o) x → x.g.track.rmrR = false → mfld o.m 50 48 ≠ 7 →
      ∃ h, exec (.setrm o) s = .next (x.after s { x.tracked (footOf .setrm .w64 o x) with rmrPend := some h }) ∧
        h = BitVec.ofNat 32 (mfld o.m 52 48)) ∧
    (Plain s o.g (footOf .setsr .w64 o) x → x.g.track.rmrR = false → mfld o.m 55 48 = 0x0F →
      ∃ h : W32, exec (.setsr o) s = .next (x.after s { x.tracked (footOf .setsr .w64 o x) with rmrPend := some h }) ∧
        (x.val32 o.a 0 &&& 7 ≠ 7 → h = x.val32 o.a 0 &&& 0x1F) ∧
        (x.val32 o.a 0 &&& 7 = 7 → h &&& 7 = x.g.rmrPend.getD x.g.rmr &&& 7 ∧ h &&& 0x18 = x.val32 o.a 0 &&& 0x18)) ∧
    (Plain s o.g (footOf .setsr .w64 o) x → x.g.track.gsrL = false → mfld o.m 55 48 ≠ 0x0F →
      ∃ h, exec (.setsr o) s = .next (x.after s h) ∧ h.gsr = x.val32 o.a 0 &&& 0x3F ∧ h.v = x.g.v ∧ h.s = x.g.s ∧ h.x = x.g.x ∧
        h.p = x.g.p ∧ h.k = x.g.k ∧ h.rmr = x.g.rmr ∧ h.rmrPend = x.g.rmrPend) ∧
    (Plain s o.g (footOf .setrm .w64 o) x → x.g.track.rmrR = true → exec (.setrm o) s = x.fault 0x04 0 7) ∧
    (Plain s o.g (footOf .setsr .w64 o) x → x.g.track.rmrR = true → mfld o.m 55 48 = 0x0F → exec (.setsr o) s = x.fault 0x04 0 7) ∧
    (Plain s o.g (footOf .setsr .w64 o) x → x.g.track.gsrL = true → mfld o.m 55 48 ≠ 0x0F → exec (.setsr o) s = x.fault 0x04 0 8)

/-- GETSR gives an S register the selected special register, and the active lanes of a V register each their value of it;
nothing else of the group changes (R125, R192). -/
def Sys2Proof.Claims.GetsrReads : Prop :=
  ∀ (o : Ops) (s : State) (x : IC), Plain s o.g (footOf .getsr .w64 o) x →
    ∃ t g', exec (.getsr o) s = .next t ∧ t.group? x.cu.gid = some g' ∧ GroupsOnly s t x.cu.gid ∧ g'.gsr = x.g.gsr ∧
      g'.x = x.g.x ∧ g'.p = x.g.p ∧ g'.k = x.g.k ∧ g'.rmr = x.g.rmr ∧
      (∀ n, o.d = .s n → g'.v = x.g.v ∧ ∀ e ∈ srValues x 0, mfld o.m 55 48 = e.1 → g'.s.getD n.toNat 0 = e.2) ∧
      (∀ f, o.d = .v f → g'.s = x.g.s ∧ ∀ l, inMask x.act l = true → ∀ e ∈ srValues x l, mfld o.m 55 48 = e.1 →
        g'.reads (x.g.opV o.d) o.d (srWide (mfld o.m 55 48)) l = heldAs o.d (srWide (mfld o.m 55 48)) false e.2)

/-- SETRM and SETSR of the RMR leave the new value pending, where nothing of the region has sampled the RMR, and fault
where something has; a MODE of 7 leaves the MODE that is pending (log entry 22: the model's reading). SETSR of the GSR
writes it, where nothing of the region has read it before a write: one that has been written before it is read may be
written again (log entry 65: the model's choice between two sentences of R46). The rest of the group is as before
(R46, R65, R191, R193). GETSR gives an S register the selected special register, and the active lanes of a V register
each their value of it; nothing else of the group changes (R125, R192). -/
def Obligations.SpecialRegisters : Prop := Sys2Proof.Claims.SettingsWritten ∧ Sys2Proof.Claims.GetsrReads

/-- TRET takes the top frame away and sends the active lanes to its resume PC; it faults with an empty stack, and where
its active lanes are not the frame's live lanes (R186, R187). -/
def Sys2Proof.Claims.TretReturns : Prop :=
  ∀ (o : Ops) (s : State) (x : IC), Plain s o.g (footOf .tret .w64 o) x →
    (x.g.depth ≠ 0 → x.act = (x.g.frames.getD (x.g.depth - 1) ⟨0, 0, 0⟩).lanes &&& x.g.live →
      ∃ t g', exec (.tret o) s = .next t ∧ t.group? x.cu.gid = some g' ∧ GroupsOnly s t x.cu.gid ∧ g'.depth = x.g.depth - 1 ∧
        g'.v = x.g.v ∧ g'.s = x.g.s ∧ g'.x = x.g.x ∧ g'.p = x.g.p ∧ g'.k = x.g.k ∧ g'.gsr = x.g.gsr ∧
        ∀ l, x.g.runsIn x.cu.split l →
          g'.stands l (if inMask x.act l then (x.g.frames.getD (x.g.depth - 1) ⟨0, 0, 0⟩).rpc else x.nextPc)) ∧
    (x.g.depth = 0 → exec (.tret o) s = x.fault 0x0A 0 0) ∧
    (x.g.depth ≠ 0 → x.act ≠ (x.g.frames.getD (x.g.depth - 1) ⟨0, 0, 0⟩).lanes &&& x.g.live →
      exec (.tret o) s = x.fault 0x0A x.g.depth (x.g.frames.getD (x.g.depth - 1) ⟨0, 0, 0⟩).lanes.toNat)

/-! ## Boundaries -/

namespace Sys2Proof.Claims

/-- The boundary instructions, with their opcodes and lengths. -/
def boundaryRows : List ((Ops → Instr) × Op × Len) :=
  [(.region, .region, .w64), (.exit, .exit, .w64), (.trap, .trap, .w64), (.spawn, .spawn, .w96), (.atom, .atom, .w64),
   (.sc, .sc, .w64), (.bar, .bar, .w64), (.cpy, .cpy, .w64), (.cpyg, .cpyg, .w64), (.cpyv, .cpyv, .w64)]
    ++ [(.thnew, .thnew, .w64), (.thacq, .thacq, .w64), (.threl, .threl, .w64), (.thsplit, .thsplit, .w64),
   (.thfree, .thfree, .w64), (.seam, .seam, .w64), (.unpick, .unpick, .w64), (.wake, .wake, .w64), (.settle, .settle, .w64),
   (.pbar, .pbar, .w64)]
    ++ [(.stepc, .stepc, .w64), (.sqopen, .sqopen, .w64), (.sqsig, .sqsig, .w64), (.sqclose, .sqclose, .w64)]

end Sys2Proof.Claims

/-- A split that reaches a boundary instruction waits there, for every live lane of its group to wait at a boundary: its
lanes stand as waiting at the boundary's PC, no register changes, and nothing but groups does (R24). -/
def Obligations.BoundaryWaitsForAllLanes : Prop :=
  ∀ r ∈ boundaryRows, ∀ (o : Ops) (s : State) (x : IC), s.ic o.g = some x → x.cu.fused = false →
    ∃ t g', exec (r.1 o) s = .next t ∧ t.group? x.cu.gid = some g' ∧ RegsSame x.g g' ∧ GroupsOnly s t x.cu.gid ∧
      g'.closed = x.g.closed ∧ ∀ l, x.g.runsIn x.cu.split l → g'.waitsAt l x.cu.pc

/-- REGION closes the region and opens the next one with its lanes at the next instruction; a pending RMR write takes
effect then (R38, R42, R65, R182). -/
def Sys2Proof.Claims.RegionOpens : Prop :=
  ∀ (o : Ops) (s : State) (x y : IC), Boundary s o.g (footOf .region .w64 o) x y → y.g.live ≠ 0 →
    ∃ t g', exec (.region o) s = .next t ∧ t.group? x.cu.gid = some g' ∧ Opened y.g g' ∧ g'.status = y.g.status ∧
      g'.v = y.g.v ∧ g'.s = y.g.s ∧ g'.x = y.g.x ∧ g'.p = y.g.p ∧ g'.k = y.g.k ∧ g'.gsr = y.g.gsr ∧
      ∀ l, y.g.waitsAt l x.cu.pc → g'.stands l x.nextPc

/-- EXIT: its active lanes exit; lanes that are left go on in the next region, and a group without live lanes drains
(R183). -/
def Sys2Proof.Claims.ExitEndsLanes : Prop :=
  ∀ (o : Ops) (s : State) (x y : IC), Boundary s o.g (footOf .exit .w64 o) x y → y.act ≠ 0 →
    ∃ t g', exec (.exit o) s = .next t ∧ t.group? x.cu.gid = some g' ∧ g'.exited = y.g.exited ||| y.act ∧
      g'.launched = y.g.launched ∧ g'.dead = y.g.dead ∧
      (y.g.live &&& ~~~y.act = 0 → g'.status = .draining) ∧
      (y.g.live &&& ~~~y.act ≠ 0 → Opened y.g g' ∧ g'.status = y.g.status ∧ g'.v = y.g.v ∧ g'.s = y.g.s)

/-- REGION closes the region and opens the next one with its lanes at the next instruction; a pending RMR write takes
effect then (R38, R42, R65, R182). EXIT: its active lanes exit; lanes that are left go on in the next region, and a
group without live lanes drains (R183). -/
def Obligations.RegionsAndExit : Prop := Sys2Proof.Claims.RegionOpens ∧ Sys2Proof.Claims.ExitEndsLanes

/-- TRAP with a code of 0x800 or more pushes a frame of the active lanes, the next PC and the code, and sends those lanes
to their slot of the handler table at S63, in a new region; at depth 4 it faults; with no active lane it has no effect
(R184, R187). -/
def Sys2Proof.Claims.TrapPushesFrame : Prop :=
  ∀ (o : Ops) (s : State) (x y : IC), Boundary s o.g (footOf .trap .w64 o) x y → 0x800 ≤ mfld o.m 59 48 →
    (y.act ≠ 0 → y.g.live ≠ 0 → y.g.depth < 4 →
      ∃ t g', exec (.trap o) s = .next t ∧ t.group? x.cu.gid = some g' ∧ g'.depth = y.g.depth + 1 ∧
        g'.frames.getD y.g.depth ⟨0, 0, 0⟩ = ⟨y.act, x.nextPc, BitVec.ofNat 12 (mfld o.m 59 48)⟩ ∧ Opened y.g g' ∧
        g'.v = y.g.v ∧ g'.s = y.g.s ∧ g'.x = y.g.x ∧ g'.p = y.g.p ∧ g'.k = y.g.k ∧
        ∀ l, y.g.waitsAt l x.cu.pc →
          g'.stands l (if inMask y.act l then (y.g.rdS 63 + BitVec.ofNat 64 (32 * (mfld o.m 59 48 - 0x800))).setWidth 57
            else x.nextPc)) ∧
    (y.act ≠ 0 → 4 ≤ y.g.depth →
      exec (.trap o) s = .next (y.s.raiseFault x.cu.gid 0x09 (BitVec.ofNat 64 (mfld o.m 59 48)) 4 y.act x.cu.pc)) ∧
    (y.act = 0 → exec (.trap o) s = .next (y.past y.s))

/-- TRAP with a code of 0x800 or more pushes a frame of the active lanes, the next PC and the code, and sends those
lanes to their slot of the handler table at S63, in a new region; at depth 4 it faults; with no active lane it has no
effect (R184, R187). TRET takes the top frame away and sends the active lanes to its resume PC; it faults with an
empty stack, and where its active lanes are not the frame's live lanes (R186, R187). -/
def Obligations.TrapStack : Prop := Sys2Proof.Claims.TrapPushesFrame ∧ Sys2Proof.Claims.TretReturns

/-- A system call, TRAP with a lower code: with a free slot its record is written there, the context's sequence number
counts up, and the group is parked on the slot. A reply whose words hold no error writes S8 and S9, frees the slot, and the
group runs; its words are those at the address that the front end's walk found (log entry 23: the model's reading; of a
reply with an error log entry 83). SYSCALL_RING_SLOT_FREE makes a running group that waits at a boundary issue it again once
the ring's next slot is free and the cycle has room for it (R32, R185, R293). -/
def Obligations.SystemCallParks : Prop :=
  (∀ (o : Ops) (s : State) (x y : IC) (slot pa : Nat), Boundary s o.g (footOf .trap .w64 o) x y → mfld o.m 59 48 < 0x800 →
    y.act ≠ 0 → y.g.live ≠ 0 → y.s.sysSlot y.g.ctx = some slot →
    y.actOne .store true (ringBase (y.s.ctxWord y.g.ctx 1) + 128 * slot) 128 = .go pa →
    y.s.drainHeld y.g.core (fun _ => true) = false →
    ∃ t g', exec (.trap o) s = .next t ∧ t.group? x.cu.gid = some g' ∧ g'.status = .parked slot ∧
      (t.ctx y.g.ctx).sysSeq = (y.s.ctx y.g.ctx).sysSeq + 1 ∧
      (t.ctx y.g.ctx).sysSlots = (y.s.ctx y.g.ctx).sysSlots ++ [(slot, x.cu.gid)] ∧
      ∀ w ∈ y.sysRecord (mfld o.m 59 48) ((y.s.ctx y.g.ctx).sysSeq + 1) pa, y.s.memUp w.addr = true →
        bankByte t.mem w.addr = w.val) ∧
  (∀ (s : State) (c slot gid pa : Nat) (g : Machine.Group), (s.ctx c).sysSlots.find? (fun p => p.1 == slot) = some (slot, gid) →
    s.group? gid = some g → g.status = .parked slot →
    g.again = false →
    s.unitAsk ⟨c, .frontEnd, false, 0x1FFFF, 0, .reply slot⟩ (ringBase (s.ctxWord c 1) + 128 * slot + 48) = .ok pa →
    s.tenures = [] → (s.memRead pa 16).any (·.2) = false →
    ∃ t g', exec (.syscallReply c slot) s = .next t ∧ t.group? gid = some g' ∧ g'.status = .running ∧
      g'.s.getD 8 0 = BitVec.ofNat 64 (leNat (((s.memRead pa 16).map (·.1)).take 8)) ∧
      g'.s.getD 9 0 = BitVec.ofNat 64 (leNat ((((s.memRead pa 16).map (·.1)).drop 8).take 8)) ∧
      (∀ n, n ≠ 8 → n ≠ 9 → g'.s.getD n 0 = g.s.getD n 0) ∧ g'.v = g.v ∧
      (t.ctx c).sysSlots = (s.ctx c).sysSlots.filter (·.1 != slot)) ∧
  ∀ (s : State) (gid : Nat) (g : Machine.Group), s.group? gid = some g → (s.sysSlot g.ctx).isSome = true →
    s.boundaryRoom gid g = true → g.acquire = false →
    exec (.syscallRingSlotFree gid) s = .next { s.setGroup gid { g with snap := none } with
      issue := [⟨gid, 16⟩], inCycle := s.inCycle ++ [(g.core, gid, (g.quadSpan 16).2)] }

/-! ## Checks and faults -/

namespace Sys2Proof.Claims

/-- The plain instructions beside those of `regRows` whose registers their word alone gives: constructor, opcode, length. -/
def plainRows1 : List ((Ops → Instr) × Op × Len) :=
  [(.bra, .bra, .w96), (.brx, .brx, .w64), (.call, .call, .w96), (.ret, .ret, .w64), (.join, .join, .w64), (.tret, .tret, .w64),
   (.yield, .yield, .w64), (.bkpt, .bkpt, .w64), (.setrm, .setrm, .w64), (.setsr, .setsr, .w64), (.getsr, .getsr, .w64),
   (.sleepm, .sleepm, .w64)]
def plainRows2 : List ((Ops → Instr) × Op × Len) :=
  [(.ld, .ld, .w64), (.ldImm, .ld, .w96), (.ldl, .ldl, .w64), (.ldlImm, .ldl, .w96), (.ldb, .ldb, .w64), (.ldbImm, .ldb, .w96),
   (.ldx, .ldx, .w64), (.ldu, .ldu, .w64), (.lduImm, .ldu, .w96), (.st, .st, .w64), (.stImm, .st, .w96), (.stl, .stl, .w64)]
def plainRows3 : List ((Ops → Instr) × Op × Len) :=
  [(.stlImm, .stl, .w96), (.stb, .stb, .w64), (.stbImm, .stb, .w96), (.stx, .stx, .w64), (.stu, .stu, .w64), (.stuImm, .stu, .w96),
   (.lr, .lr, .w64), (.fence, .fence, .w64), (.acq, .acq, .w64), (.rel, .rel, .w64), (.acqr, .acqr, .w64), (.carve, .carve, .w64)]
def plainRows4 : List ((Ops → Instr) × Op × Len) :=
  [(.pref, .pref, .w64), (.prefImm, .pref, .w96), (.gredTeam, .gred, .w64), (.mma, .mma, .w64), (.mmax, .mmax, .w64),
   (.mms, .mms, .w64), (.czero, .czero, .w64), (.kld, .kld, .w64), (.kldImm, .kld, .w96), (.kst, .kst, .w64),
   (.kstImm, .kst, .w96), (.bxpose, .bxpose, .w64)]
def plainRows5 : List ((Ops → Instr) × Op × Len) :=
  [(.crwait, .crwait, .w64), (.thqry, .thqry, .w64), (.thbnd, .thbnd, .w64), (.isld, .isld, .w64), (.isst, .isst, .w64),
   (.islq, .islq, .w64), (.skld, .skld, .w64), (.skst, .skst, .w64), (.waitc, .waitc, .w64), (.closeb, .closeb, .w64),
   (.waitb, .waitb, .w64), (.barset, .barset, .w64), (.barsetImm, .barset, .w96), (.cntrd, .cntrd, .w64)]

/-- The plain instructions whose registers their word alone gives. -/
def plainRows : List ((Ops → Instr) × Op × Len) :=
  regRows.map (fun r => (r.con, r.op, r.len)) ++ plainRows1 ++ plainRows2 ++ plainRows3 ++ plainRows4 ++ plainRows5

end Sys2Proof.Claims

/-- An instruction whose registers reach the group's allotment, or whose indexed run starts misaligned, faults with the
number of the first such register, A, B, C and DST in this order (log entry 94: the model's order), and the allotment: kind 0x02
(R103). -/
def Sys2Proof.Claims.RegisterBounds : Prop :=
  ∀ (o : Ops) (s : State) (x : IC) (n : Nat), s.ic o.g = some x →
    (∀ r ∈ plainRows, (footOf r.2.1 r.2.2 o x).outOfBounds x.g.allot = some n → exec (r.1 o) s = x.fault 0x02 n x.g.allot) ∧
    (∀ r ∈ boundaryRows, x.cu.fused = true → (footOf r.2.1 r.2.2 o x).outOfBounds x.g.allot = some n →
      exec (r.1 o) s = x.fault 0x02 n x.g.allot)

/-- An instruction that uses a register with a write pending does not issue: nothing changes (R32, R117). -/
def Sys2Proof.Claims.ScoreboardHolds : Prop :=
  ∀ (o : Ops) (s : State) (x : IC), s.ic o.g = some x →
    (∀ r ∈ plainRows, (footOf r.2.1 r.2.2 o x).outOfBounds x.g.allot = none → x.g.busy (footOf r.2.1 r.2.2 o x) = true →
      exec (r.1 o) s = .next s) ∧
    (∀ r ∈ boundaryRows, x.cu.fused = true → (footOf r.2.1 r.2.2 o x).outOfBounds x.g.allot = none →
      x.g.busy (footOf r.2.1 r.2.2 o x) = true → exec (r.1 o) s = .next s)

/-- An instruction whose registers reach the group's allotment, or whose indexed run starts misaligned, faults with
the number of the first such register, A, B, C and DST in this order (log entry 94: the model's order), and the
allotment: kind 0x02 (R103). An instruction that uses a register with a write pending does not issue: nothing changes
(R32, R117). -/
def Obligations.BoundsAndScoreboard : Prop := Sys2Proof.Claims.RegisterBounds ∧ Sys2Proof.Claims.ScoreboardHolds

/-- An instruction that would write a live-in register of its region faults with kind 0x04, the register's number and its
class (R46): a plain instruction, a DRAIN to registers and a pair word, whose halves' reads come before its writes (R107). The
fault comes before those of the instruction's own (log entry 35: the model's reading, for R112 gives region legality no place).
A boundary's results belong to no region, and it has no such fault (R41). -/
def Obligations.RegionLegality : Prop :=
  (∀ (o : Ops) (s : State) (x : IC) (im : Bool) (e : Illegal), s.ic o.g = some x →
    x.g.busy (footOf .drain (if im then .w96 else .w64) o x) = false →
    (x.drainFoot (if im then .w96 else .w64) o).outOfBounds x.g.allot = none →
    x.g.busy (x.drainFoot (if im then .w96 else .w64) o) = false →
    (x.g.track.reads (x.drainFoot (if im then .w96 else .w64) o) x.act).firstIllegal
      (x.drainFoot (if im then .w96 else .w64) o) x.act = some e →
    exec (if im then .drainImm o else .drain o) s = x.fault 0x04 e.d0 e.d1) ∧
  (∀ (h0 h1 : Half) (s : State) (x y : IC) (e : Illegal), s.ic h0.o.g = some x → s.ic h1.o.g = some y →
    ((x.g.foot h0.op .w64 h0.o).both (x.g.foot h1.op .w64 h1.o)).outOfBounds x.g.allot = none →
    x.g.busy ((x.g.foot h0.op .w64 h0.o).both (x.g.foot h1.op .w64 h1.o)) = false →
    (let t := (x.g.track.reads (x.g.foot h0.op .w64 h0.o) x.act).reads (x.g.foot h1.op .w64 h1.o) y.act
     t.firstIllegal (x.g.foot h0.op .w64 h0.o) x.act = some e ∨
      (t.firstIllegal (x.g.foot h0.op .w64 h0.o) x.act = none ∧ t.firstIllegal (x.g.foot h1.op .w64 h1.o) y.act = some e) →
     exec (.pairWord h0 h1) s = x.fault 0x04 e.d0 e.d1)) ∧
  ∀ r ∈ plainRows, ∀ (o : Ops) (s : State) (x : IC) (e : Illegal), s.ic o.g = some x →
    (footOf r.2.1 r.2.2 o x).outOfBounds x.g.allot = none → x.g.busy (footOf r.2.1 r.2.2 o x) = false →
    (x.g.track.reads (footOf r.2.1 r.2.2 o x) x.act).firstIllegal (footOf r.2.1 r.2.2 o x) x.act = some e →
    exec (r.1 o) s = x.fault 0x04 e.d0 e.d1

/-- What is no instruction issues as a fault: kind 0x01 with its first two parcels, or kind 0x03 with the PC modulo 32 and
the length (R110, R111). A fetch that finds no translation starts a walk (R112, R213). -/
def Sys2Proof.Claims.IllegalInstructionsFault : Prop :=
  (∀ (s : State) (x : IC) (p0 p1 : BitVec 32), s.ic Guard.none = some x →
    exec (.illegalInstruction (.illegal p0 p1)) s = x.fault 0x01 p0.toNat p1.toNat) ∧
  (∀ (s : State) (x : IC) (a n : Nat), s.ic Guard.none = some x →
    exec (.illegalInstruction (.boundary a n)) s = x.fault 0x03 a n) ∧
  ∀ (s : State) (gid pc : Nat) (g : Machine.Group), s.group? gid = some g →
    exec (.instructionFetchMiss gid pc) s
      = .next (s.seekAll { g.req gid .fetch false with who := .fetch gid (BitVec.ofNat 57 pc) } [pc])

/-- A program fault makes no other change than these: its group stops issuing, and a record with the fault's kind and
details, the active lanes and the PC joins those of its context, whose stop line they raise (R112, R391, R394). -/
def Sys2Proof.Claims.FaultStopsGroup : Prop :=
  ∀ (s : State) (gd : Guard) (x : IC) (kind d0 d1 : Nat), s.ic gd = some x →
    ∃ t r, x.fault kind d0 d1 = .next t ∧ t.group? x.cu.gid = some { x.g with status := .halted } ∧
      (t.ctx x.g.ctx).stopFaults = (s.ctx x.g.ctx).stopFaults ++ [r] ∧ r.kind = kind ∧ r.d0 = BitVec.ofNat 64 d0 ∧
      r.d1 = BitVec.ofNat 64 d1 ∧ r.lanes = x.act ∧ r.pc = x.cu.pc ∧ r.agent = x.g.core ∧ r.slot = x.g.slot ∧
      r.groupId = x.g.gnum ∧ r.reentry = x.g.reentry ∧ r.depth = x.g.depth ∧ r.source = 0 ∧ MemoryKept s t ∧
      (∀ n, n ≠ x.cu.gid → t.group? n = s.group? n) ∧ t = { s with groups := t.groups, ctxs := t.ctxs }

/-- What is no instruction issues as a fault: kind 0x01 with its first two parcels, or kind 0x03 with the PC modulo 32
and the length (R110, R111). A fetch that finds no translation starts a walk (R112, R213). A program fault makes no
other change than these: its group stops issuing, and a record with the fault's kind and details, the active lanes and
the PC joins those of its context, whose stop line they raise (R112, R391, R394). -/
def Obligations.ProgramFaults : Prop := Sys2Proof.Claims.IllegalInstructionsFault ∧ Sys2Proof.Claims.FaultStopsGroup

/-! ## Class 3: memory -/

namespace Sys2Proof.Claims

/-- A load by lane: constructor, opcode, length, space. -/
structure LoadRow where
  con : Ops → Instr
  op : Op
  len : Len
  sp : Ops → Space

def loadRows : List LoadRow :=
  [⟨.ld, .ld, .w64, fun _ => .g⟩, ⟨.ldImm, .ld, .w96, fun _ => .g⟩, ⟨.ldl, .ldl, .w64, fun _ => .l⟩,
   ⟨.ldlImm, .ldl, .w96, fun _ => .l⟩, ⟨.ldb, .ldb, .w64, accSpace⟩, ⟨.ldbImm, .ldb, .w96, accSpace⟩]

/-- The lanes of an access with their addresses (R240). -/
def laneList (x : IC) (addr : Nat → Int) : List (Nat × Int) := (lanesOf x.act).map fun l => (l, addr l)

/-- A store by lane: constructor, opcode, length, space, kind of access, and the address of a lane (R240, R245). -/
structure StoreRow where
  con : Ops → Instr
  op : Op
  len : Len
  sp : Ops → Space
  kind : AccKind
  addr : IC → Ops → Nat → Int

/-- The access path of a store by lane: a scatter is on the gather path (R223). -/
def StoreRow.path (r : StoreRow) : Nat := if r.kind = .gather then 1 else 0

def storeRows : List StoreRow :=
  [⟨.st, .st, .w64, fun _ => .g, .store, fun x o l => x.laneAddr o .g (accSize o) l⟩,
   ⟨.stImm, .st, .w96, fun _ => .g, .store, fun x o l => x.laneAddr o .g (accSize o) l⟩,
   ⟨.stl, .stl, .w64, fun _ => .l, .store, fun x o l => x.laneAddr o .l (accSize o) l⟩,
   ⟨.stlImm, .stl, .w96, fun _ => .l, .store, fun x o l => x.laneAddr o .l (accSize o) l⟩,
   ⟨.stb, .stb, .w64, accSpace, .store, fun x o l => x.laneAddr o (accSpace o) (accSize o) l⟩,
   ⟨.stbImm, .stb, .w96, accSpace, .store, fun x o l => x.laneAddr o (accSpace o) (accSize o) l⟩,
   ⟨.stx, .stx, .w64, accSpace, .gather, fun x o l => x.indexAddr o (accSpace o) l⟩]

/-- The bytes that a store by lane puts into the region store buffer, lanes in ascending order: the address of each as its
lane gives it, and the place in its space that the address reaches (R243). -/
def laneBytes (x : IC) (o : Ops) (addr : Nat → Int) (ok : List (Nat × List Nat)) : List StByte :=
  ok.flatMap fun p => ((x.storeBytes o (accSize o) p.1).zip p.2).zipIdx.map fun q =>
    (⟨(((laneList x addr).find? fun a => a.1 == p.1).map fun a => a.2.toNat).getD 0 + q.2, q.1.2, q.1.1, some p.1, false, none⟩ : StByte)

/-- The group after its load has been posted: CNT.LD counts one more, and the registers wait for these writes (R117, R374). -/
def LoadPosted (g h : Machine.Group) (regs sregs kregs : List Nat) (ws : List RegWrite) : Prop :=
  h.cntLd = g.cntLd + 1 ∧ ∃ n, h.pending = g.pending ++ [⟨n, true, regs, sregs, kregs, ws⟩]

/-- The bytes of a uniform store: data and places (R244). -/
def uniBytes (a : Nat) (data : List Byte) (ok : List (Nat × List Nat)) : List StByte :=
  (data.zip ((ok.map (·.2)).headD [])).zipIdx.map fun q => (⟨a + q.2, q.1.2, q.1.1, none, false, none⟩ : StByte)

/-- The group, in the state in which one more class 3 instruction of it has issued (R249), with these bytes of a path in its
region store buffer. -/
def stored (x : IC) (s : State) (f : Foot) (sp : Space) (path : Nat) (bs : List StByte) : Machine.Group :=
  { x.tracked f with
    buf := placeStore x.g.buf sp path bs
    lrCount := (((s.countClass3 x.cu.gid).group? x.cu.gid).map fun (g : Machine.Group) => g.lrCount).getD 64 }

end Sys2Proof.Claims

/-- A load by lane whose lanes all translate and read no poison posts its load: its registers wait for the words that its
lanes read, extended as the size says; no register and no memory changes at the issue (R117, R238, R240 to R242, R374). -/
def Sys2Proof.Claims.LaneLoadsPost : Prop :=
  ∀ r ∈ loadRows, ∀ (o : Ops) (s : State) (x : IC) (ok : List (Nat × List Nat)) (bad : List Nat),
    Plain s o.g (footOf r.op r.len o) x → x.g.cntLd < 63 →
    x.reach (r.sp o) (accSize o) .load false (laneList x (x.laneAddr o (r.sp o) (accSize o))) = .go ok bad [] →
    (x.readLanes (s.setGroup x.cu.gid (x.tracked (footOf r.op r.len o x))) (r.sp o) ok).2.2 = 0 →
    ∃ u g', exec (r.con o) s = .next (x.after u g') ∧ RegsSame x.g g' ∧
      LoadPosted x.g g' (run (x.g.opV o.d) (vRegs (accSize o))) [] []
        (loadWrites (x.g.opV o.d) (accSize o) (accSx o)
          (x.readLanes (s.setGroup x.cu.gid (x.tracked (footOf r.op r.len o x))) (r.sp o) ok).2.1) ∧
      (s.tenures = [] → MemoryKept s (x.after u g'))

/-- LDL with nothing buffered and no poison in its core's scratch: when its writes land, each word of an active lane's
register run is the little-endian word at the lane's address in its team's scratch, extended as the size says
(R238, R240, R242). -/
def Sys2Proof.Claims.LocalLoadReadsScratch : Prop :=
  ∀ (o : Ops) (s : State) (x : IC) (h : Machine.Group), Plain s o.g (footOf .ldl .w64 o) x → x.g.cntLd < 63 →
    firstOutside x.team .l (accSize o) (laneList x (x.laneAddr o .l (accSize o))) = none →
    x.g.buf = [] → x.g.late = [] → (∀ a, bankPoison (s.core x.g.core).scratch a = false) →
    ∃ u g' p, exec (.ldl o) s = .next (x.after u g') ∧ g'.pending = x.g.pending ++ [p] ∧
      ∀ l k, inMask x.act l = true → k < vRegs (accSize o) →
        (p.writes.foldl Group.land h).rdV (x.g.opV o.d + k) l
          = (vWords (accSize o) (accSx o) ((List.range (accSize o)).map fun i =>
              bankByte (s.core x.g.core).scratch (scratchBase x.team + (x.laneAddr o .l (accSize o) l).toNat + i))).getD k 0

/-- LOAD_DATA_LANDS writes the results of a load into its group's V, S and K registers, which are poisoned there no more, and
counts CNT.LD down; nothing else of the group changes, nor anything else (R117, R374). -/
def Sys2Proof.Claims.LoadsLand : Prop :=
  ∀ (s : State) (gid op : Nat) (g : Machine.Group) (p : PendLoad), s.group? gid = some g →
    g.pending.find? (fun p => p.id == op && p.ld) = some p → g.status ≠ .halted →
    (s.die (dieOfCore g.core)).powered = true →
    ∃ h, exec (.loadDataLands gid op) s = .next (s.setGroup gid h) ∧ h.v = (p.writes.foldl Group.land g).v ∧
      h.s = (p.writes.foldl Group.land g).s ∧ h.k = (p.writes.foldl Group.land g).k ∧
      h.vpoison = (p.writes.foldl Group.land g).vpoison ∧
      h = { g with
        v := h.v, vpoison := h.vpoison, s := h.s, k := h.k
        cntLd := g.cntLd - 1, pending := g.pending.filter (·.id != op) }

/-- LDL with nothing buffered and no poison in its core's scratch: when its writes land, each word of an active lane's
register run is the little-endian word at the lane's address in its team's scratch, extended as the size says (R238,
R240, R242). LOAD_DATA_LANDS writes the results of a load into its group's V, S and K registers, which are poisoned
there no more, and counts CNT.LD down; nothing else of the group changes, nor anything else (R117, R374). -/
def Obligations.LoadedDataLands : Prop := Sys2Proof.Claims.LocalLoadReadsScratch ∧ Sys2Proof.Claims.LoadsLand

/-- LDX loads the lanes that its replay mask leaves to it, and counts the issue of its PC; where every one of them
translates, nothing is left to replay. No register changes at the issue, and no memory (R51, R52, R245). -/
def Sys2Proof.Claims.GatherLoads : Prop :=
  ∀ (o : Ops) (s : State) (x : IC) (ok : List (Nat × List Nat)), Plain s o.g (footOf .ldx .w64 o) x → x.g.cntLd < 63 →
    x.reach (accSpace o) (accSize o) .gather false
      ((lanesOf (if x.g.replays x.cu.pc then x.act &&& x.g.pm.mask else x.act)).map fun l => (l, x.indexAddr o (accSpace o) l))
        = .go ok [] [] →
    (let v := s.setGroup x.cu.gid { x.tracked (footOf .ldx .w64 o x) with
        pm := x.g.pmAfter x.cu.pc 0
        ldxCount := smSet 0 x.g.ldxCount x.cu.pc.toNat (x.g.ldxSeen x.cu.pc + 1) }
     (x.readLanes v (accSpace o) ok).2.2 = 0 →
      ∃ u g', exec (.ldx o) s = .next (x.after u g') ∧ RegsSame x.g g' ∧ g'.ldxSeen x.cu.pc = x.g.ldxSeen x.cu.pc + 1 ∧
        (x.g.replays x.cu.pc = true → g'.pm.valid = false ∧ g'.pm.mask = 0) ∧
        LoadPosted x.g g' (run (x.g.opV o.d) (vRegs (accSize o))) [] []
          (loadWrites (x.g.opV o.d) (accSize o) (accSx o) (x.readLanes v (accSpace o) ok).2.1) ∧
        (s.tenures = [] → MemoryKept s (x.after u g')))

/-- LDU reads once for the group, and posts its load of S registers (R238, R244). -/
def Sys2Proof.Claims.UniformLoadsPost : Prop :=
  ∀ (o : Ops) (s : State) (x : IC) (im : Bool) (ok : List (Nat × List Nat)) (bad : List Nat),
    Plain s o.g (footOf .ldu (if im then .w96 else .w64) o) x → x.g.cntLd < 63 →
    x.reach (accSpace o) (accSize o) .load false [(0, x.uniAddr o (accSpace o))] = .go ok bad [] →
    (let rd := (s.setGroup x.cu.gid (x.tracked (footOf .ldu (if im then .w96 else .w64) o x))).readPlaces x.cu.gid x.g.core x.g.buf
        (accSpace o) [(none, (ok.map (·.2)).headD [])]
     (rd.2.headD []).any (·.2) = false →
      ∃ u g', exec (if im then .lduImm o else .ldu o) s = .next (x.after u g') ∧ RegsSame x.g g' ∧
        LoadPosted x.g g' [] (run (opNum o.d) (sWords (accSize o) (accSx o) ((rd.2.headD []).map (·.1))).length) []
          ((sWords (accSize o) (accSx o) ((rd.2.headD []).map (·.1))).zipIdx.map fun w => .s (opNum o.d + w.2) w.1) ∧
        (s.tenures = [] → MemoryKept s (x.after u g')))

/-- A load by lane whose lanes all translate and read no poison posts its load: its registers wait for the words that
its lanes read, extended as the size says; no register and no memory changes at the issue (R117, R238, R240 to R242,
R374). LDU reads once for the group, and posts its load of S registers (R238, R244). -/
def Obligations.LoadsPost : Prop := Sys2Proof.Claims.LaneLoadsPost ∧ Sys2Proof.Claims.UniformLoadsPost

/-- A store by lane whose lanes all translate, that meets no conflicting byte and needs no 65th line, puts its bytes into
the region store buffer; no register and no memory changes (R43 to R45, R243, R246). -/
def Sys2Proof.Claims.LaneStoresBuffer : Prop :=
  ∀ r ∈ storeRows, ∀ (o : Ops) (s : State) (x : IC) (ok : List (Nat × List Nat)) (bad : List Nat),
    Plain s o.g (footOf r.op r.len o) x →
    x.reach (r.sp o) (accSize o) r.kind true (laneList x (r.addr x o)) = .go ok bad [] →
    storeConflict x.g.buf (r.sp o) (laneBytes x o (r.addr x o) ok) = none →
    overCapacity x.g.buf (r.sp o) (laneBytes x o (r.addr x o) ok) = none →
    exec (r.con o) s = .next (x.after (s.countClass3 x.cu.gid)
        (stored x s (footOf r.op r.len o x) (r.sp o) r.path (laneBytes x o (r.addr x o) ok))) ∧
      MemoryKept s (x.after (s.countClass3 x.cu.gid)
        (stored x s (footOf r.op r.len o x) (r.sp o) r.path (laneBytes x o (r.addr x o) ok)))

/-- STU and KST put group-wide bytes into the region store buffer: STU the low bytes of its S run, KST a K register's tile
predicates, with its tag under `.tag`; the STU, an instruction of class 3, counts for R249 (R244, R249, R276). -/
def Sys2Proof.Claims.UniformStoresBuffer : Prop :=
  (∀ (o : Ops) (s : State) (x : IC) (im : Bool) (ok : List (Nat × List Nat)) (bad : List Nat),
    Plain s o.g (footOf .stu (if im then .w96 else .w64) o) x →
    x.reach (accSpace o) (accSize o) .store true [(0, x.uniAddr o (accSpace o))] = .go ok bad [] →
    (let bs := uniBytes (x.uniAddr o (accSpace o)).toNat
        (((List.range ((accSize o + 7) / 8)).flatMap fun i => leBytes 8 (x.g.rdS (opNum o.d + i)).toNat).take (accSize o)) ok
     storeConflict x.g.buf (accSpace o) bs = none → overCapacity x.g.buf (accSpace o) bs = none →
      exec (if im then .stuImm o else .stu o) s = .next (x.after (s.countClass3 x.cu.gid)
        (stored x s (footOf .stu (if im then .w96 else .w64) o x) (accSpace o) 0 bs)))) ∧
  (∀ (o : Ops) (s : State) (x : IC) (im : Bool) (ok : List (Nat × List Nat)) (bad : List Nat),
    Plain s o.g (footOf .kst (if im then .w96 else .w64) o) x →
    (let data := kstBytes (x.g.k.getD (opNum o.d) ⟨0, 0, 0⟩) (mbit o.m 56)
     let a := x.uniAddr o (accSpace o)
     a % (data.length : Int) = 0 → x.reach (accSpace o) data.length .store true [(0, a)] = .go ok bad [] →
      storeConflict x.g.buf (accSpace o) (uniBytes a.toNat data ok) = none →
      overCapacity x.g.buf (accSpace o) (uniBytes a.toNat data ok) = none →
      exec (if im then .kstImm o else .kst o) s = .next (x.after s
        { x.tracked (footOf .kst (if im then .w96 else .w64) o x) with
          buf := placeStore x.g.buf (accSpace o) 0 (uniBytes a.toNat data ok) })))

/-- A store by lane whose lanes all translate, that meets no conflicting byte and needs no 65th line, puts its bytes
into the region store buffer; no register and no memory changes (R43 to R45, R243, R246). STU and KST put group-wide
bytes into the region store buffer: STU the low bytes of its S run, KST a K register's tile predicates, with its tag
under `.tag`; the STU, an instruction of class 3, counts for R249 (R244, R249, R276). -/
def Obligations.StoresBuffer : Prop := Sys2Proof.Claims.LaneStoresBuffer ∧ Sys2Proof.Claims.UniformStoresBuffer

/-- The region store buffer after a store: each byte of each space reads as the last byte that the store puts there, and as
before where it puts none (R44). -/
def Obligations.BufferHoldsLastByte : Prop :=
  ∀ (buf : List BufLine) (sp : Space) (path : Nat) (bs : List StByte) (sp' : Space) (a : Nat),
    (bufByte (placeStore buf sp path bs) sp' (a / 128) (a % 128)).map (fun b => (b.val, b.tag, b.pois)) =
      match (bs.filter fun b => sp' == sp && b.at_ == a).getLast? with
      | some b => some (b.val, b.tag, b.pois)
      | none => (bufByte buf sp' (a / 128) (a % 128)).map fun b => (b.val, b.tag, b.pois)

/-- STORE_ACKNOWLEDGED performs a line of `g:` at its home and counts CNT.ST down (a copy's line, on the path of copies, is in
no counter): with no tenure held, and the line held under the key of the leaf that its group stores through (R211), every byte of
the line that device memory answers at takes its value, and every other byte of memory is as before (R42, R375). -/
def Obligations.StoreAcknowledgedWrites : Prop :=
  ∀ (s : State) (core pos : Nat) (o : OutLine), (s.core core).outbound[pos]? = some o → o.space = .g →
    ((s.core core).outbound.take pos).any (fun p => p.space == o.space && p.line == o.line) = false →
    s.hostHolds o.pas = false → s.tenures = [] → (s.die (dieOfCore core)).powered = true → (o.bytes.map (·.off)).Nodup →
    (∀ g k, s.group? o.gid = some g → s.leafKey g.ctx (128 * o.vline) g.core = some k → s.keyOk k = true →
      s.keyFits o.line k = true) →
    ∃ t, exec (.storeAcknowledged core pos) s = .next t ∧
      (∀ b ∈ o.bytes, s.memUp (o.line * 128 + b.off) = true → bankByte t.mem (o.line * 128 + b.off) = b.val) ∧
      (∀ a, (∀ b ∈ o.bytes, a ≠ o.line * 128 + b.off) → bankByte t.mem a = bankByte s.mem a) ∧
      (t.core core).outbound = (s.core core).outbound.eraseIdx pos ∧
      ∀ g, s.group? o.gid = some g →
        t.group? o.gid = some (if o.onPaths 8 then g else { g with cntSt := g.cntSt - 1 })

/-! ## Atomic updates and ordering -/

/-- ATOM: with its lanes translated, each updates its place in turn, in ascending order, and the old values are posted as a
load, where a lane is active; then the next region opens (R41, R240, R247, R374). -/
def Sys2Proof.Claims.AtomUpdates : Prop :=
  ∀ (o : Ops) (s : State) (x y : IC) (ok : List (Nat × Nat)), Boundary s o.g (footOf .atom .w64 o) x y → x.g.cntLd < 63 → y.g.cntLd < 63 →
    y.actReach (accSpace o) (accSize o) (laneList y (y.addrBase o.a (accSpace o == .g))) = .go ok →
    (let u := y.s.claim x.cu.gid y.g.core (accSpace o) (ok.map (·.2))
     let r := atomLanes y o (accSpace o) (accSize o) ok u
     r.2.2 = [] →
      exec (.atom o) s = .next (y.past ((if y.act = 0 then r.1 else
        r.1.postLoad x.cu.gid (run (y.g.opV o.d) (vRegs (accSize o))) [] []
          (resultWrites (y.g.opV o.d) (accSize o) r.2.1)).countClass3 x.cu.gid)))

/-- One lane's atomic operation on unpoisoned scratch: the old value is returned, the place holds the operation's value of
it, little-endian, and every other byte of the core's scratch is as before (R2, R247). -/
def Sys2Proof.Claims.AtomInScratch : Prop :=
  ∀ (x : IC) (o : Ops) (s : State) (l a n : Nat), (n = 4 ∨ n = 8) →
    (∀ b, bankPoison (s.core x.g.core).scratch b = false) →
    (let old := BitVec.ofNat 64 (leNat ((List.range n).map fun i => bankByte (s.core x.g.core).scratch (a + i)))
     let r := atomLanes x o .l n [(l, a)] s
     r.2.1 = [(l, old)] ∧ r.2.2 = [] ∧
      (∀ i, i < n → bankByte (r.1.core x.g.core).scratch (a + i)
        = (atomNew (mfld o.m 63 60) n old (x.val o.b (n == 8) l) (x.val o.c (n == 8) l)).extractLsb' (8 * i) 8) ∧
      ∀ b, b < a ∨ a + n ≤ b → bankByte (r.1.core x.g.core).scratch b = bankByte (s.core x.g.core).scratch b)

/-- ATOM: with its lanes translated, each updates its place in turn, in ascending order, and the old values are posted
as a load, where a lane is active; then the next region opens (R41, R240, R247, R374). One lane's atomic operation on
unpoisoned scratch: the old value is returned, the place holds the operation's value of it, little-endian, and every
other byte of the core's scratch is as before (R2, R247). -/
def Obligations.AtomicUpdates : Prop := Sys2Proof.Claims.AtomUpdates ∧ Sys2Proof.Claims.AtomInScratch

/-- LR reads at the home, takes a reservation for each lane, where the slices' tables have room for them, and posts its load
(R248, R249); it forwards nothing of the group's own
store buffer (log entry 79: the model's choice). -/
def Sys2Proof.Claims.LrReserves : Prop :=
  ∀ (o : Ops) (s : State) (x : IC) (ok : List (Nat × List Nat)) (bad : List Nat),
    Plain s o.g (footOf .lr .w64 o) x → x.g.cntLd < 63 → (accSize o = 4 ∨ accSize o = 8) →
    firstBad x.team .g (accSize o) (laneList x (x.addrBase o.a true)) = none →
    x.reach .g (accSize o) .load false (laneList x (x.addrBase o.a true)) = .go ok bad [] →
    (s.core x.g.core).outbound = [] → s.homeHeld x.cu.gid x.g.core (ok.flatMap (·.2)) = false → s.tenures = [] →
    (∀ p ∈ ok, ∀ pa ∈ p.2, s.memUp pa = true ∧ bankPoison s.mem pa = false) →
    ∃ u g', exec (.lr o) s = .next (x.after u g') ∧ RegsSame x.g g' ∧ MemoryKept s (x.after u g') ∧
      LoadPosted x.g g' (run (x.g.opV o.d) (vRegs (accSize o))) [] []
        (loadWrites (x.g.opV o.d) (accSize o) false (ok.map fun p => (p.1, p.2.map fun pa => (bankByte s.mem pa, false)))) ∧
      g'.lrCount = 0 ∧
      ((∀ p ∈ ok, (s.reservations.filter fun r => r.gid != x.cu.gid &&
          homeSlice (128 * r.line) == homeSlice (p.2.headD 0)).length + ok.length ≤ 1024) →
        ∀ p ∈ ok, u.holds x.cu.gid p.1 (p.2.headD 0) (accSize o) = true)

/-- SC: each lane's result is 1 where its group holds the lane's reservation and the lane is the lowest such of its line,
and 0 otherwise; a lane that succeeds stores; the reservations are gone and the results are posted as a load, where a lane is
active (R249, R250, R374); a lane that fails has claimed its line as a writer all the same (log entry 80: the model's choice). -/
def Sys2Proof.Claims.ScStores : Prop :=
  ∀ (o : Ops) (s : State) (x y : IC) (ok : List (Nat × Nat)), Boundary s o.g (footOf .sc .w64 o) x y → x.g.cntLd < 63 → y.g.cntLd < 63 →
    y.actReach .g (accSize o) (laneList y (y.addrBase o.a true)) = .go ok →
    (let u := y.s.claim x.cu.gid y.g.core .g (ok.map (·.2))
     let n := accSize o
     let holds (q : Nat × Nat) : Bool := u.holds x.cu.gid q.1 q.2 n
     let wins (k : Nat) (q : Nat × Nat) : Bool := holds q && !((ok.take k).any fun p => holds p && p.2 / 128 == q.2 / 128)
     let stores := (ok.zipIdx.filter fun p => wins p.2 p.1).map (·.1)
     let done := (stores.foldl (fun v q =>
        v.writeHome x.cu.gid y.g.core .g q.2 (leBytes n (y.val o.b (n == 8) q.1).toNat)) u).dropReservations x.cu.gid
     exec (.sc o) s = .next (y.past (if y.act = 0 then done else done.postLoad x.cu.gid [y.g.opV o.d] [] []
        (ok.zipIdx.map fun p => .v (y.g.opV o.d) p.1.1 (if wins p.2 p.1 then 1 else 0)))))

/-- LR reads at the home, takes a reservation for each lane, where the slices' tables have room for them, and posts
its load (R248, R249); it forwards nothing of the group's own store buffer (log entry 79: the model's choice). SC:
each lane's result is 1 where its group holds the lane's reservation and the lane is the lowest such of its line, and
0 otherwise; a lane that succeeds stores; the reservations are gone and the results are posted as a load, where a lane
is active (R249, R250, R374); a lane that fails has claimed its line as a writer all the same (log entry 80: the
model's choice). -/
def Obligations.ReserveAndConditional : Prop := Sys2Proof.Claims.LrReserves ∧ Sys2Proof.Claims.ScStores

/-- FENCE, ACQ and REL: at cluster scope or wider a release has the core's outbound `g:` lines acknowledged first, those of paths
that it does not name too (log entry 97: the model's choice), but for lines whose group has waited for a DRAIN's data and that hold
none of the named paths' bytes; at team scope or wider it has those lines of its own group acknowledged; a FENCE that names a path
of an engine, the host or a peer has every line of the named paths acknowledged, at wave scope its own group's; and an acquire at
cluster scope or wider empties its L1. At a narrower scope, with no such path named and no such line, they only go on. ACQR does both for the core it names, where that one is not retired (R11, R221, R223, R224, R225, R233, R251,
R252). -/
def Sys2Proof.Claims.OrderingInstructions : Prop :=
  ∀ (o : Ops) (s : State) (x : IC),
    (∀ r ∈ [(Instr.fence o, Op.fence, true, true), (.acq o, .acq, false, true), (.rel o, .rel, true, false)],
      Plain s o.g (footOf r.2.1 .w64 o) x →
      (r.2.2.1 = true → s.drainHeld x.g.core (releases (r.2.2.1 && r.2.2.2) (scopeOf o) (pathMask o) x.cu.gid) = false) →
      ∃ u g', exec r.1 s = .next (x.after u g') ∧ RegsSame x.g g' ∧
        (2 ≤ scopeOf o →
          (r.2.2.1 = true → ∀ q ∈ (u.core x.g.core).outbound, q.space = .g →
            q.late = true ∧ q.onPaths (pathMask o ||| 3) = false) ∧
          (r.2.2.2 = true → (u.core x.g.core).l1 = [])) ∧
        (1 ≤ scopeOf o → r.2.2.1 = true → ∀ q ∈ (u.core x.g.core).outbound, q.late = true → q.gid ≠ x.cu.gid) ∧
        (r.2.1 = .fence → 4 ≤ pathMask o → ∀ q ∈ (u.core x.g.core).outbound, 1 ≤ scopeOf o ∨ q.gid = x.cu.gid →
          q.onPaths (pathMask o) = false) ∧
        (¬ 2 ≤ scopeOf o → pathMask o < 4 → (∀ q ∈ (s.core x.g.core).outbound, q.late = true → q.gid ≠ x.cu.gid) →
          u.core x.g.core = s.core x.g.core ∧ MemoryKept s u)) ∧
    (Plain s o.g (footOf .acqr .w64 o) x → (x.val o.a true 0).toNat < 1024 →
      ((s.core (x.val o.a true 0).toNat).retired = false → s.drainHeld (x.val o.a true 0).toNat (fun _ => true) = false) →
      ∃ u g', exec (.acqr o) s = .next (x.after u g') ∧ RegsSame x.g g' ∧ (u.core x.g.core).l1 = [] ∧
        ((s.core (x.val o.a true 0).toNat).retired = false →
          (u.core (x.val o.a true 0).toNat).outbound = [] ∧ (u.core (x.val o.a true 0).toNat).l1 = [])) ∧
    (Plain s o.g (footOf .acqr .w64 o) x → 1024 ≤ (x.val o.a true 0).toNat →
      exec (.acqr o) s = x.fault 0x06 (x.val o.a true 0).toNat 8)

/-- CARVE gives its destination, and its core's split of ways, the number asked for, at most 12 and at least what placed
teams need; ways that change use lose what they held. PREF, once a walker is free for each page that it misses on, goes on and
changes no register, and no memory where the lines that it reaches are held under their leaves' keys (R200, R201, R211, R213,
R253, R254). -/
def Sys2Proof.Claims.CarveAndPrefetch : Prop :=
  ∀ (o : Ops) (s : State) (x : IC),
    (Plain s o.g (footOf .carve .w64 o) x →
      (let want := match o.a with
        | .s n => min 12 (x.g.rdS n.toNat).toNat
        | _ => mfld o.m 63 60
       ∃ u g', exec (.carve o) s = .next (x.after u g') ∧ g'.v = x.g.v ∧
        g'.s.getD (opNum o.d) 0 = BitVec.ofNat 64 (max want (s.wayFloor x.g.core)) ∧
        (∀ n, n ≠ opNum o.d → g'.s.getD n 0 = x.g.s.getD n 0) ∧ (u.core x.g.core).sw = max want (s.wayFloor x.g.core) ∧
        (∀ kv ∈ (u.core x.g.core).l1, kv ∈ (s.core x.g.core).l1) ∧
        (u.core x.g.core).l1.length ≤ 512 * (12 - max want (s.wayFloor x.g.core)) ∧
        (max want (s.wayFloor x.g.core) < (s.core x.g.core).sw →
          ∀ a, 65536 * max want (s.wayFloor x.g.core) ≤ a → bankByte (u.core x.g.core).scratch a = 0))) ∧
    ∀ im : Bool, Plain s o.g (footOf .pref (if im then .w96 else .w64) o) x →
      (let rq := x.g.req x.cu.gid .load false
       s.walkersBusy rq ((((lanesOf x.act).map (x.laneAddr o .g 1)).filter fun a => inSpace none .g a 1).map Int.toNat) = false →
        ∃ u g', exec (if im then .prefImm o else .pref o) s = .next (x.after u g') ∧ RegsSame x.g g' ∧
          ((∀ va, s.misKeyed rq [va] = []) → MemoryKept s u))

/-- FENCE, ACQ and REL: at cluster scope or wider a release has the core's outbound `g:` lines acknowledged first,
those of paths that it does not name too (log entry 97: the model's choice), but for lines whose group has waited for
a DRAIN's data and that hold none of the named paths' bytes; at team scope or wider it has those lines of its own
group acknowledged; a FENCE that names a path of an engine, the host or a peer has every line of the named paths
acknowledged, at wave scope its own group's; and an acquire at cluster scope or wider empties its L1. At a narrower
scope, with no such path named and no such line, they only go on. ACQR does both for the core it names, where that one
is not retired (R11, R221, R223, R224, R225, R233, R251, R252). CARVE gives its destination, and its core's split of
ways, the number asked for, at most 12 and at least what placed teams need; ways that change use lose what they held.
PREF, once a walker is free for each page that it misses on, goes on and changes no register, and no memory where the
lines that it reaches are held under their leaves' keys (R200, R201, R211, R213, R253, R254). -/
def Obligations.OrderingAndCarve : Prop := Sys2Proof.Claims.OrderingInstructions ∧ Sys2Proof.Claims.CarveAndPrefetch

/-- GRED `.team` reads its 16 entries once, combines those of the team's groups in the fixed order, and posts the result for
each active lane; at its issue nothing of its group changes but the GSR, which gains the combination's flags, and no memory
(R71, R121, R170); with no active lane it reads all the same (log entry 77: the model's choice). -/
def Sys2Proof.Claims.TeamReduction : Prop :=
  ∀ (o : Ops) (s : State) (x : IC) (ok : List (Nat × List Nat)) (bad : List Nat) (t : Team), Plain s o.g (footOf .gred .w64 o) x →
    x.g.cntLd < 63 → x.team = some t → x.g.buf = [] → (∀ a, bankPoison (s.core x.g.core).scratch a = false) →
    (let b64 := mbit o.m 53
     let n := if b64 then 8 else 4
     x.reach .l (16 * n) .load false [(0, ((x.val o.b false 0).toNat : Int))] = .go ok bad [] →
      (let bytes := ((ok.map (·.2)).headD []).map fun a => bankByte (s.core x.g.core).scratch a
       let vals := (List.range 16).map fun k =>
        if k < Shape.total t.shape then BitVec.ofNat 64 (leNat ((bytes.drop (n * k)).take n)) else redIdentity (mfld o.m 51 48) b64
       let r := redStages (redOp (mfld o.m 51 48) b64 x.rnd) 4 vals
       ∃ u g', exec (.gredTeam o) s = .next (x.after u g') ∧ g'.v = x.g.v ∧ g'.s = x.g.s ∧ g'.x = x.g.x ∧ g'.p = x.g.p ∧
        g'.k = x.g.k ∧ g'.gsr = x.g.gsr ||| r.2.bits ∧ MemoryKept s (x.after u g') ∧
        LoadPosted x.g g' (run (x.g.opV o.d) (n / 4)) [] []
          ((lanesOf x.act).flatMap fun l => resultWrites (x.g.opV o.d) n [(l, r.1.headD 0)])))

/-- LDX loads the lanes that its replay mask leaves to it, and counts the issue of its PC; where every one of them
translates, nothing is left to replay. No register changes at the issue, and no memory (R51, R52, R245). GRED `.team`
reads its 16 entries once, combines those of the team's groups in the fixed order, and posts the result for each
active lane; at its issue nothing of its group changes but the GSR, which gains the combination's flags, and no memory
(R71, R121, R170); with no active lane it reads all the same (log entry 77: the model's choice). -/
def Obligations.GatherAndTeamReduction : Prop := Sys2Proof.Claims.GatherLoads ∧ Sys2Proof.Claims.TeamReduction

/-! ## Class 4: the matrix engine and tile predicates -/

namespace Sys2Proof.Claims

/-- A pass instruction: constructor, opcode, the operation that its word and operands give, and whether its own checks call
the operands illegal (R266 to R269). -/
structure PassRow where
  con : Ops → Instr
  op : Op
  pass : IC → Ops → TileOp
  bad : IC → Ops → Bool

def passRows : List PassRow :=
  [⟨.mma, .mma, fun x o => (x.passOp .mma o).1, fun _ _ => false⟩,
   ⟨.mmax, .mmax, fun x o =>
      { (x.passOp .mmax o).1 with
        rows := (List.range 64).map fun l =>
          if inMask x.g.live l && (x.g.rdV (x.g.opV o.c) l).toNat < 32 * (mfld o.m 55 48 + 1) then
            some (x.g.rdV (x.g.opV o.c) l).toNat else none
        pm := mfld o.m 55 48 + 1 },
    fun x o => 2 < (x.passOp .mmax o).1.geo.m⟩,
   ⟨.mms, .mms, fun x o => { (x.passOp .mms o).1 with bitmaps := x.val o.c true 0 },
    fun x o => nfld (x.val o.c true 0).toNat 63 36 != 0 || nfld (x.val o.c true 0).toNat 17 0 % 128 != 0
      || nfld (x.val o.c true 0).toNat 35 18 % 128 != 0⟩]

/-- A tile operation has been posted for the issuing group: it is the last of its engine's requests, and CNT.TL counts it
(R260, R262). -/
def OpPosted (x : IC) (s u : State) (g' : Machine.Group) (op : TileOp) : Prop :=
  (u.matrixEng x.g.engine).requests = (s.matrixEng x.g.engine).requests ++ [op] ∧ g'.cntTl = x.g.cntTl + 1

/-- The bytes that a DRAIN to memory reserves in the region store buffer (R272). -/
def drainBytes (op : TileOp) (ok : List (Nat × List Nat)) : List StByte :=
  ok.flatMap fun q => q.2.zipIdx.map fun b =>
    (⟨((op.drainRows.getD q.1 (0, 0)).1).toNat + b.2, b.1, 0, none, false, some op.id⟩ : StByte)

end Sys2Proof.Claims

/-- MMA, MMAX and MMS: a pass whose checks succeed is posted to the engine of the core, and nothing but the group's CNT.TL,
GSR and tracking changes; an illegal format faults with kind 0x08, a range outside its buffer with 0x06 and the offset of the
first range that does not fit (log entries 24 and 99: the model's reading of DETAIL0), a handle that is not live with 0x07, and a C slot
that was read before with 0x04 (its place after the others is log entry 35, the model's choice), in that order; with no room
the instruction does not issue (R47, R260, R262, R266 to R269). -/
def Obligations.PassesPost : Prop :=
  ∀ r ∈ passRows, ∀ (o : Ops) (s : State) (x : IC), Plain s o.g (footOf r.op .w64 o) x → x.g.vpoison = [] →
    (x.canPost = false → exec (r.con o) s = .next s) ∧
    (x.canPost = true → (r.bad x o || fmtIllegal (r.pass x o).fmt0.toNat (r.pass x o).fmt1.toNat) = true →
      exec (r.con o) s = x.fault 0x08 (r.pass x o).fmt0.toNat (r.pass x o).fmt1.toNat) ∧
    (x.canPost = true → (r.bad x o || fmtIllegal (r.pass x o).fmt0.toNat (r.pass x o).fmt1.toNat) = false →
      s.haltedAt x.g.ctx (matrixCode x.g.engine) = false →
      (∀ b, firstBadBuf x.team (r.pass x o).spans = some b → exec (r.con o) s = x.fault 0x06 b.2 (spaceCode b.1)) ∧
      (firstBadBuf x.team (r.pass x o).spans = none →
        ((r.pass x o).handle ≠ 0 → ((s.ctx x.g.ctx).liveHandle (r.pass x o).handle).isNone = true →
          exec (r.con o) s = x.fault 0x07 (r.pass x o).handle r.op.code) ∧
        ((r.pass x o).handle = 0 ∨ ((s.ctx x.g.ctx).liveHandle (r.pass x o).handle).isSome = true →
          (∀ n, ((x.tracked (footOf r.op .w64 o x)).track.passSlots (r.pass x o).z (r.pass x o).slotBytes).1 = some n →
            exec (r.con o) s = x.fault 0x04 (n + 0x1000) 1) ∧
          (((x.tracked (footOf r.op .w64 o x)).track.passSlots (r.pass x o).z (r.pass x o).slotBytes).1 = none →
          ∃ u g', exec (r.con o) s = .next (x.after u g') ∧ OpPosted x s u g' (r.pass x o) ∧
            g'.gsr = x.g.gsr ||| (x.tiles o.b).2.bits ∧ g'.v = x.g.v ∧ g'.s = x.g.s ∧ g'.x = x.g.x ∧ g'.p = x.g.p ∧
            g'.k = x.g.k ∧ g'.buf = x.g.buf ∧ MemoryKept s u))))

/-- DRAIN to registers posts its operation, and its registers wait for it; DRAIN to memory posts its operation, and puts
its bytes into the region store buffer, on the matrix path (log entry 85: the model's choice for `g:` and `l:`), as bytes that
wait for their data. Draws of stochastic rounding are taken at the issue (R164, R266, R272, R273). -/
def Obligations.DrainsPost : Prop :=
  ∀ (o : Ops) (s : State) (x : IC) (im : Bool), s.ic o.g = some x →
    x.g.busy (footOf .drain (if im then .w96 else .w64) o x) = false →
    x.ready (x.drainFoot (if im then .w96 else .w64) o) → x.canPost = true → x.drainFault (x.drainOp o).1 = none →
    s.haltedAt x.g.ctx (matrixCode x.g.engine) = false →
    (∀ d, (x.drainOp o).1.dreg = some d →
      ∃ u g', exec (if im then .drainImm o else .drain o) s = .next (x.after u g') ∧ OpPosted x s u g' (x.drainOp o).1 ∧
        g'.pending = x.g.pending ++ [⟨(x.drainOp o).1.id, false, (x.drainOp o).1.drainRun d, [], [], []⟩] ∧ g'.v = x.g.v ∧
        g'.buf = x.g.buf ∧ g'.gsr = x.g.gsr ||| (x.tiles o.c).2.bits ∧
        g'.rng = (x.g.drained (x.drainOp o).1 {}).rng ∧ MemoryKept s u) ∧
    ((x.drainOp o).1.dreg = none → ∀ ok bad,
      x.reach (x.drainOp o).1.space (((x.drainOp o).1.drainRows.head?.map (·.2)).getD 0) .store true
        ((x.drainOp o).1.drainRows.zipIdx.map fun r => (r.2, r.1.1)) = .go ok bad [] →
      storeConflict x.g.buf (x.drainOp o).1.space (drainBytes (x.drainOp o).1 ok) = none →
      overCapacity x.g.buf (x.drainOp o).1.space (drainBytes (x.drainOp o).1 ok) = none →
      ∃ u g' ls, exec (if im then .drainImm o else .drain o) s = .next (x.after u g') ∧
        OpPosted x s u g' { (x.drainOp o).1 with lines := ls } ∧ g'.pending = x.g.pending ∧ g'.v = x.g.v ∧
        g'.buf = placeStore x.g.buf (x.drainOp o).1.space 2 (drainBytes (x.drainOp o).1 ok) ∧ MemoryKept s u)

/-- CZERO issues and counts in CNT.TL. Where no operation of its group that is not complete touches the slots of its enabled
tiles, it clears them at once and is complete: the other bytes of the C-buffer are as before. Where one does, it waits for it
at the C-buffer, and no memory changes. No register changes but the GSR, which gains STALE (R47, R262, R263, R271). -/
def Sys2Proof.Claims.CzeroClears : Prop :=
  ∀ (o : Ops) (s : State) (x : IC), Plain s o.g (footOf .czero .w64 o) x → x.g.status = .running →
    (s.matrixEng x.g.engine).clears = [] →
    (let off := (x.val o.a false 0).toNat
     let n := mfld o.m 53 48 + 1
     let op := x.clearOp off n (x.tiles o.b).1
     let slots := (List.range n).filter fun i => (x.tiles o.b).1.getLsbD i
     off % 4096 = 0 → firstBadBuf x.team [(Space.c, off, 4096 * n)] = none →
     (∀ i ∈ slots, x.g.track.cl.getLsbD (off / 4096 + i) = false) → x.g.cntTl < 63 →
      ∃ u g', exec (.czero o) s = .next (x.after u g') ∧ g'.v = x.g.v ∧ g'.s = x.g.s ∧ g'.x = x.g.x ∧ g'.p = x.g.p ∧
        g'.k = x.g.k ∧ g'.gsr = x.g.gsr ||| (x.tiles o.b).2.bits ∧ u.mem = s.mem ∧
        ((s.matrixEng x.g.engine).grantable op = true → g'.cntTl = x.g.cntTl ∧ (u.matrixEng x.g.engine).clears = [] ∧
          ∀ a, bankByte (u.core x.g.core).cbuf a =
            if slots.any (fun i => decide (off + 4096 * i ≤ a) && decide (a < off + 4096 * i + 4096)) then 0
            else bankByte (s.core x.g.core).cbuf a) ∧
        ((s.matrixEng x.g.engine).grantable op = false → g'.cntTl = x.g.cntTl + 1 ∧
          (u.matrixEng x.g.engine).clears = [op] ∧ u.cores = s.cores))

/-- KZERO sets the tile predicates of its K register to 0, and its tag to 0, and changes nothing else (R274). -/
def Sys2Proof.Claims.KzeroClears : Prop :=
  ∀ (o : Ops) (s : State) (x : IC), Plain s o.g (footOf .kzero .w64 o) x →
    ∃ t g', exec (.kzero o) s = .next t ∧ t.group? x.cu.gid = some g' ∧ GroupsOnly s t x.cu.gid ∧
      g'.k.getD (opNum o.d) ⟨0, 0, 0⟩ = ⟨0, 0, 0⟩ ∧
      (∀ n, n ≠ opNum o.d → g'.k.getD n ⟨0, 0, 0⟩ = x.g.k.getD n ⟨0, 0, 0⟩) ∧ g'.v = x.g.v ∧ g'.s = x.g.s ∧ g'.x = x.g.x ∧
      g'.p = x.g.p ∧ g'.gsr = x.g.gsr ∧ g'.rmr = x.g.rmr ∧ g'.rng = x.g.rng ∧ g'.dead = x.g.dead ∧ g'.buf = x.g.buf ∧
      g'.frames = x.g.frames ∧ g'.depth = x.g.depth ∧ ∀ l, x.g.runsIn x.cu.split l → g'.stands l x.nextPc

/-- KLOP gives each tile predicate the bit of its table that the three sources' bits select, and the first source's tag; KSET
sets the predicates of its rectangle and no others, with the tag of the handle value in A (R277, R278). -/
def Sys2Proof.Claims.TilePredicateLogic : Prop :=
  ∀ (o : Ops) (s : State) (x : IC),
    (Plain s o.g (footOf .klop .w64 o) x →
      (let k (n : Opd) : KReg := x.g.k.getD (opNum n) ⟨0, 0, 0⟩
       let sel (n : Opd) (i : Nat) : Nat := ((k n).tiles.getLsbD i).toNat
       ∃ t g' r, exec (.klop o) s = .next t ∧ t.group? x.cu.gid = some g' ∧ GroupsOnly s t x.cu.gid ∧
        g'.k.getD (opNum o.d) ⟨0, 0, 0⟩ = { k o.a with tiles := r } ∧
        ∀ i, i < 64 → r.getLsbD i =
          (if sel o.a i = 1 then mfld o.m 51 48 else mfld o.m 55 52).testBit (sel o.b i + 2 * sel o.c i))) ∧
    (Plain s o.g (footOf .kset .w96 o) x →
      ∃ t g' r, exec (.kset o) s = .next t ∧ t.group? x.cu.gid = some g' ∧ GroupsOnly s t x.cu.gid ∧
        g'.k.getD (opNum o.d) ⟨0, 0, 0⟩ = ⟨r, (x.val o.a true 0).extractLsb' 0 16, (x.val o.a true 0).extractLsb' 24 8⟩ ∧
        ∀ row col, row < 8 → col < 8 → r.getLsbD (8 * row + col) =
          (decide (nfld o.imm.toNat 2 0 ≤ row ∧ row ≤ nfld o.imm.toNat 5 3) &&
            decide (nfld o.imm.toNat 8 6 ≤ col ∧ col ≤ nfld o.imm.toNat 11 9)))

/-- KLD: with `.s`, in either length (log entry 8), an S register's value becomes the tile predicates; from memory a load of them
is posted; the tag is that of the handle value in B. BXPOSE puts the transpose of its tile of elements, as the matrix path finds
them, into the region store buffer; each byte takes the poison of its source byte (log entry 26: the model's reading, R279 is
silent) (R223, R275, R279). -/
def Sys2Proof.Claims.TilePredicateLoads : Prop :=
  (∀ (o : Ops) (s : State) (x : IC) (im : Bool), Plain s o.g (footOf .kld (if im then .w96 else .w64) o) x →
    mbit o.m 56 = true →
    ∃ t g', exec (if im then .kldImm o else .kld o) s = .next t ∧ t.group? x.cu.gid = some g' ∧ GroupsOnly s t x.cu.gid ∧ g'.v = x.g.v ∧
      g'.k.getD (opNum o.d) ⟨0, 0, 0⟩ = ⟨x.val o.a true 0, (x.val o.b true 0).extractLsb' 0 16, (x.val o.b true 0).extractLsb' 24 8⟩) ∧
  (∀ (o : Ops) (s : State) (x : IC) (im : Bool) (ok : List (Nat × List Nat)) (bad : List Nat),
    Plain s o.g (footOf .kld (if im then .w96 else .w64) o) x → mbit o.m 56 = false → x.g.cntLd < 63 →
    x.uniAddr o (accSpace o) % 8 = 0 → x.reach (accSpace o) 8 .load false [(0, x.uniAddr o (accSpace o))] = .go ok bad [] →
    (let rd := (s.setGroup x.cu.gid (x.tracked (footOf .kld (if im then .w96 else .w64) o x))).readPlaces x.cu.gid x.g.core
        x.g.buf (accSpace o) [(none, (ok.map (·.2)).headD [])]
     (rd.2.headD []).any (·.2) = false →
      ∃ u g', exec (if im then .kldImm o else .kld o) s = .next (x.after u g') ∧ RegsSame x.g g' ∧
        LoadPosted x.g g' [] [] [opNum o.d]
          [.k (opNum o.d) (tagged (BitVec.ofNat 64 (leNat ((rd.2.headD []).map (·.1)))) (x.val o.b true 0))])) ∧
  ∀ (o : Ops) (s : State) (x : IC), Plain s o.g (footOf .bxpose .w64 o) x →
    (let w := [16, 8, 32].getD (mfld o.m 49 48) 16
     let ssp := spaceOf (mfld o.m 56 54)
     let d := (x.val o.d false 0).toNat
     let a := (x.val o.a false 0).toNat
     let bank := ((s.core x.g.core).seenBy 2).bank ssp
     let src := (run a (128 * w)).map fun p => seeByte x.g.buf ssp none p (bankByte bank p, bankPoison bank p)
     let bs := ((List.range 1024).flatMap fun e => transposed w src e).zipIdx.map fun q =>
        (⟨d + q.2, d + q.2, q.1.1, none, q.1.2, none⟩ : StByte)
     d % 128 = 0 → firstBadBuf x.team [(accSpace o, d, 128 * w)] = none → a % 128 = 0 →
     firstBadBuf x.team [(ssp, a, 128 * w)] = none →
     ((ssp == .c && s.tileBusy x.cu.gid x.g.engine [(a, 128 * w)]) || x.g.awaits ssp (run a (128 * w))) = false →
     storeConflict x.g.buf (accSpace o) bs = none → overCapacity x.g.buf (accSpace o) bs = none →
      exec (.bxpose o) s = .next (x.after s
        { x.tracked (footOf .bxpose .w64 o x) with buf := placeStore x.g.buf (accSpace o) 2 bs }))

/-- CZERO issues and counts in CNT.TL. Where no operation of its group that is not complete touches the slots of its
enabled tiles, it clears them at once and is complete: the other bytes of the C-buffer are as before. Where one does,
it waits for it at the C-buffer, and no memory changes. No register changes but the GSR, which gains STALE (R47, R262,
R263, R271). KZERO sets the tile predicates of its K register to 0, and its tag to 0, and changes nothing else (R274).
KLD: with `.s`, in either length (log entry 8), an S register's value becomes the tile predicates; from memory a load
of them is posted; the tag is that of the handle value in B. BXPOSE puts the transpose of its tile of elements, as the
matrix path finds them, into the region store buffer; each byte takes the poison of its source byte (log entry 26: the
model's reading, R279 is silent) (R223, R275, R279). KLOP gives each tile predicate the bit of its table that the
three sources' bits select, and the first source's tag; KSET sets the predicates of its rectangle and no others, with
the tag of the handle value in A (R277, R278). -/
def Obligations.TileClearsAndPredicates : Prop := Sys2Proof.Claims.CzeroClears ∧ Sys2Proof.Claims.KzeroClears ∧ Sys2Proof.Claims.TilePredicateLoads ∧ Sys2Proof.Claims.TilePredicateLogic

/-! ## Class 9: counters, batches and barriers; class 5: copies -/

namespace Sys2Proof.Claims

/-- The counters of CNTRD that take no index (R388). -/
def counterValues (x : IC) : List (Nat × Nat) :=
  [(0, x.g.cntLd), (1, x.g.cntSt), (2, x.g.cntTl), (3, x.g.latest.toNat), (4, x.g.batches.length), (5, x.g.pend),
   (9, ((x.s.grid? x.g.grid).map Grid.counter).getD 0), (12, (x.s.core x.g.core).ecor.toNat), (13, (x.s.core x.g.core).eunc.toNat), (14, (x.s.core x.g.core).erec.toNat)]

/-- A group as before but for one S register and the tracking of its region. -/
def ScalarResult (g h : Machine.Group) (n : Nat) (v : W64) : Prop :=
  h.s.getD n 0 = v ∧ (∀ m, m ≠ n → h.s.getD m 0 = g.s.getD m 0) ∧ h.v = g.v ∧ h.x = g.x ∧ h.p = g.p ∧ h.k = g.k ∧
    h.gsr = g.gsr ∧ h.rmr = g.rmr ∧ h.buf = g.buf ∧ h.cntLd = g.cntLd

/-- A group whose split sleeps (R189, R312, R385). -/
def Asleep (g h : Machine.Group) (q : Sleeper) : Prop :=
  h.sleepers = g.sleepers ++ [q] ∧ RegsSame g h ∧ h.quads = g.quads

end Sys2Proof.Claims

/-- WAITC issues when all three counters are at or below its counts, and not before; CNTRD gives the counter that it
selects, of its group, its grid, its core, a barrier of its team or a step set of its context; a barrier that the team lacks and a
set number of 256 or more are faults (R379, R383, R388). -/
def Sys2Proof.Claims.CountersReadAndAwaited : Prop :=
  ∀ (o : Ops) (s : State) (x : IC),
    (Plain s o.g (footOf .waitc .w64 o) x →
      (x.g.cntLd ≤ mfld o.m 53 48 ∧ x.g.cntSt ≤ mfld o.m 59 54 ∧ x.g.cntTl ≤ opNum o.c →
        exec (.waitc o) s = .next (x.after s (x.tracked (footOf .waitc .w64 o x)))) ∧
      (¬ (x.g.cntLd ≤ mfld o.m 53 48 ∧ x.g.cntSt ≤ mfld o.m 59 54 ∧ x.g.cntTl ≤ opNum o.c) → exec (.waitc o) s = .next s)) ∧
    (Plain s o.g (footOf .cntrd .w64 o) x → ∀ e ∈ counterValues x, mfld o.m 55 48 = e.1 →
      ∃ g', exec (.cntrd o) s = .next (x.after s g') ∧ ScalarResult x.g g' (opNum o.d) (BitVec.ofNat 64 e.2)) ∧
    (Plain s o.g (footOf .cntrd .w64 o) x → ∀ t, x.team = some t → (x.val o.a true 0).toNat % 128 < t.barriers.length →
      (mfld o.m 55 48 = 6 → ∃ g', exec (.cntrd o) s = .next (x.after s g') ∧
        ScalarResult x.g g' (opNum o.d) (BitVec.ofNat 64 (t.barrier ((x.val o.a true 0).toNat % 128)).arr)) ∧
      (mfld o.m 55 48 = 7 → ∃ g', exec (.cntrd o) s = .next (x.after s g') ∧
        ScalarResult x.g g' (opNum o.d) (BitVec.ofNat 64 (t.barrier ((x.val o.a true 0).toNat % 128)).phase.toNat)) ∧
      (mfld o.m 55 48 = 8 → ∃ g', exec (.cntrd o) s = .next (x.after s g') ∧
        (let b := t.barrier ((x.val o.a true 0).toNat % 128)
         ScalarResult x.g g' (opNum o.d) (BitVec.ofNat 64 (b.cnt.toNat + 256 * (if b.mask = 0 then 0xF else b.mask.toNat)))))) ∧
    (Plain s o.g (footOf .cntrd .w64 o) x → ∀ t, x.team = some t → t.barriers.length ≤ (x.val o.a true 0).toNat % 128 →
      6 ≤ mfld o.m 55 48 → mfld o.m 55 48 ≤ 8 → exec (.cntrd o) s = x.fault 0x06 ((x.val o.a true 0).toNat % 128) 9) ∧
    (Plain s o.g (footOf .cntrd .w64 o) x → mfld o.m 55 48 = 10 ∨ mfld o.m 55 48 = 11 →
      ((x.val o.a true 0).toNat < 256 → ∃ g', exec (.cntrd o) s = .next (x.after s g') ∧
        (let e := (s.ctx x.g.ctx).set (x.val o.a true 0).toNat
         ScalarResult x.g g' (opNum o.d) (BitVec.ofNat 64
          (if e.state = 0 then 0 else if mfld o.m 55 48 = 10 then e.nskip else e.total.toNat)))) ∧
      (256 ≤ (x.val o.a true 0).toNat → exec (.cntrd o) s = x.fault 0x06 (x.val o.a true 0).toNat 14))

/-- CLOSEB gives the latest batch number: with copies pending it makes them the next batch first. WAITB goes on at once
when its batch is complete, with 0, or 2 where the batch is not formed; while it is open the split sleeps
(R377, R378, R384, R385). -/
def Sys2Proof.Claims.CopyBatches : Prop :=
  ∀ (o : Ops) (s : State) (x : IC),
    (Plain s o.g (footOf .closeb .w64 o) x → x.g.pend = 0 →
      ∃ g', exec (.closeb o) s = .next (x.after s g') ∧ ScalarResult x.g g' (opNum o.d) (x.g.latest.setWidth 64) ∧
        g'.batches = x.g.batches) ∧
    (Plain s o.g (footOf .closeb .w64 o) x → x.g.pend ≠ 0 → x.g.batches.length < 16 →
      ∃ g', exec (.closeb o) s = .next (x.after s g') ∧ ScalarResult x.g g' (opNum o.d) ((x.g.latest + 1).setWidth 64) ∧
        g'.pend = 0 ∧ g'.latest = x.g.latest + 1 ∧
        (s.copiesOpen x.cu.gid (x.g.latest + 1).toNat ≠ 0 → g'.batches =
          x.g.batches ++ [⟨(x.g.latest + 1).toNat, s.copiesOpen x.cu.gid (x.g.latest + 1).toNat⟩])) ∧
    (Plain s o.g (footOf .closeb .w64 o) x → x.g.pend ≠ 0 → 16 ≤ x.g.batches.length → exec (.closeb o) s = .next s) ∧
    (Plain s o.g (footOf .waitb .w64 o) x →
      (let n := (x.val o.a true 0).toNat % 65536
       let formed := atOrBefore n x.g.latest.toNat
       let target := if formed then n else x.g.latest.toNat
       (x.g.batchOpen target = false →
         ∃ g', exec (.waitb o) s = .next (x.after s g') ∧ ScalarResult x.g g' (opNum o.d) (if formed then 0 else 2)) ∧
       (x.g.batchOpen target = true → ∃ t g' q, exec (.waitb o) s = .next t ∧ t.group? x.cu.gid = some g' ∧ Asleep x.g g' q ∧
         q.split = x.cu.split ∧ q.kind = .waitb target (if formed then 0 else 2) ∧ q.dst = opNum o.d)))

/-- WAITC issues when all three counters are at or below its counts, and not before; CNTRD gives the counter that it
selects, of its group, its grid, its core, a barrier of its team or a step set of its context; a barrier that the team
lacks and a set number of 256 or more are faults (R379, R383, R388). CLOSEB gives the latest batch number: with copies
pending it makes them the next batch first. WAITB goes on at once when its batch is complete, with 0, or 2 where the
batch is not formed; while it is open the split sleeps (R377, R378, R384, R385). -/
def Obligations.CountersAndBatches : Prop := Sys2Proof.Claims.CountersReadAndAwaited ∧ Sys2Proof.Claims.CopyBatches

/-- SLEEPM reads its word at the home: where it differs from the expected value the result is 0, and where it is equal the
split sleeps on it. CRWAIT does the same for a completion record's number (R189, R305, R312). -/
def Obligations.WaitsOnMemory : Prop :=
  (∀ (o : Ops) (s : State) (x : IC) (pas : List Nat), Plain s o.g (footOf .sleepm .w64 o) x →
    (let n := if mbit o.m 53 then 8 else 4
     let a := (x.val o.a true 0).toNat
     let rd := (s.setGroup x.cu.gid (x.tracked (footOf .sleepm .w64 o x))).groupRead x.cu.gid x.g.core (pas.headD 0) n
     a % n = 0 → a < Config.virtEnd → s.span (x.g.req x.cu.gid .load false) a n = .ok pas →
     s.homeHeld x.cu.gid x.g.core pas = false → rd.2.any (·.2) = false →
      (BitVec.ofNat 64 (leNat (rd.2.map (·.1))) ≠ sleepWord (mbit o.m 53) (x.val o.b true 0).toNat →
        ∃ g', exec (.sleepm o) s = .next (x.after rd.1 g') ∧ ScalarResult x.g g' (opNum o.d) 0) ∧
      (BitVec.ofNat 64 (leNat (rd.2.map (·.1))) = sleepWord (mbit o.m 53) (x.val o.b true 0).toNat →
        ∃ t g' q, exec (.sleepm o) s = .next t ∧ t.group? x.cu.gid = some g' ∧ Asleep x.g g' q ∧ q.split = x.cu.split ∧
          q.kind = .sleepm a (mbit o.m 53) (sleepWord (mbit o.m 53) (x.val o.b true 0).toNat) ∧ q.dst = opNum o.d ∧
          q.deadline = if mfld o.m 52 48 = 0 then none
            else some ((s.die (dieOfCore x.g.core)).cycle.toNat + 2 ^ mfld o.m 52 48)))) ∧
  ∀ (o : Ops) (s : State) (x : IC) (pas : List Nat), Plain s o.g (footOf .crwait .w64 o) x →
    (let n := (x.val o.a true 0).toNat % 2 ^ 32
     let rd := (s.setGroup x.cu.gid (x.tracked (footOf .crwait .w64 o x))).groupRead x.cu.gid x.g.core (pas.headD 0) 4
     n ≠ 0 → s.ringDefined x.g.ctx = true → s.span (x.g.req x.cu.gid .load false) (s.ringSlot x.g.ctx n + 4) 4 = .ok pas →
     s.homeHeld x.cu.gid x.g.core pas = false → rd.2.any (·.2) = false →
      (leNat (rd.2.map (·.1)) = n →
        ∃ g', exec (.crwait o) s = .next (x.after rd.1 g') ∧ ScalarResult x.g g' (opNum o.d) 0) ∧
      (leNat (rd.2.map (·.1)) ≠ n → ∃ t g' q, exec (.crwait o) s = .next t ∧ t.group? x.cu.gid = some g' ∧ Asleep x.g g' q ∧
          q.split = x.cu.split ∧ q.kind = .crwait n ∧ q.dst = opNum o.d))

/-- BAR, once no store of its group that is fixed waits on the vector and gather paths: an arrival of a group whose role is in
MASK counts one, and no other one counts; the one that reaches the expected
count completes the phase: the phase counts up and the arrivals start again. A group that waits stands at the barrier with its
registers as they are, and one whose own arrival completes the phase runs on in the next region; one that arrives with
`.arrive` goes on in the next region in either case. Its result is the phase that the barrier then stands in. A barrier that
the team lacks is a fault. BARSET gives a barrier its count and its roles, which may complete its phase, and the lanes go on
(R379, R380, R386, R387). -/
def Obligations.NamedBarriers : Prop :=
  (∀ (o : Ops) (s : State) (x y : IC) (t : Team), Boundary s o.g (footOf .bar .w64 o) x y → y.team = some t →
    opNum o.a < t.barriers.length → y.g.lateOn 3 = false → y.g.live ≠ 0 → y.g.status = .running → x.cu.len = 8 →
    (let n := opNum o.a
     let b := t.barrier n
     let counts := b.hasRole y.g.role
     let full := counts && decide (t.expected b ≤ b.arr + 1)
     ∃ u g' t', exec (.bar o) s = .next u ∧ u.group? x.cu.gid = some g' ∧ u.team? y.g.team = some t' ∧
      t'.barrier n = (if full then { b with phase := b.phase + 1, arr := t.startArr b }
        else if counts then { b with arr := b.arr + 1 } else b) ∧
      g'.v = y.g.v ∧ g'.x = y.g.x ∧ g'.p = y.g.p ∧ g'.k = y.g.k ∧ g'.gsr = y.g.gsr ∧ g'.rng = y.g.rng ∧
      (∀ r, mbit o.m 62 = false ∨ r ≠ opNum o.d → g'.s.getD r 0 = y.g.s.getD r 0) ∧
      (mbit o.m 63 = false → full = false → RegsSame y.g g' ∧
        g'.status = .atBarrier n b.phase.toNat (if mbit o.m 62 then some (opNum o.d) else none) x.cu.lanes x.cu.pc) ∧
      (mbit o.m 63 = true ∨ full = true → Opened y.g g' ∧ g'.status = .running ∧
        (∀ l, y.g.waitsAt l x.cu.pc → g'.stands l x.nextPc) ∧
        (mbit o.m 62 = true → g'.s.getD (opNum o.d) 0 = (if full then b.phase + 1 else b.phase).setWidth 64)))) ∧
  (∀ (o : Ops) (s : State) (x y : IC) (t : Team), Boundary s o.g (footOf .bar .w64 o) x y → y.team = some t →
    t.barriers.length ≤ opNum o.a →
    exec (.bar o) s = .next (y.s.raiseFault x.cu.gid 0x06 (BitVec.ofNat 64 (opNum o.a)) 9 y.act x.cu.pc)) ∧
  ∀ (o : Ops) (s : State) (x : IC) (im : Bool) (t : Team), Plain s o.g (footOf .barset (if im then .w96 else .w64) o) x →
    x.team = some t → opNum o.d < t.barriers.length →
    (let v := if im then o.imm.toNat % 2 ^ 32 else (x.val o.a true 0).toNat
     nfld v 31 12 = 0 → nfld v 7 5 = 0 → v % 32 ≤ 16 →
      ∃ u g', exec (if im then .barsetImm o else .barset o) s = .next (x.after u g') ∧
        u = (s.setGroup x.cu.gid (x.tracked (footOf .barset (if im then .w96 else .w64) o x))).putBarrier x.g.team (opNum o.d)
          { t.barrier (opNum o.d) with cnt := BitVec.ofNat 5 v, mask := BitVec.ofNat 4 (v / 256) } ∧
        u.group? x.cu.gid = some g' ∧ (x.g.status = .running → RegsSame x.g g') ∧
        ∃ t', u.team? x.g.team = some t' ∧ (t'.barrier (opNum o.d)).cnt = BitVec.ofNat 5 v ∧
          (t'.barrier (opNum o.d)).mask = BitVec.ofNat 4 (v / 256))

/-- CPY, CPYG and CPYV post one copy for each active lane, in ascending order, to their core's copy engine when its queue
has room, after the stores that the group has fixed on the vector and gather paths, where the engine has not halted for a stop of the
context; the copies are pending ones of the group, whose batch they do not fill (R308 to R311, R377, R396). -/
def Obligations.CopiesPost : Prop :=
  ∀ (o : Ops) (s : State) (x y : IC) (kind : CopyKind) (i : Instr) (op : Op),
    ((i = .cpy o ∧ op = .cpy ∧ kind = .plain) ∨ (i = .cpyg o ∧ op = .cpyg ∧ kind = .generator) ∨
      (i = .cpyv o ∧ op = .cpyv ∧
        ((y.teamGroup (mfld o.m 51 48) = none ∧ kind = .toRegs none (y.g.opV o.d) (mfld o.m 57 53 + 1)) ∨
         ∃ gid h, y.teamGroup (mfld o.m 51 48) = some (gid, h) ∧ y.g.opV o.d + (mfld o.m 57 53 + 1) ≤ h.allot ∧
          h.evicted = false ∧ h.evicting = false ∧ kind = .toRegs (some gid) (y.g.opV o.d) (mfld o.m 57 53 + 1)))) →
    Boundary s o.g (footOf op .w64 o) x y → (lanesOf y.act).length ≠ 0 →
    (y.s.copyEngine y.g.engine).queue.length + (lanesOf y.act).length ≤ 64 → y.g.pend + (lanesOf y.act).length ≤ 255 →
    y.s.drainHeld y.g.core (fun q => q.gid == x.cu.gid && q.onPaths 3) = false → y.g.live ≠ 0 →
    y.s.haltedAt y.g.ctx (copyCode y.g.engine) = false →
    ∃ t g', exec i s = .next t ∧ t.group? x.cu.gid = some g' ∧ Opened y.g g' ∧ g'.pend = y.g.pend + (lanesOf y.act).length ∧
      g'.copiesLeft = y.g.copiesLeft + (lanesOf y.act).length ∧ g'.v = y.g.v ∧ g'.s = y.g.s ∧
      (t.copyEngine y.g.engine).queue = (y.s.copyEngine y.g.engine).queue ++
        (lanesOf y.act).zipIdx.map fun p => y.copyCmd o kind (y.g.latest + 1).toNat (y.s.nextId + p.2) p.1

/-! ## Class 6: tile handles and tenure -/

/-- THNEW with a readable, well-formed descriptor and a free index gives the lowest free index its handle, live with the
descriptor's fields, and its value; with a malformed descriptor the result is 2, with no free index 1, and no entry changes
(R315, R316, R318, R328). -/
def Sys2Proof.Claims.ThnewMakesHandle : Prop :=
  ∀ (o : Ops) (s : State) (x y : IC) (pa : Nat), Boundary s o.g (footOf .thnew .w64 o) x y → y.g.live ≠ 0 →
    (y.val o.a true 0).toNat % 32 = 0 → (y.val o.a true 0).toNat < Config.virtEnd →
    y.actOne .load false (y.val o.a true 0).toNat 32 = .go pa →
    (let rd := y.s.groupRead x.cu.gid y.g.core pa 32
     let v := leNat (rd.2.map (·.1))
     rd.2.any (·.2) = false →
      (∀ i, handleDescBad v = false → (y.s.ctx y.g.ctx).freeAbove 0 = some i →
        ∃ t g', exec (.thnew o) s = .next t ∧ t.group? x.cu.gid = some g' ∧
          g'.s.getD (opNum o.d) 0 = BitVec.ofNat 64 (handleValue i ((y.s.ctx y.g.ctx).handle i).gen) ∧ g'.v = y.g.v ∧
          (t.ctx y.g.ctx).handle i = ((y.s.ctx y.g.ctx).handle i).describe v ∧
          ∀ j, j ≠ i → (t.ctx y.g.ctx).handle j = (y.s.ctx y.g.ctx).handle j) ∧
      (handleDescBad v = true → ∃ t g', exec (.thnew o) s = .next t ∧ t.group? x.cu.gid = some g' ∧
        g'.s.getD (opNum o.d) 0 = 2 ∧ t.ctx y.g.ctx = y.s.ctx y.g.ctx) ∧
      (handleDescBad v = false → (y.s.ctx y.g.ctx).freeAbove 0 = none →
        ∃ t g', exec (.thnew o) s = .next t ∧ t.group? x.cu.gid = some g' ∧ g'.s.getD (opNum o.d) 0 = 1 ∧
          t.ctx y.g.ctx = y.s.ctx y.g.ctx))

/-- THACQ of a live handle. A request that may be granted at once, and no recall of which the grant waits for, is granted with
result 0: the group holds its tenure, and no other group holds one that conflicts; where nobody holds or awaits a tenure, this
one is then the only one. Without `.f`, where another group has write tenure on one of its lines and the group itself holds
none, the request joins the waiting ones and the group waits for it. A value that is not live faults with kind 0x07
(R321, R323, R324, R329). -/
def Sys2Proof.Claims.ThacqAcquires : Prop :=
  ∀ (o : Ops) (s : State) (x y : IC), Boundary s o.g (footOf .thacq .w64 o) x y →
    ((y.s.ctx y.g.ctx).liveHandle (y.handleIn o.a) = none →
      exec (.thacq o) s = .next (y.s.raiseFault x.cu.gid 0x07 (BitVec.ofNat 64 (y.handleIn o.a)) (BitVec.ofNat 64 Op.thacq.code)
        y.act x.cu.pc)) ∧
    ∀ h pages, (y.s.ctx y.g.ctx).liveHandle (y.handleIn o.a) = some h → y.tilePages h (mbit o.m 63) = .ok pages → y.g.live ≠ 0 →
      (let lines := h.vlines.map (lineIn pages)
       let r := y.tenureReq o (y.handleIn o.a) h pages
       let u : State := { y.s with nextId := y.s.nextId + 1 }
       (u.grantsNow r (mbit o.m 62) = true → u.grantHeld r = false →
        ∃ t g', exec (.thacq o) s = .next t ∧ t.group? x.cu.gid = some g' ∧ g'.s.getD (opNum o.d) 0 = 0 ∧ Opened y.g g' ∧
          (∃ n ∈ t.tenures, n.gid = x.cu.gid ∧ n.on y.g.ctx (y.handleIn o.a % 65536) h.gen = true ∧ n.write = mbit o.m 63) ∧
          ∀ n ∈ t.tenures, n.gid ≠ x.cu.gid → (n.write || mbit o.m 63) = true → linesMeet n.lines lines = false) ∧
       (y.s.tenures = [] → y.s.tenureReqs = [] →
        ∃ t g' n, exec (.thacq o) s = .next t ∧ t.group? x.cu.gid = some g' ∧ g'.s.getD (opNum o.d) 0 = 0 ∧ t.tenures = [n] ∧
          n.gid = x.cu.gid ∧ n.ctx = y.g.ctx ∧ n.index.toNat = y.handleIn o.a % 65536 ∧ n.write = mbit o.m 63 ∧ n.lines = lines) ∧
       (mbit o.m 62 = false → (∃ n ∈ y.s.tenures, n.gid ≠ x.cu.gid ∧ n.write = true ∧ linesMeet n.lines lines = true) →
        (∀ n ∈ y.s.tenures, n.gid ≠ x.cu.gid) →
        ∃ t g' r, exec (.thacq o) s = .next t ∧ t.group? x.cu.gid = some g' ∧ t.tenureReqs = y.s.tenureReqs ++ [r] ∧
          t.tenures = y.s.tenures ∧ r.gid = x.cu.gid ∧ r.lines = lines ∧ r.write = mbit o.m 63 ∧ g'.status = .atTenure r.id))

/-- The conditions of a waiting tenure request met, and no recall to wait for, it is granted with result 0; its limit passed,
it ends with result 1 and nothing new is held (R323, R324, R329). -/
def Sys2Proof.Claims.TenureRequestsEnd : Prop :=
  ∀ (s : State) (n : Nat) (r : TenureReq) (ahead : List TenureReq) (g : Machine.Group), s.request n = some (r, ahead) →
    s.group? r.gid = some g → g.status = .atTenure n →
    (s.grantable r ahead = true → s.grantHeld r = false →
      exec (.thacqGrant n) s = .next ((s.grantTenure r).endRequest r 0)) ∧
    (∀ d, r.deadline = some d → d ≤ (s.die (dieOfCore g.core)).cycle.toNat →
      exec (.thacqTimeout n) s = .next (s.endRequest r 1) ∧
      (g.live ≠ 0 → ∃ g', (s.endRequest r 1).group? r.gid = some g' ∧ g'.status = .running ∧ g'.s.getD r.dst 0 = 1) ∧
      (s.endRequest r 1).tenures = s.tenures ∧ ∀ q ∈ (s.endRequest r 1).tenureReqs, q.id ≠ r.id)

/-- THREL ends the group's own tenures on the handle, with result 0, or reports 1 where it holds none; THFREE ends every
tenure on the handle and the index's life, so that its next value differs (R316, R330, R332). -/
def Sys2Proof.Claims.TenureReleased : Prop :=
  ∀ (o : Ops) (s : State) (x y : IC), y.g.live ≠ 0 →
    (Boundary s o.g (footOf .threl .w64 o) x y →
      (let own (t : Tenure) : Bool := t.gid == x.cu.gid && nfld (y.handleIn o.a) 23 16 == 0
          && t.on y.g.ctx (y.handleIn o.a % 65536) (BitVec.ofNat 8 (nfld (y.handleIn o.a) 31 24))
       (y.s.tenures.any own = false → ∃ t g', exec (.threl o) s = .next t ∧ t.group? x.cu.gid = some g' ∧
          g'.s.getD (opNum o.d) 0 = 1 ∧ t.tenures = y.s.tenures) ∧
       (y.s.tenures.any own = true → y.s.tenuresHeld own = false → ∃ t g', exec (.threl o) s = .next t ∧
          t.group? x.cu.gid = some g' ∧ g'.s.getD (opNum o.d) 0 = 0 ∧ t.tenures.any own = false))) ∧
    (Boundary s o.g (footOf .thfree .w64 o) x y → ∀ h, (y.s.ctx y.g.ctx).liveHandle (y.handleIn o.a) = some h →
      y.s.tenuresHeld (fun t => t.on y.g.ctx (y.handleIn o.a % 65536) h.gen) = false → y.s.tenureReqs = [] →
      ∃ t g', exec (.thfree o) s = .next t ∧ t.group? x.cu.gid = some g' ∧ Opened y.g g' ∧
        (t.ctx y.g.ctx).handle (y.handleIn o.a % 65536) = h.freed ∧ (t.ctx y.g.ctx).liveHandle (y.handleIn o.a) = none ∧
        t.tenures.any (fun n => n.on y.g.ctx (y.handleIn o.a % 65536) h.gen) = false)

/-- THACQ of a live handle. A request that may be granted at once, and no recall of which the grant waits for, is
granted with result 0: the group holds its tenure, and no other group holds one that conflicts; where nobody holds or
awaits a tenure, this one is then the only one. Without `.f`, where another group has write tenure on one of its lines
and the group itself holds none, the request joins the waiting ones and the group waits for it. A value that is not
live faults with kind 0x07 (R321, R323, R324, R329). The conditions of a waiting tenure request met, and no recall to
wait for, it is granted with result 0; its limit passed, it ends with result 1 and nothing new is held (R323, R324,
R329). THREL ends the group's own tenures on the handle, with result 0, or reports 1 where it holds none; THFREE ends
every tenure on the handle and the index's life, so that its next value differs (R316, R330, R332). -/
def Obligations.TileTenure : Prop := Sys2Proof.Claims.ThacqAcquires ∧ Sys2Proof.Claims.TenureRequestsEnd ∧ Sys2Proof.Claims.TenureReleased

/-- THSPLIT of a live handle, at a cut inside an extent, frees it and makes its two children the two lowest free indices;
their values are the result, and each tenure on it becomes one on each child, where the directory seats them (R316, R322,
R331). -/
def Sys2Proof.Claims.ThsplitMakesChildren : Prop :=
  ∀ (o : Ops) (s : State) (x y : IC) (h : Handle) (i j : Nat), Boundary s o.g (footOf .thsplit .w64 o) x y → y.g.live ≠ 0 →
    (y.s.ctx y.g.ctx).liveHandle (y.handleIn o.a) = some h → y.s.tenureReqs = [] →
    (let cut := (y.val o.b true 0).toNat
     let p := cut / 2 ^ 32
     nfld cut 31 2 = 0 → 1 ≤ p → p < ([h.e0.toNat, h.e1.toNat, h.e2.toNat]).getD (cut % 4) h.e3.toNat →
     (y.s.ctx y.g.ctx).freeAbove 0 = some i → (y.s.ctx y.g.ctx).freeAbove i = some j →
     (let c := y.s.ctx y.g.ctx
      let n := y.handleIn o.a % 65536
      let a := h.child (cut % 4) p false (c.handle i).gen
      let b := h.child (cut % 4) p true (c.handle j).gen
      let held := y.s.tenures.filter fun t => t.on y.g.ctx n h.gen
      ∀ u, ({ y.s.setCtx y.g.ctx (((c.setHandle i a).setHandle j b).setHandle n h.freed) with
          tenures := y.s.tenures.filter fun t => !t.on y.g.ctx n h.gen
          nextId := y.s.nextId + 2 * held.length } : State).seat (inheritAll held h a b i j y.s.nextId) = .ok u →
      ∃ t g', exec (.thsplit o) s = .next t ∧ t.group? x.cu.gid = some g' ∧ t.tenures = u.tenures ∧
        g'.s.getD (opNum o.d) 0 = BitVec.ofNat 64 (handleValue i ((y.s.ctx y.g.ctx).handle i).gen
          + handleValue j ((y.s.ctx y.g.ctx).handle j).gen * 2 ^ 32) ∧
        (t.ctx y.g.ctx).handle i = h.child (cut % 4) p false ((y.s.ctx y.g.ctx).handle i).gen ∧
        (t.ctx y.g.ctx).handle j = h.child (cut % 4) p true ((y.s.ctx y.g.ctx).handle j).gen ∧
        (t.ctx y.g.ctx).handle (y.handleIn o.a % 65536) = h.freed))

/-- THQRY reports what a handle's entry holds; THBND gives a live handle its value range, and faults with kind 0x07 on a
malformed range or a value that is not live (R326, R333, R334). -/
def Sys2Proof.Claims.HandleQueryAndBounds : Prop :=
  ∀ (o : Ops) (s : State) (x : IC),
    (Plain s o.g (footOf .thqry .w64 o) x →
      ∃ g', exec (.thqry o) s = .next (x.after s g') ∧
        ScalarResult x.g g' (opNum o.d) (s.handleReport x.g.ctx x.cu.gid (x.handleIn o.a))) ∧
    (Plain s o.g (footOf .thbnd .w64 o) x →
      ((s.ctx x.g.ctx).liveHandle (x.handleIn o.a) = none →
        exec (.thbnd o) s = x.fault 0x07 (x.handleIn o.a) Op.thbnd.code) ∧
      ∀ h, (s.ctx x.g.ctx).liveHandle (x.handleIn o.a) = some h →
        (rangeBad (mfld o.m 49 48) ((x.val o.b true 0).setWidth 32) ((x.val o.b true 0).extractLsb' 32 32) = true →
          exec (.thbnd o) s = x.fault 0x07 (x.handleIn o.a) Op.thbnd.code) ∧
        (rangeBad (mfld o.m 49 48) ((x.val o.b true 0).setWidth 32) ((x.val o.b true 0).extractLsb' 32 32) = false →
          ∃ u g', exec (.thbnd o) s = .next (x.after u g') ∧ RegsSame x.g g' ∧ MemoryKept s u ∧
            ((u.ctx x.g.ctx).handle (x.handleIn o.a % 65536)).rmin = (x.val o.b true 0).setWidth 32 ∧
            ((u.ctx x.g.ctx).handle (x.handleIn o.a % 65536)).rmax = (x.val o.b true 0).extractLsb' 32 32 ∧
            ((u.ctx x.g.ctx).handle (x.handleIn o.a % 65536)).rkind = BitVec.ofNat 2 (mfld o.m 49 48) ∧
            ((u.ctx x.g.ctx).handle (x.handleIn o.a % 65536)).ract = BitVec.ofNat 2 (mfld o.m 51 50)))

/-- THNEW with a readable, well-formed descriptor and a free index gives the lowest free index its handle, live with
the descriptor's fields, and its value; with a malformed descriptor the result is 2, with no free index 1, and no
entry changes (R315, R316, R318, R328). THSPLIT of a live handle, at a cut inside an extent, frees it and makes its
two children the two lowest free indices; their values are the result, and each tenure on it becomes one on each
child, where the directory seats them (R316, R322, R331). THQRY reports what a handle's entry holds; THBND gives a
live handle its value range, and faults with kind 0x07 on a malformed range or a value that is not live (R326, R333,
R334). -/
def Obligations.HandleTable : Prop := Sys2Proof.Claims.ThnewMakesHandle ∧ Sys2Proof.Claims.ThsplitMakesChildren ∧ Sys2Proof.Claims.HandleQueryAndBounds

/-! ## Class 7: the Seam -/

/-- SEAM and UNPICK accept one report for each active lane whose two bodies differ, in ascending order of lanes; WAKE marks
the bodies that its active lanes name (R295, R342, R350, R352). -/
def Sys2Proof.Claims.ReportsAccepted : Prop :=
  ∀ (o : Ops) (s : State) (x y : IC) (w : Nat), y.worldIn o.c = .ok w → y.g.live ≠ 0 →
    (∀ r ∈ [(Instr.seam o, Op.seam, false), (.unpick o, .unpick, true)], Boundary s o.g (footOf r.2.1 .w64 o) x y →
      y.badBody w [o.a, o.b] = none → (y.s.world w).stream.length + (lanesOf y.act).length ≤ 1024 →
      ∃ t g', exec r.1 s = .next t ∧ t.group? x.cu.gid = some g' ∧ Opened y.g g' ∧ g'.v = y.g.v ∧
        (t.world w).stream = (y.s.world w).stream ++
          ((lanesOf y.act).filter fun l => (y.val32 o.a l).toNat != (y.val32 o.b l).toNat).map fun l =>
            ⟨(y.val32 o.a l).toNat, (y.val32 o.b l).toNat, r.2.2, o.m, (y.s.world w).step, y.g.core⟩) ∧
    (Boundary s o.g (footOf .wake .w64 o) x y → y.badBody w [o.a] = none →
      exec (.wake o) s = .next (y.past ((lanesOf y.act).foldl (fun s l => s.wakeBody w (y.val32 o.a l).toNat) y.s)))

/-- SETTLE reports the speeds of the bodies that its active lanes stand for; outside a gang it faults. STEPC gives the
world's step and how its close stands, 2 of a world in error and of one whose WCLOSE has been latched, and an open world that is
not closing begins its close (R351, R354, R414). -/
def Sys2Proof.Claims.SettleAndStepClose : Prop :=
  ∀ (o : Ops) (s : State) (x y : IC),
    (Boundary s o.g (footOf .settle .w64 o) x y → y.gang = none →
      exec (.settle o) s = .next (y.s.raiseFault x.cu.gid 0x06 0 13 y.act x.cu.pc)) ∧
    (∀ g, Boundary s o.g (footOf .settle .w64 o) x y → y.gang = some g →
      exec (.settle o) s = .next (y.past ((lanesOf y.act).foldl (fun s l => match g.bodies[64 * y.g.gnum + l]? with
        | some b => s.reportSpeed g.world b (y.g.rdV (y.g.opV o.a) l &&& 0x7FFFFFFF) (y.g.rdV (y.g.opV o.a + 1) l &&& 0x7FFFFFFF)
        | none => s) y.s))) ∧
    ∀ w, Boundary s o.g (footOf .stepc .w64 o) x y → y.worldIn o.a = .ok w → y.s.drainHeld y.g.core (fun _ => true) = false →
      y.g.live ≠ 0 →
      (let z := y.s.world w
       let code := if z.error || z.ending || y.s.closeLatched w then 2 else if z.closing then 1 else 0
       ∃ t g', exec (.stepc o) s = .next t ∧ t.group? x.cu.gid = some g' ∧
        g'.s.getD (opNum o.d) 0 = BitVec.ofNat 64 (z.step.toNat + code * 2 ^ 32 + z.flags.toNat * 2 ^ 48) ∧
        (code = 0 → t.world w = { z with step := z.step + 1, closing := true }) ∧ (code ≠ 0 → t.world w = z))

/-- SEAM and UNPICK accept one report for each active lane whose two bodies differ, in ascending order of lanes; WAKE
marks the bodies that its active lanes name (R295, R342, R350, R352). SETTLE reports the speeds of the bodies that its
active lanes stand for; outside a gang it faults. STEPC gives the world's step and how its close stands, 2 of a world
in error and of one whose WCLOSE has been latched, and an open world that is not closing begins its close (R351, R354,
R414). -/
def Obligations.ReportsAndSettling : Prop := Sys2Proof.Claims.ReportsAccepted ∧ Sys2Proof.Claims.SettleAndStepClose

/-- PBAR: a group's arrival counts one; while arrivals and drained groups do not make up the panel's groups the group
waits at the panel barrier, and remembers the phase it has arrived in; the arrival that completes the phase counts the phase up, and the group itself runs on in the next
region with the new phase as its result. A group that is in no gang faults (R353). -/
def Sys2Proof.Claims.PanelBarrier : Prop :=
  (∀ (o : Ops) (s : State) (x y : IC), Boundary s o.g (footOf .pbar .w64 o) x y → y.gang = none →
    exec (.pbar o) s = .next (y.s.raiseFault x.cu.gid 0x06 0 13 y.act x.cu.pc)) ∧
  ∀ (o : Ops) (s : State) (x y : IC) (g : Gang), Boundary s o.g (footOf .pbar .w64 o) x y → y.gang = some g →
    y.s.drainHeld y.g.core (fun _ => true) = false →
    (let p := y.s.panelState y.g.team g
     let ts := y.s.panelTeams y.g.team g
     let total := (ts.map fun kv => Shape.total kv.2.shape).foldl (· + ·) 0
     let left := (ts.map fun kv => kv.2.groupsLeft).foldl (· + ·) 0
     p.2 + 1 + (total - left) < total →
      ∃ t g', exec (.pbar o) s = .next t ∧ t.group? x.cu.gid = some g' ∧ RegsSame y.g g' ∧
        g'.status = .atPanel p.1.toNat (opNum o.d) x.cu.lanes x.cu.pc ∧ g'.panelAt = some p.1 ∧
        t.panelState y.g.team g = (p.1, p.2 + 1)) ∧
    (let p := y.s.panelState y.g.team g
     let ts := y.s.panelTeams y.g.team g
     let total := (ts.map fun kv => Shape.total kv.2.shape).foldl (· + ·) 0
     let left := (ts.map fun kv => kv.2.groupsLeft).foldl (· + ·) 0
     total ≤ p.2 + 1 + (total - left) → ts.any (fun t => t.1 == y.g.team) = true → y.g.live ≠ 0 →
      ∃ t g', exec (.pbar o) s = .next t ∧ t.group? x.cu.gid = some g' ∧ g'.status = .running ∧ Opened y.g g' ∧
        g'.v = y.g.v ∧ g'.x = y.g.x ∧ g'.p = y.g.p ∧ g'.k = y.g.k ∧ g'.gsr = y.g.gsr ∧
        (∀ n, n ≠ opNum o.d → g'.s.getD n 0 = y.g.s.getD n 0) ∧ g'.s.getD (opNum o.d) 0 = (p.1 + 1).setWidth 64 ∧ t.panelState y.g.team g = (p.1 + 1, 0))

/-- While no close of its world is running, ISLD gives an island's value with its count, state and fray, and its user word,
and 0 where the value resolves to none; ISST writes the user word, and has no effect where the value resolves to none; ISLQ
gives each active lane of its V pair its body's island, rank, sleep and selection. While one is, they wait. A register that
names no open world of the die and context faults (R349, R355). -/
def Sys2Proof.Claims.IslandReports : Prop :=
  ∀ (o : Ops) (s : State) (x : IC),
    (Plain s o.g (footOf .isld .w64 o) x → x.islandWaits o.a = true → exec (.isld o) s = .next s) ∧
    (Plain s o.g (footOf .isld .w64 o) x → x.islandWaits o.a = false →
      ∃ g', exec (.isld o) s = .next (x.after s g') ∧ g'.v = x.g.v ∧ g'.x = x.g.x ∧ g'.p = x.g.p ∧ g'.k = x.g.k ∧
        g'.gsr = x.g.gsr ∧ (∀ n, n ≠ opNum o.d → n ≠ opNum o.d + 1 → g'.s.getD n 0 = x.g.s.getD n 0) ∧
        (x.islandIn o.a = none → g'.s.getD (opNum o.d) 0 = 0 ∧ g'.s.getD (opNum o.d + 1) 0 = 0) ∧
        ∀ v, x.islandIn o.a = some v → g'.s.getD (opNum o.d + 1) 0 = (s.islandAt v).user ∧
          g'.s.getD (opNum o.d) 0 = BitVec.ofNat 64 (v.toNat + ((s.islandAt v).nb % 2 ^ 20 + (s.islandAt v).state.toNat * 2 ^ 20
            + (s.islandAt v).fray.toNat * 2 ^ 22) * 2 ^ 32)) ∧
    (Plain s o.g (footOf .isst .w64 o) x → x.islandWaits o.a = true → exec (.isst o) s = .next s) ∧
    (Plain s o.g (footOf .isst .w64 o) x → x.islandWaits o.a = false →
      ∃ u g', exec (.isst o) s = .next (x.after u g') ∧ RegsSame x.g g' ∧ MemoryKept s u ∧ (x.islandIn o.a = none → u = s) ∧
        ∀ v, x.islandIn o.a = some v → (u.islandAt v).user = x.val o.b true 0) ∧
    (∀ v, Plain s o.g (footOf .islq .w64 o) x → x.worldIn o.c = .error v → exec (.islq o) s = x.fault 0x06 v 11) ∧
    (∀ w, Plain s o.g (footOf .islq .w64 o) x → x.worldIn o.c = .ok w → x.badBody w [o.a] = none → s.closeRunning w = true →
      exec (.islq o) s = .next s) ∧
    ∀ w, Plain s o.g (footOf .islq .w64 o) x → x.worldIn o.c = .ok w → x.badBody w [o.a] = none → s.closeRunning w = false →
      ∃ g', exec (.islq o) s = .next (x.after s g') ∧
        ∀ f, o.d = .v f → g'.s = x.g.s ∧
          ∀ l, inMask x.act l = true → g'.rdPair (x.g.opV o.d) l = s.bodyReport w (x.val32 o.a l).toNat

/-- PBAR: a group's arrival counts one; while arrivals and drained groups do not make up the panel's groups the group
waits at the panel barrier, and remembers the phase it has arrived in; the arrival that completes the phase counts the
phase up, and the group itself runs on in the next region with the new phase as its result. A group that is in no gang
faults (R353). While no close of its world is running, ISLD gives an island's value with its count, state and fray,
and its user word, and 0 where the value resolves to none; ISST writes the user word, and has no effect where the
value resolves to none; ISLQ gives each active lane of its V pair its body's island, rank, sleep and selection. While
one is, they wait. A register that names no open world of the die and context faults (R349, R355). -/
def Obligations.PanelsAndIslands : Prop := Sys2Proof.Claims.PanelBarrier ∧ Sys2Proof.Claims.IslandReports

/-! ## Class 8: the step sequencer -/

/-- SQOPEN of a closed set that is not at its last step opens it one step further, with its counts cleared, and gives the
step; of an open one it reports 1, and of an unused one 4. With `.init` and a well-formed descriptor whose handle is 0 or live
it opens an unused or closed set with the descriptor's fields in a new epoch; it reports 1 of an open set, 2 of a malformed
descriptor, and 3 of a handle that is not live. Where it reports, the set is as before (R359, R360, R366). -/
def Sys2Proof.Claims.StepSetsOpen : Prop :=
  ∀ (o : Ops) (s : State) (x y : IC) (n : Nat), Boundary s o.g (footOf .sqopen .w64 o) x y → y.setNumber o.a false = .ok n →
    y.g.live ≠ 0 → y.s.sequencerUp n = true →
    (let e := (y.s.ctx y.g.ctx).set n
     (mbit o.m 63 = false →
      (e.state = 2 → ∃ t g', exec (.sqopen o) s = .next t ∧ t.group? x.cu.gid = some g' ∧ g'.s.getD (opNum o.d) 0 = 1 ∧
        (t.ctx y.g.ctx).set n = e) ∧
      (e.state = 0 → ∃ t g', exec (.sqopen o) s = .next t ∧ t.group? x.cu.gid = some g' ∧ g'.s.getD (opNum o.d) 0 = 4 ∧
        (t.ctx y.g.ctx).set n = e) ∧
      (e.state = 1 → e.step ≠ 0xFFFFFFFF → y.s.drainHeld y.g.core (fun _ => true) = false →
        ∃ t g', exec (.sqopen o) s = .next t ∧ t.group? x.cu.gid = some g' ∧
          g'.s.getD (opNum o.d) 0 = BitVec.ofNat 64 ((e.step + 1).toNat * 2 ^ 32) ∧
          (t.ctx y.g.ctx).set n = { e with step := e.step + 1, nskip := 0, nsig := 0, flags := 0, state := 2 })) ∧
     ∀ pa, mbit o.m 63 = true → (y.val o.b true 0).toNat % 32 = 0 → (y.val o.b true 0).toNat < Config.virtEnd →
      y.actOne .load false (y.val o.b true 0).toNat 32 = .go pa →
      (let rd := y.s.groupRead x.cu.gid y.g.core pa 32
       let v := leNat (rd.2.map (·.1))
       let e1 : StepSet := { e with map := BitVec.ofNat 57 v, handle := BitVec.ofNat 32 (nfld v 95 64), tcnt := nfld v 111 96,
                                    thr := BitVec.ofNat 32 (nfld v 143 112), maxRun := BitVec.ofNat 8 (nfld v 151 144), total := 0 }
       let dead : Bool := nfld v 95 64 != 0 && ((y.s.ctx y.g.ctx).liveHandle (nfld v 95 64)).isNone
       rd.2.any (·.2) = false →
       (∀ r : W64, (e.state = 2 ∧ r = 1) ∨ (e.state ≠ 2 ∧ setDescBad v = true ∧ r = 2)
           ∨ (e.state ≠ 2 ∧ setDescBad v = false ∧ dead = true ∧ r = 3) →
        ∃ t g', exec (.sqopen o) s = .next t ∧ t.group? x.cu.gid = some g' ∧ g'.s.getD (opNum o.d) 0 = r ∧
          (t.ctx y.g.ctx).set n = e) ∧
       (e.state ≠ 2 → setDescBad v = false → dead = false → rd.1.drainHeld y.g.core (fun _ => true) = false →
        rd.1.recordsWait y.g.ctx n e1 (List.range e1.tcnt) true = false →
        ((e1.epochBytes rd.1 y.g.ctx n).filterMap id).any (fun a => rd.1.writeHeld a 2) = false →
        ∃ t g', exec (.sqopen o) s = .next t ∧ t.group? x.cu.gid = some g' ∧ g'.s.getD (opNum o.d) 0 = BitVec.ofNat 64 (2 ^ 32) ∧
          (t.ctx y.g.ctx).set n = e1.newEpoch ((e1.epochBytes rd.1 y.g.ctx n).any (·.isNone)))))

/-- SQSIG delivers the signature of its run of registers to its set's tile. SQCLOSE gives the step's counts and flags, and
closes an open set; with it the core's L1 is emptied. Both ask the set's sequencer, which works (R358, R362, R363, R367,
R370). -/
def Sys2Proof.Claims.SignaturesAndClose : Prop :=
  ∀ (o : Ops) (s : State) (x y : IC) (n : Nat), y.g.live ≠ 0 →
    (Boundary s o.g (footOf .sqsig .w64 o) x y → y.setNumber o.c true = .ok n → y.g.vpoison = [] →
      y.s.deliveryHeld y.g.ctx n ((y.val o.b true 0).toNat % 65536) = false →
      (let sig := signatureOf (y.g.tileElements (y.g.opV o.a) 0)
       exec (.sqsig o) s = .next (y.past (y.s.deliver y.g.ctx n ((y.val o.b true 0).toNat % 65536) sig.1 sig.2).1))) ∧
    (Boundary s o.g (footOf .sqclose .w64 o) x y → y.setNumber o.a true = .ok n → y.s.sequencerUp n = true →
      (let e := (y.s.ctx y.g.ctx).set n
       ∃ t g', exec (.sqclose o) s = .next t ∧ t.group? x.cu.gid = some g' ∧
        g'.s.getD (opNum o.d) 0 = BitVec.ofNat 64 (e.nskip + e.nsig * 2 ^ 16 + e.flags.toNat * 2 ^ 32
          + (if e.state = 2 then 0 else 2 ^ 40)) ∧
        (e.state = 2 → (t.ctx y.g.ctx).set n = { e with state := 1 } ∧ (t.core y.g.core).l1 = [])))

/-- SQOPEN of a closed set that is not at its last step opens it one step further, with its counts cleared, and gives
the step; of an open one it reports 1, and of an unused one 4. With `.init` and a well-formed descriptor whose handle
is 0 or live it opens an unused or closed set with the descriptor's fields in a new epoch; it reports 1 of an open
set, 2 of a malformed descriptor, and 3 of a handle that is not live. Where it reports, the set is as before (R359,
R360, R366). SQSIG delivers the signature of its run of registers to its set's tile. SQCLOSE gives the step's counts
and flags, and closes an open set; with it the core's L1 is emptied. Both ask the set's sequencer, which works (R358,
R362, R363, R367, R370). -/
def Obligations.StepSets : Prop := Sys2Proof.Claims.StepSetsOpen ∧ Sys2Proof.Claims.SignaturesAndClose

/-- A delivery to a tile whose record is not current: below the threshold in both sums and under the run limit the tile is
skipped and its run grows, otherwise its record starts anew with the signature (R361, R363). -/
def Sys2Proof.Claims.DeliverySkipsOrStarts : Prop :=
  ∀ (x : StepSet) (r : TileRec) (sum abs : Nat),
    (r.valid x = true → withinThreshold x.thr.toNat sum abs r.refSum r.refAbs = true → r.run < x.maxRun.toNat →
      x.applied (some r) sum abs = { r with run := r.run + 1, skip := true, step := x.step.toNat }) ∧
    (r.valid x = false ∨ withinThreshold x.thr.toNat sum abs r.refSum r.refAbs = false ∨ x.maxRun.toNat ≤ r.run →
      x.applied (some r) sum abs = ⟨sum, abs, 0, false, x.epoch.toNat, x.step.toNat⟩) ∧
    x.applied none sum abs = ⟨sum, abs, 0, false, x.epoch.toNat, x.step.toNat⟩

/-- SKLD posts the tile predicates of its window's tiles that are not to be skipped, with the set's handle as tag; SKST
writes SKIP, EPOCH and STEP into the record of each of its window's tiles, and no other byte, and sets RANGE where a record cannot
be reached; neither changes a register at the issue. Both wait for the walks that they need (R213, R361, R364, R368, R369,
R372). -/
def Sys2Proof.Claims.SkipPredicates : Prop :=
  ∀ (o : Ops) (s : State) (x : IC) (n : Nat), x.setNumber o.a true = .ok n →
    (Plain s o.g (footOf .skld .w64 o) x → x.g.cntLd < 63 → s.sequencerUp n = true →
      (let e := (s.ctx x.g.ctx).set n
       let t0 := (x.val o.b true 0).toNat % 65536
       let pas := (s.windowRecords x.g.ctx n e t0 false).flatMap fun p => p.2.toList.flatMap fun pa => run pa 16
       let v := (s.setGroup x.cu.gid (x.tracked (footOf .skld .w64 o x))).intrude none pas false
       s.recordsWait x.g.ctx n e (e.window t0) false = false → s.intrudeWaits none pas = false →
        ∃ u g', exec (.skld o) s = .next (x.after u g') ∧ RegsSame x.g g' ∧ (s.tenures = [] → MemoryKept s u) ∧
          LoadPosted x.g g' [] [] [opNum o.d]
            [.k (opNum o.d) (tagged (v.skipWindow x.g.ctx n e t0) (e.handle.setWidth 64))])) ∧
    (Plain s o.g (footOf .skst .w64 o) x → s.sequencerUp n = true →
      (let e := (s.ctx x.g.ctx).set n
       let recs := s.windowRecords x.g.ctx n e ((x.val o.b true 0).toNat % 65536) true
       s.recordsWait x.g.ctx n e (e.window ((x.val o.b true 0).toNat % 65536)) true = false →
       (recs.filterMap (·.2)).any (fun pa => s.writeHeld pa 16) = false →
        ∃ u g', exec (.skst o) s = .next (x.after u g') ∧ RegsSame x.g g' ∧
          (u.ctx x.g.ctx).set n = (if recs.any (·.2.isNone) then { e with flags := e.flags ||| 4 } else e) ∧
          (s.tenures = [] →
            (recs.filterMap (·.2)).Pairwise (fun a b => a + 16 ≤ b ∨ b + 16 ≤ a) →
            (∀ pa ∈ recs.filterMap (·.2), ∀ i, i < 16 → s.memUp (pa + i) = true) →
            (∀ p ∈ recs, ∀ pa, p.2 = some pa → ∀ i, i < 7 → bankByte u.mem (pa + 9 + i) =
              (leBytes 1 (if (x.g.k.getD (opNum o.d) ⟨0, 0, 0⟩).tiles.getLsbD p.1 then 0 else 1) ++ leBytes 2 e.epoch.toNat
                ++ leBytes 4 e.step.toNat).getD i 0) ∧
            ∀ a, (∀ pa ∈ recs.filterMap (·.2), a < pa + 9 ∨ pa + 16 ≤ a) → bankByte u.mem a = bankByte s.mem a)))

/-- A delivery to a tile whose record is not current: below the threshold in both sums and under the run limit the
tile is skipped and its run grows, otherwise its record starts anew with the signature (R361, R363). SKLD posts the
tile predicates of its window's tiles that are not to be skipped, with the set's handle as tag; SKST writes SKIP,
EPOCH and STEP into the record of each of its window's tiles, and no other byte, and sets RANGE where a record cannot
be reached; neither changes a register at the issue. Both wait for the walks that they need (R213, R361, R364, R368,
R369, R372). -/
def Obligations.SkipDeliveries : Prop := Sys2Proof.Claims.DeliverySkipsOrStarts ∧ Sys2Proof.Claims.SkipPredicates

/-! ## Events of faults, scheduling and the engines -/

/-- An event that the rules call for comes about: a walk that is ready and intrudes on no tenure ends (R214, R325); an
answered fault record is closed, and each of its waiters retries, walking afresh, or takes the Deny (R214, R294); a discard
ends once the loads have landed and no granted operation of the region is open, and further errors during it make one further
discard (R50; that several make one is log entry 76, the model's choice); a detected error discards the open region of a group, and of one that waits for answers (R49, R436); an
uncorrectable one has its consequence where it lies, is recorded with its context and counts (log entry 88 of the record's
form), and poisons just the bytes of the memory that it names (R392, R408); a region
that still holds a line of an invalidated range is discarded after 65,536 cycles (R215). -/
def Obligations.WalksAnswersAndErrors : Prop :=
  (∀ (s : State) (n : Nat) (w : Walk), s.walks.find? (·.id == n) = some w → s.walkReady w = true →
    s.walkMeets w.ctx (w.page * 4096) = false →
    exec (.walkComplete n) s = .next (s.endWalk w)) ∧
  (∀ (s : State) (c slot : Nat) (f : FaultRec), (s.ctx c).records.find? (·.slot == slot) = some f →
    (s.answerOf c slot = 1 →
      exec (.faultRetry c slot) s
        = .next (f.waiters.foldl (fun u w => u.retryWaiter f w) ((s.closeRecord c f.seq).dropTlb c (·.covers c f.va)))) ∧
    (s.answerOf c slot = 2 →
      exec (.faultDeny c slot) s = .next (f.waiters.foldl (fun u w => u.denyWaiter f w) (s.closeRecord c f.seq)))) ∧
  (∀ (s : State) (gid cause : Nat) (g h : Machine.Group), s.group? gid = some g → g.status = .discarding cause → g.cntLd = 0 →
    s.openOps gid = [] → (s.discard gid cause).group? gid = some h → h.status ≠ .halted →
    (g.again = true → exec (.regionDiscard gid) s
      = .next (((s.discard gid cause).setGroup gid { h with again := false }).startDiscard gid 2)) ∧
    (g.again = false → exec (.regionDiscard gid) s = .next ((s.discard gid cause).resolveFaults gid)) ∧
    (g.again = false → h.status = .running → exec (.regionDiscard gid) s = .next (s.discard gid cause))) ∧
  (∀ (s : State) (gid : Nat) (g : Machine.Group), s.group? gid = some g → g.evicted = false →
    (g.status = .running → g.inRegion = false →
      exec (.recoverableError gid) s = .next { s with issue := s.issue.filter (·.gid != gid) }) ∧
    ((g.status = .running ∧ g.inRegion = true) ∨ g.status = .faultWait →
      ∃ t h, exec (.recoverableError gid) s = .next t ∧ t.group? gid = some h ∧ h.status = .discarding 2 ∧ RegsSame g h ∧
        ((s.matrixEng (engineOfCore g.core)).clears = [] → MemoryKept s t)) ∧
    ∀ c, g.status = .discarding c → exec (.recoverableError gid) s
      = .next { s.setGroup gid { g with again := true } with issue := s.issue.filter (·.gid != gid) }) ∧
  (∀ (s u : State) (loc : ErrLoc) (d : Nat), s.spoil loc = some (u, d) →
    exec (.uncorrectableError loc) s = .next (u.logBox d 5 0 (s.errorCtx loc) (BitVec.ofNat 64 (s.errorPlace loc).1)
      (BitVec.ofNat 64 (s.errorPlace loc).2) (boxData (u.errorCounts loc (s.errorPlace loc).1)))) ∧
  (∀ (s : State) (pa n : Nat), pa + n ≤ Config.physEnd →
    ∃ t, exec (.uncorrectableError (.memory pa n)) s = .next t ∧ (∀ a, bankByte t.mem a = bankByte s.mem a) ∧
      ∀ a, bankPoison t.mem a = (bankPoison s.mem a || decide (pa ≤ a ∧ a < pa + n))) ∧
  ∀ (s : State) (gid : Nat) (g : Machine.Group) (v : Inval), s.host.inval = some v → s.group? gid = some g →
    v.asOf.getD (dieOfCore g.core) 0 + 65536 ≤ (s.die (dieOfCore g.core)).cycle.toNat →
    v.held.contains (gid, g.regionNo) = true → g.holdsRange v = true → g.evicted = false → g.status = .running →
    g.inRegion = true → ∃ t h, exec (.invalidationTimeout gid) s = .next t ∧ t.group? gid = some h ∧ h.status = .discarding 1

/-- The issue cycle counts one cycle of its die and changes no memory (R12, R32). A group all of whose lanes wait at a
boundary issues it, while the current cycle of its core has room for it (R24, R32), one of a gang after its core's L1 has been emptied for its first issue (R438), and one that drains, or whose last region is being fixed before its eviction, hands more lines on
(R33, R375). Waiting teams are tried every 4,096 cycles of die 0 (log entry 66: the model's choice of die), and untried ones at
once (R31). A group that is chosen and may be saved is evicted, or spared at the re-entry limit (R34, R35, R53); an evicted one
resumes where a place is found (R36); a drained one is freed, unless its core has lost power or its context is being stopped,
and its team and grid are counted down (R33, R398). SPAWN queues a
team of its grid and counts its groups, or gives the reason of its refusal (R194 to R196). -/
def Obligations.SchedulingEvents : Prop :=
  (∀ (s : State) (d : Nat), d < 4 → (s.die d).powered = true → s.issue = [] →
    ∃ t, exec (.issueCycle d) s = .next t ∧ (t.die d).cycle = (s.die d).cycle + 1 ∧ (∀ e, e ≠ d → t.die e = s.die e) ∧
      MemoryKept s t) ∧
  (∀ (s : State) (gid : Nat) (g : Machine.Group), s.group? gid = some g →
    (s.boundaryRoom gid g = true → exec (.boundaryIssue gid) s
      = .next { (s.setGroup gid { g with snap := none }).firstIssue gid with
          issue := [⟨gid, 16⟩], inCycle := s.inCycle ++ [(g.core, gid, (g.quadSpan 16).2)] }) ∧
    (g.status = .draining ∨ (g.closing = true ∧ g.evicting = true) → g.buf ≠ [] → g.cntSt < 63 → exec (.boundaryIssue gid) s = .next (s.close gid))) ∧
  (∀ (s : State), (s.tryAt + 4096 ≤ (s.die 0).cycle.toNat →
      exec .teamPlacementTry s = .next { s.tryAll s.waitingTeams with tryAt := (s.die 0).cycle.toNat }) ∧
    ((s.die 0).cycle.toNat < s.tryAt + 4096 → s.waitingTeams.filter (fun kv => !kv.2.tried) ≠ [] →
      exec .teamPlacementTry s = .next (s.tryAll (s.waitingTeams.filter fun kv => !kv.2.tried)))) ∧
  (∀ (s : State) (gid : Nat) (g : Machine.Group), s.group? gid = some g → s.evictReady gid g = true →
    (s.evictDiscard gid g = none →
      exec (.groupEviction gid) s = .next ((s.setGroup gid { g with evicting := false, noEvict := true }).carryOn g.core)) ∧
    ∀ u, s.evictDiscard gid g = some u → ∃ v, v = u.modGroup gid (fun h => { h with evicting := false, evicted := true, snap := none }) ∧
      exec (.groupEviction gid) s = .next (v.afterLeave g)) ∧
  (∀ (s u : State) (gid : Nat) (g : Machine.Group) (t : Machine.Team), s.group? gid = some g → g.evicted = true →
    g.status ≠ .halted → (s.ctx g.ctx).state = .enabled → s.team? g.team = some t →
    (∀ core b, t.place = .placed core b → s.resumeAlone gid g t core = some u → exec (.groupResume gid) s = .next u) ∧
    ∀ core b, t.place = .evicted core b → s.resumeWhole g.team t core b = some u → exec (.groupResume gid) s = .next u) ∧
  (∀ (s : State) (gid : Nat) (g : Machine.Group) (t : Machine.Team), s.group? gid = some g → s.team? g.team = some t →
    g.drainedNow = true → t.gang = none → s.tenuresHeld (fun x => x.gid == gid) = false →
    s.coreUp g.core = true → (s.ctx g.ctx).state ≠ .stopping →
    ∃ u v w : State, u = (s.endTenures fun x => x.gid == gid).dropEarly g.ctx gid ∧
      v = { u with reservations := u.reservations.filter (·.gid != gid), groups := smDel u.groups gid } ∧
      w = ((v.setTeam g.team { t with
        groupsLeft := t.groupsLeft - 1
        place := if t.groupsLeft ≤ 1 then .gone else t.place }).finishLeave g.team).gridDown g.grid 1 ∧
      exec (.groupDrained gid) s = .next ((w.tryAll (w.waitingTeams.filter fun kv =>
        kv.2.dies.getLsbD (dieOfCore g.core))).carryOn g.core)) ∧
  ∀ (o : Ops) (s : State) (x y : IC) (pa : Nat) (q : Grid), Boundary s o.g (footOf .spawn .w96 o) x y →
    (y.val o.a true 0).toNat % 32 = 0 → (y.val o.a true 0).toNat < Config.virtEnd →
    y.actOne .load false (y.val o.a true 0).toNat 32 = .go pa →
    (let rd := y.s.groupRead x.cu.gid y.g.core pa 32
     let v := leNat (rd.2.map (·.1))
     let sh := (spawnShape v).1
     let mask := nfld o.imm.toNat 3 0
     let dies := if mask = 0 then q.dies else q.dies &&& BitVec.ofNat 4 mask
     rd.2.any (·.2) = false → rd.1.drainHeld y.g.core (fun _ => true) = false → rd.1.grid? y.g.grid = some q →
     (∀ r, rd.1.spawnRefusal q sh (spawnShape v).2 dies = some r → exec (.spawn o) s
        = .next (y.past (rd.1.modGroup x.cu.gid fun g => g.wrS (opNum o.d) (BitVec.ofNat 64 (r + 0xFFFFFFFF * 2 ^ 32))))) ∧
     (rd.1.spawnRefusal q sh (spawnShape v).2 dies = none → exec (.spawn o) s
        = .next (y.past ((((rd.1.drainLines y.g.core fun _ => true).setGrid y.g.grid { q with
            counter := q.counter + Shape.total sh }).queueTeam y.g.grid sh (y.val o.b true 0) dies none).modGroup x.cu.gid
              fun g => g.wrS (opNum o.d) (BitVec.ofNat 64 (q.nextTeam % 2 ^ 32 * 2 ^ 32))))))

/-- A matrix engine without a running pass grants the best request, after a suspended pass but for a request of priority
16; it ends a k-step, at which such a request suspends a pass; requests gain a step of priority for each 4,096 cycles
that they wait; and a pass or a DRAIN ends when its last k-step or its tiles are done, a DRAIN to memory once there is room for its
lines (R261, R262, R272, R375). -/
def Obligations.MatrixEngineEvents : Prop :=
  (∀ (s : State) (n : Nat), (s.matrixEng n).running = none → s.engineUp n = true →
    (s.matrixEng n).requests.any (ageDue (s.die (n / 64)).cycle.toNat) = false →
    (∀ o, (s.matrixEng n).best = some o → (s.matrixEng n).suspended = none ∨ o.prio = 16 →
      exec (.matrixGrant n) s = .next (s.setMatrix n { s.matrixEng n with
        requests := (s.matrixEng n).requests.filter (·.id != o.id)
        running := some { o with due := (s.die (n / 64)).cycle.toNat + o.period } })) ∧
    ∀ p, (s.matrixEng n).suspended = some p → (∀ o, (s.matrixEng n).best = some o → o.prio ≠ 16) →
      exec (.matrixGrant n) s = .next (s.setMatrix n { s.matrixEng n with
        suspended := none
        running := some { p with due := (s.die (n / 64)).cycle.toNat + p.period } })) ∧
  (∀ (s : State) (n : Nat) (o : TileOp), (s.matrixEng n).running = some o → s.engineUp n = true →
    o.due ≤ (s.die (n / 64)).cycle.toNat →
    (o.isPass = true → o.kdone + 1 < o.geo.k →
      ∃ o', o' = { o with kdone := o.kdone + 1, due := (s.die (n / 64)).cycle.toNat + o.period } ∧
        exec (.kstepBoundary n) s = .next (s.setMatrix n (
          if o.prio < 16 ∧ (s.matrixEng n).suspended = none ∧
            ((s.matrixEng n).requests.any fun r => r.prio == 16 && (s.matrixEng n).grantable r) = true then
            { s.matrixEng n with running := none, suspended := some o' }
          else { s.matrixEng n with running := some o' }))) ∧
    (o.isPass = true → o.geo.k ≤ o.kdone + 1 ∨ o.enabled = [] →
      exec (.passComplete n o.id) s = .next ((s.setMatrix n { s.matrixEng n with running := none }).endPass o o.geo.k)) ∧
    (o.isPass = false → (o.dreg = none → s.lateBlocked o.gid = false) →
      exec (.drainComplete n o.id) s = .next ((s.setMatrix n { s.matrixEng n with running := none }).endDrain o))) ∧
  ∀ (s : State) (n : Nat), (s.matrixEng n).requests.any (ageDue (s.die (n / 64)).cycle.toNat) = true →
    exec (.requestAgeing n) s = .next (s.setMatrix n { s.matrixEng n with
      requests := (s.matrixEng n).requests.map fun o =>
        if ageDue (s.die (n / 64)).cycle.toNat o then { o with prio := o.prio + 1, agedAt := o.agedAt + 4096 } else o })

/-- A copy engine of a die that works goes on with a started command that nothing holds up, or starts the next of its queue
while fewer than 8 are at work (R296); it delivers a copy's next signature (R303), and writes a finished command's record into its free slot, or
holds it while the slot is in use (R305). A split that sleeps in SLEEPM or CRWAIT reads its word again, and
wakes with 0 once the value has changed, or the record is there; at their limits SLEEPM, CRWAIT and WAITB end with 1 (R189, R312, R385). -/
def Obligations.CopyEngineAndSleepers : Prop :=
  (∀ (s : State) (n : Nat), s.copyUp n = true →
    (∀ r, (s.copyEngine n).running.find? (s.copyGoes n) = some r → exec (.copyStart n) s = .next (s.advanceRun n r)) ∧
    ∀ c rest, (s.copyEngine n).running.find? (s.copyGoes n) = none → (s.copyEngine n).queue = c :: rest →
      ((s.copyEngine n).running.filter fun r => r.done.isNone).length < 8 →
      exec (.copyStart n) s = .next ((s.setCopyEng n { s.copyEngine n with
        queue := rest, running := (s.copyEngine n).running ++ [c.start] }).advanceRun n c.start)) ∧
  (∀ (s : State) (id n tile sum abs : Nat) (r : CopyRun) (rest : List (Nat × Nat × Nat)),
    (s.copyEng.findSome? fun kv => (kv.2.find id).map fun r => (kv.1, r)) = some (n, r) → r.sigs = (tile, sum, abs) :: rest →
    s.deliveryHeld r.cmd.ctx r.cmd.sset tile = false →
    exec (.signatureDelivery id) s = .next ((s.deliver r.cmd.ctx r.cmd.sset tile sum abs).1.putRun n { r with
      sigs := rest
      flags := if (s.deliver r.cmd.ctx r.cmd.sset tile sum abs).2 then r.flags ||| 8 else r.flags })) ∧
  (∀ (s u w : State) (n id st fault addr k : Nat) (r q : CopyRun), (s.copyEngine n).find id = some r →
    r.recordDue = some (st, fault, addr) → s.copyWaiting n r = false → s.numberRun n r = (u, q, k) →
    (∀ pa, u.findSlot n q.cmd (u.ringSlot q.cmd.ctx k) = (w, .free pa) →
      ∃ v, v = w.copyWrite q.cmd .g (wbytes pa (q.record st fault addr k)) ∧
        exec (.copyCompletionRecord n id) s = .next ((v.setCopyEng n { v.copyEngine n with
          running := (v.copyEngine n).running.filter fun z => z.cmd.id != id }).copyDone q.cmd st fault)) ∧
    (u.findSlot n q.cmd (u.ringSlot q.cmd.ctx k) = (w, .busy) → exec (.copyRingSlotWait n id) s = .next w ∧
      exec (.copyCompletionRecord n id) s = .next w)) ∧
  (∀ (s : State) (gid split va dst : Nat) (b64 : Bool) (want : W64) (dl : Option Nat) (k : Nat) (g : Machine.Group) (pas : List Nat),
    s.group? gid = some g → g.sleeper split = some ⟨k, .sleepm va b64 want, dst, dl⟩ →
    s.span (g.req gid .load false) va (if b64 then 8 else 4) = .ok pas → s.homeHeld gid g.core pas = false →
    ∃ rd, rd = s.groupRead gid g.core (pas.headD 0) (if b64 then 8 else 4) ∧
      (rd.2.any (·.2) = false → BitVec.ofNat 64 (leNat (rd.2.map (·.1))) ≠ want →
        exec (.sleepmReread gid split) s = .next (rd.1.wakeSplit gid split dst 0)) ∧
      (rd.2.any (·.2) = false → BitVec.ofNat 64 (leNat (rd.2.map (·.1))) = want →
        exec (.sleepmReread gid split) s = .next rd.1)) ∧
  (∀ (s : State) (gid split n dst : Nat) (dl : Option Nat) (k : Nat) (g : Machine.Group) (pas : List Nat),
    s.group? gid = some g → g.sleeper split = some ⟨k, .crwait n, dst, dl⟩ →
    s.span (g.req gid .load false) (s.ringSlot g.ctx n + 4) 4 = .ok pas → s.homeHeld gid g.core pas = false →
    ∃ rd, rd = s.groupRead gid g.core (pas.headD 0) 4 ∧
      (rd.2.any (·.2) = false → leNat (rd.2.map (·.1)) = n →
        exec (.crwaitReread gid split) s = .next (rd.1.wakeSplit gid split dst 0)) ∧
      (rd.2.any (·.2) = false → leNat (rd.2.map (·.1)) ≠ n → exec (.crwaitReread gid split) s = .next rd.1)) ∧
  ∀ (s : State) (gid split : Nat) (g : Machine.Group) (q : Sleeper), s.group? gid = some g → g.sleeper split = some q →
    s.pastDeadline g q = true →
    (∀ va b64 want, q.kind = .sleepm va b64 want → exec (.sleepmTimeout gid split) s = .next (s.wakeSplit gid split q.dst 1)) ∧
    (∀ n, q.kind = .crwait n → exec (.crwaitTimeout gid split) s = .next (s.wakeSplit gid split q.dst 1)) ∧
    ∀ b r, q.kind = .waitb b r → exec (.waitbTimeout gid split) s = .next (s.wakeSplit gid split q.dst 1)

/-- A doorbell has no effect while the front end is not ready, and else announces the packets up to WRITE, and the queue is
vetted (R283, R412; that it is vetted then is log entry 42).
Arbitration picks a queue in a cycle of die 0 in which none has started a packet yet; a queue rises in rank for each 65,536
cycles that it could have started (R291). A bobbin handles the end of a quantum after 2 to the power of its exponent cycles, and,
between quanta, a queue that waits: the non-resident queue of highest rank takes a vacant place, or that of a resident queue with no
packet to start (R292, R419). That a grant is kept until its packet starts, and that a vacant place is taken between quanta, are log
entry 41; which queue gives up its place is log entry 102, and that the count of whole quanta starts again is log entry 103: the
model's choices. -/
def Obligations.QueueEvents : Prop :=
  (∀ (s : State) (q : Nat), (s.ready 5 = false → exec (.queueDoorbell q) s = .next s) ∧
    (s.ready 5 = true → ∃ u, u = s.setQueue q { s.queueNow q with announced := s.queueWrite q } ∧
      exec (.queueDoorbell q) s = .next ((u.vetQueue q).getD u).noteStartable.noteFirmware)) ∧
  (∀ (s : State) (q : Nat), s.noteStartable.feGrant ≠ some q →
    s.noteStartable.feAt ≠ some (s.noteStartable.die 0).cycle.toNat → s.noteStartable.arbiter = some q →
    exec .queueArbitration s = .next { s.noteStartable with feGrant := some q }) ∧
  (∀ (s : State) (q t : Nat), (s.queue q).startableAt = some t → s.queuePrio q + (s.queue q).aged < 15 →
    t + 65536 * ((s.queue q).aged + 1) ≤ (s.die 0).cycle.toNat →
    exec (.queueAgeing q) s = .next (s.setQueue q { s.queue q with aged := (s.queue q).aged + 1 })) ∧
  (∀ (s u : State), s.quantumAt + 2 ^ s.host.qexp ≤ (s.die 0).cycle.toNat → s.handle .quantumEnd = some u →
    ∃ t, exec .quantumEnd s = .next t ∧ t.quantumAt = (s.die 0).cycle.toNat ∧ t.host.qexp = s.host.qexpNext ∧
      t.mem = s.mem ∧ t.groups = s.groups) ∧
  ∀ (s : State) (q : Nat) (p : Nat × State), s.byRank.find? (fun n => !(s.queue n).resident) = some q →
    (((s.queues.map (·.1)).filter fun n => (s.queue n).resident).length < 64 →
      s.handleQueue (s.byRank.filter fun n => !(s.queue n).resident) = some p →
      exec (.queueReplacement q) s
        = .next (p.2.setQueue q { p.2.queue q with resident := true, quanta := 0 }).noteStartable) ∧
    (64 ≤ ((s.queues.map (·.1)).filter fun n => (s.queue n).resident).length →
      s.handleQueue (((s.queues.map (·.1)).filter fun n => (s.queue n).resident).filter fun n => !s.startable n) = some p →
      ∃ u, u = p.2.setQueue p.1 { p.2.queue p.1 with resident := false, lastResident := (p.2.die 0).cycle.toNat } ∧
        exec (.queueReplacement q) s = .next (u.setQueue q { u.queue q with resident := true, quanta := 0 }).noteStartable)

namespace Sys2Proof.Claims

/-- A packet of a type acts, in the state `u`: it is read, well formed, and counts as started; or it had started, and has
waited to act. -/
structure PacketActs (s : State) (q n type : Nat) (img : BitVec 512) (u : State) : Prop where
  type_ : packetType img = type
  form : malformed img = none
  stands : (∃ v, (s.queue q).started.find? (·.num == n) = none ∧ s.readStart q n = .go v img ∧
      u = ({ v with feGrant := none, feAt := some (v.die 0).cycle.toNat } : State).addStarted q (Started.fresh n img)) ∨
    ∃ p, (s.queue q).started.find? (·.num == n) = some p ∧ p.img = img ∧ p.acted = false ∧ p.done = none ∧
      s.ready 5 = true ∧ (s.ctx (s.queueCtx q)).state = .enabled ∧ u = s

/-- A state in which a packet has acted. -/
def acted (u : State) (q n : Nat) : State := u.modStarted q n fun p => { p with acted := true }

end Sys2Proof.Claims

/-- A packet starts and acts by its TYPE (R286): NOPK is done at once; LAUNCH makes a grid and queues its teams, or is
rejected; SIGNAL writes its target's new value; COPY goes to an engine's queue; BARRIER reads its signals, and again while
they are not latched (R288). A malformed packet is finished with STATUS 3 (R289). A finished packet retires, and a packet of
an aborted queue is taken up to retire with STATUS 4 (R287, R290). That a packet which has started may wait to act is log entry
39, and that its event uses up the grant is log entry 41; both are the model's reading. -/
def Obligations.PacketEvents : Prop :=
  (∀ (s u : State) (q n : Nat) (img : BitVec 512),
    (PacketActs s q n 0 img u → exec (.nopk q n) s = .next (acted (u.packetDone q n 1 0 0) q n)) ∧
    (PacketActs s q n 1 img u → ∀ r, u.launchRefusal q img = some r →
      exec (.launch q n) s = .next (acted (u.packetDone q n 2 r 0) q n)) ∧
    (PacketActs s q n 1 img u → u.launchRefusal q img = none →
      exec (.launch q n) s = .next (acted ((List.range (pfld img 287 256)).foldl
        (fun v _ => v.queueTeam u.nextGridKey (launchShape img) (BitVec.ofNat 64 (pfld img 255 192)) (u.launchDies q img) none)
        (u.newGrid (u.queueCtx q) (launchGroups img) (u.launchDies q img) q (some n) none)) q n)) ∧
    (PacketActs s q n 2 img u → exec (.barrier q n) s = .next (acted (u.readRound q n) q n)) ∧
    (PacketActs s q n 3 img u → ∀ pa, u.feReach q (accessOf n 1) true (pfld img 191 128) = .ok pa → u.writeHeld pa 8 = false →
      exec (.signal q n) s = .next (acted ((u.writeSignal pa (signalValue img) (pfld img 257 256 != 0)).packetDone
        q n 1 0 0) q n)) ∧
    (PacketActs s q n 4 img u → ∀ e, u.copyServes q e = true →
      exec (.copy q n e) s = .next (acted (u.enqueue e (u.queueCtx q) [u.packetCopy q n img]) q n))) ∧
  (∀ (s t : State) (q n r e : Nat) (img : BitVec 512), (s.queue q).started.find? (·.num == n) = none →
    s.readStart q n = .go t img → malformed img = some r →
    ∀ i ∈ ([(.nopk q n, 0), (.launch q n, 1), (.barrier q n, 2), (.signal q n, 3), (.copy q n e, 4)] : List (Instr × Nat)),
      packetType img = i.2 ∨ (4 < packetType img ∧ i.2 = 0) →
      exec i.1 s = .next ((({ t with feGrant := none, feAt := some (t.die 0).cycle.toNat } : State).addStarted q
        (Started.fresh n img)).malformPacket q n r)) ∧
  (∀ (s : State) (q n : Nat) (p : Started), (s.queue q).started.find? (·.num == n) = some p → s.ready 5 = true →
    (packetType p.img = 2 → p.done = none → (s.ctx (s.queueCtx q)).state = .enabled →
      exec (.barrierSignalRead q n) s = .next (s.readRound q n)) ∧
    ∀ u, p.retired = false → s.unblocked q n = true → s.descHeld q = false → (s.ctx (s.queueCtx q)).state ≠ .stopping →
      (s.setQueue q (s.queueNow q)).retirePacket q p = some u → exec (.packetRetire q n) s = .next u) ∧
  ∀ (s t : State) (q n pa : Nat) (img : BitVec 512), (s.queue q).started.find? (·.num == n) = none → s.ready 5 = true →
    s.descHeld q = false → (s.ctx (s.queueCtx q)).state ≠ .stopping → s.abortedNext q n = true →
    s.feReach q (accessOf n 0) false (s.slotVa q n) = .ok pa → s.packetAt pa = (t, some img) →
    exec (.packetRetire q n) s = .next (t.addStarted q { Started.fresh n img with done := some (4, 0x40, 0) })

/-- The first fault of an enabled context stops it: the record is marked as the cause, and every engine with its work is
to halt (R394, R395). Such an engine halts, and one that was lost with its die has its record written as it was then (R396, R409).
When all have, and no copy of it is left, its tenures are released and its queues abort, the summary record is written, and it is stopped (R395, R398). -/
def Obligations.StopLineEvents : Prop :=
  (∀ (s : State) (c : Nat) (x : Ctx) (f : StopRec) (rest : List StopRec),
    s.ctxs.find? (fun kv => kv.2.state == .enabled && !kv.2.stopFaults.isEmpty && !s.stopHeld kv.1) = some (c, x) → x.stopFaults = f :: rest →
    f.source ≠ 8 →
    ∃ t, exec .stopLineRaise s = .next t ∧ (t.ctx c).state = .stopping ∧ (t.ctx c).stopCause = some { f with cause := true } ∧
      (t.ctx c).stopFaults = rest ∧ (t.ctx c).haltLeft = s.engines c x.stopFaults ∧ MemoryKept s t) ∧
  (∀ (s : State) (c e : Nat), (s.ctx c).state = .stopping → (s.ctx c).haltLeft.contains e = true →
    s.stopHeld c = false → (e < 1024 → s.haltHeld c e = false) → s.engineDark e = false →
    ∃ u, u = s.setCtx c { s.ctx c with
        haltLeft := (s.ctx c).haltLeft.erase e
        haltDone := (s.ctx c).haltDone ++ [e]
        lostRecs := (s.ctx c).lostRecs.filter (·.1 != e) } ∧
      (e < 1024 → exec (.engineHalt c e) s = .next (u.haltCore c e)) ∧
      (1024 ≤ e → ∀ r, (s.ctx c).lostRecs.find? (·.1 == e) = some r → exec (.engineHalt c e) s = .next (u.putStop c r.2 [])) ∧
      (1024 ≤ e → (s.ctx c).lostRecs.find? (·.1 == e) = none →
        exec (.engineHalt c e) s = .next (if e < 2048 then u.haltMatrix c (e - 1024)
          else if e < 4096 then u.haltCopies c (e - 2048)
          else u.haltSeam c (e - 4096)))) ∧
  ∀ (s t : State) (c : Nat), s.halted c = true → s.tenuresHeld (·.ctx == c) = false → s.stopHeld c = false →
    (s.stopRest c).stopQueues (s.queuesOf c) = .done t →
    exec (.stopCompletion c) s = .next (t.putSummary c) ∧ ((t.putSummary c).ctx c).state = .stopped

/-- A step close whose gang records lie in reach launches its gangs, at once or after a wait for them (log entry 34: the
model's reading), and one for which no island entry is left puts its world in error (R343, R345, R348). A placed gang's bodies
are staged into its scratch before its groups issue (R346). When its last group has drained, bytes 0 to 119 of each body's
record take the bytes of its staged record in scratch, and no other memory changes (R347); where two records overlap the later
body's stand. The step signal is stored, all ones for a world in error (R348). -/
def Obligations.StepEvents : Prop :=
  (∀ (s : State) (w : Nat), s.closeReady w = true →
    (∀ d x, (s.world w).launch = none → closeStages (s.world w) w (s.die (worldDie w)) = (d, x, none) →
      exec (.stepClose w) s = .next (((s.setDie (worldDie w) d).setWorld w { x with launch := none }).worldError w 4)) ∧
    ∀ u plan pas, ((s.world w).launch = some plan ∧ u = s) ∨
        (∃ d x, (s.world w).launch = none ∧ closeStages (s.world w) w (s.die (worldDie w)) = (d, x, some plan) ∧
          u = (s.setDie (worldDie w) d).setWorld w { x with launch := some plan }) →
      u.seamAll w true ((List.range plan.length).map fun g => (u.world w).desc.grec + 64 * g) = .ok pas →
      pas.any (·.isNone) = false → u.seamHeld pas 64 = false →
      exec (.stepClose w) s
        = .next ((u.closeLaunch w (u.world w) plan (pas.filterMap id)).unitDone (u.world w).desc.ctx (.world w))) ∧
  (∀ (s : State) (key core base : Nat) (t : Machine.Team) (g : Gang) (pas : List (Option Nat)), s.team? key = some t →
    t.gang = some g → t.place = .placed core base → (s.ctx t.ctx).state = .enabled →
    s.recordWaits t.ctx (.world g.world) = false → s.seamUp g.world = true →
    (g.staged = false → s.seamAll g.world false (g.bodies.map fun b => (s.world g.world).desc.body + 128 * b) = .ok pas →
      pas.any (·.isNone) = false →
      ∃ all v, all = (pas.filterMap id).flatMap (fun a => run a 120) ∧ v = s.intrude none all false ∧
        (s.intrudeWaits none all = false → exec (.gangStaging key) s = .next (((v.setCore core { v.core core with
          scratch := bankWrite (v.core core).scratch (v.stagedBytes (s.world g.world) g base (pas.filterMap id)) }).setTeam key { t with gang := some { g with staged := true } }).unitDone t.ctx
            (.world g.world)))) ∧
    (g.staged = true → g.written = false → t.groupsLeft = 1 →
      ((s.groups.filter fun kv => kv.2.team == key).all fun kv => kv.2.drainedNow) = true →
      s.seamAll g.world true (g.bodies.map fun b => (s.world g.world).desc.body + 128 * b) = .ok pas →
      pas.any (·.isNone) = false → s.seamHeld pas 120 = false → s.tenures = [] →
      ∃ u, exec (.gangWriteback key) s = .next u ∧
        u.team? key = some { t with gang := some { g with written := true } } ∧
        (∀ i pa j, pas[i]? = some (some pa) → j < 120 → s.memUp (pa + j) = true →
          (∀ k pb, i < k → pas[k]? = some (some pb) → pa + j < pb ∨ pb + 120 ≤ pa + j) →
          bankByte u.mem (pa + j) = bankByte (s.core core).scratch (base + 128 * i + j)) ∧
        (∀ a, (∀ pa, some pa ∈ pas → a < pa ∨ pa + 120 ≤ a) → bankByte u.mem a = bankByte s.mem a) ∧
        u.cores = s.cores ∧ u.groups = s.groups)) ∧
  ∀ (s : State) (w pa : Nat) (v : W64), (s.world w).sigDue = some v → (s.world w).error = true ∨ s.worldCounter w = 0 →
    s.recordWaits (s.world w).desc.ctx (.world w) = false → s.seamReach w true (s.world w).desc.stepsig = .ok pa →
    s.writeHeld pa 8 = false → s.seamUp w = true →
    exec (.stepsigStore w) s
      = .next (((s.memWrite none (wbytes pa (leBytes 8 v.toNat))).setWorld w { s.world w with sigDue := none }).unitDone
          (s.world w).desc.ctx (.world w))

/-! ## Repair, power, the host and the commands -/

/-- A core with a failing quad uses its spare quad when the current regions of its resident groups have ended, if the spare is free
(R401); an error of a core that is corrected is counted, and changes nothing else (R381); one of a row is counted with its frames,
and the row is copied to a spare row of its bank, or its frames become bad, those of its errors and the row's others, which are free
(R404; log entry 87); a port's lane moves to its spare, and its second
failing lane makes the link dead (R405); a core, a matrix engine or a copy engine is retired, or waits while a context is being
stopped (R402, R403, R409); a firmware error is recorded, and the event that its bobbin was handling comes first again, for another to
take (R392, R419; which bobbin it is, and how events are taken, is log entry 91). No byte of memory changes by sparing. What the black box says of it is log entry 88. -/
def Obligations.SparingAndRetirement : Prop :=
  (∀ (s : State) (n : Nat), n < 1024 → (s.core n).spareUsed = false → (s.core n).retired = false → (s.core n).failed = false →
    smFind s.sparing n = none →
    (s.regionsOn n = [] → ∃ t, exec (.quadSpare n) s = .next t ∧ t.core n = { s.core n with spareUsed := true } ∧
      MemoryKept s t ∧ t.groups = s.groups) ∧
    (s.regionsOn n ≠ [] → exec (.quadSpare n) s = .next { s with sparing := smPut s.sparing n (s.regionsOn n) })) ∧
  (∀ (s : State) (n : Nat), n < 1024 →
    ∃ t, exec (.correctedError (.core n)) s = .next t ∧ t.core n = { s.core n with ecor := satAdd (s.core n).ecor 1 } ∧
      t = { s with cores := t.cores } ∧ ∀ m, m ≠ n → t.core m = s.core m) ∧
  (∀ (s : State) (stack bank row : Nat) (frames : List Nat) (old : Nat × List Nat),
    old = smGet (0, []) s.rowErrors (rowKey stack bank row) →
    ∃ t, exec (.correctedError (.row stack bank row frames)) s = .next t ∧ t = { s with rowErrors := t.rowErrors } ∧
      smGet (0, []) t.rowErrors (rowKey stack bank row) = (old.1 + 1, (old.2 ++ frames).eraseDups)) ∧
  (∀ (s : State) (stack bank row : Nat), stack < 12 →
    ∃ t, exec (.rowSpare stack bank row) s = .next t ∧ MemoryKept s t ∧
      t.rowErrors = smDel s.rowErrors (rowKey stack bank row) ∧
      (smGet 0 s.spareRows (bankKey stack bank) < 8 → t.badFrames = s.badFrames ∧
        smGet 0 t.spareRows (bankKey stack bank) = smGet 0 s.spareRows (bankKey stack bank) + 1) ∧
      (8 ≤ smGet 0 s.spareRows (bankKey stack bank) → t.spareRows = s.spareRows ∧
        ∀ f, f ∈ (smGet (0, []) s.rowErrors (rowKey stack bank row)).2 ∨ f ∈ Config.rowFrames (rowKey stack bank row) →
          smGet false t.badFrames f = true)) ∧
  (∀ (s : State) (p n : Nat), p < 24 → (s.port p).state = 2 →
    ((s.port p).spare = false → ∃ t, exec (.fabricLaneSpare p n) s = .next t ∧ MemoryKept s t ∧
      t.port p = { s.port p with spare := true, frpl := satAdd (s.port p).frpl n }) ∧
    ((s.port p).spare = true → exec (.fabricLaneSpare p n) s = .next (s.killLink p 2))) ∧
  (∀ (s : State), s.stopping = false → ∀ n,
    (n < 1024 → (s.core n).retired = false → (s.core n).failed = false → exec (.coreRetirement n) s
      = .next (State.retireCore { s with retireDue := s.retireDue.filter (· / 2 != n) } n)) ∧
    (n < 256 → (s.copyEngine n).retired = false → ∀ f, exec (.engineRetirement true f n) s
      = .next (State.retireCopy { s with retireDue := s.retireDue.filter (· / 2 != copyCode n) } n)) ∧
    (n < 256 → (s.matrixEng n).retired = false → ∀ f, exec (.engineRetirement false f n) s
      = .next (State.retireMatrix { s with retireDue := s.retireDue.filter (· / 2 != matrixCode n) } n f))) ∧
  (∀ (s : State), s.stopping = true → ∀ n, n < 1024 → (s.core n).retired = false → (s.core n).failed = false →
    ∃ t, exec (.coreRetirement n) s = .next t ∧ t = { s with retireDue := t.retireDue } ∧ 2 * n ∈ t.retireDue) ∧
  ∀ (s : State) (d : Nat), d < 4 → (s.die d).powered = true →
    ∃ b u, b / 3 = d ∧ u = { s with
        fresh := s.fresh + 1
        events := (s.bobbins.filter fun kv : Nat × DeviceEvent => kv.1 == b).map (fun kv : Nat × DeviceEvent => (kv.2, some kv.1)) ++ s.events
        bobbins := s.bobbins.filter fun kv : Nat × DeviceEvent => !(kv.1 == b) } ∧
      exec (.firmwareError d) s = .next (u.logBox d 16 0 noCtx (BitVec.ofNat 64 d) 0 0)

/-- A link whose port has been silent is declared dead with a new link-state number, and drain rounds of 65,536 cycles follow, the
last of which fails a peer that nothing reaches (R405); a newer number is taken and sent on (R405). A failing core, die, peer or
host is declared failed (R406), a core being left with nothing in its memories; it rejoins, its self-test done (log entry 106: which
self-test that of a core is), with the next incarnation: a core as empty as its failure left it, a die with its counter at 0 and the cores that had not failed on their own
(R407). A die that loses power, or reaches its thermal trip, has no function ready (R14, R412, R421; which of the device's own
functions go with die 0 is log entry 74); its power comes back after that (R408); its clock follows its cap (R421); its reset clears
its counter (R12). A function that has power and has passed its test is ready (R412), and a link that is trained is up (R416). Black
boxes of dies without power go with the standby supply (R14). How numbers go round, and which peers are reached over others, is log
entry 89. -/
def Obligations.LinksFailuresAndPower : Prop :=
  (∀ (s : State) (p : Nat), p < 24 →
    ((s.port p).state = 2 → s.silent p = true → ∃ t, exec (.linkDead p) s = .next t ∧
      t.port p = { s.port p with state := 3, peer := 0, lsn := (s.port p).lsn + 1, drainRounds := 0, far := (s.port p).peer,
                                 drainAt := (s.die (dieOfPort p)).cycle.toNat } ∧ t.ready (24 + p) = false ∧
      (p, (s.port p).lsn + 1) ∈ t.floods) ∧
    (∀ n, n < 2 ^ 16 →
      (newerLsn (BitVec.ofNat 16 n) (s.port p).lsn = true → exec (.linkStateUpdate p n) s
        = .next ((s.setPort p { s.port p with lsn := BitVec.ofNat 16 n }).flood p (BitVec.ofNat 16 n))) ∧
      (newerLsn (BitVec.ofNat 16 n) (s.port p).lsn = false → exec (.linkStateUpdate p n) s = .next s)) ∧
    ((s.port p).state = 3 → (s.port p).drainRounds < 4 →
      (s.port p).drainAt + 65536 ≤ (s.die (dieOfPort p)).cycle.toNat → ∃ u, u = s.setPort p { s.port p with
        drainRounds := (s.port p).drainRounds + 1, drainAt := (s.port p).drainAt + 65536 } ∧
      ((s.port p).drainRounds ≠ 3 ∨ (s.port p).far = 0 → exec (.drainRound p) s = .next u) ∧
      ((s.port p).drainRounds = 3 → (s.port p).far ≠ 0 → ∀ r, r = u.peerReached (s.port p).far →
        exec (.drainRound p) s = .next (if r.1 then r.2 else r.2.failPeer (s.port p).far.toNat))) ∧
    ((s.port p).state ≠ 3 → (s.die (dieOfPort p)).powered = true → ∀ up peer,
      ∃ t, exec (.linkTraining (24 + p) up peer) s = .next t ∧ t.ready (24 + p) = up ∧
        t.port p = { s.port p with state := if up then 2 else 1, peer := if up then peer else 0,
                                   acceptAt := (s.die (dieOfPort p)).cycle.toNat })) ∧
  (∀ (s : State) (b : Nat) (up : Bool) (peer : BitVec 32), b < 3 → (up = true → s.functionPower b = true) →
    ∃ t, exec (.linkTraining b up peer) s = .next t ∧ t.ready b = up) ∧
  (∀ (s : State),
    (∀ n, n < 1024 → (s.core n).failed = false → exec (.failureDeclaration (.core n)) s = .next (s.failCore n) ∧
      (s.failCore n).core n = { (s.core n).fail with alone := true }) ∧
    (∀ d, d < 4 → (s.die d).failed = false → exec (.failureDeclaration (.die d)) s = .next (s.failDie d)) ∧
    (∀ n, smGet false s.host.peersLost n = false →
      ∃ t, exec (.failureDeclaration (.peer n)) s = .next t ∧ smGet false t.host.peersLost n = true ∧ MemoryKept s t) ∧
    (s.host.lost = false → ∃ t, exec (.failureDeclaration .host) s = .next t ∧ t.hostHalves = [] ∧ t.host.lost = true) ∧
    (∀ n, (s.core n).failed = true → (s.die (dieOfCore n)).powered = true → (s.die (dieOfCore n)).failed = false →
      s.ready (8 + dieOfCore n) = true → (s.core n).untested = false →
      ∃ t, exec (.agentRejoin (.core n)) s = .next t ∧
        t.core n = { s.core n with failed := false, alone := false, inc := nextInc (s.core n).inc }) ∧
    (∀ d, (s.die d).failed = true → (s.die d).powered = true → (dieBits d).all s.ready = true →
      ∃ t, exec (.agentRejoin (.die d)) s = .next t ∧ (t.die d).failed = false ∧ (t.die d).cycle = 0 ∧
        (t.die d).inc = nextInc (s.die d).inc ∧ ∀ c, dieOfCore c = d →
          t.core c = if (s.core c).alone then s.core c
            else { s.core c with failed := false, alone := false, untested := false, inc := nextInc (s.core c).inc }) ∧
    (∀ n, smGet false s.host.peersLost n = true → ∃ t, exec (.agentRejoin (.peer n)) s = .next t ∧
      smGet 1 t.host.peerInc n = nextInc (smGet 1 s.host.peerInc n) ∧ smGet false t.host.peersLost n = false) ∧
    (s.host.lost = true →
      ∃ t, exec (.agentRejoin .host) s = .next t ∧ t.host.inc = nextInc s.host.inc ∧ t.host.lost = false)) ∧
  (∀ (s : State) (d : Nat), d < 4 →
    ((s.die d).powered = true → ∃ t, exec (.diePowerLoss d) s = .next t ∧ exec (.thermalTrip d) s = .next t ∧
      (t.die d).powered = false ∧ (t.die d).cycle = (s.die d).cycle ∧ (t.die d).islands = [] ∧
      ∀ b ∈ s.darkBits d, t.ready b = false) ∧
    ((s.die d).powered = false → (s.die d).failed = true →
      ∃ t, exec (.powerRestored d) s = .next t ∧ (t.die d).powered = true ∧ (t.die d).cycle = 0) ∧
    ((s.die d).powered = true → ∀ n, n ≠ 0 →
      exec (.powerCapThrottle d n) s = .next (s.setDie d { s.die d with divisor := n })) ∧
    ((s.die d).powered = true → (s.die d).failed = false → s.groups = [] → s.matrix = [] → s.copyEng = [] → s.worlds = [] →
      s.l2dirty = [] →
      ∃ t, exec (.dieReset d) s = .next t ∧ (t.die d).cycle = 0 ∧ (t.die d).islands = [] ∧ t.mem = s.mem)) ∧
  (∀ (s : State) (b : Nat), 3 ≤ b → b < 24 → s.functionPower b = true →
    ∃ t, exec (.selfTestComplete b) s = .next t ∧ t.ready b = true ∧ (∀ c, c ≠ b → t.ready c = s.ready c) ∧
      (b / 4 = 2 → ∀ n, dieOfCore n = b - 8 → (t.core n).untested = false)) ∧
  ∀ (s : State), ∃ t, exec .standbyPowerLoss s = .next t ∧
    ∀ d, d < 4 → ((s.die d).powered = false → (t.die d).box = []) ∧ ((s.die d).powered = true → t.die d = s.die d)

namespace Sys2Proof.Claims

/-- A flit of a port that is up is accepted now: it bears the current numbers, and nothing of the line has to be given up first. -/
structure FlitComes (s : State) (port pa : Nat) (f : FlitHead) : Prop where
  port_ : port < 24
  up : (s.port port).state = 2
  line : pa % 128 = 0
  device : pa < Config.physEnd
  current : s.flitDropped port f = false
  recalled : s.intrudeWaits none (run pa 128) = false

end Sys2Proof.Claims

/-- The host reads a half line and holds it, a die that is not ready answering with poison; it writes bytes back and gives the half
up, and gives up what the home takes back (R234, R410; which reads and writes take and give a half is log entry 49). A flit from a
peer is a whole line with its poison marks, and counts for the job that takes it, or reads a line; an error of it that is corrected is counted at its
port (R325, R381, R417); one that bears an old number changes nothing else
(R236, R405, R407); a line of a restore comes encrypted and stands so until it is accessed (R418; log entry 52). A job ends with its number in its job word when its lines are moved, or
with bit 63 where no port was left (R417, R418; log entry 50). A register of the block is written; a doorbell's event comes next on
the agenda, which is the model's own (R411; log entries 2, 3); a second command doorbell sets OVR (R413). -/
def Obligations.HostAndPeerEvents : Prop :=
  (∀ (s : State) (pa : Nat), s.ready 1 = true → s.host.lost = false →
    (s.hostReaches pa = false → exec (.hostMemRead pa) s = .next (s.answerHost (List.replicate 64 (0, true))) ∧
      ∀ bytes : List Byte, exec (.hostMemWrite pa bytes) s = .next s) ∧
    (s.hostReaches pa = true → s.intrudeWaits none (run (64 * (pa / 64)) 64) = false →
      ∃ u, u = s.intrude none (run (64 * (pa / 64)) 64) false ∧
        exec (.hostMemRead pa) s = .next (State.answerHost
          { u with hostHalves := smSet false u.hostHalves (pa / 64) true } (u.outsideRead (64 * (pa / 64)) 64))) ∧
    ∀ bytes : List Byte, s.hostReaches pa = true → pa % 64 + bytes.length ≤ 64 →
      s.hostWriteWaits (pa / 64) (run pa bytes.length) = false →
      exec (.hostMemWrite pa bytes) s = .next ((s.outsideWrite (wbytes pa bytes)).giveUp (pa / 64))) ∧
  (∀ (s : State) (half : Nat) (dirty : List (Nat × Byte)), smGet false s.hostHalves half = true → s.host.lost = false →
    (∀ p ∈ dirty, p.1 < 64) → s.giveUpWaits (dirty.map fun p => 64 * half + p.1) = false →
    (dirty = [] → exec (.backInvalidate half dirty) s = .next (s.giveUp half)) ∧
    (dirty ≠ [] → exec (.backInvalidate half dirty) s
      = .next ((s.outsideWrite (dirty.map fun p => ⟨64 * half + p.1, p.2, false⟩)).giveUp half))) ∧
  (∀ (s : State) (port pa : Nat) (bytes : List (Byte × Bool)) (f : FlitHead),
    ((s.acceptFlit port f.corrected).port port).fcor
      = (if f.corrected then satAdd (s.port port).fcor 1 else (s.port port).fcor) ∧
    ((s.countCorrected port f.corrected).port port).fcor
      = (if f.corrected then satAdd (s.port port).fcor 1 else (s.port port).fcor) ∧
    (port < 24 → (s.port port).state = 2 → pa % 128 = 0 → pa < Config.physEnd → bytes.length = 0 ∨ bytes.length = 128 →
      s.flitDropped port f = true → exec (.peerFlit port pa bytes f) s = .next (s.countCorrected port f.corrected)) ∧
    (FlitComes s port pa f →
      (bytes = [] → exec (.peerFlit port pa bytes f) s
        = .next ((s.acceptFlit port f.corrected).intrude none (run pa 128) false)) ∧
      (bytes.length = 128 → s.hostHolds [pa, pa + 64] = false →
        ∃ u, u = (s.acceptFlit port f.corrected).outsideWrite (bytes.zipIdx.map fun q => ⟨pa + q.2, q.1.1, q.1.2⟩) ∧
          ((∀ kv ∈ s.host.jobs, kv.2.ckpt = true → kv.2.takes port pa = false) →
            exec (.peerFlit port pa bytes f) s = .next (u.countFlit port pa)) ∧
          ((∃ kv ∈ s.host.jobs, kv.2.ckpt = true ∧ kv.2.takes port pa = true) → s.memUp pa = true →
            exec (.peerFlit port pa bytes f) s = .next (State.countFlit
              { u.dropL2 (pa / 128) with lineKeys := smPut u.lineKeys (pa / 128) .raw } port pa))))) ∧
  (∀ (s : State) (n : Nat) (j : Job), smFind s.host.jobs n = some j →
    (j.lines ≤ j.linesDone → exec (if j.ckpt then .ckptJobComplete n else .xferJobComplete n) s = .next (s.endJob n j false)) ∧
    (j.linesDone < j.lines → s.upPorts j.ports = [] → exec (if j.ckpt then .ckptJobComplete n else .xferJobComplete n) s = .next (s.endJob n j true)) ∧
    (j.linesDone < j.lines → s.upPorts j.ports ≠ [] → j.pull = false → s.tenures = [] → exec (if j.ckpt then .ckptJobComplete n else .xferJobComplete n) s
      = .next { s with host := { s.host with jobs := smPut s.host.jobs n { j with linesDone := j.lines } } })) ∧
  (∀ (s : State) (v : W64), s.ready 0 = true → s.host.lost = false →
    exec (.hostRegisterWrite 0x08 v) s = .next { s with agenda := .queueDoorbell (v.toNat % 1024) :: s.agenda } ∧
    exec (.hostRegisterWrite 0x10 v) s
      = .next { s with agenda := .syscallReply (v.toNat % 256) (nfld v.toNat 31 16) :: s.agenda } ∧
    (∀ c n, c = nfld v.toNat 23 16 → n = v.toNat % 65536 →
      (s.answerOf c n = 1 → exec (.hostRegisterWrite 0x18 v) s = .next { s with agenda := .faultRetry c n :: s.agenda }) ∧
      (s.answerOf c n = 2 → exec (.hostRegisterWrite 0x18 v) s = .next { s with agenda := .faultDeny c n :: s.agenda }) ∧
      (s.answerOf c n ≠ 1 → s.answerOf c n ≠ 2 → exec (.hostRegisterWrite 0x18 v) s = .next s)) ∧
    (s.queueActive = false → exec (.hostRegisterWrite 0x20 v) s = .next (s.setQdesc v)) ∧
    (s.queueActive = true → exec (.hostRegisterWrite 0x20 v) s = .next s) ∧
    ((∀ kv ∈ s.ctxs, kv.2.state ≠ .enabled) → exec (.hostRegisterWrite 0x28 v) s
      = .next { s with host := { s.host with ctxbase := v &&& ~~~0x3FFF } }) ∧
    ((∃ kv ∈ s.ctxs, kv.2.state = .enabled) → exec (.hostRegisterWrite 0x28 v) s = .next s) ∧
    (∀ i, i < 8 → exec (.hostRegisterWrite (0x40 + 8 * i) v) s
      = .next { s with host := { s.host with cmd := setAt 0 s.host.cmd i v } }) ∧
    exec (.hostRegisterWrite 0x80 v) s = .next s.commandDoorbell) ∧
  (∀ (s : State) (off : Nat) (v : W64), s.ready 0 = false ∨ s.host.lost = true → exec (.hostRegisterWrite off v) s = .next s) ∧
  ∀ (s : State), s.host.busy = true → exec .commandOverrun s = .next { s with host := { s.host with ovr := true } }

namespace Sys2Proof.Claims

/-- A command with these arguments is latched and is not under way. -/
structure Latched (s : State) (op : Nat) (args : List W64) (a : Nat → Nat) : Prop where
  command : s.host.command = some ⟨op, args⟩
  idle : s.host.inval = none
  args_ : ∀ i, a i = (args.getD i 0).toNat

/-- A command: its OP, the bits of READY that it needs (DEDUCED, log entry 45), how many ports of its mask have to be up, and the
arguments that are outside their ranges (R414, R417, R418). -/
structure CmdRow where
  op : Nat
  instr : Instr
  needs : (Nat → Nat) → List Nat
  ports : Nat
  bad : (Nat → Nat) → Prop

/-- The commands of contexts, translation, keys and worlds. -/
def commandsA (key : BitVec 512) : List CmdRow :=
  [⟨0x01, .ctxen, fun _ => [5], 0, fun a => 256 ≤ a 0 ∨ a 1 % 2 ^ 22 ≠ 0 ∨ a 2 % 2 ^ 14 ≠ 0⟩,
   ⟨0x02, .ctxrel, fun _ => [5], 0, fun a => 256 ≤ a 0⟩,
   ⟨0x03, .ctxstop, fun _ => [3], 0, fun a => 256 ≤ a 0⟩,
   ⟨0x04, .inval, fun _ => [], 0, fun a => 256 ≤ a 0 ∨ a 2 % 4096 ≠ 0 ∨ 2 ^ 57 < a 1 + a 2⟩,
   ⟨0x05, .keyld key, fun _ => [6, 2], 0, fun a => a 0 = 0 ∨ 128 ≤ a 0⟩,
   ⟨0x06, .keyclr, fun _ => [6], 0, fun a => a 0 = 0 ∨ 128 ≤ a 0⟩,
   ⟨0x07, .wopen, fun a => [20 + a 0], 0, fun a => 4 ≤ a 0 ∨ 1024 ≤ a 1 ∨ Config.physEnd < a 2 + 64⟩,
   ⟨0x08, .wclose, fun a => [20 + a 0 / 1024], 0, fun a => 4096 ≤ a 0⟩]

/-- The other commands. -/
def commandsB : List CmdRow :=
  [⟨0x09, .setq, fun _ => [4], 0, fun a => a 0 < 16 ∨ 24 < a 0⟩,
   ⟨0x0A, .clrerr, fun _ => [], 0, fun a => 32 ≤ a 1 ∨ (a 1 % 8 ≠ 0 ∧ 1024 ≤ a 0) ∨ (8 ≤ a 1 ∧ 24 ≤ a 0)⟩,
   ⟨0x0B, .setthr, fun _ => [3], 0, fun a => a 0 = 0 ∨ 2 ^ 32 ≤ a 0⟩,
   ⟨0x0C, .retire, fun _ => [3], 0, fun a => (1280 ≤ a 0 ∧ a 0 < 2048) ∨ 2304 ≤ a 0⟩,
   ⟨0x0D, .summary, fun _ => [2], 0, fun a => a 0 % 64 ≠ 0⟩,
   ⟨0x0E, .bbread, fun _ => [2, 3], 0, fun a => 4 ≤ a 0 ∨ 2 ^ 32 ≤ a 1 ∨ a 2 = 0 ∨ 4096 < a 2⟩,
   ⟨0x0F, .xfer, fun _ => [2], 1, fun a => 2 ^ 24 ≤ a 0 ∨ nfld (a 3) 62 40 ≠ 0 ∨ nfld (a 3) 39 0 % 128 ≠ 0 ∨ a 1 % 128 ≠ 0 ∨
      Config.physEnd < a 1 + nfld (a 3) 39 0⟩,
   ⟨0x10, .ckpt, fun _ => [7, 2], 4, fun a => 2 ^ 24 ≤ a 0 ∨ a 3 % 2 ^ 63 ≠ 0⟩,
   ⟨0x11, .pwrcap, fun _ => [], 0, fun a => 4 ≤ a 0 ∨ a 1 < 300 ∨ 1300 < a 1⟩]

/-- A command whose arguments are in their ranges ends with status 1 where something that it needs is not there, and one with what
it needs ends with status 2 for a bad argument; neither has any other effect (R413, R414). -/
def Statuses (s : State) (r : CmdRow) (a : Nat → Nat) : Prop :=
  (¬ r.bad a → (∃ b ∈ r.needs a, s.ready b = false) ∨ (s.upPorts (BitVec.ofNat 24 (a 0))).length < r.ports →
    exec r.instr s = .next (s.finishCommand 1 0 0)) ∧
  (r.bad a → (∀ b ∈ r.needs a, s.ready b = true) → r.ports ≤ (s.upPorts (BitVec.ofNat 24 (a 0))).length →
    exec r.instr s = .next (s.finishCommand 2 0 0))

end Sys2Proof.Claims

/-- Commands of contexts, worlds, translations and keys end with their status: 1 where a function that they need is not ready (which
they need is log entry 45), 2 for a bad argument, 3 where they are refused, 0 when they are performed (R412, R413, R414, R420). -/
def Obligations.ContextWorldAndKeyCommands : Prop :=
  (∀ (s : State) (key : BitVec 512), ∀ r ∈ commandsA key, ∀ (args : List W64) (a : Nat → Nat), Latched s r.op args a →
    Statuses s r a) ∧
  ∀ (s : State) (op : Nat) (args : List W64) (a : Nat → Nat), Latched s op args a →
    (op = 0x01 → s.ready 5 = true → a 0 < 256 → a 1 % 2 ^ 22 = 0 → a 2 % 2 ^ 14 = 0 →
      ((s.ctx (a 0)).state ≠ .free → exec .ctxen s = .next (s.finishCommand 3 0 0)) ∧
      ((s.ctx (a 0)).state = .free → exec .ctxen s = .next ((s.setCtx (a 0) { Ctx.reset with
        state := .enabled, htBase := BitVec.ofNat 64 (a 1), sqBase := BitVec.ofNat 64 (a 2) }).finishCommand 0 0 0))) ∧
    (op = 0x02 → s.ready 5 = true → a 0 < 256 → ∀ c, c = s.ctx (a 0) →
      (c.state = .stopped ∨ c.state = .enabled ∧ s.quiet (a 0) = true ∧ c.stopFaults = [] →
        exec .ctxrel s = .next ((s.dropContext (a 0)).finishCommand 0 0 0)) ∧
      (c.state = .free ∨ c.state = .stopping ∨ c.state = .enabled ∧ (s.quiet (a 0) = false ∨ c.stopFaults ≠ []) →
        exec .ctxrel s = .next (s.finishCommand 3 0 0))) ∧
    (op = 0x03 → s.ready 3 = true → a 0 < 256 → ∀ c, c = s.ctx (a 0) →
      (c.state = .enabled → c.stopFaults = [] →
        exec .ctxstop s = .next ((s.raiseManaged (a 0) 0x0D (a 1) 0 0).finishCommand 0 0 0)) ∧
      (c.state = .stopping ∨ c.state = .stopped ∨ c.state = .enabled ∧ c.stopFaults ≠ [] →
        exec .ctxstop s = .next (s.finishCommand 0 1 0)) ∧
      (c.state = .free → exec .ctxstop s = .next (s.finishCommand 3 0 0))) ∧
    (op = 0x04 → a 0 < 256 → a 2 % 4096 = 0 → a 1 + a 2 ≤ 2 ^ 57 →
      ∃ t v, exec .inval s = .next t ∧ t.host.inval = some v ∧ v.ctx = a 0 ∧ v.lo = a 1 / 4096 ∧
        v.hi = (a 1 + a 2 + 4095) / 4096) ∧
    (op = 0x05 → s.ready 6 = true → s.ready 2 = true → 0 < a 0 → a 0 < 128 → ∀ key,
      exec (.keyld key) s = .next ((s.loadKey (a 0) key).finishCommand 0 0 0) ∧
      smGet none (s.loadKey (a 0) key).host.keys (a 0) = some key) ∧
    (op = 0x06 → s.ready 6 = true → 0 < a 0 → a 0 < 128 →
      exec .keyclr s = .next ((s.clearKey (a 0)).finishCommand 0 0 0) ∧
      smGet none (s.clearKey (a 0)).host.keys (a 0) = none ∧ (s.clearKey (a 0)).mem = s.mem) ∧
    (op = 0x07 → a 0 < 4 → a 1 < 1024 → a 2 + 64 ≤ Config.physEnd → s.ready (20 + a 0) = true →
      ((s.world (1024 * a 0 + a 1)).isOpen = true → exec .wopen s = .next (s.finishCommand 3 0 0)) ∧
      ((s.world (1024 * a 0 + a 1)).isOpen = false →
        (∀ r, s.worldRefusal (s.physNat (a 2) 64) = some r →
          exec .wopen s = .next (s.finishCommand 0 (BitVec.ofNat 64 r) 0)) ∧
        (s.worldRefusal (s.physNat (a 2) 64) = none →
          exec .wopen s = .next ((s.setWorld (1024 * a 0 + a 1) { World.reset with
            isOpen := true, desc := WorldDesc.ofNat (s.physNat (a 2) 64) }).finishCommand 0 0 0)))) ∧
    (op = 0x08 → a 0 < 4096 → s.ready (20 + a 0 / 1024) = true →
      ((s.world (a 0)).isOpen = false → exec .wclose s = .next (s.finishCommand 3 0 0)) ∧
      ((s.world (a 0)).isOpen = true → (s.world (a 0)).ending = false →
        exec .wclose s = .next (s.setWorld (a 0) { s.world (a 0) with ending := true })) ∧
      ((s.world (a 0)).ending = true → s.worldIdle (a 0) = true →
        exec .wcloseComplete s = .next ((s.closeWorld (a 0)).finishCommand 0 0 0)))

namespace Sys2Proof.Claims

/-- The first free slot for a job (R417, R419). -/
def FreeSlot (s : State) (i : Nat) : Prop := i < 4 ∧ smFind s.host.jobs i = none ∧ ∀ k, k < i → smFind s.host.jobs k ≠ none

/-- A job is in a slot, and the next one will have the next number. -/
def withJob (s : State) (i : Nat) (j : Job) : State :=
  { s with host := { s.host with jobs := smPut s.host.jobs i j, nextJob := s.host.nextJob + 1 } }

end Sys2Proof.Claims

/-- The other commands end with their status, 1 or 2 among them, and their results (R292, R381, R402, R403, R408, R417 to R421;
which functions they need is log entry 45, RETIRE's numbers from 1,024 and 2,048 and CLRERR's mask bits are log entry 51). A job is
started where one of the four slots is free. An INVAL that is under way ends when nothing of the old translations is left (R215; log
entry 53). -/
def Obligations.ReportAndRepairCommands : Prop :=
  (∀ (s : State), ∀ r ∈ commandsB, ∀ (args : List W64) (a : Nat → Nat), Latched s r.op args a → Statuses s r a) ∧
  (∀ (s : State) (op : Nat) (args : List W64) (a : Nat → Nat), Latched s op args a →
    (op = 0x09 → s.ready 4 = true → 16 ≤ a 0 → a 0 ≤ 24 →
      exec .setq s = .next (({ s with host := { s.host with qexpNext := a 0 } } : State).finishCommand 0 0 0)) ∧
    (op = 0x0A → (a 1 = 1 → a 0 < 1024 →
        exec .clrerr s = .next ((s.setCore (a 0) { s.core (a 0) with ecor := 0 }).finishCommand 0 0 0)) ∧
      (a 1 = 8 → a 0 < 24 → exec .clrerr s = .next ((s.setPort (a 0) { s.port (a 0) with fcor := 0 }).finishCommand 0 0 0))) ∧
    (op = 0x0B → s.ready 3 = true → 1 ≤ a 0 → a 0 < 2 ^ 32 →
      exec .setthr s
        = .next (({ s with host := { s.host with eunThr := BitVec.ofNat 32 (a 0) } } : State).finishCommand 0 0 0)) ∧
    (op = 0x0C → s.ready 3 = true → s.stopping = false →
      (a 0 < 1024 → (s.core (a 0)).retired = false → (s.core (a 0)).failed = false →
        exec .retire s = .next ((s.retireCore (a 0)).finishCommand 0 0 0)) ∧
      (1024 ≤ a 0 → a 0 < 1280 → (s.copyEngine (a 0 - 1024)).retired = false →
        exec .retire s = .next ((s.retireCopy (a 0 - 1024)).finishCommand 0 0 0)) ∧
      (2048 ≤ a 0 → a 0 < 2304 → (s.matrixEng (a 0 - 2048)).retired = false →
        exec .retire s = .next ((s.retireMatrix (a 0 - 2048) false).finishCommand 0 0 0)) ∧
      (a 0 < 1024 → (s.core (a 0)).retired = true → exec .retire s = .next (s.finishCommand 3 0 0))) ∧
    (op = 0x0D → s.ready 2 = true → a 0 % 64 = 0 →
      exec .summary s = .next ((s.hostPut (a 0) s.summary).finishCommand 0 0 0)) ∧
    (op = 0x0E → s.ready 2 = true → s.ready 3 = true → a 0 < 4 → a 1 < 2 ^ 32 → 1 ≤ a 2 → a 2 ≤ 4096 →
      ∃ rs, rs = (s.die (a 0)).box.filter (fun b => (b.seq - BitVec.ofNat 32 (a 1)).toNat < a 2) ∧
        exec .bbread s = .next ((s.hostPut (a 3) (rs.flatMap BlackBox.bytes)).finishCommand 0 (BitVec.ofNat 64 rs.length) 0)) ∧
    (op = 0x0F → s.ready 2 = true → a 0 < 2 ^ 24 → s.upPorts (BitVec.ofNat 24 (a 0)) ≠ [] → nfld (a 3) 62 40 = 0 →
      nfld (a 3) 39 0 % 128 = 0 → a 1 % 128 = 0 → a 1 + nfld (a 3) 39 0 ≤ Config.physEnd →
      ((∀ i, i < 4 → smFind s.host.jobs i ≠ none) → exec .xfer s = .next (s.finishCommand 3 0 0)) ∧
      ∀ i, FreeSlot s i → exec .xfer s = .next ((withJob s i
        ⟨s.host.nextJob, false, BitVec.ofNat 24 (a 0), a 1, BitVec.ofNat 64 (a 2), nfld (a 3) 39 0, (a 3).testBit 63,
          BitVec.ofNat 64 (a 4), 0⟩).finishCommand 0 (BitVec.ofNat 64 s.host.nextJob) 0)) ∧
    (op = 0x10 → s.ready 7 = true → s.ready 2 = true → 4 ≤ (s.upPorts (BitVec.ofNat 24 (a 0))).length → a 0 < 2 ^ 24 →
      a 3 % 2 ^ 63 = 0 →
      ((∀ i, i < 4 → smFind s.host.jobs i ≠ none) → exec .ckpt s = .next (s.finishCommand 3 0 0)) ∧
      ∀ i, FreeSlot s i → exec .ckpt s = .next ((withJob s i
        ⟨s.host.nextJob, true, BitVec.ofNat 24 (a 0), 0, BitVec.ofNat 64 (a 1), Config.physEnd, (a 3).testBit 63,
          BitVec.ofNat 64 (a 4), 0⟩).finishCommand 0 (BitVec.ofNat 64 s.host.nextJob) 0)) ∧
    (op = 0x11 → a 0 < 4 → 300 ≤ a 1 → a 1 ≤ 1300 →
      exec .pwrcap s = .next ((s.setDie (a 0) { s.die (a 0) with cap := a 1 }).finishCommand 0 0 0)) ∧
    (op = 0 ∨ 0x11 < op → exec .unknownCommand s = .next (s.finishCommand 4 0 0))) ∧
  ∀ (s : State) (v : Inval), s.host.inval = some v → s.invalDone v = true →
    exec .invalComplete s = .next (({ s with host := { s.host with inval := none } } : State).finishCommand 0 0 0)

/-! ## The whole machine -/

/-- A step issues the chosen split: where the fetch finds its translation and the bytes at its PC decode to an instruction
within the 32-byte block, the step is that instruction's effect with the split as the issuing one (R99, R110, R112). A byte that has
changed since the launch of the group's grid may be fetched as any value that it has held (R113; which is free, log entry 27).
Bytes of which one is poisoned are not read (R392): the split's lanes die (log entry 13, the model's choice). With no split chosen, the next entry of the agenda comes about: the agenda,
which says what comes from outside and in which order, is the model's own (log entries 2, 3). -/
def Obligations.StepRunsDecoded : Prop :=
  (∀ (s : State) (r : IssueRef) (rest : List IssueRef) (cu : Issuing) (g : Machine.Group) (pa w : Nat) (i : Instr),
    s.issue = r :: rest → ({ s with issue := rest } : State).refIssuing r = some cu → s.group? r.gid = some g →
    ∀ rq, rq = { g.req r.gid .fetch false with who := .fetch r.gid cu.pc } →
    ({ s with issue := rest } : State).translate rq cu.pc.toNat = .ok pa →
    ({ s with issue := rest } : State).misKeyed rq [cu.pc.toNat] = [] →
    ∀ bs, bs = s.codeBytes g.grid pa (min 16 (32 - cu.pc.toNat % 32)) → w = leNat (bs.map (·.1)) →
      ((bs.take (lenBytes (w % 4))).any (·.2) = false → cu.pc.toNat % 4 = 0 → cu.pc.toNat % 32 + lenBytes (w % 4) ≤ 32 →
        decodeWord w = some i →
        step s = exec i { s with
          issue := rest
          cur := some { cu with len := lenBytes (w % 4) }
          fresh := s.fresh + s.codeDraws }) ∧
      ((bs.take 1).any (·.2) = true → step s = .next (({ s with issue := rest } : State).fetchPoison cu))) ∧
  (∀ (s : State) (grid pa n : Nat), (∀ i, i < n → smGet [] s.past (pa + i) = []) → s.codeBytes grid pa n = s.memRead pa n) ∧
  ∀ (s : State) (e : Instr) (rest : List Instr), s.issue = [] → s.agenda = e :: rest →
    step s = exec e { s with agenda := rest, cur := none }

namespace Sys2Proof.Claims

/-- Worked examples of spec/: the bytes of an instruction in memory, and the instruction (R106, R109, R134, R176, R247, R267,
R310, R329, R350, R366, R387). -/
def examples1 : List (List Byte × Instr) :=
  [([0x0F, 0x71, 0x08, 0x09, 0x0A, 0x00, 0x00, 0x00, 0x10, 0x70, 0x14, 0x17, 0x18, 0x00, 0x00, 0x00],
    .pairWord ⟨.fmul, ⟨Guard.none, .v (.dir 8), .v (.dir 9), .v (.dir 10), .none, 0, 0⟩⟩
      ⟨.iadd, ⟨Guard.none, .v (.dir 20), .v (.dir 23), .v (.dir 24), .none, 0, 0⟩⟩),
   ([0x10, 0xA0, 0xAC, 0x05, 0x06, 0x00, 0x00, 0x00],
    .iadd ⟨⟨2, true⟩, .v (.idx 1 12), .v (.dir 5), .v (.dir 6), .none, 0, 0⟩),
   ([0x18, 0x70, 0x0A, 0x04, 0x06, 0x02, 0xB0, 0x02],
    .iaddc ⟨Guard.none, .v (.dir 10), .v (.dir 4), .v (.dir 6), .p 2, 0x2B0, 0⟩),
   ([0x05, 0x12, 0x00, 0x00, 0x00, 0x00, 0x00, 0x00, 0xC0, 0xFF, 0xFF, 0xFF],
    .bra ⟨⟨1, false⟩, .none, .none, .none, .none, 0, 0xFFFFFFC0⟩),
   ([0x2C, 0x73, 0x0A, 0x04, 0x0C, 0x00, 0x02, 0x00],
    .atom ⟨Guard.none, .v (.dir 10), .s 4, .v (.dir 12), .none, 2, 0⟩)]

def examples2 : List (List Byte × Instr) :=
  [([0x04, 0x74, 0x08, 0x0A, 0x03, 0x00, 0x00, 0xC0],
    .mma ⟨Guard.none, .s 8, .s 10, .k 3, .none, 0xC000, 0⟩),
   ([0x04, 0x15, 0x00, 0x04, 0x08, 0x0A, 0x00, 0x00],
    .cpy ⟨⟨1, false⟩, .none, .s 4, .v (.dir 8), .s 10, 0, 0⟩),
   ([0x08, 0x76, 0x14, 0x06, 0x00, 0x00, 0x0C, 0x80],
    .thacq ⟨Guard.none, .s 20, .s 6, .none, .none, 0x800C, 0⟩),
   ([0x04, 0x77, 0x00, 0x04, 0x05, 0x02, 0x07, 0x00],
    .seam ⟨Guard.none, .none, .v (.dir 4), .v (.dir 5), .s 2, 7, 0⟩),
   ([0x04, 0x78, 0x14, 0x06, 0x07, 0x00, 0x00, 0x80],
    .sqopen ⟨Guard.none, .s 20, .s 6, .s 7, .none, 0x8000, 0⟩),
   ([0x15, 0x79, 0x02, 0x00, 0x00, 0x00, 0x00, 0x00, 0x04, 0x03, 0x00, 0x00],
    .barsetImm ⟨Guard.none, .bar 2, .none, .none, .none, 0, 0x304⟩)]

end Sys2Proof.Claims

/-- The worked encodings of spec/ decode to the instructions that they stand for, one at least of each class. -/
def Obligations.WordsDecode : Prop := ∀ e ∈ examples1 ++ examples2, decodeBytes e.1 = some e.2

/-- The decoder reads from the word of a well-formed instruction that instruction, and its length from LEN
(R99 to R106). -/
def Obligations.DecodeEncode : Prop :=
  ∀ i : Instr, i.wellFormed = true → decodeWord (encode i) = some i ∧ lenBytes (encode i % 4) = i.bytes

/-- Every step keeps the canonical form of device memory: addresses strictly rising, and nothing listed that an unlisted
byte reads as. So equal memories are equal data. -/
def Obligations.MemoryCanonical : Prop :=
  ∀ s t : State, s.mem.wf = true → step s = .next t → t.mem.wf = true

/-- The device's memory has the canonical form at reset. -/
def Obligations.MemoryCanonicalAtReset : Prop := State.reset.mem.wf = true

/-- The machine right after reset: READY, the descriptor bases, the window and the status read 0 (R411, R412); no context, no
group and no queue packet; every cycle counter reads 0 (R12); a local store is all cache, the L1s and the outbound paths are
empty (R198); the error counters are 0 (R381); ports are down (R416); QEXP is 20 (R292). A group placed later starts with its
registers at 0, S0 with its argument, X, K and RMR at 0, and an empty trap stack (R114, R116). -/
def Obligations.ResetValues : Prop :=
  (State.reset.host.ready = 0 ∧ State.reset.host.qdesc = 0 ∧ State.reset.host.ctxbase = 0 ∧
    (∀ i, State.reset.host.cmd.getD i 0 = 0) ∧ State.reset.host.busy = false ∧ State.reset.host.status = 0 ∧
    State.reset.host.completions = 0 ∧ State.reset.host.qexp = 20) ∧
  (State.reset.groups = [] ∧ (∀ c, (State.reset.ctx c).state = .free) ∧ (∀ q, (State.reset.queue q).started = [])) ∧
  (∀ d, (State.reset.die d).cycle = 0) ∧
  (∀ n, (State.reset.core n).sw = 0 ∧ (State.reset.core n).l1 = [] ∧ (State.reset.core n).outbound = [] ∧
    (State.reset.core n).ecor = 0 ∧ (State.reset.core n).eunc = 0 ∧ (State.reset.core n).erec = 0) ∧
  (∀ p, (State.reset.port p).state = 0 ∧ (State.reset.port p).fcor = 0 ∧ (State.reset.port p).frpl = 0) ∧
  ∀ (c gr tm ti gn rl q : Nat) (w : Option Nat) (co sl al pa : Nat) (arg : W64) (launched : Mask) (entry : BitVec 57)
    (g : Machine.Group), g = Group.start c gr tm ti gn rl q w co sl al pa arg launched entry →
    (∀ r l, g.rdV r l = 0) ∧ g.rdS 0 = arg ∧ (∀ n, n ≠ 0 → g.rdS n = 0) ∧ (∀ n, g.x.getD n 0 = 0) ∧
      (∀ n, g.k.getD n ⟨0, 0, 0⟩ = ⟨0, 0, 0⟩) ∧ g.rmr = 0 ∧ g.gsr = 0 ∧ g.dead = 0 ∧ g.depth = 0 ∧
      (∀ l, inMask launched l = true → g.stands l entry)
end

