-- ==== Sys2Proof/Laws/Tables.lean ====
section
/-!
SUPPORT. Sparse tables and lists that grow: reading after writing, and the canonical form kept.
-/

namespace Sys2Proof.Machine

variable {α : Type}

/-! ## Reading after writing -/

theorem smFind_smPut (m : SMap α) (k j : Nat) (v : α) :
    smFind (smPut m k v) j = if j = k then some v else smFind m j := by
  induction m with
  | nil => simp [smPut, smFind]
  | cons e t ih =>
    obtain ⟨i, w⟩ := e
    unfold smPut
    split
    · next h => subst h; by_cases hj : j = k <;> simp [smFind, hj]
    · split
      · by_cases hj : j = k <;> simp [smFind, hj]
      · next h _ =>
        by_cases hj : j = i
        · subst hj; simp [smFind, Ne.symm h]
        · simp [smFind, hj, ih]

theorem smFind_smDel (m : SMap α) (k j : Nat) :
    smFind (smDel m k) j = if j = k then none else smFind m j := by
  induction m with
  | nil => simp [smDel, smFind]
  | cons e t ih =>
    obtain ⟨i, w⟩ := e
    unfold smDel
    split
    · next h => subst h; rw [ih]; by_cases hj : j = k <;> simp [smFind, hj]
    · next h =>
      by_cases hj : j = i
      · subst hj; simp [smFind, Ne.symm h]
      · simp [smFind, hj, ih]

@[simp] theorem smFind_smPut_self (m : SMap α) (k : Nat) (v : α) : smFind (smPut m k v) k = some v := by
  simp [smFind_smPut]

theorem smFind_smPut_ne (m : SMap α) {k j : Nat} (v : α) (h : j ≠ k) : smFind (smPut m k v) j = smFind m j := by
  simp [smFind_smPut, h]

theorem smGet_smSet [DecidableEq α] (d : α) (m : SMap α) (k j : Nat) (v : α) :
    smGet d (smSet d m k v) j = if j = k then v else smGet d m j := by
  unfold smSet smGet
  split
  · next h => subst h; rw [smFind_smDel]; split <;> simp
  · rw [smFind_smPut]; split <;> simp

@[simp] theorem smGet_smSet_self [DecidableEq α] (d : α) (m : SMap α) (k : Nat) (v : α) :
    smGet d (smSet d m k v) k = v := by simp [smGet_smSet]

theorem smGet_smSet_ne [DecidableEq α] (d : α) (m : SMap α) {k j : Nat} (v : α) (h : j ≠ k) :
    smGet d (smSet d m k v) j = smGet d m j := by simp [smGet_smSet, h]

/-! ## The canonical form -/

/-- Every key of a table is above a number. -/
def smAbove (n : Nat) (m : SMap α) : Prop := ∀ e ∈ m, n < e.1

theorem smWf_cons [DecidableEq α] (d : α) (j : Nat) (v : α) (t : SMap α) :
    smWf d ((j, v) :: t) = true ↔ v ≠ d ∧ smAbove j t ∧ smWf d t = true := by
  induction t generalizing j v with
  | nil => simp [smWf, smAbove]
  | cons e t ih =>
    obtain ⟨k, w⟩ := e
    have hk := ih k w
    rw [smWf]
    simp only [Bool.and_eq_true, bne_iff_ne, ne_eq, decide_eq_true_eq]
    constructor
    · rintro ⟨⟨hv, hjk⟩, hw⟩
      refine ⟨hv, ?_, hw⟩
      have h2 := (hk.1 hw).2.1
      intro e he
      rcases List.mem_cons.1 he with rfl | he
      · exact hjk
      · exact Nat.lt_trans hjk (h2 e he)
    · rintro ⟨hv, ha, hw⟩
      exact ⟨⟨hv, ha (k, w) (by simp)⟩, hw⟩

theorem smPut_above {n k : Nat} {m : SMap α} {v : α} (hm : smAbove n m) (hk : n < k) : smAbove n (smPut m k v) := by
  induction m with
  | nil => intro e he; simp [smPut] at he; subst he; exact hk
  | cons e t ih =>
    obtain ⟨j, w⟩ := e
    have ht : smAbove n t := fun e he => hm e (by simp [he])
    have hj : n < j := hm (j, w) (by simp)
    unfold smPut
    split
    · intro e he; rcases List.mem_cons.1 he with rfl | he
      · exact hk
      · exact ht e he
    · split
      · intro e he; rcases List.mem_cons.1 he with rfl | he
        · exact hk
        · exact hm e he
      · intro e he; rcases List.mem_cons.1 he with rfl | he
        · exact hj
        · exact ih ht e he

theorem smDel_above {n k : Nat} {m : SMap α} (hm : smAbove n m) : smAbove n (smDel m k) := by
  induction m with
  | nil => simpa [smDel] using hm
  | cons e t ih =>
    obtain ⟨j, w⟩ := e
    have ht : smAbove n t := fun e he => hm e (by simp [he])
    unfold smDel
    split
    · exact ih ht
    · intro e he; rcases List.mem_cons.1 he with rfl | he
      · exact hm (j, w) (by simp)
      · exact ih ht e he

theorem smPut_wf [DecidableEq α] {d : α} {m : SMap α} (k : Nat) {v : α} (hm : smWf d m = true) (hv : v ≠ d) :
    smWf d (smPut m k v) = true := by
  induction m with
  | nil => simp [smPut, smWf, hv]
  | cons e t ih =>
    obtain ⟨j, w⟩ := e
    obtain ⟨hw, ha, ht⟩ := (smWf_cons d j w t).1 hm
    unfold smPut
    split
    · next h => subst h; exact (smWf_cons ..).2 ⟨hv, ha, ht⟩
    · split
      · next hlt =>
        refine (smWf_cons ..).2 ⟨hv, ?_, hm⟩
        intro e he; rcases List.mem_cons.1 he with rfl | he
        · exact hlt
        · exact Nat.lt_trans hlt (ha e he)
      · exact (smWf_cons ..).2 ⟨hw, smPut_above ha (by omega), ih ht⟩

theorem smDel_wf [DecidableEq α] {d : α} {m : SMap α} (k : Nat) (hm : smWf d m = true) : smWf d (smDel m k) = true := by
  induction m with
  | nil => simp [smDel, smWf]
  | cons e t ih =>
    obtain ⟨j, w⟩ := e
    obtain ⟨hw, ha, ht⟩ := (smWf_cons d j w t).1 hm
    unfold smDel
    split
    · exact ih ht
    · exact (smWf_cons ..).2 ⟨hw, smDel_above ha, ih ht⟩

/-- Setting a value keeps the canonical form. -/
theorem smSet_wf [DecidableEq α] {d : α} {m : SMap α} (k : Nat) (v : α) (hm : smWf d m = true) :
    smWf d (smSet d m k v) = true := by
  unfold smSet
  split
  · exact smDel_wf k hm
  · exact smPut_wf k hm ‹_›

/-- Keeping some entries keeps the canonical form. -/
theorem smWf_filter [DecidableEq α] {d : α} {m : SMap α} (p : Nat × α → Bool) (hm : smWf d m = true) :
    smWf d (m.filter p) = true := by
  induction m with
  | nil => simp [smWf]
  | cons e t ih =>
    obtain ⟨j, w⟩ := e
    obtain ⟨hw, ha, ht⟩ := (smWf_cons d j w t).1 hm
    rw [List.filter_cons]
    split
    · exact (smWf_cons ..).2 ⟨hw, fun e he => ha e (List.mem_filter.1 he).1, ih ht⟩
    · exact ih ht

/-! ## Lists that grow -/

theorem setAt_getD (d : α) (l : List α) (i j : Nat) (x : α) :
    (setAt d l i x).getD j d = if j = i then x else l.getD j d := by
  induction l generalizing i j with
  | nil =>
    induction i generalizing j with
    | zero => cases j <;> simp [setAt]
    | succ n ih =>
      cases j with
      | zero => simp [setAt]
      | succ k => simpa [setAt] using ih k
  | cons a t ih =>
    cases i with
    | zero => cases j <;> simp [setAt]
    | succ n =>
      cases j with
      | zero => simp [setAt]
      | succ k => simpa [setAt] using ih n k

@[simp] theorem setAt_getD_self (d : α) (l : List α) (i : Nat) (x : α) : (setAt d l i x).getD i d = x := by
  rw [setAt_getD, if_pos rfl]

theorem setAt_getD_ne (d : α) (l : List α) {i j : Nat} (x : α) (h : j ≠ i) :
    (setAt d l i x).getD j d = l.getD j d := by rw [setAt_getD, if_neg h]

end Sys2Proof.Machine
end

