-- ==== Sys2Proof/Laws/Memory.lean ====
section
/-!
SUPPORT. One memory: what a write event does to each byte, and the canonical form kept by every operation.
-/

namespace Sys2Proof.Machine

/-! ## One byte -/

theorem bankByte_put (b : Bank) (a c : Nat) (v : Byte) :
    bankByte (bankPut b a v) c = if c = a then v else bankByte b c := smGet_smSet ..

@[simp] theorem bankPoison_put (b : Bank) (a c : Nat) (v : Byte) : bankPoison (bankPut b a v) c = bankPoison b c := rfl

@[simp] theorem bankByte_mark (b : Bank) (a c : Nat) (p : Bool) : bankByte (bankMark b a p) c = bankByte b c := rfl

theorem bankPoison_mark (b : Bank) (a c : Nat) (p : Bool) :
    bankPoison (bankMark b a p) c = if c = a then p else bankPoison b c := smGet_smSet ..

theorem bankPut_wf {b : Bank} (a : Nat) (v : Byte) (h : b.wf = true) : (bankPut b a v).wf = true := by
  simp only [Bank.wf, bankPut, Bool.and_eq_true] at h ⊢
  exact ⟨smSet_wf a v h.1, h.2⟩

theorem bankMark_wf {b : Bank} (a : Nat) (p : Bool) (h : b.wf = true) : (bankMark b a p).wf = true := by
  simp only [Bank.wf, bankMark, Bool.and_eq_true] at h ⊢
  exact ⟨h.1, smSet_wf a p h.2⟩

theorem Bank.empty_wf : Bank.empty.wf = true := rfl

/-! ## Folding over bytes -/

/-- What each step of a fold keeps, the fold keeps. -/
theorem foldl_keeps {σ τ : Type} (P : σ → Prop) (f : σ → τ → σ) (hf : ∀ s x, P s → P (f s x)) (l : List τ) (s : σ)
    (h : P s) : P (l.foldl f s) := by
  induction l generalizing s with
  | nil => exact h
  | cons x t ih => exact ih _ (hf s x h)

/-- The same, for steps over the list's own elements. -/
theorem foldl_keeps_mem {σ τ : Type} (P : σ → Prop) (f : σ → τ → σ) (l : List τ) (hf : ∀ s, ∀ x ∈ l, P s → P (f s x))
    (s : σ) (h : P s) : P (l.foldl f s) := by
  induction l generalizing s with
  | nil => exact h
  | cons x t ih => exact ih (fun s y hy => hf s y (by simp [hy])) _ (hf s x (by simp) h)

/-- What no step of a fold changes, the fold does not change. -/
theorem foldl_same {σ τ β : Type} (q : σ → β) (f : σ → τ → σ) (hf : ∀ s x, q (f s x) = q s) (l : List τ) (s : σ) :
    q (l.foldl f s) = q s := foldl_keeps (fun t => q t = q s) f (fun t x h => (hf t x).trans h) l s rfl

theorem foldl_same_mem {σ τ β : Type} (q : σ → β) (f : σ → τ → σ) (l : List τ) (hf : ∀ s, ∀ x ∈ l, q (f s x) = q s)
    (s : σ) : q (l.foldl f s) = q s :=
  foldl_keeps_mem (fun t => q t = q s) f l (fun t x hx h => (hf t x hx).trans h) s rfl

/-! ## A write event -/

/-- The bytes of a write event are put down in order; the poison is settled after them. -/
theorem bankByte_write (b : Bank) (ws : List WByte) (a : Nat) :
    bankByte (bankWrite b ws) a = bankByte (ws.foldl (fun b w => bankPut b w.addr w.val) b) a := by
  unfold bankWrite
  simp only
  rw [foldl_same (fun b => bankByte b a), foldl_same (fun b => bankByte b a)]
  · intro s x; split <;> simp
  · intro s x; split <;> simp

/-- A byte that a write event does not name keeps its value. -/
theorem bankByte_write_other (b : Bank) (ws : List WByte) (a : Nat) (h : ∀ w ∈ ws, w.addr ≠ a) :
    bankByte (bankWrite b ws) a = bankByte b a := by
  rw [bankByte_write]
  exact foldl_same_mem (fun b => bankByte b a) _ ws (fun s w hw => by simp [bankByte_put, Ne.symm (h w hw)]) b

/-- A byte that a write event does not name keeps its poison. -/
theorem bankPoison_write_other (b : Bank) (ws : List WByte) (a : Nat) (h : ∀ w ∈ ws, w.addr ≠ a) :
    bankPoison (bankWrite b ws) a = bankPoison b a := by
  have hp : ∀ s : Bank, ∀ w ∈ ws, ∀ p, bankPoison (bankMark s w.addr p) a = bankPoison s a := fun s w hw p => by
    simp [bankPoison_mark, Ne.symm (h w hw)]
  unfold bankWrite
  simp only
  rw [foldl_same_mem (fun b => bankPoison b a), foldl_same_mem (fun b => bankPoison b a),
    foldl_same_mem (fun b => bankPoison b a)]
  · intro s w _; rfl
  · intro s w hw; split
    · exact hp s w hw _
    · rfl
  · intro s w hw; split
    · exact hp s w hw _
    · rfl

/-- A write event of one byte. -/
theorem bankByte_write_one (b : Bank) (w : WByte) : bankByte (bankWrite b [w]) w.addr = w.val := by
  rw [bankByte_write]; simp [bankByte_put]

/-- The last byte of a write event at an address is what it reads as. -/
theorem bankByte_write_last (b : Bank) (ws vs : List WByte) (w : WByte) (h : ∀ v ∈ vs, v.addr ≠ w.addr) :
    bankByte (bankWrite b (ws ++ w :: vs)) w.addr = w.val := by
  rw [bankByte_write, List.foldl_append, List.foldl_cons,
    foldl_same_mem (fun b => bankByte b w.addr) _ vs (fun s v hv => by simp [bankByte_put, Ne.symm (h v hv)])]
  simp [bankByte_put]

/-- A write event keeps the canonical form. -/
theorem bankWrite_wf {b : Bank} (ws : List WByte) (h : b.wf = true) : (bankWrite b ws).wf = true := by
  unfold bankWrite
  simp only
  refine foldl_keeps (fun (b : Bank) => b.wf = true) _ (fun s w hs => ?_) ws _ ?_
  · split
    · exact bankMark_wf _ _ hs
    · exact hs
  refine foldl_keeps (fun (b : Bank) => b.wf = true) _ (fun s w hs => ?_) ws _ ?_
  · split
    · exact bankMark_wf _ _ hs
    · exact hs
  exact foldl_keeps (fun (b : Bank) => b.wf = true) _ (fun s w hs => bankPut_wf _ _ hs) ws _ h

@[simp] theorem bankWrite_nil (b : Bank) : bankWrite b [] = b := rfl

end Sys2Proof.Machine
end

