-- ==== Sys2Proof/Laws/State.lean ====
section
/-!
SUPPORT. The state record: one lemma for each field and each update, and each accessor after each update.
-/

namespace Sys2Proof.Machine

/-! ## setCore -/

@[simp] theorem State.setCore_mem (s : State) (n : Nat) (x : CoreSt) : (s.setCore n x).mem = s.mem := rfl
@[simp] theorem State.setCore_l2dirty (s : State) (n : Nat) (x : CoreSt) : (s.setCore n x).l2dirty = s.l2dirty := rfl
@[simp] theorem State.setCore_l2home (s : State) (n : Nat) (x : CoreSt) : (s.setCore n x).l2home = s.l2home := rfl
@[simp] theorem State.setCore_l2copies (s : State) (n : Nat) (x : CoreSt) : (s.setCore n x).l2copies = s.l2copies := rfl
@[simp] theorem State.setCore_lineKeys (s : State) (n : Nat) (x : CoreSt) : (s.setCore n x).lineKeys = s.lineKeys := rfl
@[simp] theorem State.setCore_pageKeys (s : State) (n : Nat) (x : CoreSt) : (s.setCore n x).pageKeys = s.pageKeys := rfl
@[simp] theorem State.setCore_past (s : State) (n : Nat) (x : CoreSt) : (s.setCore n x).past = s.past := rfl
@[simp] theorem State.setCore_hostHalves (s : State) (n : Nat) (x : CoreSt) : (s.setCore n x).hostHalves = s.hostHalves := rfl
@[simp] theorem State.setCore_groups (s : State) (n : Nat) (x : CoreSt) : (s.setCore n x).groups = s.groups := rfl
@[simp] theorem State.setCore_teams (s : State) (n : Nat) (x : CoreSt) : (s.setCore n x).teams = s.teams := rfl
@[simp] theorem State.setCore_grids (s : State) (n : Nat) (x : CoreSt) : (s.setCore n x).grids = s.grids := rfl
@[simp] theorem State.setCore_nextGid (s : State) (n : Nat) (x : CoreSt) : (s.setCore n x).nextGid = s.nextGid := rfl
@[simp] theorem State.setCore_nextTeamKey (s : State) (n : Nat) (x : CoreSt) : (s.setCore n x).nextTeamKey = s.nextTeamKey := rfl
@[simp] theorem State.setCore_nextGridKey (s : State) (n : Nat) (x : CoreSt) : (s.setCore n x).nextGridKey = s.nextGridKey := rfl
@[simp] theorem State.setCore_gridSerial (s : State) (n : Nat) (x : CoreSt) : (s.setCore n x).gridSerial = s.gridSerial := rfl
@[simp] theorem State.setCore_clusterTlb (s : State) (n : Nat) (x : CoreSt) : (s.setCore n x).clusterTlb = s.clusterTlb := rfl
@[simp] theorem State.setCore_matrix (s : State) (n : Nat) (x : CoreSt) : (s.setCore n x).matrix = s.matrix := rfl
@[simp] theorem State.setCore_copyEng (s : State) (n : Nat) (x : CoreSt) : (s.setCore n x).copyEng = s.copyEng := rfl
@[simp] theorem State.setCore_tenures (s : State) (n : Nat) (x : CoreSt) : (s.setCore n x).tenures = s.tenures := rfl
@[simp] theorem State.setCore_tenureReqs (s : State) (n : Nat) (x : CoreSt) : (s.setCore n x).tenureReqs = s.tenureReqs := rfl
@[simp] theorem State.setCore_reservations (s : State) (n : Nat) (x : CoreSt) : (s.setCore n x).reservations = s.reservations := rfl
@[simp] theorem State.setCore_walks (s : State) (n : Nat) (x : CoreSt) : (s.setCore n x).walks = s.walks := rfl
@[simp] theorem State.setCore_unitTrs (s : State) (n : Nat) (x : CoreSt) : (s.setCore n x).unitTrs = s.unitTrs := rfl
@[simp] theorem State.setCore_events (s : State) (n : Nat) (x : CoreSt) : (s.setCore n x).events = s.events := rfl
@[simp] theorem State.setCore_bobbins (s : State) (n : Nat) (x : CoreSt) : (s.setCore n x).bobbins = s.bobbins := rfl
@[simp] theorem State.setCore_ctxs (s : State) (n : Nat) (x : CoreSt) : (s.setCore n x).ctxs = s.ctxs := rfl
@[simp] theorem State.setCore_queues (s : State) (n : Nat) (x : CoreSt) : (s.setCore n x).queues = s.queues := rfl
@[simp] theorem State.setCore_stateSet (s : State) (n : Nat) (x : CoreSt) : (s.setCore n x).stateSet = s.stateSet := rfl
@[simp] theorem State.setCore_quantumAt (s : State) (n : Nat) (x : CoreSt) : (s.setCore n x).quantumAt = s.quantumAt := rfl
@[simp] theorem State.setCore_feGrant (s : State) (n : Nat) (x : CoreSt) : (s.setCore n x).feGrant = s.feGrant := rfl
@[simp] theorem State.setCore_feAt (s : State) (n : Nat) (x : CoreSt) : (s.setCore n x).feAt = s.feAt := rfl
@[simp] theorem State.setCore_tryAt (s : State) (n : Nat) (x : CoreSt) : (s.setCore n x).tryAt = s.tryAt := rfl
@[simp] theorem State.setCore_retireDue (s : State) (n : Nat) (x : CoreSt) : (s.setCore n x).retireDue = s.retireDue := rfl
@[simp] theorem State.setCore_sparing (s : State) (n : Nat) (x : CoreSt) : (s.setCore n x).sparing = s.sparing := rfl
@[simp] theorem State.setCore_worlds (s : State) (n : Nat) (x : CoreSt) : (s.setCore n x).worlds = s.worlds := rfl
@[simp] theorem State.setCore_dies (s : State) (n : Nat) (x : CoreSt) : (s.setCore n x).dies = s.dies := rfl
@[simp] theorem State.setCore_ports (s : State) (n : Nat) (x : CoreSt) : (s.setCore n x).ports = s.ports := rfl
@[simp] theorem State.setCore_floods (s : State) (n : Nat) (x : CoreSt) : (s.setCore n x).floods = s.floods := rfl
@[simp] theorem State.setCore_host (s : State) (n : Nat) (x : CoreSt) : (s.setCore n x).host = s.host := rfl
@[simp] theorem State.setCore_spareRows (s : State) (n : Nat) (x : CoreSt) : (s.setCore n x).spareRows = s.spareRows := rfl
@[simp] theorem State.setCore_rowErrors (s : State) (n : Nat) (x : CoreSt) : (s.setCore n x).rowErrors = s.rowErrors := rfl
@[simp] theorem State.setCore_badFrames (s : State) (n : Nat) (x : CoreSt) : (s.setCore n x).badFrames = s.badFrames := rfl
@[simp] theorem State.setCore_nextId (s : State) (n : Nat) (x : CoreSt) : (s.setCore n x).nextId = s.nextId := rfl
@[simp] theorem State.setCore_agenda (s : State) (n : Nat) (x : CoreSt) : (s.setCore n x).agenda = s.agenda := rfl
@[simp] theorem State.setCore_issue (s : State) (n : Nat) (x : CoreSt) : (s.setCore n x).issue = s.issue := rfl
@[simp] theorem State.setCore_cur (s : State) (n : Nat) (x : CoreSt) : (s.setCore n x).cur = s.cur := rfl
@[simp] theorem State.setCore_inCycle (s : State) (n : Nat) (x : CoreSt) : (s.setCore n x).inCycle = s.inCycle := rfl
@[simp] theorem State.setCore_fresh (s : State) (n : Nat) (x : CoreSt) : (s.setCore n x).fresh = s.fresh := rfl
@[simp] theorem State.setCore_get_group (s : State) (n m : Nat) (x : CoreSt) : (s.setCore n x).group? m = s.group? m := rfl
@[simp] theorem State.setCore_get_die (s : State) (n m : Nat) (x : CoreSt) : (s.setCore n x).die m = s.die m := rfl
@[simp] theorem State.setCore_get_ctx (s : State) (n m : Nat) (x : CoreSt) : (s.setCore n x).ctx m = s.ctx m := rfl
@[simp] theorem State.setCore_get_world (s : State) (n m : Nat) (x : CoreSt) : (s.setCore n x).world m = s.world m := rfl
@[simp] theorem State.setCore_get_queue (s : State) (n m : Nat) (x : CoreSt) : (s.setCore n x).queue m = s.queue m := rfl
@[simp] theorem State.setCore_get_matrixEng (s : State) (n m : Nat) (x : CoreSt) : (s.setCore n x).matrixEng m = s.matrixEng m := rfl
@[simp] theorem State.setCore_get_copyEngine (s : State) (n m : Nat) (x : CoreSt) : (s.setCore n x).copyEngine m = s.copyEngine m := rfl
@[simp] theorem State.setCore_get_port (s : State) (n m : Nat) (x : CoreSt) : (s.setCore n x).port m = s.port m := rfl
@[simp] theorem State.setCore_get_team (s : State) (n m : Nat) (x : CoreSt) : (s.setCore n x).team? m = s.team? m := rfl
@[simp] theorem State.setCore_get_grid (s : State) (n m : Nat) (x : CoreSt) : (s.setCore n x).grid? m = s.grid? m := rfl
theorem State.setCore_get (s : State) (n m : Nat) (x : CoreSt) :
    (s.setCore n x).core m = if m = n then x else s.core m := smGet_smSet ..
@[simp] theorem State.setCore_get_self (s : State) (n : Nat) (x : CoreSt) : (s.setCore n x).core n = x := by
  rw [State.setCore_get, if_pos rfl]
theorem State.setCore_get_ne (s : State) {n m : Nat} (x : CoreSt) (h : m ≠ n) : (s.setCore n x).core m = s.core m := by
  rw [State.setCore_get, if_neg h]

/-! ## setGroup -/

@[simp] theorem State.setGroup_mem (s : State) (n : Nat) (x : Group) : (s.setGroup n x).mem = s.mem := rfl
@[simp] theorem State.setGroup_l2dirty (s : State) (n : Nat) (x : Group) : (s.setGroup n x).l2dirty = s.l2dirty := rfl
@[simp] theorem State.setGroup_l2home (s : State) (n : Nat) (x : Group) : (s.setGroup n x).l2home = s.l2home := rfl
@[simp] theorem State.setGroup_l2copies (s : State) (n : Nat) (x : Group) : (s.setGroup n x).l2copies = s.l2copies := rfl
@[simp] theorem State.setGroup_lineKeys (s : State) (n : Nat) (x : Group) : (s.setGroup n x).lineKeys = s.lineKeys := rfl
@[simp] theorem State.setGroup_pageKeys (s : State) (n : Nat) (x : Group) : (s.setGroup n x).pageKeys = s.pageKeys := rfl
@[simp] theorem State.setGroup_past (s : State) (n : Nat) (x : Group) : (s.setGroup n x).past = s.past := rfl
@[simp] theorem State.setGroup_hostHalves (s : State) (n : Nat) (x : Group) : (s.setGroup n x).hostHalves = s.hostHalves := rfl
@[simp] theorem State.setGroup_teams (s : State) (n : Nat) (x : Group) : (s.setGroup n x).teams = s.teams := rfl
@[simp] theorem State.setGroup_grids (s : State) (n : Nat) (x : Group) : (s.setGroup n x).grids = s.grids := rfl
@[simp] theorem State.setGroup_nextGid (s : State) (n : Nat) (x : Group) : (s.setGroup n x).nextGid = s.nextGid := rfl
@[simp] theorem State.setGroup_nextTeamKey (s : State) (n : Nat) (x : Group) : (s.setGroup n x).nextTeamKey = s.nextTeamKey := rfl
@[simp] theorem State.setGroup_nextGridKey (s : State) (n : Nat) (x : Group) : (s.setGroup n x).nextGridKey = s.nextGridKey := rfl
@[simp] theorem State.setGroup_gridSerial (s : State) (n : Nat) (x : Group) : (s.setGroup n x).gridSerial = s.gridSerial := rfl
@[simp] theorem State.setGroup_cores (s : State) (n : Nat) (x : Group) : (s.setGroup n x).cores = s.cores := rfl
@[simp] theorem State.setGroup_clusterTlb (s : State) (n : Nat) (x : Group) : (s.setGroup n x).clusterTlb = s.clusterTlb := rfl
@[simp] theorem State.setGroup_matrix (s : State) (n : Nat) (x : Group) : (s.setGroup n x).matrix = s.matrix := rfl
@[simp] theorem State.setGroup_copyEng (s : State) (n : Nat) (x : Group) : (s.setGroup n x).copyEng = s.copyEng := rfl
@[simp] theorem State.setGroup_tenures (s : State) (n : Nat) (x : Group) : (s.setGroup n x).tenures = s.tenures := rfl
@[simp] theorem State.setGroup_tenureReqs (s : State) (n : Nat) (x : Group) : (s.setGroup n x).tenureReqs = s.tenureReqs := rfl
@[simp] theorem State.setGroup_reservations (s : State) (n : Nat) (x : Group) : (s.setGroup n x).reservations = s.reservations := rfl
@[simp] theorem State.setGroup_walks (s : State) (n : Nat) (x : Group) : (s.setGroup n x).walks = s.walks := rfl
@[simp] theorem State.setGroup_unitTrs (s : State) (n : Nat) (x : Group) : (s.setGroup n x).unitTrs = s.unitTrs := rfl
@[simp] theorem State.setGroup_events (s : State) (n : Nat) (x : Group) : (s.setGroup n x).events = s.events := rfl
@[simp] theorem State.setGroup_bobbins (s : State) (n : Nat) (x : Group) : (s.setGroup n x).bobbins = s.bobbins := rfl
@[simp] theorem State.setGroup_ctxs (s : State) (n : Nat) (x : Group) : (s.setGroup n x).ctxs = s.ctxs := rfl
@[simp] theorem State.setGroup_queues (s : State) (n : Nat) (x : Group) : (s.setGroup n x).queues = s.queues := rfl
@[simp] theorem State.setGroup_stateSet (s : State) (n : Nat) (x : Group) : (s.setGroup n x).stateSet = s.stateSet := rfl
@[simp] theorem State.setGroup_quantumAt (s : State) (n : Nat) (x : Group) : (s.setGroup n x).quantumAt = s.quantumAt := rfl
@[simp] theorem State.setGroup_feGrant (s : State) (n : Nat) (x : Group) : (s.setGroup n x).feGrant = s.feGrant := rfl
@[simp] theorem State.setGroup_feAt (s : State) (n : Nat) (x : Group) : (s.setGroup n x).feAt = s.feAt := rfl
@[simp] theorem State.setGroup_tryAt (s : State) (n : Nat) (x : Group) : (s.setGroup n x).tryAt = s.tryAt := rfl
@[simp] theorem State.setGroup_retireDue (s : State) (n : Nat) (x : Group) : (s.setGroup n x).retireDue = s.retireDue := rfl
@[simp] theorem State.setGroup_sparing (s : State) (n : Nat) (x : Group) : (s.setGroup n x).sparing = s.sparing := rfl
@[simp] theorem State.setGroup_worlds (s : State) (n : Nat) (x : Group) : (s.setGroup n x).worlds = s.worlds := rfl
@[simp] theorem State.setGroup_dies (s : State) (n : Nat) (x : Group) : (s.setGroup n x).dies = s.dies := rfl
@[simp] theorem State.setGroup_ports (s : State) (n : Nat) (x : Group) : (s.setGroup n x).ports = s.ports := rfl
@[simp] theorem State.setGroup_floods (s : State) (n : Nat) (x : Group) : (s.setGroup n x).floods = s.floods := rfl
@[simp] theorem State.setGroup_host (s : State) (n : Nat) (x : Group) : (s.setGroup n x).host = s.host := rfl
@[simp] theorem State.setGroup_spareRows (s : State) (n : Nat) (x : Group) : (s.setGroup n x).spareRows = s.spareRows := rfl
@[simp] theorem State.setGroup_rowErrors (s : State) (n : Nat) (x : Group) : (s.setGroup n x).rowErrors = s.rowErrors := rfl
@[simp] theorem State.setGroup_badFrames (s : State) (n : Nat) (x : Group) : (s.setGroup n x).badFrames = s.badFrames := rfl
@[simp] theorem State.setGroup_nextId (s : State) (n : Nat) (x : Group) : (s.setGroup n x).nextId = s.nextId := rfl
@[simp] theorem State.setGroup_agenda (s : State) (n : Nat) (x : Group) : (s.setGroup n x).agenda = s.agenda := rfl
@[simp] theorem State.setGroup_issue (s : State) (n : Nat) (x : Group) : (s.setGroup n x).issue = s.issue := rfl
@[simp] theorem State.setGroup_cur (s : State) (n : Nat) (x : Group) : (s.setGroup n x).cur = s.cur := rfl
@[simp] theorem State.setGroup_inCycle (s : State) (n : Nat) (x : Group) : (s.setGroup n x).inCycle = s.inCycle := rfl
@[simp] theorem State.setGroup_fresh (s : State) (n : Nat) (x : Group) : (s.setGroup n x).fresh = s.fresh := rfl
@[simp] theorem State.setGroup_get_core (s : State) (n m : Nat) (x : Group) : (s.setGroup n x).core m = s.core m := rfl
@[simp] theorem State.setGroup_get_die (s : State) (n m : Nat) (x : Group) : (s.setGroup n x).die m = s.die m := rfl
@[simp] theorem State.setGroup_get_ctx (s : State) (n m : Nat) (x : Group) : (s.setGroup n x).ctx m = s.ctx m := rfl
@[simp] theorem State.setGroup_get_world (s : State) (n m : Nat) (x : Group) : (s.setGroup n x).world m = s.world m := rfl
@[simp] theorem State.setGroup_get_queue (s : State) (n m : Nat) (x : Group) : (s.setGroup n x).queue m = s.queue m := rfl
@[simp] theorem State.setGroup_get_matrixEng (s : State) (n m : Nat) (x : Group) : (s.setGroup n x).matrixEng m = s.matrixEng m := rfl
@[simp] theorem State.setGroup_get_copyEngine (s : State) (n m : Nat) (x : Group) : (s.setGroup n x).copyEngine m = s.copyEngine m := rfl
@[simp] theorem State.setGroup_get_port (s : State) (n m : Nat) (x : Group) : (s.setGroup n x).port m = s.port m := rfl
@[simp] theorem State.setGroup_get_team (s : State) (n m : Nat) (x : Group) : (s.setGroup n x).team? m = s.team? m := rfl
@[simp] theorem State.setGroup_get_grid (s : State) (n m : Nat) (x : Group) : (s.setGroup n x).grid? m = s.grid? m := rfl
theorem State.setGroup_get (s : State) (n m : Nat) (x : Group) :
    (s.setGroup n x).group? m = if m = n then some x else s.group? m := smFind_smPut ..
@[simp] theorem State.setGroup_get_self (s : State) (n : Nat) (x : Group) : (s.setGroup n x).group? n = some x := by
  rw [State.setGroup_get, if_pos rfl]
theorem State.setGroup_get_ne (s : State) {n m : Nat} (x : Group) (h : m ≠ n) : (s.setGroup n x).group? m = s.group? m := by
  rw [State.setGroup_get, if_neg h]

/-! ## setDie -/

@[simp] theorem State.setDie_mem (s : State) (n : Nat) (x : Die) : (s.setDie n x).mem = s.mem := rfl
@[simp] theorem State.setDie_l2dirty (s : State) (n : Nat) (x : Die) : (s.setDie n x).l2dirty = s.l2dirty := rfl
@[simp] theorem State.setDie_l2home (s : State) (n : Nat) (x : Die) : (s.setDie n x).l2home = s.l2home := rfl
@[simp] theorem State.setDie_l2copies (s : State) (n : Nat) (x : Die) : (s.setDie n x).l2copies = s.l2copies := rfl
@[simp] theorem State.setDie_lineKeys (s : State) (n : Nat) (x : Die) : (s.setDie n x).lineKeys = s.lineKeys := rfl
@[simp] theorem State.setDie_pageKeys (s : State) (n : Nat) (x : Die) : (s.setDie n x).pageKeys = s.pageKeys := rfl
@[simp] theorem State.setDie_past (s : State) (n : Nat) (x : Die) : (s.setDie n x).past = s.past := rfl
@[simp] theorem State.setDie_hostHalves (s : State) (n : Nat) (x : Die) : (s.setDie n x).hostHalves = s.hostHalves := rfl
@[simp] theorem State.setDie_groups (s : State) (n : Nat) (x : Die) : (s.setDie n x).groups = s.groups := rfl
@[simp] theorem State.setDie_teams (s : State) (n : Nat) (x : Die) : (s.setDie n x).teams = s.teams := rfl
@[simp] theorem State.setDie_grids (s : State) (n : Nat) (x : Die) : (s.setDie n x).grids = s.grids := rfl
@[simp] theorem State.setDie_nextGid (s : State) (n : Nat) (x : Die) : (s.setDie n x).nextGid = s.nextGid := rfl
@[simp] theorem State.setDie_nextTeamKey (s : State) (n : Nat) (x : Die) : (s.setDie n x).nextTeamKey = s.nextTeamKey := rfl
@[simp] theorem State.setDie_nextGridKey (s : State) (n : Nat) (x : Die) : (s.setDie n x).nextGridKey = s.nextGridKey := rfl
@[simp] theorem State.setDie_gridSerial (s : State) (n : Nat) (x : Die) : (s.setDie n x).gridSerial = s.gridSerial := rfl
@[simp] theorem State.setDie_cores (s : State) (n : Nat) (x : Die) : (s.setDie n x).cores = s.cores := rfl
@[simp] theorem State.setDie_clusterTlb (s : State) (n : Nat) (x : Die) : (s.setDie n x).clusterTlb = s.clusterTlb := rfl
@[simp] theorem State.setDie_matrix (s : State) (n : Nat) (x : Die) : (s.setDie n x).matrix = s.matrix := rfl
@[simp] theorem State.setDie_copyEng (s : State) (n : Nat) (x : Die) : (s.setDie n x).copyEng = s.copyEng := rfl
@[simp] theorem State.setDie_tenures (s : State) (n : Nat) (x : Die) : (s.setDie n x).tenures = s.tenures := rfl
@[simp] theorem State.setDie_tenureReqs (s : State) (n : Nat) (x : Die) : (s.setDie n x).tenureReqs = s.tenureReqs := rfl
@[simp] theorem State.setDie_reservations (s : State) (n : Nat) (x : Die) : (s.setDie n x).reservations = s.reservations := rfl
@[simp] theorem State.setDie_walks (s : State) (n : Nat) (x : Die) : (s.setDie n x).walks = s.walks := rfl
@[simp] theorem State.setDie_unitTrs (s : State) (n : Nat) (x : Die) : (s.setDie n x).unitTrs = s.unitTrs := rfl
@[simp] theorem State.setDie_events (s : State) (n : Nat) (x : Die) : (s.setDie n x).events = s.events := rfl
@[simp] theorem State.setDie_bobbins (s : State) (n : Nat) (x : Die) : (s.setDie n x).bobbins = s.bobbins := rfl
@[simp] theorem State.setDie_ctxs (s : State) (n : Nat) (x : Die) : (s.setDie n x).ctxs = s.ctxs := rfl
@[simp] theorem State.setDie_queues (s : State) (n : Nat) (x : Die) : (s.setDie n x).queues = s.queues := rfl
@[simp] theorem State.setDie_stateSet (s : State) (n : Nat) (x : Die) : (s.setDie n x).stateSet = s.stateSet := rfl
@[simp] theorem State.setDie_quantumAt (s : State) (n : Nat) (x : Die) : (s.setDie n x).quantumAt = s.quantumAt := rfl
@[simp] theorem State.setDie_feGrant (s : State) (n : Nat) (x : Die) : (s.setDie n x).feGrant = s.feGrant := rfl
@[simp] theorem State.setDie_feAt (s : State) (n : Nat) (x : Die) : (s.setDie n x).feAt = s.feAt := rfl
@[simp] theorem State.setDie_tryAt (s : State) (n : Nat) (x : Die) : (s.setDie n x).tryAt = s.tryAt := rfl
@[simp] theorem State.setDie_retireDue (s : State) (n : Nat) (x : Die) : (s.setDie n x).retireDue = s.retireDue := rfl
@[simp] theorem State.setDie_sparing (s : State) (n : Nat) (x : Die) : (s.setDie n x).sparing = s.sparing := rfl
@[simp] theorem State.setDie_worlds (s : State) (n : Nat) (x : Die) : (s.setDie n x).worlds = s.worlds := rfl
@[simp] theorem State.setDie_ports (s : State) (n : Nat) (x : Die) : (s.setDie n x).ports = s.ports := rfl
@[simp] theorem State.setDie_floods (s : State) (n : Nat) (x : Die) : (s.setDie n x).floods = s.floods := rfl
@[simp] theorem State.setDie_host (s : State) (n : Nat) (x : Die) : (s.setDie n x).host = s.host := rfl
@[simp] theorem State.setDie_spareRows (s : State) (n : Nat) (x : Die) : (s.setDie n x).spareRows = s.spareRows := rfl
@[simp] theorem State.setDie_rowErrors (s : State) (n : Nat) (x : Die) : (s.setDie n x).rowErrors = s.rowErrors := rfl
@[simp] theorem State.setDie_badFrames (s : State) (n : Nat) (x : Die) : (s.setDie n x).badFrames = s.badFrames := rfl
@[simp] theorem State.setDie_nextId (s : State) (n : Nat) (x : Die) : (s.setDie n x).nextId = s.nextId := rfl
@[simp] theorem State.setDie_agenda (s : State) (n : Nat) (x : Die) : (s.setDie n x).agenda = s.agenda := rfl
@[simp] theorem State.setDie_issue (s : State) (n : Nat) (x : Die) : (s.setDie n x).issue = s.issue := rfl
@[simp] theorem State.setDie_cur (s : State) (n : Nat) (x : Die) : (s.setDie n x).cur = s.cur := rfl
@[simp] theorem State.setDie_inCycle (s : State) (n : Nat) (x : Die) : (s.setDie n x).inCycle = s.inCycle := rfl
@[simp] theorem State.setDie_fresh (s : State) (n : Nat) (x : Die) : (s.setDie n x).fresh = s.fresh := rfl
@[simp] theorem State.setDie_get_core (s : State) (n m : Nat) (x : Die) : (s.setDie n x).core m = s.core m := rfl
@[simp] theorem State.setDie_get_group (s : State) (n m : Nat) (x : Die) : (s.setDie n x).group? m = s.group? m := rfl
@[simp] theorem State.setDie_get_ctx (s : State) (n m : Nat) (x : Die) : (s.setDie n x).ctx m = s.ctx m := rfl
@[simp] theorem State.setDie_get_world (s : State) (n m : Nat) (x : Die) : (s.setDie n x).world m = s.world m := rfl
@[simp] theorem State.setDie_get_queue (s : State) (n m : Nat) (x : Die) : (s.setDie n x).queue m = s.queue m := rfl
@[simp] theorem State.setDie_get_matrixEng (s : State) (n m : Nat) (x : Die) : (s.setDie n x).matrixEng m = s.matrixEng m := rfl
@[simp] theorem State.setDie_get_copyEngine (s : State) (n m : Nat) (x : Die) : (s.setDie n x).copyEngine m = s.copyEngine m := rfl
@[simp] theorem State.setDie_get_port (s : State) (n m : Nat) (x : Die) : (s.setDie n x).port m = s.port m := rfl
@[simp] theorem State.setDie_get_team (s : State) (n m : Nat) (x : Die) : (s.setDie n x).team? m = s.team? m := rfl
@[simp] theorem State.setDie_get_grid (s : State) (n m : Nat) (x : Die) : (s.setDie n x).grid? m = s.grid? m := rfl
theorem State.setDie_get (s : State) (n m : Nat) (x : Die) :
    (s.setDie n x).die m = if m = n then x else s.die m := smGet_smSet ..
@[simp] theorem State.setDie_get_self (s : State) (n : Nat) (x : Die) : (s.setDie n x).die n = x := by
  rw [State.setDie_get, if_pos rfl]
theorem State.setDie_get_ne (s : State) {n m : Nat} (x : Die) (h : m ≠ n) : (s.setDie n x).die m = s.die m := by
  rw [State.setDie_get, if_neg h]

/-! ## setCtx -/

@[simp] theorem State.setCtx_mem (s : State) (n : Nat) (x : Ctx) : (s.setCtx n x).mem = s.mem := rfl
@[simp] theorem State.setCtx_l2dirty (s : State) (n : Nat) (x : Ctx) : (s.setCtx n x).l2dirty = s.l2dirty := rfl
@[simp] theorem State.setCtx_l2home (s : State) (n : Nat) (x : Ctx) : (s.setCtx n x).l2home = s.l2home := rfl
@[simp] theorem State.setCtx_l2copies (s : State) (n : Nat) (x : Ctx) : (s.setCtx n x).l2copies = s.l2copies := rfl
@[simp] theorem State.setCtx_lineKeys (s : State) (n : Nat) (x : Ctx) : (s.setCtx n x).lineKeys = s.lineKeys := rfl
@[simp] theorem State.setCtx_pageKeys (s : State) (n : Nat) (x : Ctx) : (s.setCtx n x).pageKeys = s.pageKeys := rfl
@[simp] theorem State.setCtx_past (s : State) (n : Nat) (x : Ctx) : (s.setCtx n x).past = s.past := rfl
@[simp] theorem State.setCtx_hostHalves (s : State) (n : Nat) (x : Ctx) : (s.setCtx n x).hostHalves = s.hostHalves := rfl
@[simp] theorem State.setCtx_groups (s : State) (n : Nat) (x : Ctx) : (s.setCtx n x).groups = s.groups := rfl
@[simp] theorem State.setCtx_teams (s : State) (n : Nat) (x : Ctx) : (s.setCtx n x).teams = s.teams := rfl
@[simp] theorem State.setCtx_grids (s : State) (n : Nat) (x : Ctx) : (s.setCtx n x).grids = s.grids := rfl
@[simp] theorem State.setCtx_nextGid (s : State) (n : Nat) (x : Ctx) : (s.setCtx n x).nextGid = s.nextGid := rfl
@[simp] theorem State.setCtx_nextTeamKey (s : State) (n : Nat) (x : Ctx) : (s.setCtx n x).nextTeamKey = s.nextTeamKey := rfl
@[simp] theorem State.setCtx_nextGridKey (s : State) (n : Nat) (x : Ctx) : (s.setCtx n x).nextGridKey = s.nextGridKey := rfl
@[simp] theorem State.setCtx_gridSerial (s : State) (n : Nat) (x : Ctx) : (s.setCtx n x).gridSerial = s.gridSerial := rfl
@[simp] theorem State.setCtx_cores (s : State) (n : Nat) (x : Ctx) : (s.setCtx n x).cores = s.cores := rfl
@[simp] theorem State.setCtx_clusterTlb (s : State) (n : Nat) (x : Ctx) : (s.setCtx n x).clusterTlb = s.clusterTlb := rfl
@[simp] theorem State.setCtx_matrix (s : State) (n : Nat) (x : Ctx) : (s.setCtx n x).matrix = s.matrix := rfl
@[simp] theorem State.setCtx_copyEng (s : State) (n : Nat) (x : Ctx) : (s.setCtx n x).copyEng = s.copyEng := rfl
@[simp] theorem State.setCtx_tenures (s : State) (n : Nat) (x : Ctx) : (s.setCtx n x).tenures = s.tenures := rfl
@[simp] theorem State.setCtx_tenureReqs (s : State) (n : Nat) (x : Ctx) : (s.setCtx n x).tenureReqs = s.tenureReqs := rfl
@[simp] theorem State.setCtx_reservations (s : State) (n : Nat) (x : Ctx) : (s.setCtx n x).reservations = s.reservations := rfl
@[simp] theorem State.setCtx_walks (s : State) (n : Nat) (x : Ctx) : (s.setCtx n x).walks = s.walks := rfl
@[simp] theorem State.setCtx_unitTrs (s : State) (n : Nat) (x : Ctx) : (s.setCtx n x).unitTrs = s.unitTrs := rfl
@[simp] theorem State.setCtx_events (s : State) (n : Nat) (x : Ctx) : (s.setCtx n x).events = s.events := rfl
@[simp] theorem State.setCtx_bobbins (s : State) (n : Nat) (x : Ctx) : (s.setCtx n x).bobbins = s.bobbins := rfl
@[simp] theorem State.setCtx_queues (s : State) (n : Nat) (x : Ctx) : (s.setCtx n x).queues = s.queues := rfl
@[simp] theorem State.setCtx_stateSet (s : State) (n : Nat) (x : Ctx) : (s.setCtx n x).stateSet = s.stateSet := rfl
@[simp] theorem State.setCtx_quantumAt (s : State) (n : Nat) (x : Ctx) : (s.setCtx n x).quantumAt = s.quantumAt := rfl
@[simp] theorem State.setCtx_feGrant (s : State) (n : Nat) (x : Ctx) : (s.setCtx n x).feGrant = s.feGrant := rfl
@[simp] theorem State.setCtx_feAt (s : State) (n : Nat) (x : Ctx) : (s.setCtx n x).feAt = s.feAt := rfl
@[simp] theorem State.setCtx_tryAt (s : State) (n : Nat) (x : Ctx) : (s.setCtx n x).tryAt = s.tryAt := rfl
@[simp] theorem State.setCtx_retireDue (s : State) (n : Nat) (x : Ctx) : (s.setCtx n x).retireDue = s.retireDue := rfl
@[simp] theorem State.setCtx_sparing (s : State) (n : Nat) (x : Ctx) : (s.setCtx n x).sparing = s.sparing := rfl
@[simp] theorem State.setCtx_worlds (s : State) (n : Nat) (x : Ctx) : (s.setCtx n x).worlds = s.worlds := rfl
@[simp] theorem State.setCtx_dies (s : State) (n : Nat) (x : Ctx) : (s.setCtx n x).dies = s.dies := rfl
@[simp] theorem State.setCtx_ports (s : State) (n : Nat) (x : Ctx) : (s.setCtx n x).ports = s.ports := rfl
@[simp] theorem State.setCtx_floods (s : State) (n : Nat) (x : Ctx) : (s.setCtx n x).floods = s.floods := rfl
@[simp] theorem State.setCtx_host (s : State) (n : Nat) (x : Ctx) : (s.setCtx n x).host = s.host := rfl
@[simp] theorem State.setCtx_spareRows (s : State) (n : Nat) (x : Ctx) : (s.setCtx n x).spareRows = s.spareRows := rfl
@[simp] theorem State.setCtx_rowErrors (s : State) (n : Nat) (x : Ctx) : (s.setCtx n x).rowErrors = s.rowErrors := rfl
@[simp] theorem State.setCtx_badFrames (s : State) (n : Nat) (x : Ctx) : (s.setCtx n x).badFrames = s.badFrames := rfl
@[simp] theorem State.setCtx_nextId (s : State) (n : Nat) (x : Ctx) : (s.setCtx n x).nextId = s.nextId := rfl
@[simp] theorem State.setCtx_agenda (s : State) (n : Nat) (x : Ctx) : (s.setCtx n x).agenda = s.agenda := rfl
@[simp] theorem State.setCtx_issue (s : State) (n : Nat) (x : Ctx) : (s.setCtx n x).issue = s.issue := rfl
@[simp] theorem State.setCtx_cur (s : State) (n : Nat) (x : Ctx) : (s.setCtx n x).cur = s.cur := rfl
@[simp] theorem State.setCtx_inCycle (s : State) (n : Nat) (x : Ctx) : (s.setCtx n x).inCycle = s.inCycle := rfl
@[simp] theorem State.setCtx_fresh (s : State) (n : Nat) (x : Ctx) : (s.setCtx n x).fresh = s.fresh := rfl
@[simp] theorem State.setCtx_get_core (s : State) (n m : Nat) (x : Ctx) : (s.setCtx n x).core m = s.core m := rfl
@[simp] theorem State.setCtx_get_group (s : State) (n m : Nat) (x : Ctx) : (s.setCtx n x).group? m = s.group? m := rfl
@[simp] theorem State.setCtx_get_die (s : State) (n m : Nat) (x : Ctx) : (s.setCtx n x).die m = s.die m := rfl
@[simp] theorem State.setCtx_get_world (s : State) (n m : Nat) (x : Ctx) : (s.setCtx n x).world m = s.world m := rfl
@[simp] theorem State.setCtx_get_queue (s : State) (n m : Nat) (x : Ctx) : (s.setCtx n x).queue m = s.queue m := rfl
@[simp] theorem State.setCtx_get_matrixEng (s : State) (n m : Nat) (x : Ctx) : (s.setCtx n x).matrixEng m = s.matrixEng m := rfl
@[simp] theorem State.setCtx_get_copyEngine (s : State) (n m : Nat) (x : Ctx) : (s.setCtx n x).copyEngine m = s.copyEngine m := rfl
@[simp] theorem State.setCtx_get_port (s : State) (n m : Nat) (x : Ctx) : (s.setCtx n x).port m = s.port m := rfl
@[simp] theorem State.setCtx_get_team (s : State) (n m : Nat) (x : Ctx) : (s.setCtx n x).team? m = s.team? m := rfl
@[simp] theorem State.setCtx_get_grid (s : State) (n m : Nat) (x : Ctx) : (s.setCtx n x).grid? m = s.grid? m := rfl
theorem State.setCtx_get (s : State) (n m : Nat) (x : Ctx) :
    (s.setCtx n x).ctx m = if m = n then x else s.ctx m := smGet_smSet ..
@[simp] theorem State.setCtx_get_self (s : State) (n : Nat) (x : Ctx) : (s.setCtx n x).ctx n = x := by
  rw [State.setCtx_get, if_pos rfl]
theorem State.setCtx_get_ne (s : State) {n m : Nat} (x : Ctx) (h : m ≠ n) : (s.setCtx n x).ctx m = s.ctx m := by
  rw [State.setCtx_get, if_neg h]

/-! ## setWorld -/

@[simp] theorem State.setWorld_mem (s : State) (n : Nat) (x : World) : (s.setWorld n x).mem = s.mem := rfl
@[simp] theorem State.setWorld_l2dirty (s : State) (n : Nat) (x : World) : (s.setWorld n x).l2dirty = s.l2dirty := rfl
@[simp] theorem State.setWorld_l2home (s : State) (n : Nat) (x : World) : (s.setWorld n x).l2home = s.l2home := rfl
@[simp] theorem State.setWorld_l2copies (s : State) (n : Nat) (x : World) : (s.setWorld n x).l2copies = s.l2copies := rfl
@[simp] theorem State.setWorld_lineKeys (s : State) (n : Nat) (x : World) : (s.setWorld n x).lineKeys = s.lineKeys := rfl
@[simp] theorem State.setWorld_pageKeys (s : State) (n : Nat) (x : World) : (s.setWorld n x).pageKeys = s.pageKeys := rfl
@[simp] theorem State.setWorld_past (s : State) (n : Nat) (x : World) : (s.setWorld n x).past = s.past := rfl
@[simp] theorem State.setWorld_hostHalves (s : State) (n : Nat) (x : World) : (s.setWorld n x).hostHalves = s.hostHalves := rfl
@[simp] theorem State.setWorld_groups (s : State) (n : Nat) (x : World) : (s.setWorld n x).groups = s.groups := rfl
@[simp] theorem State.setWorld_teams (s : State) (n : Nat) (x : World) : (s.setWorld n x).teams = s.teams := rfl
@[simp] theorem State.setWorld_grids (s : State) (n : Nat) (x : World) : (s.setWorld n x).grids = s.grids := rfl
@[simp] theorem State.setWorld_nextGid (s : State) (n : Nat) (x : World) : (s.setWorld n x).nextGid = s.nextGid := rfl
@[simp] theorem State.setWorld_nextTeamKey (s : State) (n : Nat) (x : World) : (s.setWorld n x).nextTeamKey = s.nextTeamKey := rfl
@[simp] theorem State.setWorld_nextGridKey (s : State) (n : Nat) (x : World) : (s.setWorld n x).nextGridKey = s.nextGridKey := rfl
@[simp] theorem State.setWorld_gridSerial (s : State) (n : Nat) (x : World) : (s.setWorld n x).gridSerial = s.gridSerial := rfl
@[simp] theorem State.setWorld_cores (s : State) (n : Nat) (x : World) : (s.setWorld n x).cores = s.cores := rfl
@[simp] theorem State.setWorld_clusterTlb (s : State) (n : Nat) (x : World) : (s.setWorld n x).clusterTlb = s.clusterTlb := rfl
@[simp] theorem State.setWorld_matrix (s : State) (n : Nat) (x : World) : (s.setWorld n x).matrix = s.matrix := rfl
@[simp] theorem State.setWorld_copyEng (s : State) (n : Nat) (x : World) : (s.setWorld n x).copyEng = s.copyEng := rfl
@[simp] theorem State.setWorld_tenures (s : State) (n : Nat) (x : World) : (s.setWorld n x).tenures = s.tenures := rfl
@[simp] theorem State.setWorld_tenureReqs (s : State) (n : Nat) (x : World) : (s.setWorld n x).tenureReqs = s.tenureReqs := rfl
@[simp] theorem State.setWorld_reservations (s : State) (n : Nat) (x : World) : (s.setWorld n x).reservations = s.reservations := rfl
@[simp] theorem State.setWorld_walks (s : State) (n : Nat) (x : World) : (s.setWorld n x).walks = s.walks := rfl
@[simp] theorem State.setWorld_unitTrs (s : State) (n : Nat) (x : World) : (s.setWorld n x).unitTrs = s.unitTrs := rfl
@[simp] theorem State.setWorld_events (s : State) (n : Nat) (x : World) : (s.setWorld n x).events = s.events := rfl
@[simp] theorem State.setWorld_bobbins (s : State) (n : Nat) (x : World) : (s.setWorld n x).bobbins = s.bobbins := rfl
@[simp] theorem State.setWorld_ctxs (s : State) (n : Nat) (x : World) : (s.setWorld n x).ctxs = s.ctxs := rfl
@[simp] theorem State.setWorld_queues (s : State) (n : Nat) (x : World) : (s.setWorld n x).queues = s.queues := rfl
@[simp] theorem State.setWorld_stateSet (s : State) (n : Nat) (x : World) : (s.setWorld n x).stateSet = s.stateSet := rfl
@[simp] theorem State.setWorld_quantumAt (s : State) (n : Nat) (x : World) : (s.setWorld n x).quantumAt = s.quantumAt := rfl
@[simp] theorem State.setWorld_feGrant (s : State) (n : Nat) (x : World) : (s.setWorld n x).feGrant = s.feGrant := rfl
@[simp] theorem State.setWorld_feAt (s : State) (n : Nat) (x : World) : (s.setWorld n x).feAt = s.feAt := rfl
@[simp] theorem State.setWorld_tryAt (s : State) (n : Nat) (x : World) : (s.setWorld n x).tryAt = s.tryAt := rfl
@[simp] theorem State.setWorld_retireDue (s : State) (n : Nat) (x : World) : (s.setWorld n x).retireDue = s.retireDue := rfl
@[simp] theorem State.setWorld_sparing (s : State) (n : Nat) (x : World) : (s.setWorld n x).sparing = s.sparing := rfl
@[simp] theorem State.setWorld_dies (s : State) (n : Nat) (x : World) : (s.setWorld n x).dies = s.dies := rfl
@[simp] theorem State.setWorld_ports (s : State) (n : Nat) (x : World) : (s.setWorld n x).ports = s.ports := rfl
@[simp] theorem State.setWorld_floods (s : State) (n : Nat) (x : World) : (s.setWorld n x).floods = s.floods := rfl
@[simp] theorem State.setWorld_host (s : State) (n : Nat) (x : World) : (s.setWorld n x).host = s.host := rfl
@[simp] theorem State.setWorld_spareRows (s : State) (n : Nat) (x : World) : (s.setWorld n x).spareRows = s.spareRows := rfl
@[simp] theorem State.setWorld_rowErrors (s : State) (n : Nat) (x : World) : (s.setWorld n x).rowErrors = s.rowErrors := rfl
@[simp] theorem State.setWorld_badFrames (s : State) (n : Nat) (x : World) : (s.setWorld n x).badFrames = s.badFrames := rfl
@[simp] theorem State.setWorld_nextId (s : State) (n : Nat) (x : World) : (s.setWorld n x).nextId = s.nextId := rfl
@[simp] theorem State.setWorld_agenda (s : State) (n : Nat) (x : World) : (s.setWorld n x).agenda = s.agenda := rfl
@[simp] theorem State.setWorld_issue (s : State) (n : Nat) (x : World) : (s.setWorld n x).issue = s.issue := rfl
@[simp] theorem State.setWorld_cur (s : State) (n : Nat) (x : World) : (s.setWorld n x).cur = s.cur := rfl
@[simp] theorem State.setWorld_inCycle (s : State) (n : Nat) (x : World) : (s.setWorld n x).inCycle = s.inCycle := rfl
@[simp] theorem State.setWorld_fresh (s : State) (n : Nat) (x : World) : (s.setWorld n x).fresh = s.fresh := rfl
@[simp] theorem State.setWorld_get_core (s : State) (n m : Nat) (x : World) : (s.setWorld n x).core m = s.core m := rfl
@[simp] theorem State.setWorld_get_group (s : State) (n m : Nat) (x : World) : (s.setWorld n x).group? m = s.group? m := rfl
@[simp] theorem State.setWorld_get_die (s : State) (n m : Nat) (x : World) : (s.setWorld n x).die m = s.die m := rfl
@[simp] theorem State.setWorld_get_ctx (s : State) (n m : Nat) (x : World) : (s.setWorld n x).ctx m = s.ctx m := rfl
@[simp] theorem State.setWorld_get_queue (s : State) (n m : Nat) (x : World) : (s.setWorld n x).queue m = s.queue m := rfl
@[simp] theorem State.setWorld_get_matrixEng (s : State) (n m : Nat) (x : World) : (s.setWorld n x).matrixEng m = s.matrixEng m := rfl
@[simp] theorem State.setWorld_get_copyEngine (s : State) (n m : Nat) (x : World) : (s.setWorld n x).copyEngine m = s.copyEngine m := rfl
@[simp] theorem State.setWorld_get_port (s : State) (n m : Nat) (x : World) : (s.setWorld n x).port m = s.port m := rfl
@[simp] theorem State.setWorld_get_team (s : State) (n m : Nat) (x : World) : (s.setWorld n x).team? m = s.team? m := rfl
@[simp] theorem State.setWorld_get_grid (s : State) (n m : Nat) (x : World) : (s.setWorld n x).grid? m = s.grid? m := rfl
theorem State.setWorld_get (s : State) (n m : Nat) (x : World) :
    (s.setWorld n x).world m = if m = n then x else s.world m := smGet_smSet ..
@[simp] theorem State.setWorld_get_self (s : State) (n : Nat) (x : World) : (s.setWorld n x).world n = x := by
  rw [State.setWorld_get, if_pos rfl]
theorem State.setWorld_get_ne (s : State) {n m : Nat} (x : World) (h : m ≠ n) : (s.setWorld n x).world m = s.world m := by
  rw [State.setWorld_get, if_neg h]

/-! ## setQueue -/

@[simp] theorem State.setQueue_mem (s : State) (n : Nat) (x : QueueSt) : (s.setQueue n x).mem = s.mem := rfl
@[simp] theorem State.setQueue_l2dirty (s : State) (n : Nat) (x : QueueSt) : (s.setQueue n x).l2dirty = s.l2dirty := rfl
@[simp] theorem State.setQueue_l2home (s : State) (n : Nat) (x : QueueSt) : (s.setQueue n x).l2home = s.l2home := rfl
@[simp] theorem State.setQueue_l2copies (s : State) (n : Nat) (x : QueueSt) : (s.setQueue n x).l2copies = s.l2copies := rfl
@[simp] theorem State.setQueue_lineKeys (s : State) (n : Nat) (x : QueueSt) : (s.setQueue n x).lineKeys = s.lineKeys := rfl
@[simp] theorem State.setQueue_pageKeys (s : State) (n : Nat) (x : QueueSt) : (s.setQueue n x).pageKeys = s.pageKeys := rfl
@[simp] theorem State.setQueue_past (s : State) (n : Nat) (x : QueueSt) : (s.setQueue n x).past = s.past := rfl
@[simp] theorem State.setQueue_hostHalves (s : State) (n : Nat) (x : QueueSt) : (s.setQueue n x).hostHalves = s.hostHalves := rfl
@[simp] theorem State.setQueue_groups (s : State) (n : Nat) (x : QueueSt) : (s.setQueue n x).groups = s.groups := rfl
@[simp] theorem State.setQueue_teams (s : State) (n : Nat) (x : QueueSt) : (s.setQueue n x).teams = s.teams := rfl
@[simp] theorem State.setQueue_grids (s : State) (n : Nat) (x : QueueSt) : (s.setQueue n x).grids = s.grids := rfl
@[simp] theorem State.setQueue_nextGid (s : State) (n : Nat) (x : QueueSt) : (s.setQueue n x).nextGid = s.nextGid := rfl
@[simp] theorem State.setQueue_nextTeamKey (s : State) (n : Nat) (x : QueueSt) : (s.setQueue n x).nextTeamKey = s.nextTeamKey := rfl
@[simp] theorem State.setQueue_nextGridKey (s : State) (n : Nat) (x : QueueSt) : (s.setQueue n x).nextGridKey = s.nextGridKey := rfl
@[simp] theorem State.setQueue_gridSerial (s : State) (n : Nat) (x : QueueSt) : (s.setQueue n x).gridSerial = s.gridSerial := rfl
@[simp] theorem State.setQueue_cores (s : State) (n : Nat) (x : QueueSt) : (s.setQueue n x).cores = s.cores := rfl
@[simp] theorem State.setQueue_clusterTlb (s : State) (n : Nat) (x : QueueSt) : (s.setQueue n x).clusterTlb = s.clusterTlb := rfl
@[simp] theorem State.setQueue_matrix (s : State) (n : Nat) (x : QueueSt) : (s.setQueue n x).matrix = s.matrix := rfl
@[simp] theorem State.setQueue_copyEng (s : State) (n : Nat) (x : QueueSt) : (s.setQueue n x).copyEng = s.copyEng := rfl
@[simp] theorem State.setQueue_tenures (s : State) (n : Nat) (x : QueueSt) : (s.setQueue n x).tenures = s.tenures := rfl
@[simp] theorem State.setQueue_tenureReqs (s : State) (n : Nat) (x : QueueSt) : (s.setQueue n x).tenureReqs = s.tenureReqs := rfl
@[simp] theorem State.setQueue_reservations (s : State) (n : Nat) (x : QueueSt) : (s.setQueue n x).reservations = s.reservations := rfl
@[simp] theorem State.setQueue_walks (s : State) (n : Nat) (x : QueueSt) : (s.setQueue n x).walks = s.walks := rfl
@[simp] theorem State.setQueue_unitTrs (s : State) (n : Nat) (x : QueueSt) : (s.setQueue n x).unitTrs = s.unitTrs := rfl
@[simp] theorem State.setQueue_events (s : State) (n : Nat) (x : QueueSt) : (s.setQueue n x).events = s.events := rfl
@[simp] theorem State.setQueue_bobbins (s : State) (n : Nat) (x : QueueSt) : (s.setQueue n x).bobbins = s.bobbins := rfl
@[simp] theorem State.setQueue_ctxs (s : State) (n : Nat) (x : QueueSt) : (s.setQueue n x).ctxs = s.ctxs := rfl
@[simp] theorem State.setQueue_stateSet (s : State) (n : Nat) (x : QueueSt) : (s.setQueue n x).stateSet = s.stateSet := rfl
@[simp] theorem State.setQueue_quantumAt (s : State) (n : Nat) (x : QueueSt) : (s.setQueue n x).quantumAt = s.quantumAt := rfl
@[simp] theorem State.setQueue_feGrant (s : State) (n : Nat) (x : QueueSt) : (s.setQueue n x).feGrant = s.feGrant := rfl
@[simp] theorem State.setQueue_feAt (s : State) (n : Nat) (x : QueueSt) : (s.setQueue n x).feAt = s.feAt := rfl
@[simp] theorem State.setQueue_tryAt (s : State) (n : Nat) (x : QueueSt) : (s.setQueue n x).tryAt = s.tryAt := rfl
@[simp] theorem State.setQueue_retireDue (s : State) (n : Nat) (x : QueueSt) : (s.setQueue n x).retireDue = s.retireDue := rfl
@[simp] theorem State.setQueue_sparing (s : State) (n : Nat) (x : QueueSt) : (s.setQueue n x).sparing = s.sparing := rfl
@[simp] theorem State.setQueue_worlds (s : State) (n : Nat) (x : QueueSt) : (s.setQueue n x).worlds = s.worlds := rfl
@[simp] theorem State.setQueue_dies (s : State) (n : Nat) (x : QueueSt) : (s.setQueue n x).dies = s.dies := rfl
@[simp] theorem State.setQueue_ports (s : State) (n : Nat) (x : QueueSt) : (s.setQueue n x).ports = s.ports := rfl
@[simp] theorem State.setQueue_floods (s : State) (n : Nat) (x : QueueSt) : (s.setQueue n x).floods = s.floods := rfl
@[simp] theorem State.setQueue_host (s : State) (n : Nat) (x : QueueSt) : (s.setQueue n x).host = s.host := rfl
@[simp] theorem State.setQueue_spareRows (s : State) (n : Nat) (x : QueueSt) : (s.setQueue n x).spareRows = s.spareRows := rfl
@[simp] theorem State.setQueue_rowErrors (s : State) (n : Nat) (x : QueueSt) : (s.setQueue n x).rowErrors = s.rowErrors := rfl
@[simp] theorem State.setQueue_badFrames (s : State) (n : Nat) (x : QueueSt) : (s.setQueue n x).badFrames = s.badFrames := rfl
@[simp] theorem State.setQueue_nextId (s : State) (n : Nat) (x : QueueSt) : (s.setQueue n x).nextId = s.nextId := rfl
@[simp] theorem State.setQueue_agenda (s : State) (n : Nat) (x : QueueSt) : (s.setQueue n x).agenda = s.agenda := rfl
@[simp] theorem State.setQueue_issue (s : State) (n : Nat) (x : QueueSt) : (s.setQueue n x).issue = s.issue := rfl
@[simp] theorem State.setQueue_cur (s : State) (n : Nat) (x : QueueSt) : (s.setQueue n x).cur = s.cur := rfl
@[simp] theorem State.setQueue_inCycle (s : State) (n : Nat) (x : QueueSt) : (s.setQueue n x).inCycle = s.inCycle := rfl
@[simp] theorem State.setQueue_fresh (s : State) (n : Nat) (x : QueueSt) : (s.setQueue n x).fresh = s.fresh := rfl
@[simp] theorem State.setQueue_get_core (s : State) (n m : Nat) (x : QueueSt) : (s.setQueue n x).core m = s.core m := rfl
@[simp] theorem State.setQueue_get_group (s : State) (n m : Nat) (x : QueueSt) : (s.setQueue n x).group? m = s.group? m := rfl
@[simp] theorem State.setQueue_get_die (s : State) (n m : Nat) (x : QueueSt) : (s.setQueue n x).die m = s.die m := rfl
@[simp] theorem State.setQueue_get_ctx (s : State) (n m : Nat) (x : QueueSt) : (s.setQueue n x).ctx m = s.ctx m := rfl
@[simp] theorem State.setQueue_get_world (s : State) (n m : Nat) (x : QueueSt) : (s.setQueue n x).world m = s.world m := rfl
@[simp] theorem State.setQueue_get_matrixEng (s : State) (n m : Nat) (x : QueueSt) : (s.setQueue n x).matrixEng m = s.matrixEng m := rfl
@[simp] theorem State.setQueue_get_copyEngine (s : State) (n m : Nat) (x : QueueSt) : (s.setQueue n x).copyEngine m = s.copyEngine m := rfl
@[simp] theorem State.setQueue_get_port (s : State) (n m : Nat) (x : QueueSt) : (s.setQueue n x).port m = s.port m := rfl
@[simp] theorem State.setQueue_get_team (s : State) (n m : Nat) (x : QueueSt) : (s.setQueue n x).team? m = s.team? m := rfl
@[simp] theorem State.setQueue_get_grid (s : State) (n m : Nat) (x : QueueSt) : (s.setQueue n x).grid? m = s.grid? m := rfl
theorem State.setQueue_get (s : State) (n m : Nat) (x : QueueSt) :
    (s.setQueue n x).queue m = if m = n then x else s.queue m := smGet_smSet ..
@[simp] theorem State.setQueue_get_self (s : State) (n : Nat) (x : QueueSt) : (s.setQueue n x).queue n = x := by
  rw [State.setQueue_get, if_pos rfl]
theorem State.setQueue_get_ne (s : State) {n m : Nat} (x : QueueSt) (h : m ≠ n) : (s.setQueue n x).queue m = s.queue m := by
  rw [State.setQueue_get, if_neg h]

/-! ## setMatrix -/

@[simp] theorem State.setMatrix_mem (s : State) (n : Nat) (x : MatrixEng) : (s.setMatrix n x).mem = s.mem := rfl
@[simp] theorem State.setMatrix_l2dirty (s : State) (n : Nat) (x : MatrixEng) : (s.setMatrix n x).l2dirty = s.l2dirty := rfl
@[simp] theorem State.setMatrix_l2home (s : State) (n : Nat) (x : MatrixEng) : (s.setMatrix n x).l2home = s.l2home := rfl
@[simp] theorem State.setMatrix_l2copies (s : State) (n : Nat) (x : MatrixEng) : (s.setMatrix n x).l2copies = s.l2copies := rfl
@[simp] theorem State.setMatrix_lineKeys (s : State) (n : Nat) (x : MatrixEng) : (s.setMatrix n x).lineKeys = s.lineKeys := rfl
@[simp] theorem State.setMatrix_pageKeys (s : State) (n : Nat) (x : MatrixEng) : (s.setMatrix n x).pageKeys = s.pageKeys := rfl
@[simp] theorem State.setMatrix_past (s : State) (n : Nat) (x : MatrixEng) : (s.setMatrix n x).past = s.past := rfl
@[simp] theorem State.setMatrix_hostHalves (s : State) (n : Nat) (x : MatrixEng) : (s.setMatrix n x).hostHalves = s.hostHalves := rfl
@[simp] theorem State.setMatrix_groups (s : State) (n : Nat) (x : MatrixEng) : (s.setMatrix n x).groups = s.groups := rfl
@[simp] theorem State.setMatrix_teams (s : State) (n : Nat) (x : MatrixEng) : (s.setMatrix n x).teams = s.teams := rfl
@[simp] theorem State.setMatrix_grids (s : State) (n : Nat) (x : MatrixEng) : (s.setMatrix n x).grids = s.grids := rfl
@[simp] theorem State.setMatrix_nextGid (s : State) (n : Nat) (x : MatrixEng) : (s.setMatrix n x).nextGid = s.nextGid := rfl
@[simp] theorem State.setMatrix_nextTeamKey (s : State) (n : Nat) (x : MatrixEng) : (s.setMatrix n x).nextTeamKey = s.nextTeamKey := rfl
@[simp] theorem State.setMatrix_nextGridKey (s : State) (n : Nat) (x : MatrixEng) : (s.setMatrix n x).nextGridKey = s.nextGridKey := rfl
@[simp] theorem State.setMatrix_gridSerial (s : State) (n : Nat) (x : MatrixEng) : (s.setMatrix n x).gridSerial = s.gridSerial := rfl
@[simp] theorem State.setMatrix_cores (s : State) (n : Nat) (x : MatrixEng) : (s.setMatrix n x).cores = s.cores := rfl
@[simp] theorem State.setMatrix_clusterTlb (s : State) (n : Nat) (x : MatrixEng) : (s.setMatrix n x).clusterTlb = s.clusterTlb := rfl
@[simp] theorem State.setMatrix_copyEng (s : State) (n : Nat) (x : MatrixEng) : (s.setMatrix n x).copyEng = s.copyEng := rfl
@[simp] theorem State.setMatrix_tenures (s : State) (n : Nat) (x : MatrixEng) : (s.setMatrix n x).tenures = s.tenures := rfl
@[simp] theorem State.setMatrix_tenureReqs (s : State) (n : Nat) (x : MatrixEng) : (s.setMatrix n x).tenureReqs = s.tenureReqs := rfl
@[simp] theorem State.setMatrix_reservations (s : State) (n : Nat) (x : MatrixEng) : (s.setMatrix n x).reservations = s.reservations := rfl
@[simp] theorem State.setMatrix_walks (s : State) (n : Nat) (x : MatrixEng) : (s.setMatrix n x).walks = s.walks := rfl
@[simp] theorem State.setMatrix_unitTrs (s : State) (n : Nat) (x : MatrixEng) : (s.setMatrix n x).unitTrs = s.unitTrs := rfl
@[simp] theorem State.setMatrix_events (s : State) (n : Nat) (x : MatrixEng) : (s.setMatrix n x).events = s.events := rfl
@[simp] theorem State.setMatrix_bobbins (s : State) (n : Nat) (x : MatrixEng) : (s.setMatrix n x).bobbins = s.bobbins := rfl
@[simp] theorem State.setMatrix_ctxs (s : State) (n : Nat) (x : MatrixEng) : (s.setMatrix n x).ctxs = s.ctxs := rfl
@[simp] theorem State.setMatrix_queues (s : State) (n : Nat) (x : MatrixEng) : (s.setMatrix n x).queues = s.queues := rfl
@[simp] theorem State.setMatrix_stateSet (s : State) (n : Nat) (x : MatrixEng) : (s.setMatrix n x).stateSet = s.stateSet := rfl
@[simp] theorem State.setMatrix_quantumAt (s : State) (n : Nat) (x : MatrixEng) : (s.setMatrix n x).quantumAt = s.quantumAt := rfl
@[simp] theorem State.setMatrix_feGrant (s : State) (n : Nat) (x : MatrixEng) : (s.setMatrix n x).feGrant = s.feGrant := rfl
@[simp] theorem State.setMatrix_feAt (s : State) (n : Nat) (x : MatrixEng) : (s.setMatrix n x).feAt = s.feAt := rfl
@[simp] theorem State.setMatrix_tryAt (s : State) (n : Nat) (x : MatrixEng) : (s.setMatrix n x).tryAt = s.tryAt := rfl
@[simp] theorem State.setMatrix_retireDue (s : State) (n : Nat) (x : MatrixEng) : (s.setMatrix n x).retireDue = s.retireDue := rfl
@[simp] theorem State.setMatrix_sparing (s : State) (n : Nat) (x : MatrixEng) : (s.setMatrix n x).sparing = s.sparing := rfl
@[simp] theorem State.setMatrix_worlds (s : State) (n : Nat) (x : MatrixEng) : (s.setMatrix n x).worlds = s.worlds := rfl
@[simp] theorem State.setMatrix_dies (s : State) (n : Nat) (x : MatrixEng) : (s.setMatrix n x).dies = s.dies := rfl
@[simp] theorem State.setMatrix_ports (s : State) (n : Nat) (x : MatrixEng) : (s.setMatrix n x).ports = s.ports := rfl
@[simp] theorem State.setMatrix_floods (s : State) (n : Nat) (x : MatrixEng) : (s.setMatrix n x).floods = s.floods := rfl
@[simp] theorem State.setMatrix_host (s : State) (n : Nat) (x : MatrixEng) : (s.setMatrix n x).host = s.host := rfl
@[simp] theorem State.setMatrix_spareRows (s : State) (n : Nat) (x : MatrixEng) : (s.setMatrix n x).spareRows = s.spareRows := rfl
@[simp] theorem State.setMatrix_rowErrors (s : State) (n : Nat) (x : MatrixEng) : (s.setMatrix n x).rowErrors = s.rowErrors := rfl
@[simp] theorem State.setMatrix_badFrames (s : State) (n : Nat) (x : MatrixEng) : (s.setMatrix n x).badFrames = s.badFrames := rfl
@[simp] theorem State.setMatrix_nextId (s : State) (n : Nat) (x : MatrixEng) : (s.setMatrix n x).nextId = s.nextId := rfl
@[simp] theorem State.setMatrix_agenda (s : State) (n : Nat) (x : MatrixEng) : (s.setMatrix n x).agenda = s.agenda := rfl
@[simp] theorem State.setMatrix_issue (s : State) (n : Nat) (x : MatrixEng) : (s.setMatrix n x).issue = s.issue := rfl
@[simp] theorem State.setMatrix_cur (s : State) (n : Nat) (x : MatrixEng) : (s.setMatrix n x).cur = s.cur := rfl
@[simp] theorem State.setMatrix_inCycle (s : State) (n : Nat) (x : MatrixEng) : (s.setMatrix n x).inCycle = s.inCycle := rfl
@[simp] theorem State.setMatrix_fresh (s : State) (n : Nat) (x : MatrixEng) : (s.setMatrix n x).fresh = s.fresh := rfl
@[simp] theorem State.setMatrix_get_core (s : State) (n m : Nat) (x : MatrixEng) : (s.setMatrix n x).core m = s.core m := rfl
@[simp] theorem State.setMatrix_get_group (s : State) (n m : Nat) (x : MatrixEng) : (s.setMatrix n x).group? m = s.group? m := rfl
@[simp] theorem State.setMatrix_get_die (s : State) (n m : Nat) (x : MatrixEng) : (s.setMatrix n x).die m = s.die m := rfl
@[simp] theorem State.setMatrix_get_ctx (s : State) (n m : Nat) (x : MatrixEng) : (s.setMatrix n x).ctx m = s.ctx m := rfl
@[simp] theorem State.setMatrix_get_world (s : State) (n m : Nat) (x : MatrixEng) : (s.setMatrix n x).world m = s.world m := rfl
@[simp] theorem State.setMatrix_get_queue (s : State) (n m : Nat) (x : MatrixEng) : (s.setMatrix n x).queue m = s.queue m := rfl
@[simp] theorem State.setMatrix_get_copyEngine (s : State) (n m : Nat) (x : MatrixEng) : (s.setMatrix n x).copyEngine m = s.copyEngine m := rfl
@[simp] theorem State.setMatrix_get_port (s : State) (n m : Nat) (x : MatrixEng) : (s.setMatrix n x).port m = s.port m := rfl
@[simp] theorem State.setMatrix_get_team (s : State) (n m : Nat) (x : MatrixEng) : (s.setMatrix n x).team? m = s.team? m := rfl
@[simp] theorem State.setMatrix_get_grid (s : State) (n m : Nat) (x : MatrixEng) : (s.setMatrix n x).grid? m = s.grid? m := rfl
theorem State.setMatrix_get (s : State) (n m : Nat) (x : MatrixEng) :
    (s.setMatrix n x).matrixEng m = if m = n then x else s.matrixEng m := smGet_smSet ..
@[simp] theorem State.setMatrix_get_self (s : State) (n : Nat) (x : MatrixEng) : (s.setMatrix n x).matrixEng n = x := by
  rw [State.setMatrix_get, if_pos rfl]
theorem State.setMatrix_get_ne (s : State) {n m : Nat} (x : MatrixEng) (h : m ≠ n) : (s.setMatrix n x).matrixEng m = s.matrixEng m := by
  rw [State.setMatrix_get, if_neg h]

/-! ## setCopyEng -/

@[simp] theorem State.setCopyEng_mem (s : State) (n : Nat) (x : CopyEng) : (s.setCopyEng n x).mem = s.mem := rfl
@[simp] theorem State.setCopyEng_l2dirty (s : State) (n : Nat) (x : CopyEng) : (s.setCopyEng n x).l2dirty = s.l2dirty := rfl
@[simp] theorem State.setCopyEng_l2home (s : State) (n : Nat) (x : CopyEng) : (s.setCopyEng n x).l2home = s.l2home := rfl
@[simp] theorem State.setCopyEng_l2copies (s : State) (n : Nat) (x : CopyEng) : (s.setCopyEng n x).l2copies = s.l2copies := rfl
@[simp] theorem State.setCopyEng_lineKeys (s : State) (n : Nat) (x : CopyEng) : (s.setCopyEng n x).lineKeys = s.lineKeys := rfl
@[simp] theorem State.setCopyEng_pageKeys (s : State) (n : Nat) (x : CopyEng) : (s.setCopyEng n x).pageKeys = s.pageKeys := rfl
@[simp] theorem State.setCopyEng_past (s : State) (n : Nat) (x : CopyEng) : (s.setCopyEng n x).past = s.past := rfl
@[simp] theorem State.setCopyEng_hostHalves (s : State) (n : Nat) (x : CopyEng) : (s.setCopyEng n x).hostHalves = s.hostHalves := rfl
@[simp] theorem State.setCopyEng_groups (s : State) (n : Nat) (x : CopyEng) : (s.setCopyEng n x).groups = s.groups := rfl
@[simp] theorem State.setCopyEng_teams (s : State) (n : Nat) (x : CopyEng) : (s.setCopyEng n x).teams = s.teams := rfl
@[simp] theorem State.setCopyEng_grids (s : State) (n : Nat) (x : CopyEng) : (s.setCopyEng n x).grids = s.grids := rfl
@[simp] theorem State.setCopyEng_nextGid (s : State) (n : Nat) (x : CopyEng) : (s.setCopyEng n x).nextGid = s.nextGid := rfl
@[simp] theorem State.setCopyEng_nextTeamKey (s : State) (n : Nat) (x : CopyEng) : (s.setCopyEng n x).nextTeamKey = s.nextTeamKey := rfl
@[simp] theorem State.setCopyEng_nextGridKey (s : State) (n : Nat) (x : CopyEng) : (s.setCopyEng n x).nextGridKey = s.nextGridKey := rfl
@[simp] theorem State.setCopyEng_gridSerial (s : State) (n : Nat) (x : CopyEng) : (s.setCopyEng n x).gridSerial = s.gridSerial := rfl
@[simp] theorem State.setCopyEng_cores (s : State) (n : Nat) (x : CopyEng) : (s.setCopyEng n x).cores = s.cores := rfl
@[simp] theorem State.setCopyEng_clusterTlb (s : State) (n : Nat) (x : CopyEng) : (s.setCopyEng n x).clusterTlb = s.clusterTlb := rfl
@[simp] theorem State.setCopyEng_matrix (s : State) (n : Nat) (x : CopyEng) : (s.setCopyEng n x).matrix = s.matrix := rfl
@[simp] theorem State.setCopyEng_tenures (s : State) (n : Nat) (x : CopyEng) : (s.setCopyEng n x).tenures = s.tenures := rfl
@[simp] theorem State.setCopyEng_tenureReqs (s : State) (n : Nat) (x : CopyEng) : (s.setCopyEng n x).tenureReqs = s.tenureReqs := rfl
@[simp] theorem State.setCopyEng_reservations (s : State) (n : Nat) (x : CopyEng) : (s.setCopyEng n x).reservations = s.reservations := rfl
@[simp] theorem State.setCopyEng_walks (s : State) (n : Nat) (x : CopyEng) : (s.setCopyEng n x).walks = s.walks := rfl
@[simp] theorem State.setCopyEng_unitTrs (s : State) (n : Nat) (x : CopyEng) : (s.setCopyEng n x).unitTrs = s.unitTrs := rfl
@[simp] theorem State.setCopyEng_events (s : State) (n : Nat) (x : CopyEng) : (s.setCopyEng n x).events = s.events := rfl
@[simp] theorem State.setCopyEng_bobbins (s : State) (n : Nat) (x : CopyEng) : (s.setCopyEng n x).bobbins = s.bobbins := rfl
@[simp] theorem State.setCopyEng_ctxs (s : State) (n : Nat) (x : CopyEng) : (s.setCopyEng n x).ctxs = s.ctxs := rfl
@[simp] theorem State.setCopyEng_queues (s : State) (n : Nat) (x : CopyEng) : (s.setCopyEng n x).queues = s.queues := rfl
@[simp] theorem State.setCopyEng_stateSet (s : State) (n : Nat) (x : CopyEng) : (s.setCopyEng n x).stateSet = s.stateSet := rfl
@[simp] theorem State.setCopyEng_quantumAt (s : State) (n : Nat) (x : CopyEng) : (s.setCopyEng n x).quantumAt = s.quantumAt := rfl
@[simp] theorem State.setCopyEng_feGrant (s : State) (n : Nat) (x : CopyEng) : (s.setCopyEng n x).feGrant = s.feGrant := rfl
@[simp] theorem State.setCopyEng_feAt (s : State) (n : Nat) (x : CopyEng) : (s.setCopyEng n x).feAt = s.feAt := rfl
@[simp] theorem State.setCopyEng_tryAt (s : State) (n : Nat) (x : CopyEng) : (s.setCopyEng n x).tryAt = s.tryAt := rfl
@[simp] theorem State.setCopyEng_retireDue (s : State) (n : Nat) (x : CopyEng) : (s.setCopyEng n x).retireDue = s.retireDue := rfl
@[simp] theorem State.setCopyEng_sparing (s : State) (n : Nat) (x : CopyEng) : (s.setCopyEng n x).sparing = s.sparing := rfl
@[simp] theorem State.setCopyEng_worlds (s : State) (n : Nat) (x : CopyEng) : (s.setCopyEng n x).worlds = s.worlds := rfl
@[simp] theorem State.setCopyEng_dies (s : State) (n : Nat) (x : CopyEng) : (s.setCopyEng n x).dies = s.dies := rfl
@[simp] theorem State.setCopyEng_ports (s : State) (n : Nat) (x : CopyEng) : (s.setCopyEng n x).ports = s.ports := rfl
@[simp] theorem State.setCopyEng_floods (s : State) (n : Nat) (x : CopyEng) : (s.setCopyEng n x).floods = s.floods := rfl
@[simp] theorem State.setCopyEng_host (s : State) (n : Nat) (x : CopyEng) : (s.setCopyEng n x).host = s.host := rfl
@[simp] theorem State.setCopyEng_spareRows (s : State) (n : Nat) (x : CopyEng) : (s.setCopyEng n x).spareRows = s.spareRows := rfl
@[simp] theorem State.setCopyEng_rowErrors (s : State) (n : Nat) (x : CopyEng) : (s.setCopyEng n x).rowErrors = s.rowErrors := rfl
@[simp] theorem State.setCopyEng_badFrames (s : State) (n : Nat) (x : CopyEng) : (s.setCopyEng n x).badFrames = s.badFrames := rfl
@[simp] theorem State.setCopyEng_nextId (s : State) (n : Nat) (x : CopyEng) : (s.setCopyEng n x).nextId = s.nextId := rfl
@[simp] theorem State.setCopyEng_agenda (s : State) (n : Nat) (x : CopyEng) : (s.setCopyEng n x).agenda = s.agenda := rfl
@[simp] theorem State.setCopyEng_issue (s : State) (n : Nat) (x : CopyEng) : (s.setCopyEng n x).issue = s.issue := rfl
@[simp] theorem State.setCopyEng_cur (s : State) (n : Nat) (x : CopyEng) : (s.setCopyEng n x).cur = s.cur := rfl
@[simp] theorem State.setCopyEng_inCycle (s : State) (n : Nat) (x : CopyEng) : (s.setCopyEng n x).inCycle = s.inCycle := rfl
@[simp] theorem State.setCopyEng_fresh (s : State) (n : Nat) (x : CopyEng) : (s.setCopyEng n x).fresh = s.fresh := rfl
@[simp] theorem State.setCopyEng_get_core (s : State) (n m : Nat) (x : CopyEng) : (s.setCopyEng n x).core m = s.core m := rfl
@[simp] theorem State.setCopyEng_get_group (s : State) (n m : Nat) (x : CopyEng) : (s.setCopyEng n x).group? m = s.group? m := rfl
@[simp] theorem State.setCopyEng_get_die (s : State) (n m : Nat) (x : CopyEng) : (s.setCopyEng n x).die m = s.die m := rfl
@[simp] theorem State.setCopyEng_get_ctx (s : State) (n m : Nat) (x : CopyEng) : (s.setCopyEng n x).ctx m = s.ctx m := rfl
@[simp] theorem State.setCopyEng_get_world (s : State) (n m : Nat) (x : CopyEng) : (s.setCopyEng n x).world m = s.world m := rfl
@[simp] theorem State.setCopyEng_get_queue (s : State) (n m : Nat) (x : CopyEng) : (s.setCopyEng n x).queue m = s.queue m := rfl
@[simp] theorem State.setCopyEng_get_matrixEng (s : State) (n m : Nat) (x : CopyEng) : (s.setCopyEng n x).matrixEng m = s.matrixEng m := rfl
@[simp] theorem State.setCopyEng_get_port (s : State) (n m : Nat) (x : CopyEng) : (s.setCopyEng n x).port m = s.port m := rfl
@[simp] theorem State.setCopyEng_get_team (s : State) (n m : Nat) (x : CopyEng) : (s.setCopyEng n x).team? m = s.team? m := rfl
@[simp] theorem State.setCopyEng_get_grid (s : State) (n m : Nat) (x : CopyEng) : (s.setCopyEng n x).grid? m = s.grid? m := rfl
theorem State.setCopyEng_get (s : State) (n m : Nat) (x : CopyEng) :
    (s.setCopyEng n x).copyEngine m = if m = n then x else s.copyEngine m := smGet_smSet ..
@[simp] theorem State.setCopyEng_get_self (s : State) (n : Nat) (x : CopyEng) : (s.setCopyEng n x).copyEngine n = x := by
  rw [State.setCopyEng_get, if_pos rfl]
theorem State.setCopyEng_get_ne (s : State) {n m : Nat} (x : CopyEng) (h : m ≠ n) : (s.setCopyEng n x).copyEngine m = s.copyEngine m := by
  rw [State.setCopyEng_get, if_neg h]

/-! ## setPort -/

@[simp] theorem State.setPort_mem (s : State) (n : Nat) (x : Port) : (s.setPort n x).mem = s.mem := rfl
@[simp] theorem State.setPort_l2dirty (s : State) (n : Nat) (x : Port) : (s.setPort n x).l2dirty = s.l2dirty := rfl
@[simp] theorem State.setPort_l2home (s : State) (n : Nat) (x : Port) : (s.setPort n x).l2home = s.l2home := rfl
@[simp] theorem State.setPort_l2copies (s : State) (n : Nat) (x : Port) : (s.setPort n x).l2copies = s.l2copies := rfl
@[simp] theorem State.setPort_lineKeys (s : State) (n : Nat) (x : Port) : (s.setPort n x).lineKeys = s.lineKeys := rfl
@[simp] theorem State.setPort_pageKeys (s : State) (n : Nat) (x : Port) : (s.setPort n x).pageKeys = s.pageKeys := rfl
@[simp] theorem State.setPort_past (s : State) (n : Nat) (x : Port) : (s.setPort n x).past = s.past := rfl
@[simp] theorem State.setPort_hostHalves (s : State) (n : Nat) (x : Port) : (s.setPort n x).hostHalves = s.hostHalves := rfl
@[simp] theorem State.setPort_groups (s : State) (n : Nat) (x : Port) : (s.setPort n x).groups = s.groups := rfl
@[simp] theorem State.setPort_teams (s : State) (n : Nat) (x : Port) : (s.setPort n x).teams = s.teams := rfl
@[simp] theorem State.setPort_grids (s : State) (n : Nat) (x : Port) : (s.setPort n x).grids = s.grids := rfl
@[simp] theorem State.setPort_nextGid (s : State) (n : Nat) (x : Port) : (s.setPort n x).nextGid = s.nextGid := rfl
@[simp] theorem State.setPort_nextTeamKey (s : State) (n : Nat) (x : Port) : (s.setPort n x).nextTeamKey = s.nextTeamKey := rfl
@[simp] theorem State.setPort_nextGridKey (s : State) (n : Nat) (x : Port) : (s.setPort n x).nextGridKey = s.nextGridKey := rfl
@[simp] theorem State.setPort_gridSerial (s : State) (n : Nat) (x : Port) : (s.setPort n x).gridSerial = s.gridSerial := rfl
@[simp] theorem State.setPort_cores (s : State) (n : Nat) (x : Port) : (s.setPort n x).cores = s.cores := rfl
@[simp] theorem State.setPort_clusterTlb (s : State) (n : Nat) (x : Port) : (s.setPort n x).clusterTlb = s.clusterTlb := rfl
@[simp] theorem State.setPort_matrix (s : State) (n : Nat) (x : Port) : (s.setPort n x).matrix = s.matrix := rfl
@[simp] theorem State.setPort_copyEng (s : State) (n : Nat) (x : Port) : (s.setPort n x).copyEng = s.copyEng := rfl
@[simp] theorem State.setPort_tenures (s : State) (n : Nat) (x : Port) : (s.setPort n x).tenures = s.tenures := rfl
@[simp] theorem State.setPort_tenureReqs (s : State) (n : Nat) (x : Port) : (s.setPort n x).tenureReqs = s.tenureReqs := rfl
@[simp] theorem State.setPort_reservations (s : State) (n : Nat) (x : Port) : (s.setPort n x).reservations = s.reservations := rfl
@[simp] theorem State.setPort_walks (s : State) (n : Nat) (x : Port) : (s.setPort n x).walks = s.walks := rfl
@[simp] theorem State.setPort_unitTrs (s : State) (n : Nat) (x : Port) : (s.setPort n x).unitTrs = s.unitTrs := rfl
@[simp] theorem State.setPort_events (s : State) (n : Nat) (x : Port) : (s.setPort n x).events = s.events := rfl
@[simp] theorem State.setPort_bobbins (s : State) (n : Nat) (x : Port) : (s.setPort n x).bobbins = s.bobbins := rfl
@[simp] theorem State.setPort_ctxs (s : State) (n : Nat) (x : Port) : (s.setPort n x).ctxs = s.ctxs := rfl
@[simp] theorem State.setPort_queues (s : State) (n : Nat) (x : Port) : (s.setPort n x).queues = s.queues := rfl
@[simp] theorem State.setPort_stateSet (s : State) (n : Nat) (x : Port) : (s.setPort n x).stateSet = s.stateSet := rfl
@[simp] theorem State.setPort_quantumAt (s : State) (n : Nat) (x : Port) : (s.setPort n x).quantumAt = s.quantumAt := rfl
@[simp] theorem State.setPort_feGrant (s : State) (n : Nat) (x : Port) : (s.setPort n x).feGrant = s.feGrant := rfl
@[simp] theorem State.setPort_feAt (s : State) (n : Nat) (x : Port) : (s.setPort n x).feAt = s.feAt := rfl
@[simp] theorem State.setPort_tryAt (s : State) (n : Nat) (x : Port) : (s.setPort n x).tryAt = s.tryAt := rfl
@[simp] theorem State.setPort_retireDue (s : State) (n : Nat) (x : Port) : (s.setPort n x).retireDue = s.retireDue := rfl
@[simp] theorem State.setPort_sparing (s : State) (n : Nat) (x : Port) : (s.setPort n x).sparing = s.sparing := rfl
@[simp] theorem State.setPort_worlds (s : State) (n : Nat) (x : Port) : (s.setPort n x).worlds = s.worlds := rfl
@[simp] theorem State.setPort_dies (s : State) (n : Nat) (x : Port) : (s.setPort n x).dies = s.dies := rfl
@[simp] theorem State.setPort_floods (s : State) (n : Nat) (x : Port) : (s.setPort n x).floods = s.floods := rfl
@[simp] theorem State.setPort_host (s : State) (n : Nat) (x : Port) : (s.setPort n x).host = s.host := rfl
@[simp] theorem State.setPort_spareRows (s : State) (n : Nat) (x : Port) : (s.setPort n x).spareRows = s.spareRows := rfl
@[simp] theorem State.setPort_rowErrors (s : State) (n : Nat) (x : Port) : (s.setPort n x).rowErrors = s.rowErrors := rfl
@[simp] theorem State.setPort_badFrames (s : State) (n : Nat) (x : Port) : (s.setPort n x).badFrames = s.badFrames := rfl
@[simp] theorem State.setPort_nextId (s : State) (n : Nat) (x : Port) : (s.setPort n x).nextId = s.nextId := rfl
@[simp] theorem State.setPort_agenda (s : State) (n : Nat) (x : Port) : (s.setPort n x).agenda = s.agenda := rfl
@[simp] theorem State.setPort_issue (s : State) (n : Nat) (x : Port) : (s.setPort n x).issue = s.issue := rfl
@[simp] theorem State.setPort_cur (s : State) (n : Nat) (x : Port) : (s.setPort n x).cur = s.cur := rfl
@[simp] theorem State.setPort_inCycle (s : State) (n : Nat) (x : Port) : (s.setPort n x).inCycle = s.inCycle := rfl
@[simp] theorem State.setPort_fresh (s : State) (n : Nat) (x : Port) : (s.setPort n x).fresh = s.fresh := rfl
@[simp] theorem State.setPort_get_core (s : State) (n m : Nat) (x : Port) : (s.setPort n x).core m = s.core m := rfl
@[simp] theorem State.setPort_get_group (s : State) (n m : Nat) (x : Port) : (s.setPort n x).group? m = s.group? m := rfl
@[simp] theorem State.setPort_get_die (s : State) (n m : Nat) (x : Port) : (s.setPort n x).die m = s.die m := rfl
@[simp] theorem State.setPort_get_ctx (s : State) (n m : Nat) (x : Port) : (s.setPort n x).ctx m = s.ctx m := rfl
@[simp] theorem State.setPort_get_world (s : State) (n m : Nat) (x : Port) : (s.setPort n x).world m = s.world m := rfl
@[simp] theorem State.setPort_get_queue (s : State) (n m : Nat) (x : Port) : (s.setPort n x).queue m = s.queue m := rfl
@[simp] theorem State.setPort_get_matrixEng (s : State) (n m : Nat) (x : Port) : (s.setPort n x).matrixEng m = s.matrixEng m := rfl
@[simp] theorem State.setPort_get_copyEngine (s : State) (n m : Nat) (x : Port) : (s.setPort n x).copyEngine m = s.copyEngine m := rfl
@[simp] theorem State.setPort_get_team (s : State) (n m : Nat) (x : Port) : (s.setPort n x).team? m = s.team? m := rfl
@[simp] theorem State.setPort_get_grid (s : State) (n m : Nat) (x : Port) : (s.setPort n x).grid? m = s.grid? m := rfl
theorem State.setPort_get (s : State) (n m : Nat) (x : Port) :
    (s.setPort n x).port m = if m = n then x else s.port m := smGet_smSet ..
@[simp] theorem State.setPort_get_self (s : State) (n : Nat) (x : Port) : (s.setPort n x).port n = x := by
  rw [State.setPort_get, if_pos rfl]
theorem State.setPort_get_ne (s : State) {n m : Nat} (x : Port) (h : m ≠ n) : (s.setPort n x).port m = s.port m := by
  rw [State.setPort_get, if_neg h]

/-! ## setTeam -/

@[simp] theorem State.setTeam_mem (s : State) (n : Nat) (x : Team) : (s.setTeam n x).mem = s.mem := rfl
@[simp] theorem State.setTeam_l2dirty (s : State) (n : Nat) (x : Team) : (s.setTeam n x).l2dirty = s.l2dirty := rfl
@[simp] theorem State.setTeam_l2home (s : State) (n : Nat) (x : Team) : (s.setTeam n x).l2home = s.l2home := rfl
@[simp] theorem State.setTeam_l2copies (s : State) (n : Nat) (x : Team) : (s.setTeam n x).l2copies = s.l2copies := rfl
@[simp] theorem State.setTeam_lineKeys (s : State) (n : Nat) (x : Team) : (s.setTeam n x).lineKeys = s.lineKeys := rfl
@[simp] theorem State.setTeam_pageKeys (s : State) (n : Nat) (x : Team) : (s.setTeam n x).pageKeys = s.pageKeys := rfl
@[simp] theorem State.setTeam_past (s : State) (n : Nat) (x : Team) : (s.setTeam n x).past = s.past := rfl
@[simp] theorem State.setTeam_hostHalves (s : State) (n : Nat) (x : Team) : (s.setTeam n x).hostHalves = s.hostHalves := rfl
@[simp] theorem State.setTeam_groups (s : State) (n : Nat) (x : Team) : (s.setTeam n x).groups = s.groups := rfl
@[simp] theorem State.setTeam_grids (s : State) (n : Nat) (x : Team) : (s.setTeam n x).grids = s.grids := rfl
@[simp] theorem State.setTeam_nextGid (s : State) (n : Nat) (x : Team) : (s.setTeam n x).nextGid = s.nextGid := rfl
@[simp] theorem State.setTeam_nextTeamKey (s : State) (n : Nat) (x : Team) : (s.setTeam n x).nextTeamKey = s.nextTeamKey := rfl
@[simp] theorem State.setTeam_nextGridKey (s : State) (n : Nat) (x : Team) : (s.setTeam n x).nextGridKey = s.nextGridKey := rfl
@[simp] theorem State.setTeam_gridSerial (s : State) (n : Nat) (x : Team) : (s.setTeam n x).gridSerial = s.gridSerial := rfl
@[simp] theorem State.setTeam_cores (s : State) (n : Nat) (x : Team) : (s.setTeam n x).cores = s.cores := rfl
@[simp] theorem State.setTeam_clusterTlb (s : State) (n : Nat) (x : Team) : (s.setTeam n x).clusterTlb = s.clusterTlb := rfl
@[simp] theorem State.setTeam_matrix (s : State) (n : Nat) (x : Team) : (s.setTeam n x).matrix = s.matrix := rfl
@[simp] theorem State.setTeam_copyEng (s : State) (n : Nat) (x : Team) : (s.setTeam n x).copyEng = s.copyEng := rfl
@[simp] theorem State.setTeam_tenures (s : State) (n : Nat) (x : Team) : (s.setTeam n x).tenures = s.tenures := rfl
@[simp] theorem State.setTeam_tenureReqs (s : State) (n : Nat) (x : Team) : (s.setTeam n x).tenureReqs = s.tenureReqs := rfl
@[simp] theorem State.setTeam_reservations (s : State) (n : Nat) (x : Team) : (s.setTeam n x).reservations = s.reservations := rfl
@[simp] theorem State.setTeam_walks (s : State) (n : Nat) (x : Team) : (s.setTeam n x).walks = s.walks := rfl
@[simp] theorem State.setTeam_unitTrs (s : State) (n : Nat) (x : Team) : (s.setTeam n x).unitTrs = s.unitTrs := rfl
@[simp] theorem State.setTeam_events (s : State) (n : Nat) (x : Team) : (s.setTeam n x).events = s.events := rfl
@[simp] theorem State.setTeam_bobbins (s : State) (n : Nat) (x : Team) : (s.setTeam n x).bobbins = s.bobbins := rfl
@[simp] theorem State.setTeam_ctxs (s : State) (n : Nat) (x : Team) : (s.setTeam n x).ctxs = s.ctxs := rfl
@[simp] theorem State.setTeam_queues (s : State) (n : Nat) (x : Team) : (s.setTeam n x).queues = s.queues := rfl
@[simp] theorem State.setTeam_stateSet (s : State) (n : Nat) (x : Team) : (s.setTeam n x).stateSet = s.stateSet := rfl
@[simp] theorem State.setTeam_quantumAt (s : State) (n : Nat) (x : Team) : (s.setTeam n x).quantumAt = s.quantumAt := rfl
@[simp] theorem State.setTeam_feGrant (s : State) (n : Nat) (x : Team) : (s.setTeam n x).feGrant = s.feGrant := rfl
@[simp] theorem State.setTeam_feAt (s : State) (n : Nat) (x : Team) : (s.setTeam n x).feAt = s.feAt := rfl
@[simp] theorem State.setTeam_tryAt (s : State) (n : Nat) (x : Team) : (s.setTeam n x).tryAt = s.tryAt := rfl
@[simp] theorem State.setTeam_retireDue (s : State) (n : Nat) (x : Team) : (s.setTeam n x).retireDue = s.retireDue := rfl
@[simp] theorem State.setTeam_sparing (s : State) (n : Nat) (x : Team) : (s.setTeam n x).sparing = s.sparing := rfl
@[simp] theorem State.setTeam_worlds (s : State) (n : Nat) (x : Team) : (s.setTeam n x).worlds = s.worlds := rfl
@[simp] theorem State.setTeam_dies (s : State) (n : Nat) (x : Team) : (s.setTeam n x).dies = s.dies := rfl
@[simp] theorem State.setTeam_ports (s : State) (n : Nat) (x : Team) : (s.setTeam n x).ports = s.ports := rfl
@[simp] theorem State.setTeam_floods (s : State) (n : Nat) (x : Team) : (s.setTeam n x).floods = s.floods := rfl
@[simp] theorem State.setTeam_host (s : State) (n : Nat) (x : Team) : (s.setTeam n x).host = s.host := rfl
@[simp] theorem State.setTeam_spareRows (s : State) (n : Nat) (x : Team) : (s.setTeam n x).spareRows = s.spareRows := rfl
@[simp] theorem State.setTeam_rowErrors (s : State) (n : Nat) (x : Team) : (s.setTeam n x).rowErrors = s.rowErrors := rfl
@[simp] theorem State.setTeam_badFrames (s : State) (n : Nat) (x : Team) : (s.setTeam n x).badFrames = s.badFrames := rfl
@[simp] theorem State.setTeam_nextId (s : State) (n : Nat) (x : Team) : (s.setTeam n x).nextId = s.nextId := rfl
@[simp] theorem State.setTeam_agenda (s : State) (n : Nat) (x : Team) : (s.setTeam n x).agenda = s.agenda := rfl
@[simp] theorem State.setTeam_issue (s : State) (n : Nat) (x : Team) : (s.setTeam n x).issue = s.issue := rfl
@[simp] theorem State.setTeam_cur (s : State) (n : Nat) (x : Team) : (s.setTeam n x).cur = s.cur := rfl
@[simp] theorem State.setTeam_inCycle (s : State) (n : Nat) (x : Team) : (s.setTeam n x).inCycle = s.inCycle := rfl
@[simp] theorem State.setTeam_fresh (s : State) (n : Nat) (x : Team) : (s.setTeam n x).fresh = s.fresh := rfl
@[simp] theorem State.setTeam_get_core (s : State) (n m : Nat) (x : Team) : (s.setTeam n x).core m = s.core m := rfl
@[simp] theorem State.setTeam_get_group (s : State) (n m : Nat) (x : Team) : (s.setTeam n x).group? m = s.group? m := rfl
@[simp] theorem State.setTeam_get_die (s : State) (n m : Nat) (x : Team) : (s.setTeam n x).die m = s.die m := rfl
@[simp] theorem State.setTeam_get_ctx (s : State) (n m : Nat) (x : Team) : (s.setTeam n x).ctx m = s.ctx m := rfl
@[simp] theorem State.setTeam_get_world (s : State) (n m : Nat) (x : Team) : (s.setTeam n x).world m = s.world m := rfl
@[simp] theorem State.setTeam_get_queue (s : State) (n m : Nat) (x : Team) : (s.setTeam n x).queue m = s.queue m := rfl
@[simp] theorem State.setTeam_get_matrixEng (s : State) (n m : Nat) (x : Team) : (s.setTeam n x).matrixEng m = s.matrixEng m := rfl
@[simp] theorem State.setTeam_get_copyEngine (s : State) (n m : Nat) (x : Team) : (s.setTeam n x).copyEngine m = s.copyEngine m := rfl
@[simp] theorem State.setTeam_get_port (s : State) (n m : Nat) (x : Team) : (s.setTeam n x).port m = s.port m := rfl
@[simp] theorem State.setTeam_get_grid (s : State) (n m : Nat) (x : Team) : (s.setTeam n x).grid? m = s.grid? m := rfl
theorem State.setTeam_get (s : State) (n m : Nat) (x : Team) :
    (s.setTeam n x).team? m = if m = n then some x else s.team? m := smFind_smPut ..
@[simp] theorem State.setTeam_get_self (s : State) (n : Nat) (x : Team) : (s.setTeam n x).team? n = some x := by
  rw [State.setTeam_get, if_pos rfl]
theorem State.setTeam_get_ne (s : State) {n m : Nat} (x : Team) (h : m ≠ n) : (s.setTeam n x).team? m = s.team? m := by
  rw [State.setTeam_get, if_neg h]

/-! ## setGrid -/

@[simp] theorem State.setGrid_mem (s : State) (n : Nat) (x : Grid) : (s.setGrid n x).mem = s.mem := rfl
@[simp] theorem State.setGrid_l2dirty (s : State) (n : Nat) (x : Grid) : (s.setGrid n x).l2dirty = s.l2dirty := rfl
@[simp] theorem State.setGrid_l2home (s : State) (n : Nat) (x : Grid) : (s.setGrid n x).l2home = s.l2home := rfl
@[simp] theorem State.setGrid_l2copies (s : State) (n : Nat) (x : Grid) : (s.setGrid n x).l2copies = s.l2copies := rfl
@[simp] theorem State.setGrid_lineKeys (s : State) (n : Nat) (x : Grid) : (s.setGrid n x).lineKeys = s.lineKeys := rfl
@[simp] theorem State.setGrid_pageKeys (s : State) (n : Nat) (x : Grid) : (s.setGrid n x).pageKeys = s.pageKeys := rfl
@[simp] theorem State.setGrid_past (s : State) (n : Nat) (x : Grid) : (s.setGrid n x).past = s.past := rfl
@[simp] theorem State.setGrid_hostHalves (s : State) (n : Nat) (x : Grid) : (s.setGrid n x).hostHalves = s.hostHalves := rfl
@[simp] theorem State.setGrid_groups (s : State) (n : Nat) (x : Grid) : (s.setGrid n x).groups = s.groups := rfl
@[simp] theorem State.setGrid_teams (s : State) (n : Nat) (x : Grid) : (s.setGrid n x).teams = s.teams := rfl
@[simp] theorem State.setGrid_nextGid (s : State) (n : Nat) (x : Grid) : (s.setGrid n x).nextGid = s.nextGid := rfl
@[simp] theorem State.setGrid_nextTeamKey (s : State) (n : Nat) (x : Grid) : (s.setGrid n x).nextTeamKey = s.nextTeamKey := rfl
@[simp] theorem State.setGrid_nextGridKey (s : State) (n : Nat) (x : Grid) : (s.setGrid n x).nextGridKey = s.nextGridKey := rfl
@[simp] theorem State.setGrid_gridSerial (s : State) (n : Nat) (x : Grid) : (s.setGrid n x).gridSerial = s.gridSerial := rfl
@[simp] theorem State.setGrid_cores (s : State) (n : Nat) (x : Grid) : (s.setGrid n x).cores = s.cores := rfl
@[simp] theorem State.setGrid_clusterTlb (s : State) (n : Nat) (x : Grid) : (s.setGrid n x).clusterTlb = s.clusterTlb := rfl
@[simp] theorem State.setGrid_matrix (s : State) (n : Nat) (x : Grid) : (s.setGrid n x).matrix = s.matrix := rfl
@[simp] theorem State.setGrid_copyEng (s : State) (n : Nat) (x : Grid) : (s.setGrid n x).copyEng = s.copyEng := rfl
@[simp] theorem State.setGrid_tenures (s : State) (n : Nat) (x : Grid) : (s.setGrid n x).tenures = s.tenures := rfl
@[simp] theorem State.setGrid_tenureReqs (s : State) (n : Nat) (x : Grid) : (s.setGrid n x).tenureReqs = s.tenureReqs := rfl
@[simp] theorem State.setGrid_reservations (s : State) (n : Nat) (x : Grid) : (s.setGrid n x).reservations = s.reservations := rfl
@[simp] theorem State.setGrid_walks (s : State) (n : Nat) (x : Grid) : (s.setGrid n x).walks = s.walks := rfl
@[simp] theorem State.setGrid_unitTrs (s : State) (n : Nat) (x : Grid) : (s.setGrid n x).unitTrs = s.unitTrs := rfl
@[simp] theorem State.setGrid_events (s : State) (n : Nat) (x : Grid) : (s.setGrid n x).events = s.events := rfl
@[simp] theorem State.setGrid_bobbins (s : State) (n : Nat) (x : Grid) : (s.setGrid n x).bobbins = s.bobbins := rfl
@[simp] theorem State.setGrid_ctxs (s : State) (n : Nat) (x : Grid) : (s.setGrid n x).ctxs = s.ctxs := rfl
@[simp] theorem State.setGrid_queues (s : State) (n : Nat) (x : Grid) : (s.setGrid n x).queues = s.queues := rfl
@[simp] theorem State.setGrid_stateSet (s : State) (n : Nat) (x : Grid) : (s.setGrid n x).stateSet = s.stateSet := rfl
@[simp] theorem State.setGrid_quantumAt (s : State) (n : Nat) (x : Grid) : (s.setGrid n x).quantumAt = s.quantumAt := rfl
@[simp] theorem State.setGrid_feGrant (s : State) (n : Nat) (x : Grid) : (s.setGrid n x).feGrant = s.feGrant := rfl
@[simp] theorem State.setGrid_feAt (s : State) (n : Nat) (x : Grid) : (s.setGrid n x).feAt = s.feAt := rfl
@[simp] theorem State.setGrid_tryAt (s : State) (n : Nat) (x : Grid) : (s.setGrid n x).tryAt = s.tryAt := rfl
@[simp] theorem State.setGrid_retireDue (s : State) (n : Nat) (x : Grid) : (s.setGrid n x).retireDue = s.retireDue := rfl
@[simp] theorem State.setGrid_sparing (s : State) (n : Nat) (x : Grid) : (s.setGrid n x).sparing = s.sparing := rfl
@[simp] theorem State.setGrid_worlds (s : State) (n : Nat) (x : Grid) : (s.setGrid n x).worlds = s.worlds := rfl
@[simp] theorem State.setGrid_dies (s : State) (n : Nat) (x : Grid) : (s.setGrid n x).dies = s.dies := rfl
@[simp] theorem State.setGrid_ports (s : State) (n : Nat) (x : Grid) : (s.setGrid n x).ports = s.ports := rfl
@[simp] theorem State.setGrid_floods (s : State) (n : Nat) (x : Grid) : (s.setGrid n x).floods = s.floods := rfl
@[simp] theorem State.setGrid_host (s : State) (n : Nat) (x : Grid) : (s.setGrid n x).host = s.host := rfl
@[simp] theorem State.setGrid_spareRows (s : State) (n : Nat) (x : Grid) : (s.setGrid n x).spareRows = s.spareRows := rfl
@[simp] theorem State.setGrid_rowErrors (s : State) (n : Nat) (x : Grid) : (s.setGrid n x).rowErrors = s.rowErrors := rfl
@[simp] theorem State.setGrid_badFrames (s : State) (n : Nat) (x : Grid) : (s.setGrid n x).badFrames = s.badFrames := rfl
@[simp] theorem State.setGrid_nextId (s : State) (n : Nat) (x : Grid) : (s.setGrid n x).nextId = s.nextId := rfl
@[simp] theorem State.setGrid_agenda (s : State) (n : Nat) (x : Grid) : (s.setGrid n x).agenda = s.agenda := rfl
@[simp] theorem State.setGrid_issue (s : State) (n : Nat) (x : Grid) : (s.setGrid n x).issue = s.issue := rfl
@[simp] theorem State.setGrid_cur (s : State) (n : Nat) (x : Grid) : (s.setGrid n x).cur = s.cur := rfl
@[simp] theorem State.setGrid_inCycle (s : State) (n : Nat) (x : Grid) : (s.setGrid n x).inCycle = s.inCycle := rfl
@[simp] theorem State.setGrid_fresh (s : State) (n : Nat) (x : Grid) : (s.setGrid n x).fresh = s.fresh := rfl
@[simp] theorem State.setGrid_get_core (s : State) (n m : Nat) (x : Grid) : (s.setGrid n x).core m = s.core m := rfl
@[simp] theorem State.setGrid_get_group (s : State) (n m : Nat) (x : Grid) : (s.setGrid n x).group? m = s.group? m := rfl
@[simp] theorem State.setGrid_get_die (s : State) (n m : Nat) (x : Grid) : (s.setGrid n x).die m = s.die m := rfl
@[simp] theorem State.setGrid_get_ctx (s : State) (n m : Nat) (x : Grid) : (s.setGrid n x).ctx m = s.ctx m := rfl
@[simp] theorem State.setGrid_get_world (s : State) (n m : Nat) (x : Grid) : (s.setGrid n x).world m = s.world m := rfl
@[simp] theorem State.setGrid_get_queue (s : State) (n m : Nat) (x : Grid) : (s.setGrid n x).queue m = s.queue m := rfl
@[simp] theorem State.setGrid_get_matrixEng (s : State) (n m : Nat) (x : Grid) : (s.setGrid n x).matrixEng m = s.matrixEng m := rfl
@[simp] theorem State.setGrid_get_copyEngine (s : State) (n m : Nat) (x : Grid) : (s.setGrid n x).copyEngine m = s.copyEngine m := rfl
@[simp] theorem State.setGrid_get_port (s : State) (n m : Nat) (x : Grid) : (s.setGrid n x).port m = s.port m := rfl
@[simp] theorem State.setGrid_get_team (s : State) (n m : Nat) (x : Grid) : (s.setGrid n x).team? m = s.team? m := rfl
theorem State.setGrid_get (s : State) (n m : Nat) (x : Grid) :
    (s.setGrid n x).grid? m = if m = n then some x else s.grid? m := smFind_smPut ..
@[simp] theorem State.setGrid_get_self (s : State) (n : Nat) (x : Grid) : (s.setGrid n x).grid? n = some x := by
  rw [State.setGrid_get, if_pos rfl]
theorem State.setGrid_get_ne (s : State) {n m : Nat} (x : Grid) (h : m ≠ n) : (s.setGrid n x).grid? m = s.grid? m := by
  rw [State.setGrid_get, if_neg h]

/-! ## Reset -/

/-- Memory after reset has the canonical form. -/
theorem reset_mem_wf : State.reset.mem.wf = true := rfl

end Sys2Proof.Machine
end

