-- ==== Sys2Proof/Laws/Banks.lean ====
section
/-!
SUPPORT. The canonical form of memories through the operations over whole ranges and over the device's memory.
-/

namespace Sys2Proof.Machine

/-! ## The canonical form as an order -/

/-- A table is canonical when its keys rise strictly and none of its values is the default. -/
theorem smWf_iff {α : Type} [DecidableEq α] (d : α) (m : SMap α) :
    smWf d m = true ↔ m.Pairwise (fun a b => a.1 < b.1) ∧ ∀ e ∈ m, e.2 ≠ d := by
  induction m with
  | nil => simp [smWf]
  | cons e t ih =>
    obtain ⟨j, v⟩ := e
    cases t with
    | nil => simp [smWf]
    | cons f t =>
      obtain ⟨k, w⟩ := f
      simp only [smWf, Bool.and_eq_true, bne_iff_ne, ne_eq, decide_eq_true_eq] at ih ⊢
      rw [ih, List.pairwise_cons (a := (j, v))]
      simp only [List.mem_cons, forall_eq_or_imp]
      constructor
      · rintro ⟨⟨hv, hjk⟩, hp, hw, ht⟩
        exact ⟨⟨⟨hjk, fun e he => Nat.lt_trans hjk ((List.pairwise_cons.1 hp).1 e he)⟩, hp⟩, hv, hw, ht⟩
      · rintro ⟨⟨⟨hjk, _⟩, hp⟩, hv, hw, ht⟩
        exact ⟨⟨hv, hjk⟩, hp, hw, ht⟩

/-- A range of a table replaced by another table's entries, moved there. -/
theorem smWf_splice {α : Type} [DecidableEq α] {d : α} {old new : SMap α} (base n : Nat) (ho : smWf d old = true)
    (hn : smWf d new = true) (hb : ∀ e ∈ new, e.1 < n) :
    smWf d (old.filter (fun kv => kv.1 < base) ++ new.map (fun kv => (base + kv.1, kv.2))
      ++ old.filter (fun kv => base + n ≤ kv.1)) = true := by
  rw [smWf_iff] at ho hn ⊢
  refine ⟨?_, ?_⟩
  · rw [List.pairwise_append, List.pairwise_append, List.pairwise_map]
    refine ⟨⟨ho.1.filter _, hn.1.imp fun h => Nat.add_lt_add_left h base, ?_⟩, ho.1.filter _, ?_⟩
    · intro a ha b hb'
      simp only [List.mem_filter, decide_eq_true_eq, List.mem_map] at ha hb'
      obtain ⟨c, _, rfl⟩ := hb'
      simp only; omega
    · intro a ha b hb'
      simp only [List.mem_append, List.mem_filter, decide_eq_true_eq, List.mem_map] at ha hb'
      rcases ha with ha | ⟨c, hc, rfl⟩
      · omega
      · have := hb c hc; simp only; omega
  · intro e he
    simp only [List.mem_append, List.mem_filter, List.mem_map] at he
    rcases he with (he | ⟨c, hc, rfl⟩) | he
    · exact ho.2 e he.1
    · exact hn.2 c hc
    · exact ho.2 e he.1

/-! ## Operations over a bank -/

theorem bankSweep_wf {b : Bank} (places : List Nat) (h : b.wf = true) : (bankSweep b places).wf = true := by
  unfold bankSweep
  split
  · exact h
  · refine foldl_keeps (fun (b : Bank) => b.wf = true) _ (fun s a hs => ?_) places _ h
    split
    · exact bankMark_wf _ _ hs
    · exact hs

theorem bankSpoil_wf {b : Bank} (off n : Nat) (h : b.wf = true) : (bankSpoil b off n).wf = true :=
  foldl_keeps (fun (b : Bank) => b.wf = true) _ (fun _ _ hs => bankMark_wf _ _ hs) _ _ h

theorem bankClear_wf {b : Bank} (off n : Nat) (h : b.wf = true) : (bankClear b off n).wf = true := by
  simp only [Bank.wf, bankClear, Bool.and_eq_true] at h ⊢
  exact ⟨smWf_filter _ h.1, smWf_filter _ h.2⟩

theorem carve_wf {c : CoreSt} (sw : Nat) (h : c.scratch.wf = true) : (c.carve sw).scratch.wf = true := by
  unfold CoreSt.carve
  simp only
  split
  · simp only [Bank.wf, Bool.and_eq_true] at h ⊢
    exact ⟨smWf_filter _ h.1, smWf_filter _ h.2⟩
  · exact h

/-- A range of scratch takes contents that lie within it. -/
theorem layScratch_wf (s : State) (core base kib : Nat) {b : Bank} (hs : (s.core core).scratch.wf = true) (hb : b.wf = true)
    (h1 : ∀ e ∈ b.bytes, e.1 < 1024 * kib) (h2 : ∀ e ∈ b.poison, e.1 < 1024 * kib) :
    ((s.layScratch core base kib b).core core).scratch.wf = true := by
  unfold State.layScratch
  simp only [State.setCore_get_self]
  have hc := carve_wf (if kib = 0 then (s.core core).sw else max (s.core core).sw ((base + 1024 * kib + 65535) / 65536)) hs
  simp only [Bank.wf, Bool.and_eq_true] at hb hc ⊢
  exact ⟨smWf_splice base _ hc.1 hb.1 h1, smWf_splice base _ hc.2 hb.2 h2⟩

/-! ## The device's memory -/

theorem loseReservations_mem (s : State) (who : Option Nat) (lines : List Nat) : (s.loseReservations who lines).mem = s.mem := by
  unfold State.loseReservations; split <;> rfl

theorem writeBack_mem (s : State) (t : Tenure) : (s.writeBack t).mem = s.mem := by
  unfold State.writeBack; split <;> rfl

theorem modGroup_mem (s : State) (gid : Nat) (f : Group → Group) : (s.modGroup gid f).mem = s.mem := by
  unfold State.modGroup; split <;> rfl

theorem lineEnds_mem (s : State) (o : OutLine) : (s.lineEnds o).mem = s.mem := loseReservations_mem ..

theorem makeRoom_mem (s : State) (slice : Nat) : (s.makeRoom slice).mem = s.mem := by
  unfold State.makeRoom
  simp only
  split
  · rfl
  · split <;> rfl

theorem makeRooms_mem (s : State) (pas : List Nat) : (s.makeRooms pas).mem = s.mem := by
  unfold State.makeRooms
  split
  · rfl
  · exact foldl_keeps (fun (t : State) => t.mem = s.mem) _ (fun _ _ h => (makeRoom_mem ..).trans h) _ _ rfl

theorem fillL2_mem (s : State) (pas : List Nat) : (s.fillL2 pas).mem = s.mem := makeRooms_mem ..

theorem keepPast_mem (s : State) (ws : List WByte) : (s.keepPast ws).mem = s.mem := by
  unfold State.keepPast; split
  · split <;> rfl
  · rfl

theorem pruneCopies_mem (s : State) : s.pruneCopies.mem = s.mem := by
  unfold State.pruneCopies; split <;> rfl

/-- Bytes written at their homes are one write event of the device's memory. -/
theorem putMem_mem (s : State) (ws : List WByte) : (s.putMem ws).mem = bankWrite s.mem ws := makeRooms_mem ..

/-! ## The key of a line -/

/-- What another key makes of a line is one byte at each of its places. -/
theorem useLine_wf {s : State} (line slot : Nat) (h : s.mem.wf = true) : (s.useLine line slot).mem.wf = true := by
  unfold State.useLine
  split
  · exact h
  · split
    · exact h
    · simp only
      generalize List.zipIdx _ = l
      exact foldl_keeps (fun (b : Bank) => b.wf = true) _ (fun _ _ hs => bankPut_wf _ _ hs) l _ h

theorem openLine_wf {s : State} (line : Nat) (h : s.mem.wf = true) : (s.openLine line).mem.wf = true := by
  unfold State.openLine
  split
  · exact useLine_wf _ _ h
  · exact h

theorem underLeaf_wf {s : State} (o : OutLine) (h : s.mem.wf = true) : (s.underLeaf o).mem.wf = true := by
  unfold State.underLeaf
  split
  · exact h
  · split
    · exact h
    · split
      · exact h
      · split
        · exact useLine_wf _ _ h
        · exact h

theorem keyPage_mem (s : State) (p : PageKey) : (s.keyPage p).mem = s.mem := by
  unfold State.keyPage; split <;> rfl

/-! ## Lines that are performed -/

theorem performLine_wf {s : State} (o : OutLine) (h : s.mem.wf = true) : (s.performLine o).mem.wf = true := by
  unfold State.performLine
  simp only [modGroup_mem, putMem_mem]
  exact bankWrite_wf _ (underLeaf_wf _ (by rw [lineEnds_mem]; exact h))

theorem performLines_wf {s : State} (os : List OutLine) (h : s.mem.wf = true) : (os.foldl State.performLine s).mem.wf = true :=
  foldl_keeps (fun (s : State) => s.mem.wf = true) _ (fun _ o hs => performLine_wf o hs) os s h

theorem recall_wf {s : State} (t : Tenure) (h : s.mem.wf = true) : (s.recall t).mem.wf = true := by
  unfold State.recall
  simp only [writeBack_mem]
  split
  · exact h
  · exact performLines_wf _ h

/-- A recall of tenures, with those that follow from it. -/
theorem recallAll_wf {s : State} (ts : List Tenure) (h : s.mem.wf = true) : (s.recallAll ts).mem.wf = true := by
  have hf := foldl_keeps (fun (s : State) => s.mem.wf = true) (fun s (t : Tenure) => if t.write then s.recall t else s)
    (fun s t hs => by
      show ((if t.write then s.recall t else s : State).mem.wf = true)
      split
      · exact recall_wf t hs
      · exact hs) (s.recalled ts).reverse s h
  unfold State.recallAll
  simp only
  split
  · exact hf
  · exact hf

theorem intrude_wf {s : State} (who : Option Nat) (pas : List Nat) (write : Bool) (h : s.mem.wf = true) :
    (s.intrude who pas write).mem.wf = true := by
  unfold State.intrude
  simp only
  split
  · exact h
  · rw [pruneCopies_mem]; exact recallAll_wf _ h

/-- A write event to the device's memory keeps its canonical form. -/
theorem memWrite_wf {s : State} (who : Option Nat) (ws : List WByte) (h : s.mem.wf = true) :
    (s.memWrite who ws).mem.wf = true := by
  unfold State.memWrite
  simp only [putMem_mem]
  refine bankWrite_wf _ ?_
  rw [loseReservations_mem]
  exact intrude_wf _ _ _ h

theorem physWrite_wf {s : State} (pa : Nat) (bs : List Byte) (h : s.mem.wf = true) : (s.physWrite pa bs).mem.wf = true :=
  memWrite_wf _ _ (openLine_wf _ h)

theorem copyWrite_wf {s : State} (c : CopyCmd) (sp : Space) (ws : List WByte) (h : s.mem.wf = true) :
    (s.copyWrite c sp ws).mem.wf = true := by
  unfold State.copyWrite
  split
  · exact memWrite_wf _ _ (by rw [loseReservations_mem]; exact h)
  · exact h

theorem copySweep_wf {s : State} (c : CopyCmd) (sp : Space) (places : List Nat) (h : s.mem.wf = true) :
    (s.copySweep c sp places).mem.wf = true := by
  unfold State.copySweep
  split
  · exact h
  · split
    · exact bankSweep_wf _ h
    · exact h

theorem ackLine_wf {s : State} (o : OutLine) (h : s.mem.wf = true) : (s.ackLine o).mem.wf = true := by
  have hw : ((if o.space == .g then ((s.lineEnds o).underLeaf o).memWrite (some o.gid) (lineBytes o.line o.bytes) else s) : State).mem.wf = true := by
    split
    · exact memWrite_wf _ _ (underLeaf_wf _ (by rw [lineEnds_mem]; exact h))
    · exact h
  unfold State.ackLine
  simp only
  split
  · exact hw
  · rw [modGroup_mem]; exact hw

theorem drainLines_wf {s : State} (core : Nat) (p : OutLine → Bool) (h : s.mem.wf = true) :
    (s.drainLines core p).mem.wf = true := by
  unfold State.drainLines
  simp only
  split
  · exact h
  · exact foldl_keeps (fun (s : State) => s.mem.wf = true) _ (fun _ o hs => ackLine_wf o hs) _ _ h

end Sys2Proof.Machine
end

