-- ==== Sys2Proof/Laws/Registers.lean ====
section
/-!
SUPPORT. Registers of a group: reading after writing.
-/

namespace Sys2Proof.Machine

/-! ## Lanes -/

theorem lanes64_getD {α : Type} (f : Nat → α) (d : α) {l : Nat} (h : l < 64) : (lanes64 f).getD l d = f l := by
  simp [lanes64, List.getD_eq_getElem?_getD, List.getElem?_range h]

theorem inMask_lt {m : Mask} {l : Nat} (h : inMask m l = true) : l < 64 := by
  by_contra hl
  simp [inMask, BitVec.getLsbD_of_ge m l (by omega)] at h

@[simp] theorem inMask_zero (l : Nat) : inMask 0#64 l = false := by simp [inMask]

@[simp] theorem inMask_and (a b : Mask) (l : Nat) : inMask (a &&& b) l = (inMask a l && inMask b l) := by simp [inMask]

@[simp] theorem inMask_or (a b : Mask) (l : Nat) : inMask (a ||| b) l = (inMask a l || inMask b l) := by simp [inMask]

theorem inMask_not (a : Mask) {l : Nat} (h : l < 64) : inMask (~~~a) l = !inMask a l := by simp [inMask, h]

theorem and_not_zero (a : Mask) : a &&& ~~~(0 : Mask) = a := by
  rw [show ~~~(0 : Mask) = BitVec.allOnes 64 from rfl]; exact BitVec.and_allOnes

/-! ## V registers -/

/-- A lane of a V register (R129). -/
def vRead (v : List (List W32)) (r l : Nat) : W32 := (v.getD r []).getD l 0

theorem rdV_eq (g : Group) (r l : Nat) : g.rdV r l = vRead g.v r l := rfl

/-- A lane of a V register after a write (R117). -/
theorem vRead_vWrite (v : List (List W32)) (r q : Nat) {l : Nat} (m : Mask) (vals : List W32) (h : l < 64) :
    vRead (vWrite v r m vals) q l = if q = r ∧ inMask m l = true then vals.getD l 0 else vRead v q l := by
  unfold vWrite
  by_cases hm : m = (0 : Mask)
  · subst hm; simp
  rw [if_neg hm]
  simp only [vRead]
  rw [setAt_getD]
  by_cases hq : q = r
  · subst hq
    rw [if_pos rfl, lanes64_getD _ _ h]
    by_cases hi : inMask m l = true <;> simp [hi]
  · simp [hq]

/-- A register that no write names, or a lane outside the mask, keeps its value. -/
theorem vRead_writes_other (m : Mask) (ws : List (Nat × List W32)) (v : List (List W32)) (q : Nat) {l : Nat} (hl : l < 64)
    (h : (∀ w ∈ ws, w.1 ≠ q) ∨ inMask m l = false) :
    vRead (ws.foldl (fun v w => vWrite v w.1 m w.2) v) q l = vRead v q l := by
  induction ws generalizing v with
  | nil => rfl
  | cons w t ih =>
    rw [List.foldl_cons, ih, vRead_vWrite _ _ _ _ _ hl, if_neg]
    · rintro ⟨rfl, hm⟩
      rcases h with h | h
      · exact h w (by simp) rfl
      · simp [h] at hm
    · rcases h with h | h
      · exact .inl fun w hw => h w (by simp [hw])
      · exact .inr h

/-! ## Predicates -/

theorem pWrite_getD (p : List Mask) {n : Nat} (k : Nat) (m v : Mask) (h : n ≠ 7) :
    (pWrite p n m v).getD k 0 = if k = n then (p.getD n 0 &&& ~~~m) ||| (v &&& m) else p.getD k 0 := by
  unfold pWrite; rw [if_neg h]; exact setAt_getD ..

@[simp] theorem pWrite_seven (p : List Mask) (m v : Mask) : pWrite p 7 m v = p := rfl

theorem pWrite_other (p : List Mask) {n k : Nat} (m v : Mask) (h : k ≠ n) : (pWrite p n m v).getD k 0 = p.getD k 0 := by
  by_cases hn : n = 7
  · subst hn; rfl
  · rw [pWrite_getD _ _ _ _ hn, if_neg h]

/-! ## The masks that lists of lanes make -/

theorem maskOf_spec (f : Nat → Bool) {l : Nat} (h : l < 64) : inMask (maskOf f) l = f l := by
  have key : ∀ n ≤ 64, ∀ l < 64,
      ((List.range n).foldl (fun k i => if f i then k + 2 ^ i else k) 0).testBit l = (decide (l < n) && f l)
        ∧ (List.range n).foldl (fun k i => if f i then k + 2 ^ i else k) 0 < 2 ^ n := by
    intro n
    induction n with
    | zero => intro _ l _; simp
    | succ n ih =>
      intro hn l hl
      obtain ⟨hb, hlt⟩ := ih (by omega) l hl
      rw [List.range_succ, List.foldl_append]
      simp only [List.foldl_cons, List.foldl_nil]
      by_cases hf : f n = true
      · rw [if_pos hf]
        constructor
        · rw [Nat.add_comm]
          by_cases hln : l = n
          · subst hln; rw [Nat.testBit_two_pow_add_eq, hb]; simp [hf]
          · by_cases hlt2 : l < n
            · rw [Nat.testBit_two_pow_add_gt hlt2, hb]; simp [hlt2]; omega
            · have hnl : n < l := by omega
              rw [Nat.testBit_lt_two_pow]
              · simp; omega
              · calc _ < 2 ^ n + 2 ^ n := by omega
                  _ = 2 ^ (n + 1) := by rw [Nat.pow_succ]; omega
                  _ ≤ 2 ^ l := Nat.pow_le_pow_right (by omega) (by omega)
        · rw [Nat.pow_succ]; omega
      · rw [if_neg hf]
        constructor
        · rw [hb]
          by_cases hln : l = n
          · subst hln; simp [hf]
          · have : (l < n + 1) = (l < n) := by simp; omega
            simp [this]
        · rw [Nat.pow_succ]; omega
  unfold maskOf inMask
  rw [BitVec.getLsbD_ofNat]
  simp [h, (key 64 (by omega) l h).1]

theorem lanesOf_mem {m : Mask} {l : Nat} : l ∈ lanesOf m ↔ inMask m l = true := by
  simp only [lanesOf, List.mem_filter, List.mem_range, and_iff_right_iff_imp]
  exact inMask_lt

end Sys2Proof.Machine
end

