-- ==== Sys2Proof/Laws/Issue.lean ====
section
/-!
SUPPORT. What each shared frame of an instruction's issue can do: the checks, the retirement, the register-only
instructions, the instructions with effects of their own, and the boundaries.
-/

namespace Sys2Proof.Machine

/-! ## The checks -/

theorem prepare_ready {x : IC} {f : Foot} (h : x.ready f) : x.prepare f true = .go (x.tracked f) := by
  obtain ⟨h1, h2, h3⟩ := h
  unfold IC.prepare
  simp only [h1, h2, h3]
  rfl

/-- A register outside the allotment faults (R103). -/
theorem prepare_bounds {x : IC} {f : Foot} {r : Nat} (legal : Bool) (h : f.outOfBounds x.g.allot = some r) :
    x.prepare f legal = .stop (x.fault 0x02 r x.g.allot) := by
  unfold IC.prepare; simp only [h]

/-- A write to a live-in register faults (R46). -/
theorem prepare_illegal {x : IC} {f : Foot} {e : Illegal} (h1 : f.outOfBounds x.g.allot = none)
    (h2 : x.g.busy f = false) (h3 : (x.g.track.reads f x.act).firstIllegal f x.act = some e) :
    x.prepare f true = .stop (x.fault 0x04 e.d0 e.d1) := by
  unfold IC.prepare
  simp only [h1, h2, h3]
  rfl

/-- What an issue frame reads: the split that is issuing, its group and its active lanes. -/
theorem ic_eq {s : State} {gd : Guard} {x : IC} (h : s.ic gd = some x) :
    x.s = s ∧ s.cur = some x.cu ∧ s.group? x.cu.gid = some x.g ∧ x.act = x.cu.lanes &&& x.g.live &&& x.g.guardMask gd := by
  unfold State.ic at h
  split at h
  · cases h
  · next cu hc =>
    split at h
    · cases h
    · next g hg =>
      cases h
      exact ⟨rfl, hc, hg, rfl⟩

/-! ## Retirement -/

@[simp] theorem killLanes_zero (s : State) (gid : Nat) : s.killLanes gid 0 = s := rfl

theorem smFind_map {α : Type} (f : Nat → α → α) (m : SMap α) (k : Nat) :
    smFind (smMap f m) k = (smFind m k).map (f k) := by
  unfold smMap
  induction m with
  | nil => rfl
  | cons e t ih =>
    obtain ⟨j, v⟩ := e
    simp only [List.map_cons, smFind]
    split
    · next h => subst h; rfl
    · exact ih

/-- A group with the ages of its splits changed. -/
def Group.withAges (g : Group) (a : List SplitAge) : Group := { g with ages := a }

/-- The release of those that yielded changes ages only. -/
theorem releaseYields_eq (s : State) (core gid split : Nat) :
    s.releaseYields core gid split = { s with groups := (s.releaseYields core gid split).groups } := by
  unfold State.releaseYields; split <;> rfl

theorem releaseYields_group (s : State) (core gid split n : Nat) {g : Group} (h : s.group? n = some g) :
    ∃ a, (s.releaseYields core gid split).group? n = some (g.withAges a) := by
  unfold State.releaseYields
  split
  · exact ⟨g.ages, h⟩
  · rw [State.group?] at h
    simp only [State.group?]
    rw [smFind_map, h]
    simp only [Option.map_some]
    split
    · exact ⟨_, rfl⟩
    · exact ⟨g.ages, rfl⟩

/-- The control state of a group, with the waits and ages of its splits and what has moved in the cycle. -/
def Group.withControl (g : Group) (q : List Quad) (a : List SplitAge) (sl : List Sleeper) (mv : List Nat) : Group :=
  { g with quads := q, ages := a, sleepers := sl, moved := mv }

theorem stepOver_eq (g : Group) (cu : Issuing) (next : Nat → BitVec 57) :
    ∃ q a sl mv, g.stepOver cu next = g.withControl q a sl mv := by
  unfold Group.stepOver Group.goOn Group.noteMoved
  simp only
  split <;> exact ⟨_, _, _, _, rfl⟩

/-- The end of a plain instruction: nothing but groups changes, the issuing group goes on, and other groups change in
the ages of their splits alone. -/
theorem retireTo_spec (x : IC) (g : Group) (next : Nat → BitVec 57) :
    ∃ t, x.retireTo g 0 next = .next t
      ∧ t = { x.s with groups := t.groups }
      ∧ (∃ q a sl mv, t.group? x.cu.gid = some (g.withControl q a sl mv))
      ∧ ∀ n h, n ≠ x.cu.gid → x.s.group? n = some h → ∃ a, t.group? n = some (h.withAges a) := by
  refine ⟨_, rfl, ?_, ?_, ?_⟩
  · rw [killLanes_zero, releaseYields_eq]; rfl
  · rw [killLanes_zero]
    obtain ⟨a, ha⟩ := releaseYields_group (x.s.setGroup x.cu.gid (g.stepOver x.cu next)) x.g.core x.cu.gid x.cu.split x.cu.gid
      (State.setGroup_get_self ..)
    obtain ⟨q, a', sl, mv, hq⟩ := stepOver_eq g x.cu next
    exact ⟨q, a, sl, mv, by rw [ha, hq]; rfl⟩
  · intro n h hn hs
    rw [killLanes_zero]
    exact releaseYields_group _ _ _ _ _ (by rw [State.setGroup_get_ne _ _ hn]; exact hs)

/-! ## Register-only instructions -/

/-- With no lane dying, an instruction's effects are what its meaning makes of its operands. -/
theorem effects_alive {x : IC} {eff : IC → Ops → Eff} {o : Ops} {f : Foot} (hd : (eff x o).die = 0)
    (hp : x.g.poisonedLanes f.rv x.act = 0) : x.effects eff o f = eff x o := by
  have h : (eff x o).die ||| x.g.poisonedLanes f.rv x.act = 0 := by rw [hd, hp]; rfl
  unfold IC.effects IC.dying
  simp only [h, if_true]
  generalize eff x o = e at hd
  cases e; simp_all

/-- The issue of a register-only instruction that passes every check and reads no poison: the group commits its effects,
and nothing else changes but the control state and the ages of splits. -/
theorem issueAlu_spec {op : Op} {len : Len} {eff : IC → Ops → Eff} {o : Ops} {s : State} {x : IC}
    (hx : s.ic o.g = some x) (hr : x.ready (x.g.foot op len o)) (hd : (eff x o).die = 0)
    (hp : x.g.poisonedLanes (x.g.foot op len o).rv x.act = 0) :
    ∃ t, issueAlu op len eff o s = .next t
      ∧ t = { s with groups := t.groups }
      ∧ (∃ q a sl mv, t.group? x.cu.gid = some (((x.tracked (x.g.foot op len o)).commit x.act (eff x o)).withControl q a sl mv))
      ∧ ∀ n h, n ≠ x.cu.gid → s.group? n = some h → ∃ a, t.group? n = some (h.withAges a) := by
  obtain ⟨hs, -, -, -⟩ := ic_eq hx
  have h : issueAlu op len eff o s = x.retireTo ((x.tracked (x.g.foot op len o)).commit x.act (eff x o)) 0 fun _ => x.nextPc := by
    unfold issueAlu
    simp only [hx, prepare_ready hr, effects_alive hd hp, hd]
    rfl
  rw [h, ← hs]
  exact retireTo_spec ..

/-- The issue of an instruction with effects of its own that passes every check. -/
theorem issueWith_ready {op : Op} {len : Len} {act : IC → Ops → Foot → Group → Out} {o : Ops} {s : State} {x : IC}
    (hx : s.ic o.g = some x) (hr : x.ready (x.g.foot op len o)) :
    issueWith op len act o s = act x o (x.g.foot op len o) (x.tracked (x.g.foot op len o)) := by
  unfold issueWith issueFoot
  simp only [hx, prepare_ready hr]

/-! ## Every frame faults, waits or goes on in the same way -/

theorem issueFoot_bounds {foot : IC → Foot} {act : IC → Ops → Foot → Group → Out} {o : Ops} {s : State} {x : IC} {r : Nat}
    (hx : s.ic o.g = some x) (h : (foot x).outOfBounds x.g.allot = some r) :
    issueFoot foot act o s = x.fault 0x02 r x.g.allot := by
  unfold issueFoot
  simp only [hx, prepare_bounds true h]

theorem issueAlu_bounds {op : Op} {len : Len} {eff : IC → Ops → Eff} {o : Ops} {s : State} {x : IC} {r : Nat}
    (hx : s.ic o.g = some x) (h : (x.g.foot op len o).outOfBounds x.g.allot = some r) :
    issueAlu op len eff o s = x.fault 0x02 r x.g.allot := by
  unfold issueAlu
  simp only [hx, prepare_bounds true h]

theorem issueFoot_illegal {foot : IC → Foot} {act : IC → Ops → Foot → Group → Out} {o : Ops} {s : State} {x : IC}
    {e : Illegal} (hx : s.ic o.g = some x) (h1 : (foot x).outOfBounds x.g.allot = none)
    (h2 : x.g.busy (foot x) = false) (h3 : (x.g.track.reads (foot x) x.act).firstIllegal (foot x) x.act = some e) :
    issueFoot foot act o s = x.fault 0x04 e.d0 e.d1 := by
  unfold issueFoot
  simp only [hx, prepare_illegal h1 h2 h3]

theorem issueAlu_illegal {op : Op} {len : Len} {eff : IC → Ops → Eff} {o : Ops} {s : State} {x : IC} {e : Illegal}
    (hx : s.ic o.g = some x) (h1 : (x.g.foot op len o).outOfBounds x.g.allot = none)
    (h2 : x.g.busy (x.g.foot op len o) = false)
    (h3 : (x.g.track.reads (x.g.foot op len o) x.act).firstIllegal (x.g.foot op len o) x.act = some e) :
    issueAlu op len eff o s = x.fault 0x04 e.d0 e.d1 := by
  unfold issueAlu
  simp only [hx, prepare_illegal h1 h2 h3]

/-! ## Faults -/

/-- The raising of a fault halts the group, adds a record to its context's stop faults, and changes nothing else. -/
theorem raiseFault_spec (s : State) (gid kind : Nat) (d0 d1 : W64) (lanes : Mask) (pc : BitVec 57) {g : Group}
    (h : s.group? gid = some g) :
    s.raiseFault gid kind d0 d1 lanes pc
      = (s.setCtx g.ctx { s.ctx g.ctx with
            stopFaults := (s.ctx g.ctx).stopFaults ++ [g.stopRec s kind d0 d1 lanes pc] }).setGroup gid
          { g with status := .halted } := by
  unfold State.raiseFault; simp only [h]

/-! ## Boundaries -/

/-- The issue of a boundary whose waiting lanes have fused, whose registers are within bounds and not busy, for which CNT.LD has
room, and whose region closes: what its own effect makes of it. -/
theorem issueBoundary_acts {op : Op} {len : Len} {act : IC → Ops → Act} {o : Ops} {s : State} {x : IC} {g1 : Group}
    (hx : s.ic o.g = some x) (hf : x.cu.fused = true) (hb : (x.g.foot op len o).outOfBounds x.g.allot = none)
    (hs : x.g.busy (x.g.foot op len o) = false) (hp : x.g.poisonedLanes (x.g.foot op len o).rv x.act = 0)
    (hl : (ldBoundary op && decide (63 ≤ x.g.cntLd)) = false)
    (hg : (s.close x.cu.gid).group? x.cu.gid = some g1) (hc : g1.closed = true) :
    issueBoundary op len act o s = match act { x with s := s.close x.cu.gid, g := g1 } o with
      | .passed t next => .next (t.passAndOpen x.cu.gid x.cu.pc next)
      | .wait t => .next t
      | .held t => .next t
      | .stop t => .next t := by
  obtain ⟨hs', -, -, -⟩ := ic_eq hx
  have hgo : x.prepare (x.g.foot op len o) false = .go x.g := by
    unfold IC.prepare; simp only [hb, hs]; rfl
  unfold issueBoundary
  simp only [hx, hf, Bool.not_true, hgo, hl, hs', hg, hc, hp, and_not_zero, killLanes_zero]
  rfl

end Sys2Proof.Machine
end

