-- ==== Sys2Proof/Laws/Results.lean ====
section
/-!
SUPPORT. Results: what a destination reads as after an instruction has committed its effects.
-/

namespace Sys2Proof.Machine

/-- A pair holds a 64-bit value as its two halves (R5). -/
theorem halves_append (v : W64) : (v.extractLsb' 32 32 ++ v.setWidth 32 : W64) = v := by
  apply BitVec.eq_of_getLsbD_eq
  intro i hi
  rw [BitVec.getLsbD_append]
  split
  · next h => simp [h]
  · next h => rw [BitVec.getLsbD_extractLsb', show 32 + (i - 32) = i by omega]; simp; omega

/-- A committed result as a destination reads it, in the lanes that the result is for (R117, R131, R133). -/
theorem dest_reads (x : IC) (tr : Group) (htr : tr.v = x.g.v ∧ tr.s = x.g.s ∧ tr.x = x.g.x) (o : Ops) (w sg : Bool) (f : Nat → W64) (e : Eff) (q : List Quad) (a : List SplitAge)
    (sl : List Sleeper) (mv : List Nat) (l : Nat) (he : e.v = (x.dest o w sg f).v ∧ e.s = (x.dest o w sg f).s ∧ e.x = (x.dest o w sg f).x) (hd : e.die = 0)
   (hl : resultLane x.act o.d l) :
   ((tr.commit x.act e).withControl q a sl mv).reads (x.g.opV o.d) o.d w l = heldAs o.d w sg (f l) := by
  obtain ⟨h1, h2, h3⟩ := he
  unfold Group.reads heldAs
  cases hod : o.d with
  | v fld =>
    rw [hod] at hl
    simp only [resultLane] at hl
    have hl6 := inMask_lt hl
    have hv : ((tr.commit x.act e).withControl q a sl mv).v = e.v.foldl (fun v w => vWrite v w.1 x.act w.2) x.g.v := by
      simp only [Group.withControl, Group.commit, hd, and_not_zero, htr]
    cases w with
    | false =>
      simp only [Group.opV, rdV_eq, hv, h1, IC.dest, hod]
      simp only [Bool.false_eq_true, if_false, List.foldl_cons, List.foldl_nil]
      rw [vRead_vWrite _ _ _ _ _ hl6, if_pos ⟨rfl, hl⟩]
      simp [lanes64, List.getD_eq_getElem?_getD, List.getElem?_range hl6]
    | true =>
      simp only [Group.opV, Group.rdPair, rdV_eq, hv, h1, IC.dest, hod]
      simp only [if_true, List.foldl_cons, List.foldl_nil]
      rw [vRead_vWrite _ _ _ _ _ hl6, if_pos ⟨rfl, hl⟩, vRead_vWrite _ _ _ _ _ hl6, if_neg (by omega), vRead_vWrite _ _ _ _ _ hl6, if_pos ⟨rfl, hl⟩]
      simp [lanes64, List.getD_eq_getElem?_getD, List.getElem?_range hl6]
      exact halves_append (f l)
  | s n =>
    rw [hod] at hl; simp only [resultLane] at hl; subst hl
    simp only [Group.withControl, Group.commit, h2, IC.dest, hod, extS, List.foldl_cons, List.foldl_nil]
    rw [setAt_getD_self]
  | x n => 
    rw [hod] at hl; simp only [resultLane] at hl; subst hl
    simp only [Group.withControl, Group.commit, h3, IC.dest, hod, List.foldl_cons, List.foldl_nil]
    rw [setAt_getD_self]
  | _ => rfl

end Sys2Proof.Machine
end

