-- ==== Sys2Proof/Tests/Slice0.lean ====
section
/-!
SUPPORT. Tests: terms that are no words, a word of each form written out from the encoding tables of spec/, one-step results
worked by hand from the rules or given as worked examples of spec/, and a witness for the hypotheses of each statement.
-/

namespace Sys2Proof.Tests

open Sys2Proof Sys2Proof.Machine

set_option maxRecDepth 20000
set_option Elab.async false

/-! ## Terms that stand for no word (R101 to R106) -/

def v (n : Nat) : Opd := .v (.dir (BitVec.ofNat 7 n))
def sr (n : Nat) : Opd := .s (BitVec.ofNat 6 n)
def pr (n : Nat) : Opd := .p (BitVec.ofNat 3 n)
def kr (n : Nat) : Opd := .k (BitVec.ofNat 4 n)
def no : Opd := .none

/-- Operands with no guard and no immediate. -/
def ops (d a b c : Opd) (m : Nat) : Ops := ⟨Guard.none, d, a, b, c, BitVec.ofNat 16 m, 0⟩

/-- A well-formed instruction, and the same with one field that its entry does not allow, for each check. -/
def illFormed : List Instr :=
  [.iadd (ops (v 8) (sr 4) (v 12) no 0),                                     -- an S operand with its kind bit clear
   .iadd (ops (v 8) (v 3) (v 12) no 0x0400),                                 -- a 64-bit source at an odd register
   .iadd { ops (v 8) (v 4) (v 12) no 0 with imm := 1 },                      -- an immediate in a 64-bit form
   .iaddImm { ops (v 8) (v 4) no no 0 with imm := 0x100000000 },             -- 33 bits in a 96-bit form
   .ld { ops (v 8) (v 4) no no 0 with imm := 0x8000 },                       -- an offset that is not sign-extended
   .nop (ops no no no no 1),                                                 -- a NOP that is not the NOP term
   .iadd (ops (v 8) (v 4) (v 12) no 1),                                      -- a reserved MOD bit
   .iadd { ops (sr 8) (sr 4) (sr 12) no 0xE000 with g := ⟨1, false⟩ },       -- a guard on a scalar form
   .iadd (ops (v 8) (v 4) (v 12) (v 1) 0),                                   -- an operand in a field that the entry has not
   .dieReset 0]                                                                -- an event

theorem test_ill_formed_terms_are_refused : illFormed.all (fun i => !i.wellFormed) = true := by decide

/-- The well-formed neighbours of those terms. -/
def wellFormedNeighbours : List Instr :=
  [.iadd (ops (v 8) (v 4) (v 12) no 0), .iadd (ops (v 8) (v 4) (v 12) no 0x0400), .iaddImm { ops (v 8) (v 4) no no 0 with imm := 1 },
   .ld { ops (v 8) (v 4) no no 0 with imm := 0xFFFF8000 }, .nop (ops no no no no 0), .iadd (ops (sr 8) (sr 4) (sr 12) no 0xE000)]

theorem test_their_neighbours_are_words : wellFormedNeighbours.all Instr.wellFormed = true := by decide

def h0 : Half := ⟨.fmul, ops (v 8) (v 9) (v 10) no 0⟩
def h1 : Half := ⟨.iadd, ops (v 20) (v 23) (v 24) no 0⟩

/-- Pairs that break one of R106's rules each. -/
def illPairs : List (Half × Half) :=
  [(h1, h1),                                                                 -- both of class 0
   (⟨.rng, ops (v 8) no no no 0⟩, h1),                                       -- an operation kept out of pairs
   (⟨.fmul, ops (v 8) (sr 9) (v 10) no 0x4000⟩, h1),                         -- a scalar source
   (⟨.fmul, ops (v 8) (.v (.idx 0 9)) (v 10) no 0⟩, h1),                     -- an indexed register
   (⟨.fmul, ops (v 8) (v 23) (v 24) no 0⟩, h1),                              -- two shared source registers
   (⟨.fmul, ops (v 8) (v 9) (v 11) no 0⟩, h1),                               -- sources 11 and 23 in one bank
   (⟨.fmul, ops (v 20) (v 9) (v 10) no 0⟩, h1),                              -- one register written by both
   (h0, ⟨.mov, ops (.x 1) (v 9) no no 0x1000⟩),                              -- a MOV half with an X register
   (⟨.ld, ops (v 8) (v 9) no no 0⟩, h1)]                                     -- an operation of another class

theorem test_ill_pairs_are_refused : illPairs.all (fun p => !(Instr.pairWord p.1 p.2).wellFormed) = true := by decide
theorem test_a_pair_is_a_word : (Instr.pairWord h0 h1).wellFormed = true := by decide

/-! ## A word of each form (R99, R100, R108, and the encoding tables of each class) -/

/-- A word written out field by field: opcode, LEN, the fields D, A, B and C, MOD and the immediate; no guard is GI 7. And
what it stands for. -/
structure Written where
  op : Nat
  len : Nat
  d : Nat
  a : Nat
  b : Nat
  c : Nat
  m : Nat
  imm : Nat
  con : Ops → Instr
  D : Opd
  A : Opd
  B : Opd
  C : Opd

def Written.word (w : Written) : Nat :=
  w.len + w.op * 2 ^ 2 + 7 * 2 ^ 12 + w.d * 2 ^ 16 + w.a * 2 ^ 24 + w.b * 2 ^ 32 + w.c * 2 ^ 40 + w.m * 2 ^ 48 + w.imm * 2 ^ 64

def Written.instr (w : Written) : Instr := w.con { ops w.D w.A w.B w.C w.m with imm := BitVec.ofNat 64 w.imm }

/-- The word decodes to what it stands for, and is its encoding. -/
def Written.right (w : Written) : Bool :=
  decodeWord w.word == some w.instr && (w.con (ops no no no no 0) == Instr.nop Ops.nop || w.con (ops no no no no 0) == Instr.nop96 Ops.nop
    || w.con (ops no no no no 0) == Instr.nop128 Ops.nop || encode w.instr == w.word)

def words0a : List Written := [
  ⟨0x001, 0, 4, 8, 0, 0, 0, 0, .mov, v 4, v 8, no, no⟩,
  ⟨0x002, 1, 4, 0, 0, 0, 0, 9, .movi, v 4, no, no, no⟩,
  ⟨0x003, 2, 4, 0, 0, 0, 0, 9, .movw, v 4, no, no, no⟩,
  ⟨0x004, 0, 4, 8, 12, 0, 0, 0, .iadd, v 4, v 8, v 12, no⟩,
  ⟨0x004, 1, 4, 8, 0, 0, 0, 9, .iaddImm, v 4, v 8, no, no⟩,
  ⟨0x005, 0, 4, 8, 12, 0, 0, 0, .isub, v 4, v 8, v 12, no⟩,
  ⟨0x005, 1, 4, 8, 0, 0, 0, 9, .isubImm, v 4, v 8, no, no⟩,
  ⟨0x006, 0, 4, 8, 12, 5, 0, 0, .iaddc, v 4, v 8, v 12, pr 5⟩,
  ⟨0x006, 1, 4, 8, 0, 5, 0, 9, .iaddcImm, v 4, v 8, no, pr 5⟩,
  ⟨0x007, 0, 4, 8, 12, 5, 0, 0, .isubb, v 4, v 8, v 12, pr 5⟩,
  ⟨0x007, 1, 4, 8, 0, 5, 0, 9, .isubbImm, v 4, v 8, no, pr 5⟩,
  ⟨0x008, 0, 4, 8, 12, 0, 0, 0, .iadds, v 4, v 8, v 12, no⟩,
  ⟨0x008, 1, 4, 8, 0, 0, 0, 9, .iaddsImm, v 4, v 8, no, no⟩,
  ⟨0x009, 0, 4, 8, 12, 0, 0, 0, .imul, v 4, v 8, v 12, no⟩,
  ⟨0x009, 1, 4, 8, 0, 0, 0, 9, .imulImm, v 4, v 8, no, no⟩,
  ⟨0x00A, 0, 4, 8, 12, 0, 0, 0, .imulh, v 4, v 8, v 12, no⟩,
  ⟨0x00A, 1, 4, 8, 0, 0, 0, 9, .imulhImm, v 4, v 8, no, no⟩,
  ⟨0x00B, 0, 4, 8, 12, 16, 0, 0, .imad, v 4, v 8, v 12, v 16⟩,
  ⟨0x00B, 1, 4, 8, 0, 16, 0, 9, .imadImm, v 4, v 8, no, v 16⟩,
  ⟨0x00C, 0, 4, 8, 12, 16, 0, 0, .imadw, v 4, v 8, v 12, v 16⟩]

theorem test_decode_words0a : words0a.all Written.right = true := by decide

def words0b : List Written := [
  ⟨0x00C, 1, 4, 8, 0, 16, 0, 9, .imadwImm, v 4, v 8, no, v 16⟩,
  ⟨0x00D, 0, 4, 8, 12, 0, 0, 0, .imin, v 4, v 8, v 12, no⟩,
  ⟨0x00D, 1, 4, 8, 0, 0, 0, 9, .iminImm, v 4, v 8, no, no⟩,
  ⟨0x00E, 0, 4, 8, 12, 0, 0, 0, .imax, v 4, v 8, v 12, no⟩,
  ⟨0x00E, 1, 4, 8, 0, 0, 0, 9, .imaxImm, v 4, v 8, no, no⟩,
  ⟨0x00F, 0, 4, 8, 0, 0, 0, 0, .iabs, v 4, v 8, no, no⟩,
  ⟨0x010, 0, 4, 8, 0, 0, 0, 0, .ineg, v 4, v 8, no, no⟩,
  ⟨0x011, 0, 1, 8, 12, 0, 0, 0, .icmp, pr 1, v 8, v 12, no⟩,
  ⟨0x011, 1, 1, 8, 0, 0, 0, 9, .icmpImm, pr 1, v 8, no, no⟩,
  ⟨0x012, 0, 4, 8, 12, 5, 0, 0, .isel, v 4, v 8, v 12, pr 5⟩,
  ⟨0x012, 1, 4, 8, 0, 5, 0, 9, .iselImm, v 4, v 8, no, pr 5⟩,
  ⟨0x013, 0, 4, 8, 12, 0, 0, 0, .shl, v 4, v 8, v 12, no⟩,
  ⟨0x013, 1, 4, 8, 0, 0, 0, 9, .shlImm, v 4, v 8, no, no⟩,
  ⟨0x014, 0, 4, 8, 12, 0, 0, 0, .shr, v 4, v 8, v 12, no⟩,
  ⟨0x014, 1, 4, 8, 0, 0, 0, 9, .shrImm, v 4, v 8, no, no⟩,
  ⟨0x015, 0, 4, 8, 12, 0, 0, 0, .sar, v 4, v 8, v 12, no⟩,
  ⟨0x015, 1, 4, 8, 0, 0, 0, 9, .sarImm, v 4, v 8, no, no⟩,
  ⟨0x016, 0, 4, 8, 12, 0, 0, 0, .rotl, v 4, v 8, v 12, no⟩,
  ⟨0x016, 1, 4, 8, 0, 0, 0, 9, .rotlImm, v 4, v 8, no, no⟩,
  ⟨0x017, 0, 4, 8, 12, 0, 0, 0, .andL, v 4, v 8, v 12, no⟩]

theorem test_decode_words0b : words0b.all Written.right = true := by decide

def words0c : List Written := [
  ⟨0x017, 1, 4, 8, 0, 0, 0, 9, .andImm, v 4, v 8, no, no⟩,
  ⟨0x018, 0, 4, 8, 12, 0, 0, 0, .orL, v 4, v 8, v 12, no⟩,
  ⟨0x018, 1, 4, 8, 0, 0, 0, 9, .orImm, v 4, v 8, no, no⟩,
  ⟨0x019, 0, 4, 8, 12, 0, 0, 0, .xorL, v 4, v 8, v 12, no⟩,
  ⟨0x019, 1, 4, 8, 0, 0, 0, 9, .xorImm, v 4, v 8, no, no⟩,
  ⟨0x01A, 0, 4, 8, 12, 0, 0, 0, .andn, v 4, v 8, v 12, no⟩,
  ⟨0x01A, 1, 4, 8, 0, 0, 0, 9, .andnImm, v 4, v 8, no, no⟩,
  ⟨0x01B, 0, 4, 8, 0, 0, 0, 0, .notL, v 4, v 8, no, no⟩,
  ⟨0x01C, 0, 4, 8, 12, 16, 0, 0, .bmux, v 4, v 8, v 12, v 16⟩,
  ⟨0x01C, 1, 4, 8, 0, 16, 0, 9, .bmuxImm, v 4, v 8, no, v 16⟩,
  ⟨0x01D, 0, 4, 8, 0, 0, 0, 0, .popc, v 4, v 8, no, no⟩,
  ⟨0x01E, 0, 4, 8, 0, 0, 0, 0, .clz, v 4, v 8, no, no⟩,
  ⟨0x01F, 0, 4, 8, 0, 0, 0, 0, .ctz, v 4, v 8, no, no⟩,
  ⟨0x020, 0, 4, 8, 0, 0, 0, 0, .brev, v 4, v 8, no, no⟩,
  ⟨0x021, 0, 4, 8, 12, 0, 0, 0, .bfx, v 4, v 8, v 12, no⟩,
  ⟨0x021, 1, 4, 8, 0, 0, 0, 9, .bfxImm, v 4, v 8, no, no⟩,
  ⟨0x022, 0, 4, 8, 12, 16, 0, 0, .bfi, v 4, v 8, v 12, v 16⟩,
  ⟨0x022, 1, 4, 8, 0, 16, 0, 9, .bfiImm, v 4, v 8, no, v 16⟩,
  ⟨0x023, 0, 4, 8, 12, 16, 0, 0, .bsr, v 4, v 8, v 12, v 16⟩,
  ⟨0x024, 0, 4, 8, 12, 16, 0, 0, .bsrld, v 4, v 8, v 12, v 16⟩]

theorem test_decode_words0c : words0c.all Written.right = true := by decide

def words0d : List Written := [
  ⟨0x025, 0, 4, 8, 12, 16, 0, 0, .idot4, v 4, v 8, v 12, v 16⟩,
  ⟨0x026, 0, 4, 8, 12, 0, 0, 0, .lea, v 4, v 8, v 12, no⟩,
  ⟨0x026, 1, 4, 8, 0, 0, 0, 9, .leaImm, v 4, v 8, no, no⟩]

theorem test_decode_words0d : words0d.all Written.right = true := by decide

def words1a : List Written := [
  ⟨0x041, 0, 4, 8, 12, 0, 0, 0, .fadd, v 4, v 8, v 12, no⟩,
  ⟨0x041, 1, 4, 8, 0, 0, 0, 9, .faddImm, v 4, v 8, no, no⟩,
  ⟨0x042, 0, 4, 8, 12, 0, 0, 0, .fsub, v 4, v 8, v 12, no⟩,
  ⟨0x042, 1, 4, 8, 0, 0, 0, 9, .fsubImm, v 4, v 8, no, no⟩,
  ⟨0x043, 0, 4, 8, 12, 0, 0, 0, .fmul, v 4, v 8, v 12, no⟩,
  ⟨0x043, 1, 4, 8, 0, 0, 0, 9, .fmulImm, v 4, v 8, no, no⟩,
  ⟨0x044, 0, 4, 8, 12, 16, 0, 0, .ffma, v 4, v 8, v 12, v 16⟩,
  ⟨0x044, 1, 4, 8, 0, 16, 0, 9, .ffmaImm, v 4, v 8, no, v 16⟩,
  ⟨0x045, 0, 4, 8, 12, 0, 0, 0, .fmin, v 4, v 8, v 12, no⟩,
  ⟨0x045, 1, 4, 8, 0, 0, 0, 9, .fminImm, v 4, v 8, no, no⟩,
  ⟨0x046, 0, 4, 8, 12, 0, 0, 0, .fmax, v 4, v 8, v 12, no⟩,
  ⟨0x046, 1, 4, 8, 0, 0, 0, 9, .fmaxImm, v 4, v 8, no, no⟩,
  ⟨0x047, 0, 1, 8, 12, 0, 0, 0, .fcmp, pr 1, v 8, v 12, no⟩,
  ⟨0x047, 1, 1, 8, 0, 0, 0, 9, .fcmpImm, pr 1, v 8, no, no⟩,
  ⟨0x048, 0, 1, 8, 0, 0, 0, 0, .fclass, pr 1, v 8, no, no⟩,
  ⟨0x049, 0, 4, 8, 0, 0, 0, 0, .frnd, v 4, v 8, no, no⟩,
  ⟨0x04A, 0, 4, 8, 12, 0, 0, 0, .fscale, v 4, v 8, v 12, no⟩,
  ⟨0x04A, 1, 4, 8, 0, 0, 0, 9, .fscaleImm, v 4, v 8, no, no⟩,
  ⟨0x04B, 0, 4, 8, 12, 0, 0, 0, .hadd2, v 4, v 8, v 12, no⟩,
  ⟨0x04B, 1, 4, 8, 0, 0, 0, 9, .hadd2Imm, v 4, v 8, no, no⟩]

theorem test_decode_words1a : words1a.all Written.right = true := by decide

def words1b : List Written := [
  ⟨0x04C, 0, 4, 8, 12, 0, 0, 0, .hmul2, v 4, v 8, v 12, no⟩,
  ⟨0x04C, 1, 4, 8, 0, 0, 0, 9, .hmul2Imm, v 4, v 8, no, no⟩,
  ⟨0x04D, 0, 4, 8, 12, 16, 0, 0, .hfma2, v 4, v 8, v 12, v 16⟩,
  ⟨0x04D, 1, 4, 8, 0, 16, 0, 9, .hfma2Imm, v 4, v 8, no, v 16⟩,
  ⟨0x04E, 0, 4, 8, 0, 0, 0, 0, .cvti, v 4, v 8, no, no⟩,
  ⟨0x04F, 0, 4, 8, 0, 0, 0, 0, .cvtf, v 4, v 8, no, no⟩,
  ⟨0x050, 0, 4, 8, 0, 0, 0, 0, .cvtn, v 4, v 8, no, no⟩,
  ⟨0x051, 0, 4, 8, 0, 0, 0, 0, .cvtw, v 4, v 8, no, no⟩,
  ⟨0x052, 0, 4, 8, 0, 0, 0, 0, .rcp, v 4, v 8, no, no⟩,
  ⟨0x053, 0, 4, 8, 0, 0, 0, 0, .rsq, v 4, v 8, no, no⟩,
  ⟨0x054, 0, 4, 8, 0, 0, 0, 0, .sqrt, v 4, v 8, no, no⟩,
  ⟨0x055, 0, 4, 8, 0, 0, 0, 0, .ex2, v 4, v 8, no, no⟩,
  ⟨0x056, 0, 4, 8, 0, 0, 0, 0, .lg2, v 4, v 8, no, no⟩,
  ⟨0x057, 0, 4, 8, 0, 0, 0, 0, .sin, v 4, v 8, no, no⟩,
  ⟨0x058, 0, 4, 8, 0, 0, 0, 0, .cos, v 4, v 8, no, no⟩,
  ⟨0x059, 0, 4, 8, 0, 0, 0, 0, .tanh, v 4, v 8, no, no⟩,
  ⟨0x05A, 0, 4, 0, 0, 0, 0, 0, .rng, v 4, no, no, no⟩,
  ⟨0x05B, 0, 0, 8, 0, 0, 0, 0, .seed, no, v 8, no, no⟩,
  ⟨0x05B, 1, 0, 0, 0, 0, 0, 9, .seedImm, no, no, no, no⟩,
  ⟨0x05C, 0, 4, 8, 12, 0, 0, 0, .shfl, v 4, v 8, v 12, no⟩]

theorem test_decode_words1b : words1b.all Written.right = true := by decide

def words1c : List Written := [
  ⟨0x05C, 1, 4, 8, 0, 0, 0, 9, .shflImm, v 4, v 8, no, no⟩,
  ⟨0x05D, 0, 1, 2, 0, 0, 0, 0, .vote, pr 1, pr 2, no, no⟩,
  ⟨0x05E, 0, 4, 8, 0, 0, 0, 0, .qred, v 4, v 8, no, no⟩,
  ⟨0x05F, 0, 4, 8, 0, 0, 0, 0, .gred, v 4, v 8, no, no⟩,
  ⟨0x05F, 0, 4, 0, 12, 0, 0x2040, 0, .gredTeam, v 4, no, sr 12, no⟩,
  ⟨0x060, 0, 4, 8, 12, 0, 0, 0, .gshuf, v 4, v 8, v 12, no⟩,
  ⟨0x061, 0, 4, 8, 0, 0, 0, 0, .bcast, v 4, v 8, no, no⟩]

theorem test_decode_words1c : words1c.all Written.right = true := by decide

def words2a : List Written := [
  ⟨0x081, 1, 0, 0, 0, 0, 0, 8, .bra, no, no, no, no⟩,
  ⟨0x082, 0, 0, 8, 0, 0, 0, 0, .brx, no, v 8, no, no⟩,
  ⟨0x083, 1, 4, 0, 0, 0, 0, 8, .call, v 4, no, no, no⟩,
  ⟨0x084, 0, 0, 8, 0, 0, 0, 0, .ret, no, v 8, no, no⟩,
  ⟨0x085, 0, 0, 0, 0, 0, 0, 0, .join, no, no, no, no⟩,
  ⟨0x086, 0, 0, 0, 0, 0, 0, 0, .exit, no, no, no, no⟩,
  ⟨0x087, 0, 1, 0, 0, 0, 0, 0, .elect, pr 1, no, no, no⟩,
  ⟨0x088, 0, 1, 2, 0, 0, 0, 0, .pmov, pr 1, pr 2, no, no⟩,
  ⟨0x089, 0, 1, 2, 3, 5, 0, 0, .pmux, pr 1, pr 2, pr 3, pr 5⟩,
  ⟨0x08A, 0, 0, 0, 0, 0, 0, 0, .region, no, no, no, no⟩,
  ⟨0x08B, 0, 0, 0, 0, 0, 0, 0, .trap, no, no, no, no⟩,
  ⟨0x08C, 0, 0, 0, 0, 0, 0, 0, .tret, no, no, no, no⟩,
  ⟨0x08D, 0, 0, 0, 0, 0, 0, 0, .yield, no, no, no, no⟩,
  ⟨0x08E, 0, 0, 0, 0, 0, 0, 0, .nop, no, no, no, no⟩,
  ⟨0x08E, 1, 0, 0, 0, 0, 0, 0, .nop96, no, no, no, no⟩,
  ⟨0x08E, 2, 0, 0, 0, 0, 0, 0, .nop128, no, no, no, no⟩,
  ⟨0x08F, 0, 0, 0, 0, 0, 0, 0, .bkpt, no, no, no, no⟩,
  ⟨0x090, 0, 0, 0, 0, 0, 0, 0, .setrm, no, no, no, no⟩,
  ⟨0x091, 0, 4, 0, 0, 0, 0, 0, .getsr, v 4, no, no, no⟩,
  ⟨0x092, 0, 0, 8, 0, 0, 0xF, 0, .setsr, no, sr 8, no, no⟩]

theorem test_decode_words2a : words2a.all Written.right = true := by decide

def words2b : List Written := [
  ⟨0x093, 1, 4, 8, 12, 0, 0, 9, .spawn, sr 4, sr 8, sr 12, no⟩,
  ⟨0x094, 0, 4, 8, 12, 0, 0, 0, .sleepm, sr 4, sr 8, sr 12, no⟩]

theorem test_decode_words2b : words2b.all Written.right = true := by decide

def words3a : List Written := [
  ⟨0x0C1, 0, 4, 8, 0, 0, 0, 0, .ld, v 4, v 8, no, no⟩,
  ⟨0x0C1, 1, 4, 8, 0, 0, 0, 9, .ldImm, v 4, v 8, no, no⟩,
  ⟨0x0C2, 0, 4, 8, 0, 0, 0, 0, .st, v 4, v 8, no, no⟩,
  ⟨0x0C2, 1, 4, 8, 0, 0, 0, 9, .stImm, v 4, v 8, no, no⟩,
  ⟨0x0C3, 0, 4, 8, 0, 0, 0, 0, .ldl, v 4, v 8, no, no⟩,
  ⟨0x0C3, 1, 4, 8, 0, 0, 0, 9, .ldlImm, v 4, v 8, no, no⟩,
  ⟨0x0C4, 0, 4, 8, 0, 0, 0, 0, .stl, v 4, v 8, no, no⟩,
  ⟨0x0C4, 1, 4, 8, 0, 0, 0, 9, .stlImm, v 4, v 8, no, no⟩,
  ⟨0x0C5, 0, 4, 8, 0, 0, 0x400, 0, .ldb, v 4, v 8, no, no⟩,
  ⟨0x0C5, 1, 4, 8, 0, 0, 0x400, 9, .ldbImm, v 4, v 8, no, no⟩,
  ⟨0x0C6, 0, 4, 8, 0, 0, 0x400, 0, .stb, v 4, v 8, no, no⟩,
  ⟨0x0C6, 1, 4, 8, 0, 0, 0x400, 9, .stbImm, v 4, v 8, no, no⟩,
  ⟨0x0C7, 0, 4, 8, 12, 0, 0, 0, .ldx, v 4, sr 8, v 12, no⟩,
  ⟨0x0C8, 0, 4, 8, 12, 0, 0, 0, .stx, v 4, sr 8, v 12, no⟩,
  ⟨0x0C9, 0, 4, 8, 0, 0, 0x2, 0, .ldu, sr 4, sr 8, no, no⟩,
  ⟨0x0C9, 1, 4, 8, 0, 0, 0x2, 9, .lduImm, sr 4, sr 8, no, no⟩,
  ⟨0x0CA, 0, 4, 8, 0, 0, 0x2, 0, .stu, sr 4, sr 8, no, no⟩,
  ⟨0x0CA, 1, 4, 8, 0, 0, 0x2, 9, .stuImm, sr 4, sr 8, no, no⟩,
  ⟨0x0CB, 0, 4, 8, 12, 0, 0, 0, .atom, v 4, v 8, v 12, no⟩,
  ⟨0x0CC, 0, 4, 8, 0, 0, 0, 0, .lr, v 4, v 8, no, no⟩]

theorem test_decode_words3a : words3a.all Written.right = true := by decide

def words3b : List Written := [
  ⟨0x0CD, 0, 4, 8, 12, 0, 0, 0, .sc, v 4, v 8, v 12, no⟩,
  ⟨0x0CE, 0, 0, 0, 0, 0, 0, 0, .fence, no, no, no, no⟩,
  ⟨0x0CF, 0, 0, 0, 0, 0, 0, 0, .acq, no, no, no, no⟩,
  ⟨0x0D0, 0, 0, 0, 0, 0, 0, 0, .rel, no, no, no, no⟩,
  ⟨0x0D1, 0, 0, 8, 0, 0, 0, 0, .acqr, no, sr 8, no, no⟩,
  ⟨0x0D2, 0, 4, 0, 0, 0, 0, 0, .carve, sr 4, no, no, no⟩,
  ⟨0x0D3, 0, 0, 8, 0, 0, 0, 0, .pref, no, v 8, no, no⟩,
  ⟨0x0D3, 1, 0, 8, 0, 0, 0, 9, .prefImm, no, v 8, no, no⟩]

theorem test_decode_words3b : words3b.all Written.right = true := by decide

def words4a : List Written := [
  ⟨0x101, 0, 4, 8, 0, 0, 0, 0, .mma, sr 4, sr 8, no, no⟩,
  ⟨0x102, 0, 4, 8, 0, 16, 0, 0, .mmax, sr 4, sr 8, no, v 16⟩,
  ⟨0x103, 0, 4, 8, 0, 16, 0, 0, .mms, sr 4, sr 8, no, sr 16⟩,
  ⟨0x104, 0, 0, 8, 0, 0, 0, 0, .czero, no, sr 8, no, no⟩,
  ⟨0x105, 0, 4, 8, 12, 0, 0, 0, .drain, v 4, sr 8, sr 12, no⟩,
  ⟨0x105, 1, 4, 8, 12, 0, 0x400, 9, .drainImm, sr 4, sr 8, sr 12, no⟩,
  ⟨0x106, 0, 4, 0, 0, 0, 0, 0, .kzero, kr 4, no, no, no⟩,
  ⟨0x107, 0, 4, 8, 12, 0, 0, 0, .kld, kr 4, sr 8, sr 12, no⟩,
  ⟨0x107, 1, 4, 8, 12, 0, 0, 9, .kldImm, kr 4, sr 8, sr 12, no⟩,
  ⟨0x108, 0, 4, 8, 0, 0, 0, 0, .kst, kr 4, sr 8, no, no⟩,
  ⟨0x108, 1, 4, 8, 0, 0, 0, 9, .kstImm, kr 4, sr 8, no, no⟩,
  ⟨0x109, 0, 4, 8, 12, 2, 0, 0, .klop, kr 4, kr 8, kr 12, kr 2⟩,
  ⟨0x10A, 1, 4, 8, 0, 0, 0, 9, .kset, kr 4, sr 8, no, no⟩,
  ⟨0x10B, 0, 4, 8, 0, 0, 0x4C0, 0, .bxpose, sr 4, sr 8, no, no⟩]

theorem test_decode_words4a : words4a.all Written.right = true := by decide

def words5a : List Written := [
  ⟨0x141, 0, 0, 8, 12, 16, 0, 0, .cpy, no, sr 8, v 12, sr 16⟩,
  ⟨0x142, 0, 0, 8, 12, 16, 0, 0, .cpyg, no, sr 8, v 12, sr 16⟩,
  ⟨0x143, 0, 4, 8, 12, 16, 0, 0, .cpyv, v 4, sr 8, v 12, sr 16⟩,
  ⟨0x144, 0, 4, 8, 0, 0, 0, 0, .crwait, sr 4, sr 8, no, no⟩]

theorem test_decode_words5a : words5a.all Written.right = true := by decide

def words6a : List Written := [
  ⟨0x181, 0, 4, 8, 0, 0, 0, 0, .thnew, sr 4, sr 8, no, no⟩,
  ⟨0x182, 0, 4, 8, 0, 0, 0, 0, .thacq, sr 4, sr 8, no, no⟩,
  ⟨0x183, 0, 4, 8, 0, 0, 0, 0, .threl, sr 4, sr 8, no, no⟩,
  ⟨0x184, 0, 4, 8, 12, 0, 0, 0, .thsplit, sr 4, sr 8, sr 12, no⟩,
  ⟨0x185, 0, 0, 8, 0, 0, 0, 0, .thfree, no, sr 8, no, no⟩,
  ⟨0x186, 0, 4, 8, 0, 0, 0, 0, .thqry, sr 4, sr 8, no, no⟩,
  ⟨0x187, 0, 0, 8, 12, 0, 0, 0, .thbnd, no, sr 8, sr 12, no⟩]

theorem test_decode_words6a : words6a.all Written.right = true := by decide

def words7a : List Written := [
  ⟨0x1C1, 0, 0, 8, 12, 16, 0, 0, .seam, no, v 8, v 12, sr 16⟩,
  ⟨0x1C2, 0, 0, 8, 12, 16, 0, 0, .unpick, no, v 8, v 12, sr 16⟩,
  ⟨0x1C3, 0, 4, 8, 0, 0, 0, 0, .isld, sr 4, sr 8, no, no⟩,
  ⟨0x1C4, 0, 0, 8, 12, 0, 0, 0, .isst, no, sr 8, sr 12, no⟩,
  ⟨0x1C5, 0, 0, 8, 0, 0, 0, 0, .settle, no, v 8, no, no⟩,
  ⟨0x1C6, 0, 0, 8, 0, 16, 0, 0, .wake, no, v 8, no, sr 16⟩,
  ⟨0x1C7, 0, 4, 0, 0, 0, 0, 0, .pbar, sr 4, no, no, no⟩,
  ⟨0x1C8, 0, 4, 8, 0, 0, 0, 0, .stepc, sr 4, sr 8, no, no⟩,
  ⟨0x1C9, 0, 4, 8, 0, 16, 0, 0, .islq, v 4, v 8, no, sr 16⟩]

theorem test_decode_words7a : words7a.all Written.right = true := by decide

def words8a : List Written := [
  ⟨0x201, 0, 4, 8, 0, 0, 0, 0, .sqopen, sr 4, sr 8, no, no⟩,
  ⟨0x202, 0, 0, 8, 12, 16, 0, 0, .sqsig, no, v 8, sr 12, sr 16⟩,
  ⟨0x203, 0, 4, 8, 12, 0, 0, 0, .skld, kr 4, sr 8, sr 12, no⟩,
  ⟨0x204, 0, 4, 8, 12, 0, 0, 0, .skst, kr 4, sr 8, sr 12, no⟩,
  ⟨0x205, 0, 4, 8, 0, 0, 0, 0, .sqclose, sr 4, sr 8, no, no⟩]

theorem test_decode_words8a : words8a.all Written.right = true := by decide

def words9a : List Written := [
  ⟨0x241, 0, 0, 0, 0, 17, 0, 0, .waitc, no, no, no, .tl 17⟩,
  ⟨0x242, 0, 4, 0, 0, 0, 0, 0, .closeb, sr 4, no, no, no⟩,
  ⟨0x243, 0, 4, 8, 0, 0, 0, 0, .waitb, sr 4, sr 8, no, no⟩,
  ⟨0x244, 0, 0, 3, 0, 0, 0, 0, .bar, no, .bar 3, no, no⟩,
  ⟨0x245, 0, 6, 8, 0, 0, 0, 0, .barset, .bar 6, sr 8, no, no⟩,
  ⟨0x245, 1, 6, 0, 0, 0, 0, 772, .barsetImm, .bar 6, no, no, no⟩,
  ⟨0x246, 0, 4, 0, 0, 0, 0, 0, .cntrd, sr 4, no, no, no⟩]

theorem test_decode_words9a : words9a.all Written.right = true := by decide

/-! ## Words that are no instruction (R108, R109, R111) -/

theorem test_unassigned_opcodes_are_refused :
    ([0x000, 0x027, 0x062, 0x095, 0x0D4, 0x10C, 0x145, 0x188, 0x1CA, 0x206, 0x247, 0x3FF]).all
      (fun op => (decodeWord (op * 4 + 0x7000)).isNone) = true := by decide

theorem test_two_halves_of_one_class_are_refused : decodeWord (encode (.pairWord h1 h1)) = none := by decide

theorem test_spec_examples_decode : Obligations.WordsDecode := by
  unfold Obligations.WordsDecode; decide

/-! ## A small machine: context 0, one team of one group with two lanes on core 0, one page mapped -/

/-- The team of the group under test: 4 KiB of scratch at 0, typed buffers, 4 barriers. -/
def team1 : Machine.Team :=
  { ctx := 0, grid := 0, teamId := 0, queue := 0, shape := ⟨0x10000, 1, [1], [32], 4, true, 4, 64⟩, arg := 0, dies := 1,
    place := .placed 0 0, queuedAt := 0, failed := 0, tried := true, limitAt := none, closedCore := none, preempt := none,
    leaving := false, barriers := List.replicate 4 ⟨2, 1, 0, 0⟩, exited := [], gang := none, groupsLeft := 1, bufs := none }

/-- The group: lanes 0 and 1 at 0x10000, S and V registers as given, the V registers in every lane. -/
def g1 (ss : List (Nat × W64)) (vs : List (Nat × W32)) : Machine.Group :=
  let g := Group.start 0 0 0 0 0 0 0 none 0 0 32 0 0 (firstLanes 2) 0x10000
  { g with
    s := (List.range 64).map fun n => ((ss.find? fun p => p.1 == n).map (·.2)).getD 0
    v := (List.range 32).map fun n => List.replicate 64 (((vs.find? fun p => p.1 == n).map (·.2)).getD 0) }

/-- The machine with that group; physical page 0x10000 is mapped at the same virtual address for everything. -/
def s1 (g : Machine.Group) : State :=
  let s := State.reset.setCore 0 { CoreSt.reset with tlb := [⟨0, 0x10000, 12, 0x10000, true, true, 0⟩], sw := 1 }
  let s := s.setCtx 0 { Ctx.reset with state := .enabled }
  let s := s.setTeam 0 team1
  { s.setGroup 0 g with cur := some ⟨0, 0, 0x10000, firstLanes 2, false, 8⟩ }

/-- The same with every lane waiting at the boundary that issues. -/
def s2 (g : Machine.Group) : State :=
  { s1 (g.arrive 0 0x10000) with cur := some ⟨0, 16, 0x10000, firstLanes 2, true, 8⟩ }

/-- A plain instruction issues, and its issue meets a condition. -/
def plainMeets (s : State) (gd : Guard) (f : IC → Foot) (q : IC → Bool) : Bool :=
  match s.ic gd with
  | none => false
  | some x => (f x).outOfBounds x.g.allot == none && !x.g.busy (f x)
      && (x.g.track.reads (f x) x.act).firstIllegal (f x) x.act == none && x.g.poisonedLanes (f x).rv x.act == 0 && q x

theorem plain_of_meets {s : State} {gd : Guard} {f : IC → Foot} {q : IC → Bool} (h : plainMeets s gd f q = true) :
    ∃ x, Plain s gd f x ∧ q x = true := by
  unfold plainMeets at h
  split at h
  · cases h
  · rename_i x hx
    simp only [Bool.and_eq_true, beq_iff_eq, Bool.not_eq_true'] at h
    exact ⟨x, ⟨hx, ⟨h.1.1.1.1, h.1.1.1.2, h.1.1.2⟩, h.1.2⟩, h.2⟩

/-- A boundary instruction issues, and its issue after the close meets a condition. -/
def boundaryMeets (s : State) (gd : Guard) (f : IC → Foot) (q : IC → IC → Bool) : Bool :=
  match s.ic gd with
  | none => false
  | some x => match (s.close x.cu.gid).group? x.cu.gid with
    | none => false
    | some g => x.cu.fused && (f x).outOfBounds x.g.allot == none && !x.g.busy (f x)
        && x.g.poisonedLanes (f x).rv x.act == 0 && g.closed && q x { x with s := s.close x.cu.gid, g := g }

theorem boundary_of_meets {s : State} {gd : Guard} {f : IC → Foot} {q : IC → IC → Bool}
    (h : boundaryMeets s gd f q = true) : ∃ x y, Boundary s gd f x y ∧ q x y = true := by
  unfold boundaryMeets at h
  split at h
  · cases h
  · rename_i x hx
    split at h
    · cases h
    · rename_i g hg
      simp only [Bool.and_eq_true, beq_iff_eq, Bool.not_eq_true'] at h
      exact ⟨x, _, ⟨hx, h.1.1.1.1.1, h.1.1.1.1.2, h.1.1.1.2, h.1.1.2, hg, h.1.2, rfl⟩, h.2⟩

/-- The issue of a split, with a condition on it. -/
def issueMeets (s : State) (gd : Guard) (q : IC → Bool) : Bool := match s.ic gd with
  | none => false
  | some x => q x

theorem issue_of_meets {s : State} {gd : Guard} {q : IC → Bool} (h : issueMeets s gd q = true) :
    ∃ x, s.ic gd = some x ∧ q x = true := by
  unfold issueMeets at h
  split at h
  · cases h
  · exact ⟨_, ‹_›, h⟩

/-- Operands that a form's entry allows: D is register 24 (P1), A is 4 (P2), B is 12 (P3), C is 16 (P5, K2). -/
def sample (op : Op) (len : Len) (m : Nat) (imm : Nat := 9) : Ops :=
  let i : W64 := if len = .w64 then 0 else BitVec.ofNat 64 imm
  let e := encOf op len (BitVec.ofNat 16 m) i
  let pick (kd : FKind) (n p : Nat) : Opd := match kd with
    | .none => no
    | .v _ _ => v n
    | .vdir _ => v n
    | .s _ _ => sr n
    | .x => .x (BitVec.ofNat 2 p)
    | .p => pr p
    | .k => kr p
    | .bar => .bar (BitVec.ofNat 7 p)
    | .tl => .tl (BitVec.ofNat 6 n)
  if op = .nop then Ops.nop
  else { ops (pick e.d 24 1) (pick e.a 4 2) (pick e.b 12 3) (pick e.c 16 5) m with imm := i }

/-- A sample word of a plain instruction issues in the small machine, and its issue meets a condition. -/
def plainAt (s : State) (op : Op) (len : Len) (o : Ops) (q : IC → Bool := fun _ => true) : Bool :=
  plainMeets s o.g (Claims.footOf op len o) q

/-- The same for a boundary; `q` reads the issue after the close. -/
def boundaryAt (s : State) (op : Op) (len : Len) (o : Ops) (q : IC → Bool := fun _ => true) : Bool :=
  boundaryMeets s o.g (Claims.footOf op len o) fun _ y => q y

/-- The same, with a condition on the issue before the close too. -/
def boundaryBoth (s : State) (op : Op) (len : Len) (o : Ops) (q : IC → IC → Bool) : Bool :=
  boundaryMeets s o.g (Claims.footOf op len o) q

/-- The small machine with every register 0. -/
def s0 : State := s1 (g1 [] [])

/-! ## Witnesses: instructions that only compute over registers. `plain_of_meets` and `boundary_of_meets` turn each check
into the issue that meets the hypotheses. -/

theorem witness_RegisterInstructions :
    Claims.regRows.all (fun r => plainAt s0 r.op r.len (sample r.op r.len 0) fun x =>
      (r.eff x (sample r.op r.len 0)).die == 0 && opsWellFormed r.op r.len (sample r.op r.len 0)) = true := by decide

/-- What the last theorem gives for one row. -/
theorem witness_RegisterInstructions_row : ∃ r ∈ Claims.regRows, ∃ x : IC,
    Plain s0 Guard.none (Claims.footOf r.op r.len (sample r.op r.len 0)) x ∧ (r.eff x (sample r.op r.len 0)).die = 0 :=
  ⟨⟨.iadd, .iadd, .w64, effIadd false⟩, by simp [Claims.regRows, Claims.regRows1], by
    obtain ⟨x, h, q⟩ := plain_of_meets (s := s0) (gd := Guard.none) (f := Claims.footOf .iadd .w64 (sample .iadd .w64 0))
      (q := fun x => (effIadd false x (sample .iadd .w64 0)).die == 0) (by decide)
    exact ⟨x, h, by simpa using q⟩⟩

theorem witness_LaneResults :
    (Claims.sumRows ++ Claims.orderRows ++ Claims.moveRows ++ Claims.logicRows ++ Claims.bitRows).all (fun r =>
      plainAt s0 r.op r.len (sample r.op r.len 0) fun x => inMask x.act 1) = true := by
  decide

theorem witness_IselSelects :
    (plainAt s0 .isel .w64 (sample .isel .w64 0) && opsWellFormed .isel .w64 (sample .isel .w64 0)
      && plainAt s0 .isel .w96 (sample .isel .w96 0) && opsWellFormed .isel .w96 (sample .isel .w96 0)) = true := by decide

theorem witness_CarriesOut :
    [(Op.iadd, Len.w64), (.iadd, .w96), (.iaddc, .w64), (.iaddc, .w96), (.isub, .w64), (.isub, .w96), (.isubb, .w64),
      (.isubb, .w96)].all (fun r => plainAt s0 r.1 r.2 (sample r.1 r.2 0xA0) fun _ =>
        mbit (sample r.1 r.2 0xA0).m 55 && mfld (sample r.1 r.2 0xA0).m 54 52 != 7) = true := by decide

theorem witness_CompareWritesPredicate :
    [Len.w64, .w96].all (fun n => plainAt s0 .icmp n (sample .icmp n 5) (fun _ => opNum (sample .icmp n 5).d == 1)
      && plainAt s0 .icmp n { sample .icmp n 0 with d := pr 7 }) = true := by decide

theorem witness_FloatArithmetic :
    Claims.fltRows.all (fun r => plainAt s0 r.op r.len (sample r.op r.len 0)) = true := by decide

/-- Finite operands, a NaN, infinities of opposite signs, and an infinity beside a finite operand. -/
theorem witness_ExactArithmetic :
    (Claims.finiteNum (Fmt.f32.dec false 0x3F800000) ∧ Claims.finiteNum (Fmt.f16.dec true 0x3C00) ∧ Claims.finiteNum (Fmt.bf16.dec false 0x8000))
    ∧ Fmt.f32.dec false 0x7FC00000 = .nan ∧ Fmt.f16.dec false 0x7C00 = .inf false ∧ Fmt.f16.dec false 0xFC00 = .inf true :=
  ⟨⟨trivial, trivial, trivial⟩, by decide, by decide, by decide⟩

theorem witness_StreamResults :
    (plainAt s0 .bsrld .w64 (sample .bsrld .w64 0) && plainAt s0 .bsr .w64 (sample .bsr .w64 0x90)) = true := by decide

theorem witness_RoundsAndDots :
    (Claims.roundRows.all (fun r => plainAt s0 r.op r.len (sample r.op r.len 0))
      && plainAt s0 .frnd .w64 (sample .frnd .w64 2) && plainAt s0 .idot4 .w64 (sample .idot4 .w64 0x103)) = true := by decide

theorem witness_PackedArithmetic :
    Claims.packRows.all (fun r => plainAt s0 r.op r.len (sample r.op r.len 0)) = true := by decide

/-- Each clause of the conversions; the value 0 of a Q4O block is one that FP32 holds. -/
theorem witness_Conversions :
    ([0, 2, 7].all (fun m => plainAt s0 .cvti .w64 (sample .cvti .w64 m))
      && [0, 6, 7, 8].all (fun m => plainAt s0 .cvtn .w64 (sample .cvtn .w64 m))
      && [0, 6, 7, 8].all (fun m => plainAt s0 .cvtw .w64 (sample .cvtw .w64 m))
      && (let b := q4oByte 0 0 false
          [b.1, b.2.1].all fun v => !(Fmt.f32.enc ⟨0, false, false⟩ 0 v).2.of)) = true := by decide

/-- A code in error, one of the special cases of each function, and NaNs of both kinds. -/
theorem witness_SpecialFunctions :
    ([0xFF800000, 0x7F800000, 0x43000000, 0x80000000, 0, 0x3F800000, 0x41100000, 0xC1100000, 0x7F800001, 0x7FC00001].all fun c =>
      Claims.specialRows.all fun r => plainAt (s1 (g1 [] [(4, BitVec.ofNat 32 c)])) r.op .w64 (sample r.op .w64 0) fun x =>
        x.codeA (sample r.op .w64 0) 0 == c && x.codeA (sample r.op .w64 0) 1 == c) = true := by decide

theorem witness_SpecialFunctions_cases : ∀ r ∈ Claims.specialRows, ∃ c d, r.v false c d ∧ ¬ r.err false c := by
  intro r h
  simp only [Claims.specialRows, List.mem_cons, List.not_mem_nil, or_false] at h
  obtain rfl | rfl | rfl | rfl | rfl := h
  · exact ⟨0xFF800000, 0, by simp⟩
  · exact ⟨0, 0xFF800000, by simp [Claims.belowZero]⟩
  · exact ⟨0x80000000, 0x80000000, by simp⟩
  · exact ⟨0, 0x3F800000, by simp⟩
  · exact ⟨0xC1100000, 0xBF800000, by simp⟩

theorem witness_FloatPredicates :
    (plainAt s0 .fcmp .w64 (sample .fcmp .w64 0) && plainAt s0 .fcmp .w96 (sample .fcmp .w96 0)
      && plainAt s0 .fclass .w64 (sample .fclass .w64 0) && opNum (sample .fclass .w64 0).d != 7) = true := by decide

theorem witness_RandomState :
    (plainAt s0 .rng .w64 (sample .rng .w64 0) (fun _ => !mbit (sample .rng .w64 0).m 48)
      && plainAt s0 .rng .w64 (sample .rng .w64 1) (fun x => mbit (sample .rng .w64 1).m 48 && inMask x.act 1)
      && plainAt s0 .seed .w64 (sample .seed .w64 0) && plainAt s0 .seed .w96 (sample .seed .w96 0)) = true := by decide

theorem witness_CrossLaneResults :
    (plainAt s0 .elect .w64 (sample .elect .w64 0) (fun _ => opNum (sample .elect .w64 0).d != 7)
      && plainAt s0 .elect .w64 { sample .elect .w64 0 with d := pr 7 } (fun _ => opNum (pr 7) == 7)
      && [0, 1, 3].all (fun m => plainAt s0 .vote .w64 (sample .vote .w64 m) fun x => (sample .vote .w64 m).d == pr 1 && x.g.vpoison == [])
      && plainAt s0 .vote .w64 (sample .vote .w64 2) (fun x => (sample .vote .w64 2).a == v 4 && x.g.vpoison == [])
      && [0x8003, 0x8004, 0x8005].all (fun m => plainAt s0 .vote .w64 (sample .vote .w64 m) fun x => (sample .vote .w64 m).d == sr 24
        && x.act &&& x.g.pred 2 == 0)
      && plainAt (s1 { g1 [] [] with p := [0, 0, 2, 0, 0, 0, 0] }) .vote .w64 (sample .vote .w64 0x8005) (fun x =>
        inMask (x.act &&& x.g.pred 2) 1 && !inMask (x.act &&& x.g.pred 2) 0)
      && plainAt s0 .shfl .w64 (sample .shfl .w64 0x20) (fun x => mbit (sample .shfl .w64 0x20).m 53 && x.g.vpoison == [])
      && plainAt s0 .shfl .w64 (sample .shfl .w64 0) (fun x => x.g.vpoison == [])
      && plainAt s0 .shfl .w96 (sample .shfl .w96 0) (fun x => x.g.vpoison == [])) = true := by decide

theorem witness_ReductionsAndWindows :
    ([0, 0x20].all (fun m => plainAt s0 .qred .w64 (sample .qred .w64 m) && plainAt s0 .gred .w64 (sample .gred .w64 m))
      && plainAt s0 .gshuf .w64 (sample .gshuf .w64 1) (fun x => x.g.vpoison == [])
      && plainAt s0 .bcast .w64 (sample .bcast .w64 1) (fun x => x.g.vpoison == [])
      && plainAt s0 .bcast .w64 { sample .bcast .w64 0x8000 with d := sr 24, b := sr 4 } (fun x => x.g.vpoison == [])) = true := by decide

theorem witness_PredicateMoves :
    (plainAt s0 .pmov .w64 (sample .pmov .w64 0) (fun _ => opNum (sample .pmov .w64 0).d != 7)
      && plainAt s0 .pmov .w64 { sample .pmov .w64 1 with a := sr 4 } (fun _ => opNum (sample .pmov .w64 1).d != 7)
      && plainAt s0 .pmov .w64 { sample .pmov .w64 2 with d := sr 24 }
      && plainAt s0 .pmux .w64 (sample .pmux .w64 0x0A) (fun _ => opNum (sample .pmux .w64 0x0A).d != 7)) = true := by decide

theorem witness_PairWordCompletes :
    issueMeets s0 h0.o.g (fun x => issueMeets s0 h1.o.g fun y =>
      let f := x.g.foot h0.op .w64 h0.o
      let h := x.g.foot h1.op .w64 h1.o
      let t := (x.g.track.reads f x.act).reads h y.act
      (f.both h).outOfBounds x.g.allot == none && !x.g.busy (f.both h) && t.firstIllegal f x.act == none
        && t.firstIllegal h y.act == none && x.g.poisonedLanes f.rv x.act == 0 && x.g.poisonedLanes h.rv y.act == 0
        && (effHalf h0 x h0.o).die == 0 && (effHalf h1 y h1.o).die == 0) = true := by decide

/-! ## Witnesses: control, traps, boundaries -/

theorem witness_BranchesMoveLanes :
    Claims.jumpRows.all (fun r => plainAt s0 r.op r.len (sample r.op r.len 0 8)
      fun x => inMask x.act 1 && (x.g.quad 0).run == 3) = true := by decide

/-- Quad 0 with lane 0 running at 0x10000 and lane 1 deferred at a PC. -/
def split2 (pc : BitVec 57) : Machine.Group :=
  let g := g1 [] []
  { g with quads := g.quads.set 0 ⟨0x10000, 1, [⟨pc, 2, false⟩], 0⟩ }

theorem witness_JoinReconverges :
    [(split2 0x0F000, true), (split2 0x20000, false)].all (fun r => plainAt { s1 r.1 with cur := some ⟨0, 0, 0x10000, 1, false, 8⟩ }
      .join .w64 (sample .join .w64 0) fun x => inMask (x.g.quad 0).run 0 && (x.g.quad 0).pc == x.cu.pc && !x.g.moved.contains 0
        && (((x.g.quad 0).deferred.any fun p => !p.waiting && decide (p.pc < x.cu.pc)) == r.2)) = true := by decide

theorem witness_YieldAndBkpt :
    (plainAt ((s0.setGroup 1 { g1 [] [] with ages := [⟨0, some 0, []⟩] })) .yield .w64 (sample .yield .w64 0) (fun x =>
        (x.s.readySplits x.g.core).filter (· != (x.cu.gid, x.cu.split)) != [])
      && plainAt s0 .bkpt .w64 (sample .bkpt .w64 7) (fun x => x.act != 0 && !(s0.ctx 0).bkptArmed 7)
      && (let s := s0.setCtx 0 { s0.ctx 0 with loupe := true, armed := [7] }
          plainAt s .bkpt .w64 (sample .bkpt .w64 7) (fun x => x.act != 0 && (s.ctx 0).bkptArmed 7))
      && ((s1 { g1 [] [] with status := .bkpt [0] }).group? 0).map (·.status) == some (.bkpt [0])) = true := by decide

/-- A region that has sampled the RMR, or read the GSR, before. -/
def sampled (f : Track → Track) : State := s1 { g1 [(4, 3)] [] with track := f Track.clear }

theorem witness_SettingsWritten :
    (plainAt s0 .setrm .w64 (sample .setrm .w64 0x18) (fun x => !x.g.track.rmrR && mfld (sample .setrm .w64 0x18).m 50 48 != 7)
      && plainAt (s1 (g1 [(4, 7)] [])) .setsr .w64 (sample .setsr .w64 0x0F) (fun x => !x.g.track.rmrR
        && x.val32 (sr 4) 0 &&& 7 == 7)
      && plainAt (s1 (g1 [(4, 6)] [])) .setsr .w64 (sample .setsr .w64 0x0F) (fun x => !x.g.track.rmrR
        && x.val32 (sr 4) 0 &&& 7 != 7)
      && plainAt s0 .setsr .w64 (sample .setsr .w64 0x10) (fun x => !x.g.track.gsrL && mfld (sample .setsr .w64 0x10).m 55 48 != 0x0F)
      && plainAt (sampled fun t => { t with rmrR := true }) .setrm .w64 (sample .setrm .w64 0) (fun x => x.g.track.rmrR)
      && plainAt (sampled fun t => { t with rmrR := true }) .setsr .w64 (sample .setsr .w64 0x0F) (fun x => x.g.track.rmrR)
      && plainAt (sampled fun t => { t with gsrL := true }) .setsr .w64 (sample .setsr .w64 0x10) (fun x => x.g.track.gsrL)) = true := by
  decide

theorem witness_GetsrReads :
    [0x00, 0x05, 0x07, 0x0A, 0x0B, 0x0F, 0x13, 0x15].all (fun n => plainAt s0 .getsr .w64 (sample .getsr .w64 n)
        (fun x => (Claims.srValues x 1).any fun e => e.1 == n)
      && plainAt s0 .getsr .w64 (sample .getsr .w64 (0x8000 + n)) (fun x => (Claims.srValues x 0).any fun e => e.1 == n)) = true := by
  decide

/-- One frame on the trap stack, of these lanes. -/
def framed (lanes : Mask) : State := s1 { g1 [] [] with depth := 1, frames := ⟨lanes, 0x10008, 0x800⟩ :: List.replicate 3 ⟨0, 0, 0⟩ }

theorem witness_TretReturns :
    (plainAt (framed 3) .tret .w64 (sample .tret .w64 0) (fun x => x.g.depth != 0
        && x.act == ((x.g.frames.getD (x.g.depth - 1) ⟨0, 0, 0⟩).lanes &&& x.g.live))
      && plainAt s0 .tret .w64 (sample .tret .w64 0) (fun x => x.g.depth == 0)
      && plainAt (framed 1) .tret .w64 (sample .tret .w64 0) (fun x => x.g.depth != 0
        && x.act != ((x.g.frames.getD (x.g.depth - 1) ⟨0, 0, 0⟩).lanes &&& x.g.live))) = true := by decide

theorem witness_BoundaryWaitsForAllLanes :
    (let s := { s1 (split2 0x20000) with cur := some ⟨0, 0, 0x10000, 1, false, 8⟩ }
     Claims.boundaryRows.all fun r => issueMeets s (sample r.2.1 r.2.2 0).g fun x =>
      !x.cu.fused && !(x.g.arrive x.cu.split x.cu.pc).allWait) = true := by decide

/-- The small machine at a boundary. -/
def b0 : State := s2 (g1 [] [])

theorem witness_RegionOpens : boundaryAt b0 .region .w64 (sample .region .w64 0) (fun y => y.g.live != 0) = true := by decide

theorem witness_ExitEndsLanes :
    (boundaryAt b0 .exit .w64 (sample .exit .w64 0) (fun y => y.act != 0 && y.g.live &&& ~~~y.act == 0)
      && (let s := s2 { g1 [] [] with p := [0, 1, 0, 0, 0, 0, 0] }
          boundaryAt s .exit .w64 { sample .exit .w64 0 with g := ⟨1, false⟩ } (fun y => y.act == 1 && y.g.live &&& ~~~y.act != 0))) = true := by
  decide

theorem witness_TrapPushesFrame :
    (boundaryAt b0 .trap .w64 (sample .trap .w64 0x800) (fun y => y.act != 0 && y.g.live != 0 && decide (y.g.depth < 4)
        && decide (0x800 ≤ mfld (sample .trap .w64 0x800).m 59 48))
      && boundaryAt b0 .trap .w64 (sample .trap .w64 0xFFF) (fun y => y.act != 0)
      && boundaryAt (s2 { g1 [] [] with depth := 4 }) .trap .w64 (sample .trap .w64 0x800) (fun y => y.act != 0 && decide (4 ≤ y.g.depth))
      && boundaryAt b0 .trap .w64 { sample .trap .w64 0x800 with g := ⟨1, false⟩ } (fun y => y.act == 0)) = true := by decide

/-- Put 64-bit words into device memory. -/
def put (ws : List (Nat × Nat)) (s : State) : State :=
  ws.foldl (fun s p => { s with mem := bankWrite s.mem (wbytes p.1 (leBytes 8 p.2)) }) s

/-- Context 0's descriptor and tables: the first 2 GiB map to themselves; its system-call ring is one slot at 0x10000. -/
def tables : List (Nat × Nat) := [(0, 0x40000), (8, 0x10000), (0x40000, 0x41001), (0x41000, 0x42001), (0x42000, 0xF)]

theorem witness_SystemCallParks_call :
    boundaryAt (put tables b0) .trap .w64 (sample .trap .w64 0x7FF) (fun y => decide (mfld (sample .trap .w64 0x7FF).m 59 48 < 0x800)
      && y.act != 0 && y.g.live != 0 && y.s.sysSlot y.g.ctx == some 0
      && (match y.actOne .store true (ringBase (y.s.ctxWord y.g.ctx 1) + 128 * 0) 128 with
          | .go pa => y.s.memUp pa
          | _ => false)
      && !y.s.drainHeld y.g.core (fun _ => true)) = true := by decide

/-- Walks have returned to a unit that some 4 KiB pages map to themselves. -/
def reached (who : Waiter) (pages : List Nat) (s : State) : State :=
  { s with unitTrs := s.unitTrs ++ pages.map fun p => ⟨0, p, who, some ⟨0, 4096 * p, 12, 4096 * p, true, true, 0⟩⟩ }

theorem witness_SystemCallParks_reply :
    (let s := reached (.reply 0) [0x10] (put tables (s1 { g1 [] [] with status := .parked 0 }))
     let s := s.setCtx 0 { s.ctx 0 with sysSlots := [(0, 0)] }
     (s.ctx 0).sysSlots.find? (fun p => p.1 == 0) == some (0, 0) && ((s.group? 0).map (·.again)) == some false
      && (match s.unitAsk ⟨0, .frontEnd, false, 0x1FFFF, 0, .reply 0⟩ (ringBase (s.ctxWord 0 1) + 128 * 0 + 48) with
          | .ok pa => pa == 0x10030
          | _ => false)
      && s.tenures == [] && !(s.memRead 0x10030 16).any (·.2)) = true := by decide

theorem witness_SystemCallParks_slotFree :
    (let s := { put tables b0 with cur := none }
     (s.group? 0).any (fun g => s.boundaryRoom 0 g && !g.acquire) && (s.sysSlot 0).isSome) = true := by decide

/-! ## Witnesses: the checks of every instruction -/

/-- The MOD bits of the sample words of the plain forms that allow no zero there. -/
def plainMod (op : Op) (len : Len) : Nat :=
  match op with
  | .setsr => 0x0F
  | .ldb => 2 <<< 9
  | .stb => 2 <<< 9
  | .ldu => 2
  | .stu => 2
  | .drain => if len = .w96 then 0x400 else 0
  | .bxpose => 2 <<< 9 ||| 3 <<< 6
  | _ => 0

def plainSample (op : Op) (len : Len) : Ops := sample op len (plainMod op len)

/-- A field names a V register; a field names a V, an S or a K register. -/
def isV (o : Opd) : Bool := match o with
  | .v _ => true
  | _ => false
def isReg (o : Opd) : Bool := match o with
  | .v _ => true
  | .s _ => true
  | .k _ => true
  | _ => false
def hasV (o : Ops) : Bool := [o.d, o.a, o.b, o.c].any isV
def hasReg (o : Ops) : Bool := [o.d, o.a, o.b, o.c].any isReg

/-- Each form with a V operand, in a group of 4 registers. -/
theorem witness_RegisterBounds :
    (((Claims.plainRows.filter fun r => hasV (plainSample r.2.1 r.2.2)).all fun r =>
        issueMeets (s1 { g1 [] [] with allot := 4 }) (plainSample r.2.1 r.2.2).g fun x =>
          ((Claims.footOf r.2.1 r.2.2 (plainSample r.2.1 r.2.2) x).outOfBounds x.g.allot).isSome)
      && ((Claims.boundaryRows.filter fun r => hasV (plainSample r.2.1 r.2.2)).all fun r =>
        issueMeets (s2 { g1 [] [] with allot := 4 }) (plainSample r.2.1 r.2.2).g fun x =>
          x.cu.fused && ((Claims.footOf r.2.1 r.2.2 (plainSample r.2.1 r.2.2) x).outOfBounds x.g.allot).isSome)) = true := by
  decide

/-- A load that has not landed holds the registers of the samples. -/
def loading (g : Machine.Group) : Machine.Group :=
  { g with pending := [⟨0, true, List.range 32, List.range 64, List.range 16, []⟩] }

theorem witness_ScoreboardHolds :
    (((Claims.plainRows.filter fun r => hasReg (plainSample r.2.1 r.2.2)).all fun r =>
        issueMeets (s1 (loading (g1 [] []))) (plainSample r.2.1 r.2.2).g fun x =>
          (Claims.footOf r.2.1 r.2.2 (plainSample r.2.1 r.2.2) x).outOfBounds x.g.allot == none
            && x.g.busy (Claims.footOf r.2.1 r.2.2 (plainSample r.2.1 r.2.2) x))
      && ((Claims.boundaryRows.filter fun r => hasReg (plainSample r.2.1 r.2.2)).all fun r =>
        issueMeets (s2 (loading (g1 [] []))) (plainSample r.2.1 r.2.2).g fun x => x.cu.fused
          && (Claims.footOf r.2.1 r.2.2 (plainSample r.2.1 r.2.2) x).outOfBounds x.g.allot == none
          && x.g.busy (Claims.footOf r.2.1 r.2.2 (plainSample r.2.1 r.2.2) x))) = true := by decide

/-- Every register of the group is a live-in of the open region. -/
def allLive : State := s1 { g1 [] [] with track := { Track.clear with
  vl := (List.range 32).map fun n => (n, true), sl := BitVec.allOnes 64, xl := 15, pl := 255, kl := BitVec.allOnes 16 } }

/-- The operations whose D field is a source, or names a barrier. -/
def dIsSource : List Op := [.st, .stl, .stb, .stx, .stu, .mma, .mmax, .mms, .kst, .bxpose, .skst, .barset]

theorem witness_RegionLegality :
    ((Claims.plainRows.filter fun r => (plainSample r.2.1 r.2.2).d != no && !dIsSource.contains r.2.1).all fun r =>
      issueMeets allLive (plainSample r.2.1 r.2.2).g fun x =>
        let f := Claims.footOf r.2.1 r.2.2 (plainSample r.2.1 r.2.2) x
        f.outOfBounds x.g.allot == none && !x.g.busy f && ((x.g.track.reads f x.act).firstIllegal f x.act).isSome) = true := by
  decide

/-- A DRAIN to registers, and a pair word of which the first half, or only the second, breaks the rule. -/
theorem witness_RegionLegality_others :
    (issueMeets allLive Guard.none (fun x =>
        let o := { sample .drain .w64 0 with d := v 8 }
        let f := x.drainFoot .w64 o
        !x.g.busy (Claims.footOf .drain .w64 o x) && f.outOfBounds x.g.allot == none && !x.g.busy f
          && ((x.g.track.reads f x.act).firstIllegal f x.act).isSome)
      && [(allLive, true), (s1 { g1 [] [] with track := { Track.clear with vl := [(20, true)] } }, false)].all (fun q =>
        issueMeets q.1 Guard.none fun x =>
          let f := x.g.foot h0.op .w64 h0.o
          let h := x.g.foot h1.op .w64 h1.o
          let t := (x.g.track.reads f x.act).reads h x.act
          (f.both h).outOfBounds x.g.allot == none && !x.g.busy (f.both h) && (t.firstIllegal f x.act).isSome == q.2
            && (t.firstIllegal h x.act).isSome)) = true := by decide

theorem witness_ProgramFaults :
    (issueMeets s0 Guard.none (fun x => x.act == 3) && (s0.group? 0).isSome) = true := by decide

/-! ## Witnesses: memory -/

/-- V4 and V5 hold the 64-bit address 0x10040, or V4 a byte offset or an index; S4 and S5 the same; V12 is a small index. -/
def gv (a : Nat) : Machine.Group := g1 [(4, BitVec.ofNat 64 a)] [(4, BitVec.ofNat 32 a), (12, 2)]

/-- A load or store whose lanes all translate, with a condition on the places. -/
def reaches (x : IC) (sp : Space) (n : Nat) (kind : AccKind) (wr : Bool) (lanes : List (Nat × Int))
    (q : List (Nat × List Nat) → List Nat → Bool := fun _ _ => true) : Bool :=
  match x.reach sp n kind wr lanes with
  | .go ok bad [] => q ok bad
  | _ => false

/-- The address at which a form's sample accesses its space. -/
def addrOf (sp : Space) : Nat := if sp = .g then 0x10040 else 0x40

theorem witness_LaneLoadsPost : Claims.loadRows.all (fun r =>
    let o := plainSample r.op r.len
    plainAt (s1 (gv (addrOf (r.sp o)))) r.op r.len o fun x => decide (x.g.cntLd < 63)
      && reaches x (r.sp o) (accSize o) .load false (Claims.laneList x (x.laneAddr o (r.sp o) (accSize o))) fun ok _ =>
        ok.length == 2 && (x.readLanes (x.s.setGroup x.cu.gid (x.tracked (Claims.footOf r.op r.len o x))) (r.sp o) ok).2.2 == 0) = true := by
  decide

theorem witness_LocalLoadReadsScratch :
    plainAt (s1 (gv 0xFFC)) .ldl .w64 (sample .ldl .w64 0) (fun x => decide (x.g.cntLd < 63)
      && firstOutside x.team .l 4 (Claims.laneList x (x.laneAddr (sample .ldl .w64 0) .l 4)) == none
      && x.g.buf == [] && x.g.late == [] && ((x.s.core x.g.core).scratch.poison == [])) = true := by decide

theorem witness_LoadsLand :
    ((s1 (loading (g1 [] []))).group? 0).any (fun g => (g.pending.find? fun p => p.id == 0 && p.ld).isSome
      && g.status != .halted && (s0.die (dieOfCore g.core)).powered) = true := by decide

theorem witness_GatherLoads :
    (let o := sample .ldx .w64 0
     plainAt (s1 (gv 0x10040)) .ldx .w64 o fun x => decide (x.g.cntLd < 63)
      && reaches x .g 1 .gather false ((lanesOf (if x.g.replays x.cu.pc then x.act &&& x.g.pm.mask else x.act)).map fun l =>
          (l, x.indexAddr o .g l)) fun ok bad => bad == []
        && (x.readLanes (x.s.setGroup x.cu.gid { x.tracked (Claims.footOf .ldx .w64 o x) with
            pm := x.g.pmAfter x.cu.pc 0
            ldxCount := smSet 0 x.g.ldxCount x.cu.pc.toNat (x.g.ldxSeen x.cu.pc + 1) }) .g ok).2.2 == 0) = true := by decide

theorem witness_UniformLoadsPost : [Len.w64, .w96].all (fun n =>
    let o := plainSample .ldu n
    plainAt (s1 (gv 0x10040)) .ldu n o fun x => decide (x.g.cntLd < 63)
      && reaches x .g 1 .load false [(0, x.uniAddr o .g)] fun ok _ =>
        ((x.s.setGroup x.cu.gid (x.tracked (Claims.footOf .ldu n o x))).readPlaces x.cu.gid x.g.core x.g.buf .g
          [(none, (ok.map (·.2)).headD [])]).2.headD [] |>.all (!·.2)) = true := by decide

theorem witness_LaneStoresBuffer : Claims.storeRows.all (fun r =>
    let o := plainSample r.op r.len
    plainAt (s1 (let g := gv (addrOf (r.sp o)); { g with v := g.v.set 4 (List.range 64 |>.map fun l =>
        BitVec.ofNat 32 (addrOf (r.sp o) + 4 * l)) |>.set 12 (List.range 64 |>.map (BitVec.ofNat 32 ·)) })) r.op r.len o fun x =>
      reaches x (r.sp o) (accSize o) r.kind true (Claims.laneList x (r.addr x o)) fun ok _ => ok.length == 2
        && storeConflict x.g.buf (r.sp o) (Claims.laneBytes x o (r.addr x o) ok) == none
        && overCapacity x.g.buf (r.sp o) (Claims.laneBytes x o (r.addr x o) ok) == none) = true := by decide

theorem witness_UniformStoresBuffer : [Len.w64, .w96].all (fun n =>
    let o := plainSample .stu n
    let k := sample .kst n 0x100 0
    plainAt (s1 (gv 0x10040)) .stu n o (fun x => reaches x .g 1 .store true [(0, x.uniAddr o .g)] fun ok _ =>
        let bs := Claims.uniBytes (x.uniAddr o .g).toNat (leBytes 1 (x.g.rdS (opNum o.d)).toNat) ok
        storeConflict x.g.buf .g bs == none && overCapacity x.g.buf .g bs == none)
      && plainAt (s1 (gv 0x10040)) .kst n k (fun x =>
        let data := kstBytes (x.g.k.getD (opNum k.d) ⟨0, 0, 0⟩) (mbit k.m 56)
        x.uniAddr k .g % (data.length : Int) == 0 && reaches x .g data.length .store true [(0, x.uniAddr k .g)] fun ok _ =>
          let bs := Claims.uniBytes (x.uniAddr k .g).toNat data ok
          storeConflict x.g.buf .g bs == none && overCapacity x.g.buf .g bs == none)) = true := by decide +kernel

/-- A line of `g:` on its way to memory: two bytes of the line at 0x10080. -/
def outLine : OutLine := { gid := 0, space := .g, line := 0x201, vline := 0x201, bytes := [⟨0, 7, none, false, none, 0⟩, ⟨127, 8, none, false, none, 0⟩], old := [], late := false }

theorem witness_StoreAcknowledgedWrites :
    ([outLine, { outLine with bytes := outLine.bytes.map fun b => { b with path := 3 } }].all fun outLine =>
     let s := s0.setCore 0 { s0.core 0 with outbound := [{ outLine with line := 0x203, vline := 0x203 }, outLine] }
     let s := { s with lineKeys := [(0x201, s.slotKey 0)] }
     (s.core 0).outbound[1]? == some outLine && !s.hostHolds outLine.pas && s.tenures == [] && (s.die (dieOfCore 0)).powered
      && !((s.core 0).outbound.take 1).any (fun p => p.space == outLine.space && p.line == outLine.line)
      && ((s.group? outLine.gid).bind fun g => s.leafKey g.ctx (128 * outLine.vline) g.core) == some 0
      && s.keyOk 0 && s.keyFits outLine.line 0
      && decide ((outLine.bytes.map (·.off)).Nodup) && outLine.bytes.all (fun b => s.memUp (outLine.line * 128 + b.off))) = true := by
  decide +kernel

theorem witness_AtomUpdates :
    (let o := sample .atom .w64 0
     let q := fun (sp : Space) (o : Ops) (x y : IC) => decide (x.g.cntLd < 63 ∧ y.g.cntLd < 63)
        && (match y.actReach sp (accSize o) (Claims.laneList y (y.addrBase o.a (sp == .g))) with
            | .go ok =>
              let u := y.s.claim y.cu.gid y.g.core sp (ok.map (·.2))
              (atomLanes y o sp (accSize o) ok u).2.2 == [] && ok.length == 2
            | _ => false)
     boundaryBoth (s2 (g1 [] [(4, 0x10040)])) .atom .w64 o (q .g o)
      && boundaryAt (s2 (g1 [] [(4, 0x10040)])) .atom .w64 { o with g := ⟨1, false⟩ } (fun y => y.act == 0)
      && boundaryBoth (s2 (gv 0xFFC)) .atom .w64 (sample .atom .w64 0x200) (q .l (sample .atom .w64 0x200))) = true := by decide +kernel

theorem witness_LrReserves :
    (let o := sample .lr .w64 0
     plainAt (s1 (g1 [] [(4, 0x10040)])) .lr .w64 o fun x => decide (x.g.cntLd < 63) && accSize o == 4
        && firstBad x.team .g 4 (Claims.laneList x (x.addrBase o.a true)) == none
        && (reaches x .g 4 .load false (Claims.laneList x (x.addrBase o.a true)) fun ok _ => ok.length == 2
            && (ok.all fun p => (x.s.reservations.filter fun r => r.gid != x.cu.gid &&
              homeSlice (128 * r.line) == homeSlice (p.2.headD 0)).length + ok.length ≤ 1024) &&
          !x.s.homeHeld x.cu.gid x.g.core (ok.flatMap (·.2))
            && ok.all fun p => p.2.all fun pa => x.s.memUp pa && !bankPoison x.s.mem pa)
        && (x.s.core x.g.core).outbound == [] && x.s.tenures == []) = true := by decide +kernel

/-- Lanes 0 and 1 at a boundary; where `held`, their group holds lane 0's reservation of the word at 0x10040. -/
def scState (held : Bool) : State :=
  let s := s2 { g1 [] [(4, 0x10040)] with lrCount := 1 }
  { s with reservations := if held then [⟨0, 0, (s.core 0).inc, 0x200, [(0, 0x10040, 4)]⟩] else [] }

theorem witness_ScStores : [true, false].all (fun held =>
    let o := sample .sc .w64 0
    boundaryBoth (scState held) .sc .w64 o fun x y => decide (x.g.cntLd < 63 ∧ y.g.cntLd < 63)
      && (match y.actReach .g 4 (Claims.laneList y (y.addrBase o.a true)) with
          | .go [(0, pa), (1, _)] => pa == 0x10040 && y.s.holds 0 0 pa 4 == held && !y.s.holds 0 1 pa 4
          | _ => false)) = true := by decide +kernel

theorem witness_OrderingInstructions : (
    [(Op.fence, 3 <<< 6), (.fence, 0), (.acq, 2 <<< 6), (.acq, 1 <<< 6), (.rel, 5 <<< 6), (.rel, 31 <<< 11 ||| 1 <<< 6)].all (fun r =>
        plainAt s0 r.1 .w64 (sample r.1 .w64 r.2) fun x => !x.s.drainHeld x.g.core (fun _ => true))
      && (let s := s0.setCore 0 { s0.core 0 with outbound := [{ outLine with late := true }] }
          plainAt s .rel .w64 (sample .rel .w64 (1 <<< 6)) (fun x => scopeOf (sample .rel .w64 (1 <<< 6)) == 1
            && !x.s.drainHeld 0 (releases false 1 (pathMask (sample .rel .w64 (1 <<< 6))) x.cu.gid)
            && (x.s.core 0).outbound.any fun q => q.late && q.gid == x.cu.gid))
      && plainAt (s1 (g1 [(4, 1023)] [])) .acqr .w64 (sample .acqr .w64 0) (fun x => (x.val (sr 4) true 0).toNat == 1023
        && !(x.s.core 1023).retired && !x.s.drainHeld 1023 (fun _ => true))
      && plainAt ((s1 (g1 [(4, 1023)] [])).setCore 1023 { s0.core 1023 with retired := true }) .acqr .w64 (sample .acqr .w64 0)
        (fun x => (x.val (sr 4) true 0).toNat == 1023 && (x.s.core 1023).retired)
      && plainAt (s1 (g1 [(4, 1024)] [])) .acqr .w64 (sample .acqr .w64 0) (fun x => (x.val (sr 4) true 0).toNat == 1024)) = true := by
  decide +kernel

/-- CARVE up, down to what the placed team needs, and of the number it has; the way floor is 1. -/
theorem witness_CarveAndPrefetch :
    ([0xC000, 0x1000, 0x2000].all (fun m => plainAt s0 .carve .w64 (sample .carve .w64 m) fun x => x.s.wayFloor 0 == 1)
      && plainAt (s0.setCore 0 { s0.core 0 with sw := 4 }) .carve .w64 (sample .carve .w64 0)
        (fun x => decide (max 0 (x.s.wayFloor x.g.core) < (x.s.core x.g.core).sw))
      && plainAt s0 .carve .w64 (sample .carve .w64 2)
      && [Len.w64, .w96].all (fun n => plainAt s0 .pref n (sample .pref n 0) fun x => x.s.lineKeys == [] && x.s.pageKeys == []
        && !x.s.walkersBusy (x.g.req x.cu.gid .load false) ((((lanesOf x.act).map (x.laneAddr (sample .pref n 0) .g 1)).filter fun a =>
          inSpace none .g a 1).map Int.toNat))) = true := by decide +kernel

theorem witness_TeamReduction :
    (let o := sample .gred .w64 0x2040
     plainAt s0 .gred .w64 o fun x => decide (x.g.cntLd < 63) && x.team.isSome && x.g.buf == []
        && (x.s.core x.g.core).scratch.poison == [] && reaches x .l 64 .load false [(0, ((x.val o.b false 0).toNat : Int))]) = true := by
  decide +kernel


/-! ## Witnesses: the matrix engine -/

/-- A group whose sample word finds the descriptor in S24 (S12 of a DRAIN) and the format block in S4 and S5. -/
def passState (desc fmt0 fmt1 : Nat) : State :=
  s1 (g1 [(24, BitVec.ofNat 64 desc), (12, BitVec.ofNat 64 desc), (4, BitVec.ofNat 64 fmt0), (5, BitVec.ofNat 64 fmt1)] [])

/-- Each clause of a pass: no room, an illegal format, a range past its buffer, a handle that is not live, and a pass that
is posted. The formats are FP16 with an FP32 accumulator; the tile's offset is 0, or the last 128 bytes but one. -/
theorem witness_PassesPost : Claims.passRows.all (fun r =>
    let o := sample r.op .w64 0x8000
    let legal := fun (x : IC) => x.canPost && !(r.bad x o || fmtIllegal (r.pass x o).fmt0.toNat (r.pass x o).fmt1.toNat)
    let clean := fun (x : IC) => x.g.vpoison == [] && !x.s.haltedAt x.g.ctx (matrixCode x.g.engine)
    plainAt (s1 { g1 [] [] with cntTl := 63 }) r.op .w64 o (fun x => clean x && !x.canPost)
      && plainAt (passState 0 0x6 0) r.op .w64 o (fun x => clean x && x.canPost && !legal x)
      && plainAt (passState 0 0x20101 0) r.op .w64 o (fun x => clean x && x.canPost && !legal x)
      && plainAt (passState 0x7FF 0x101 0) r.op .w64 o (fun x => clean x && legal x
        && (firstBadBuf x.team (r.pass x o).spans).isSome)
      && plainAt (passState 0 0x101 0x1000001) r.op .w64 o (fun x => clean x && legal x
        && firstBadBuf x.team (r.pass x o).spans == none && (r.pass x o).handle != 0
        && ((x.s.ctx x.g.ctx).liveHandle (r.pass x o).handle).isNone)
      && plainAt (s1 { g1 [(24, 0), (4, 0x101)] [] with track := { Track.clear with cl := BitVec.allOnes 64 } }) r.op .w64 o (fun x =>
        clean x && legal x && firstBadBuf x.team (r.pass x o).spans == none && (r.pass x o).handle == 0
        && ((x.tracked (Claims.footOf r.op .w64 o x)).track.passSlots (r.pass x o).z (r.pass x o).slotBytes).1.isSome)
      && plainAt (passState 0 0x101 0) r.op .w64 o (fun x => clean x && legal x
        && firstBadBuf x.team (r.pass x o).spans == none && (r.pass x o).handle == 0
        && ((x.tracked (Claims.footOf r.op .w64 o x)).track.passSlots (r.pass x o).z (r.pass x o).slotBytes).1 == none)) = true := by
  decide +kernel

theorem witness_DrainsPost_registers :
    (let o := { sample .drain .w64 0 with d := v 8 }
     issueMeets (passState 0 0x101 0) o.g fun x => !x.g.busy (Claims.footOf .drain .w64 o x)
      && (x.drainFoot .w64 o).outOfBounds x.g.allot == none && !x.g.busy (x.drainFoot .w64 o)
      && (x.g.track.reads (x.drainFoot .w64 o) x.act).firstIllegal (x.drainFoot .w64 o) x.act == none && x.canPost
      && x.drainFault (x.drainOp o).1 == none && (x.drainOp o).1.dreg == some 8
      && !x.s.haltedAt x.g.ctx (matrixCode x.g.engine)) = true := by decide +kernel

/-- To the team's scratch: 32 rows of 16 bytes, as 4-bit elements. -/
theorem witness_DrainsPost_memory : [Len.w64, .w96].all (fun n =>
    let o := sample .drain n 0x470 0
    let s := s1 (g1 [(12, 0x0010000000000000), (4, 0x101)] [])
    issueMeets s o.g fun x => !x.g.busy (Claims.footOf .drain n o x)
      && (x.drainFoot n o).outOfBounds x.g.allot == none && !x.g.busy (x.drainFoot n o)
      && (x.g.track.reads (x.drainFoot n o) x.act).firstIllegal (x.drainFoot n o) x.act == none && x.canPost
      && x.drainFault (x.drainOp o).1 == none && (x.drainOp o).1.dreg == none && !x.s.haltedAt x.g.ctx (matrixCode x.g.engine)
      && reaches x .l (((x.drainOp o).1.drainRows.head?.map (·.2)).getD 0) .store true
        ((x.drainOp o).1.drainRows.zipIdx.map fun r => (r.2, r.1.1)) fun ok _ =>
          storeConflict x.g.buf .l (Claims.drainBytes (x.drainOp o).1 ok) == none
            && overCapacity x.g.buf .l (Claims.drainBytes (x.drainOp o).1 ok) == none) = true := by decide +kernel

/-- A pass of the group of k k-steps, `kdone` of them done. -/
def pass0 (k kdone : Nat) : TileOp :=
  { id := 0, gid := 0, core := 0, kind := .mma, z := true, urgent := false, prio := 3, agedAt := 0, due := 0, pc := 0x10000,
    desc := BitVec.ofNat 64 ((k - 1) * 2 ^ 39), fmt0 := 0x101, fmt1 := 0, tiles := BitVec.allOnes 64, rows := [], pm := 1,
    bitmaps := 0, df := 0, rmr := 0, draws := [], rmin := 0, rmax := 0, rkind := 0, ract := 0, dreg := none, active := 3,
    space := .c, addr := 0, lines := [], regionNo := 0, kdone := kdone }
/-- Nothing of the group is at its engine, or an operation that it posted before on the same slot. -/
theorem witness_CzeroClears :
    [[], [{ pass0 1 0 with kind := .czero, addr := 0x3E000, tiles := 1 }]].all (fun rs =>
     let o := sample .czero .w64 1
     let s : State := { s1 (g1 [(4, 0x3E000)] []) with nextId := 1 }
     plainAt (s.setMatrix 0 ⟨rs, none, none, [], false⟩) .czero .w64 o fun x =>
      let off := (x.val o.a false 0).toNat
      let slots := (List.range 2).filter fun i => (x.tiles o.b).1.getLsbD i
      off % 4096 == 0 && firstBadBuf x.team [(Space.c, off, 8192)] == none && slots == [0, 1]
        && slots.all (fun i => !x.g.track.cl.getLsbD (off / 4096 + i)) && decide (x.g.cntTl < 63)
        && x.g.status == .running && (x.s.matrixEng x.g.engine).clears == []
        && (x.s.matrixEng x.g.engine).grantable (x.clearOp off 2 (x.tiles o.b).1) == rs.isEmpty) = true := by decide +kernel

theorem witness_TilePredicateLogic :
    (plainAt s0 .klop .w64 (sample .klop .w64 0x0A) && plainAt s0 .kset .w96 (sample .kset .w96 0 0x408)) = true := by decide +kernel

theorem witness_KzeroClears : plainAt s0 .kzero .w64 (sample .kzero .w64 0) = true := by decide +kernel

theorem witness_TilePredicateLoads_loads :
    ([Len.w64, .w96].all (fun n => plainAt s0 .kld n (sample .kld n 0x100 0) fun _ => mbit (sample .kld n 0x100 0).m 56)
      && [Len.w64, .w96].all fun n =>
        let o := sample .kld n 0 8
        plainAt (s1 (g1 [(4, 0x10040), (12, 0x1000001)] [])) .kld n o fun x => decide (x.g.cntLd < 63) && x.uniAddr o .g % 8 == 0
          && reaches x .g 8 .load false [(0, x.uniAddr o .g)] fun ok _ =>
            ((x.s.setGroup x.cu.gid (x.tracked (Claims.footOf .kld n o x))).readPlaces x.cu.gid x.g.core x.g.buf .g
              [(none, (ok.map (·.2)).headD [])]).2.headD [] |>.all (!·.2)) = true := by decide +kernel

/-- A store to fewer than 64 lines fits in an empty buffer. -/
theorem overCapacity_of_lines (sp : Space) (n : Nat) (bs : List StByte)
    (h : ∀ b ∈ bs, n ≤ b.at_ / 128 ∧ b.at_ / 128 < n + 64) : overCapacity [] sp bs = none := by
  have len (buf : List BufLine) (hb : ∀ e ∈ buf, n ≤ e.line ∧ e.line < n + 64) (hn : (buf.map (·.line)).Nodup) :
      ¬ 64 < buf.length := by
    have h1 : (buf.map (·.line)).toFinset ⊆ Finset.Ico n (n + 64) := by
      intro a ha
      obtain ⟨e, he, rfl⟩ := List.mem_map.1 (List.mem_toFinset.1 ha)
      exact Finset.mem_Ico.2 (hb e he)
    have h2 := Finset.card_le_card h1
    rw [List.toFinset_card_of_nodup hn, Nat.card_Ico, List.length_map] at h2
    omega
  suffices H : ∀ (buf : List BufLine), (∀ e ∈ buf, e.space = sp ∧ n ≤ e.line ∧ e.line < n + 64) → (buf.map (·.line)).Nodup →
      (bs.foldl (fun (p : List BufLine × Option Nat) b => match p.2 with
        | some _ => p
        | none =>
          let buf' := allocLine p.1 sp (b.at_ / 128) (b.va / 128)
          if 64 < buf'.length then (p.1, some b.va) else (buf', none)) (buf, none)).2 = none from H [] (by simp) (by simp)
  induction bs with
  | nil => intro buf _ _; rfl
  | cons b bs ih =>
    intro buf hb hn
    have hb1 := h b (by simp)
    have key : (∀ e ∈ allocLine buf sp (b.at_ / 128) (b.va / 128), e.space = sp ∧ n ≤ e.line ∧ e.line < n + 64)
        ∧ ((allocLine buf sp (b.at_ / 128) (b.va / 128)).map (·.line)).Nodup := by
      unfold allocLine
      split
      · exact ⟨hb, hn⟩
      · rename_i hl
        refine ⟨fun e he => ?_, ?_⟩
        · rcases List.mem_append.1 he with he | he
          · exact hb e he
          · obtain rfl := List.mem_singleton.1 he
            exact ⟨rfl, hb1⟩
        · rw [List.map_append, List.nodup_append]
          refine ⟨hn, by simp, ?_⟩
          intro a ha c hc hac
          obtain ⟨e, he, rfl⟩ := List.mem_map.1 ha
          simp only [List.map_cons, List.map_nil, List.mem_singleton] at hc
          exact hl (by simp only [hasLine, List.any_eq_true]; exact ⟨e, he, by simp [(hb e he).1, hac, hc]⟩)
    simp only [List.foldl_cons]
    rw [if_neg (len _ (fun e he => (key.1 e he).2) key.2)]
    exact ih (fun c hc => h c (by simp [hc])) _ key.1 key.2

theorem witness_TilePredicateLoads_transpose :
    ∃ x, Plain (s1 (g1 [(4, 0x400), (24, 0x400)] [])) Guard.none
        (Claims.footOf .bxpose .w64 (sample .bxpose .w64 (2 <<< 9 ||| 3 <<< 6 ||| 1))) x ∧
      (let o := sample .bxpose .w64 (2 <<< 9 ||| 3 <<< 6 ||| 1)
       let bank := ((x.s.core x.g.core).seenBy 2).bank .a
       let src := (run 0x400 1024).map fun p => seeByte x.g.buf .a none p (bankByte bank p, bankPoison bank p)
       let bs := ((List.range 1024).flatMap fun e => transposed 8 src e).zipIdx.map fun q =>
         (⟨0x400 + q.2, 0x400 + q.2, q.1.1, none, q.1.2, none⟩ : StByte)
       (x.val o.d false 0).toNat = 0x400 ∧ (x.val o.a false 0).toNat = 0x400 ∧
        firstBadBuf x.team [(accSpace o, 0x400, 1024)] = none ∧ firstBadBuf x.team [(spaceOf (mfld o.m 56 54), 0x400, 1024)] = none ∧
        x.g.awaits .a (run 0x400 1024) = false ∧ storeConflict x.g.buf (accSpace o) bs = none ∧
        overCapacity x.g.buf (accSpace o) bs = none) := by
  obtain ⟨x, hx, hq⟩ := plain_of_meets (s := s1 (g1 [(4, 0x400), (24, 0x400)] [])) (gd := Guard.none)
    (f := Claims.footOf .bxpose .w64 (sample .bxpose .w64 (2 <<< 9 ||| 3 <<< 6 ||| 1)))
    (q := fun x => x.g.buf == [] && (x.val (sr 24) false 0).toNat == 0x400 && (x.val (sr 4) false 0).toNat == 0x400
      && firstBadBuf x.team [(.w, 0x400, 1024)] == none && firstBadBuf x.team [(.a, 0x400, 1024)] == none
      && !x.g.awaits .a (run 0x400 1024)) (by decide +kernel)
  simp only [Bool.and_eq_true, beq_iff_eq, Bool.not_eq_true'] at hq
  obtain ⟨⟨⟨⟨⟨h1, h2⟩, h3⟩, h4⟩, h5⟩, h6⟩ := hq
  refine ⟨x, hx, h2, h3, h4, h5, h6, ?_, ?_⟩
  · simp [h1, storeConflict, bufByte]
  · rw [h1]
    refine overCapacity_of_lines _ 8 _ fun b hb => ?_
    obtain ⟨q, hq, rfl⟩ := List.mem_map.1 hb
    have hlt := (List.mem_zipIdx hq).2.1
    have hlen (l : List Nat) (src : List (Byte × Bool)) : (l.flatMap fun e => transposed 8 src e).length ≤ l.length := by
      induction l with
      | nil => simp
      | cons a l ih =>
        have h1 : (transposed 8 src a).length ≤ 1 := by simp only [transposed, List.length_take]; omega
        simp only [List.flatMap_cons, List.length_append, List.length_cons]; omega
    have h7 := hlen (List.range 1024) ((run 0x400 1024).map fun p => seeByte [] .a none p
      (bankByte (((x.s.core x.g.core).seenBy 2).bank .a) p, bankPoison (((x.s.core x.g.core).seenBy 2).bank .a) p))
    rw [List.length_range] at h7
    show 8 ≤ (0x400 + q.2) / 128 ∧ (0x400 + q.2) / 128 < 8 + 64
    omega

/-! ## Witnesses: counters, batches, waits, barriers, copies -/

theorem witness_CountersReadAndAwaited :
    (plainAt (s1 { g1 [] [] with cntLd := 3, cntSt := 2, cntTl := 5 }) .waitc .w64 { sample .waitc .w64 0x83 with c := .tl 5 }
        (fun x => decide (x.g.cntLd ≤ 3 ∧ x.g.cntSt ≤ 2 ∧ x.g.cntTl ≤ 5))
      && plainAt (s1 { g1 [] [] with cntLd := 4 }) .waitc .w64 { sample .waitc .w64 0x83 with c := .tl 5 } (fun x =>
        decide (3 < x.g.cntLd))
      && [0, 5, 9, 14].all (fun n => plainAt s0 .cntrd .w64 (sample .cntrd .w64 n) fun x => (Claims.counterValues x).any (·.1 == n))
      && [6, 7, 8].all (fun n => [(3, true), (4, false), (127, false)].all fun r =>
        plainAt (s1 (g1 [(4, r.1)] [])) .cntrd .w64 (sample .cntrd .w64 n) fun x =>
          (x.team.map fun t => decide ((x.val (sr 4) true 0).toNat % 128 < t.barriers.length)) == some r.2)
      && [10, 11].all (fun n => [(255, true), (256, false)].all fun r =>
        plainAt (s1 (g1 [(4, r.1)] [])) .cntrd .w64 (sample .cntrd .w64 n) fun x =>
          decide ((x.val (sr 4) true 0).toNat < 256) == r.2)) = true := by decide +kernel

def batches (n : Nat) : List Batch := (List.range n).map fun i => ⟨i + 1, 1⟩

theorem witness_CopyBatches :
    (plainAt s0 .closeb .w64 (sample .closeb .w64 0) (fun x => x.g.pend == 0)
      && plainAt (s1 { g1 [] [] with pend := 1, latest := 15, batches := batches 15 }) .closeb .w64 (sample .closeb .w64 0)
        (fun x => x.g.pend != 0 && decide (x.g.batches.length < 16))
      && plainAt (s1 { g1 [] [] with pend := 1, latest := 16, batches := batches 16 }) .closeb .w64 (sample .closeb .w64 0)
        (fun x => x.g.pend != 0 && decide (16 ≤ x.g.batches.length))
      && plainAt s0 .waitb .w64 (sample .waitb .w64 0) (fun x => atOrBefore 0 x.g.latest.toNat && !x.g.batchOpen 0)
      && plainAt (s1 (g1 [(4, 1)] [])) .waitb .w64 (sample .waitb .w64 0) (fun x => !atOrBefore 1 x.g.latest.toNat)
      && plainAt (s1 { g1 [(4, 2)] [] with latest := 2, batches := batches 2 }) .waitb .w64 (sample .waitb .w64 0)
        (fun x => x.g.batchOpen 2)) = true := by decide +kernel

/-- A wait on the 4 bytes at an address, whose value is `val`: the word is read at its home, without poison. -/
def waitReads (x : IC) (op : Op) (o : Ops) (a val : Nat) : Bool :=
  match x.s.span (x.g.req x.cu.gid .load false) a 4 with
  | .ok pas =>
    let rd := (x.s.setGroup x.cu.gid (x.tracked (Claims.footOf op .w64 o x))).groupRead x.cu.gid x.g.core (pas.headD 0) 4
    !x.s.homeHeld x.cu.gid x.g.core pas && rd.2.all (!·.2) && leNat (rd.2.map (·.1)) == val
  | _ => false

/-- SLEEPM on the word 0x11 at 0x10040, which differs from or equals S12; CRWAIT for record 1 of the ring at 0x10000. -/
theorem witness_WaitsOnMemory :
    ([0x10, 0x11].all (fun w => let o := sample .sleepm .w64 0
        plainAt (put [(0x10040, 0x11)] (s1 (g1 [(4, 0x10040), (12, w)] []))) .sleepm .w64 o fun x =>
          (x.val (sr 4) true 0).toNat == 0x10040 && (x.val (sr 12) true 0).toNat == w.toNat && waitReads x .sleepm o 0x10040 0x11)
      && [0, 1].all (fun n => let o := sample .crwait .w64 0
        plainAt (put [(24, 0x10006), (0x10000, n * 2 ^ 32)] (s1 (g1 [(4, 1)] []))) .crwait .w64 o fun x =>
          x.s.ringDefined x.g.ctx && x.s.ringSlot x.g.ctx 1 == 0x10000 && waitReads x .crwait o 0x10004 n)) = true := by decide +kernel

/-- The small machine at a boundary, with barrier 3 in a state. -/
def withBarrier (arr : Nat) : State :=
  b0.setTeam 0 { team1 with barriers := List.replicate 3 ⟨2, 1, 0, 0⟩ ++ [⟨2, 1, arr, 9⟩] }

theorem witness_NamedBarriers_arrivals :
    [(0, 0x0000, false), (0, 0x4000, false), (1, 0x4000, true), (0, 0xC000, false)].all (fun r =>
      let o := { sample .bar .w64 r.2.1 with a := .bar 3 }
      boundaryAt (withBarrier r.1) .bar .w64 o fun y => match y.team with
        | some t => decide (opNum o.a < t.barriers.length) && !y.g.lateOn 3 && (t.barrier 3).hasRole y.g.role && y.g.live != 0
          && y.g.status == .running && y.cu.len == 8
          && decide (t.expected (t.barrier 3) ≤ (t.barrier 3).arr + 1) == r.2.2
        | none => false) = true := by decide +kernel

theorem witness_NamedBarriers_limits :
    (boundaryAt ((s2 { g1 [] [] with role := 1 }).setTeam 0 team1) .bar .w64 { sample .bar .w64 0 with a := .bar 3 } (fun y =>
        y.team.any fun t => !(t.barrier 3).hasRole y.g.role)
      && boundaryAt b0 .bar .w64 { sample .bar .w64 0 with a := .bar 4 } (fun y => (y.team.map (·.barriers.length)) == some 4)
      && plainAt (s1 (g1 [(4, 0xF10)] [])) .barset .w64 { sample .barset .w64 0 with d := .bar 3 } (fun x =>
        (x.val (sr 4) true 0).toNat == 0xF10 && x.team.isSome)
      && plainAt s0 .barset .w96 { sample .barset .w96 0 0x304 with d := .bar 0 } (fun x => x.team.isSome)) = true := by
  decide +kernel

/-- Room for two copies, one for each lane; CPYV without its target, and with the group itself as the target. -/
theorem witness_CopiesPost :
    [(Op.cpy, 0, false), (.cpyg, 0, false), (.cpyv, 1, false), (.cpyv, 0, true)].all (fun r =>
      let o := { sample r.1 .w64 r.2.1 with d := if r.1 = .cpyv then v 31 else no }
      boundaryAt b0 r.1 .w64 o fun y => (lanesOf y.act).length == 2 && y.g.live != 0
        && !y.s.haltedAt y.g.ctx (copyCode y.g.engine)
        && decide ((y.s.copyEngine y.g.engine).queue.length + 2 ≤ 64) && decide (y.g.pend + 2 ≤ 255)
        && !y.s.drainHeld y.g.core (fun q => q.gid == y.cu.gid && q.onPaths 3)
        && (r.1 != .cpyv || (match y.teamGroup (mfld o.m 51 48) with
          | none => !r.2.2
          | some (_, h) => r.2.2 && decide (y.g.opV o.d + (mfld o.m 57 53 + 1) ≤ h.allot) && !h.evicted && !h.evicting))) = true := by
  decide +kernel

/-! ## Witnesses: tile handles and tenure -/

/-- A descriptor at 0x10040 of 128 bytes at 0x10080: 128 bytes by 1 by 1 by 1; and handle 1 live with it. -/
def descWords : List (Nat × Nat) := [(0x10040, 0x10080), (0x10048, 0x0001000100000080), (0x10050, 1)]
def desc0 : Nat := 0x10080 + 0x80 * 2 ^ 64 + 2 ^ 96 + 2 ^ 112 + 2 ^ 128
def handle1 : Handle := Handle.reset.describe desc0

/-- With handle 1 live. -/
def withHandle (s : State) : State := s.setCtx 0 ((s.ctx 0).setHandle 1 handle1)

/-- Its value. -/
def hv : W64 := 0x1000001

def thnewMeets (s : State) (bad : Bool) (q : IC → Bool) : Bool :=
  boundaryAt s .thnew .w64 (sample .thnew .w64 0) fun y => y.g.live != 0 && (y.val (sr 4) true 0).toNat == 0x10040
    && (match y.actOne .load false 0x10040 32 with
        | .go pa =>
          let rd := y.s.groupRead 0 y.g.core pa 32
          rd.2.all (!·.2) && handleDescBad (leNat (rd.2.map (·.1))) == bad
        | _ => false) && q y

theorem witness_ThnewMakesHandle :
    (thnewMeets (put descWords (s2 (g1 [(4, 0x10040)] []))) false (fun y => (y.s.ctx y.g.ctx).freeAbove 0 == some 1)
      && thnewMeets (s2 (g1 [(4, 0x10040)] [])) true (fun _ => true)) = true := by decide +kernel

/-- Every handle index but 0 in use. -/
def fullTable : List (Nat × Handle) := (List.range' 1 65535).map fun i => (i, handle1)

theorem fullTable_has (i : Nat) (h : 1 ≤ i ∧ i < 65536) : smGet Handle.reset fullTable i = handle1 := by
  have key : ∀ (n a i : Nat), a ≤ i → i < a + n →
      smFind ((List.range' a n).map fun i => (i, handle1)) i = some handle1 := by
    intro n
    induction n with
    | zero => intro a i h1 h2; omega
    | succ n ih =>
      intro a i h1 h2
      rw [List.range'_succ, List.map_cons]
      simp only [smFind]
      split
      · rfl
      · exact ih (a + 1) i (by omega) (by omega)
  unfold smGet fullTable
  rw [key 65535 1 i h.1 (by omega)]
  rfl

theorem fullTable_full (c : Ctx) (h : c.handles = fullTable) : c.freeAbove 0 = none := by
  have key : ∀ (n i : Nat), 1 ≤ i → i + n ≤ 65536 → c.freeFrom n i = none := by
    intro n
    induction n with
    | zero => intro i _ _; rfl
    | succ n ih =>
      intro i h1 h2
      have h3 : (c.handle i).state ≠ 0 := by
        unfold Ctx.handle
        rw [h, fullTable_has i ⟨h1, by omega⟩]
        decide
      rw [Ctx.freeFrom, if_neg h3]
      exact ih (i + 1) (by omega) (by omega)
  exact key 65535 1 (by omega) (by omega)

/-- The small machine at a THNEW with no free index. -/
def fullState : State :=
  let s := put descWords (s2 (g1 [(4, 0x10040)] []))
  s.setCtx 0 { s.ctx 0 with handles := fullTable }

theorem fullState_handles : ((fullState.close 0).ctx 0).handles = fullTable := by
  with_unfolding_all rfl

theorem witness_ThnewMakesHandle_full : ∃ x y, Boundary fullState Guard.none (Claims.footOf .thnew .w64 (sample .thnew .w64 0)) x y ∧
    y.g.live ≠ 0 ∧ (y.val (sr 4) true 0).toNat = 0x10040 ∧ (y.s.ctx y.g.ctx).freeAbove 0 = none ∧
    (match y.actOne .load false 0x10040 32 with
      | .go pa => (y.s.groupRead 0 y.g.core pa 32).2.all (!·.2) &&
          !handleDescBad (leNat ((y.s.groupRead 0 y.g.core pa 32).2.map (·.1)))
      | _ => false) = true := by
  obtain ⟨x, y, hb, hq⟩ := boundary_of_meets (s := fullState) (gd := Guard.none)
    (f := Claims.footOf .thnew .w64 (sample .thnew .w64 0))
    (q := fun x y => x.cu.gid == 0 && y.g.ctx == 0 && y.g.live != 0 && (y.val (sr 4) true 0).toNat == 0x10040
      && (match y.actOne .load false 0x10040 32 with
        | .go pa => (y.s.groupRead 0 y.g.core pa 32).2.all (!·.2) &&
            !handleDescBad (leNat ((y.s.groupRead 0 y.g.core pa 32).2.map (·.1)))
        | _ => false)) (by decide +kernel)
  simp only [Bool.and_eq_true, beq_iff_eq, bne_iff_ne] at hq
  obtain ⟨⟨⟨⟨h1, h2⟩, h3⟩, h4⟩, h5⟩ := hq
  refine ⟨x, y, hb, h3, h4, ?_, h5⟩
  have hs : y.s = fullState.close 0 := by rw [hb.after, h1]
  rw [hs, h2]
  exact fullTable_full _ fullState_handles

/-- The group holds a tenure on handle 1, or another group does. -/
def tenure (gid : Nat) (write : Bool) : Tenure := ⟨0, 0, 1, 1, gid, 0, 0, (s0.core 0).inc, write, false, 0, [0x201], 0⟩

def acqMeets (s : State) (o : Ops) (q : IC → TenureReq → Bool) : Bool :=
  boundaryAt s .thacq .w64 o fun y => y.g.live != 0 && (match (y.s.ctx y.g.ctx).liveHandle (y.handleIn o.a) with
    | none => false
    | some h => match y.tilePages h (mbit o.m 63) with
      | .ok pages => (y.tenureReq o (y.handleIn o.a) h pages).lines == h.vlines.map (lineIn pages)
          && q y (y.tenureReq o (y.handleIn o.a) h pages)
      | .error _ => false)

theorem witness_ThacqAcquires :
    (boundaryAt (s2 (g1 [(4, hv + 1)] [])) .thacq .w64 (sample .thacq .w64 0) (fun y =>
        (y.s.ctx y.g.ctx).liveHandle (y.handleIn (sr 4)) == none)
      && [0, 0x8000].all (fun m => acqMeets (withHandle (s2 (g1 [(4, hv)] []))) (sample .thacq .w64 m) fun y r =>
        r.lines == [0x201] && y.s.tenures == [] && y.s.tenureReqs == [])
      && [(0, []), (0x8000, []), (0x4000, [tenure 7 true]), (0x8000, [tenure 0 true])].all (fun m =>
        acqMeets { withHandle (s2 (g1 [(4, hv)] [])) with tenures := m.2 } (sample .thacq .w64 m.1) fun y r =>
          let u : State := { y.s with nextId := y.s.nextId + 1 }
          u.grantsNow r (mbit (BitVec.ofNat 16 m.1) 62) && !u.grantHeld r)
      && [0, 0x8000].all (fun m => acqMeets { withHandle (s2 (g1 [(4, hv)] [])) with tenures := [tenure 7 true] }
        (sample .thacq .w64 m) fun y r => !mbit (BitVec.ofNat 16 m) 62
          && y.s.tenures.any (fun n => n.gid != 0 && n.write && linesMeet n.lines r.lines)
          && y.s.tenures.all (fun n => n.gid != 0))) = true := by decide +kernel

/-- A request of the group for handle 1 that waits, with a deadline of cycle 16. -/
def request (write : Bool) : TenureReq := ⟨5, 0, 1, 1, 0, 0, 0, (s0.core 0).inc, write, 0, [0x201], some 16, 24, 0x10000⟩

def requested (cycle : W64) (ts : List Tenure) : State :=
  let s := s1 { g1 [] [] with status := .atTenure 5 }
  let s := s.setDie 0 { s.die 0 with cycle := cycle }
  { s with tenureReqs := [request true], tenures := ts }

theorem witness_TenureRequestsEnd :
    ((requested 0 []).request 5 == some (request true, []) && (requested 0 []).grantable (request true) []
      && !(requested 0 []).grantHeld (request true)
      && ((requested 0 []).group? 0).map (·.status) == some (.atTenure 5)
      && !(requested 16 [tenure 7 true]).grantable (request true) []
      && decide (16 ≤ ((requested 16 [tenure 7 true]).die 0).cycle.toNat)
      && ((requested 16 [tenure 7 true]).group? 0).any (fun g => g.live != 0)) = true := by decide +kernel

theorem witness_TenureReleased :
    (let own := fun (y : IC) (o : Ops) (t : Tenure) => t.gid == y.cu.gid && nfld (y.handleIn o.a) 23 16 == 0
        && t.on y.g.ctx (y.handleIn o.a % 65536) (BitVec.ofNat 8 (nfld (y.handleIn o.a) 31 24))
     boundaryAt { withHandle (s2 (g1 [(4, hv)] [])) with tenures := [tenure 0 true] } .threl .w64 (sample .threl .w64 0) (fun y =>
        y.g.live != 0 && y.s.tenures.any (own y (sample .threl .w64 0)) && !y.s.tenuresHeld (own y (sample .threl .w64 0)))
      && boundaryAt { withHandle (s2 (g1 [(4, hv)] [])) with tenures := [tenure 7 true] } .threl .w64 (sample .threl .w64 0) (fun y =>
        y.g.live != 0 && !y.s.tenures.any (own y (sample .threl .w64 0)))
      && boundaryAt { withHandle (s2 (g1 [(4, hv)] [])) with tenures := [tenure 0 false] } .thfree .w64 (sample .thfree .w64 0) (fun y =>
        y.g.live != 0 && y.s.tenureReqs == [] && (match (y.s.ctx y.g.ctx).liveHandle (y.handleIn (sr 4)) with
          | some h => !y.s.tenuresHeld (fun t => t.on y.g.ctx (y.handleIn (sr 4) % 65536) h.gen)
          | none => false))) = true := by decide +kernel

/-- Handle 1 of 128 by 2 bytes is cut at row 1 of dimension 1, with a tenure held on it. -/
theorem witness_ThsplitMakesChildren :
    (let s := s2 (g1 [(4, hv), (12, 0x100000001)] [])
     let s := s.setCtx 0 ((s.ctx 0).setHandle 1 { handle1 with e1 := 2, st1 := 128 })
     let s : State := { s with tenures := [tenure 0 true] }
     boundaryAt s .thsplit .w64 (sample .thsplit .w64 0) fun y =>
      let cut := (y.val (sr 12) true 0).toNat
      y.g.live != 0 && y.s.tenureReqs == [] && nfld cut 31 2 == 0 && cut / 2 ^ 32 == 1 && cut % 4 == 1
        && (match (y.s.ctx y.g.ctx).liveHandle (y.handleIn (sr 4)) with
          | some h =>
            let c := y.s.ctx y.g.ctx
            let a := h.child 1 1 false (c.handle 2).gen
            let b := h.child 1 1 true (c.handle 3).gen
            let held := y.s.tenures.filter fun t => t.on y.g.ctx 1 h.gen
            decide (1 < h.e1.toNat) && held.length == 1
              && (match ({ y.s.setCtx y.g.ctx (((c.setHandle 2 a).setHandle 3 b).setHandle 1 h.freed) with
                  tenures := y.s.tenures.filter fun t => !t.on y.g.ctx 1 h.gen
                  nextId := y.s.nextId + 2 * held.length } : State).seat (inheritAll held h a b 2 3 y.s.nextId) with
                | .ok _ => true
                | .error _ => false)
          | none => false)
        && (y.s.ctx y.g.ctx).freeAbove 0 == some 2 && (y.s.ctx y.g.ctx).freeAbove 2 == some 3) = true := by decide +kernel

theorem witness_HandleQueryAndBounds :
    (plainAt (s1 (g1 [(4, hv)] [])) .thqry .w64 (sample .thqry .w64 0)
      && plainAt (s1 (g1 [(4, hv)] [])) .thbnd .w64 (sample .thbnd .w64 2) (fun x =>
        (x.s.ctx x.g.ctx).liveHandle (x.handleIn (sr 4)) == none)
      && [(0x0000000500000004, false), (0x0000000400000004, false), (0x0000000400000005, true)].all (fun r =>
        plainAt (withHandle (s1 (g1 [(4, hv), (12, r.1)] []))) .thbnd .w64 (sample .thbnd .w64 2) fun x =>
          ((x.s.ctx x.g.ctx).liveHandle (x.handleIn (sr 4))).isSome
            && rangeBad 2 ((x.val (sr 12) true 0).setWidth 32) ((x.val (sr 12) true 0).extractLsb' 32 32) == r.2)) = true := by
  decide +kernel

/-! ## Witnesses: the Seam and step sets -/

/-- World 0 open, of context 0, with four bodies. -/
def seam (s : State) : State :=
  s.setWorld 0 { World.reset with isOpen := true, desc := { World.reset.desc with nbody := 4 } }

/-- Bodies 0 and 1 in lane 0; the index register S16 names world 0. -/
def bodies (a b : Nat) : Machine.Group := g1 [] [(4, BitVec.ofNat 32 a), (12, BitVec.ofNat 32 b)]

theorem witness_ReportsAccepted :
    ([Op.seam, .unpick].all (fun p => boundaryAt (seam (s2 (bodies 0 3))) p .w64 (sample p .w64 1) fun y =>
        (match y.worldIn (sr 16) with
          | .ok w => w == 0 && y.badBody w [v 4, v 12] == none
              && decide ((y.s.world w).stream.length + (lanesOf y.act).length ≤ 1024)
          | .error _ => false) && y.g.live != 0)
      && boundaryAt (seam (s2 (bodies 3 0))) .wake .w64 (sample .wake .w64 0) (fun y =>
        (match y.worldIn (sr 16) with
          | .ok w => w == 0 && y.badBody w [v 4] == none
          | .error _ => false) && y.g.live != 0)) = true := by decide +kernel

def gang1 : Gang := { world := 0, step := 1, island := 0, firstRank := 0, panel := 0, bodies := [0, 1], staged := true, written := false }

/-- The small machine with its team a gang. -/
def ganged (s : State) : State := (seam s).setTeam 0 { team1 with gang := some gang1 }

theorem witness_SettleAndStepClose :
    (boundaryAt b0 .settle .w64 (sample .settle .w64 0) (fun y => y.gang == none)
      && boundaryAt (ganged b0) .settle .w64 (sample .settle .w64 0) (fun y => y.gang == some gang1)
      && [World.reset, { World.reset with closing := true }, { World.reset with error := true }].all (fun w =>
        boundaryAt (b0.setWorld 0 { w with isOpen := true }) .stepc .w64 (sample .stepc .w64 0) fun y =>
          (match y.worldIn (sr 4) with
            | .ok w => w == 0
            | .error _ => false) && !y.s.drainHeld y.g.core (fun _ => true) && y.g.live != 0)) = true := by decide +kernel

/-- One group of a panel of two groups, none or one of which has arrived. -/
def panel (arrived : Nat) : State :=
  let s := (ganged b0).setTeam 0 { team1 with gang := some gang1, shape := { team1.shape with groups := [2] }, groupsLeft := 2 }
  s.setWorld 0 { s.world 0 with loosePanels := if arrived = 0 then [] else [(0, (0, arrived))] }

theorem witness_PanelBarrier : [0, 1].all (fun n =>
    boundaryAt (panel n) .pbar .w64 (sample .pbar .w64 0) fun y => match y.gang with
      | none => false
      | some g =>
        let p := y.s.panelState y.g.team g
        let ts := y.s.panelTeams y.g.team g
        let total := (ts.map fun kv => Shape.total kv.2.shape).foldl (· + ·) 0
        let left := (ts.map fun kv => kv.2.groupsLeft).foldl (· + ·) 0
        !y.s.drainHeld y.g.core (fun _ => true) && y.g.live != 0 && ts.any (fun t => t.1 == y.g.team)
          && decide (p.2 + 1 + (total - left) < total) == (n == 0)) = true := by decide +kernel

/-- Island 1 of die 0 with generation 1; a close of world 0 that is running, or none. -/
def islands (s : State) (closing : Bool := false) : State :=
  let s := seam s
  let s := s.setWorld 0 { s.world 0 with launch := if closing then some [] else none }
  s.setDie 0 ((s.die 0).setIsland 1 { Island.reset with state := 1, nb := 2, user := 7 })

theorem witness_IslandReports :
    ([(0, false), (0x10001, false), (0x10001, true)].all (fun r => [Op.isld, .isst].all fun p =>
        plainAt (islands (s1 (g1 [(4, BitVec.ofNat 64 r.1)] [])) r.2) p .w64 (sample p .w64 0)
          (fun x => (x.islandIn (sr 4)).isSome == (r.1 != 0) && x.islandWaits (sr 4) == r.2))
      && plainAt (s1 (bodies 3 0)) .islq .w64 (sample .islq .w64 0) (fun x => !(x.worldIn (sr 16)).isOk)
      && [true, false].all fun c => plainAt (islands (s1 (bodies 3 0)) c) .islq .w64 (sample .islq .w64 0) fun x => match x.worldIn (sr 16) with
        | .ok w => x.badBody w [v 4] == none && x.s.closeRunning w == c
        | .error _ => false) = true := by decide +kernel

/-- Step set 0 in a state at a step. -/
def withSet (state : BitVec 2) (step : W32) (s : State) : State :=
  s.setCtx 0 ((s.ctx 0).setSet 0 { StepSet.reset with state := state, epoch := 1, step := step, map := 0x10100, tcnt := 1, thr := 1, maxRun := 1 })

theorem witness_StepSetsOpen_again :
    [(2, 1), (0, 0), (1, 1), (1, 0xFFFFFFFE)].all (fun r =>
      boundaryAt (withSet r.1 r.2 b0) .sqopen .w64 (sample .sqopen .w64 0) fun y =>
        (match y.setNumber (sr 4) false with
          | .ok n => n == 0 && (((y.s.ctx y.g.ctx).set n).state == r.1) && ((y.s.ctx y.g.ctx).set n).step != 0xFFFFFFFF
          | .error _ => false) && y.s.sequencerUp 0 && !y.s.drainHeld y.g.core (fun _ => true) && y.g.live != 0) = true := by decide +kernel

/-- A descriptor at 0x10040 of one record at 0x10100, and the reports: the set is open, or a reserved field is not 0, or the
handle is not live. -/
theorem witness_StepSetsOpen_init :
    [(0, 0, 0x10000), (1, 0, 0x10000), (2, 0, 0x10000), (1, 0, 0x1000000), (1, 1, 0x10000)].all (fun r =>
      let s := reached (.sequencer 0) [0x10]
        (put [(0x10040, 0x10100), (0x10048, 0x0001000100000000 + r.2.1), (0x10050, r.2.2)] (s2 (g1 [(12, 0x10040)] [])))
      boundaryAt (withSet r.1 1 s) .sqopen .w64 (sample .sqopen .w64 0x8000) fun y =>
        (y.setNumber (sr 4) false).isOk && y.s.sequencerUp 0 && y.g.live != 0 && (y.val (sr 12) true 0).toNat == 0x10040
          && (match y.actOne .load false 0x10040 32 with
            | .go pa =>
              let rd := y.s.groupRead y.cu.gid y.g.core pa 32
              let w := leNat (rd.2.map (·.1))
              let e := (y.s.ctx y.g.ctx).set 0
              let e1 : StepSet := { e with map := BitVec.ofNat 57 w, handle := BitVec.ofNat 32 (nfld w 95 64), tcnt := nfld w 111 96,
                                           thr := BitVec.ofNat 32 (nfld w 143 112), maxRun := BitVec.ofNat 8 (nfld w 151 144), total := 0 }
              let dead : Bool := nfld w 95 64 != 0 && ((y.s.ctx y.g.ctx).liveHandle (nfld w 95 64)).isNone
              rd.2.all (!·.2) && e.state == r.1 && setDescBad w == (r.2.2 != 0x10000) && dead == (r.2.1 != 0)
                && !rd.1.drainHeld y.g.core (fun _ => true) && !rd.1.recordsWait y.g.ctx 0 e1 (List.range e1.tcnt) true
                && !((e1.epochBytes rd.1 y.g.ctx 0).filterMap id).any (fun a => rd.1.writeHeld a 2)
            | _ => false)) = true := by decide +kernel

theorem witness_SignaturesAndClose :
    (boundaryAt (reached (.sequencer 0) [0x10] (withSet 2 1 b0)) .sqsig .w64 (sample .sqsig .w64 0) (fun y => (y.setNumber (sr 16) true).isOk && y.g.vpoison == []
        && !y.s.deliveryHeld y.g.ctx 0 ((y.val (sr 12) true 0).toNat % 65536) && y.g.live != 0)
      && [1, 2].all (fun st => boundaryAt (withSet st 1 b0) .sqclose .w64 (sample .sqclose .w64 0) fun y =>
        (y.setNumber (sr 4) true).isOk && y.s.sequencerUp 0 && y.g.live != 0)) = true := by decide +kernel

/-- A record of the open epoch whose reference sums are 5 and 6, skipped once. -/
theorem witness_DeliverySkipsOrStarts :
    (let e : StepSet := { StepSet.reset with state := 2, epoch := 1, step := 3, thr := 1, maxRun := 2, tcnt := 1 }
     let r : TileRec := ⟨5, 6, 1, true, 1, 2⟩
     r.valid e && withinThreshold 1 5 6 5 6 && decide (r.run < 2) && !withinThreshold 1 50 6 5 6
      && !(⟨5, 6, 1, true, 0, 2⟩ : TileRec).valid e) = true := by decide +kernel

/-- The records of a set of two tiles, which its sequencer reaches. -/
def twoTiles : State :=
  let s := reached (.sequencer 0) [0x10] (withSet 2 1 s0)
  s.setCtx 0 ((s.ctx 0).setSet 0 { (s.ctx 0).set 0 with tcnt := 2 })

theorem witness_SkipPredicates :
    (plainAt twoTiles .skld .w64 (sample .skld .w64 0) (fun x => (x.setNumber (sr 4) true).isOk && decide (x.g.cntLd < 63)
        && x.s.sequencerUp 0 && x.s.tenures == []
        && (let e := (x.s.ctx x.g.ctx).set 0
            let t0 := (x.val (sr 12) true 0).toNat % 65536
            !x.s.recordsWait x.g.ctx 0 e (e.window t0) false && !x.s.intrudeWaits none
              ((x.s.windowRecords x.g.ctx 0 e t0 false).flatMap fun p => p.2.toList.flatMap fun pa => run pa 16)))
      && plainAt twoTiles .skst .w64 (sample .skst .w64 0) (fun x => (x.setNumber (sr 4) true).isOk && x.s.sequencerUp 0
        && (let e := (x.s.ctx x.g.ctx).set 0
            let recs := x.s.windowRecords x.g.ctx 0 e ((x.val (sr 12) true 0).toNat % 65536) true
            !x.s.recordsWait x.g.ctx 0 e (e.window ((x.val (sr 12) true 0).toNat % 65536)) true &&
            recs == [(0, some 0x10100), (1, some 0x10110)] && !(recs.filterMap (·.2)).any (fun pa => x.s.writeHeld pa 16)
              && decide ((recs.filterMap (·.2)).Pairwise fun a b => a + 16 ≤ b ∨ b + 16 ≤ a)
              && x.s.tenures == [] && (List.range 32).all fun i => x.s.memUp (0x10100 + i)))) = true := by
  decide +kernel

/-! ## Witnesses: events of faults, scheduling and the engines -/

/-- A walk for a load of page 0x10 of context 0, with or without tables behind it. -/
def walk0 : Walk := ⟨3, 0, 0, 0x10, [⟨.load, false, 0, 0x10040, some 0, some 0, .group 0 false⟩]⟩

def rec0 : FaultRec := ⟨1, 0, 0x10000, .load, [.group 0 false]⟩

/-- The record's answer stands at byte 24 of slot 0 of the ring at 0x50000. -/
def answered (n : Nat) : State :=
  let s := put [(16, 0x50000), (0x50018, n)] s0
  s.setCtx 0 { s.ctx 0 with records := [rec0] }

theorem witness_WalksAnswersAndErrors_answers :
    ([put tables s0, s0].all (fun s => ({ s with walks := [walk0] } : State).walks.find? (·.id == 3) == some walk0
        && ({ s with walks := [walk0] } : State).walkReady walk0 && !({ s with walks := [walk0] } : State).walkMeets 0 (0x10 * 4096))
      && [1, 2].all (fun n => ((answered n).ctx 0).records.find? (·.slot == 0) == some rec0 && (answered n).answerOf 0 0 == n)) = true := by
  decide +kernel

def discarding (cause : Nat) (again : Bool) : State := s1 { g1 [] [] with status := .discarding cause, again := again }

theorem witness_WalksAnswersAndErrors_discards :
    ([(2, true), (2, false), (1, false)].all (fun r =>
        let s := discarding r.1 r.2
        (s.group? 0).any (fun g => g.status == .discarding r.1 && g.cntLd == 0 && s.openOps 0 == [] && g.again == r.2)
          && ((s.discard 0 r.1).group? 0).any fun h => h.status != .halted && h.faultRecs == [])
      && [(Status.running, true), (.running, false), (.faultWait, false), (.discarding 1, false)].all (fun c =>
        ((s1 { g1 [] [] with status := c.1, closed := c.2 }).group? 0).any fun g =>
          !g.evicted && g.status == c.1 && g.inRegion == !c.2)
      && (s0.matrixEng (engineOfCore 0)).clears == [] && decide (0x10040 + 8 ≤ Config.physEnd)
      && [ErrLoc.memory 0x10040 8, .scratch 0 0 4, .buffer 0 4 0 8, .rebuildable 0, .vlane 0 3 1, .groupState 0, .firmware 0].all
        (fun l => (s0.spoil l).isSome)) = true := by decide +kernel

/-- An invalidation of page 0x10, 65,536 cycles old, and a group that still holds a line of it. -/
theorem witness_WalksAnswersAndErrors_invalidation :
    (let g := { g1 [] [] with buf := [⟨.g, 0x200, 0x200, []⟩] }
     let iv : Inval := ⟨0, 0x10, 0x11, [5, 0, 0, 0], [(0, 0)], []⟩
     let s := (s1 g).setDie 0 { s0.die 0 with cycle := 65541 }
     let s : State := { s with host := { s.host with inval := some iv } }
     s.host.inval == some iv && (s.group? 0).any fun g =>
      decide (iv.asOf.getD 0 0 + 65536 ≤ (s.die 0).cycle.toNat) && iv.held.contains (0, g.regionNo) && g.holdsRange iv && !g.evicted
        && g.status == .running && g.inRegion) = true := by decide +kernel

/-- The group drains with a line in its buffer, or with nothing left. -/
def drained (buf : List BufLine) : State := s1 { g1 [] [] with status := .draining, exited := 3, buf := buf }

/-- The last lines of a group that is to be evicted wait for room. -/
def closingOut : State := s1 { g1 [] [] with closing := true, evicting := true, buf := [⟨.g, 0x200, 0x200, []⟩] }

/-- The group is to be evicted at a re-entry count; the group is evicted, alone or with its team. -/
def evicting (n : Nat) : State := s1 { g1 [] [] with evicting := true, reentry := n }
def evicted (p : Place) : State :=
  let s := (s1 { g1 [] [] with evicted := true }).setTeam 0 { team1 with place := p }
  { s with host := { s.host with ready := BitVec.allOnes 64 } }

theorem witness_SchedulingEvents :
    ((s0.die 3).powered && s0.issue == [] && b0.issue == []
      && (b0.group? 0).any (b0.boundaryRoom 0)
      && (closingOut.group? 0).any (fun g => g.closing && g.evicting && g.buf != [] && decide (g.cntSt < 63))
      && ((drained [⟨.g, 0x200, 0x200, []⟩]).group? 0).any (fun g => g.status == .draining && g.buf != [] && decide (g.cntSt < 63))
      && ((drained []).group? 0).any (fun g => g.drainedNow && ((drained []).team? g.team).any (·.gang.isNone)
        && !(drained []).tenuresHeld (fun t => t.gid == 0) && (drained []).coreUp g.core && ((drained []).ctx g.ctx).state != .stopping)
      && decide ((s0.setDie 0 { s0.die 0 with cycle := 4096 }).tryAt + 4096 ≤ ((s0.setDie 0 { s0.die 0 with cycle := 4096 }).die 0).cycle.toNat)
      && (let s := s0.setTeam 0 { team1 with place := .waiting, tried := false }
          decide ((s.die 0).cycle.toNat < s.tryAt + 4096) && (s.waitingTeams.filter fun kv => !kv.2.tried).length == 1)
      && ((evicting 15).group? 0).any (fun g => (evicting 15).evictReady 0 g && ((evicting 15).evictDiscard 0 g).isNone)
      && ((evicting 14).group? 0).any (fun g => (evicting 14).evictReady 0 g && ((evicting 14).evictDiscard 0 g).isSome)) = true := by
  decide +kernel

/-- A SPAWN record at 0x10040, of one group of 32 registers and 32 lanes or of no role; the group's grid spans all dies. -/
def spawning (roles : Nat) : State :=
  let s := put [(0x10040, 0x10000), (0x10048, 0x40000000100 + roles), (0x10050, 0x2000000000)] (s2 (g1 [(4, 0x10040)] []))
  { s.setGrid 0 ⟨1, 0, 1, 1, 15, 0, none, none⟩ with host := { s.host with ready := BitVec.allOnes 64 } }

theorem witness_SchedulingEvents_spawn :
    ([(0, 9), (1, 0), (1, 1)].all fun r =>
      let o := sample .spawn .w96 0 r.2
      boundaryAt (spawning r.1) .spawn .w96 o fun y => (y.val o.a true 0).toNat == 0x10040
        && (match y.actOne .load false 0x10040 32 with
          | .go pa =>
            let rd := y.s.groupRead y.cu.gid y.g.core pa 32
            let v := leNat (rd.2.map (·.1))
            rd.2.all (!·.2) && !rd.1.drainHeld y.g.core (fun _ => true) && (match rd.1.grid? y.g.grid with
              | none => false
              | some q =>
                let dies := if nfld o.imm.toNat 3 0 = 0 then q.dies else q.dies &&& BitVec.ofNat 4 (nfld o.imm.toNat 3 0)
                (rd.1.spawnRefusal q (spawnShape v).1 (spawnShape v).2 dies).isNone == (r.1 == 1))
          | _ => false)) = true := by decide +kernel

theorem witness_SchedulingEvents_resume :
    (((evicted (.placed 0 0)).group? 0).any (fun g => g.evicted && g.status != .halted
        && ((evicted (.placed 0 0)).ctx g.ctx).state == .enabled && ((evicted (.placed 0 0)).resumeAlone 0 g team1 0).isSome)
      && ((evicted (.evicted 0 Bank.empty)).team? 0).any (fun t =>
        ((evicted (.evicted 0 Bank.empty)).resumeWhole 0 t 0 Bank.empty).isSome)) = true := by decide +kernel

/-- A pass of another group at priority 16; a DRAIN. -/
def pass16 : TileOp := { pass0 1 0 with id := 1, gid := 1, prio := 16 }
def drainOp0 : TileOp := { pass0 1 0 with kind := .drain, dreg := some 8 }

/-- Engine 0 with its requests, its running pass and its suspended pass. -/
def engine (rs : List TileOp) (run sus : Option TileOp) : State := s0.setMatrix 0 ⟨rs, run, sus, [], false⟩

theorem witness_MatrixEngineEvents_grants :
    [([pass0 1 0], none), ([pass16], some (pass0 2 1)), ([{ pass0 1 0 with id := 2, gid := 1 }], some (pass0 2 1)), ([], some (pass0 2 1))].all
      (fun r =>
        let e := (engine r.1 none r.2).matrixEng 0
        e.running == none && (engine r.1 none r.2).engineUp 0 && !e.requests.any (ageDue 0) && e.suspended == r.2
          && (e.best.isSome || e.suspended.isSome)) = true := by decide +kernel

theorem witness_MatrixEngineEvents_ends :
    ([(pass0 2 0, [pass16]), (pass0 2 0, []), (pass0 2 1, []), (drainOp0, [])].all (fun r =>
        let s := engine r.2 (some r.1) none
        (s.matrixEng 0).running == some r.1 && s.engineUp 0 && decide (r.1.due ≤ (s.die 0).cycle.toNat))
      && (pass0 2 0).isPass && decide (0 + 1 < (pass0 2 0).geo.k) && decide ((pass0 2 1).geo.k ≤ 1 + 1) && !drainOp0.isPass
      && !{ drainOp0 with dreg := none }.isPass && !(engine [] (some { drainOp0 with dreg := none }) none).lateBlocked 0
      && ({ pass0 2 0 with tiles := 0 }).enabled == []
      && ((engine [pass16] (some (pass0 2 0)) none).matrixEng 0).requests.any (fun r => r.prio == 16
        && ((engine [pass16] (some (pass0 2 0)) none).matrixEng 0).grantable r)
      && (let s := (engine [pass0 1 0] none none).setDie 0 { s0.die 0 with cycle := 4096 }
          (s.matrixEng 0).requests.any (ageDue (s.die 0).cycle.toNat))) = true := by decide +kernel

/-- A copy of the group, queued, and as engine 0 has started it. -/
def cmd0 : CopyCmd := ⟨4, 0, .plain, 0x10040, [0, 0, 0, 0, 0], 0, 0, some 0, 0, 0, 0, 0, 1, none⟩
def copying (queue : List CopyCmd) (rs : List CopyRun) (ring : Nat := 0) : State :=
  let s := put [(24, 0x10006), (0x10000, ring)] s0
  { s with copyEng := [(0, ⟨queue, rs, false⟩)], clusterTlb := [(0, [⟨0, 0x10000, 12, 0x10000, true, true, 0⟩])] }
def done0 : CopyRun := { cmd0.start with done := some (0, 0, 0) }

theorem witness_CopyEngineAndSleepers_copies :
    ((let s := copying [] [cmd0.start]
      (s.copyEngine 0).running.find? (s.copyGoes 0) == some cmd0.start && s.copyUp 0)
      && (let s := copying [cmd0] []
          ((s.copyEngine 0).running.find? (s.copyGoes 0)).isNone && (s.copyEngine 0).queue == [cmd0] && s.copyUp 0)
      && (let r : CopyRun := { cmd0.start with sigs := [(0, 5, 6)] }
          let s := copying [] [r]
          (s.copyEng.findSome? fun kv => (kv.2.find 4).map fun r => (kv.1, r)) == some (0, r) && !s.deliveryHeld 0 r.cmd.sset 0)
      && [(0, true), (1, false)].all (fun q =>
          let s := copying [] [done0] q.1
          let n := s.numberRun 0 done0
          (s.copyEngine 0).find 4 == some done0 && done0.recordDue == some (0, 0, 0) && !s.copyWaiting 0 done0
            && (match (n.1.findSlot 0 n.2.1.cmd (n.1.ringSlot 0 n.2.2)).2 with
              | .free pa => q.2 && pa == 0x10000
              | .busy => !q.2
              | .held _ _ => false))) = true := by decide +kernel

/-- Split 0 sleeps on the word at 0x10040, which is 0; its deadline is cycle 0. -/
def asleep (k : SleepKind) : State := put [(24, 0x10006)] (s1 { g1 [] [] with sleepers := [⟨0, k, 24, some 0⟩] })

theorem witness_CopyEngineAndSleepers_sleepers :
    ([SleepKind.sleepm 0x10040 false 0, .sleepm 0x10040 false 1, .crwait 1, .waitb 1 0].all (fun k =>
        ((asleep k).group? 0).any fun g => g.sleeper 0 == some ⟨0, k, 24, some 0⟩ && (asleep k).pastDeadline g ⟨0, k, 24, some 0⟩)
      && ((asleep (.crwait 1)).group? 0).any (fun g => [(0x10040, 4), ((asleep (.crwait 1)).ringSlot 0 1 + 4, 4)].all fun r =>
        match (asleep (.crwait 1)).span (g.req 0 .load false) r.1 r.2 with
        | .ok pas => !(asleep (.crwait 1)).homeHeld 0 g.core pas
            && ((asleep (.crwait 1)).groupRead 0 g.core (pas.headD 0) r.2).2.all (!·.2)
        | _ => false)) = true := by decide +kernel

/-! ## Witnesses: packets, stops and steps -/

/-- Context 0 with its tables and rings, and queue 0 of 16 packets at 0x20000 with priority 1, all dies and WRITE = 1: it is
resident, and packet 0 is these words. -/
def queued (words : List Nat) (q : QueueSt → QueueSt := id) (st : Nat := 0) : State :=
  let s := put (tables ++ [(8, 0x10004), (16, 0x10006), (24, 0x10006), (0x8000, 0x20004), (0x8008, 1),
    (0x8010, 2 ^ 8 + 15 * 2 ^ 23 + st * 2 ^ 27)] ++ words.mapIdx fun k w => (0x20000 + 8 * k, w)) s0
  let s : State := { reached (.frontEnd 0) [0x20, 0x10] s with host := { s.host with qdesc := 0x8000, ready := BitVec.allOnes 64 }, stateSet := [(0, true)] }
  s.setQueue 0 (q { s.queue 0 with resident := true, announced := 1 })

/-- With the start granted to queue 0. -/
def granted (words : List Nat) : State := { queued words with feGrant := some 0 }

theorem witness_QueueEvents :
    (!s0.ready 5 && (queued []).ready 5 && (queued []).ready 4
      && (queued []).noteStartable.feGrant != some 0 && (queued []).noteStartable.feAt != some 0
      && (queued []).noteStartable.arbiter == some 0
      && (let s := (queued [] fun x => { x with startableAt := some 0 }).setDie 0 { s0.die 0 with cycle := 65536 }
          (s.queue 0).startableAt == some 0 && decide (s.queuePrio 0 + (s.queue 0).aged < 15)
            && decide (0 + 65536 * ((s.queue 0).aged + 1) ≤ (s.die 0).cycle.toNat))
      && (let s := (queued []).setDie 0 { s0.die 0 with cycle := 0x100000 }
          let s : State := { s with bobbins := [(0, .quantumEnd)] }
          decide (s.quantumAt + 2 ^ s.host.qexp ≤ (s.die 0).cycle.toNat) && (s.handle .quantumEnd).isSome)
      && (let s := queued [] fun x => { x with resident := false }
          let s : State := { s with bobbins := [(0, .waitingQueue 0)] }
          s.byRank.find? (fun n => !(s.queue n).resident) == some 0
            && (s.handleQueue (s.byRank.filter fun n => !(s.queue n).resident)).isSome
            && decide (((s.queues.map (·.1)).filter fun n => (s.queue n).resident).length < 64))) = true := by decide +kernel

/-- Queue 0 has work and is not resident; 64 queues without a packet are, and a bobbin handles the event of one of them. -/
theorem witness_QueueEvents_replacement :
    (let s := queued [] fun x => { x with resident := false }
     let s := (List.range' 1 64).foldl (fun (s : State) n => s.setQueue n { s.queue n with resident := true }) s
     let s : State := { s with bobbins := [(0, .waitingQueue 3)] }
     let residents := (s.queues.map (·.1)).filter fun n => (s.queue n).resident
     s.byRank.find? (fun n => !(s.queue n).resident) == some 0 && decide (64 ≤ residents.length)
      && ((s.handleQueue (residents.filter fun n => !s.startable n)).map (·.1)) == some 3) = true := by decide +kernel

/-- The packet of queue 0 is read, has its type and keeps the form, or breaks it; `u` is the state of its start. -/
def startsAs (words : List Nat) (type : Nat) (q : BitVec 512 → State → Bool) (bad : Option Nat := none) : Bool :=
  match (granted words).readStart 0 0 with
  | .go v img => packetType img == type && malformed img == bad
      && q img (({ v with feGrant := none, feAt := some (v.die 0).cycle.toNat } : State).addStarted 0 (Started.fresh 0 img))
  | .stop _ => false

theorem witness_PacketEvents_starts :
    (startsAs [0] 0 (fun _ _ => true)
      && startsAs [0x8000000000000000] 0 (fun _ _ => true) (some 0x10)
      && startsAs [1] 1 (fun img u => u.launchRefusal 0 img == some 0x21)
      && startsAs [1, 0, 0x10000, 0, 1 + 2 ^ 32 + 2 ^ 40, 2 ^ 8, 32] 1 (fun img u => u.launchRefusal 0 img == none)
      && startsAs [2, 0, 0x10048] 2 (fun _ _ => true)
      && startsAs [4] 4 (fun _ u => u.copyServes 0 64)
      && [0, 1, 2].all (fun op => startsAs [3, 0, 0x10048, 5, op] 3 (fun img u =>
        match u.feReach 0 (accessOf 0 1) true (pfld img 191 128) with
        | .ok pa => pa == 0x10048 && !u.writeHeld pa 8
        | _ => false))) = true := by decide +kernel

/-- A SIGNAL that had started, and has waited to act. -/
theorem witness_PacketEvents_waits :
    (let img : BitVec 512 := BitVec.ofNat 512 (3 + 0x10048 * 2 ^ 128)
     let p := Started.fresh 0 img
     let s := queued [] fun x => { x with next := 1, started := [p] }
     packetType img == 3 && malformed img == none && (s.queue 0).started.find? (·.num == 0) == some p && p.img == img && !p.acted
      && p.done == none && s.ready 5 && (s.ctx (s.queueCtx 0)).state == .enabled) = true := by decide +kernel

theorem witness_PacketEvents_retires :
    ([(2, none), (0, some (1, 0, 0#32)), (0x408, some (1, 0, 0#32))].all (fun r =>
        let p : Started := { Started.fresh 0 (BitVec.ofNat 512 (r.1 + if r.1 == 0x408 then 0x10048 * 2 ^ 64 else 0)) with done := r.2 }
        let s := queued [] fun x => { x with next := 1, started := [p] }
        (s.queue 0).started.find? (·.num == 0) == some p && !p.retired && s.unblocked 0 0 && s.ready 5
          && !s.descHeld 0 && (s.ctx (s.queueCtx 0)).state == .enabled
          && ((s.setQueue 0 (s.queueNow 0)).retirePacket 0 p).isSome == r.2.isSome)
      && (let s := queued [5] id 1
          ((s.queue 0).started.find? (·.num == 0)).isNone && s.abortedNext 0 0 && s.ready 5 && !s.descHeld 0
            && (s.ctx (s.queueCtx 0)).state != .stopping
            && (match s.feReach 0 (accessOf 0 0) false (s.slotVa 0 0) with
              | .ok pa => pa == 0x20000 && (s.packetAt pa).2.isSome
              | _ => false))) = true := by decide +kernel

/-- The first fault of context 1; with its record cause, context 1 is stopping. -/
def fault1 : StopRec := StopRec.plain 0x06 0 0 0 5 7 0
def faulted : State := s0.setCtx 1 { s0.ctx 1 with state := .enabled, stopFaults := [fault1, { fault1 with slot := 1 }] }
def stopping (left : List Nat) : State := s0.setCtx 1 { s0.ctx 1 with state := .stopping, haltLeft := left }

theorem witness_StopLineEvents :
    (faulted.ctxs.find? (fun kv => kv.2.state == .enabled && !kv.2.stopFaults.isEmpty && !faulted.stopHeld kv.1) == some (1, faulted.ctx 1)
      && (faulted.ctx 1).stopFaults == [fault1, { fault1 with slot := 1 }] && fault1.source != 8
      && [0, 1024, 2048, 4096].all (fun e => ((stopping [e]).ctx 1).state == .stopping && ((stopping [e]).ctx 1).haltLeft.contains e
        && !(stopping [e]).stopHeld 1 && !(stopping [e]).haltHeld 1 e && !(stopping [e]).engineDark e
        && ((stopping [e]).ctx 1).lostRecs == [])
      && (let s := (stopping [1024]).setCtx 1 { (stopping [1024]).ctx 1 with lostRecs := [(1024, fault1)] }
          (s.ctx 1).lostRecs.find? (·.1 == 1024) == some (1024, fault1) && !s.stopHeld 1)
      && (stopping []).halted 1 && !(stopping []).tenuresHeld (·.ctx == 1) && !(stopping []).stopHeld 1
      && (match ((stopping []).stopRest 1).stopQueues ((stopping []).queuesOf 1) with
          | .done _ => true
          | _ => false)) = true := by decide +kernel

/-- World 0 of context 0: four bodies with records from 0x20000, gang records from 0x28000, STEPSIG at 0x30000. -/
def world1 : World := { World.reset with
  isOpen := true, step := 1, bodies := [(0, Body.reset), (1, Body.reset)],
  desc := { World.reset.desc with ctx := 0, nbody := 4, panel := 64, stilln := 4, body := 0x20000, grec := 0x28000, stepsig := 0x30000, elog2 := 6 } }
def worldly (w : World) : State :=
  reached (.world 0) [0x20, 0x28, 0x30] ((put (tables ++ [(8, 0x10004), (16, 0x10006), (24, 0x10006)]) s0).setWorld 0 w)

/-- Bodies 0 and 1 touch. -/
def touching : World := { world1 with closing := true, edges := [⟨0, 1, 0, 1⟩] }

/-- The same with its gangs planned, and its gang records not written yet. -/
def planned : World := { touching with
  launch := (closeStages ((worldly touching).world 0) 0 ((worldly touching).die (worldDie 0))).2.2 }

theorem witness_StepEvents_closeWaited :
    ((worldly planned).closeReady 0 && (((worldly planned).world 0).launch.any fun plan => plan.length == 2
      && (match (worldly planned).seamAll 0 true ((List.range plan.length).map fun g => ((worldly planned).world 0).desc.grec + 64 * g) with
        | .ok pas => !pas.any (·.isNone) && !(worldly planned).seamHeld pas 64
        | .error _ => false))) = true := by decide +kernel

theorem witness_StepEvents_close :
    ((worldly touching).closeReady 0 && ((worldly touching).world 0).launch.isNone
      && (let r := closeStages ((worldly touching).world 0) 0 ((worldly touching).die (worldDie 0))
          r.2.2.any fun plan => plan.length == 2
            && (match (worldly touching).seamAll 0 true ((List.range plan.length).map fun g => ((worldly touching).world 0).desc.grec + 64 * g) with
              | .ok pas => !pas.any (·.isNone) && !(worldly touching).seamHeld pas 64
              | .error _ => false))) = true := by decide +kernel

/-- A die whose island entries are all taken. -/
def takenIsland : Island := { Island.reset with state := 1 }
def crowded (n : Nat) : Die := { Die.reset with islands := (List.range' 1 n).map fun k => (k, takenIsland) }

theorem smFind_range {α : Type} (v : α) : ∀ {n i k : Nat}, i ≤ k → k < i + n →
    smFind ((List.range' i n).map fun k => (k, v)) k = some v
  | 0, i, k, h, h1 => by omega
  | n + 1, i, k, h, h1 => by
    rw [List.range'_succ, List.map_cons, smFind]
    split
    · rfl
    · exact smFind_range v (by omega) (by omega)

theorem freeIsland_crowded {m : Nat} : ∀ {n i : Nat}, 1 ≤ i → i + n ≤ m + 1 → (crowded m).freeIsland n i = none
  | 0, i, _, _ => rfl
  | n + 1, i, h, h1 => by
    have e : (crowded m).island i = takenIsland := by
      rw [Die.island, smGet]
      exact congrArg (Option.getD · _) (smFind_range takenIsland h (by omega))
    rw [Die.freeIsland, e, if_neg (by decide)]
    exact freeIsland_crowded (by omega) (by omega)

theorem freeIsland_of_islands {d e : Die} (h : e.islands = d.islands) : ∀ n i : Nat, e.freeIsland n i = d.freeIsland n i
  | 0, i => rfl
  | n + 1, i => by
    have q : e.island i = d.island i := by rw [Die.island, Die.island, h]
    rw [Die.freeIsland, Die.freeIsland, q, freeIsland_of_islands h n (i + 1)]

/-- The island of bodies 0 and 1. -/
def pairIsle : Joined := ⟨[⟨[0, 1], none, false, false, false, true⟩], [], [], []⟩

theorem place_pair {d : Die} (h : d.freeIsland 65535 1 = none) : (pairIsle.place 0 d).2 = none := by
  have q : (d.forward 0 []).freeIsland 65535 1 = none := by rw [freeIsland_of_islands (e := d.forward 0 []) (d := d) rfl, h]
  have e : sortBy (fun i : Isle => i.bodies.headD 0) pairIsle.isles = [⟨[0, 1], none, false, false, false, true⟩] := rfl
  rw [Joined.place, e]
  simp only [pairIsle, List.map_nil, List.nil_append, List.foldl_nil, List.foldl_cons, q]

/-- A close that joins two loose bodies finds no entry on a die that has none free. -/
theorem close_touching {d : Die} (h : d.freeIsland 65535 1 = none) : (closeStages touching 0 d).2.2 = none := by
  have e : splitAll (countEdges touching.edges [] (2 ^ touching.desc.elog2)).1 (joinAll { touching with
      edges := (countEdges touching.edges [] (2 ^ touching.desc.elog2)).1
      flags := touching.flags ||| BitVec.ofNat 4
        ((countEdges touching.edges [] (2 ^ touching.desc.elog2)).2.1.toNat
          + 2 * (countEdges touching.edges [] (2 ^ touching.desc.elog2)).2.2.toNat)
      stream := [] } d (countEdges touching.edges [] (2 ^ touching.desc.elog2)).1) = pairIsle := rfl
  have f : touching.stream = [] := rfl
  have q := place_pair h
  simp only [closeStages, f, List.filter_nil, e]
  split
  · rfl
  · rename_i p
    rw [p] at q
    cases q

/-- Where the dies hold only this one. -/
def onDie (d : Die) : State := { worldly touching with dies := [(0, d)] }

theorem onDie_world (d : Die) : (onDie d).world 0 = (worldly touching).world 0 := rfl
theorem worldly_world : (worldly touching).world 0 = touching := by decide +kernel

theorem witness_StepEvents_crowded : ∃ d, (onDie d).closeReady 0 = true ∧ ((onDie d).world 0).launch = none ∧
    (closeStages ((onDie d).world 0) 0 ((onDie d).die (worldDie 0))).2.2 = none :=
  ⟨crowded 65535, by with_unfolding_all decide +kernel, by rw [onDie_world]; decide +kernel, by
    rw [onDie_world, worldly_world]
    exact close_touching (freeIsland_crowded (by decide) (by decide))⟩

/-- The team of the group is a gang of bodies 0 and 1 on core 0, staged or not; its group has drained. -/
def staging (staged : Bool) : State :=
  let g : Gang := { world := 0, step := 1, island := 0, firstRank := 0, panel := 0, bodies := [0, 1], staged := staged, written := false }
  ((worldly world1).setTeam 0 { team1 with place := .placed 0 0, gang := some g, groupsLeft := 1 }).setGroup 0
    { g1 [] [] with status := .draining, exited := 3 }

theorem witness_StepEvents_gangs :
    ([false, true].all (fun st =>
        let s := staging st
        (s.team? 0).any fun t => t.gang.any fun g =>
          t.place == .placed 0 0 && (s.ctx t.ctx).state == .enabled && !s.recordWaits t.ctx (.world g.world)
            && g.staged == st && !g.written && t.groupsLeft == 1 && s.seamUp g.world
            && ((s.groups.filter fun kv => kv.2.team == 0).all fun kv => kv.2.drainedNow)
            && (match s.seamAll g.world st (g.bodies.map fun b => (s.world g.world).desc.body + 128 * b) with
              | .ok pas => !pas.any (·.isNone) && !s.seamHeld pas 120
                && !s.intrudeWaits none ((pas.filterMap id).flatMap fun a => run a 120) && s.tenures == []
                && pas == [some 0x20000, some 0x20080] && (run 0 120).all fun j => s.memUp (0x20000 + j)
              | .error _ => false))
      && [true, false].all (fun er =>
          let s := worldly { world1 with error := er, sigDue := some 7 }
          (s.world 0).sigDue == some 7 && (s.world 0).error == er && s.worldCounter 0 == 0
            && !s.recordWaits (s.world 0).desc.ctx (.world 0) && s.seamUp 0
            && (match s.seamReach 0 true (s.world 0).desc.stepsig with
              | .ok pa => !s.writeHeld pa 8
              | _ => false))) = true := by decide +kernel

/-! ## Witnesses: repair, links, the host and the commands -/

/-- All functions ready. -/
def ready0 : State := { s0 with host := { s0.host with ready := BitVec.allOnes 64 } }

/-- Row 5 of bank 2 of stack 1 has spare rows left or none; port 3 is in a state. -/
def spares (n : Nat) : State :=
  { s0 with spareRows := smSet 0 s0.spareRows (bankKey 1 2) n, rowErrors := [(rowKey 1 2 5, (1, [0x41]))] }
def portIn (st : BitVec 2) (at_ : Nat := 65536) : State :=
  let s := (ready0.setPort 3 { s0.port 3 with state := st }).setDie 0 { s0.die 0 with cycle := BitVec.ofNat 64 at_ }
  { s with tenures := [] }

theorem witness_SparingAndRetirement :
    ([0, 7].all (fun n => !(s0.core n).spareUsed && !(s0.core n).retired && !(s0.core n).failed && smFind s0.sparing n == none
        && (s0.regionsOn n == []) == (n == 7))
      && smGet (0, []) (spares 7).rowErrors (rowKey 1 2 5) == (1, [0x41]) && smGet 0 (spares 7).spareRows (bankKey 1 2) == 7
      && smGet 0 (spares 8).spareRows (bankKey 1 2) == 8 && !((portIn 2).port 3).spare && ((portIn 2).port 3).state == 2
      && (let s := (portIn 2).setPort 3 { (portIn 2).port 3 with spare := true }
          (s.port 3).spare && (s.port 3).state == 2)
      && (stopping []).stopping && !((stopping []).core 7).retired && !((stopping []).core 7).failed
      && !s0.stopping && !(s0.copyEngine 9).retired && !(s0.matrixEng 9).retired && (s0.die 2).powered) = true := by
  decide +kernel

/-- Die 3 is without power, or has failed while powered. -/
def dieIn (powered failed : Bool) : State := ready0.setDie 3 { s0.die 3 with powered := powered, failed := failed }

theorem witness_LinksFailuresAndPower :
    ([1#2, 2, 3].all (fun st => ((portIn st).port 3).state == st) && (portIn 2).silent 3
      && newerLsn (BitVec.ofNat 16 1) ((portIn 2).port 3).lsn && !newerLsn (BitVec.ofNat 16 0) ((portIn 2).port 3).lsn
      && !newerLsn (BitVec.ofNat 16 0x8000) ((portIn 2).port 3).lsn && newerLsn (BitVec.ofNat 16 0x7FFF) ((portIn 2).port 3).lsn
      && [0#32, 9].all (fun far => let s := (portIn 3 (4 * 65536)).setPort 3 { (portIn 3).port 3 with far := far, drainRounds := 3, drainAt := 3 * 65536 }
          (s.port 3).drainRounds == 3 && (s.port 3).far == far && (s.port 3).state == 3
            && decide ((s.port 3).drainAt + 65536 ≤ (s.die (dieOfPort 3)).cycle.toNat))
      && decide (((portIn 3).port 3).drainRounds < 4)
      && decide (((portIn 3).port 3).drainAt + 65536 ≤ ((portIn 3).die (dieOfPort 3)).cycle.toNat)
      && ((portIn 1).die (dieOfPort 3)).powered && !(s0.core 7).failed && !(s0.die 3).failed
      && (let s := ready0.setCore 7 { s0.core 7 with failed := true }
          (s.core 7).failed && (s.die (dieOfCore 7)).powered && !(s.die (dieOfCore 7)).failed && s.ready (8 + dieOfCore 7)
            && !(s.core 7).untested)
      && (dieBits 3).all (dieIn true true).ready
      && (let s := (dieIn true true).setCore 769 { s0.core 769 with failed := true, alone := true }
          dieOfCore 768 == 3 && dieOfCore 769 == 3 && !(s.core 768).alone && (s.core 769).alone)
      && ((dieIn true true).die 3).failed && ((dieIn true true).die 3).powered
      && !((dieIn false true).die 3).powered && ((dieIn false true).die 3).failed
      && (State.reset.die 3).powered && !(State.reset.die 3).failed && State.reset.groups == [] && State.reset.matrix == []
      && State.reset.copyEng == [] && State.reset.worlds == [] && State.reset.l2dirty == []
      && (List.range 24).all s0.functionPower && !s0.host.lost && !smGet false s0.host.peersLost 9
      && ({ s0 with host := { s0.host with lost := true } } : State).host.lost
      && smGet false ({ s0 with host := { s0.host with peersLost := [(9, true)] } } : State).host.peersLost 9) = true := by decide +kernel

/-- A job over port 3, which is up or down. -/
def jobOf (ckpt pull : Bool) (done : Nat) : Job := ⟨1, ckpt, 8, 0x40000, 0, 128, pull, 0, done⟩
def working (st : BitVec 2) (j : Job) : State := { portIn st with host := { (portIn st).host with jobs := [(0, j)] } }

theorem witness_HostAndPeerEvents_host :
    (ready0.ready 1 && !ready0.host.lost && ready0.hostReaches 0x4010 && !ready0.hostReaches Config.physEnd
      && !ready0.intrudeWaits none (run (64 * (0x4010 / 64)) 64) && decide (0x4010 % 64 + 4 ≤ 64 ∧ 0x4010 % 64 + 48 ≤ 64)
      && !ready0.hostWriteWaits (0x4010 / 64) (run 0x4010 48)
      && (let s : State := { s0 with hostHalves := [(0x100, true)] }
          smGet false s.hostHalves 0x100 && !s.host.lost && !s.giveUpWaits [] && !s.giveUpWaits [64 * 0x100 + 63])
      && ({ ready0 with host := { ready0.host with lost := true } } : State).host.lost) = true := by decide +kernel

/-- A flit for the job's line, at the first line of the device and at its last; one with an old number. -/
theorem witness_HostAndPeerEvents_flits :
    ((portIn 2).flitDropped 3 ⟨true, 1, 1⟩ && (portIn 2).flitDropped 3 ⟨false, 1, 1⟩ &&
      (working 2 (jobOf true true 0)).memUp 0x40000 && (jobOf true true 0).ckpt && (jobOf true true 0).takes 3 0x40000 && (portIn 2).flitDropped 3 ⟨false, 0, 2⟩ && (jobOf false true 0).takes 3 0x40000
      && [0x40000, 0, Config.physEnd - 128].all (fun pa => !(portIn 2).hostHolds [pa, pa + 64])) = true
    ∧ Claims.FlitComes (working 2 (jobOf true true 0)) 3 0x40000 ⟨true, 0, 1⟩
    ∧ ∀ pa ∈ [0x40000, 0, Config.physEnd - 128], Claims.FlitComes (portIn 2) 3 pa ⟨false, 0, 1⟩ := by
  refine ⟨?_, ?_, ?_⟩
  · decide +kernel
  · exact ⟨by decide, by decide +kernel, by decide +kernel, by decide +kernel, by decide +kernel, by decide +kernel⟩
  · intro pa h
    simp only [List.mem_cons, List.not_mem_nil, or_false] at h
    obtain rfl | rfl | rfl := h <;>
      exact ⟨by decide, by decide +kernel, by decide +kernel, by decide +kernel, by decide +kernel, by decide +kernel⟩

theorem witness_HostAndPeerEvents_jobs :
    [false, true].all (fun c =>
      ((working 3 (jobOf c true 0)).upPorts (jobOf c true 0).ports).isEmpty
        && !((working 2 (jobOf c false 0)).upPorts (jobOf c false 0).ports).isEmpty
        && [(true, 1), (true, 0), (false, 0)].all fun r => smFind (working 2 (jobOf c r.1 r.2)).host.jobs 0 == some (jobOf c r.1 r.2)
          && decide ((jobOf c r.1 r.2).lines ≤ (jobOf c r.1 r.2).linesDone) == (r.2 == 1)
          && (working 2 (jobOf c r.1 r.2)).tenures == []) = true := by decide +kernel

/-- The registers: an answer of 1, of 2 or of neither, an active queue or none, an enabled context or none. -/
theorem witness_HostAndPeerEvents_registers :
    (ready0.ready 0 && !s0.ready 0 && !State.reset.queueActive && (queued []).queueActive
      && [0, 1, 2].all (fun n => (answered n).answerOf 0 0 == n)
      && State.reset.ctxs == [] && s0.ctxs.any (fun kv => kv.2.state == .enabled)
      && ({ s0 with host := { s0.host with busy := true } } : State).host.busy) = true := by decide +kernel

/-- A command is latched. -/
def latched (s : State) (op : Nat) (args : List W64) : State := { s with host := { s.host with command := some ⟨op, args⟩ } }

theorem latched_meets {s : State} {op : Nat} {args : List W64} (h : s.host.inval = none) :
    Claims.Latched (latched s op args) op args fun i => (args.getD i 0).toNat := ⟨rfl, h, fun _ => rfl⟩

/-- A command whose arguments are in their ranges, with and without what it needs, and one with a bad argument. -/
theorem witness_Statuses_context : ∀ r ∈ Claims.commandsA 0,
    (∃ a : Nat → Nat, ¬ r.bad a ∧ ∀ b ∈ r.needs a, s0.ready b = false) ∧
      ∃ a : Nat → Nat, r.bad a ∧ (∀ b ∈ r.needs a, ready0.ready b = true) := by
  intro r h
  simp only [Claims.commandsA, List.mem_cons, List.not_mem_nil, or_false] at h
  obtain rfl | rfl | rfl | rfl | rfl | rfl | rfl | rfl := h
  · exact ⟨⟨fun _ => 0, by decide, by decide +kernel⟩, fun i => if i = 1 then 1 else 0, by decide, by decide +kernel⟩
  · exact ⟨⟨fun _ => 0, by decide, by decide +kernel⟩, fun _ => 256, by decide, by decide +kernel⟩
  · exact ⟨⟨fun _ => 0, by decide, by decide +kernel⟩, fun _ => 256, by decide, by decide +kernel⟩
  · exact ⟨⟨fun _ => 0, by decide, by decide +kernel⟩, fun i => if i = 2 then 1 else 0, by decide, by decide +kernel⟩
  · exact ⟨⟨fun _ => 1, by decide, by decide +kernel⟩, fun _ => 0, by decide, by decide +kernel⟩
  · exact ⟨⟨fun _ => 1, by decide, by decide +kernel⟩, fun _ => 128, by decide, by decide +kernel⟩
  · exact ⟨⟨fun _ => 0, by decide, by decide +kernel⟩, fun i => if i = 1 then 1024 else 0, by decide, by decide +kernel⟩
  · exact ⟨⟨fun _ => 0, by decide, by decide +kernel⟩, fun _ => 4096, by decide, by decide +kernel⟩

/-- Ports 0 to 3 are up, and everything is ready. -/
def linked : State := (List.range 4).foldl (fun (s : State) p => s.setPort p { s.port p with state := 2 }) ready0

theorem witness_Statuses_others : ∀ r ∈ Claims.commandsB,
    (∃ a : Nat → Nat, ¬ r.bad a ∧ ∀ b ∈ r.needs a, s0.ready b = false) ∧
      ∃ a : Nat → Nat, r.bad a ∧ (∀ b ∈ r.needs a, linked.ready b = true) ∧
        r.ports ≤ (linked.upPorts (BitVec.ofNat 24 (a 0))).length := by
  intro r h
  simp only [Claims.commandsB, List.mem_cons, List.not_mem_nil, or_false] at h
  obtain rfl | rfl | rfl | rfl | rfl | rfl | rfl | rfl | rfl := h
  · exact ⟨⟨fun _ => 16, by decide, by decide +kernel⟩, fun _ => 25, by decide, by decide +kernel, by decide +kernel⟩
  · exact ⟨⟨fun _ => 1, by decide, by decide +kernel⟩, fun _ => 32, by decide, by decide +kernel, by decide +kernel⟩
  · exact ⟨⟨fun _ => 1, by decide, by decide +kernel⟩, fun _ => 0, by decide, by decide +kernel, by decide +kernel⟩
  · exact ⟨⟨fun _ => 1, by decide, by decide +kernel⟩, fun _ => 1280, by decide, by decide +kernel, by decide +kernel⟩
  · exact ⟨⟨fun _ => 64, by decide, by decide +kernel⟩, fun _ => 1, by decide, by decide +kernel, by decide +kernel⟩
  · exact ⟨⟨fun _ => 1, by decide, by decide +kernel⟩, fun _ => 0, by decide, by decide +kernel, by decide +kernel⟩
  · exact ⟨⟨fun _ => 0, by decide, by decide +kernel⟩, fun i => if i = 0 then 15 else 1, by decide, by decide +kernel, by decide +kernel⟩
  · exact ⟨⟨fun _ => 0, by decide, by decide +kernel⟩, fun i => if i = 0 then 15 else 1, by decide, by decide +kernel, by decide +kernel⟩
  · exact ⟨⟨fun i => if i = 1 then 300 else 0, by decide, by decide +kernel⟩, fun _ => 0, by decide, by decide +kernel, by decide +kernel⟩

/-- The states and arguments of the clauses of context commands. -/
theorem witness_ContextWorldAndKeyCommands :
    (ready0.host.inval.isNone && !s0.ready 5 && ready0.ready 5 && (ready0.ctx 0).state == .enabled && (ready0.ctx 2).state == .free
      && (let s := ready0.setCtx 1 { s0.ctx 1 with state := .enabled }
          s.quiet 1 && (s.ctx 1).stopFaults == []) && !ready0.quiet 0
      && (faulted.ctx 1).state == .enabled && (faulted.ctx 1).stopFaults != []
      && ((stopping []).ctx 1).state == .stopping
      && ((s0.setCtx 1 { s0.ctx 1 with state := .stopped }).ctx 1).state == .stopped
      && (ready0.ready 2 && ready0.ready 3 && ready0.ready 6 && ready0.ready 20)
      && (let d := 64 * 2 ^ 29 + 2 ^ 40 + 2 ^ 56 + 4 * 2 ^ 8
          let s := put [(0x31000, d), (0x31008, 0x20000), (0x31010, 0x28000), (0x31018, 0x30000), (0x31020, 0x10000), (0x31028, 0x3F8000003F800000), (0x31030, 10 * 2 ^ 38),
            (0x8010, 15 * 2 ^ 23)] ready0
          let s : State := { s with host := { s.host with qdesc := 0x8000 } }
          (s.worldRefusal (s.physNat 0x31000 64)).isNone && (s.worldRefusal (s.physNat 0x32000 64)).isSome && !(s.world 5).isOpen)
      && (let s := worldly world1
          (s.world 0).isOpen && !(s.world 0).ending)
      && (let s := worldly { world1 with ending := true }
          (s.world 0).ending && s.worldIdle 0)) = true := by decide +kernel

theorem witness_ReportAndRepairCommands :
    (ready0.ready 2 && ready0.ready 3 && ready0.ready 4 && ready0.ready 7 && !ready0.stopping && !(ready0.core 7).retired && !(ready0.core 7).failed
      && ((ready0.setCore 7 { s0.core 7 with retired := true }).core 7).retired
      && !(ready0.copyEngine 9).retired && !(ready0.matrixEng 9).retired
      && !((portIn 2).upPorts (BitVec.ofNat 24 8)).isEmpty && nfld 0x80 62 40 == 0 && nfld 0x80 39 0 % 128 == 0
      && ((working 2 (jobOf false true 1)).upPorts 8).length == 1
      && decide (4 ≤ (linked.upPorts (BitVec.ofNat 24 15)).length)
      && (List.range 4).all (fun i => (smFind ((List.range 4).map fun i => (i, jobOf false true 1)) i).isSome)
      && (let v : Inval := ⟨0, 0x10, 0x11, [0, 0, 0, 0], [], []⟩
          ({ s0 with host := { s0.host with inval := some v } } : State).invalDone v)) = true := by decide +kernel

/-- The first free slot, where none is taken and where slot 0 is. -/
theorem witness_ReportAndRepairCommands_slots : Claims.FreeSlot ready0 0 ∧ Claims.FreeSlot (working 2 (jobOf false true 1)) 1 :=
  ⟨⟨by decide, by decide +kernel, by omega⟩, by decide, by decide +kernel, fun k h => by
    obtain rfl : k = 0 := by omega
    decide +kernel⟩


/-! ## Witnesses: the whole machine -/

theorem witness_StepRunsDecoded :
    (let s := put [(0x10000, 0x6040A7010)] { s0 with issue := [⟨0, 0⟩] }
     let r : IssueRef := ⟨0, 0⟩
     (match ({ s with issue := [] } : State).refIssuing r, s.group? 0 with
       | some cu, some g =>
         (match ({ s with issue := [] } : State).translate { g.req 0 .fetch false with who := .fetch 0 cu.pc } cu.pc.toNat with
           | .ok pa => pa == 0x10000 && ({ s with issue := [] } : State).misKeyed
                 { g.req 0 .fetch false with who := .fetch 0 cu.pc } [cu.pc.toNat] == [] && cu.pc.toNat % 4 == 0 && decide (cu.pc.toNat % 32 + 8 ≤ 32)
             && lenBytes (leNat ((s.memRead pa 16).map (·.1)) % 4) == 8
             && (decodeWord (leNat ((s.memRead pa 16).map (·.1)))).isSome
           | _ => false)
       | _, _ => false)
      && ({ s0 with agenda := [.quantumEnd] } : State).issue == []) = true := by decide +kernel

/-- A poisoned byte at the PC; a byte beside those of the fetch that has changed since the launch. -/
theorem witness_StepRunsDecoded_bytes :
    (let s : State := { s0 with issue := [⟨0, 0⟩], mem := bankMark s0.mem 0x10000 true }
     ((s.codeBytes 0 0x10000 16).take 1).any (·.2)
      && (let u : State := { s0 with past := [(0x10020, [(7, 3)])] }
          ((List.range 16).all fun i => smGet [] u.past (0x10000 + i) == []))) = true := by decide +kernel

theorem witness_DecodeEncode : (Instr.iadd (ops (v 24) (v 4) (v 12) no 0)).wellFormed = true := by decide

/-- Memory with something listed keeps the canonical form, and the machine goes on from there. -/
theorem witness_MemoryCanonical :
    ((put [(0x8000, 5)] s0).mem.wf && (match step (put [(0x8000, 5)] s0) with
      | .next _ => true
      | _ => false)) = true := by decide +kernel

/-! ## Worked values of the spec: one step each -/

/-- The group after an instruction. -/
def after (i : Instr) (s : State) (q : Machine.Group → Bool) : Bool :=
  match exec i s with
  | .next t => (t.group? 0).any q
  | _ => false

/-- With predicates given. -/
def withP (ps : List (Nat × Mask)) (g : Machine.Group) : Machine.Group :=
  { g with p := (List.range 8).map fun n => ((ps.find? fun q => q.1 == n).map (·.2)).getD 0 }

/-- R134: 0xFFFFFFF0 + 0x15 + 1 is 6 with a carry. -/
theorem test_iaddc_carries : after (.iaddc ⟨Guard.none, v 10, v 4, v 6, pr 2, 0x2B0, 0⟩)
    (s1 (withP [(2, 1)] (g1 [] [(4, 0xFFFFFFF0), (6, 0x15)]))) (fun g => g.rdV 10 0 == 6 && (g.p.getD 3 0).getLsbD 0) = true := by decide +kernel

/-- R142: bits 8 to 5 of 0xB40 are 0b1010. -/
theorem test_bfx_extends_the_sign : after (.bfx (ops (v 10) (v 4) (v 6) no 0)) (s1 (g1 [] [(4, 0xB40), (6, 0x0405)]))
    (fun g => g.rdV 10 1 == 0xFFFFFFFA) = true := by decide +kernel

/-- R143: (-128, 2, -1, 1) by (2, 5, 4, 3), and 10, is -237. -/
theorem test_idot4_sums_signed_bytes : after (.idot4 (ops (v 10) (v 4) (v 6) (v 8) 0))
    (s1 (g1 [] [(4, 0x01FF0280), (6, 0x03040502), (8, 10)])) (fun g => g.rdV 10 0 == BitVec.ofInt 32 (-237)) = true := by
  decide +kernel

/-- R181: the table 0x0A is AND, 0xAF is OR, and 0x05 by P7 is NOT among the live lanes. -/
theorem test_pmux_tables :
    ([(0x0A, 1, 8#64), (0xAF, 1, 14#64), (0x05, 7, 3#64)]).all (fun r =>
      after (.pmux ⟨Guard.none, pr 3, pr r.2.1, pr 2, pr 2, r.1, 0⟩) (s1 (withP [(1, 10), (2, 12)] (g1 [] [])))
        (fun g => g.p.getD 3 0 == r.2.2)) = true := by decide +kernel

/-- R278: rows 0 to 1 and columns 0 to 2. -/
theorem test_kset_rectangle : after (.kset { ops (kr 2) (sr 6) no no 0 with imm := 0x408 }) (s1 (g1 [] []))
    (fun g => (g.k.getD 2 ⟨0, 0, 0⟩).tiles == 0x707) = true := by decide +kernel

end Sys2Proof.Tests
end

section
/-!
PROOF. Atomic updates (R41, R247, R374): how a boundary that passes issues, what a write event of consecutive bytes
leaves, and one lane's update of scratch.
-/

namespace Sys2Proof.Machine

/-! ## A boundary that passes -/

/-- The close before a boundary changes nothing of the split that issues it. -/
theorem Boundary.cu_eq {s : State} {gd : Guard} {f : IC → Foot} {x y : IC} (hb : Boundary s gd f x y) : y.cu = x.cu := by
  rw [hb.after]

/-- The issue of a boundary whose effect lets its lanes pass: the machine goes past it with the state that the effect has
made. -/
theorem issueBoundary_pass {op : Op} {len : Len} {act : IC → Ops → Act} {o : Ops} {s u : State} {x y : IC}
    (hb : Boundary s o.g (Claims.footOf op len o) x y) (hl : (ldBoundary op && decide (63 ≤ x.g.cntLd)) = false)
    (ha : act y o = y.pass u) : issueBoundary op len act o s = .next (y.past u) := by
  have hcu := hb.cu_eq
  obtain ⟨hic, hfused, hbounds, hfree, hclean, hgroup, hclosed, hafter⟩ := hb
  rw [issueBoundary_acts hic hfused hbounds hfree hclean hl hgroup hclosed, ← hafter, ha]
  simp only [IC.pass, IC.past, hcu]

/-! ## Bytes of a value and consecutive writes -/

@[simp] theorem leBytes_length (n v : Nat) : (leBytes n v).length = n := by
  unfold leBytes
  induction n generalizing v with
  | zero => rfl
  | succ n ih => simp [bytesOfWord, ih]

/-- Byte i of a value holds its bits from 8i (R2). -/
theorem leBytes_getElem {n i : Nat} (v : Nat) (h : i < (leBytes n v).length) :
    (leBytes n v)[i] = BitVec.ofNat 8 (v >>> (8 * i)) := by
  simp only [leBytes] at h ⊢
  induction n generalizing v i with
  | zero => simp [bytesOfWord] at h
  | succ n ih =>
    cases i with
    | zero => simp [bytesOfWord]
    | succ i =>
      simp only [bytesOfWord, List.getElem_cons_succ]
      rw [ih _ (by simpa [bytesOfWord] using h), ← Nat.shiftRight_eq_div_pow v 8, ← Nat.shiftRight_add, Nat.mul_succ,
        Nat.add_comm 8]

@[simp] theorem wbytes_length (a : Nat) (bs : List Byte) : (wbytes a bs).length = bs.length := by simp [wbytes]

theorem wbytes_getElem (a : Nat) (bs : List Byte) {i : Nat} (h : i < (wbytes a bs).length) :
    (wbytes a bs)[i] = ⟨a + i, bs[i]'(by simpa using h), false⟩ := by simp [wbytes]

/-- A byte within a write event of consecutive bytes takes its value. -/
theorem bankByte_write_wbytes (b : Bank) (a : Nat) (bs : List Byte) {i : Nat} (h : i < bs.length) :
    bankByte (bankWrite b (wbytes a bs)) (a + i) = bs[i] := by
  have hi : i < (wbytes a bs).length := by simpa using h
  have hlater : ∀ v ∈ (wbytes a bs).drop (i + 1), v.addr ≠ (wbytes a bs)[i].addr := by
    intro v hv
    obtain ⟨j, hj, rfl⟩ := List.mem_drop_iff_getElem.1 hv
    rw [wbytes_getElem, wbytes_getElem]
    simp only
    omega
  have hlast := bankByte_write_last b ((wbytes a bs).take i) _ _ hlater
  rwa [← List.drop_eq_getElem_cons hi, List.take_append_drop, wbytes_getElem] at hlast

/-- A byte outside a write event of consecutive bytes keeps its value. -/
theorem bankByte_write_wbytes_other (b : Bank) {a c : Nat} (bs : List Byte) (h : c < a ∨ a + bs.length ≤ c) :
    bankByte (bankWrite b (wbytes a bs)) c = bankByte b c := by
  refine bankByte_write_other _ _ _ fun w hw => ?_
  obtain ⟨i, hi, rfl⟩ := List.getElem_of_mem hw
  rw [wbytes_getElem]
  simp only [wbytes_length] at hi ⊢
  omega

theorem bankBytes_values (b : Bank) (a n : Nat) :
    (bankBytes b a n).map (·.1) = (List.range n).map fun i => bankByte b (a + i) := by
  simp [bankBytes]

theorem bankBytes_clean {b : Bank} (h : ∀ c, bankPoison b c = false) (a n : Nat) : (bankBytes b a n).any (·.2) = false := by
  simp [bankBytes, h]

/-! ## The lanes of an ATOM -/

@[simp] theorem readHome_scratch (s : State) (core a n : Nat) :
    s.readHome core .l a n = bankBytes (s.core core).scratch a n := rfl

@[simp] theorem writeHome_scratch (s : State) (gid core a : Nat) (bs : List Byte) :
    ((s.writeHome gid core .l a bs).core core).scratch = bankWrite (s.core core).scratch (wbytes a bs) := by
  simp [State.writeHome, CoreSt.setBank, CoreSt.bank]

/-- One lane that reads no poison: its place takes the operation's value, and the value read is returned. -/
theorem atomLanes_one (x : IC) (o : Ops) (sp : Space) (n l a : Nat) {s : State} {bs : List (Byte × Bool)}
    (hr : s.readHome x.g.core sp a n = bs) (hp : bs.any (·.2) = false) :
    atomLanes x o sp n [(l, a)] s =
      (s.writeHome x.cu.gid x.g.core sp a (leBytes n (atomNew (mfld o.m 63 60) n (BitVec.ofNat 64 (leNat (bs.map (·.1))))
        (x.val o.b (n == 8) l) (x.val o.c (n == 8) l)).toNat),
       [(l, BitVec.ofNat 64 (leNat (bs.map (·.1))))], []) := by
  simp only [atomLanes, List.foldl_cons, List.foldl_nil, hr, hp, List.nil_append]
  rfl

/-- With no lane dead, a boundary's load is posted where a lane is active (R374). -/
theorem postActive_alive (s : State) (gid : Nat) (regs : List Nat) (writes : List RegWrite) (act : Mask) :
    s.postActive gid regs writes act 0 = if act = 0 then s else s.postLoad gid regs [] [] writes := by
  simp [State.postActive, State.postLive]

theorem maskOf_contains_nil : maskOf ([] : List Nat).contains = 0 := by decide

theorem exec_atom (o : Ops) (s : State) : exec (.atom o) s = execAtom o s := rfl

/-! ## The obligation -/

theorem execAtom_updates : Claims.AtomUpdates := by
  intro o s x y ok hb hx hy hgo
  simp only [Claims.laneList] at hgo ⊢
  intro hdead
  rw [exec_atom]
  refine issueBoundary_pass hb (by simp [hx]) ?_
  simp only [if_neg (Nat.not_le.2 hy), hgo, hb.cu_eq, hdead, maskOf_contains_nil, postActive_alive, killLanes_zero]

theorem atomLanes_scratch : Claims.AtomInScratch := by
  intro x o s l a n _ hclean
  simp only
  rw [atomLanes_one x o .l n l a (readHome_scratch ..) (bankBytes_clean hclean a n), bankBytes_values]
  refine ⟨rfl, rfl, fun i hi => ?_, fun b hb => ?_⟩
  · rw [writeHome_scratch, bankByte_write_wbytes _ _ _ (by simpa using hi), leBytes_getElem]
    rfl
  · rw [writeHome_scratch, bankByte_write_wbytes_other _ _ (by simpa using hb)]

/-- Settles O25: the updates of an ATOM by the boundary's own frame, one lane's update by the laws of a write event. -/
theorem atomicUpdates : Obligations.AtomicUpdates := ⟨execAtom_updates, atomLanes_scratch⟩

end Sys2Proof.Machine
end

section
/-!
PROOF. What lines that leave a core's outbound path change (R42, R221, R325): other lines stay or leave, and groups change in
CNT.ST alone.
-/

namespace Sys2Proof.Machine

/-! ## What performing lines leaves -/

/-- How a state changes where lines leave cores' paths and nothing is put there: every line that is there was there before, and a
group is as before but for its CNT.ST. -/
structure LinesLeave (s t : State) : Prop where
  outbound : ∀ n, ∀ q ∈ (t.core n).outbound, q ∈ (s.core n).outbound
  group : ∀ gid g, s.group? gid = some g → ∃ c, t.group? gid = some { g with cntSt := c }

namespace LinesLeave

theorem of_eq {s t : State} (hc : t.cores = s.cores) (hg : t.groups = s.groups) : LinesLeave s t where
  outbound n q hq := by rwa [State.core, hc] at hq
  group gid g h := ⟨g.cntSt, by rw [State.group?, hg]; exact h⟩

theorem refl (s : State) : LinesLeave s s := of_eq rfl rfl

theorem trans {s t u : State} (h1 : LinesLeave s t) (h2 : LinesLeave t u) : LinesLeave s u where
  outbound n q hq := h1.outbound n q (h2.outbound n q hq)
  group gid g h := by
    obtain ⟨c, hc⟩ := h1.group gid g h
    obtain ⟨c', hc'⟩ := h2.group gid _ hc
    exact ⟨c', hc'⟩

theorem foldl {α : Type} {f : State → α → State} (hf : ∀ s x, LinesLeave s (f s x)) (l : List α) (s : State) :
    LinesLeave s (l.foldl f s) :=
  foldl_keeps (LinesLeave s) f (fun t x h => h.trans (hf t x)) l s (refl s)

end LinesLeave

theorem loseReservations_linesLeave (s : State) (who : Option Nat) (lines : List Nat) :
    LinesLeave s (s.loseReservations who lines) := by
  unfold State.loseReservations
  split <;> exact .of_eq rfl rfl

theorem writeBack_linesLeave (s : State) (t : Tenure) : LinesLeave s (s.writeBack t) := by
  unfold State.writeBack
  split <;> exact .of_eq rfl rfl

theorem pruneCopies_linesLeave (s : State) : LinesLeave s s.pruneCopies := by
  unfold State.pruneCopies
  split <;> exact .of_eq rfl rfl

theorem useLine_linesLeave (s : State) (line slot : Nat) : LinesLeave s (s.useLine line slot) := by
  unfold State.useLine
  split
  · exact .refl s
  · split <;> exact .of_eq rfl rfl

theorem underLeaf_linesLeave (s : State) (o : OutLine) : LinesLeave s (s.underLeaf o) := by
  unfold State.underLeaf
  split
  · exact .refl s
  split
  · exact .refl s
  split
  · exact .refl s
  split
  · exact useLine_linesLeave ..
  · exact .refl s

theorem makeRoom_linesLeave (s : State) (slice : Nat) : LinesLeave s (s.makeRoom slice) := by
  unfold State.makeRoom
  simp only
  split
  · exact .refl s
  · split <;> exact .of_eq rfl rfl

theorem makeRooms_linesLeave (s : State) (pas : List Nat) : LinesLeave s (s.makeRooms pas) := by
  unfold State.makeRooms
  split
  · exact .refl s
  · exact .foldl (fun t _ => makeRoom_linesLeave t _) _ s

theorem keepPast_linesLeave (s : State) (ws : List WByte) : LinesLeave s (s.keepPast ws) := by
  unfold State.keepPast
  split
  · split <;> exact .of_eq rfl rfl
  · exact .of_eq rfl rfl

theorem putMem_linesLeave (s : State) (ws : List WByte) : LinesLeave s (s.putMem ws) := by
  refine .trans ?_ (makeRooms_linesLeave _ _)
  exact (keepPast_linesLeave s ws).trans (.of_eq rfl rfl)

theorem countDown_linesLeave (s : State) (gid : Nat) :
    LinesLeave s (s.modGroup gid fun g => { g with cntSt := g.cntSt - 1 }) := by
  unfold State.modGroup
  split
  · exact .refl s
  next g hg =>
    refine ⟨fun n q hq => hq, fun k h hk => ?_⟩
    by_cases heq : k = gid
    · subst heq
      rw [hg] at hk
      cases hk
      exact ⟨_, State.setGroup_get_self ..⟩
    · exact ⟨h.cntSt, by rw [State.setGroup_get_ne _ _ heq]; exact hk⟩

theorem performLine_linesLeave (s : State) (o : OutLine) : LinesLeave s (s.performLine o) :=
  (((loseReservations_linesLeave s _ _).trans (underLeaf_linesLeave _ o)).trans (putMem_linesLeave _ _)).trans
    (countDown_linesLeave _ _)

theorem setOutbound_linesLeave (s : State) (core : Nat) {out : List OutLine} (h : ∀ q ∈ out, q ∈ (s.core core).outbound) :
    LinesLeave s (s.setCore core { s.core core with outbound := out }) where
  outbound n q hq := by
    rw [State.setCore_get] at hq
    split at hq
    next heq => subst heq; exact h q hq
    next => exact hq
  group gid g hg := ⟨g.cntSt, hg⟩

theorem hostBlocks_map (s : State) (held : List Nat) (l : List (OutLine × Bool)) :
    (s.hostBlocks held l).map (·.1) = l.map (·.1) := by
  induction l generalizing held with
  | nil => rfl
  | cons p rest ih => simp only [State.hostBlocks, List.map_cons, ih]

theorem inOrder_map (p : OutLine → Bool) (l : List OutLine) : (inOrder p l).map (·.1) = l := by
  induction l with
  | nil => rfl
  | cons o rest ih => simp only [inOrder, List.map_cons, ih]

theorem inOrder_named {p : OutLine → Bool} {l : List OutLine} {q : OutLine × Bool} (h : q ∈ inOrder p l)
    (hq : p q.1 = true) : q.2 = true := by
  induction l with
  | nil => cases h
  | cons o rest ih =>
    rcases List.mem_cons.1 h with rfl | h
    · simp only [hq, Bool.true_or]
    · exact ih h

theorem inOrder_none {p : OutLine → Bool} {l : List OutLine} (h : ∀ o ∈ l, p o = false) : ∀ q ∈ inOrder p l, q.2 = false := by
  induction l with
  | nil => intro q hq; cases hq
  | cons o rest ih =>
    obtain ⟨ho, hrest⟩ := List.forall_mem_cons.1 h
    have hr := ih hrest
    intro q hq
    rcases List.mem_cons.1 hq with rfl | hq
    · have hany : ((inOrder p rest).any fun r => r.2 && r.1.space == o.space && r.1.line == o.line) = false :=
        List.any_eq_false.2 fun r hr' => by simp [hr r hr']
      simp only [ho, hany, Bool.or_false]
    · exact hr q hq

theorem recallLines_mem {s : State} {t : Tenure} {q : OutLine × Bool} (h : q ∈ s.recallLines t) :
    q.1 ∈ (s.core t.core).outbound := by
  have hmap : (s.recallLines t).map (·.1) = (s.core t.core).outbound := (hostBlocks_map ..).trans (inOrder_map ..)
  rw [← hmap]
  exact List.mem_map_of_mem h

theorem recall_linesLeave (s : State) (t : Tenure) : LinesLeave s (s.recall t) := by
  unfold State.recall
  simp only
  refine .trans ?_ (writeBack_linesLeave _ t)
  split
  · exact .refl s
  · refine .trans (setOutbound_linesLeave s t.core fun q hq => ?_) (.foldl performLine_linesLeave _ _)
    obtain ⟨r, hr, rfl⟩ := List.mem_map.1 hq
    exact recallLines_mem (List.mem_filter.1 hr).1

theorem recallAll_linesLeave (s : State) (ts : List Tenure) : LinesLeave s (s.recallAll ts) := by
  have hfold : LinesLeave s ((s.recalled ts).reverse.foldl (fun u t => if t.write then u.recall t else u) s) := by
    refine .foldl (fun u t => ?_) _ s
    split
    · exact recall_linesLeave u t
    · exact .refl u
  unfold State.recallAll
  simp only
  split
  · exact hfold
  · exact hfold.trans (.of_eq rfl rfl)

theorem intrude_linesLeave (s : State) (who : Option Nat) (pas : List Nat) (write : Bool) :
    LinesLeave s (s.intrude who pas write) := by
  unfold State.intrude
  simp only
  split
  · exact .refl s
  · refine .trans ?_ (pruneCopies_linesLeave _)
    exact (recallAll_linesLeave s _).trans (.of_eq rfl rfl)

theorem memWrite_linesLeave (s : State) (who : Option Nat) (ws : List WByte) : LinesLeave s (s.memWrite who ws) :=
  (((intrude_linesLeave s who _ true).trans (loseReservations_linesLeave _ who _)).trans (putMem_linesLeave _ _)).trans
    (.of_eq rfl rfl)

theorem ackLine_linesLeave (s : State) (o : OutLine) : LinesLeave s (s.ackLine o) := by
  have hwrite : LinesLeave s (if o.space == .g then
      ((s.lineEnds o).underLeaf o).memWrite (some o.gid) (lineBytes o.line o.bytes) else s) := by
    split
    · exact ((loseReservations_linesLeave s _ _).trans (underLeaf_linesLeave _ o)).trans (memWrite_linesLeave _ _ _)
    · exact .refl s
  unfold State.ackLine
  simp only
  split
  · exact hwrite
  · exact hwrite.trans (countDown_linesLeave _ _)

/-! ## Draining a core's outbound path -/

/-- The lines that stay on a core's path when the lines that satisfy `p` are drained. -/
def staying (p : OutLine → Bool) (l : List OutLine) : List OutLine := ((inOrder p l).filter (!·.2)).map (·.1)

theorem mem_staying {p : OutLine → Bool} {l : List OutLine} {q : OutLine} (h : q ∈ staying p l) : q ∈ l ∧ p q = false := by
  obtain ⟨r, hr, rfl⟩ := List.mem_map.1 h
  obtain ⟨hmem, hout⟩ := List.mem_filter.1 hr
  refine ⟨?_, Bool.eq_false_iff.2 fun hp => ?_⟩
  · rw [← inOrder_map p l]
    exact List.mem_map_of_mem hmem
  · simp [inOrder_named hmem hp] at hout

theorem staying_of_none_out {p : OutLine → Bool} {l : List OutLine} (h : (inOrder p l).filter (·.2) = []) : staying p l = l := by
  have hall : (inOrder p l).filter (!·.2) = inOrder p l :=
    List.filter_eq_self.2 fun q hq => by simpa using List.filter_eq_nil_iff.1 h q hq
  rw [staying, hall, inOrder_map]

/-- Draining acknowledges lines, one after another, with the others left on the core's path. -/
theorem drainLines_linesLeave_staying (s : State) (core : Nat) (p : OutLine → Bool) :
    LinesLeave (s.setCore core { s.core core with outbound := staying p (s.core core).outbound }) (s.drainLines core p) := by
  unfold State.drainLines
  simp only
  split
  next hnone =>
    rw [List.isEmpty_iff, List.map_eq_nil_iff] at hnone
    rw [staying_of_none_out hnone]
    refine ⟨fun n q hq => ?_, fun gid g hg => ⟨g.cntSt, hg⟩⟩
    rw [State.setCore_get]
    split
    next heq => subst heq; exact hq
    next => exact hq
  next => exact .foldl ackLine_linesLeave _ _

theorem drainLines_linesLeave (s : State) (core : Nat) (p : OutLine → Bool) : LinesLeave s (s.drainLines core p) :=
  (setOutbound_linesLeave s core fun _ hq => (mem_staying hq).1).trans (drainLines_linesLeave_staying s core p)

/-- No line that is drained is left on the core's path. -/
theorem drainLines_left {s : State} {core : Nat} {p : OutLine → Bool} {q : OutLine}
    (h : q ∈ ((s.drainLines core p).core core).outbound) : p q = false := by
  have hstay := (drainLines_linesLeave_staying s core p).outbound core q h
  rw [State.setCore_get_self] at hstay
  exact (mem_staying hstay).2

theorem drainLines_none {s : State} {core : Nat} {p : OutLine → Bool} (h : ∀ q ∈ (s.core core).outbound, p q = false) :
    s.drainLines core p = s := by
  unfold State.drainLines
  have hnone : (inOrder p (s.core core).outbound).filter (·.2) = [] :=
    List.filter_eq_nil_iff.2 fun q hq => by simp [inOrder_none h q hq]
  simp only [hnone]
  rfl

end Sys2Proof.Machine
end

section
/-!
PROOF. Ordering instructions (R221, R224, R225, R251, R252): FENCE, ACQ, REL and ACQR in the frame of a plain issue.
-/

namespace Sys2Proof.Machine

/-! ## Memory and registers that stay -/

theorem MemoryKept.of_banks {s t : State} (hm : t.mem = s.mem) (hc : ∀ n sp, (t.core n).bank sp = (s.core n).bank sp) :
    MemoryKept s t :=
  ⟨fun a => by rw [hm]; exact ⟨rfl, rfl⟩, fun n sp a => by rw [hc n sp]; exact ⟨rfl, rfl⟩⟩

theorem MemoryKept.of_cores {s t : State} (hm : t.mem = s.mem) (hc : t.cores = s.cores) : MemoryKept s t :=
  .of_banks hm fun n sp => by rw [State.core, hc]; rfl

theorem countClass3_cores (s : State) (gid : Nat) : (s.countClass3 gid).cores = s.cores := by
  unfold State.countClass3
  split
  · rfl
  split
  · rfl
  simp only
  split <;> rfl

theorem countClass3_mem (s : State) (gid : Nat) : (s.countClass3 gid).mem = s.mem := by
  unfold State.countClass3
  split
  · rfl
  split
  · rfl
  simp only
  split <;> rfl

theorem countClass3_group {s : State} {gid : Nat} {g : Group} (h : s.group? gid = some g) :
    ∃ n, (s.countClass3 gid).group? gid = some { g with lrCount := n } := by
  unfold State.countClass3
  simp only [h]
  split
  · exact ⟨g.lrCount, h⟩
  split
  · exact ⟨_, State.setGroup_get_self ..⟩
  · exact ⟨_, State.setGroup_get_self ..⟩

theorem drainHeld_nothing (s : State) (core : Nat) : s.drainHeld core (fun _ => false) = false := by
  have hout : s.outHeld core (fun _ => false) = false :=
    List.any_eq_false.2 fun q hq => by simp [inOrder_none (fun _ _ => rfl) q hq]
  simp [State.drainHeld, hout]

@[simp] theorem emptyL1_get_group (s : State) (core gid : Nat) : (s.emptyL1 core).group? gid = s.group? gid := rfl

theorem emptyL1_outbound (s : State) (core n : Nat) : ((s.emptyL1 core).core n).outbound = (s.core n).outbound := by
  rw [State.emptyL1, State.setCore_get]
  split
  next h => rw [h]
  next => rfl

@[simp] theorem emptyL1_l1 (s : State) (core : Nat) : ((s.emptyL1 core).core core).l1 = [] := by
  rw [State.emptyL1, State.setCore_get_self]

theorem emptyL1_keeps_empty {s : State} {n : Nat} (core : Nat) (h : (s.core n).l1 = []) :
    ((s.emptyL1 core).core n).l1 = [] := by
  rw [State.emptyL1, State.setCore_get]
  split
  · rfl
  · exact h

/-! ## The issue of an instruction of class 3 that counts and goes on -/

/-- The state in which such an instruction acts: its checks have passed, and it has counted for R249. -/
def IC.issuedClass3 (x : IC) (f : Foot) : State := (x.s.setGroup x.cu.gid (x.tracked f)).countClass3 x.cu.gid

@[simp] theorem issuedClass3_cores (x : IC) (f : Foot) : (x.issuedClass3 f).cores = x.s.cores := countClass3_cores ..
@[simp] theorem issuedClass3_core (x : IC) (f : Foot) (n : Nat) : (x.issuedClass3 f).core n = x.s.core n := by
  rw [State.core, issuedClass3_cores]; rfl
@[simp] theorem issuedClass3_mem (x : IC) (f : Foot) : (x.issuedClass3 f).mem = x.s.mem := countClass3_mem ..

theorem issuedClass3_group (x : IC) (f : Foot) :
    ∃ n, (x.issuedClass3 f).group? x.cu.gid = some { x.tracked f with lrCount := n } :=
  countClass3_group (State.setGroup_get_self ..)

/-- Lines that leave on behalf of the issuing group change none of its registers. -/
theorem issuedClass3_regsSame {x : IC} {f : Foot} {t : State} (h : LinesLeave (x.issuedClass3 f) t) (d : Group) :
    RegsSame x.g ((t.group? x.cu.gid).getD d) := by
  obtain ⟨n, hn⟩ := issuedClass3_group x f
  obtain ⟨c, hc⟩ := h.group _ _ hn
  rw [hc]
  exact ⟨⟨rfl, rfl⟩, ⟨rfl, rfl, rfl, rfl⟩, ⟨rfl, rfl⟩, rfl, rfl, ⟨rfl, rfl⟩, ⟨rfl, rfl, rfl⟩⟩

/-- An instruction that goes on with no lane dying. -/
theorem retire_after (x : IC) (u : State) (g : Group) : ({ x with s := u } : IC).retire g 0 = .next (x.after u g) := rfl

theorem Plain.s_eq {s : State} {gd : Guard} {f : IC → Foot} {x : IC} (h : Plain s gd f x) : x.s = s := (ic_eq h.ic).1

/-! ## FENCE, ACQ and REL -/

/-- What a release leaves on the core's path. -/
theorem releases_false {fence : Bool} {scope mask gid : Nat} {q : OutLine} (h : releases fence scope mask gid q = false) :
    (2 ≤ scope → q.space = .g → q.late = true ∧ q.onPaths (mask ||| 3) = false) ∧
    (1 ≤ scope → q.late = true → q.gid ≠ gid) ∧
    (fence = true → 4 ≤ mask → 1 ≤ scope ∨ q.gid = gid → q.onPaths mask = false) := by
  simp only [releases, Bool.or_eq_false_iff] at h
  obtain ⟨⟨hwide, hnamed⟩, hown⟩ := h
  refine ⟨fun hs hg => ?_, fun hs hl he => ?_, fun hf hm hs => ?_⟩
  · simpa [hs, hg] using hwide
  · simp [hs, hl, he] at hown
  · simp only [hf, hm, Bool.true_and, decide_true, Bool.and_true, Bool.and_eq_false_iff] at hnamed
    refine hnamed.resolve_right fun hout => ?_
    obtain ⟨hscope, hgid⟩ := Bool.or_eq_false_iff.1 hout
    rcases hs with hs | hs
    · simp [hs] at hscope
    · simp [hs] at hgid

/-- A release at wave or team scope that names no path of an engine, the host or a peer asks for the group's own late lines alone. -/
theorem releases_narrow {fence : Bool} {scope mask gid : Nat} {q : OutLine} (hs : ¬ 2 ≤ scope) (hm : mask < 4)
    (hq : q.late = true → q.gid ≠ gid) : releases fence scope mask gid q = false := by
  have hown : (q.late && decide (1 ≤ scope) && q.gid == gid) = false := by
    cases hl : q.late
    · rfl
    · simp [hq hl]
  simp [releases, hs, hm, hown]

/-- The lines that FENCE, ACQ or REL has acknowledged. -/
def orderNames (rel acq : Bool) (o : Ops) (gid : Nat) (q : OutLine) : Bool :=
  rel && releases (rel && acq) (scopeOf o) (pathMask o) gid q

/-- The state that FENCE, ACQ or REL leaves. -/
def IC.ordered (x : IC) (f : Foot) (rel acq : Bool) (o : Ops) : State :=
  if acq && decide (2 ≤ scopeOf o) then
    ((x.issuedClass3 f).drainLines x.g.core (orderNames rel acq o x.cu.gid)).emptyL1 x.g.core
  else (x.issuedClass3 f).drainLines x.g.core (orderNames rel acq o x.cu.gid)

theorem issueOrder_after {op : Op} {rel acq : Bool} {o : Ops} {s : State} {x : IC} (hp : Plain s o.g (Claims.footOf op .w64 o) x)
    (hh : s.drainHeld x.g.core (orderNames rel acq o x.cu.gid) = false) :
    ∃ g, issueOrder op rel acq o s = .next (x.after (x.ordered (Claims.footOf op .w64 o x) rel acq o)
      (((x.ordered (Claims.footOf op .w64 o x) rel acq o).group? x.cu.gid).getD g)) := by
  rw [← hp.s_eq] at hh
  refine ⟨x.tracked (Claims.footOf op .w64 o x), ?_⟩
  unfold issueOrder
  rw [issueWith_ready hp.ic hp.ready]
  exact (if_neg (ne_true_of_eq_false hh)).trans rfl

theorem ordered_regsSame (x : IC) (f : Foot) (rel acq : Bool) (o : Ops) (g : Group) :
    RegsSame x.g (((x.ordered f rel acq o).group? x.cu.gid).getD g) := by
  have hsame := issuedClass3_regsSame (drainLines_linesLeave (x.issuedClass3 f) x.g.core (orderNames rel acq o x.cu.gid)) g
  unfold IC.ordered
  split
  · exact hsame
  · exact hsame

theorem ordered_left {x : IC} {f : Foot} {rel acq : Bool} {o : Ops} {q : OutLine}
    (h : q ∈ ((x.ordered f rel acq o).core x.g.core).outbound) : orderNames rel acq o x.cu.gid q = false := by
  unfold IC.ordered at h
  split at h
  · rw [emptyL1_outbound] at h
    exact drainLines_left h
  · exact drainLines_left h

theorem ordered_l1 {x : IC} {f : Foot} {rel : Bool} {o : Ops} (h : 2 ≤ scopeOf o) :
    ((x.ordered f rel true o).core x.g.core).l1 = [] := by
  simp [IC.ordered, h]

theorem ordered_narrow {x : IC} {f : Foot} {rel acq : Bool} {o : Ops} (hs : ¬ 2 ≤ scopeOf o)
    (hq : ∀ q ∈ (x.s.core x.g.core).outbound, orderNames rel acq o x.cu.gid q = false) :
    x.ordered f rel acq o = x.issuedClass3 f := by
  have hstay : (x.issuedClass3 f).drainLines x.g.core (orderNames rel acq o x.cu.gid) = x.issuedClass3 f :=
    drainLines_none (by rw [issuedClass3_core]; exact hq)
  simp [IC.ordered, hs, hstay]

/-- The three instructions with what the statement says of each: whether it releases and whether it acquires. -/
def orderRows (o : Ops) : List (Instr × Op × Bool × Bool) :=
  [(.fence o, .fence, true, true), (.acq o, .acq, false, true), (.rel o, .rel, true, false)]

theorem orderRows_exec {o : Ops} {r : Instr × Op × Bool × Bool} (h : r ∈ orderRows o) (s : State) :
    exec r.1 s = issueOrder r.2.1 r.2.2.1 r.2.2.2 o s ∧ (r.2.1 = .fence → (r.2.2.1 && r.2.2.2) = true) := by
  simp only [orderRows, List.mem_cons, List.not_mem_nil, or_false] at h
  rcases h with rfl | rfl | rfl
  · exact ⟨rfl, fun _ => rfl⟩
  · exact ⟨rfl, fun h => by cases h⟩
  · exact ⟨rfl, fun h => by cases h⟩

theorem orderNames_held {rel acq : Bool} {o : Ops} {s : State} {core gid : Nat}
    (h : rel = true → s.drainHeld core (releases (rel && acq) (scopeOf o) (pathMask o) gid) = false) :
    s.drainHeld core (orderNames rel acq o gid) = false := by
  cases rel
  · exact drainHeld_nothing s core
  · exact h rfl

theorem orderNames_release {rel acq : Bool} {o : Ops} {gid : Nat} {q : OutLine} (h : orderNames rel acq o gid q = false)
    (hr : rel = true) : releases (rel && acq) (scopeOf o) (pathMask o) gid q = false := by
  subst hr
  exact h

/-! ## ACQR -/

/-- The state that ACQR leaves for a victim core. -/
def IC.remoteAcquired (x : IC) (f : Foot) (v : Nat) : State :=
  (if (x.s.core v).retired then x.issuedClass3 f else ((x.issuedClass3 f).drainLines v fun _ => true).emptyL1 v).emptyL1 x.g.core

theorem execAcqr_after {o : Ops} {s : State} {x : IC} (hp : Plain s o.g (Claims.footOf .acqr .w64 o) x)
    (hv : (x.val o.a true 0).toNat < 1024)
    (hh : (s.core (x.val o.a true 0).toNat).retired = false → s.drainHeld (x.val o.a true 0).toNat (fun _ => true) = false) :
    ∃ g, execAcqr o s = .next (x.after (x.remoteAcquired (Claims.footOf .acqr .w64 o x) (x.val o.a true 0).toNat)
      (((x.remoteAcquired (Claims.footOf .acqr .w64 o x) (x.val o.a true 0).toNat).group? x.cu.gid).getD g)) := by
  rw [← hp.s_eq] at hh
  refine ⟨x.tracked (Claims.footOf .acqr .w64 o x), ?_⟩
  unfold execAcqr
  rw [issueWith_ready hp.ic hp.ready]
  simp only [if_neg (Nat.not_le.2 hv)]
  unfold IC.remoteAcquired
  cases hr : (x.s.core (x.val o.a true 0).toNat).retired
  · simp only [hh hr, Bool.not_false, Bool.and_false]
    rfl
  · rfl

theorem remoteAcquired_regsSame (x : IC) (f : Foot) (v : Nat) (g : Group) :
    RegsSame x.g (((x.remoteAcquired f v).group? x.cu.gid).getD g) := by
  rw [IC.remoteAcquired, emptyL1_get_group]
  split
  · exact issuedClass3_regsSame (.refl _) g
  · rw [emptyL1_get_group]
    exact issuedClass3_regsSame (drainLines_linesLeave (x.issuedClass3 f) v _) g

theorem remoteAcquired_victim {x : IC} {f : Foot} {v : Nat} (h : (x.s.core v).retired = false) :
    ((x.remoteAcquired f v).core v).outbound = [] ∧ ((x.remoteAcquired f v).core v).l1 = [] := by
  simp only [IC.remoteAcquired, h, Bool.false_eq_true, if_false]
  refine ⟨?_, emptyL1_keeps_empty _ (emptyL1_l1 ..)⟩
  rw [emptyL1_outbound, emptyL1_outbound]
  exact List.eq_nil_iff_forall_not_mem.2 fun q hq => Bool.noConfusion (drainLines_left hq)

theorem execAcqr_outside {o : Ops} {s : State} {x : IC} (hp : Plain s o.g (Claims.footOf .acqr .w64 o) x)
    (hv : 1024 ≤ (x.val o.a true 0).toNat) : execAcqr o s = x.fault 0x06 (x.val o.a true 0).toNat 8 := by
  unfold execAcqr
  rw [issueWith_ready hp.ic hp.ready]
  exact if_pos hv

theorem orderingInstructions : Claims.OrderingInstructions := by
  intro o s x
  refine ⟨fun r hr hp hh => ?_, fun hp hv hh => ?_, fun hp hv => execAcqr_outside hp hv⟩
  · obtain ⟨hexec, hfence⟩ := orderRows_exec hr s
    obtain ⟨g, hafter⟩ := issueOrder_after hp (orderNames_held hh)
    refine ⟨_, _, hexec.trans hafter, ordered_regsSame .., fun hs => ⟨fun hrel q hq hg => ?_, fun hacq => ?_⟩,
      fun hs hrel q hq hl => ?_, fun hf hm q hq hs => ?_, fun hs hm hq => ?_⟩
    · exact (releases_false (orderNames_release (ordered_left hq) hrel)).1 hs hg
    · rw [hacq]
      exact ordered_l1 hs
    · exact (releases_false (orderNames_release (ordered_left hq) hrel)).2.1 hs hl
    · have hboth := hfence hf
      have hrel := (Bool.and_eq_true_iff.1 hboth).1
      exact (releases_false (orderNames_release (ordered_left hq) hrel)).2.2 hboth hm hs
    · rw [← hp.s_eq] at hq ⊢
      rw [ordered_narrow hs fun q hmem => by rw [orderNames, releases_narrow hs hm (hq q hmem), Bool.and_false]]
      exact ⟨issuedClass3_core .., .of_cores (issuedClass3_mem ..) (issuedClass3_cores ..)⟩
  · obtain ⟨g, hafter⟩ := execAcqr_after hp hv hh
    refine ⟨_, _, hafter, remoteAcquired_regsSame .., emptyL1_l1 .., fun hr => remoteAcquired_victim ?_⟩
    rw [hp.s_eq]
    exact hr

end Sys2Proof.Machine
end

section
/-!
PROOF. CARVE and PREF (R200, R201, R253, R254): what a carve leaves of a core, and what a prefetch brings.
-/

namespace Sys2Proof.Machine

/-! ## CARVE -/

/-- The number of ways that CARVE asks for. -/
def IC.waysAsked (x : IC) (o : Ops) : Nat :=
  match o.a with
  | .s n => min 12 (x.g.rdS n.toNat).toNat
  | _ => mfld o.m 63 60

/-- The state that CARVE leaves for its destination and a number of ways. -/
def IC.carved (x : IC) (f : Foot) (d sw : Nat) : State :=
  let t := (x.s.setGroup x.cu.gid ((x.tracked f).wrS d (BitVec.ofNat 64 sw))).countClass3 x.cu.gid
  t.setCore x.g.core ((t.core x.g.core).carve sw)

theorem execCarve_after {o : Ops} {s : State} {x : IC} (hp : Plain s o.g (Claims.footOf .carve .w64 o) x) {f : Foot}
    (hf : f = Claims.footOf .carve .w64 o x) {sw : Nat} (hw : sw = max (x.waysAsked o) (x.s.wayFloor x.g.core)) :
    ∃ g, execCarve o s = .next (x.after (x.carved f (opNum o.d) sw)
      (((x.carved f (opNum o.d) sw).group? x.cu.gid).getD g)) := by
  subst hf hw
  refine ⟨(x.tracked (Claims.footOf .carve .w64 o x)), ?_⟩
  unfold execCarve
  rw [issueWith_ready hp.ic hp.ready]
  rfl

theorem carved_core (x : IC) (f : Foot) (d sw : Nat) : (x.carved f d sw).core x.g.core = (x.s.core x.g.core).carve sw := by
  rw [IC.carved, State.setCore_get_self, State.core, countClass3_cores]
  rfl

theorem carved_group (x : IC) (f : Foot) (d sw : Nat) :
    ∃ n, (x.carved f d sw).group? x.cu.gid = some { (x.tracked f).wrS d (BitVec.ofNat 64 sw) with lrCount := n } :=
  countClass3_group (State.setGroup_get_self ..)

theorem smFind_filter_none {α : Type} {m : SMap α} {p : Nat × α → Bool} {k : Nat} (h : ∀ v, p (k, v) = false) :
    smFind (m.filter p) k = none := by
  induction m with
  | nil => rfl
  | cons e t ih =>
    obtain ⟨j, v⟩ := e
    rw [List.filter_cons]
    split
    · next hp =>
      have hk : k ≠ j := fun heq => by simp [← heq, h] at hp
      simp only [smFind, if_neg hk, ih]
    · exact ih

/-- Ways that turn from scratch into cache lose their bytes (R200). -/
theorem carve_scratch {c : CoreSt} {sw a : Nat} (hs : sw < c.sw) (ha : 65536 * sw ≤ a) : bankByte (c.carve sw).scratch a = 0 := by
  simp only [CoreSt.carve, if_pos hs, bankByte, smGet]
  rw [smFind_filter_none fun v => decide_eq_false (Nat.not_lt.2 ha)]
  rfl

/-! ## PREF -/

/-- What bringing a line into caches leaves: memory, the banks and the TLBs of cores, and all that translations and keys stand
on. -/
structure LinesBrought (s t : State) : Prop where
  mem : t.mem = s.mem
  bank : ∀ n sp, (t.core n).bank sp = (s.core n).bank sp
  tlb : ∀ n, (t.core n).tlb = (s.core n).tlb
  clusterTlb : t.clusterTlb = s.clusterTlb
  ctxs : t.ctxs = s.ctxs
  host : t.host = s.host
  lineKeys : t.lineKeys = s.lineKeys
  pageKeys : t.pageKeys = s.pageKeys

namespace LinesBrought

theorem refl (s : State) : LinesBrought s s := ⟨rfl, fun _ _ => rfl, fun _ => rfl, rfl, rfl, rfl, rfl, rfl⟩

theorem trans {s t u : State} (h1 : LinesBrought s t) (h2 : LinesBrought t u) : LinesBrought s u where
  mem := h2.mem.trans h1.mem
  bank n sp := (h2.bank n sp).trans (h1.bank n sp)
  tlb n := (h2.tlb n).trans (h1.tlb n)
  clusterTlb := h2.clusterTlb.trans h1.clusterTlb
  ctxs := h2.ctxs.trans h1.ctxs
  host := h2.host.trans h1.host
  lineKeys := h2.lineKeys.trans h1.lineKeys
  pageKeys := h2.pageKeys.trans h1.pageKeys

theorem memoryKept {s t : State} (h : LinesBrought s t) : MemoryKept s t := .of_banks h.mem h.bank

theorem translate {s t : State} (h : LinesBrought s t) (rq : Req) (va : Nat) : t.translate rq va = s.translate rq va := by
  unfold State.translate State.earlyRec State.openRec State.tlbHit State.ctx denyCause State.keyOk
  simp only [h.ctxs, h.clusterTlb, h.host, h.tlb]

theorem misKeyed {s t : State} (h : LinesBrought s t) (rq : Req) (vas : List Nat) : t.misKeyed rq vas = s.misKeyed rq vas := by
  unfold State.misKeyed
  simp only [h.translate]
  unfold State.tlbHit State.keyFits State.lineKey State.slotKey
  simp only [h.lineKeys, h.pageKeys, h.clusterTlb, h.host, h.tlb]

end LinesBrought

theorem makeRoom_brought (s : State) (slice : Nat) : LinesBrought s (s.makeRoom slice) := by
  unfold State.makeRoom
  simp only
  split
  · exact .refl s
  · split <;> exact ⟨rfl, fun _ _ => rfl, fun _ => rfl, rfl, rfl, rfl, rfl, rfl⟩

theorem fillL2_brought (s : State) (pas : List Nat) : LinesBrought s (s.fillL2 pas) := by
  have hrooms (t : State) (qs : List Nat) : LinesBrought t (t.makeRooms qs) := by
    unfold State.makeRooms
    split
    · exact .refl t
    · exact foldl_keeps (LinesBrought t) _ (fun u _ h => h.trans (makeRoom_brought u _)) _ t (.refl t)
  refine .trans ?_ (hrooms _ _)
  exact ⟨rfl, fun _ _ => rfl, fun _ => rfl, rfl, rfl, rfl, rfl, rfl⟩

theorem setL1_brought (s : State) (core : Nat) (l : SMap (List Byte)) :
    LinesBrought s (s.setCore core { s.core core with l1 := l }) := by
  refine ⟨rfl, fun n sp => ?_, fun n => ?_, rfl, rfl, rfl, rfl, rfl⟩
  · rw [State.setCore_get]
    split
    next h => subst h; cases sp <;> rfl
    next => rfl
  · rw [State.setCore_get]
    split
    next h => rw [h]
    next => rfl

theorem fillL1_brought (s : State) (core line : Nat) (bytes : List Byte) : LinesBrought s (s.fillL1 core line bytes) := by
  unfold State.fillL1
  simp only
  split
  · exact .refl s
  split
  · exact setL1_brought s core _
  · exact (setL1_brought s core _).trans ⟨rfl, fun _ _ => rfl, fun _ => rfl, rfl, rfl, rfl, rfl, rfl⟩

theorem requestWalk_brought (s : State) (rq : Req) (va : Nat) : LinesBrought s (s.requestWalk rq va) := by
  unfold State.requestWalk
  simp only
  split
  · split <;> exact ⟨rfl, fun _ _ => rfl, fun _ => rfl, rfl, rfl, rfl, rfl, rfl⟩
  · split <;> exact ⟨rfl, fun _ _ => rfl, fun _ => rfl, rfl, rfl, rfl, rfl, rfl⟩

theorem prefetch_brought {s : State} {rq : Req} (core : Nat) (l1 : Bool) {va : Nat} (h : s.misKeyed rq [va] = []) :
    LinesBrought s (s.prefetch rq core l1 va) := by
  unfold State.prefetch
  split
  · exact requestWalk_brought s _ va
  · simp only [h, List.foldl_nil]
    split_ifs
    · exact fillL2_brought s _
    · exact (fillL2_brought s _).trans (fillL1_brought _ _ _ _)
  · exact .refl s

theorem prefetches_brought {s : State} {rq : Req} (core : Nat) (l1 : Bool) (vas : List Nat) (h : ∀ va, s.misKeyed rq [va] = []) :
    LinesBrought s (vas.foldl (fun t va => t.prefetch rq core l1 va) s) :=
  foldl_keeps (LinesBrought s) _
    (fun _ va ht => ht.trans (prefetch_brought core l1 ((ht.misKeyed rq [va]).trans (h va)))) vas s (.refl s)

theorem setL1_linesLeave (s : State) (core : Nat) (l : SMap (List Byte)) :
    LinesLeave s (s.setCore core { s.core core with l1 := l }) := by
  refine ⟨fun n q hq => ?_, fun gid g h => ⟨g.cntSt, h⟩⟩
  rw [State.setCore_get] at hq
  split at hq
  next h => subst h; exact hq
  next => exact hq

theorem fillL1_linesLeave (s : State) (core line : Nat) (bytes : List Byte) : LinesLeave s (s.fillL1 core line bytes) := by
  unfold State.fillL1
  simp only
  split
  · exact .refl s
  split
  · exact setL1_linesLeave s core _
  · exact (setL1_linesLeave s core _).trans (.of_eq rfl rfl)

theorem requestWalk_linesLeave (s : State) (rq : Req) (va : Nat) : LinesLeave s (s.requestWalk rq va) := by
  unfold State.requestWalk
  simp only
  split
  · split <;> exact .of_eq rfl rfl
  · split <;> exact .of_eq rfl rfl

/-- A prefetch changes no group. -/
theorem prefetch_linesLeave (s : State) (rq : Req) (core : Nat) (l1 : Bool) (va : Nat) :
    LinesLeave s (s.prefetch rq core l1 va) := by
  unfold State.prefetch
  split
  · exact requestWalk_linesLeave s _ va
  · next pa _ =>
    have hfill : LinesLeave s (s.fillL2 [pa]) := by
      refine .trans ?_ (makeRooms_linesLeave _ _)
      exact .of_eq rfl rfl
    have hkeyed := hfill.trans (.foldl (fun t (p : Nat × Nat) => useLine_linesLeave t p.1 p.2) (s.misKeyed rq [va]) _)
    simp only
    split_ifs
    · exact hkeyed
    · exact hkeyed.trans (fillL1_linesLeave _ _ _ _)
  · exact .refl s

/-- The addresses that PREF asks for, of the lanes of a mask. -/
def IC.prefAddrs (x : IC) (o : Ops) (m : Mask) : List Nat :=
  (((lanesOf m).map (x.laneAddr o .g 1)).filter fun a => inSpace none .g a 1).map Int.toNat

theorem filterMap_guard {α β γ : Type} (f : α → β) (p : β → Bool) (h : β → γ) (l : List α) :
    (l.filterMap fun x => if p (f x) then some (h (f x)) else none) = ((l.map f).filter p).map h := by
  induction l with
  | nil => rfl
  | cons a t ih =>
    simp only [List.filterMap_cons, List.map_cons, List.filter_cons]
    split_ifs <;> simp [ih]

/-- The state that PREF leaves. -/
def IC.prefetched (x : IC) (f : Foot) (o : Ops) : State :=
  (x.prefAddrs o x.act).foldl (fun s va => s.prefetch (x.g.req x.cu.gid .load false) x.g.core (mfld o.m 61 60 == 1) va)
    (x.issuedClass3 f)

theorem issuePref_after {len : Len} {o : Ops} {s : State} {x : IC} (hp : Plain s o.g (Claims.footOf .pref len o) x)
    (hw : s.walkersBusy (x.g.req x.cu.gid .load false) (x.prefAddrs o x.act) = false) :
    ∃ g, issuePref len o s = .next (x.after (x.prefetched (Claims.footOf .pref len o x) o)
      (((x.prefetched (Claims.footOf .pref len o x) o).group? x.cu.gid).getD g)) := by
  rw [← hp.s_eq] at hw
  refine ⟨x.tracked (Claims.footOf .pref len o x), ?_⟩
  have hclean : x.g.poisonedLanes (x.g.foot .pref len o).rv x.act = 0 := hp.clean
  unfold issuePref
  rw [issueWith_ready hp.ic hp.ready]
  simp only [hclean, and_not_zero]
  rw [filterMap_guard (x.laneAddr o .g 1) (fun a => inSpace none .g a 1) Int.toNat]
  exact (if_neg (ne_true_of_eq_false hw)).trans rfl

theorem prefetched_regsSame (x : IC) (f : Foot) (o : Ops) (g : Group) :
    RegsSame x.g (((x.prefetched f o).group? x.cu.gid).getD g) :=
  issuedClass3_regsSame (.foldl (fun t va => prefetch_linesLeave t _ _ _ va) _ _) g

/-- To be counted changes nothing that a translation or the key of a line stands on. -/
theorem issuedClass3_brought (x : IC) (f : Foot) : LinesBrought x.s (x.issuedClass3 f) := by
  unfold IC.issuedClass3 State.countClass3
  simp only [State.setGroup_get_self]
  split_ifs <;> exact ⟨rfl, fun _ _ => rfl, fun _ => rfl, rfl, rfl, rfl, rfl, rfl⟩

theorem prefetched_memoryKept {x : IC} (f : Foot) (o : Ops)
    (h : ∀ va, x.s.misKeyed (x.g.req x.cu.gid .load false) [va] = []) : MemoryKept x.s (x.prefetched f o) :=
  have hb := issuedClass3_brought x f
  (hb.trans (prefetches_brought _ _ _ fun va => (hb.misKeyed _ [va]).trans (h va))).memoryKept

theorem exec_pref (im : Bool) (o : Ops) (s : State) :
    exec (if im then .prefImm o else .pref o) s = issuePref (if im then .w96 else .w64) o s := by
  cases im <;> rfl

theorem carveClause {o : Ops} {s : State} {x : IC} (hp : Plain s o.g (Claims.footOf .carve .w64 o) x) {sw : Nat}
    (hw : sw = max (x.waysAsked o) (s.wayFloor x.g.core)) :
    ∃ u g', exec (.carve o) s = .next (x.after u g') ∧ g'.v = x.g.v ∧ g'.s.getD (opNum o.d) 0 = BitVec.ofNat 64 sw ∧
      (∀ n, n ≠ opNum o.d → g'.s.getD n 0 = x.g.s.getD n 0) ∧ u.core x.g.core = (s.core x.g.core).carve sw := by
  obtain ⟨g, hafter⟩ := execCarve_after hp rfl (hp.s_eq ▸ hw)
  obtain ⟨n, hn⟩ := carved_group x (Claims.footOf .carve .w64 o x) (opNum o.d) sw
  rw [hn] at hafter
  refine ⟨_, _, hafter, rfl, setAt_getD_self .., fun n hne => setAt_getD_ne _ _ _ hne, ?_⟩
  rw [carved_core, hp.s_eq]

theorem carveAndPrefetch : Claims.CarveAndPrefetch := by
  intro o s x
  refine ⟨fun hp => ?_, fun im hp hw => ?_⟩
  · obtain ⟨u, g', hnext, hv, hd, hother, hcore⟩ := carveClause hp rfl
    refine ⟨u, g', hnext, hv, hd, hother, ?_⟩
    rw [hcore]
    exact ⟨rfl, fun kv hkv => List.mem_of_mem_take hkv, List.length_take_le _ _, fun hs a ha => carve_scratch hs ha⟩
  · obtain ⟨g, hafter⟩ := issuePref_after hp hw
    refine ⟨_, _, (exec_pref im o s).trans hafter, prefetched_regsSame .., fun hkeys => ?_⟩
    rw [← hp.s_eq] at hkeys ⊢
    exact prefetched_memoryKept _ o hkeys

/-- Settles O27: what lines that leave a core's path change, and what a prefetch brings, in the frame of a plain issue. -/
theorem orderingAndCarve : Obligations.OrderingAndCarve := ⟨orderingInstructions, carveAndPrefetch⟩

end Sys2Proof.Machine
end

section
/-!
PROOF. What reset and placement leave in the registers (R12, R114, R116, R198, R381, R411, R412, R416).
-/

namespace Sys2Proof.Machine

theorem replicate_getD_self {α : Type} (d : α) (k n : Nat) : (List.replicate k d).getD n d = d := by
  rw [List.getD_eq_getElem?_getD, List.getElem?_getD_replicate_default_eq]

theorem vRead_zeros (allot r l : Nat) : vRead (List.replicate allot (List.replicate 64 0)) r l = 0 := by
  unfold vRead
  by_cases h : r < allot
  · rw [List.getD_replicate _ h, replicate_getD_self]
  · rw [List.getD_eq_default (List.replicate allot _) [] (by rw [List.length_replicate]; exact Nat.not_lt.1 h)]
    rfl

/-- Register 0 of a list that starts with an argument and goes on with zeros is the argument, and every other reads 0. -/
theorem cons_zeros_getD {α : Type} [Zero α] (a : α) (k : Nat) {n : Nat} (h : n ≠ 0) : (a :: List.replicate k 0).getD n 0 = 0 := by
  obtain ⟨m, rfl⟩ := Nat.exists_eq_succ_of_ne_zero h
  rw [List.getD_cons_succ, replicate_getD_self]

/-- A lane lies in the mask of its quad (R5). -/
theorem inMask_quadMask {l : Nat} (h : l < 64) : inMask (quadMask (l / 4)) l = true := by
  have hoff : l - 4 * (l / 4) < 4 := by omega
  have hbit : ∀ i < 4, (0xF#64).getLsbD i = true := by decide
  simp only [inMask, quadMask, BitVec.getLsbD_shiftLeft, h, hbit _ hoff, decide_true, Bool.true_and, Bool.and_true,
    Bool.not_eq_true', decide_eq_false_iff_not]
  omega

theorem startQuads_getD {q : Nat} (pc : BitVec 57) (live : Mask) (h : q < 16) :
    (startQuads pc live).getD q Quad.idle = ⟨pc, live &&& quadMask q, [], 0⟩ := by
  simp [startQuads, List.getD_eq_getElem?_getD, List.getElem?_range h]

/-- Every launched lane runs at the entry (R38). -/
theorem startQuads_stands {g : Group} {entry : BitVec 57} {launched : Mask} (hq : g.quads = startQuads entry launched) {l : Nat}
    (h : inMask launched l = true) : g.stands l entry := by
  have hl := inMask_lt h
  have hquad : g.quad (l / 4) = ⟨entry, launched &&& quadMask (l / 4), [], 0⟩ := by
    rw [Group.quad, hq, startQuads_getD _ _ (by omega)]
  refine .inl ?_
  rw [hquad]
  exact ⟨by rw [inMask_and, h, inMask_quadMask hl]; rfl, rfl⟩

/-- Settles O60: each register of the reset state and of a placed group is listed by its constructor. -/
theorem resetValues : Obligations.ResetValues := by
  refine ⟨⟨rfl, rfl, rfl, fun i => replicate_getD_self .., rfl, rfl, rfl, rfl⟩,
    ⟨rfl, fun _ => rfl, fun _ => rfl⟩, fun _ => rfl, fun _ => ⟨rfl, rfl, rfl, rfl, rfl, rfl⟩, fun _ => ⟨rfl, rfl, rfl⟩, ?_⟩
  rintro c gr tm ti gn rl q w co sl al pa arg launched entry _ rfl
  exact ⟨fun r l => vRead_zeros al r l, rfl, fun n hn => cons_zeros_getD arg 63 hn,
    fun n => replicate_getD_self .., fun n => replicate_getD_self .., rfl, rfl, rfl, rfl,
    fun l hl => startQuads_stands rfl hl⟩

end Sys2Proof.Machine
end

section
/-!
PROOF. The scheduler's events (R24, R31 to R36, R194 to R196): what an issue cycle leaves alone, and the branch of its meaning that
each other event takes.
-/

namespace Sys2Proof.Machine

/-! ## What a cycle leaves alone -/

/-- No die, and nothing in device memory or a core's memories, has changed. -/
structure DiesAndMemoriesSame (s t : State) : Prop where
  dies : t.dies = s.dies
  mem : t.mem = s.mem
  bank : ∀ n sp, (t.core n).bank sp = (s.core n).bank sp

namespace DiesAndMemoriesSame

theorem of_eq {s t : State} (hd : t.dies = s.dies) (hm : t.mem = s.mem) (hc : t.cores = s.cores) : DiesAndMemoriesSame s t :=
  ⟨hd, hm, fun n sp => by rw [State.core, hc]; rfl⟩

theorem refl (s : State) : DiesAndMemoriesSame s s := .of_eq rfl rfl rfl

theorem trans {s t u : State} (h1 : DiesAndMemoriesSame s t) (h2 : DiesAndMemoriesSame t u) : DiesAndMemoriesSame s u :=
  ⟨h2.dies.trans h1.dies, h2.mem.trans h1.mem, fun n sp => (h2.bank n sp).trans (h1.bank n sp)⟩

theorem foldl {α : Type} {f : State → α → State} (hf : ∀ s x, DiesAndMemoriesSame s (f s x)) (l : List α) (s : State) :
    DiesAndMemoriesSame s (l.foldl f s) :=
  foldl_keeps (DiesAndMemoriesSame s) f (fun t x h => h.trans (hf t x)) l s (refl s)

end DiesAndMemoriesSame

theorem emptyL1_keeps (s : State) (core : Nat) : DiesAndMemoriesSame s (s.emptyL1 core) := by
  refine ⟨rfl, rfl, fun n sp => ?_⟩
  rw [State.emptyL1, State.setCore_get]
  split
  next h => subst h; cases sp <;> rfl
  next => rfl

theorem firstIssue_keeps (s : State) (gid : Nat) : DiesAndMemoriesSame s (s.firstIssue gid) := by
  unfold State.firstIssue
  split
  · exact .refl s
  · split
    · refine .trans ?_ (emptyL1_keeps _ _)
      exact .of_eq rfl rfl rfl
    · exact .refl s

theorem releaseYields_keeps (s : State) (core gid split : Nat) : DiesAndMemoriesSame s (s.releaseYields core gid split) := by
  rw [releaseYields_eq]
  exact .of_eq rfl rfl rfl

/-- A core that picks the splits to issue changes groups, the marks of the cycle, and its L1 (R438). -/
theorem issueCore_keeps (s : State) (now core : Nat) : DiesAndMemoriesSame s (s.issueCore now core) := by
  unfold State.issueCore
  extract_lets gs cs ready aged s1 cands picked twice shot s2 gone young s3 s4 s5 s6 seeks
  have h3 : DiesAndMemoriesSame s s3 := .of_eq rfl rfl rfl
  have h4 : DiesAndMemoriesSame s3 s4 := .foldl firstIssue_keeps _ s3
  have h5 : DiesAndMemoriesSame s4 s5 := .foldl (fun t c => releaseYields_keeps t core c.gid c.split) picked s4
  have h6 : DiesAndMemoriesSame s5 s6 := .of_eq rfl rfl rfl
  exact (((h3.trans h4).trans h5).trans h6).trans (.of_eq rfl rfl rfl)

theorem noteStartable_keeps (s : State) : DiesAndMemoriesSame s s.noteStartable := by
  unfold State.noteStartable
  extract_lets now
  refine .foldl (fun t kv => ?_) _ s
  extract_lets _ u x
  have hu : DiesAndMemoriesSame t u := by
    unfold u
    split <;> exact .of_eq rfl rfl rfl
  split_ifs
  · exact hu
  · exact hu.trans (.of_eq rfl rfl rfl)
  · exact hu.trans (.of_eq rfl rfl rfl)
  · exact hu

theorem noteFirmware_keeps (s : State) : DiesAndMemoriesSame s s.noteFirmware := by
  unfold State.noteFirmware
  extract_lets tell u
  have htell (t : State) (e : DeviceEvent) : DiesAndMemoriesSame t (tell t e) := by
    unfold tell
    split <;> exact .of_eq rfl rfl rfl
  have hu : DiesAndMemoriesSame s u := .foldl (fun t q => htell t _) _ s
  split
  · exact hu.trans (htell u _)
  · exact hu

/-! ## The issue cycle (R12, R32) -/

theorem execIssueCycle_counts {s : State} {d : Nat} (hd : d < 4) (hp : (s.die d).powered = true) (hi : s.issue = []) :
    ∃ t, execIssueCycle d s = .next t ∧
      DiesAndMemoriesSame (s.setDie d { s.die d with cycle := (s.die d).cycle + 1 }) t := by
  unfold execIssueCycle
  extract_lets x s1 s2 cores s3
  rw [if_neg (by simp [x, hp, hi, Nat.not_le.2 hd])]
  refine ⟨_, rfl, ?_⟩
  have h2 : DiesAndMemoriesSame s1 s2 := .of_eq rfl rfl rfl
  have h3 : DiesAndMemoriesSame s1 s3 := h2.trans (.foldl (fun t c => issueCore_keeps t _ c) _ s2)
  split
  · exact (h3.trans (noteStartable_keeps s3)).trans (noteFirmware_keeps _)
  · exact h3

theorem issueCycle_event {s : State} {d : Nat} (hd : d < 4) (hp : (s.die d).powered = true) (hi : s.issue = []) :
    ∃ t, exec (.issueCycle d) s = .next t ∧ (t.die d).cycle = (s.die d).cycle + 1 ∧ (∀ e, e ≠ d → t.die e = s.die e) ∧
      MemoryKept s t := by
  obtain ⟨t, hnext, hkeep⟩ := execIssueCycle_counts hd hp hi
  have hdie (e : Nat) : t.die e = (s.setDie d { s.die d with cycle := (s.die d).cycle + 1 }).die e := by
    rw [State.die, hkeep.dies]
    rfl
  refine ⟨t, hnext, ?_, fun e he => ?_, .of_banks hkeep.mem hkeep.bank⟩
  · rw [hdie, State.setDie_get_self]
  · rw [hdie, State.setDie_get_ne _ _ he]

/-! ## Boundaries (R24, R33, R375) -/

theorem boundaryRoom_mayIssue {s : State} {gid : Nat} {g : Group} (h : s.boundaryRoom gid g = true) :
    g.status = .running ∧ g.evicting = false := by
  simp only [State.boundaryRoom, State.mayIssue, Bool.and_eq_true, beq_iff_eq, Bool.not_eq_true'] at h
  obtain ⟨⟨⟨⟨⟨⟨⟨⟨⟨⟨hrun, _⟩, hstay⟩, _⟩, _⟩, _⟩, _⟩, _⟩, _⟩, _⟩, _⟩ := h
  exact ⟨hrun, hstay⟩

theorem boundaryIssue_event {s : State} {gid : Nat} {g : Group} (hg : s.group? gid = some g) :
    (s.boundaryRoom gid g = true → exec (.boundaryIssue gid) s = .next (s.issueFused gid g)) ∧
    (g.status = .draining ∨ (g.closing = true ∧ g.evicting = true) → g.buf ≠ [] → g.cntSt < 63 →
      exec (.boundaryIssue gid) s = .next (s.close gid)) := by
  have hexec : exec (.boundaryIssue gid) s = execBoundaryIssue gid s := rfl
  rw [hexec]
  unfold execBoundaryIssue
  simp only [hg]
  refine ⟨fun hroom => ?_, fun hends hbuf hcnt => ?_⟩
  · obtain ⟨hrun, hstay⟩ := boundaryRoom_mayIssue hroom
    simp [hrun, hstay, hroom]
  · rw [if_pos (by simp [hbuf, hcnt]; exact hends)]

/-! ## Placement, eviction and resumption (R31, R34 to R36, R53) -/

theorem teamPlacementTry_event (s : State) :
    (s.tryAt + 4096 ≤ (s.die 0).cycle.toNat →
      exec .teamPlacementTry s = .next { s.tryAll s.waitingTeams with tryAt := (s.die 0).cycle.toNat }) ∧
    ((s.die 0).cycle.toNat < s.tryAt + 4096 → s.waitingTeams.filter (fun kv => !kv.2.tried) ≠ [] →
      exec .teamPlacementTry s = .next (s.tryAll (s.waitingTeams.filter fun kv => !kv.2.tried))) := by
  have hexec : exec .teamPlacementTry s = execTeamPlacementTry s := rfl
  rw [hexec]
  unfold execTeamPlacementTry
  refine ⟨fun hdue => if_pos hdue, fun hearly huntried => ?_⟩
  rw [if_neg (Nat.not_le.2 hearly), if_neg (by rwa [List.isEmpty_iff])]

theorem evictReady_chosen {s : State} {gid : Nat} {g : Group} (h : s.evictReady gid g = true) :
    g.evicting = true ∧ g.evicted = false := by
  simp only [State.evictReady, Bool.and_eq_true, Bool.not_eq_true'] at h
  obtain ⟨⟨⟨⟨⟨⟨⟨⟨⟨⟨hchosen, hhere⟩, _⟩, _⟩, _⟩, _⟩, _⟩, _⟩, _⟩, _⟩, _⟩ := h
  exact ⟨hchosen, hhere⟩

theorem groupEviction_event {s : State} {gid : Nat} {g : Group} (hg : s.group? gid = some g) (h : s.evictReady gid g = true) :
    (s.evictDiscard gid g = none →
      exec (.groupEviction gid) s = .next ((s.setGroup gid { g with evicting := false, noEvict := true }).carryOn g.core)) ∧
    ∀ u, s.evictDiscard gid g = some u →
      exec (.groupEviction gid) s = .next ((u.modGroup gid fun h =>
        { h with evicting := false, evicted := true, snap := none }).afterLeave g) := by
  obtain ⟨hchosen, hhere⟩ := evictReady_chosen h
  have hexec : exec (.groupEviction gid) s = execGroupEviction gid s := rfl
  rw [hexec]
  unfold execGroupEviction
  simp only [hg, hchosen, hhere, h, Bool.and_false, Bool.false_and, Bool.not_true, Bool.false_eq_true, if_false]
  exact ⟨fun hlimit => by rw [hlimit], fun u hu => by rw [hu]⟩

theorem groupResume_event {s u : State} {gid : Nat} {g : Group} {t : Team} (hg : s.group? gid = some g) (he : g.evicted = true)
    (hh : g.status ≠ .halted) (hc : (s.ctx g.ctx).state = .enabled) (ht : s.team? g.team = some t) :
    (∀ core b, t.place = .placed core b → s.resumeAlone gid g t core = some u → exec (.groupResume gid) s = .next u) ∧
    ∀ core b, t.place = .evicted core b → s.resumeWhole g.team t core b = some u → exec (.groupResume gid) s = .next u := by
  have hexec : exec (.groupResume gid) s = execGroupResume gid s := rfl
  rw [hexec]
  unfold execGroupResume
  simp only [hg, ht]
  rw [if_neg (by simp [he, hh, hc])]
  exact ⟨fun core b hp hu => by simp only [hp, hu], fun core b hp hu => by simp only [hp, hu]⟩

theorem groupDrained_event {s : State} {gid : Nat} {g : Group} {t : Team} (hg : s.group? gid = some g)
    (ht : s.team? g.team = some t) (hd : g.drainedNow = true) (hgang : t.gang = none)
    (hten : s.tenuresHeld (fun x => x.gid == gid) = false) (hup : s.coreUp g.core = true)
    (hstop : (s.ctx g.ctx).state ≠ .stopping) :
    ∃ u v w : State, u = (s.endTenures fun x => x.gid == gid).dropEarly g.ctx gid ∧
      v = { u with reservations := u.reservations.filter (·.gid != gid), groups := smDel u.groups gid } ∧
      w = ((v.setTeam g.team { t with
        groupsLeft := t.groupsLeft - 1
        place := if t.groupsLeft ≤ 1 then .gone else t.place }).finishLeave g.team).gridDown g.grid 1 ∧
      exec (.groupDrained gid) s = .next ((w.tryAll (w.waitingTeams.filter fun kv =>
        kv.2.dies.getLsbD (dieOfCore g.core))).carryOn g.core) := by
  refine ⟨_, _, _, rfl, rfl, rfl, ?_⟩
  have hexec : exec (.groupDrained gid) s = execGroupDrained gid s := rfl
  rw [hexec]
  unfold execGroupDrained
  simp only [hg, ht, hgang, hd, hten, hup]
  rw [if_neg (by simpa using hstop)]

/-! ## SPAWN (R194 to R196) -/

/-- What SPAWN does once its record has been read: a refusal gives its reason, and else a team of the grid is queued. -/
theorem spawn_record {y : IC} {rd : State} {q : Grid} (d v mask : Nat) (arg : W64) (hq : rd.grid? y.g.grid = some q) :
    (∀ r, rd.spawnRefusal q (spawnShape v).1 (spawnShape v).2
        (if mask = 0 then q.dies else q.dies &&& BitVec.ofNat 4 mask) = some r →
      y.spawn rd d v mask arg
        = y.pass (rd.modGroup y.cu.gid fun g => g.wrS d (BitVec.ofNat 64 (r + 0xFFFFFFFF * 2 ^ 32)))) ∧
    (rd.spawnRefusal q (spawnShape v).1 (spawnShape v).2 (if mask = 0 then q.dies else q.dies &&& BitVec.ofNat 4 mask) = none →
      y.spawn rd d v mask arg
        = y.pass ((((rd.drainLines y.g.core fun _ => true).setGrid y.g.grid { q with
            counter := q.counter + Shape.total (spawnShape v).1 }).queueTeam y.g.grid (spawnShape v).1 arg
              (if mask = 0 then q.dies else q.dies &&& BitVec.ofNat 4 mask) none).modGroup y.cu.gid
                fun g => g.wrS d (BitVec.ofNat 64 (q.nextTeam % 2 ^ 32 * 2 ^ 32)))) := by
  unfold IC.spawn
  simp only [hq]
  exact ⟨fun r hr => by simp only [hr], fun hr => by simp only [hr]⟩

theorem execSpawn_pass {o : Ops} {s u : State} {x y : IC} {pa : Nat} (hb : Boundary s o.g (Claims.footOf .spawn .w96 o) x y)
    (ha : (y.val o.a true 0).toNat % 32 = 0) (hv : (y.val o.a true 0).toNat < Config.virtEnd)
    (hgo : y.actOne .load false (y.val o.a true 0).toNat 32 = .go pa)
    (hclean : (y.s.groupRead x.cu.gid y.g.core pa 32).2.any (·.2) = false)
    (hfree : (y.s.groupRead x.cu.gid y.g.core pa 32).1.drainHeld y.g.core (fun _ => true) = false)
    (hs : y.spawn (y.s.groupRead x.cu.gid y.g.core pa 32).1 (opNum o.d)
      (leNat ((y.s.groupRead x.cu.gid y.g.core pa 32).2.map (·.1))) (nfld o.imm.toNat 3 0) (y.val o.b true 0) = y.pass u) :
    exec (.spawn o) s = .next (y.past u) := by
  have hexec : exec (.spawn o) s = execSpawn o s := rfl
  rw [hexec]
  refine issueBoundary_pass hb rfl ?_
  simp only [hb.cu_eq, hgo]
  rw [if_neg (by simp [ha, hv]), hclean, hfree]
  exact hs

/-- Settles O43: each event's own lemma, the branch of its meaning that its conditions pick. -/
theorem schedulingEvents : Obligations.SchedulingEvents := by
  refine ⟨fun s d hd hp hi => issueCycle_event hd hp hi, fun s gid g hg => boundaryIssue_event hg, teamPlacementTry_event,
    fun s gid g hg hr => ?_, fun s u gid g t hg he hh hc ht => groupResume_event hg he hh hc ht,
    fun s gid g t hg ht hd hgang hten hup hstop => groupDrained_event hg ht hd hgang hten hup hstop, ?_⟩
  · obtain ⟨hspared, hgone⟩ := groupEviction_event hg hr
    exact ⟨hspared, fun u hu => ⟨_, rfl, hgone u hu⟩⟩
  · intro o s x y pa q hb ha hv hgo rd v sh mask dies hclean hfree hq
    obtain ⟨hrefused, hqueued⟩ := spawn_record (opNum o.d) v mask (y.val o.b true 0) hq
    rw [hb.cu_eq] at hrefused hqueued
    exact ⟨fun r hr => execSpawn_pass hb ha hv hgo hclean hfree (hrefused r hr),
      fun hr => execSpawn_pass hb ha hv hgo hclean hfree (hqueued hr)⟩

end Sys2Proof.Machine
end

section
/-!
PROOF. READY, the black boxes and the links (R405, R408, R412, R416): what setting a bit of READY and writing a record change, and
the events of a link.
-/

namespace Sys2Proof.Machine

/-! ## READY (R412) -/

theorem bitMask_getLsbD {b : Nat} (hb : b < 64) (c : Nat) : (1#64 <<< b).getLsbD c = decide (c = b) := by
  have h := BitVec.getLsbD_twoPow (w := 64) b c
  rw [BitVec.twoPow] at h
  rw [h]
  by_cases hc : c = b
  · simp [hc, hb]
  · simp [hc, Ne.symm hc]

theorem setReady_ready {s : State} {b : Nat} (hb : b < 64) (v : Bool) (c : Nat) :
    (s.setReady b v).ready c = if c = b then v else s.ready c := by
  have hm := bitMask_getLsbD hb c
  have hout : ¬ c < 64 → s.host.ready.getLsbD c = false := fun hc => BitVec.getLsbD_of_ge _ c (Nat.not_lt.1 hc)
  cases v
  · simp only [State.setReady, State.ready, Bool.false_eq_true, if_false, BitVec.getLsbD_and, BitVec.getLsbD_not, hm]
    by_cases hcb : c = b
    · simp [hcb]
    · by_cases hc : c < 64 <;> simp [hcb, hc, hout]
  · simp only [State.setReady, State.ready, if_true, BitVec.getLsbD_or, hm]
    by_cases hcb : c = b <;> simp [hcb]

theorem setReady_self {s : State} {b : Nat} (hb : b < 64) (v : Bool) : (s.setReady b v).ready b = v := by
  rw [setReady_ready hb, if_pos rfl]

theorem setReady_ne {s : State} {b c : Nat} (hb : b < 64) (v : Bool) (h : c ≠ b) : (s.setReady b v).ready c = s.ready c := by
  rw [setReady_ready hb, if_neg h]

@[simp] theorem setReady_get_port (s : State) (b : Nat) (v : Bool) (p : Nat) : (s.setReady b v).port p = s.port p := rfl
@[simp] theorem setReady_get_core (s : State) (b : Nat) (v : Bool) (n : Nat) : (s.setReady b v).core n = s.core n := rfl
@[simp] theorem setReady_dies (s : State) (b : Nat) (v : Bool) : (s.setReady b v).dies = s.dies := rfl
@[simp] theorem setReady_mem (s : State) (b : Nat) (v : Bool) : (s.setReady b v).mem = s.mem := rfl

/-! ## Black boxes (R408) -/

/-- A reading of a die that neither its black box nor the box's count changes. -/
def Die.BesideBox {β : Type} (q : Die → β) : Prop := ∀ x b n, q { x with box := b, boxSeq := n } = q x

/-- A record leaves what a die holds beside its black box. -/
theorem logBox_die {β : Type} (q : Die → β) (hq : Die.BesideBox q) (s : State)
    (die event kind ctx : Nat) (agent addr : W64) (data : BitVec 256) (d : Nat) :
    q ((s.logBox die event kind ctx agent addr data).die d) = q (s.die d) := by
  unfold State.logBox
  simp only [State.setDie_get]
  split
  next h => rw [hq, h]
  next => rfl

section
variable (s : State) (die event kind ctx : Nat) (agent addr : W64) (data : BitVec 256)

@[simp] theorem logBox_cores : (s.logBox die event kind ctx agent addr data).cores = s.cores := rfl
@[simp] theorem logBox_get_core (n : Nat) : (s.logBox die event kind ctx agent addr data).core n = s.core n := rfl
@[simp] theorem logBox_get_port (p : Nat) : (s.logBox die event kind ctx agent addr data).port p = s.port p := rfl
@[simp] theorem logBox_host : (s.logBox die event kind ctx agent addr data).host = s.host := rfl
@[simp] theorem logBox_ready (b : Nat) : (s.logBox die event kind ctx agent addr data).ready b = s.ready b := rfl
@[simp] theorem logBox_mem : (s.logBox die event kind ctx agent addr data).mem = s.mem := rfl

end

/-! ## Links (R405, R416) -/

theorem killLink_spec {s : State} {p : Nat} (hp : p < 24) (failures : Nat) :
    (s.killLink p failures).port p = { s.port p with
        state := 3, peer := 0, lsn := (s.port p).lsn + 1, drainRounds := 0, far := (s.port p).peer,
        drainAt := (s.die (dieOfPort p)).cycle.toNat } ∧
      (s.killLink p failures).ready (24 + p) = false ∧ (p, (s.port p).lsn + 1) ∈ (s.killLink p failures).floods := by
  unfold State.killLink
  extract_lets x d now u
  refine ⟨?_, ?_, ?_⟩
  · exact (State.setPort_get_self .. : u.port p = _)
  · exact setReady_self (s := u) (by omega) false
  · exact List.mem_append_right _ (List.mem_singleton.2 rfl)

theorem linkDead_event {s : State} {p : Nat} (hp : p < 24) (hup : (s.port p).state = 2) (hsilent : s.silent p = true) :
    ∃ n, exec (.linkDead p) s = .next (s.killLink p n) := by
  refine ⟨(s.port p).spare.toNat, ?_⟩
  exact if_neg (by simp [hup, hsilent, Nat.not_le.2 hp])

theorem linkStateUpdate_event {s : State} {p n : Nat} (hp : p < 24) (hn : n < 2 ^ 16) :
    (newerLsn (BitVec.ofNat 16 n) (s.port p).lsn = true → exec (.linkStateUpdate p n) s
      = .next ((s.setPort p { s.port p with lsn := BitVec.ofNat 16 n }).flood p (BitVec.ofNat 16 n))) ∧
    (newerLsn (BitVec.ofNat 16 n) (s.port p).lsn = false → exec (.linkStateUpdate p n) s = .next s) := by
  refine ⟨fun hnew => if_neg ?_, fun hold => if_pos ?_⟩
  · simpa [hnew, Nat.not_le.2 hp] using hn
  · simp [hold]

theorem drainRound_event {s : State} {p : Nat} (hdead : (s.port p).state = 3) (hr : (s.port p).drainRounds < 4)
    (hdue : (s.port p).drainAt + 65536 ≤ (s.die (dieOfPort p)).cycle.toNat) :
    ∃ u, u = s.setPort p { s.port p with
        drainRounds := (s.port p).drainRounds + 1, drainAt := (s.port p).drainAt + 65536 } ∧
      ((s.port p).drainRounds ≠ 3 ∨ (s.port p).far = 0 → exec (.drainRound p) s = .next u) ∧
      ((s.port p).drainRounds = 3 → (s.port p).far ≠ 0 → ∀ r, r = u.peerReached (s.port p).far →
        exec (.drainRound p) s = .next (if r.1 then r.2 else r.2.failPeer (s.port p).far.toNat)) := by
  have hexec : exec (.drainRound p) s = execDrainRound p s := rfl
  rw [hexec]
  unfold execDrainRound
  extract_lets x now u r
  rw [if_neg (by simp [x, now, hdead, hr, hdue])]
  refine ⟨u, rfl, fun h => if_pos (by simpa [x] using h), ?_⟩
  rintro h3 hfar _ rfl
  exact if_neg (by simpa [x, h3] using hfar)

theorem portTraining_event {s : State} {p : Nat} (hp : p < 24) (hdead : (s.port p).state ≠ 3)
    (hpow : (s.die (dieOfPort p)).powered = true) (up : Bool) (peer : BitVec 32) :
    ∃ t, exec (.linkTraining (24 + p) up peer) s = .next t ∧ t.ready (24 + p) = up ∧
      t.port p = { s.port p with state := if up then 2 else 1, peer := if up then peer else 0,
                                 acceptAt := (s.die (dieOfPort p)).cycle.toNat } := by
  have hexec : exec (.linkTraining (24 + p) up peer) s = execLinkTraining (24 + p) up peer s := rfl
  rw [hexec]
  unfold execLinkTraining
  have hnum : 24 + p - 24 = p := by omega
  rw [if_neg (by omega), if_neg (by simp; omega)]
  simp only [hnum]
  rw [if_neg (by simpa [hpow] using hdead)]
  exact ⟨_, rfl, setReady_self (by omega) up, State.setPort_get_self ..⟩

theorem hostLinkTraining_event {s : State} {b : Nat} {up : Bool} (peer : BitVec 32) (hb : b < 3)
    (hpow : up = true → s.functionPower b = true) :
    ∃ t, exec (.linkTraining b up peer) s = .next t ∧ t.ready b = up := by
  have hexec : exec (.linkTraining b up peer) s = execLinkTraining b up peer s := rfl
  rw [hexec]
  unfold execLinkTraining
  rw [if_pos hb, if_neg (by simpa using hpow)]
  exact ⟨_, rfl, setReady_self (by omega) up⟩

end Sys2Proof.Machine
end

section
/-!
PROOF. Failures and rejoins (R406, R407): a declaration leaves the failed core empty, and an agent that rejoins is in service with the
next incarnation.
-/

namespace Sys2Proof.Machine

/-! ## Failures (R406) -/

theorem raiseManaged_cores (s : State) (ctx kind d0 d1 die : Nat) : (s.raiseManaged ctx kind d0 d1 die).cores = s.cores := by
  unfold State.raiseManaged
  extract_lets x r
  split
  next => exact State.setCtx_cores ..
  next => rfl

theorem loseAgent_cores (s : State) (ctxs : List Nat) (code agent inc die : Nat) :
    (s.loseAgent ctxs code agent inc die).cores = s.cores :=
  foldl_same State.cores _ (fun t c => (State.setCtx_cores ..).trans (raiseManaged_cores t c 0x10 agent inc die)) ctxs s

theorem stranded_cores (s : State) (key core : Nat) : (s.stranded key core).cores = s.cores := by
  unfold State.stranded
  split
  next => rfl
  next =>
    split
    next =>
      extract_lets serves x
      split
      next => rfl
      next => exact raiseManaged_cores ..
    next => rfl

theorem strandAll_cores (s : State) (core : Nat) : (s.strandAll core).cores = s.cores :=
  foldl_same State.cores _ (fun t k => stranded_cores t k core) _ s

/-- What follows the emptying of a failed core changes no core. -/
theorem failCore_core (s : State) (n : Nat) : (s.failCore n).core n = { (s.core n).fail with alone := true } := by
  unfold State.failCore
  extract_lets on ctxs inc _ u v
  rw [logBox_get_core, State.core, strandAll_cores, loseAgent_cores]
  exact (State.setCore_get_self .. : u.core n = _)

theorem coreFailure_event {s : State} {n : Nat} (hn : n < 1024) (h : (s.core n).failed = false) :
    exec (.failureDeclaration (.core n)) s = .next (s.failCore n) :=
  if_neg (by simp [h, Nat.not_le.2 (show n < Config.coreCount from hn)])

theorem dieFailure_event {s : State} {d : Nat} (hd : d < 4) (h : (s.die d).failed = false) :
    exec (.failureDeclaration (.die d)) s = .next (s.failDie d) :=
  if_neg (by simpa [h] using hd)

theorem peerFailure_event {s : State} {n : Nat} (h : smGet false s.host.peersLost n = false) :
    ∃ t, exec (.failureDeclaration (.peer n)) s = .next t ∧ smGet false t.host.peersLost n = true ∧ MemoryKept s t := by
  refine ⟨s.failPeer n, rfl, ?_⟩
  unfold State.failPeer
  extract_lets inc u
  rw [if_neg (by simp [h])]
  exact ⟨smGet_smSet_self false s.host.peersLost n true, .of_cores rfl rfl⟩

theorem hostFailure_event {s : State} (h : s.host.lost = false) :
    ∃ t, exec (.failureDeclaration .host) s = .next t ∧ t.hostHalves = [] ∧ t.host.lost = true :=
  ⟨_, if_neg (by simp [h]), rfl, rfl⟩

/-! ## Rejoins (R407) -/

/-- A core in service again, empty as its failure left it. -/
def CoreSt.rejoined (c : CoreSt) : CoreSt := { c with failed := false, alone := false, untested := false, inc := nextInc c.inc }

theorem rejoinCore_core (s : State) (n m : Nat) : (s.rejoinCore n).core m = if m = n then (s.core m).rejoined else s.core m := by
  unfold State.rejoinCore
  extract_lets c u
  rw [logBox_get_core, State.setCore_get]
  split
  next h => rw [h]; rfl
  next => rfl

theorem rejoinCore_die {β : Type} (q : Die → β) (hq : Die.BesideBox q) (s : State) (n d : Nat) :
    q ((s.rejoinCore n).die d) = q (s.die d) :=
  logBox_die q hq _ _ _ _ _ _ _ _ d

theorem rejoinCores_core {l : List Nat} (hl : l.Nodup) (s : State) (m : Nat) :
    (l.foldl State.rejoinCore s).core m = if m ∈ l then (s.core m).rejoined else s.core m := by
  induction l generalizing s with
  | nil => rfl
  | cons n l ih =>
    obtain ⟨hn, hl⟩ := List.nodup_cons.1 hl
    rw [List.foldl_cons, ih hl, rejoinCore_core]
    by_cases hm : m = n
    · simp [hm, hn]
    · simp [hm]

theorem nodup_run (n len : Nat) : (run n len).Nodup :=
  List.nodup_range.map fun _ _ h => Nat.add_left_cancel h

/-- A die's cores are the 256 of its numbers. -/
theorem mem_coresOfDie {c d : Nat} : c ∈ run (256 * d) 256 ↔ dieOfCore c = d := by
  simp only [run, dieOfCore, List.mem_map, List.mem_range]
  constructor
  · rintro ⟨i, hi, rfl⟩
    omega
  · intro h
    exact ⟨c - 256 * d, by omega, by omega⟩

/-- A port waits for no reading of its die's clock any more. -/
def State.rewindPort (s : State) (p : Nat) : State := s.setPort p { s.port p with drainAt := 0, acceptAt := 0 }

/-- A restarted clock reads 0, and nothing else of the die changes. -/
theorem restartClock_die (s : State) (d : Nat) : (s.restartClock d).die d = { s.die d with cycle := 0 } := by
  unfold State.restartClock
  extract_lets _ u v inval _ w
  have hports : v.dies = u.dies := foldl_same State.dies State.rewindPort (fun _ _ => rfl) _ u
  clear_value v
  have hw : w.die d = { s.die d with cycle := 0 } :=
    (congrArg (smGet Die.reset · d) hports).trans (State.setDie_get_self ..)
  split
  next => exact hw
  next => exact hw

theorem restartClock_cores (s : State) (d : Nat) : (s.restartClock d).cores = s.cores := by
  unfold State.restartClock
  extract_lets _ u v inval _ w
  have hports : v.cores = u.cores := foldl_same State.cores State.rewindPort (fun _ _ => rfl) _ u
  clear_value v
  split
  next => exact hports
  next => exact hports

theorem coreRejoin_event {s : State} {n : Nat} (hf : (s.core n).failed = true) (hp : (s.die (dieOfCore n)).powered = true)
    (hd : (s.die (dieOfCore n)).failed = false) (hr : s.ready (8 + dieOfCore n) = true) (ht : (s.core n).untested = false) :
    ∃ t, exec (.agentRejoin (.core n)) s = .next t ∧
      t.core n = { s.core n with failed := false, alone := false, inc := nextInc (s.core n).inc } := by
  refine ⟨s.rejoinCore n, if_neg (by simp [hf, hp, hd, hr, ht]), ?_⟩
  rw [rejoinCore_core, if_pos rfl, CoreSt.rejoined, ← ht]

/-- A die in service again, its clock restarted, before its cores rejoin. -/
def State.dieBack (s : State) (d : Nat) : State :=
  (s.setDie d { s.die d with failed := false, inc := nextInc (s.die d).inc }).restartClock d

theorem dieBack_die (s : State) (d : Nat) :
    (s.dieBack d).die d = { s.die d with failed := false, inc := nextInc (s.die d).inc, cycle := 0 } := by
  rw [State.dieBack, restartClock_die, State.setDie_get_self]

theorem dieBack_core (s : State) (d c : Nat) : (s.dieBack d).core c = s.core c :=
  congrArg (smGet CoreSt.reset · c) (restartClock_cores _ d)

/-- The cores of a die that had not failed on their own. -/
def State.rejoining (s : State) (d : Nat) : List Nat := (run (256 * d) 256).filter fun c => !(s.core c).alone

theorem mem_rejoining {s : State} {c d : Nat} : c ∈ s.rejoining d ↔ dieOfCore c = d ∧ (s.core c).alone = false := by
  rw [State.rejoining, List.mem_filter, mem_coresOfDie, Bool.not_eq_true']

theorem nodup_rejoining (s : State) (d : Nat) : (s.rejoining d).Nodup := (nodup_run _ _).filter _

theorem rejoinCores_die {β : Type} (q : Die → β) (hq : Die.BesideBox q) (s : State) (l : List Nat)
    (d : Nat) : q ((l.foldl State.rejoinCore s).die d) = q (s.die d) :=
  foldl_same (fun t => q (t.die d)) _ (fun t c => rejoinCore_die q hq t c d) l s

theorem dieRejoin_event {s : State} {d : Nat} (hf : (s.die d).failed = true) (hp : (s.die d).powered = true)
    (hr : (dieBits d).all s.ready = true) :
    ∃ t, exec (.agentRejoin (.die d)) s = .next t ∧ (t.die d).failed = false ∧ (t.die d).cycle = 0 ∧
      (t.die d).inc = nextInc (s.die d).inc ∧
      ∀ c, dieOfCore c = d → t.core c = if (s.core c).alone then s.core c else (s.core c).rejoined := by
  let u := s.dieBack d
  let v := (u.rejoining d).foldl State.rejoinCore u
  have hdie {β : Type} (q : Die → β) (hq : Die.BesideBox q) {n : Nat} {a : W64} :
      q ((v.logBox d 13 0 n a 0 0).die d) = q { s.die d with failed := false, inc := nextInc (s.die d).inc, cycle := 0 } := by
    rw [logBox_die q hq, rejoinCores_die q hq, dieBack_die]
  refine ⟨v.logBox d 13 0 noCtx (BitVec.ofNat 64 (d + (nextInc (s.die d).inc).toNat * 2 ^ 32)) 0 0,
    if_neg (by simp [hf, hp, hr]), hdie Die.failed fun _ _ _ => rfl, hdie Die.cycle fun _ _ _ => rfl,
    hdie Die.inc fun _ _ _ => rfl, fun c hc => ?_⟩
  rw [logBox_get_core, show v.core c = _ from rejoinCores_core (nodup_rejoining u d) u c, dieBack_core]
  cases ha : (s.core c).alone <;> simp [u, mem_rejoining, dieBack_core, hc, ha]

theorem peerRejoin_event {s : State} {n : Nat} (h : smGet false s.host.peersLost n = true) :
    ∃ t, exec (.agentRejoin (.peer n)) s = .next t ∧ smGet 1 t.host.peerInc n = nextInc (smGet 1 s.host.peerInc n) ∧
      smGet false t.host.peersLost n = false :=
  ⟨_, if_neg (by simp [h]), smGet_smSet_self .., smGet_smSet_self false s.host.peersLost n false⟩

theorem hostRejoin_event {s : State} (h : s.host.lost = true) :
    ∃ t, exec (.agentRejoin .host) s = .next t ∧ t.host.inc = nextInc s.host.inc ∧ t.host.lost = false :=
  ⟨_, if_neg (by simp [h]), rfl, rfl⟩

end Sys2Proof.Machine
end

section
/-!
PROOF. Power, reset and readiness (R8, R12, R14, R408, R412, R421): what the loss of a die's power, its return, its reset and a passed
self-test leave of the die, of READY and of the black boxes.
-/

namespace Sys2Proof.Machine

/-! ## Functions that are ready no more (R412) -/

/-- A function is ready no more. -/
def State.clearReady (s : State) (b : Nat) : State := s.setReady b false

theorem clearReady_keeps {s : State} {b c : Nat} (hc : c < 64) (h : s.ready b = false) : (s.clearReady c).ready b = false := by
  rw [State.clearReady, setReady_ready hc]
  split
  next => rfl
  next => exact h

/-- Clearing the bits of a list leaves each of them 0. -/
theorem clearReady_list {l : List Nat} (hl : ∀ b ∈ l, b < 64) (s : State) {b : Nat} (hb : b ∈ l) :
    (l.foldl State.clearReady s).ready b = false := by
  induction l generalizing s with
  | nil => cases hb
  | cons c l ih =>
    have hl' : ∀ b ∈ l, b < 64 := fun b hb => hl b (List.mem_cons_of_mem _ hb)
    cases List.mem_cons.1 hb with
    | inr h => exact ih hl' _ h
    | inl h =>
      have hself : (s.clearReady c).ready b = false := by
        rw [h, State.clearReady, setReady_self (hl c List.mem_cons_self)]
      exact foldl_keeps_mem (fun t : State => t.ready b = false) State.clearReady l
        (fun t c hc ht => clearReady_keeps (hl' c hc) ht) _ hself

theorem darkBits_lt {s : State} {d b : Nat} (hd : d < 4) (h : b ∈ s.darkBits d) : b < 64 := by
  simp only [State.darkBits, dieBits, List.mem_append, List.mem_cons, List.not_mem_nil, or_false] at h
  have hdevice : b ∈ (if d = 0 then [0, 1, 2, 3, 5, 6, 7] else []) → b < 64 := by
    split
    next =>
      simp only [List.mem_cons, List.not_mem_nil, or_false]
      omega
    next => simp
  have hbobbins {p : Prop} [Decidable p] : b ∈ (if p then [4] else []) → b < 64 := by
    split
    next =>
      simp only [List.mem_cons, List.not_mem_nil, or_false]
      omega
    next => simp
  rcases h with (h | h) | h
  · omega
  · exact hdevice h
  · exact hbobbins h

/-! ## Power (R14, R408, R421) -/

/-- A port of a die that loses power. -/
def State.darkPort (s : State) (p : Nat) : State := (s.setPort p (s.port p).dark).setReady (24 + p) false

/-- A group loses what it holds on its core. -/
def State.wipeGroup (s : State) (kv : Nat × Group) : State := { s.setGroup kv.1 (kv.2.wipe s.fresh) with fresh := s.fresh + 4 }

theorem wipeGroups_dies (s : State) (cores : Nat → Bool) : (s.wipeGroups cores).dies = s.dies :=
  foldl_same State.dies State.wipeGroup (fun _ _ => rfl) _ s

theorem wipeGroups_host (s : State) (cores : Nat → Bool) : (s.wipeGroups cores).host = s.host :=
  foldl_same State.host State.wipeGroup (fun _ _ => rfl) _ s

theorem mem_portsOfDie {d p : Nat} (hd : d < 4) (h : p ∈ run (6 * d) 6) : 24 + p < 64 := by
  simp only [run, List.mem_map, List.mem_range] at h
  obtain ⟨i, hi, rfl⟩ := h
  omega

/-- The functions and ports of a die that loses power. -/
def State.dimmed (s : State) (d : Nat) : State :=
  (run (6 * d) 6).foldl State.darkPort ((s.darkBits d).foldl State.clearReady s)

theorem dimmed_dies (s : State) (d : Nat) : (s.dimmed d).dies = s.dies := by
  rw [State.dimmed, foldl_same State.dies State.darkPort fun _ _ => rfl, foldl_same State.dies State.clearReady fun _ _ => rfl]

theorem dimmed_ready (s : State) {d b : Nat} (hd : d < 4) (hb : b ∈ s.darkBits d) : (s.dimmed d).ready b = false :=
  foldl_keeps_mem (fun t : State => t.ready b = false) State.darkPort _
    (fun _ _ hp ht => clearReady_keeps (mem_portsOfDie hd hp) ht) _ (clearReady_list (fun _ => darkBits_lt hd) s hb)

/-- The tables of a die without power, its bobbins' events and its groups' registers. -/
def State.forget (s : State) (d : Nat) : State :=
  let s := (s.setDie d { s.die d with powered := false, islands := [], forwards := [] }).giveBack (· / 3 == d)
  let s := s.wipeGroups fun c => dieOfCore c == d
  { s with clusterTlb := s.clusterTlb.filter fun kv => kv.1 / 64 != d }

theorem forget_die (s : State) (d : Nat) :
    (s.forget d).die d = { s.die d with powered := false, islands := [], forwards := [] } := by
  simp only [State.forget, State.die, wipeGroups_dies]
  exact smGet_smSet_self ..

theorem forget_ready (s : State) (d b : Nat) : (s.forget d).ready b = s.ready b := by
  simp only [State.forget, State.ready, wipeGroups_host]
  rfl

theorem powerDown_eq (s : State) (d : Nat) :
    s.powerDown d = ((s.dimmed d).logBox d 14 0 noCtx (BitVec.ofNat 64 d) 0 0).forget d := rfl

/-- A die without power: its counter stands still, its tables are lost, and its functions are ready no more. -/
theorem powerDown_spec (s : State) {d : Nat} (hd : d < 4) :
    ((s.powerDown d).die d).powered = false ∧ ((s.powerDown d).die d).cycle = (s.die d).cycle ∧
      ((s.powerDown d).die d).islands = [] ∧ ∀ b ∈ s.darkBits d, (s.powerDown d).ready b = false := by
  rw [powerDown_eq, forget_die]
  refine ⟨rfl, ?_, rfl, fun b hb => ?_⟩
  · rw [logBox_die Die.cycle fun _ _ _ => rfl, State.die, dimmed_dies, State.die]
  · rw [forget_ready, logBox_ready, dimmed_ready s hd hb]

theorem powerLoss_event {s : State} {d : Nat} (hd : d < 4) (hp : (s.die d).powered = true) :
    exec (.diePowerLoss d) s = .next (s.powerDown d) ∧ exec (.thermalTrip d) s = .next (s.powerDown d) :=
  have h : ¬ (decide (4 ≤ d) || !(s.die d).powered) = true := by simpa [hp] using hd
  ⟨if_neg h, if_neg h⟩

theorem powerRestored_event {s : State} {d : Nat} (hd : d < 4) (hp : (s.die d).powered = false) (hf : (s.die d).failed = true) :
    ∃ t, exec (.powerRestored d) s = .next t ∧ (t.die d).powered = true ∧ (t.die d).cycle = 0 := by
  let u := (s.setDie d { s.die d with powered := true }).restartClock d
  have hu : u.die d = { s.die d with powered := true, cycle := 0 } := by
    rw [restartClock_die, State.setDie_get_self]
  refine ⟨u.logBox d 15 0 noCtx (BitVec.ofNat 64 d) 0 0, if_neg (by simpa [hp, hf] using hd), ?_, ?_⟩
  · rw [logBox_die Die.powered fun _ _ _ => rfl, hu]
  · rw [logBox_die Die.cycle fun _ _ _ => rfl, hu]

theorem powerCap_event {s : State} {d n : Nat} (hd : d < 4) (hp : (s.die d).powered = true) (hn : n ≠ 0) :
    exec (.powerCapThrottle d n) s = .next (s.setDie d { s.die d with divisor := n }) :=
  if_neg (by simpa [hp, hn] using hd)

/-! ## Reset (R12) -/

theorem restartClock_mem (s : State) (d : Nat) : (s.restartClock d).mem = s.mem := by
  unfold State.restartClock
  extract_lets _ u v inval _ w
  have hports : v.mem = u.mem := foldl_same State.mem State.rewindPort (fun _ _ => rfl) _ u
  clear_value v
  split
  next => exact hports
  next => exact hports

/-- A port of a die that comes out of reset. -/
def State.resetPort (s : State) (p : Nat) : State := (s.setPort p Port.reset).setReady (24 + p) false

/-- A core of a die that comes out of reset. -/
def State.resetCore (d : Nat) (s : State) (i : Nat) : State :=
  let c := s.core (256 * d + i)
  s.setCore (256 * d + i) { CoreSt.reset with spareUsed := c.spareUsed, retired := c.retired, inc := c.inc }

/-- The functions, ports and cores of a die that comes out of reset. -/
def State.resetParts (s : State) (d : Nat) : State :=
  (List.range 256).foldl (State.resetCore d) ((run (6 * d) 6).foldl State.resetPort ((dieBits d).foldl State.clearReady s))

theorem resetParts_mem (s : State) (d : Nat) : (s.resetParts d).mem = s.mem := by
  rw [State.resetParts, foldl_same State.mem (State.resetCore d) fun _ _ => rfl, foldl_same State.mem State.resetPort fun _ _ => rfl,
    foldl_same State.mem State.clearReady fun _ _ => rfl]

/-- The tables of a die that comes out of reset, and its L2. -/
def State.resetTables (s : State) (d : Nat) : State :=
  let s := s.setDie d { s.die d with islands := [], forwards := [], divisor := 1 }
  { s with
    l2home := s.l2home.filter fun kv => homeDie (128 * kv.1) != d
    reservations := s.reservations.filter fun (r : Reservation) => homeDie (128 * r.line) != d
    tenures := s.tenures.filter fun (t : Tenure) => t.anchor / 64 != d
    clusterTlb := s.clusterTlb.filter fun kv => kv.1 / 64 != d }

theorem resetTables_die (s : State) (d : Nat) :
    (s.resetTables d).die d = { s.die d with islands := [], forwards := [], divisor := 1 } :=
  smGet_smSet_self ..

theorem resetTables_mem (s : State) (d : Nat) : (s.resetTables d).mem = s.mem := rfl

theorem dieReset_event {s : State} {d : Nat} (hd : d < 4) (hp : (s.die d).powered = true) (hf : (s.die d).failed = false)
    (hg : s.groups = []) (hm : s.matrix = []) (hc : s.copyEng = []) (hw : s.worlds = []) (hl : s.l2dirty = []) :
    ∃ t, exec (.dieReset d) s = .next t ∧ (t.die d).cycle = 0 ∧ (t.die d).islands = [] ∧ t.mem = s.mem := by
  refine ⟨((s.resetParts d).resetTables d).restartClock d,
    if_neg (by simpa [hg, hm, hc, hw, hl, hp, hf] using hd), ?_, ?_, ?_⟩
  · rw [restartClock_die]
  · rw [restartClock_die, resetTables_die]
  · rw [restartClock_mem, resetTables_mem, resetParts_mem]

/-! ## Self-tests (R407, R412) -/

/-- A core whose self-test, where it is one of the die's, is passed. -/
def CoreSt.testedOn (d n : Nat) (c : CoreSt) : CoreSt := if dieOfCore n = d then { c with untested := false } else c

theorem testCores_cores (s : State) (d : Nat) : (s.testCores d).cores = smMap (CoreSt.testedOn d) s.cores := by
  refine List.map_congr_left fun kv _ => ?_
  unfold CoreSt.testedOn
  split <;> rfl

theorem testCores_untested {s : State} {d n : Nat} (h : dieOfCore n = d) : ((s.testCores d).core n).untested = false := by
  rw [State.core, testCores_cores, smGet, smFind_map]
  cases smFind s.cores n with
  | none => rfl
  | some c => simp [CoreSt.testedOn, h]

theorem selfTest_event {s : State} {b : Nat} (h3 : 3 ≤ b) (h24 : b < 24) (hp : s.functionPower b = true) :
    ∃ t, exec (.selfTestComplete b) s = .next t ∧ t.ready b = true ∧ (∀ c, c ≠ b → t.ready c = s.ready c) ∧
      (b / 4 = 2 → ∀ n, dieOfCore n = b - 8 → (t.core n).untested = false) := by
  have hready : ∀ c, (if b / 4 = 2 then s.testCores (b - 8) else s).ready c = s.ready c := fun c => by
    split <;> rfl
  refine ⟨_, if_neg (by simp [hp]; omega), setReady_self (by omega) true, fun c hc => ?_, fun hb n hn => ?_⟩
  · rw [setReady_ne (by omega) true hc, hready]
  · rw [setReady_get_core, if_pos hb, testCores_untested hn]

/-! ## The standby supply (R14) -/

/-- The black box of a die without power is lost. -/
def State.dropBox (s : State) (d : Nat) : State :=
  if (s.die d).powered then s else s.setDie d { s.die d with box := [], boxSeq := 0 }

theorem dropBox_powered {s : State} {d e : Nat} (h : (s.die e).powered = true) : (s.dropBox d).die e = s.die e := by
  unfold State.dropBox
  split
  next => rfl
  next hd => exact State.setDie_get_ne _ _ fun he => hd (he ▸ h)

theorem dropBox_dark {s : State} {d e : Nat} (h : (s.die e).powered = false) : ((s.dropBox d).die e).powered = false ∧
    (d = e ∨ (s.die e).box = [] → ((s.dropBox d).die e).box = []) := by
  unfold State.dropBox
  by_cases he : e = d
  · subst he
    rw [if_neg (by simp [h]), State.setDie_get_self]
    exact ⟨h, fun _ => rfl⟩
  · have hkept : (if (s.die d).powered then s else s.setDie d { s.die d with box := [], boxSeq := 0 }).die e = s.die e := by
      split
      next => rfl
      next => exact State.setDie_get_ne _ _ he
    rw [hkept]
    exact ⟨h, fun hbox => hbox.resolve_left (Ne.symm he)⟩

theorem dropBoxes_dark {l : List Nat} {e : Nat} (s : State) (h : (s.die e).powered = false) (hbox : e ∈ l ∨ (s.die e).box = []) :
    ((l.foldl State.dropBox s).die e).box = [] := by
  induction l generalizing s with
  | nil => simpa using hbox
  | cons d l ih =>
    obtain ⟨hdark, hempty⟩ := dropBox_dark (d := d) h
    refine ih _ hdark ?_
    rcases hbox with hmem | hbox
    · rcases List.mem_cons.1 hmem with hd | hl
      · exact .inr (hempty (.inl hd.symm))
      · exact .inl hl
    · exact .inr (hempty (.inr hbox))

theorem standbyPowerLoss_event (s : State) :
    ∃ t, exec .standbyPowerLoss s = .next t ∧
      ∀ d, d < 4 → ((s.die d).powered = false → (t.die d).box = []) ∧ ((s.die d).powered = true → t.die d = s.die d) := by
  refine ⟨(List.range 4).foldl State.dropBox s, rfl, fun d hd => ⟨fun h => ?_, fun h => ?_⟩⟩
  · exact dropBoxes_dark s h (.inl (List.mem_range.2 hd))
  · exact foldl_keeps (fun t => t.die d = s.die d) State.dropBox
      (fun t e ht => (dropBox_powered (by rw [ht, h])).trans ht) _ s rfl

/-- Settles O51: each event's guard is met and its effect read off. -/
theorem linksFailuresAndPower : Obligations.LinksFailuresAndPower := by
  refine ⟨fun s p hp => ⟨fun hup hsilent => ?_, fun n hn => linkStateUpdate_event hp hn,
      fun hdead hr hdue => drainRound_event hdead hr hdue, fun hdead hpow => portTraining_event hp hdead hpow⟩,
    fun s b up peer hb hpow => hostLinkTraining_event peer hb hpow,
    fun s => ⟨fun n hn h => ⟨coreFailure_event hn h, failCore_core s n⟩, fun d hd h => dieFailure_event hd h,
      fun n h => peerFailure_event h, hostFailure_event, fun n hf hp hd hr ht => coreRejoin_event hf hp hd hr ht,
      fun d hf hp hr => dieRejoin_event hf hp hr, fun n h => peerRejoin_event h, hostRejoin_event⟩,
    fun s d hd => ⟨fun hp => ?_, fun hp hf => powerRestored_event hd hp hf, fun hp n hn => powerCap_event hd hp hn,
      fun hp hf hg hm hc hw hl => dieReset_event hd hp hf hg hm hc hw hl⟩,
    fun s b h3 h24 hp => selfTest_event h3 h24 hp, standbyPowerLoss_event⟩
  · obtain ⟨n, hnext⟩ := linkDead_event hp hup hsilent
    exact ⟨_, hnext, killLink_spec hp n⟩
  · obtain ⟨hloss, htrip⟩ := powerLoss_event hd hp
    exact ⟨_, hloss, htrip, powerDown_spec s hd⟩

end Sys2Proof.Machine
end

section
/-!
PROOF. Checks before the issue (R32, R103, R117): which shared frame every instruction of the tables issues in, and the fault or
the wait that a frame ends in before the instruction's own meaning is asked for.
-/

namespace Sys2Proof.Machine

open Sys2Proof.Claims

/-! ## What the checks of a frame end in -/

/-- A register with a write pending holds the issue (R117). -/
theorem prepare_busy {x : IC} {f : Foot} (legal : Bool) (h1 : f.outOfBounds x.g.allot = none) (h2 : x.g.busy f = true) :
    x.prepare f legal = .stop x.stall := by
  unfold IC.prepare
  simp only [h1, h2, if_true]

theorem stall_eq {s : State} {gd : Guard} {x : IC} (hx : s.ic gd = some x) : x.stall = .next s := by
  rw [IC.stall, (ic_eq hx).1]

/-- A check that stops the issue of a plain instruction ends it. -/
theorem issueWith_stop {op : Op} {len : Len} {act : IC → Ops → Foot → Group → Out} {o : Ops} {s : State} {x : IC} {r : Out}
    (hx : s.ic o.g = some x) (hp : x.prepare (x.g.foot op len o) true = .stop r) : issueWith op len act o s = r := by
  unfold issueWith issueFoot
  simp only [hx, hp]

/-- A check that stops the issue of a boundary whose lanes have fused ends it. -/
theorem issueBoundary_stop {op : Op} {len : Len} {act : IC → Ops → Act} {o : Ops} {s : State} {x : IC} {r : Out}
    (hx : s.ic o.g = some x) (hf : x.cu.fused = true) (hp : x.prepare (x.g.foot op len o) false = .stop r) :
    issueBoundary op len act o s = r := by
  unfold issueBoundary
  simp only [hx, hf, hp, Bool.not_true]
  rfl

/-- A split whose lanes have not fused waits at the boundary that it has reached (R24). -/
theorem issueBoundary_reached {op : Op} {len : Len} {act : IC → Ops → Act} {o : Ops} {s : State} {x : IC}
    (hx : s.ic o.g = some x) (hf : x.cu.fused = false) : issueBoundary op len act o s = .next x.reached := by
  unfold issueBoundary
  simp only [hx, hf, Bool.not_false, if_true]

/-! ## The frame of each instruction of the tables -/

theorem regRows_exec : ∀ r ∈ regRows, ∀ o s, exec (r.con o) s = issueAlu r.op r.len r.eff o s := by
  intro r hr
  fin_cases hr <;> exact fun _ _ => rfl

/-- The frame of a register-only instruction is that of a plain one whose meaning commits its effects. -/
theorem issueAlu_eq (op : Op) (len : Len) (eff : IC → Ops → Eff) (o : Ops) (s : State) :
    issueAlu op len eff o s =
      issueWith op len (fun x o f g => x.retire (g.commit x.act (x.effects eff o f)) (x.effects eff o f).die) o s := rfl

/-- KLD issues in the frame of a plain instruction in both of its forms (R275). -/
theorem kld_exec (len : Len) (o : Ops) (s : State) :
    ∃ act, (if mbit o.m 56 then issueAlu .kld len effKldS o s else issueKld len o s) = issueWith .kld len act o s := by
  split
  · exact ⟨_, issueAlu_eq ..⟩
  · unfold issueKld
    exact ⟨_, rfl⟩

theorem plainRows1_exec : ∀ r ∈ plainRows1, ∀ o s, ∃ act, exec (r.1 o) s = issueWith r.2.1 r.2.2 act o s := by
  intro r hr o s
  fin_cases hr <;> unfold exec <;> simp only [execBra, execBrx, execCall, execRet, execJoin, execTret, execYield, execBkpt,
    execSetrm, execSetsr, execGetsr, execSleepm, issueJump]
  all_goals exact ⟨_, rfl⟩

theorem plainRows2_exec : ∀ r ∈ plainRows2, ∀ o s, ∃ act, exec (r.1 o) s = issueWith r.2.1 r.2.2 act o s := by
  intro r hr o s
  fin_cases hr <;> unfold exec <;> simp only [execLd, execLdImm, execLdl, execLdlImm, execLdb, execLdbImm, execLdx, execLdu,
    execLduImm, execSt, execStImm, execStl, issueLaneLoad, issueLaneStore, issueUniLoad]
  all_goals exact ⟨_, rfl⟩

theorem plainRows3_exec : ∀ r ∈ plainRows3, ∀ o s, ∃ act, exec (r.1 o) s = issueWith r.2.1 r.2.2 act o s := by
  intro r hr o s
  fin_cases hr <;> unfold exec <;> simp only [execStlImm, execStb, execStbImm, execStx, execStu, execStuImm, execLr, execFence,
    execAcq, execRel, execAcqr, execCarve, issueLaneStore, issueUniStore, issueOrder]
  all_goals exact ⟨_, rfl⟩

theorem plainRows4_exec : ∀ r ∈ plainRows4, ∀ o s, ∃ act, exec (r.1 o) s = issueWith r.2.1 r.2.2 act o s := by
  intro r hr o s
  fin_cases hr <;> unfold exec <;> simp only [execPref, execPrefImm, execGredTeam, execMma, execMmax, execMms, execCzero, execKld,
    execKldImm, execKst, execKstImm, execBxpose, issuePref, issueKst]
  any_goals exact kld_exec ..
  all_goals exact ⟨_, rfl⟩

theorem plainRows5_exec : ∀ r ∈ plainRows5, ∀ o s, ∃ act, exec (r.1 o) s = issueWith r.2.1 r.2.2 act o s := by
  intro r hr o s
  fin_cases hr <;> unfold exec <;> simp only [execCrwait, execThqry, execThbnd, execIsld, execIsst, execIslq, execSkld, execSkst,
    execWaitc, execCloseb, execWaitb, execBarset, execBarsetImm, execCntrd, issueBarset]
  all_goals exact ⟨_, rfl⟩

/-- Every plain instruction issues in the one frame of plain instructions. -/
theorem plainRows_exec : ∀ r ∈ plainRows, ∀ o s, ∃ act, exec (r.1 o) s = issueWith r.2.1 r.2.2 act o s := by
  intro r hr
  simp only [plainRows, List.mem_append, List.mem_map] at hr
  rcases hr with ((((⟨q, hq, rfl⟩ | hr) | hr) | hr) | hr) | hr
  · exact fun o s => ⟨_, (regRows_exec q hq o s).trans (issueAlu_eq ..)⟩
  · exact plainRows1_exec r hr
  · exact plainRows2_exec r hr
  · exact plainRows3_exec r hr
  · exact plainRows4_exec r hr
  · exact plainRows5_exec r hr

/-- Every boundary instruction issues in the one frame of boundaries. -/
theorem boundaryRows_exec : ∀ r ∈ boundaryRows, ∀ o s, ∃ act, exec (r.1 o) s = issueBoundary r.2.1 r.2.2 act o s := by
  intro r hr o s
  fin_cases hr <;> unfold exec <;> simp only [execRegion, execExit, execTrap, execSpawn, execAtom, execSc, execBar, execCpy,
    execCpyg, execCpyv, execThnew, execThacq, execThrel, execThsplit, execThfree, execSeam, execUnpick, execWake, execSettle,
    execPbar, execStepc, execSqopen, execSqsig, execSqclose, issueReport]
  all_goals exact ⟨_, rfl⟩

/-! ## Bounds and scoreboard -/

/-- A check that stops a plain instruction of the tables ends its issue. -/
theorem plainRows_stop {r : (Ops → Instr) × Op × Len} (hr : r ∈ plainRows) {o : Ops} {s : State} {x : IC} {out : Out}
    (hx : s.ic o.g = some x) (hp : x.prepare (footOf r.2.1 r.2.2 o x) true = .stop out) : exec (r.1 o) s = out := by
  obtain ⟨act, hexec⟩ := plainRows_exec r hr o s
  rw [hexec]
  exact issueWith_stop hx hp

/-- A check that stops a fused boundary of the tables ends its issue. -/
theorem boundaryRows_stop {r : (Ops → Instr) × Op × Len} (hr : r ∈ boundaryRows) {o : Ops} {s : State} {x : IC} {out : Out}
    (hx : s.ic o.g = some x) (hf : x.cu.fused = true) (hp : x.prepare (footOf r.2.1 r.2.2 o x) false = .stop out) :
    exec (r.1 o) s = out := by
  obtain ⟨act, hexec⟩ := boundaryRows_exec r hr o s
  rw [hexec]
  exact issueBoundary_stop hx hf hp

theorem registerBounds : Claims.RegisterBounds := fun _ _ _ _ hx =>
  ⟨fun _ hr hout => plainRows_stop hr hx (prepare_bounds true hout),
    fun _ hr hf hout => boundaryRows_stop hr hx hf (prepare_bounds false hout)⟩

theorem scoreboardHolds : Claims.ScoreboardHolds := fun _ _ _ hx => by
  rw [← stall_eq hx]
  exact ⟨fun _ hr hin hbusy => plainRows_stop hr hx (prepare_busy true hin hbusy),
    fun _ hr hf hin hbusy => boundaryRows_stop hr hx hf (prepare_busy false hin hbusy)⟩

/-- Settles O17: every instruction of the tables issues in a shared frame, whose checks come before the instruction's own
meaning. -/
theorem boundsAndScoreboard : Obligations.BoundsAndScoreboard := ⟨registerBounds, scoreboardHolds⟩

end Sys2Proof.Machine
end

section
/-!
PROOF. Paths of a quad (R20 to R24): where a lane's path stands after lanes have gone on, waited, or been set aside, and what
regrouping into splits leaves.
-/

namespace Sys2Proof.Machine

/-! ## Lists of paths -/

/-- Among these paths a lane stands at a PC, waiting at a boundary or not. -/
def Carries (ps : List Path) (pc : BitVec 57) (waiting : Bool) (l : Nat) : Prop :=
  ∃ p ∈ ps, p.pc = pc ∧ p.waiting = waiting ∧ inMask p.lanes l = true

/-- What tells a quad's paths apart: the PC, and whether they wait at a boundary (R21). -/
def Path.place (p : Path) : BitVec 57 × Bool := (p.pc, p.waiting)

theorem Carries.mono {ps qs : List Path} {pc : BitVec 57} {w : Bool} {l : Nat} (hsub : ∀ p ∈ ps, p ∈ qs) (h : Carries ps pc w l) :
    Carries qs pc w l := by
  obtain ⟨p, hp, hpath⟩ := h
  exact ⟨p, hsub p hp, hpath⟩

theorem Carries.place_mem {ps : List Path} {pc : BitVec 57} {w : Bool} {l : Nat} (h : Carries ps pc w l) :
    (pc, w) ∈ ps.map Path.place := by
  obtain ⟨p, hp, rfl, rfl, -⟩ := h
  exact List.mem_map_of_mem hp

theorem ne_zero_of_inMask {m : Mask} {l : Nat} (h : inMask m l = true) : m ≠ 0 := by
  rintro rfl
  simp [inMask] at h

/-- The lanes of a list of paths together. -/
theorem inMask_foldl_lanes (ps : List Path) (m : Mask) (l : Nat) :
    inMask (ps.foldl (fun m p => m ||| p.lanes) m) l = true ↔ inMask m l = true ∨ ∃ p ∈ ps, inMask p.lanes l = true := by
  induction ps generalizing m with
  | nil => simp
  | cons p ps ih => rw [List.foldl_cons, ih, inMask_or, Bool.or_eq_true, List.exists_mem_cons_iff, or_assoc]

/-- A path that is put among others is there with its lanes (R21). -/
theorem addPath_carries_self (ps : List Path) {p : Path} {l : Nat} (h : inMask p.lanes l = true) :
    Carries (addPath p ps) p.pc p.waiting l := by
  unfold addPath
  rw [if_neg (ne_zero_of_inMask h)]
  split
  next hany =>
    obtain ⟨x, hx, hplace⟩ := List.any_eq_true.1 hany
    have hplace' := hplace
    simp only [Bool.and_eq_true, beq_iff_eq] at hplace'
    refine ⟨_, List.mem_map_of_mem hx, ?_⟩
    rw [if_pos hplace]
    exact ⟨hplace'.1, hplace'.2, by simp only [inMask_or, h, Bool.or_true]⟩
  next => exact ⟨p, by simp, rfl, rfl, h⟩

/-- The other paths keep their lanes. -/
theorem addPath_carries (p : Path) {ps : List Path} {pc : BitVec 57} {w : Bool} {l : Nat} (h : Carries ps pc w l) :
    Carries (addPath p ps) pc w l := by
  unfold addPath
  split
  · exact h
  split
  next =>
    obtain ⟨x, hx, hpc, hw, hl⟩ := h
    refine ⟨_, List.mem_map_of_mem hx, ?_⟩
    split
    · exact ⟨hpc, hw, by simp only [inMask_or, hl, Bool.true_or]⟩
    · exact ⟨hpc, hw, hl⟩
  next => exact h.mono fun q hq => List.mem_append_left _ hq

/-- Putting a path among others adds its place and no other. -/
theorem addPath_places {p : Path} (ps : List Path) (h : p.lanes ≠ 0) (c : BitVec 57 × Bool) :
    c ∈ (addPath p ps).map Path.place ↔ c ∈ ps.map Path.place ∨ c = p.place := by
  unfold addPath
  rw [if_neg h]
  split
  next hany =>
    have hmap : ∀ q : Path, (if q.pc == p.pc && q.waiting == p.waiting then { q with lanes := q.lanes ||| p.lanes } else q).place
        = q.place := fun q => by split <;> rfl
    have hthere : p.place ∈ ps.map Path.place := by
      obtain ⟨x, hx, hplace⟩ := List.any_eq_true.1 hany
      simp only [Bool.and_eq_true, beq_iff_eq] at hplace
      exact List.mem_map.2 ⟨x, hx, Prod.ext hplace.1 hplace.2⟩
    rw [List.map_map, show Path.place ∘ _ = Path.place from funext hmap]
    exact ⟨.inl, fun hc => hc.elim id fun hc => hc ▸ hthere⟩
  next => rw [List.map_append, List.mem_append, List.map_singleton, List.mem_singleton]

/-- The paths of lanes that have issued hold each lane at its next PC (R20, R21). -/
theorem pathsOf_carries {lanes : Mask} {l : Nat} (next : Nat → BitVec 57) (h : inMask lanes l = true) :
    Carries (pathsOf lanes next) (next l) false l := by
  have hbit : inMask (laneBit l) l = true := by
    have hl := inMask_lt h
    simp [inMask, laneBit, hl]
  have hfold : ∀ (ls : List Nat) (ps : List Path), l ∈ ls ∨ Carries ps (next l) false l →
      Carries (ls.foldl (fun ps n => addPath ⟨next n, laneBit n, false⟩ ps) ps) (next l) false l := by
    intro ls
    induction ls with
    | nil => exact fun ps hps => hps.elim (fun hm => absurd hm List.not_mem_nil) id
    | cons n ls ih =>
      intro ps hps
      refine ih _ ?_
      rcases hps with hm | hc
      · rcases List.mem_cons.1 hm with rfl | hm
        · exact .inr (addPath_carries_self ps (p := ⟨next l, laneBit l, false⟩) hbit)
        · exact .inl hm
      · exact .inr (addPath_carries _ hc)
  exact hfold _ [] (.inl (lanesOf_mem.2 h))

/-! ## The lowest PC -/

theorem minPc_cons_cons (a b : BitVec 57) (t : List (BitVec 57)) :
    minPc (a :: b :: t) = minPc ((if b < a then b else a) :: t) := rfl

theorem minPc_mem (a : BitVec 57) (t : List (BitVec 57)) : minPc (a :: t) ∈ a :: t := by
  induction t generalizing a with
  | nil => exact List.mem_cons_self
  | cons b t ih =>
    rw [minPc_cons_cons]
    split
    · exact List.mem_cons_of_mem _ (ih b)
    · rcases List.mem_cons.1 (ih a) with h | h
      · rw [h]; exact List.mem_cons_self
      · exact List.mem_cons_of_mem _ (List.mem_cons_of_mem _ h)

theorem minPc_le {a : BitVec 57} {t : List (BitVec 57)} {c : BitVec 57} (h : c ∈ a :: t) : minPc (a :: t) ≤ c := by
  induction t generalizing a c with
  | nil => rw [List.mem_singleton.1 h]; exact BitVec.le_refl a
  | cons b t ih =>
    rw [minPc_cons_cons]
    have hhead := ih (a := if b < a then b else a) List.mem_cons_self
    rcases List.mem_cons.1 h with rfl | h
    · exact BitVec.le_trans hhead (by split <;> bv_omega)
    rcases List.mem_cons.1 h with rfl | h
    · exact BitVec.le_trans hhead (by split <;> bv_omega)
    · exact ih (List.mem_cons_of_mem _ h)

/-- A quad's path that does not wait, as one of those among which the lowest is looked for. -/
theorem mem_readyPcs {ps : List Path} {c : BitVec 57} :
    c ∈ (ps.filter (!·.waiting)).map (·.pc) ↔ (c, false) ∈ ps.map Path.place := by
  simp only [List.mem_map, List.mem_filter, Bool.not_eq_true', Path.place, Prod.mk.injEq]
  exact ⟨fun ⟨p, ⟨hp, hw⟩, hc⟩ => ⟨p, hp, hc, hw⟩, fun ⟨p, hp, hc, hw⟩ => ⟨p, ⟨hp, hw⟩, hc⟩⟩

/-- The lowest PC is that of a path that does not wait. -/
theorem lowest_mem {q : Quad} {c : BitVec 57} (h : q.lowest = some c) : (c, false) ∈ q.deferred.map Path.place := by
  rw [← mem_readyPcs]
  unfold Quad.lowest at h
  split at h
  · cases h
  next a t heq =>
    cases h
    rw [heq]
    exact minPc_mem a t

/-- No path that does not wait stands below the lowest PC. -/
theorem lowest_le {q : Quad} {c : BitVec 57} (h : (c, false) ∈ q.deferred.map Path.place) : ∃ d, q.lowest = some d ∧ d ≤ c := by
  rw [← mem_readyPcs] at h
  unfold Quad.lowest
  split
  next heq => rw [heq] at h; cases h
  next a t heq =>
    rw [heq] at h
    exact ⟨_, rfl, minPc_le h⟩

/-! ## Lanes of a quad -/

/-- A lane's path in a quad, running or deferred, stands at a PC (R21). -/
def Quad.holds (q : Quad) (l : Nat) (pc : BitVec 57) : Prop :=
  (inMask q.run l = true ∧ q.pc = pc) ∨ Carries q.deferred pc false l

theorem stands_iff (g : Group) (l : Nat) (pc : BitVec 57) : g.stands l pc ↔ (g.quad (l / 4)).holds l pc := Iff.rfl

theorem holds_split (q : Quad) (n l : Nat) (pc : BitVec 57) : ({ q with split := n } : Quad).holds l pc ↔ q.holds l pc := Iff.rfl

theorem waitsAt_iff (g : Group) (l : Nat) (pc : BitVec 57) :
    g.waitsAt l pc ↔ l < 64 ∧ Carries (g.quad (l / 4)).deferred pc true l := Iff.rfl

/-- A quad that resumes its lowest path runs that path's lanes (R22). -/
theorem resume_runs {q : Quad} {pc : BitVec 57} {l : Nat} (hrun : q.run = 0) (hlow : q.lowest = some pc)
    (h : Carries q.deferred pc false l) : inMask q.resume.run l = true ∧ q.resume.pc = pc := by
  obtain ⟨p, hp, hpc, hw, hl⟩ := h
  unfold Quad.resume
  rw [if_neg (not_not.2 hrun)]
  simp only [hlow, and_true]
  exact (inMask_foldl_lanes ..).2 (.inr ⟨p, List.mem_filter.2 ⟨hp, by simp [hpc, hw]⟩, hl⟩)

/-- No lane is lost where a quad resumes a path. -/
theorem resume_holds {q : Quad} {pc : BitVec 57} {l : Nat} (hrun : q.run = 0) (h : Carries q.deferred pc false l) :
    q.resume.holds l pc := by
  obtain ⟨low, hlow, -⟩ := lowest_le h.place_mem
  by_cases heq : low = pc
  · exact .inl (resume_runs hrun (heq ▸ hlow) h)
  · obtain ⟨p, hp, hpc, hw, hl⟩ := h
    refine .inr ⟨p, ?_, hpc, hw, hl⟩
    unfold Quad.resume
    rw [if_neg (not_not.2 hrun)]
    simp only [hlow]
    exact List.mem_filter.2 ⟨hp, by simp [hpc, Ne.symm heq]⟩

/-- A path that waits at a boundary is not resumed (R24). -/
theorem resume_waits {q : Quad} {pc : BitVec 57} {l : Nat} (h : Carries q.deferred pc true l) :
    Carries q.resume.deferred pc true l := by
  unfold Quad.resume
  split
  · exact h
  split
  · exact h
  · obtain ⟨p, hp, hpc, hw, hl⟩ := h
    exact ⟨p, List.mem_filter.2 ⟨hp, by simp [hw]⟩, hpc, hw, hl⟩

/-- Lanes that have issued stand at their next PCs (R20, R21). -/
theorem spread_holds (q : Quad) {lanes : Mask} {l : Nat} (next : Nat → BitVec 57) (h : inMask lanes l = true) :
    (q.spread lanes next).holds l (next l) := by
  have hpath := pathsOf_carries next h
  unfold Quad.spread
  simp only
  split
  · exact .inr (hpath.mono fun p hp => List.mem_append_right _ hp)
  split
  next hnone =>
    obtain ⟨p, hp, -⟩ := hpath
    rw [hnone] at hp
    cases hp
  next a t heq =>
    obtain ⟨p, hp, hpc, hw, hl⟩ := hpath
    by_cases hlow : p.pc = minPc ((a :: t).map (·.pc))
    · exact .inl ⟨(inMask_foldl_lanes ..).2 (.inr ⟨p, List.mem_filter.2 ⟨hp, by simp [hlow]⟩, hl⟩), hlow ▸ hpc⟩
    · refine .inr ⟨p, List.mem_append_right _ (List.mem_filter.2 ⟨hp, by simpa using hlow⟩), hpc, hw, hl⟩

/-- What a boundary makes of a quad that reaches it (R24). -/
def Quad.arrive (pc : BitVec 57) (q : Quad) : Quad :=
  ({ q with run := 0, deferred := addPath ⟨pc, q.run, true⟩ q.deferred } : Quad).resume

theorem arrive_carries {q : Quad} {l : Nat} (pc : BitVec 57) (h : inMask q.run l = true) :
    Carries (q.arrive pc).deferred pc true l :=
  resume_waits (addPath_carries_self q.deferred (p := ⟨pc, q.run, true⟩) h)

/-- A quad whose running lanes have been set aside at a PC (R22). -/
def Quad.setAside (pc : BitVec 57) (q : Quad) : Quad :=
  { q with run := 0, deferred := addPath ⟨pc, q.run, false⟩ q.deferred }

/-- What JOIN makes of a quad that stands at it (R22). -/
def Quad.join (pc next : BitVec 57) (q : Quad) : Quad :=
  if (q.setAside pc).resume.pc = pc then { (q.setAside pc).resume with pc := next } else (q.setAside pc).resume

theorem setAside_carries {q : Quad} {l : Nat} (pc : BitVec 57) (h : inMask q.run l = true) :
    Carries (q.setAside pc).deferred pc false l :=
  addPath_carries_self q.deferred (p := ⟨pc, q.run, false⟩) h

/-- With no path below the JOIN, its own lanes are the lowest. -/
theorem setAside_lowest {q : Quad} {pc : BitVec 57} (hrun : q.run ≠ 0)
    (h : ∀ p ∈ q.deferred, p.waiting = false → ¬ p.pc < pc) : (q.setAside pc).lowest = some pc := by
  have hplaces := addPath_places (p := ⟨pc, q.run, false⟩) q.deferred hrun
  obtain ⟨low, hlow, hle⟩ := lowest_le (q := q.setAside pc) ((hplaces (pc, false)).2 (.inr rfl))
  rcases (hplaces (low, false)).1 (lowest_mem hlow) with hold | hself
  · obtain ⟨p, hp, hplace⟩ := List.mem_map.1 hold
    obtain ⟨rfl, hw⟩ := Prod.mk.injEq .. ▸ hplace
    have hnot := h p hp hw
    rw [hlow, show p.pc = pc by bv_omega]
  · rw [hlow, (Prod.mk.injEq .. ▸ hself : low = pc ∧ _).1]

/-- A path below the JOIN goes first. -/
theorem setAside_lowest_lt {q : Quad} {pc : BitVec 57} (hrun : q.run ≠ 0)
    (h : ∃ p ∈ q.deferred, p.waiting = false ∧ p.pc < pc) : ∃ low, (q.setAside pc).lowest = some low ∧ low < pc := by
  obtain ⟨p, hp, hw, hlt⟩ := h
  have hplace : (p.pc, false) ∈ q.deferred.map Path.place := hw ▸ List.mem_map_of_mem hp
  obtain ⟨low, hlow, hle⟩ := lowest_le (q := q.setAside pc)
    ((addPath_places (p := ⟨pc, q.run, false⟩) q.deferred hrun _).2 (.inl hplace))
  exact ⟨low, hlow, by bv_omega⟩

/-- A lane passes the JOIN where its quad has no path to wait for (R22). -/
theorem join_passes {q : Quad} {pc : BitVec 57} {l : Nat} (next : BitVec 57) (hl : inMask q.run l = true)
    (h : ∀ p ∈ q.deferred, p.waiting = false → ¬ p.pc < pc) : (q.join pc next).holds l next := by
  obtain ⟨hrun, hpc⟩ := resume_runs rfl (setAside_lowest (ne_zero_of_inMask hl) h) (setAside_carries pc hl)
  unfold Quad.join
  rw [if_pos hpc]
  exact .inl ⟨hrun, rfl⟩

theorem resume_pc {q : Quad} {pc : BitVec 57} (hrun : q.run = 0) (hlow : q.lowest = some pc) : q.resume.pc = pc := by
  unfold Quad.resume
  rw [if_neg (not_not.2 hrun)]
  simp only [hlow]

/-- A lane stays set aside at the JOIN where its quad has a path at a lower PC (R22). -/
theorem join_setsAside {q : Quad} {pc : BitVec 57} {l : Nat} (next : BitVec 57) (hl : inMask q.run l = true)
    (h : ∃ p ∈ q.deferred, p.waiting = false ∧ p.pc < pc) : (q.join pc next).holds l pc := by
  obtain ⟨low, hlow, hlt⟩ := setAside_lowest_lt (ne_zero_of_inMask hl) h
  have hne : (q.setAside pc).resume.pc ≠ pc := by
    rw [resume_pc rfl hlow]
    exact BitVec.ne_of_lt hlt
  unfold Quad.join
  rw [if_neg hne]
  exact resume_holds rfl (setAside_carries pc hl)

/-! ## Quads of a group -/

theorem quad_lt_of_running {g : Group} {q : Nat} (h : (g.quad q).run ≠ 0) : q < g.quads.length := by
  by_contra hge
  refine h ?_
  rw [Group.quad, List.getD_eq_default _ _ (Nat.not_lt.1 hge)]
  rfl

theorem zipIdx_map_getD {α : Type} (l : List α) (f : α × Nat → α) (d : α) {i : Nat} (h : i < l.length) :
    (l.zipIdx.map f).getD i d = f (l.getD i d, i) := by
  simp [List.getD_eq_getElem?_getD, h]

/-- Regrouping changes the labels of quads alone (R20). -/
theorem relabel_quad (g : Group) (qs : List Nat) (q : Nat) : ∃ n, (g.relabel qs).quad q = { g.quad q with split := n } := by
  by_cases h : q < g.quads.length
  · exact ⟨_, zipIdx_map_getD g.quads _ Quad.idle h⟩
  · refine ⟨0, ?_⟩
    have hlen : ¬ q < (g.relabel qs).quads.length := by simpa [Group.relabel] using h
    rw [Group.quad, Group.quad, List.getD_eq_default _ _ (Nat.not_lt.1 hlen), List.getD_eq_default _ _ (Nat.not_lt.1 h)]
    rfl

/-- Quads that have moved together take the label of the first of them that runs at their PC (R20). -/
theorem relabel_split {g : Group} {qs : List Nat} {q : Nat} (hq : q ∈ qs) (hrun : (g.quad q).run ≠ 0) :
    ((g.relabel qs).quad q).split
      = (qs.find? fun r => (g.quad r).run != 0 && (g.quad r).pc == (g.quad q).pc).getD q := by
  rw [Group.quad, Group.relabel, zipIdx_map_getD g.quads _ Quad.idle (quad_lt_of_running hrun)]
  simp only [List.contains_iff_mem, hq, if_true]

/-- A quad that is changed is as its change makes it, but for its label. -/
theorem mapQuads_quad {g : Group} {qs : List Nat} {q : Nat} (f : Quad → Quad) (hq : q ∈ qs) (hrun : (g.quad q).run ≠ 0) :
    ∃ n, (g.mapQuads qs f).quad q = { f (g.quad q) with split := n } := by
  obtain ⟨n, hn⟩ := relabel_quad { g with quads := g.quads.zipIdx.map fun p => if qs.contains p.2 then f p.1 else p.1 } qs q
  refine ⟨n, ?_⟩
  rw [Group.mapQuads, hn]
  have hquad : ({ g with quads := g.quads.zipIdx.map fun p => if qs.contains p.2 then f p.1 else p.1 } : Group).quad q
      = f (g.quad q) := by
    rw [Group.quad, zipIdx_map_getD g.quads _ Quad.idle (quad_lt_of_running hrun)]
    simp only [List.contains_iff_mem, hq, if_true]
    rfl
  rw [hquad]

theorem mem_splitQuads {g : Group} {label q : Nat} :
    q ∈ g.splitQuads label ↔ q < 16 ∧ (g.quad q).run ≠ 0 ∧ (g.quad q).split = label := by
  simp [Group.splitQuads]

theorem mem_quadsAt {g : Group} {pc : BitVec 57} {q : Nat} :
    q ∈ g.quadsAt pc ↔ q < 16 ∧ (g.quad q).run ≠ 0 ∧ (g.quad q).pc = pc ∧ q ∉ g.moved := by
  simp [Group.quadsAt, and_assoc]

@[simp] theorem noteMoved_quad (g : Group) (qs : List Nat) (q : Nat) : (g.noteMoved qs).quad q = g.quad q := by
  unfold Group.noteMoved
  split <;> rfl

/-! ## Lanes of a group -/

/-- A lane of a split that goes on stands at its next PC (R20, R21). -/
theorem goOn_stands {g : Group} {label l : Nat} (next : Nat → BitVec 57) (h : g.runsIn label l) :
    (g.goOn label next).stands l (next l) := by
  obtain ⟨hl, hrun, hsplit⟩ := h
  have hmem : l / 4 ∈ g.splitQuads label := mem_splitQuads.2 ⟨by omega, ne_zero_of_inMask hrun, hsplit⟩
  obtain ⟨n, hn⟩ := mapQuads_quad (fun q => ({ q with run := 0, pc := q.pc } : Quad).spread q.run next) hmem
    (ne_zero_of_inMask hrun)
  rw [stands_iff, Group.goOn, noteMoved_quad, hn]
  exact spread_holds _ next hrun

theorem stepOver_stands {g : Group} {cu : Issuing} {l : Nat} (next : Nat → BitVec 57) (h : g.runsIn cu.split l) :
    (g.stepOver cu next).stands l (next l) :=
  goOn_stands (g := { g with ages := g.ages.filter (·.split != cu.split) }) next h

/-- A lane of a split that reaches a boundary waits there (R24). -/
theorem arrive_waitsAt {g : Group} {label l : Nat} (pc : BitVec 57) (h : g.runsIn label l) : (g.arrive label pc).waitsAt l pc := by
  obtain ⟨hl, hrun, hsplit⟩ := h
  have hmem : l / 4 ∈ g.splitQuads label := mem_splitQuads.2 ⟨by omega, ne_zero_of_inMask hrun, hsplit⟩
  obtain ⟨n, hn⟩ := mapQuads_quad (Quad.arrive pc) hmem (ne_zero_of_inMask hrun)
  rw [waitsAt_iff, show g.arrive label pc = g.mapQuads (g.splitQuads label) (Quad.arrive pc) from rfl, hn]
  exact ⟨hl, arrive_carries pc hrun⟩

/-- The quads that stand at a PC are the same ones when they have fused (R23). -/
theorem fuseAt_quadsAt (g : Group) (pc : BitVec 57) : (g.fuseAt pc).quadsAt pc = g.quadsAt pc := by
  refine List.filter_congr fun q _ => ?_
  obtain ⟨n, hn⟩ := relabel_quad g (g.quadsAt pc) q
  rw [Group.fuseAt, hn]
  rfl

/-- Quads that stand at a PC fuse into the split of the first of them (R23). -/
theorem fuseAt_split {g : Group} {pc : BitVec 57} {q : Nat} (label : Nat) (h : q ∈ g.quadsAt pc) :
    q ∈ (g.fuseAt pc).splitQuads ((g.quadsAt pc).headD label) := by
  obtain ⟨hlt, hrun, hpc, -⟩ := mem_quadsAt.1 h
  obtain ⟨n, hn⟩ := relabel_quad g (g.quadsAt pc) q
  refine mem_splitQuads.2 ⟨hlt, by rw [Group.fuseAt, hn]; exact hrun, ?_⟩
  rw [Group.fuseAt, relabel_split h hrun]
  cases hqs : g.quadsAt pc with
  | nil => rw [hqs] at h; cases h
  | cons r rest =>
    obtain ⟨-, hrun', hpc', -⟩ := mem_quadsAt.1 (hqs ▸ List.mem_cons_self : r ∈ g.quadsAt pc)
    rw [List.find?_cons_of_pos (by rw [hpc', hpc, beq_self_eq_true, Bool.and_true, bne_iff_ne]; exact hrun')]
    rfl

/-- JOIN fuses the splits that stand at it, and changes each of their quads (R22, R23). -/
theorem join_def (g : Group) (label : Nat) (pc next : BitVec 57) :
    g.join label pc next = ((g.fuseAt pc).mapQuads ((g.fuseAt pc).splitQuads (((g.fuseAt pc).quadsAt pc).headD label))
      (Quad.join pc next)).noteMoved ((g.fuseAt pc).splitQuads (((g.fuseAt pc).quadsAt pc).headD label)) := rfl

/-- A quad that stands at a JOIN is as the JOIN makes it, but for its label (R22, R23). -/
theorem join_quad {g : Group} {pc : BitVec 57} {q : Nat} (label : Nat) (next : BitVec 57) (h : q ∈ g.quadsAt pc) :
    ∃ n m, (g.join label pc next).quad q = { Quad.join pc next { g.quad q with split := n } with split := m } := by
  obtain ⟨-, hrun, -, -⟩ := mem_quadsAt.1 h
  obtain ⟨n, hn⟩ := relabel_quad g (g.quadsAt pc) q
  have hmem := fuseAt_split label h
  obtain ⟨m, hm⟩ := mapQuads_quad (g := g.fuseAt pc) (Quad.join pc next) hmem (by rw [Group.fuseAt, hn]; exact hrun)
  refine ⟨n, m, ?_⟩
  rw [join_def, noteMoved_quad, fuseAt_quadsAt, hm, Group.fuseAt, hn]

/-- A lane at a JOIN passes it where its quad has no path to wait for (R22). -/
theorem join_stands_next {g : Group} {pc : BitVec 57} {l : Nat} (label : Nat) (next : BitVec 57) (hl : l < 64)
    (hrun : inMask (g.quad (l / 4)).run l = true) (hpc : (g.quad (l / 4)).pc = pc) (hmoved : l / 4 ∉ g.moved)
    (h : ∀ p ∈ (g.quad (l / 4)).deferred, p.waiting = false → ¬ p.pc < pc) : (g.join label pc next).stands l next := by
  have hat : l / 4 ∈ g.quadsAt pc := mem_quadsAt.2 ⟨by omega, ne_zero_of_inMask hrun, hpc, hmoved⟩
  obtain ⟨n, m, hquad⟩ := join_quad label next hat
  rw [stands_iff, hquad]
  exact (holds_split ..).2 (join_passes (q := { g.quad (l / 4) with split := n }) next hrun h)

/-- A lane at a JOIN is set aside there where its quad has a path at a lower PC (R22). -/
theorem join_stands_aside {g : Group} {pc : BitVec 57} {l : Nat} (label : Nat) (next : BitVec 57) (hl : l < 64)
    (hrun : inMask (g.quad (l / 4)).run l = true) (hpc : (g.quad (l / 4)).pc = pc) (hmoved : l / 4 ∉ g.moved)
    (h : ∃ p ∈ (g.quad (l / 4)).deferred, p.waiting = false ∧ p.pc < pc) : (g.join label pc next).stands l pc := by
  have hat : l / 4 ∈ g.quadsAt pc := mem_quadsAt.2 ⟨by omega, ne_zero_of_inMask hrun, hpc, hmoved⟩
  obtain ⟨n, m, hquad⟩ := join_quad label next hat
  rw [stands_iff, hquad]
  exact (holds_split ..).2 (join_setsAside (q := { g.quad (l / 4) with split := n }) next hrun h)

/-! ## The control state alone changes -/

theorem relabel_eq (g : Group) (qs : List Nat) : ∃ q a sl, g.relabel qs = g.withControl q a sl g.moved := ⟨_, _, _, rfl⟩

theorem mapQuads_eq (g : Group) (qs : List Nat) (f : Quad → Quad) : ∃ q a sl, g.mapQuads qs f = g.withControl q a sl g.moved :=
  ⟨_, _, _, rfl⟩

theorem arrive_eq (g : Group) (label : Nat) (pc : BitVec 57) : ∃ q a sl, g.arrive label pc = g.withControl q a sl g.moved :=
  mapQuads_eq ..

theorem join_eq (g : Group) (label : Nat) (pc next : BitVec 57) :
    ∃ q a sl mv, g.join label pc next = g.withControl q a sl mv := by
  obtain ⟨q, a, sl, hfuse⟩ := relabel_eq g (g.quadsAt pc)
  rw [join_def]
  generalize (g.fuseAt pc).splitQuads (((g.fuseAt pc).quadsAt pc).headD label) = qs
  obtain ⟨q', a', sl', hmap⟩ := mapQuads_eq (g.fuseAt pc) qs (Quad.join pc next)
  rw [hmap, Group.fuseAt, hfuse, Group.noteMoved]
  split <;> exact ⟨_, _, _, _, rfl⟩

end Sys2Proof.Machine
end

section
/-!
PROOF. Issues that change groups alone (R20, R22, R24): register-only instructions complete and their lanes go on, lanes are set
aside at a JOIN or pass it, and a boundary is waited at.
-/

namespace Sys2Proof.Machine

open Sys2Proof.Claims

/-! ## A group put back, with those that yielded released -/

/-- The issuing group has been put back, and those that yielded are released: the group is that one but for its ages, and nothing
but groups changes, of the others only their ages (R188). -/
theorem releaseYields_setGroup (s : State) (gid : Nat) (g : Group) (core split : Nat) :
    (∃ a, ((s.setGroup gid g).releaseYields core gid split).group? gid = some (g.withAges a)) ∧
      GroupsOnly s ((s.setGroup gid g).releaseYields core gid split) gid := by
  refine ⟨releaseYields_group _ _ _ _ _ (State.setGroup_get_self ..), ?_, fun n h hn hs => ?_⟩
  · rw [releaseYields_eq]; rfl
  · exact releaseYields_group _ _ _ _ _ (by rw [State.setGroup_get_ne _ _ hn]; exact hs)

/-- The release of those that yielded to several splits: memories stay, and a group is as before but for its ages. -/
theorem releaseAll_spec {s : State} {gid : Nat} {g : Group} (core : Nat) (splits : List Nat) (h : s.group? gid = some g) :
    ∃ t, splits.foldl (fun s n => s.releaseYields core gid n) s = t ∧ t.mem = s.mem ∧ t.cores = s.cores ∧
      ∃ a, t.group? gid = some (g.withAges a) := by
  refine ⟨_, rfl, foldl_keeps (fun (t : State) => t.mem = s.mem ∧ t.cores = s.cores ∧ ∃ a, t.group? gid = some (g.withAges a)) _
    (fun t n ht => ?_) splits s ⟨rfl, rfl, g.ages, h⟩⟩
  obtain ⟨hmem, hcores, a, hg⟩ := ht
  obtain ⟨b, hb⟩ := releaseYields_group t core gid n gid hg
  exact ⟨by rw [releaseYields_eq]; exact hmem, by rw [releaseYields_eq]; exact hcores, b, hb⟩

/-! ## Registers that stay -/

theorem RegsSame.trans {g h k : Group} (h1 : RegsSame g h) (h2 : RegsSame h k) : RegsSame g k where
  v := ⟨h2.v.1.trans h1.v.1, h2.v.2.trans h1.v.2⟩
  scalar := by
    obtain ⟨hs, hx, hp, hk⟩ := h1.scalar
    obtain ⟨hs', hx', hp', hk'⟩ := h2.scalar
    exact ⟨hs'.trans hs, hx'.trans hx, hp'.trans hp, hk'.trans hk⟩
  rmr := ⟨h2.rmr.1.trans h1.rmr.1, h2.rmr.2.trans h1.rmr.2⟩
  gsr := h2.gsr.trans h1.gsr
  rng := h2.rng.trans h1.rng
  traps := ⟨h2.traps.1.trans h1.traps.1, h2.traps.2.trans h1.traps.2⟩
  lanes := by
    obtain ⟨hl, he, hd⟩ := h1.lanes
    obtain ⟨hl', he', hd'⟩ := h2.lanes
    exact ⟨hl'.trans hl, he'.trans he, hd'.trans hd⟩

theorem withControl_regsSame (g : Group) (q : List Quad) (a : List SplitAge) (sl : List Sleeper) (mv : List Nat) :
    RegsSame g (g.withControl q a sl mv) :=
  ⟨⟨rfl, rfl⟩, ⟨rfl, rfl, rfl, rfl⟩, ⟨rfl, rfl⟩, rfl, rfl, ⟨rfl, rfl⟩, ⟨rfl, rfl, rfl⟩⟩

theorem withAges_regsSame (g : Group) (a : List SplitAge) : RegsSame g (g.withAges a) := withControl_regsSame g _ a _ _

theorem tracked_regsSame (x : IC) (f : Foot) : RegsSame x.g (x.tracked f) :=
  ⟨⟨rfl, rfl⟩, ⟨rfl, rfl, rfl, rfl⟩, ⟨rfl, rfl⟩, rfl, rfl, ⟨rfl, rfl⟩, ⟨rfl, rfl, rfl⟩⟩

theorem join_regsSame (g : Group) (label : Nat) (pc next : BitVec 57) : RegsSame g (g.join label pc next) := by
  obtain ⟨q, a, sl, mv, hjoin⟩ := join_eq g label pc next
  rw [hjoin]
  exact withControl_regsSame ..

theorem arrive_regsSame (g : Group) (label : Nat) (pc : BitVec 57) : RegsSame g (g.arrive label pc) := by
  obtain ⟨q, a, sl, harrive⟩ := arrive_eq g label pc
  rw [harrive]
  exact withControl_regsSame ..

theorem arrive_closed (g : Group) (label : Nat) (pc : BitVec 57) : (g.arrive label pc).closed = g.closed := by
  obtain ⟨q, a, sl, harrive⟩ := arrive_eq g label pc
  rw [harrive, Group.withControl]

theorem withAges_stands (g : Group) (a : List SplitAge) (l : Nat) (pc : BitVec 57) :
    (g.withAges a).stands l pc ↔ g.stands l pc := Iff.rfl

theorem withAges_waitsAt (g : Group) (a : List SplitAge) (l : Nat) (pc : BitVec 57) :
    (g.withAges a).waitsAt l pc ↔ g.waitsAt l pc := Iff.rfl

theorem withAges_closed (g : Group) (a : List SplitAge) : (g.withAges a).closed = g.closed := rfl

/-! ## Register-only instructions (R20, R128 to R193) -/

/-- The end of a register-only instruction that passes every check and in which no lane dies. -/
theorem issueAlu_retires {op : Op} {len : Len} {eff : IC → Ops → Eff} {o : Ops} {s : State} {x : IC}
    (hp : Plain s o.g (footOf op len o) x) (hd : (eff x o).die = 0) :
    issueAlu op len eff o s = x.retireTo ((x.tracked (footOf op len o x)).commit x.act (eff x o)) 0 fun _ => x.nextPc := by
  obtain ⟨hic, hready, hclean⟩ := hp
  have heff : x.effects eff o (x.g.foot op len o) = eff x o := effects_alive hd hclean
  rw [issueAlu_eq, issueWith_ready hic hready, heff, hd]
  rfl

/-- The lanes of the issuing split stand at their next PCs when its group has retired (R20). -/
theorem retireTo_stands {x : IC} {g : Group} (next : Nat → BitVec 57) (hq : g.quads = x.g.quads) :
    ∃ t g', x.retireTo g 0 next = .next t ∧ t.group? x.cu.gid = some g' ∧
      ∀ l, x.g.runsIn x.cu.split l → g'.stands l (next l) := by
  obtain ⟨⟨a, ha⟩, -⟩ := releaseYields_setGroup x.s x.cu.gid (g.stepOver x.cu next) x.g.core x.cu.split
  refine ⟨_, (g.stepOver x.cu next).withAges a, rfl, ha, fun l hl => ?_⟩
  have hin : g.runsIn x.cu.split l := by
    unfold Group.runsIn Group.quad at hl ⊢
    rwa [hq]
  exact stepOver_stands next hin

theorem registerInstructionsComplete : Claims.RegisterInstructionsComplete := by
  intro r hr o s x hp hd
  obtain ⟨hic, hready, hclean⟩ := hp
  obtain ⟨t, hexec, hgroups, ⟨q, a, sl, mv, hg⟩, hothers⟩ := issueAlu_spec hic hready hd hclean
  rw [regRows_exec r hr]
  exact ⟨t, _, hexec, hg, ⟨hgroups, hothers⟩, rfl, rfl, rfl, rfl, rfl, rfl, rfl⟩

theorem plainInstructionsAdvance : Claims.PlainInstructionsAdvance := by
  intro r hr o s x hp hd
  rw [regRows_exec r hr, issueAlu_retires hp hd]
  exact retireTo_stands (fun _ => x.nextPc) rfl

/-- Settles O8: the effects by the frame of register-only instructions, the place of the lanes by that of a split that goes on. -/
theorem plainInstructionsComplete : Obligations.PlainInstructionsComplete :=
  ⟨registerInstructionsComplete, plainInstructionsAdvance⟩

/-! ## JOIN (R22, R23, R178) -/

/-- What JOIN does to the state: the issuing group, its tracking brought up to date, joins, and no memory changes. -/
theorem execJoin_spec {o : Ops} {s : State} {x : IC} (hp : Plain s o.g (footOf .join .w64 o) x) :
    ∃ t g a, exec (.join o) s = .next t ∧ t.mem = s.mem ∧ t.cores = s.cores ∧
      t.group? x.cu.gid = some ((g.join x.cu.split x.cu.pc x.nextPc).withAges a) ∧
      RegsSame x.g g ∧ g.quads = x.g.quads ∧ g.moved = x.g.moved := by
  have hexec : exec (.join o) s = execJoin o s := rfl
  rw [hexec, execJoin, issueWith_ready hp.ic hp.ready]
  obtain ⟨hs, -⟩ := ic_eq hp.ic
  simp only [hs]
  obtain ⟨b, hb⟩ := releaseYields_group (State.setGroup _ x.cu.gid _) x.g.core x.cu.gid x.cu.split x.cu.gid
    (State.setGroup_get_self ..)
  obtain ⟨t, ht, hmem, hcores, c, hc⟩ := releaseAll_spec x.g.core _ hb
  refine ⟨t, (x.tracked (footOf .join .w64 o x)).withAges _, c, congrArg _ ht, ?_, ?_, hc,
    (tracked_regsSame x _).trans (withAges_regsSame ..), rfl, rfl⟩
  · rw [hmem, releaseYields_eq]; rfl
  · rw [hcores, releaseYields_eq]; rfl

/-- Settles O10: each quad that stands at the JOIN is as JOIN makes a quad, and resumes the lowest of its paths. -/
theorem joinReconverges : Obligations.JoinReconverges := by
  intro o s x hp
  obtain ⟨t, g, a, hexec, hmem, hcores, hg, hregs, hquads, hmoved⟩ := execJoin_spec hp
  refine ⟨t, _, hexec, hg, hregs.trans ((join_regsSame ..).trans (withAges_regsSame _ a)), .of_cores hmem hcores,
    fun l hl hrun hpc hnot => ?_⟩
  have hquad : x.g.quad (l / 4) = g.quad (l / 4) := by rw [Group.quad, Group.quad, hquads]
  rw [← hmoved, ← Bool.not_eq_true, List.contains_iff_mem] at hnot
  rw [hquad] at hrun hpc ⊢
  rw [withAges_stands, withAges_stands]
  exact ⟨join_stands_next x.cu.split x.nextPc hl hrun hpc hnot, join_stands_aside x.cu.split x.nextPc hl hrun hpc hnot⟩

/-! ## Boundaries (R24) -/

/-- A split that has reached a boundary waits there; its group changes in its control state alone, and of other groups the ages
of their splits. -/
theorem reached_spec (x : IC) : ∃ g', x.reached.group? x.cu.gid = some g' ∧ RegsSame x.g g' ∧ GroupsOnly x.s x.reached x.cu.gid ∧
    g'.closed = x.g.closed ∧ ∀ l, x.g.runsIn x.cu.split l → g'.waitsAt l x.cu.pc := by
  obtain ⟨⟨a, ha⟩, hgroups⟩ := releaseYields_setGroup x.s x.cu.gid
    ((x.g.arrive x.cu.split x.cu.pc).withAges (x.g.ages.filter (·.split != x.cu.split))) x.g.core x.cu.split
  refine ⟨_, ha, ?_, hgroups, ?_, fun l hl => ?_⟩
  · exact (arrive_regsSame ..).trans ((withAges_regsSame ..).trans (withAges_regsSame _ a))
  · rw [withAges_closed, withAges_closed, arrive_closed]
  · rw [withAges_waitsAt, withAges_waitsAt]
    exact arrive_waitsAt x.cu.pc hl

/-- Settles O13: a split whose lanes have not fused is put back with its quads waiting at the boundary. -/
theorem boundaryWaitsForAllLanes : Obligations.BoundaryWaitsForAllLanes := by
  intro r hr o s x hic hfused
  obtain ⟨act, hexec⟩ := boundaryRows_exec r hr o s
  obtain ⟨hs, -⟩ := ic_eq hic
  obtain ⟨g', hg, hspec⟩ := reached_spec x
  rw [hs] at hspec
  exact ⟨x.reached, g', hexec.trans (issueBoundary_reached hic hfused), hg, hspec⟩

end Sys2Proof.Machine
end

section
/-!
PROOF. System calls (R185, R293): the record that a TRAP writes to the ring, the reply that resumes its group, and the TRAP that
issues again when its slot is free.
-/

namespace Sys2Proof.Machine

open Sys2Proof.Claims

/-! ## What lines on their way to memory leave: contexts and dies -/

/-- The contexts and the dies of a state. -/
def State.contextsAndDies (s : State) : SMap Ctx × SMap Die := (s.ctxs, s.dies)

theorem ctx_of_contextsAndDies {s t : State} (h : t.contextsAndDies = s.contextsAndDies) (c : Nat) : t.ctx c = s.ctx c := by
  rw [State.ctx, State.ctx, (Prod.mk.inj h).1]

theorem memUp_of_contextsAndDies {s t : State} (h : t.contextsAndDies = s.contextsAndDies) (a : Nat) : t.memUp a = s.memUp a := by
  rw [State.memUp, State.memUp, State.die, State.die, (Prod.mk.inj h).2]

@[simp] theorem loseReservations_contextsAndDies (s : State) (who : Option Nat) (lines : List Nat) :
    (s.loseReservations who lines).contextsAndDies = s.contextsAndDies := by
  unfold State.loseReservations; split <;> rfl

@[simp] theorem lineEnds_contextsAndDies (s : State) (o : OutLine) : (s.lineEnds o).contextsAndDies = s.contextsAndDies :=
  loseReservations_contextsAndDies ..

@[simp] theorem writeBack_contextsAndDies (s : State) (t : Tenure) : (s.writeBack t).contextsAndDies = s.contextsAndDies := by
  unfold State.writeBack; split <;> rfl

@[simp] theorem pruneCopies_contextsAndDies (s : State) : s.pruneCopies.contextsAndDies = s.contextsAndDies := by
  unfold State.pruneCopies; split <;> rfl

@[simp] theorem modGroup_contextsAndDies (s : State) (gid : Nat) (f : Group → Group) :
    (s.modGroup gid f).contextsAndDies = s.contextsAndDies := by
  unfold State.modGroup; split <;> rfl

@[simp] theorem useLine_contextsAndDies (s : State) (line slot : Nat) :
    (s.useLine line slot).contextsAndDies = s.contextsAndDies := by
  unfold State.useLine
  split
  · rfl
  · split <;> rfl

@[simp] theorem underLeaf_contextsAndDies (s : State) (o : OutLine) : (s.underLeaf o).contextsAndDies = s.contextsAndDies := by
  unfold State.underLeaf
  split
  · rfl
  split
  · rfl
  split
  · rfl
  split
  · exact useLine_contextsAndDies ..
  · rfl

@[simp] theorem makeRoom_contextsAndDies (s : State) (slice : Nat) : (s.makeRoom slice).contextsAndDies = s.contextsAndDies := by
  unfold State.makeRoom
  simp only
  split
  · rfl
  · split <;> rfl

@[simp] theorem makeRooms_contextsAndDies (s : State) (pas : List Nat) :
    (s.makeRooms pas).contextsAndDies = s.contextsAndDies := by
  unfold State.makeRooms
  split
  · rfl
  · exact foldl_same State.contextsAndDies _ (fun _ _ => makeRoom_contextsAndDies ..) _ s

@[simp] theorem keepPast_contextsAndDies (s : State) (ws : List WByte) : (s.keepPast ws).contextsAndDies = s.contextsAndDies := by
  unfold State.keepPast
  split
  · split <;> rfl
  · rfl

@[simp] theorem putMem_contextsAndDies (s : State) (ws : List WByte) : (s.putMem ws).contextsAndDies = s.contextsAndDies :=
  (makeRooms_contextsAndDies _ _).trans (keepPast_contextsAndDies s ws)

@[simp] theorem performLine_contextsAndDies (s : State) (o : OutLine) : (s.performLine o).contextsAndDies = s.contextsAndDies := by
  simp [State.performLine]

@[simp] theorem recall_contextsAndDies (s : State) (t : Tenure) : (s.recall t).contextsAndDies = s.contextsAndDies := by
  unfold State.recall
  simp only [writeBack_contextsAndDies]
  split
  · rfl
  · exact foldl_same State.contextsAndDies _ performLine_contextsAndDies _ _

@[simp] theorem recallAll_contextsAndDies (s : State) (ts : List Tenure) :
    (s.recallAll ts).contextsAndDies = s.contextsAndDies := by
  have hfold := foldl_same State.contextsAndDies (fun u (t : Tenure) => if t.write then u.recall t else u)
    (fun u t => by
      split
      · exact recall_contextsAndDies u t
      · rfl) (s.recalled ts).reverse s
  unfold State.recallAll
  simp only
  split <;> exact hfold

@[simp] theorem intrude_contextsAndDies (s : State) (who : Option Nat) (pas : List Nat) (write : Bool) :
    (s.intrude who pas write).contextsAndDies = s.contextsAndDies := by
  unfold State.intrude
  simp only
  split
  · rfl
  · exact (pruneCopies_contextsAndDies _).trans (recallAll_contextsAndDies s _)

@[simp] theorem memWrite_contextsAndDies (s : State) (who : Option Nat) (ws : List WByte) :
    (s.memWrite who ws).contextsAndDies = s.contextsAndDies :=
  (putMem_contextsAndDies _ _).trans ((loseReservations_contextsAndDies ..).trans (intrude_contextsAndDies ..))

@[simp] theorem ackLine_contextsAndDies (s : State) (o : OutLine) : (s.ackLine o).contextsAndDies = s.contextsAndDies := by
  unfold State.ackLine
  simp only
  split <;> split <;> simp

@[simp] theorem drainLines_contextsAndDies (s : State) (core : Nat) (p : OutLine → Bool) :
    (s.drainLines core p).contextsAndDies = s.contextsAndDies := by
  unfold State.drainLines
  simp only
  split
  · rfl
  · exact foldl_same State.contextsAndDies _ ackLine_contextsAndDies _ _

@[simp] theorem dropL1_contextsAndDies (s : State) (core : Nat) (lines : List Nat) :
    (s.dropL1 core lines).contextsAndDies = s.contextsAndDies := by
  unfold State.dropL1
  simp only
  split <;> rfl

theorem dropL1_get_group (s : State) (core : Nat) (lines : List Nat) (gid : Nat) :
    (s.dropL1 core lines).group? gid = s.group? gid := by
  unfold State.dropL1
  simp only
  split <;> rfl

/-! ## Bytes of a write event of distinct places -/

/-- Where no place is written twice, each byte of a write event is what its place reads as. -/
theorem bankByte_write_nodup (b : Bank) {ws : List WByte} (hnd : (ws.map (·.addr)).Nodup) {w : WByte} (hw : w ∈ ws) :
    bankByte (bankWrite b ws) w.addr = w.val := by
  obtain ⟨pre, post, rfl⟩ := List.append_of_mem hw
  refine bankByte_write_last b pre post w fun v hv heq => ?_
  rw [List.map_append, List.map_cons, List.nodup_append] at hnd
  exact (List.nodup_cons.1 hnd.2.1).1 (heq ▸ List.mem_map_of_mem hv)

/-- A byte of a write event to memory that stands, at a place of its own, is what memory reads as there. -/
theorem memWrite_byte {s : State} (who : Option Nat) {ws : List WByte} (hnd : (ws.map (·.addr)).Nodup) {w : WByte} (hw : w ∈ ws)
    (hup : s.memUp w.addr = true) : bankByte (s.memWrite who ws).mem w.addr = w.val := by
  have hmem : (s.memWrite who ws).mem = bankWrite _ (ws.filter fun w => s.memUp w.addr) := putMem_mem _ _
  rw [hmem]
  exact bankByte_write_nodup _ (hnd.sublist (List.Sublist.map _ List.filter_sublist)) (List.mem_filter.2 ⟨hw, hup⟩)

theorem wbytes_addrs (a : Nat) (bs : List Byte) : (wbytes a bs).map (·.addr) = List.range' a bs.length := by
  rw [wbytes, List.map_map, show WByte.addr ∘ (fun p : Byte × Nat => ⟨a + p.2, p.1, false⟩) = (a + ·) ∘ Prod.snd from rfl,
    ← List.map_map, List.zipIdx_map_snd, List.map_add_range', Nat.add_zero]

/-- The bytes of a system call's record lie at places of their own (R293). -/
theorem sysRecord_nodup (x : IC) (code seq pa : Nat) : ((x.sysRecord code seq pa).map (·.addr)).Nodup := by
  simp only [IC.sysRecord, List.map_append, wbytes_addrs, List.length_append, leBytes_length]
  refine List.nodup_append.2 ⟨List.nodup_range', List.nodup_range', fun a ha b hb => ?_⟩
  rw [List.mem_range'_1] at ha hb
  omega

/-! ## A boundary that passes with lanes left -/

theorem modGroup_eq {s : State} {gid : Nat} {g : Group} (f : Group → Group) (h : s.group? gid = some g) :
    s.modGroup gid f = s.setGroup gid (f g) := by
  unfold State.modGroup
  rw [h]

/-- A group whose lanes have passed a boundary and which has opened its next region (R24, R38). -/
def Group.reopened (g : Group) (pc : BitVec 57) (next : Nat → BitVec 57) : Group :=
  ({ g.passBoundary pc next with ages := [] } : Group).openRegion

theorem passBoundary_eq (g : Group) (pc : BitVec 57) (next : Nat → BitVec 57) :
    ∃ q a sl, g.passBoundary pc next = g.withControl q a sl g.moved := by
  unfold Group.passBoundary
  exact mapQuads_eq ..

theorem withAges_status (g : Group) (a : List SplitAge) : (g.withAges a).status = g.status := rfl

theorem reopened_status (g : Group) (pc : BitVec 57) (next : Nat → BitVec 57) : (g.reopened pc next).status = g.status := by
  obtain ⟨q, a, sl, hpass⟩ := passBoundary_eq g pc next
  rw [Group.reopened, hpass, Group.withControl, Group.openRegion]

theorem passBoundary_live (g : Group) (pc : BitVec 57) (next : Nat → BitVec 57) : (g.passBoundary pc next).live = g.live := by
  obtain ⟨q, a, sl, hpass⟩ := passBoundary_eq g pc next
  rw [hpass, Group.live, Group.live, Group.withControl]

/-- A boundary's lanes pass it and lanes are left: the group opens its next region, and nothing but groups changes (R24, R38). -/
theorem passAndOpen_spec {s : State} {gid : Nat} {g : Group} (pc : BitVec 57) (next : Nat → BitVec 57)
    (hg : s.group? gid = some g) (hl : g.live ≠ 0) :
    (∃ a, (s.passAndOpen gid pc next).group? gid = some ((g.reopened pc next).withAges a)) ∧
      GroupsOnly s (s.passAndOpen gid pc next) gid := by
  have hleft : ({ g.passBoundary pc next with ages := [] } : Group).live ≠ 0 := by rwa [← passBoundary_live g pc next] at hl
  have hpass : s.passAndOpen gid pc next = (s.setGroup gid (g.reopened pc next)).releaseYields g.core gid 16 := by
    unfold State.passAndOpen
    simp only [hg, if_neg hleft]
    rfl
  rw [hpass]
  exact releaseYields_setGroup ..

/-! ## The system call (R185) -/

/-- The state in which a system call writes its record: what the core has fixed is performed, and its L1 holds the record's line
no more. -/
def IC.sysReleased (x : IC) (pa : Nat) : State := (x.s.drainLines x.g.core fun _ => true).dropL1 x.g.core [pa / 128]

/-- A call is counted in its context, which was `c`, and its group is parked on the slot. -/
def State.parkCall (s : State) (ctx : Nat) (c : Ctx) (slot gid queue : Nat) : State :=
  ((s.setCtx ctx { c with sysSeq := c.sysSeq + 1, sysSlots := c.sysSlots ++ [(slot, gid)] }).pushEvent
    (.sysCall ctx slot queue)).modGroup gid fun g => { g with status := .parked slot }

theorem parkCall_mem (s : State) (ctx : Nat) (c : Ctx) (slot gid queue : Nat) : (s.parkCall ctx c slot gid queue).mem = s.mem :=
  modGroup_mem ..

theorem parkCall_ctx (s : State) (ctx : Nat) (c : Ctx) (slot gid queue : Nat) : (s.parkCall ctx c slot gid queue).ctx ctx =
    { c with sysSeq := c.sysSeq + 1, sysSlots := c.sysSlots ++ [(slot, gid)] } :=
  (ctx_of_contextsAndDies (modGroup_contextsAndDies ..) ctx).trans (State.setCtx_get_self ..)

theorem parkCall_group {s : State} {gid : Nat} {g : Group} (ctx : Nat) (c : Ctx) (slot queue : Nat) (h : s.group? gid = some g) :
    (s.parkCall ctx c slot gid queue).group? gid = some { g with status := .parked slot } := by
  have hg : ((s.setCtx ctx { c with sysSeq := c.sysSeq + 1, sysSlots := c.sysSlots ++ [(slot, gid)] }).pushEvent
      (.sysCall ctx slot queue)).group? gid = some g := h
  rw [State.parkCall, modGroup_eq _ hg]
  exact State.setGroup_get_self ..

/-- The state that a system call makes: its record is written to a slot, on which its group is parked. -/
def IC.sysCalled (x : IC) (code slot pa : Nat) : State :=
  let c := (x.sysReleased pa).ctx x.g.ctx
  ((x.sysReleased pa).memWrite (some x.cu.gid) (x.sysRecord code (c.sysSeq + 1) pa)).parkCall x.g.ctx c slot x.cu.gid x.g.queue

theorem sysCall_passes {x : IC} {code slot pa : Nat} (hslot : x.s.sysSlot x.g.ctx = some slot)
    (hgo : x.actOne .store true (ringBase (x.s.ctxWord x.g.ctx 1) + 128 * slot) 128 = .go pa)
    (hheld : x.s.drainHeld x.g.core (fun _ => true) = false) : x.sysCall code = x.pass (x.sysCalled code slot pa) := by
  unfold IC.sysCall
  simp only [hslot, hgo, hheld]
  rfl

theorem sysReleased_contextsAndDies (x : IC) (pa : Nat) : (x.sysReleased pa).contextsAndDies = x.s.contextsAndDies :=
  (dropL1_contextsAndDies ..).trans (drainLines_contextsAndDies ..)

/-- The context counts the call and gives it its slot (R293). -/
theorem sysCalled_ctx (x : IC) (code slot pa : Nat) :
    (x.sysCalled code slot pa).ctx x.g.ctx = { x.s.ctx x.g.ctx with
      sysSeq := (x.s.ctx x.g.ctx).sysSeq + 1, sysSlots := (x.s.ctx x.g.ctx).sysSlots ++ [(slot, x.cu.gid)] } := by
  rw [IC.sysCalled, parkCall_ctx, ctx_of_contextsAndDies (sysReleased_contextsAndDies x pa)]

/-- The record's bytes stand at their places (R293). -/
theorem sysCalled_record {x : IC} {code slot pa : Nat} {w : WByte}
    (hw : w ∈ x.sysRecord code ((x.s.ctx x.g.ctx).sysSeq + 1) pa) (hup : x.s.memUp w.addr = true) :
    bankByte (x.sysCalled code slot pa).mem w.addr = w.val := by
  have hkept := sysReleased_contextsAndDies x pa
  rw [IC.sysCalled, parkCall_mem, ctx_of_contextsAndDies hkept]
  exact memWrite_byte _ (sysRecord_nodup ..) hw (by rw [memUp_of_contextsAndDies hkept]; exact hup)

/-- The calling group is parked on its slot, and has its live lanes still (R185). -/
theorem sysCalled_group {x : IC} (code slot pa : Nat) (hg : x.s.group? x.cu.gid = some x.g) :
    ∃ h, (x.sysCalled code slot pa).group? x.cu.gid = some h ∧ h.status = .parked slot ∧ h.live = x.g.live := by
  obtain ⟨n, hn⟩ := (drainLines_linesLeave x.s x.g.core fun _ => true).group _ _ hg
  obtain ⟨m, hm⟩ := (memWrite_linesLeave (x.sysReleased pa) (some x.cu.gid)
    (x.sysRecord code (((x.sysReleased pa).ctx x.g.ctx).sysSeq + 1) pa)).group _ _ ((dropL1_get_group ..).trans hn)
  exact ⟨_, parkCall_group x.g.ctx _ slot x.g.queue hm, rfl, rfl⟩

/-- A system call with a free slot makes a state in which its record is written, its context has counted it, and its group is
parked; its lanes pass the TRAP in that state (R185, R293). -/
theorem sysCall_spec {x : IC} {slot pa : Nat} (code : Nat) (hg : x.s.group? x.cu.gid = some x.g)
    (hslot : x.s.sysSlot x.g.ctx = some slot)
    (hgo : x.actOne .store true (ringBase (x.s.ctxWord x.g.ctx 1) + 128 * slot) 128 = .go pa)
    (hheld : x.s.drainHeld x.g.core (fun _ => true) = false) :
    ∃ u h, x.sysCall code = x.pass u ∧ u.group? x.cu.gid = some h ∧ h.status = .parked slot ∧ h.live = x.g.live ∧
      u.ctx x.g.ctx = { x.s.ctx x.g.ctx with
        sysSeq := (x.s.ctx x.g.ctx).sysSeq + 1, sysSlots := (x.s.ctx x.g.ctx).sysSlots ++ [(slot, x.cu.gid)] } ∧
      ∀ w ∈ x.sysRecord code ((x.s.ctx x.g.ctx).sysSeq + 1) pa, x.s.memUp w.addr = true → bankByte u.mem w.addr = w.val := by
  obtain ⟨h, hh, hparked, hlive⟩ := sysCalled_group code slot pa hg
  exact ⟨x.sysCalled code slot pa, h, sysCall_passes hslot hgo hheld, hh, hparked, hlive, sysCalled_ctx .., fun w hw hup =>
    sysCalled_record hw hup⟩

theorem trap_calls {o : Ops} {s : State} {x y : IC} {slot pa : Nat} (hb : Boundary s o.g (footOf .trap .w64 o) x y)
    (hcode : mfld o.m 59 48 < 0x800) (hact : y.act ≠ 0) (hlive : y.g.live ≠ 0) (hslot : y.s.sysSlot y.g.ctx = some slot)
    (hgo : y.actOne .store true (ringBase (y.s.ctxWord y.g.ctx 1) + 128 * slot) 128 = .go pa)
    (hheld : y.s.drainHeld y.g.core (fun _ => true) = false) :
    ∃ t g', exec (.trap o) s = .next t ∧ t.group? x.cu.gid = some g' ∧ g'.status = .parked slot ∧
      (t.ctx y.g.ctx).sysSeq = (y.s.ctx y.g.ctx).sysSeq + 1 ∧
      (t.ctx y.g.ctx).sysSlots = (y.s.ctx y.g.ctx).sysSlots ++ [(slot, x.cu.gid)] ∧
      ∀ w ∈ y.sysRecord (mfld o.m 59 48) ((y.s.ctx y.g.ctx).sysSeq + 1) pa, y.s.memUp w.addr = true →
        bankByte t.mem w.addr = w.val := by
  have hgroup : y.s.group? y.cu.gid = some y.g := by
    rw [hb.cu_eq, show y.s = s.close x.cu.gid by rw [hb.after]]
    exact hb.group
  obtain ⟨u, h, hcall, hu, hparked, hsame, hctx, hrecord⟩ := sysCall_spec (mfld o.m 59 48) hgroup hslot hgo hheld
  have hexec : exec (.trap o) s = .next (y.past u) := by
    rw [show exec (.trap o) s = execTrap o s from rfl, execTrap]
    refine issueBoundary_pass hb rfl ?_
    simp only [if_neg hact, if_neg (Nat.not_le.2 hcode)]
    exact hcall
  obtain ⟨⟨a, ha⟩, hgroups, -⟩ := passAndOpen_spec y.cu.pc (fun _ => y.nextPc) hu (hsame ▸ hlive)
  have hctx' : (y.past u).ctx y.g.ctx = u.ctx y.g.ctx := by rw [IC.past, hgroups]; rfl
  have hmem : (y.past u).mem = u.mem := by rw [IC.past, hgroups]
  rw [← hb.cu_eq]
  refine ⟨_, _, hexec, ha, ?_, ?_, ?_, fun w hw hup => ?_⟩
  · rw [withAges_status, reopened_status, hparked]
  · rw [hctx', hctx]
  · rw [hctx', hctx]
  · rw [hmem]
    exact hrecord w hw hup

/-! ## The reply (R293) -/

/-- With no tenure in the way, bytes are read at once, and nothing changes. -/
theorem readThrough_free {s : State} (who : Option Nat) (pa n : Nat) (h : s.tenures = []) :
    s.readThrough who pa n = (s, some (s.memRead pa n)) := by
  simp [State.readThrough, State.intrudeWaits, State.metWrites, State.recalled, State.intrude, h]

/-- Word i of a reply. -/
def replyWord (reply : List (Byte × Bool)) (i : Nat) : W64 :=
  BitVec.ofNat 64 (leNat (((reply.map (·.1)).drop (8 * i)).take 8))

/-- A group that a reply resumes: its words in S8 and S9 (R185). -/
def Group.replied (g : Group) (reply : List (Byte × Bool)) : Group :=
  (({ g with status := .running } : Group).wrS 8 (replyWord reply 0)).wrS 9 (replyWord reply 1)

/-- A context whose slot is free again. -/
def Ctx.freed (c : Ctx) (slot : Nat) : Ctx :=
  { c with sysSlots := c.sysSlots.filter (·.1 != slot), rung := c.rung.filter (· != slot) }

theorem setGroup_modGroup (s : State) (gid : Nat) (g : Group) (f : Group → Group) :
    (s.setGroup gid g).modGroup gid f = (s.setGroup gid g).setGroup gid (f g) := modGroup_eq f (State.setGroup_get_self ..)

/-- A reply without error, to a group for which no discard waits. -/
theorem deliverReply_eq {s : State} {gid : Nat} {g : Group} (c slot : Nat) {reply : List (Byte × Bool)}
    (hg : s.group? gid = some g) (hagain : g.again = false) (hclean : reply.any (·.2) = false) :
    s.deliverReply c slot gid reply =
      ((s.setCtx c ((s.ctx c).freed slot)).setGroup gid { g with status := .running }).setGroup gid (g.replied reply) := by
  have hg' : (s.setCtx c ((s.ctx c).freed slot)).group? gid = some g := hg
  have hstay : (g.replied reply).again = false := hagain
  unfold State.deliverReply
  simp only [hclean]
  rw [show ({ s.ctx c with
      sysSlots := (s.ctx c).sysSlots.filter (·.1 != slot), rung := (s.ctx c).rung.filter (· != slot) } : Ctx)
      = (s.ctx c).freed slot from rfl, modGroup_eq _ hg']
  simp only [Bool.false_eq_true, if_false, setGroup_modGroup, State.setGroup_get_self, Option.any_some]
  exact if_neg (by rw [Bool.not_eq_true]; exact hstay)

theorem unitDone_get_group (s : State) (c : Nat) (who : Waiter) (gid : Nat) : (s.unitDone c who).group? gid = s.group? gid := by
  unfold State.unitDone
  split <;> rfl

theorem unitDone_get_ctx (s : State) (c : Nat) (who : Waiter) (n : Nat) : (s.unitDone c who).ctx n = s.ctx n := by
  unfold State.unitDone
  split <;> rfl

/-- S8 and S9 hold the reply's words, and every other S register is as before. -/
theorem replied_s (g : Group) (reply : List (Byte × Bool)) (n : Nat) : (g.replied reply).s.getD n 0 =
    if n = 9 then replyWord reply 1 else if n = 8 then replyWord reply 0 else g.s.getD n 0 := by
  simp only [Group.replied, Group.wrS, setAt_getD]

theorem syscallReply_delivers {s : State} {c slot gid pa : Nat} {g : Group}
    (hfind : (s.ctx c).sysSlots.find? (fun p => p.1 == slot) = some (slot, gid)) (hg : s.group? gid = some g)
    (hparked : g.status = .parked slot)
    (hask : s.unitAsk ⟨c, .frontEnd, false, 0x1FFFF, 0, .reply slot⟩ (ringBase (s.ctxWord c 1) + 128 * slot + 48) = .ok pa)
    (hfree : s.tenures = []) :
    exec (.syscallReply c slot) s = .next ((s.deliverReply c slot gid (s.memRead pa 16)).unitDone c (.reply slot)) := by
  have hexec : exec (.syscallReply c slot) s = execSyscallReply c slot s := rfl
  rw [hexec]
  unfold execSyscallReply
  simp only [hfind, hg, hparked, hask, readThrough_free none pa 16 hfree, bne_self_eq_false]
  rfl

/-! ## A slot that comes free (R185) -/

theorem issueFused_eq {s : State} {gid : Nat} {g : Group} (hacq : g.acquire = false) :
    s.issueFused gid g = { s.setGroup gid { g with snap := none } with
      issue := [⟨gid, 16⟩], inCycle := s.inCycle ++ [(g.core, gid, (g.quadSpan 16).2)] } := by
  have hfirst : (s.setGroup gid { g with snap := none }).firstIssue gid = s.setGroup gid { g with snap := none } := by
    unfold State.firstIssue
    simp only [State.setGroup_get_self, hacq]
    rfl
  rw [State.issueFused, hfirst]

theorem syscallRingSlotFree_issues {s : State} {gid : Nat} {g : Group} (hg : s.group? gid = some g)
    (hslot : (s.sysSlot g.ctx).isSome = true) (hroom : s.boundaryRoom gid g = true) (hacq : g.acquire = false) :
    exec (.syscallRingSlotFree gid) s = .next { s.setGroup gid { g with snap := none } with
      issue := [⟨gid, 16⟩], inCycle := s.inCycle ++ [(g.core, gid, (g.quadSpan 16).2)] } := by
  have hexec : exec (.syscallRingSlotFree gid) s = execSyscallRingSlotFree gid s := rfl
  rw [hexec]
  unfold execSyscallRingSlotFree
  simp only [hg, hslot, hroom, Bool.and_true, if_true]
  rw [issueFused_eq hacq]

/-- Settles O16: a call writes its record in the frame of a boundary that passes; a reply's words reach S8 and S9; a free slot
lets the fused boundary issue. -/
theorem systemCallParks : Obligations.SystemCallParks := by
  refine ⟨fun o s x y slot pa => trap_calls, fun s c slot gid pa g hfind hg hparked hagain hask hfree hclean => ?_,
    fun s gid g => syscallRingSlotFree_issues⟩
  have hreply := deliverReply_eq c slot hg hagain hclean
  refine ⟨_, g.replied (s.memRead pa 16), syscallReply_delivers hfind hg hparked hask hfree, ?_, rfl, ?_, ?_,
    fun n h8 h9 => ?_, rfl, ?_⟩
  · rw [unitDone_get_group, hreply, State.setGroup_get_self]
  · rw [replied_s]
    rfl
  · rw [replied_s]
    rfl
  · rw [replied_s, if_neg h9, if_neg h8]
  · rw [unitDone_get_ctx, hreply]
    exact congrArg Ctx.sysSlots (State.setCtx_get_self ..)

end Sys2Proof.Machine
end

section
/-!
PROOF. The region store buffer (R44): what each place of each space reads as after bytes have been put into it.
-/

namespace Sys2Proof.Machine

/-- A line that is allocated holds no byte. -/
theorem bufByte_allocLine (buf : List BufLine) (sp : Space) (line vline : Nat) (sp' : Space) (line' off : Nat) :
    bufByte (allocLine buf sp line vline) sp' line' off = bufByte buf sp' line' off := by
  unfold allocLine
  split
  · rfl
  · unfold bufByte
    rw [List.find?_append]
    cases buf.find? fun b => b.space == sp' && b.line == line' with
    | some b => rfl
    | none =>
      rw [Option.none_or, List.find?_singleton]
      split <;> rfl

/-- A line has an entry once it is allocated. -/
theorem hasLine_allocLine (buf : List BufLine) (sp : Space) (line vline : Nat) :
    hasLine (allocLine buf sp line vline) sp line = true := by
  unfold allocLine
  split
  · assumption
  · simp [hasLine]

/-- Of the bytes of a line, the one put last is found at its offset, and at any other offset what was found there before. -/
theorem find_put_off (l : List BufByte) (x : BufByte) (off : Nat) :
    (l.filter (·.off != x.off) ++ [x]).find? (·.off == off) = if off = x.off then some x else l.find? (·.off == off) := by
  rw [List.find?_append, List.find?_singleton]
  by_cases h : off = x.off
  · have hnone : (l.filter (·.off != x.off)).find? (·.off == off) = none := by simp [h]
    rw [hnone, h, beq_self_eq_true]
    simp
  · have hsame : (l.filter (·.off != x.off)).find? (·.off == off) = l.find? (·.off == off) := by
      rw [List.find?_filter]
      congr 1
      funext b
      by_cases hb : b.off = off <;> simp [hb, h]
    rw [hsame, if_neg h, if_neg (by simpa using Ne.symm h), Option.or_none]

/-- A byte that is put into a held line is read at its place, and every other place reads as before (R44). -/
theorem bufByte_putByte {buf : List BufLine} {sp : Space} {line : Nat} (x : BufByte) (h : hasLine buf sp line = true)
    (sp' : Space) (line' off : Nat) :
    bufByte (putByte buf sp line x) sp' line' off =
      if sp' = sp ∧ line' = line ∧ off = x.off then some x else bufByte buf sp' line' off := by
  unfold bufByte putByte
  rw [List.find?_map]
  have hkey : ((fun b : BufLine => b.space == sp' && b.line == line') ∘ fun b =>
      if b.space == sp && b.line == line then { b with bytes := b.bytes.filter (·.off != x.off) ++ [x] } else b)
      = fun b => b.space == sp' && b.line == line' := by
    funext b
    simp only [Function.comp]
    split <;> rfl
  rw [hkey]
  cases hfind : buf.find? fun b => b.space == sp' && b.line == line' with
  | none =>
    rw [if_neg]
    · rfl
    · rintro ⟨rfl, rfl, -⟩
      obtain ⟨b, hb, hline⟩ := List.any_eq_true.1 h
      exact List.find?_eq_none.1 hfind b hb hline
  | some b =>
    have hb := List.find?_some hfind
    simp only [Bool.and_eq_true, beq_iff_eq] at hb
    obtain ⟨rfl, rfl⟩ := hb
    simp only [Option.map_some, Option.bind_some]
    by_cases hline : b.space = sp ∧ b.line = line
    · simp only [hline, beq_self_eq_true, Bool.and_self, if_true, true_and]
      exact find_put_off ..
    · have hother : (b.space == sp && b.line == line) = false := by simpa using hline
      rw [hother, if_neg (c := b.space = sp ∧ b.line = line ∧ off = x.off) fun hall => hline ⟨hall.1, hall.2.1⟩]
      rfl

/-- The places of two bytes are the same where their lines and their offsets are. -/
theorem place_eq_iff (a b : Nat) : (a / 128 = b / 128 ∧ a % 128 = b % 128) ↔ b = a := by omega

/-- The last byte of a store at a place is what the place reads as. -/
theorem bufByte_placeStore_append (buf : List BufLine) (sp : Space) (path : Nat) (bs : List StByte) (b : StByte) (sp' : Space)
    (a : Nat) :
    bufByte (placeStore buf sp path (bs ++ [b])) sp' (a / 128) (a % 128) =
      if sp' = sp ∧ b.at_ = a then some ⟨b.at_ % 128, b.val, b.tag, b.pois, b.wait, path⟩
      else bufByte (placeStore buf sp path bs) sp' (a / 128) (a % 128) := by
  unfold placeStore
  rw [List.foldl_append, List.foldl_cons, List.foldl_nil, bufByte_putByte _ (hasLine_allocLine ..), bufByte_allocLine]
  simp only [place_eq_iff]

/-- Settles O23, by induction on the bytes of the store from its last one. -/
theorem bufferHoldsLastByte : Obligations.BufferHoldsLastByte := by
  intro buf sp path bs sp' a
  induction bs using List.reverseRecOn with
  | nil => rfl
  | append_singleton bs b ih =>
    rw [bufByte_placeStore_append, List.filter_append]
    by_cases h : sp' = sp ∧ b.at_ = a
    · rw [if_pos h]
      obtain ⟨rfl, rfl⟩ := h
      simp
    · have hout : (sp' == sp && b.at_ == a) = false := by simpa using h
      rw [if_neg h, ih, List.filter_singleton, hout]
      rw [cond_false, List.append_nil]

end Sys2Proof.Machine
end

section
/-!
PROOF. Region legality (R46, R107): the check of registers comes before an instruction's own, in the frame of plain
instructions, of a DRAIN, and of a pair word.
-/

namespace Sys2Proof.Machine

open Sys2Proof.Claims

theorem drain_exec (im : Bool) (o : Ops) (s : State) :
    exec (if im then .drainImm o else .drain o) s = issueDrain (if im then .w96 else .w64) o s := by
  cases im <;> rfl

/-- A DRAIN whose own registers are free issues in the frame of its whole footprint (R272). -/
theorem issueDrain_frame {len : Len} {o : Ops} {s : State} {x : IC} (hx : s.ic o.g = some x)
    (hfree : x.g.busy (footOf .drain len o x) = false) :
    ∃ act, issueDrain len o s = issueFoot (IC.drainFoot len o) act o s := by
  have hfree' : x.g.busy (x.g.foot .drain len o) = false := hfree
  unfold issueDrain
  simp only [hx, hfree', Bool.false_eq_true, if_false]
  exact ⟨_, rfl⟩

/-- The first live-in register that a pair word would write faults (R46, R107). -/
theorem preparePair_illegal {x y : IC} {f h : Foot} {e : Illegal} (hbounds : (f.both h).outOfBounds x.g.allot = none)
    (hfree : x.g.busy (f.both h) = false)
    (hillegal : (((x.g.track.reads f x.act).reads h y.act).firstIllegal f x.act
      <|> ((x.g.track.reads f x.act).reads h y.act).firstIllegal h y.act) = some e) :
    x.preparePair y f h = .stop (x.fault 0x04 e.d0 e.d1) := by
  unfold IC.preparePair
  simp only [hbounds, hfree, hillegal]
  rfl

/-- A check that stops a pair word ends its issue. -/
theorem execPairWord_stop {h0 h1 : Half} {s : State} {x y : IC} {r : Out} (hx : s.ic h0.o.g = some x) (hy : s.ic h1.o.g = some y)
    (hp : x.preparePair y (x.g.foot h0.op .w64 h0.o) (x.g.foot h1.op .w64 h1.o) = .stop r) : execPairWord h0 h1 s = r := by
  unfold execPairWord
  simp only [hx, hy, hp]

theorem orElse_eq_some {α : Type} {a b : Option α} {e : α} (h : a = some e ∨ (a = none ∧ b = some e)) : (a <|> b) = some e := by
  rcases h with rfl | ⟨rfl, rfl⟩
  · rfl
  · rfl

/-- Settles O18: the frames of a DRAIN, of a pair word and of every plain instruction fault before the instruction's own
meaning. -/
theorem regionLegality : Obligations.RegionLegality := by
  refine ⟨fun o s x im e hx hown hbounds hfree hillegal => ?_, fun h0 h1 s x y e hx hy hbounds hfree hillegal => ?_,
    fun r hr o s x e hx hbounds hfree hillegal => plainRows_stop hr hx (prepare_illegal hbounds hfree hillegal)⟩
  · obtain ⟨act, hframe⟩ := issueDrain_frame hx hown
    rw [drain_exec, hframe]
    exact issueFoot_illegal hx hbounds hfree hillegal
  · exact execPairWord_stop hx hy (preparePair_illegal hbounds hfree (orElse_eq_some hillegal))

end Sys2Proof.Machine
end

section
/-!
PROOF. Special registers (R125, R192): a GETSR whose destination is an X register, operands that no word gives but that a
statement about all operands covers.
-/

namespace Sys2Proof.Machine

open Sys2Proof.Claims

/-- A group of 32 V registers with one lane, at 0x10000. -/
def oneLaneGroup : Group := Group.start 0 0 0 0 0 0 0 none 0 0 32 0 0 1 0x10000

/-- A machine in which that group's one split issues. -/
def oneLaneIssuing : State := { State.reset.setGroup 0 oneLaneGroup with cur := some ⟨0, 0, 0x10000, 1, false, 8⟩ }

/-- GETSR of the allotment (selector 0x09) to X0. -/
def getsrToX : Ops := ⟨Guard.none, .x 0, .none, .none, .none, 0x0009, 0⟩

/-- The issue of that GETSR. -/
def getsrToXIssue : IC := ⟨oneLaneIssuing, ⟨0, 0, 0x10000, 1, false, 8⟩, oneLaneGroup, 1⟩

theorem getsrToX_plain : Plain oneLaneIssuing getsrToX.g (footOf .getsr .w64 getsrToX) getsrToXIssue :=
  ⟨by decide, by unfold IC.ready; decide, by decide⟩

/-- The X registers of group 0 in the state that an outcome goes on with. -/
def xRegsAfter (r : Out) : Option (List (BitVec 8)) :=
  match r with
  | .next t => (t.group? 0).map (·.x)
  | _ => none

/-- X0 takes the allotment. -/
theorem getsrToX_writes : xRegsAfter (exec (.getsr getsrToX) oneLaneIssuing) = some [32, 0, 0, 0] := by decide

/-- Refutes O12: the statement lets GETSR's destination be an X register, which no word encodes (R104, R192); the model then
writes the value to that X register, and the clause that X registers keep does not hold. -/
theorem not_specialRegisters : ¬ Obligations.SpecialRegisters := by
  rintro ⟨-, hreads⟩
  obtain ⟨t, g', hexec, hgroup, -, -, hx, -⟩ := hreads getsrToX oneLaneIssuing getsrToXIssue getsrToX_plain
  have hwrites := getsrToX_writes
  have hgroup' : t.group? 0 = some g' := hgroup
  rw [hexec, xRegsAfter, hgroup', Option.map_some, hx] at hwrites
  exact absurd hwrites (by decide)

end Sys2Proof.Machine
end


section
/-!
PROOF. An outbound line that is acknowledged (R42, R211, R375): where no tenure is held, its bytes are one write event at its
home.
-/

namespace Sys2Proof.Machine

/-! ## A write event where no tenure is held -/

/-- No core and no group has changed. -/
structure CoresAndGroupsSame (s t : State) : Prop where
  cores : t.cores = s.cores
  groups : t.groups = s.groups

namespace CoresAndGroupsSame

theorem refl (s : State) : CoresAndGroupsSame s s := ⟨rfl, rfl⟩

theorem trans {s t u : State} (h1 : CoresAndGroupsSame s t) (h2 : CoresAndGroupsSame t u) : CoresAndGroupsSame s u :=
  ⟨h2.cores.trans h1.cores, h2.groups.trans h1.groups⟩

theorem core {s t : State} (h : CoresAndGroupsSame s t) (n : Nat) : t.core n = s.core n := by rw [State.core, State.core, h.cores]

theorem group {s t : State} (h : CoresAndGroupsSame s t) (gid : Nat) : t.group? gid = s.group? gid := by
  rw [State.group?, State.group?, h.groups]

end CoresAndGroupsSame

theorem loseReservations_sameUnits (s : State) (who : Option Nat) (lines : List Nat) :
    CoresAndGroupsSame s (s.loseReservations who lines) := by
  unfold State.loseReservations
  split <;> exact ⟨rfl, rfl⟩

theorem makeRoom_sameUnits (s : State) (slice : Nat) : CoresAndGroupsSame s (s.makeRoom slice) := by
  unfold State.makeRoom
  simp only
  split
  · exact .refl s
  · split <;> exact ⟨rfl, rfl⟩

theorem makeRooms_sameUnits (s : State) (pas : List Nat) : CoresAndGroupsSame s (s.makeRooms pas) := by
  unfold State.makeRooms
  split
  · exact .refl s
  · exact foldl_keeps (CoresAndGroupsSame s) _ (fun t _ h => h.trans (makeRoom_sameUnits t _)) _ s (.refl s)

theorem keepPast_sameUnits (s : State) (ws : List WByte) : CoresAndGroupsSame s (s.keepPast ws) := by
  unfold State.keepPast
  split
  · split <;> exact ⟨rfl, rfl⟩
  · exact ⟨rfl, rfl⟩

theorem putMem_sameUnits (s : State) (ws : List WByte) : CoresAndGroupsSame s (s.putMem ws) := by
  refine .trans ?_ (makeRooms_sameUnits _ _)
  exact (keepPast_sameUnits s ws).trans ⟨rfl, rfl⟩

theorem intrude_free {s : State} (who : Option Nat) (pas : List Nat) (write : Bool) (h : s.tenures = []) :
    s.intrude who pas write = s := by
  simp [State.intrude, h]

/-- Where no tenure is held, a write event changes no core and no group, and memory at its own bytes alone (R206, R249, R325). -/
theorem memWrite_free {s : State} (who : Option Nat) (ws : List WByte) (h : s.tenures = []) :
    CoresAndGroupsSame s (s.memWrite who ws) ∧
      (s.memWrite who ws).mem = bankWrite s.mem (ws.filter fun w => s.memUp w.addr) := by
  unfold State.memWrite
  simp only [intrude_free who _ true h]
  refine ⟨((loseReservations_sameUnits s who _).trans (putMem_sameUnits _ _)).trans ⟨rfl, rfl⟩, ?_⟩
  exact (putMem_mem _ _).trans (by rw [loseReservations_mem])

/-! ## The key that a line is held under -/

/-- A walk stands on the entries that it reads alone: `tableWord` is all that its recursion takes of the state (its equations are
not asked for, for Lean is slow to state them). -/
theorem walkFrom_of_tableWord {s t : State} (h : ∀ pa, t.tableWord pa = s.tableWord pa) (va table level : Nat) :
    t.walkFrom va table level = s.walkFrom va table level := by
  delta State.walkFrom State.walkFrom._f
  simp only [h]

/-- What the walker reads stands on memory, its dies, and the keys of its lines. -/
theorem LinesBrought.tableRead {s t : State} (h : LinesBrought s t) (hd : t.dies = s.dies) (pa n : Nat) :
    t.tableRead pa n = s.tableRead pa n := by
  unfold State.tableRead State.lineKey State.lineNow State.memRead State.memUp State.die
  simp only [h.mem, h.lineKeys, h.pageKeys, hd]

theorem LinesBrought.walk {s t : State} (h : LinesBrought s t) (hd : t.dies = s.dies) (c va : Nat) : t.walk c va = s.walk c va := by
  have hword (pa : Nat) : t.tableWord pa = s.tableWord pa := by
    unfold State.tableWord
    rw [h.tableRead hd]
  have hctx : t.ctxWord c 0 = s.ctxWord c 0 := by
    unfold State.ctxWord State.physWord State.physNat State.physRead State.lineKey State.memRead State.memUp State.die
    simp only [h.mem, h.host, h.lineKeys, h.pageKeys, hd, h.tableRead hd]
  rw [State.walk, State.walk, hctx]
  exact walkFrom_of_tableWord hword ..

theorem LinesBrought.leafKey {s t : State} (h : LinesBrought s t) (hd : t.dies = s.dies) (c va core : Nat) :
    t.leafKey c va core = s.leafKey c va core := by
  unfold State.leafKey State.tlbHit
  simp only [h.tlb, h.clusterTlb, h.walk hd]

theorem useLine_fits {s : State} {line slot : Nat} (h : s.keyFits line slot = true) : s.useLine line slot = s := by
  unfold State.keyFits at h
  unfold State.useLine
  split
  · rfl
  next k hk =>
    rw [hk] at h
    exact if_pos (eq_of_beq h)

/-- The line that an outbound line names is held under the key of the leaf that its group stores it through (R211). -/
def State.heldUnderLeaf (s : State) (o : OutLine) : Prop :=
  ∀ g k, s.group? o.gid = some g → s.leafKey g.ctx (128 * o.vline) g.core = some k → s.keyOk k = true →
    s.keyFits o.line k = true

/-- Such a line stays as it is held. -/
theorem underLeaf_held {s : State} {o : OutLine} (h : s.heldUnderLeaf o) : s.underLeaf o = s := by
  unfold State.underLeaf
  split
  · rfl
  split
  · rfl
  next g hg =>
  split
  · rfl
  next k hk =>
  split
  next hok => exact useLine_fits (h g k hg hk hok)
  next => rfl

theorem LinesBrought.heldUnderLeaf {s t : State} (h : LinesBrought s t) (hd : t.dies = s.dies) (hg : t.groups = s.groups)
    {o : OutLine} (ho : s.heldUnderLeaf o) : t.heldUnderLeaf o := by
  intro g k hgroup hk hok
  rw [State.group?, hg] at hgroup
  rw [h.leafKey hd] at hk
  rw [State.keyOk, h.host] at hok
  have hfits := ho g k hgroup hk hok
  unfold State.keyFits State.lineKey State.slotKey at hfits ⊢
  rw [h.lineKeys, h.pageKeys, h.host]
  exact hfits

/-! ## The bytes of a line -/

theorem lineBytes_nodup {line : Nat} {bytes : List BufByte} (h : (bytes.map (·.off)).Nodup) :
    ((lineBytes line bytes).map (·.addr)).Nodup := by
  have haddr : (lineBytes line bytes).map (·.addr) = (bytes.map (·.off)).map (line * 128 + ·) := by
    simp [lineBytes]
  rw [haddr]
  exact h.map fun _ _ => Nat.add_left_cancel

theorem mem_lineBytes {line : Nat} {bytes : List BufByte} {b : BufByte} (h : b ∈ bytes) :
    (⟨line * 128 + b.off, b.val, b.pois⟩ : WByte) ∈ lineBytes line bytes :=
  List.mem_map_of_mem (f := fun b : BufByte => (⟨line * 128 + b.off, b.val, b.pois⟩ : WByte)) h

theorem lineBytes_other {line a : Nat} {bytes : List BufByte} (h : ∀ b ∈ bytes, a ≠ line * 128 + b.off) :
    ∀ w ∈ lineBytes line bytes, w.addr ≠ a := by
  intro w hw
  obtain ⟨b, hb, rfl⟩ := List.mem_map.1 hw
  exact Ne.symm (h b hb)

/-! ## The acknowledgement -/

/-- A core whose outbound line at a position has left. -/
def State.lineGone (s : State) (core pos : Nat) : State :=
  s.setCore core { s.core core with outbound := (s.core core).outbound.eraseIdx pos }

theorem lineGone_brought (s : State) (core pos : Nat) : LinesBrought s (s.lineGone core pos) := by
  refine ⟨rfl, fun n sp => ?_, fun n => ?_, rfl, rfl, rfl, rfl, rfl⟩
  · rw [State.lineGone, State.setCore_get]
    split
    next h => subst h; cases sp <;> rfl
    next => rfl
  · rw [State.lineGone, State.setCore_get]
    split
    next h => rw [h]
    next => rfl

theorem loseReservations_brought (s : State) (who : Option Nat) (lines : List Nat) :
    LinesBrought s (s.loseReservations who lines) := by
  unfold State.loseReservations
  split <;> exact ⟨rfl, fun _ _ => rfl, fun _ => rfl, rfl, rfl, rfl, rfl, rfl⟩

theorem loseReservations_tenures (s : State) (who : Option Nat) (lines : List Nat) :
    (s.loseReservations who lines).tenures = s.tenures := by
  unfold State.loseReservations
  split <;> rfl

theorem storeAcknowledged_acks {s : State} {core pos : Nat} {o : OutLine} (hout : (s.core core).outbound[pos]? = some o)
    (hfirst : ((s.core core).outbound.take pos).any (fun p => p.space == o.space && p.line == o.line) = false)
    (hhost : s.hostHolds o.pas = false) (hfree : s.tenures = []) (hup : (s.die (dieOfCore core)).powered = true) :
    exec (.storeAcknowledged core pos) s = .next ((s.lineGone core pos).ackLine o) := by
  have hexec : exec (.storeAcknowledged core pos) s = execStoreAcknowledged core pos s := rfl
  have hwaits : s.lineWaits o = false := by
    simp [State.lineWaits, hhost, State.intrudeWaits, State.metWrites, hfree, State.recalled]
  rw [hexec]
  unfold execStoreAcknowledged
  simp only [hout, hfirst, hwaits, hup]
  rfl

/-- An acknowledged line of `g:` is one write event at its home, and its group counts it down where no copy has made it
(R42, R375). -/
theorem ackLine_free {s : State} {o : OutLine} (hg : o.space = .g) (hfree : s.tenures = []) (hkey : s.heldUnderLeaf o) :
    ∃ u, CoresAndGroupsSame s u ∧ u.mem = bankWrite s.mem ((lineBytes o.line o.bytes).filter fun w => s.memUp w.addr) ∧
      s.ackLine o = if o.onPaths 8 then u else u.modGroup o.gid fun g => { g with cntSt := g.cntSt - 1 } := by
  have hends := loseReservations_brought s (if o.bytes.any (·.path == 2) then none else some o.gid) [o.line]
  have hsame := loseReservations_sameUnits s (if o.bytes.any (·.path == 2) then none else some o.gid) [o.line]
  have hdies : (s.lineEnds o).dies = s.dies := (Prod.mk.inj (lineEnds_contextsAndDies s o)).2
  have hleaf : (s.lineEnds o).underLeaf o = s.lineEnds o := underLeaf_held (hends.heldUnderLeaf hdies hsame.groups hkey)
  obtain ⟨hunits, hmem⟩ := memWrite_free (s := s.lineEnds o) (some o.gid) (lineBytes o.line o.bytes)
    ((loseReservations_tenures ..).trans hfree)
  refine ⟨(s.lineEnds o).memWrite (some o.gid) (lineBytes o.line o.bytes), hsame.trans hunits, ?_, ?_⟩
  · rw [hmem, lineEnds_mem]
    simp only [memUp_of_contextsAndDies (lineEnds_contextsAndDies s o)]
  · unfold State.ackLine
    simp only [hg, beq_self_eq_true, if_true, hleaf]

@[simp] theorem modGroup_core (s : State) (gid : Nat) (f : Group → Group) (n : Nat) : (s.modGroup gid f).core n = s.core n := by
  unfold State.modGroup
  split <;> rfl

/-- Settles O24: the line leaves the core's path, its bytes are one write event, and its group counts it down. -/
theorem storeAcknowledgedWrites : Obligations.StoreAcknowledgedWrites := by
  intro s core pos o hout hg hfirst hhost hfree hup hnodup hkey
  have hkey' : (s.lineGone core pos).heldUnderLeaf o := (lineGone_brought s core pos).heldUnderLeaf rfl rfl hkey
  obtain ⟨u, hunits, hmem, hack⟩ := ackLine_free hg (show (s.lineGone core pos).tenures = [] from hfree) hkey'
  have hbank : ((s.lineGone core pos).ackLine o).mem
      = bankWrite s.mem ((lineBytes o.line o.bytes).filter fun w => s.memUp w.addr) := by
    rw [hack]
    split
    · exact hmem
    · exact (modGroup_mem ..).trans hmem
  have hcore : ((s.lineGone core pos).ackLine o).core core = u.core core := by
    rw [hack]
    split
    · rfl
    · exact modGroup_core ..
  have hgroup (g : Group) (h : s.group? o.gid = some g) : u.group? o.gid = some g := (hunits.group o.gid).trans h
  refine ⟨_, storeAcknowledged_acks hout hfirst hhost hfree hup, fun b hb hbup => ?_, fun a ha => ?_, ?_, fun g hg => ?_⟩
  · rw [hbank]
    exact bankByte_write_nodup s.mem ((lineBytes_nodup hnodup).sublist (List.Sublist.map _ List.filter_sublist))
      (List.mem_filter.2 ⟨mem_lineBytes hb, hbup⟩)
  · rw [hbank]
    exact bankByte_write_other _ _ _ fun w hw => lineBytes_other ha w (List.mem_filter.1 hw).1
  · rw [hcore, hunits.core, State.lineGone, State.setCore_get_self]
  · rw [hack]
    split
    · exact hgroup g hg
    · rw [modGroup_eq _ (hgroup g hg)]
      exact State.setGroup_get_self ..

end Sys2Proof.Machine
end


section
/-!
PROOF. REGION and EXIT (R38, R65, R182, R183, R380): where the lanes that pass a boundary stand, what the next region starts
with, and what the end of a group's lanes leaves of it while barriers that it has waited for complete.
-/

namespace Sys2Proof.Machine

open Sys2Proof.Claims

/-! ## The lanes that pass a boundary -/

theorem Carries.lt_quads {g : Group} {q l : Nat} {pc : BitVec 57} {w : Bool} (h : Carries (g.quad q).deferred pc w l) :
    q < g.quads.length := by
  by_contra hge
  obtain ⟨p, hp, -⟩ := h
  rw [Group.quad, List.getD_eq_default _ _ (Nat.not_lt.1 hge)] at hp
  cases hp

/-- A quad that is changed is as its change makes it, but for its label, whether it runs or not. -/
theorem mapQuads_quad_of_lt {g : Group} {qs : List Nat} {q : Nat} (f : Quad → Quad) (hq : q ∈ qs) (hlt : q < g.quads.length) :
    ∃ n, (g.mapQuads qs f).quad q = { f (g.quad q) with split := n } := by
  obtain ⟨n, hn⟩ := relabel_quad { g with quads := g.quads.zipIdx.map fun p => if qs.contains p.2 then f p.1 else p.1 } qs q
  refine ⟨n, ?_⟩
  rw [Group.mapQuads, hn, Group.quad, zipIdx_map_getD g.quads _ Quad.idle hlt]
  simp only [List.contains_iff_mem, hq, if_true]
  rfl

/-- A lane that waits at a boundary stands at its next PC when the boundary is passed (R24, R38). -/
theorem passBoundary_stands {g : Group} {pc : BitVec 57} {l : Nat} (next : Nat → BitVec 57) (h : g.waitsAt l pc) :
    (g.passBoundary pc next).stands l (next l) := by
  obtain ⟨hl, hwaits⟩ := (waitsAt_iff ..).1 h
  have hlt := hwaits.lt_quads
  obtain ⟨p, hp, hpc, hw, hin⟩ := hwaits
  have hplace : (p.waiting && p.pc == pc) = true := by simp [hw, hpc]
  have hmem : l / 4 ∈ (List.range 16).filter fun q => (g.quad q).deferred.any fun p => p.waiting && p.pc == pc :=
    List.mem_filter.2 ⟨List.mem_range.2 (by omega), List.any_eq_true.2 ⟨p, hp, hplace⟩⟩
  obtain ⟨n, hn⟩ := mapQuads_quad_of_lt (fun q =>
    ({ q with deferred := q.deferred.filter fun p => !(p.waiting && p.pc == pc) } : Quad).spread
      ((q.deferred.filter fun p => p.waiting && p.pc == pc).foldl (fun m p => m ||| p.lanes) 0) next) hmem hlt
  rw [stands_iff, Group.passBoundary, hn, holds_split]
  exact spread_holds _ next ((inMask_foldl_lanes ..).2 (.inr ⟨p, List.mem_filter.2 ⟨hp, hplace⟩, hin⟩))

/-! ## What the next region starts with -/

/-- The next region starts with a record of what the group holds as it opens (R38, R48, R53, R65). -/
theorem reopened_opened (g : Group) (pc : BitVec 57) (next : Nat → BitVec 57) (a : List SplitAge) :
    Opened g ((g.reopened pc next).withAges a) := by
  obtain ⟨q, a', sl, hpass⟩ := passBoundary_eq g pc next
  rw [Group.reopened, hpass]
  exact ⟨⟨rfl, rfl⟩, ⟨rfl, rfl⟩, ⟨rfl, rfl⟩, ⟨rfl, rfl⟩⟩

/-- The opening of a region changes no register but the RMR. -/
theorem reopened_registers (g : Group) (pc : BitVec 57) (next : Nat → BitVec 57) (a : List SplitAge) {h : Group}
    (hh : h = (g.reopened pc next).withAges a) :
    h.v = g.v ∧ h.s = g.s ∧ h.x = g.x ∧ h.p = g.p ∧ h.k = g.k ∧ h.gsr = g.gsr := by
  obtain ⟨q, a', sl, hpass⟩ := passBoundary_eq g pc next
  rw [hh, Group.reopened, hpass]
  exact ⟨rfl, rfl, rfl, rfl, rfl, rfl⟩

theorem reopened_lanes (g : Group) (pc : BitVec 57) (next : Nat → BitVec 57) (a : List SplitAge) {h : Group}
    (hh : h = (g.reopened pc next).withAges a) : h.exited = g.exited ∧ h.launched = g.launched ∧ h.dead = g.dead := by
  obtain ⟨q, a', sl, hpass⟩ := passBoundary_eq g pc next
  rw [hh, Group.reopened, hpass]
  exact ⟨rfl, rfl, rfl⟩

theorem Boundary.group_eq {s : State} {gd : Guard} {f : IC → Foot} {x y : IC} (hb : Boundary s gd f x y) :
    y.s.group? y.cu.gid = some y.g := by
  rw [hb.cu_eq, hb.after]
  exact hb.group

theorem regionOpens : Claims.RegionOpens := by
  intro o s x y hb hlive
  have hexec : exec (.region o) s = execRegion o s := rfl
  obtain ⟨⟨a, ha⟩, -⟩ := passAndOpen_spec y.cu.pc (fun _ => y.nextPc) hb.group_eq hlive
  obtain ⟨hv, hs, hx, hp, hk, hgsr⟩ := reopened_registers y.g y.cu.pc (fun _ => y.nextPc) a rfl
  have hnext : y.nextPc = x.nextPc := by rw [IC.nextPc, IC.nextPc, hb.cu_eq]
  rw [hexec, execRegion, issueBoundary_pass hb rfl rfl]
  rw [← hb.cu_eq, ← hnext]
  refine ⟨_, _, rfl, ha, reopened_opened .., ?_, hv, hs, hx, hp, hk, hgsr, fun l hl => ?_⟩
  · rw [withAges_status, reopened_status]
  · exact passBoundary_stands (fun _ => y.nextPc) hl

/-! ## Lanes that exit -/

theorem dropLanes_eq (g : Group) (lanes : Mask) : ∃ q a sl, g.dropLanes lanes = g.withControl q a sl g.moved := by
  unfold Group.dropLanes
  simp only
  refine foldl_keeps (fun (h : Group) => ∃ q a sl, h = g.withControl q a sl g.moved) _ (fun h qs hh => ?_) _ _
    ⟨_, g.ages, g.sleepers, rfl⟩
  obtain ⟨q, a, sl, rfl⟩ := hh
  split
  · exact ⟨q, a, sl, rfl⟩
  · exact relabel_eq (g.withControl q a sl g.moved) qs

/-- Lanes that exit are exited, and leave the control state (R183). -/
theorem exitLanes_eq (g : Group) (lanes : Mask) : ∃ q a sl,
    g.exitLanes lanes = ({ g with exited := g.exited ||| lanes } : Group).withControl q a sl g.moved := dropLanes_eq ..

theorem exitLanes_live (g : Group) (lanes : Mask) : (g.exitLanes lanes).live = g.live &&& ~~~lanes := by
  obtain ⟨q, a, sl, hexit⟩ := exitLanes_eq g lanes
  rw [hexit]
  show g.launched &&& ~~~(g.exited ||| lanes) &&& ~~~g.dead = g.launched &&& ~~~g.exited &&& ~~~g.dead &&& ~~~lanes
  rw [BitVec.not_or, ← BitVec.and_assoc, BitVec.and_assoc _ (~~~lanes), BitVec.and_comm (~~~lanes), ← BitVec.and_assoc]

/-! ## Groups keep their lanes while barriers complete -/

/-- A group has these launched, exited and dead lanes. -/
def HasLanes (s : State) (gid : Nat) (launched exited dead : Mask) : Prop :=
  ∃ g, s.group? gid = some g ∧ g.launched = launched ∧ g.exited = exited ∧ g.dead = dead

theorem HasLanes.of_group {s : State} {gid : Nat} {g : Group} (h : s.group? gid = some g) :
    HasLanes s gid g.launched g.exited g.dead := ⟨g, h, rfl, rfl, rfl⟩

theorem HasLanes.setGroup {s : State} {gid n : Nat} {L E D : Mask} (h : HasLanes s gid L E D) {g k : Group}
    (hg : s.group? n = some g) (hk : k.launched = g.launched ∧ k.exited = g.exited ∧ k.dead = g.dead) :
    HasLanes (s.setGroup n k) gid L E D := by
  obtain ⟨g', hg', rfl, rfl, rfl⟩ := h
  by_cases hn : gid = n
  · subst hn
    rw [hg] at hg'
    cases hg'
    exact ⟨k, State.setGroup_get_self .., hk⟩
  · exact ⟨g', by rw [State.setGroup_get_ne _ _ hn]; exact hg', rfl, rfl, rfl⟩

theorem releaseYields_hasLanes {s : State} {gid : Nat} {L E D : Mask} (core n split : Nat) (h : HasLanes s gid L E D) :
    HasLanes (s.releaseYields core n split) gid L E D := by
  obtain ⟨g, hg, hl⟩ := h
  obtain ⟨a, ha⟩ := releaseYields_group s core n split gid hg
  exact ⟨g.withAges a, ha, hl⟩

theorem passAndOpen_hasLanes {s : State} {gid : Nat} {L E D : Mask} (n : Nat) (pc : BitVec 57) (next : Nat → BitVec 57)
    (h : HasLanes s gid L E D) : HasLanes (s.passAndOpen n pc next) gid L E D := by
  unfold State.passAndOpen
  split
  · exact h
  next g hg =>
  obtain ⟨q, a, sl, hpass⟩ := passBoundary_eq g pc next
  simp only [hpass]
  refine releaseYields_hasLanes _ _ _ ?_
  split
  · exact h.setGroup hg ⟨rfl, rfl, rfl⟩
  · exact h.setGroup hg ⟨rfl, rfl, rfl⟩

theorem wakeBarrier_hasLanes {s : State} {gid : Nat} {L E D : Mask} (n : Nat) (phase : BitVec 16) (h : HasLanes s gid L E D) :
    HasLanes (s.wakeBarrier n phase) gid L E D := by
  unfold State.wakeBarrier
  split
  · exact h
  next g hg =>
  split
  next b m rd lanes pc hstatus =>
    refine passAndOpen_hasLanes _ _ _ (h.setGroup hg ?_)
    cases rd <;> exact ⟨rfl, rfl, rfl⟩
  next => exact h

theorem forgetArrivals_hasLanes {s : State} {gid : Nat} {L E D : Mask} (team n : Nat) (h : HasLanes s gid L E D) :
    HasLanes { s with groups := smMap (fun _ g => if g.team = team then { g with arrived := smDel g.arrived n } else g) s.groups }
      gid L E D := by
  obtain ⟨g, hg, hl⟩ := h
  refine ⟨if g.team = team then { g with arrived := smDel g.arrived n } else g, ?_, ?_⟩
  · rw [State.group?, smFind_map, ← State.group?, hg]
    rfl
  · split <;> exact hl

theorem putBarrier_hasLanes {s : State} {gid : Nat} {L E D : Mask} (team n : Nat) (b : Barrier) (h : HasLanes s gid L E D) :
    HasLanes (s.putBarrier team n b) gid L E D := by
  unfold State.putBarrier
  split
  · exact h
  next t _ =>
  have hset : HasLanes (s.setTeam team { t with barriers := t.barriers.set n (t.settle b).1 }) gid L E D := h
  simp only
  split
  · exact foldl_keeps (HasLanes · gid L E D) _ (fun u kv hu => wakeBarrier_hasLanes _ _ hu) _ _
      (forgetArrivals_hasLanes team n hset)
  · exact hset

theorem exitBarriers_hasLanes {s : State} {gid : Nat} {L E D : Mask} (n : Nat) (h : HasLanes s gid L E D) :
    HasLanes (s.exitBarriers n) gid L E D := by
  unfold State.exitBarriers
  split
  · exact h
  next g _ =>
  split
  · exact h
  next t _ =>
  have hset : HasLanes (s.setTeam g.team { t with exited := t.exited ++ [g.gnum] }) gid L E D := h
  refine foldl_keeps (HasLanes · gid L E D) _ (fun u m hu => ?_) _ _ hset
  split
  · exact hu
  · simp only
    split
    · exact putBarrier_hasLanes _ _ _ hu
    · exact hu

/-! ## EXIT -/

/-- A group without live lanes that passes a boundary drains (R183). -/
theorem passAndOpen_drains {s : State} {gid : Nat} {L E D : Mask} (pc : BitVec 57) (next : Nat → BitVec 57)
    (h : HasLanes s gid L E D) (hnone : L &&& ~~~E &&& ~~~D = 0) :
    ∃ g', (s.passAndOpen gid pc next).group? gid = some g' ∧ g'.status = .draining ∧
      g'.launched = L ∧ g'.exited = E ∧ g'.dead = D := by
  obtain ⟨g, hg, rfl, rfl, rfl⟩ := h
  obtain ⟨q, a, sl, hpass⟩ := passBoundary_eq g pc next
  have hlive : ({ g.withControl q a sl g.moved with ages := [] } : Group).live = 0 := hnone
  unfold State.passAndOpen
  simp only [hg, hpass, hlive, if_true]
  obtain ⟨b, hb⟩ := releaseYields_group (s.setGroup gid
    { g.withControl q a sl g.moved with ages := [], status := .draining, sleepers := [] }) g.core gid 16 gid
    (State.setGroup_get_self ..)
  exact ⟨_, hb, rfl, rfl, rfl, rfl⟩

/-- The state in which the lanes that an EXIT leaves pass it. -/
def IC.exitState (x : IC) : State :=
  let s := x.s.setGroup x.cu.gid (x.g.exitLanes x.act)
  if x.act != 0 && (x.g.live &&& ~~~x.act) == 0 then s.exitBarriers x.cu.gid else s

theorem exitState_hasLanes (x : IC) :
    HasLanes x.exitState x.cu.gid x.g.launched (x.g.exited ||| x.act) x.g.dead := by
  obtain ⟨q, a, sl, hexit⟩ := exitLanes_eq x.g x.act
  have hset : HasLanes (x.s.setGroup x.cu.gid (x.g.exitLanes x.act)) x.cu.gid x.g.launched (x.g.exited ||| x.act) x.g.dead :=
    ⟨_, State.setGroup_get_self .., by rw [hexit]; exact ⟨rfl, rfl, rfl⟩⟩
  unfold IC.exitState
  simp only
  split
  · exact exitBarriers_hasLanes _ hset
  · exact hset

theorem exec_exit {o : Ops} {s : State} {x y : IC} (hb : Boundary s o.g (footOf .exit .w64 o) x y) :
    exec (.exit o) s = .next (y.past y.exitState) := by
  have hexec : exec (.exit o) s = execExit o s := rfl
  rw [hexec, execExit]
  exact issueBoundary_pass hb rfl rfl

/-- Lanes that an EXIT leaves go on in the next region (R183). -/
theorem exit_leaves {y : IC} (hleft : y.g.live &&& ~~~y.act ≠ 0) :
    ∃ g', (y.past y.exitState).group? y.cu.gid = some g' ∧ (g'.exited = y.g.exited ||| y.act ∧ g'.launched = y.g.launched ∧
      g'.dead = y.g.dead) ∧ Opened y.g g' ∧ g'.status = y.g.status ∧ g'.v = y.g.v ∧ g'.s = y.g.s := by
  have hstate : y.exitState = y.s.setGroup y.cu.gid (y.g.exitLanes y.act) := by
    unfold IC.exitState
    simp only [beq_false_of_ne hleft, Bool.and_false]
    rfl
  have hgroup : y.exitState.group? y.cu.gid = some (y.g.exitLanes y.act) := by
    rw [hstate]
    exact State.setGroup_get_self ..
  obtain ⟨⟨a, ha⟩, -⟩ := passAndOpen_spec y.cu.pc (fun _ => y.nextPc) hgroup (by rwa [exitLanes_live])
  obtain ⟨hquads, hcopies, hcounter, hrmr⟩ := reopened_opened (y.g.exitLanes y.act) y.cu.pc (fun _ => y.nextPc) a
  obtain ⟨hv, hs, -⟩ := reopened_registers (y.g.exitLanes y.act) y.cu.pc (fun _ => y.nextPc) a rfl
  have hlanes := reopened_lanes (y.g.exitLanes y.act) y.cu.pc (fun _ => y.nextPc) a rfl
  have hstatus := reopened_status (y.g.exitLanes y.act) y.cu.pc (fun _ => y.nextPc)
  obtain ⟨q, a', sl, hexit⟩ := exitLanes_eq y.g y.act
  rw [hexit] at hv hs hrmr hlanes hstatus
  rw [hexit] at ha hquads hcopies hcounter
  exact ⟨_, ha, hlanes, ⟨hquads, hcopies, hcounter, hrmr⟩, hstatus, hv, hs⟩

theorem exitEndsLanes : Claims.ExitEndsLanes := by
  intro o s x y hb _
  rw [exec_exit hb, ← hb.cu_eq]
  by_cases hleft : y.g.live &&& ~~~y.act = 0
  · obtain ⟨g', hg, hdrains, hl, he, hd⟩ := passAndOpen_drains y.cu.pc (fun _ => y.nextPc) (exitState_hasLanes y) (by
      have hlive := exitLanes_live y.g y.act
      obtain ⟨q, a, sl, hexit⟩ := exitLanes_eq y.g y.act
      rw [hexit, hleft] at hlive
      exact hlive)
    exact ⟨_, g', rfl, hg, he, hl, hd, fun _ => hdrains, fun hne => absurd hleft hne⟩
  · obtain ⟨g', hg, ⟨he, hl, hd⟩, hopened⟩ := exit_leaves hleft
    exact ⟨_, g', rfl, hg, he, hl, hd, fun h => absurd h hleft, fun _ => hopened⟩

/-- Settles O14: a boundary that passes opens the next region; the lanes that exit keep out of it, and with none left the group
drains. -/
theorem regionsAndExit : Obligations.RegionsAndExit := ⟨regionOpens, exitEndsLanes⟩

end Sys2Proof.Machine
end


section
/-!
PROOF. Stores (R43 to R45, R243, R244, R246, R276): bytes that meet no conflict and find room go into the region store buffer,
and no memory changes.
-/

namespace Sys2Proof.Machine

open Sys2Proof.Claims

/-- What a plain instruction leaves where its effects have changed no memory. -/
theorem after_memoryKept {s u : State} (x : IC) (h : Group) (hu : MemoryKept s u) : MemoryKept s (x.after u h) := by
  unfold IC.after
  rw [releaseYields_eq]
  exact hu

theorem countClass3_memoryKept (s : State) (gid : Nat) : MemoryKept s (s.countClass3 gid) :=
  .of_cores (countClass3_mem ..) (countClass3_cores ..)

/-- Bytes without a conflict, for which the buffer has room, go into it, and the instruction goes on (R44, R45). -/
theorem intoBuffer_fits {x : IC} {g : Group} {sp : Space} {bs : List StByte} (path : Nat) (class3 : Bool) (starts : StByte → Nat)
    (hc : storeConflict g.buf sp bs = none) (hr : overCapacity g.buf sp bs = none) :
    x.intoBuffer g sp path class3 bs starts 0 = .next (x.after (if class3 then x.s.countClass3 x.cu.gid else x.s)
      { g with
        buf := placeStore g.buf sp path bs
        lrCount := (((if class3 then x.s.countClass3 x.cu.gid else x.s).group? x.cu.gid).map fun (g : Group) =>
          g.lrCount).getD 64 }) := by
  unfold IC.intoBuffer
  simp only [hc, hr]
  exact retire_after ..

/-! ## Stores by lane -/

theorem storeRows_exec : ∀ r ∈ storeRows, ∀ o s, exec (r.con o) s = issueLaneStore r.op r.len r.sp r.kind r.addr o s := by
  intro r hr
  fin_cases hr <;> exact fun _ _ => rfl

/-- A store by lane that reads no poison and whose lanes all translate asks for its bytes to go into the buffer. -/
theorem issueLaneStore_stores {op : Op} {len : Len} {sp : Ops → Space} {kind : AccKind} {addr : IC → Ops → Nat → Int} {o : Ops}
    {s : State} {x : IC} {ok : List (Nat × List Nat)} {bad : List Nat} (hp : Plain s o.g (footOf op len o) x)
    (hgo : x.reach (sp o) (accSize o) kind true (laneList x (addr x o)) = .go ok bad []) :
    ∃ starts, issueLaneStore op len sp kind addr o s = x.intoBuffer (x.tracked (footOf op len o x)) (sp o)
      (if kind = .gather then 1 else 0) true (laneBytes x o (addr x o) ok) starts 0 := by
  have hclean : x.g.poisonedLanes (x.g.foot op len o).rv x.act = 0 := hp.clean
  have hgo' : x.reach (sp o) (accSize o) kind true ((lanesOf x.act).map fun l => (l, addr x o l)) = .go ok bad [] := hgo
  unfold issueLaneStore
  rw [issueWith_ready hp.ic hp.ready]
  simp only [hclean, and_not_zero, hgo']
  exact ⟨_, rfl⟩

theorem laneStoresBuffer : Claims.LaneStoresBuffer := by
  intro r hr o s x ok bad hp hgo hconflict hroom
  obtain ⟨starts, hstores⟩ := issueLaneStore_stores hp hgo
  have hnext := intoBuffer_fits (x := x) (g := x.tracked (footOf r.op r.len o x)) (if r.kind = .gather then 1 else 0) true starts
    hconflict hroom
  rw [storeRows_exec r hr, hstores, hnext, ← hp.s_eq]
  exact ⟨rfl, after_memoryKept x _ (countClass3_memoryKept ..)⟩

/-! ## Group-wide stores -/

theorem stu_exec (im : Bool) (o : Ops) (s : State) :
    exec (if im then .stuImm o else .stu o) s = issueUniStore (if im then .w96 else .w64) o s := by
  cases im <;> rfl

theorem kst_exec (im : Bool) (o : Ops) (s : State) :
    exec (if im then .kstImm o else .kst o) s = issueKst (if im then .w96 else .w64) o s := by
  cases im <;> rfl

/-- The bytes that an STU takes from its S run (R244). -/
def IC.stuData (x : IC) (o : Ops) : List Byte :=
  ((List.range ((accSize o + 7) / 8)).flatMap fun i => leBytes 8 (x.g.rdS (opNum o.d + i)).toNat).take (accSize o)

theorem issueUniStore_stores {len : Len} {o : Ops} {s : State} {x : IC} {ok : List (Nat × List Nat)} {bad : List Nat}
    (hp : Plain s o.g (footOf .stu len o) x)
    (hgo : x.reach (accSpace o) (accSize o) .store true [(0, x.uniAddr o (accSpace o))] = .go ok bad []) :
    ∃ starts, issueUniStore len o s = x.intoBuffer (x.tracked (footOf .stu len o x)) (accSpace o) 0 true
      (uniBytes (x.uniAddr o (accSpace o)).toNat (x.stuData o) ok) starts 0 := by
  unfold issueUniStore
  rw [issueWith_ready hp.ic hp.ready]
  simp only [hgo]
  exact ⟨_, rfl⟩

theorem issueKst_stores {len : Len} {o : Ops} {s : State} {x : IC} {ok : List (Nat × List Nat)} {bad : List Nat} {data : List Byte}
    (hp : Plain s o.g (footOf .kst len o) x) (hdata : data = kstBytes (x.g.k.getD (opNum o.d) ⟨0, 0, 0⟩) (mbit o.m 56))
    (halign : x.uniAddr o (accSpace o) % (data.length : Int) = 0)
    (hgo : x.reach (accSpace o) data.length .store true [(0, x.uniAddr o (accSpace o))] = .go ok bad []) :
    ∃ starts, issueKst len o s = x.intoBuffer (x.tracked (footOf .kst len o x)) (accSpace o) 0 false
      (uniBytes (x.uniAddr o (accSpace o)).toNat data ok) starts 0 := by
  subst hdata
  have haddr : x.addrBase o.a (accSpace o == .g) 0 + offsetOf o = x.uniAddr o (accSpace o) := rfl
  unfold issueKst
  rw [issueWith_ready hp.ic hp.ready]
  simp only [haddr, halign, hgo, ne_eq, not_true_eq_false, if_false]
  exact ⟨_, rfl⟩

theorem uniformStoresBuffer : Claims.UniformStoresBuffer := by
  refine ⟨fun o s x im ok bad hp hgo hconflict hroom => ?_, fun o s x im ok bad hp halign hgo hconflict hroom => ?_⟩
  · obtain ⟨starts, hstores⟩ := issueUniStore_stores hp hgo
    have hnext := intoBuffer_fits (x := x) (g := x.tracked (footOf .stu (if im then .w96 else .w64) o x)) 0 true starts
      hconflict hroom
    rw [stu_exec, hstores, ← hp.s_eq]
    exact hnext
  · obtain ⟨starts, hstores⟩ := issueKst_stores hp rfl halign hgo
    have hnext := intoBuffer_fits (x := x) (g := x.tracked (footOf .kst (if im then .w96 else .w64) o x)) 0 false starts
      hconflict hroom
    have hgroup : x.s.group? x.cu.gid = some x.g := by
      obtain ⟨hs, -, hg, -⟩ := ic_eq hp.ic
      rw [hs]
      exact hg
    simp only [Bool.false_eq_true, if_false, hgroup] at hnext
    rw [kst_exec, hstores, hnext, hp.s_eq]
    rfl

/-- Settles O22: each form of store asks for its bytes to go into the buffer, where they find room. -/
theorem storesBuffer : Obligations.StoresBuffer := ⟨laneStoresBuffer, uniformStoresBuffer⟩

end Sys2Proof.Machine
end


section
/-!
PROOF. Reads of an instruction (R205, R218, R238): what the loading of lines leaves of groups, and of memory where no tenure is
held; and the posting of a load (R117, R374).
-/

namespace Sys2Proof.Machine

open Sys2Proof.Claims

/-! ## A line that is loaded -/

/-- A line comes from its home, through caches: what a load does where no copy of the L1 serves it (R205, R218). -/
def State.fetchLine (s : State) (gid core line : Nat) (pas : List Nat) : State :=
  let s := ((s.intrude (some gid) pas false).fillL2 [128 * line]).copyLines gid [line]
  let bs := overlay (s.core core).outbound line (s.memRead (128 * line) 128)
  if bs.all (!·.2) then s.fillL1 core line (bs.map (·.1))
  else s.setCore core { s.core core with l1 := smDel (s.core core).l1 line }

/-- A free value has been drawn. -/
def State.drawn (s : State) : State := { s with fresh := s.fresh + 1 }

/-- A line that is loaded comes from the L1, or from its home. -/
theorem loadLine_state (s : State) (gid core line : Nat) (pas : List Nat) :
    (s.loadLine gid core line pas).1 = s.drawn ∨ (s.loadLine gid core line pas).1 = s.drawn.fetchLine gid core line pas ∨
      (s.loadLine gid core line pas).1 = s.fetchLine gid core line pas := by
  unfold State.loadLine State.draw
  cases smFind (s.core core).l1 line with
  | none => exact .inr (.inr rfl)
  | some bs =>
    simp only
    cases Config.freeBit s.fresh with
    | true => exact .inl rfl
    | false => exact .inr (.inl rfl)

theorem copyLines_cases (s : State) (gid : Nat) (lines : List Nat) : ∃ c, s.copyLines gid lines = { s with l2copies := c } := by
  unfold State.copyLines
  simp only
  split <;> exact ⟨_, rfl⟩

theorem fillL2_linesLeave (s : State) (pas : List Nat) : LinesLeave s (s.fillL2 pas) := by
  refine .trans ?_ (makeRooms_linesLeave _ _)
  exact .of_eq rfl rfl

theorem fetchLine_linesLeave (s : State) (gid core line : Nat) (pas : List Nat) :
    LinesLeave s (s.fetchLine gid core line pas) := by
  have hfill : LinesLeave s ((s.intrude (some gid) pas false).fillL2 [128 * line]) :=
    (intrude_linesLeave s _ pas false).trans (fillL2_linesLeave _ _)
  obtain ⟨c, hcopies⟩ := copyLines_cases ((s.intrude (some gid) pas false).fillL2 [128 * line]) gid [line]
  have hcopied : LinesLeave s (((s.intrude (some gid) pas false).fillL2 [128 * line]).copyLines gid [line]) := by
    rw [hcopies]
    exact hfill.trans (.of_eq rfl rfl)
  unfold State.fetchLine
  simp only
  split
  · exact hcopied.trans (fillL1_linesLeave _ _ _ _)
  · exact hcopied.trans (setL1_linesLeave _ _ _)

theorem loadLine_linesLeave (s : State) (gid core line : Nat) (pas : List Nat) :
    LinesLeave s (s.loadLine gid core line pas).1 := by
  have hdrawn : LinesLeave s s.drawn := .of_eq rfl rfl
  rcases loadLine_state s gid core line pas with h | h | h <;> rw [h]
  · exact hdrawn
  · exact hdrawn.trans (fetchLine_linesLeave ..)
  · exact fetchLine_linesLeave ..

/-- A reading of memory of any kind changes groups in CNT.ST alone, by the lines of a recalled tenure (R325). -/
theorem loadLines_linesLeave (s : State) (gid core : Nat) (pas : List Nat) : LinesLeave s (s.loadLines gid core pas).1 :=
  foldl_keeps (fun (p : State × List (Nat × List (Byte × Bool))) => LinesLeave s p.1) _
    (fun _ _ h => h.trans (loadLine_linesLeave ..)) _ (s, []) (.refl s)

theorem readPlaces_linesLeave (s : State) (gid core : Nat) (buf : List BufLine) (sp : Space)
    (reads : List (Option Nat × List Nat)) : LinesLeave s (s.readPlaces gid core buf sp reads).1 := by
  unfold State.readPlaces
  split
  · exact loadLines_linesLeave ..
  · exact .refl s

/-! ## The same, where no tenure is held -/

/-- No tenure is held, and no memory has changed. -/
def ReadFreely (s t : State) : Prop := LinesBrought s t ∧ t.tenures = []

theorem ReadFreely.trans {s t u : State} (h1 : ReadFreely s t) (h2 : ReadFreely t u) : ReadFreely s u :=
  ⟨h1.1.trans h2.1, h2.2⟩

theorem makeRooms_tenures (s : State) (pas : List Nat) : (s.makeRooms pas).tenures = s.tenures := by
  unfold State.makeRooms
  split
  · rfl
  · refine foldl_keeps (fun (t : State) => t.tenures = s.tenures) _ (fun t _ h => .trans ?_ h) _ s rfl
    unfold State.makeRoom
    simp only
    split
    · rfl
    · split <;> rfl

theorem fillL1_tenures (s : State) (core line : Nat) (bytes : List Byte) : (s.fillL1 core line bytes).tenures = s.tenures := by
  unfold State.fillL1
  simp only
  split
  · rfl
  · split <;> rfl

theorem fetchLine_free {s : State} (gid core line : Nat) (pas : List Nat) (h : s.tenures = []) :
    ReadFreely s (s.fetchLine gid core line pas) := by
  obtain ⟨c, hcopies⟩ := copyLines_cases (s.fillL2 [128 * line]) gid [line]
  have hcopied : ReadFreely s ((s.fillL2 [128 * line]).copyLines gid [line]) := by
    rw [hcopies]
    exact ⟨(fillL2_brought s _).trans ⟨rfl, fun _ _ => rfl, fun _ => rfl, rfl, rfl, rfl, rfl, rfl⟩,
      (makeRooms_tenures ..).trans h⟩
  unfold State.fetchLine
  simp only [intrude_free (some gid) pas false h]
  split
  · exact hcopied.trans ⟨fillL1_brought .., (fillL1_tenures ..).trans hcopied.2⟩
  · exact hcopied.trans ⟨setL1_brought .., hcopied.2⟩

theorem loadLine_free {s : State} (gid core line : Nat) (pas : List Nat) (h : s.tenures = []) :
    ReadFreely s (s.loadLine gid core line pas).1 := by
  have hdrawn : ReadFreely s s.drawn := ⟨⟨rfl, fun _ _ => rfl, fun _ => rfl, rfl, rfl, rfl, rfl, rfl⟩, h⟩
  rcases loadLine_state s gid core line pas with hl | hl | hl <;> rw [hl]
  · exact hdrawn
  · exact hdrawn.trans (fetchLine_free gid core line pas h)
  · exact fetchLine_free gid core line pas h

/-- With no tenure held a reading of memory changes no memory (R205). -/
theorem readPlaces_free {s : State} (gid core : Nat) (buf : List BufLine) (sp : Space) (reads : List (Option Nat × List Nat))
    (h : s.tenures = []) : MemoryKept s (s.readPlaces gid core buf sp reads).1 := by
  have hread : ReadFreely s (s.readPlaces gid core buf sp reads).1 := by
    unfold State.readPlaces
    split
    · exact foldl_keeps (fun (p : State × List (Nat × List (Byte × Bool))) => ReadFreely s p.1) _
        (fun p _ hp => hp.trans (loadLine_free _ _ _ _ hp.2)) _ (s, []) ⟨.refl s, h⟩
    · exact ⟨.refl s, h⟩
  exact hread.1.memoryKept

/-! ## The posting of a load -/

theorem MemoryKept.trans {s t u : State} (h1 : MemoryKept s t) (h2 : MemoryKept t u) : MemoryKept s u :=
  ⟨fun a => ⟨(h2.1 a).1.trans (h1.1 a).1, (h2.1 a).2.trans (h1.1 a).2⟩,
    fun n sp a => ⟨(h2.2 n sp a).1.trans (h1.2 n sp a).1, (h2.2 n sp a).2.trans (h1.2 n sp a).2⟩⟩

/-- A load that is posted counts in CNT.LD, and its registers wait for it (R117, R374). -/
theorem postLoad_group {s : State} {gid : Nat} {g : Group} (regs sregs kregs : List Nat) (ws : List RegWrite)
    (h : s.group? gid = some g) : (s.postLoad gid regs sregs kregs ws).group? gid = some { g with
      cntLd := g.cntLd + 1, pending := g.pending ++ [⟨s.nextId, true, regs, sregs, kregs, ws⟩] } := by
  unfold State.postLoad
  rw [modGroup_eq _ h]
  exact State.setGroup_get_self ..

theorem postLoad_memoryKept (s : State) (gid : Nat) (regs sregs kregs : List Nat) (ws : List RegWrite) :
    MemoryKept s (s.postLoad gid regs sregs kregs ws) := by
  unfold State.postLoad State.modGroup
  split <;> exact .of_cores rfl rfl

theorem postLive_alive (s : State) (gid : Nat) (regs : List Nat) (ws : List RegWrite) :
    s.postLive gid regs ws 0 = s.postLoad gid regs [] [] ws := by
  simp [State.postLive]

/-- The state that a group's load leaves: it has read its places and been posted. -/
def State.loaded (s : State) (gid core : Nat) (buf : List BufLine) (sp : Space) (reads : List (Option Nat × List Nat))
    (regs sregs kregs : List Nat) (ws : List RegWrite) : State :=
  (s.readPlaces gid core buf sp reads).1.postLoad gid regs sregs kregs ws

/-- A group that has loaded is as before but for CNT.ST, and the load that is posted for it. -/
theorem loaded_group {s : State} {gid : Nat} {g : Group} (core : Nat) (buf : List BufLine) (sp : Space)
    (reads : List (Option Nat × List Nat)) (regs sregs kregs : List Nat) (ws : List RegWrite) (h : s.group? gid = some g) :
    ∃ c n, (s.loaded gid core buf sp reads regs sregs kregs ws).group? gid = some { g with
      cntSt := c, cntLd := g.cntLd + 1, pending := g.pending ++ [⟨n, true, regs, sregs, kregs, ws⟩] } := by
  obtain ⟨c, hc⟩ := (readPlaces_linesLeave s gid core buf sp reads).group gid g h
  exact ⟨c, _, postLoad_group regs sregs kregs ws hc⟩

theorem loaded_memoryKept {s : State} (gid core : Nat) (buf : List BufLine) (sp : Space) (reads : List (Option Nat × List Nat))
    (regs sregs kregs : List Nat) (ws : List RegWrite) (h : s.tenures = []) :
    MemoryKept s (s.loaded gid core buf sp reads regs sregs kregs ws) :=
  (readPlaces_free gid core buf sp reads h).trans (postLoad_memoryKept ..)

/-- What a group whose load is posted has still: every register, the registers that wait, and its replay state (R51, R52). -/
theorem posted_spec {g0 g : Group} (h : RegsSame g0 g) (hl : g.cntLd = g0.cntLd) (hp : g.pending = g0.pending) (c n lr : Nat)
    (regs sregs kregs : List Nat) (ws : List RegWrite) {k : Group} (hk : k = { g with
      cntSt := c, cntLd := g.cntLd + 1, pending := g.pending ++ [⟨n, true, regs, sregs, kregs, ws⟩], lrCount := lr }) :
    RegsSame g0 k ∧ LoadPosted g0 k regs sregs kregs ws ∧ k.ldxCount = g.ldxCount ∧ k.pm = g.pm := by
  subst hk
  exact ⟨⟨h.v, h.scalar, h.rmr, h.gsr, h.rng, h.traps, h.lanes⟩, ⟨by simp only [hl], n, by simp only [hp]⟩, rfl, rfl⟩

/-! ## LDX (R51, R52, R245) -/

/-- The group of an LDX whose lanes all translate: nothing is left to replay, and the issue of its PC is counted (R52). -/
def IC.ldxGroup (x : IC) (f : Foot) : Group :=
  { x.tracked f with
    pm := x.g.pmAfter x.cu.pc 0
    ldxCount := smSet 0 x.g.ldxCount x.cu.pc.toNat (x.g.ldxSeen x.cu.pc + 1) }

theorem ldxGroup_regsSame (x : IC) (f : Foot) : RegsSame x.g (x.ldxGroup f) :=
  ⟨⟨rfl, rfl⟩, ⟨rfl, rfl, rfl, rfl⟩, ⟨rfl, rfl⟩, rfl, rfl, ⟨rfl, rfl⟩, ⟨rfl, rfl, rfl⟩⟩

theorem ldxGroup_seen (x : IC) (f : Foot) : (x.ldxGroup f).ldxSeen x.cu.pc = x.g.ldxSeen x.cu.pc + 1 := by
  show smGet 0 (smSet 0 x.g.ldxCount x.cu.pc.toNat (x.g.ldxSeen x.cu.pc + 1)) x.cu.pc.toNat = _
  rw [smGet_smSet_self]

theorem ldxGroup_pm (x : IC) (f : Foot) : (x.ldxGroup f).pm = x.g.pmAfter x.cu.pc 0 := rfl

/-- The lanes that an LDX's replay mask leaves to it, with their addresses. -/
def IC.ldxLanes (x : IC) (o : Ops) : List (Nat × Int) :=
  (lanesOf (if x.g.replays x.cu.pc then x.act &&& x.g.pm.mask else x.act)).map fun l => (l, x.indexAddr o (accSpace o) l)

/-- The places that the lanes of a load by lane read. -/
def laneReads (ok : List (Nat × List Nat)) : List (Option Nat × List Nat) := ok.map fun p => (some p.1, p.2)

theorem execLdx_after {o : Ops} {s : State} {x : IC} {ok : List (Nat × List Nat)} (hp : Plain s o.g (footOf .ldx .w64 o) x)
    (hroom : x.g.cntLd < 63) (hgo : x.reach (accSpace o) (accSize o) .gather false (x.ldxLanes o) = .go ok [] [])
    {v : State} (hv : v = s.setGroup x.cu.gid (x.ldxGroup (footOf .ldx .w64 o x)))
    (hclean : (x.readLanes v (accSpace o) ok).2.2 = 0) :
    ∃ u g, exec (.ldx o) s = .next (x.after u ((u.group? x.cu.gid).getD g)) ∧
      u = (v.loaded x.cu.gid x.g.core x.g.buf (accSpace o) (laneReads ok) (run (x.g.opV o.d) (vRegs (accSize o))) [] []
        (loadWrites (x.g.opV o.d) (accSize o) (accSx o) (x.readLanes v (accSpace o) ok).2.1)).countClass3 x.cu.gid := by
  have hexec : exec (.ldx o) s = execLdx o s := rfl
  have hdead : x.g.poisonedLanes (x.g.foot .ldx .w64 o).rv x.act = 0 := hp.clean
  have hroom' : ¬ 63 ≤ (x.tracked (x.g.foot .ldx .w64 o)).cntLd := Nat.not_le.2 hroom
  have hv' : x.s.setGroup x.cu.gid { x.tracked (x.g.foot .ldx .w64 o) with
      pm := x.g.pmAfter x.cu.pc 0
      ldxCount := smSet 0 (x.tracked (x.g.foot .ldx .w64 o)).ldxCount x.cu.pc.toNat (x.g.ldxSeen x.cu.pc + 1) } = v := by
    rw [hv, ← hp.s_eq]
    rfl
  have hnone : (0 : Mask) ||| 0 = 0 := rfl
  unfold IC.ldxLanes at hgo
  rw [hexec]
  unfold execLdx
  rw [issueWith_ready hp.ic hp.ready]
  simp only [hroom', if_false, hdead, and_not_zero, hgo, maskOf_contains_nil, hv', hclean, hnone, postLive_alive,
    List.isEmpty_nil, if_true]
  exact ⟨_, _, retire_after .., rfl⟩

theorem pmAfter_replayed {g : Group} {pc : BitVec 57} (h : g.replays pc = true) :
    (g.pmAfter pc 0).valid = false ∧ (g.pmAfter pc 0).mask = 0 := by
  simp [Group.pmAfter, h]

theorem gatherLoads : Claims.GatherLoads := by
  intro o s x ok hp hroom hgo v hclean
  obtain ⟨u, g, hexec, hu⟩ := execLdx_after hp hroom hgo rfl hclean
  obtain ⟨c, n, hloaded⟩ := loaded_group x.g.core x.g.buf (accSpace o) (laneReads ok)
    (run (x.g.opV o.d) (vRegs (accSize o))) [] [] _ (State.setGroup_get_self s x.cu.gid (x.ldxGroup (footOf .ldx .w64 o x)))
  obtain ⟨lr, hcounted⟩ := countClass3_group hloaded
  rw [hu, hcounted, ← hu, Option.getD_some] at hexec
  obtain ⟨hregs, hposted, hcount, hpm⟩ := posted_spec (g0 := x.g) (g := x.ldxGroup (footOf .ldx .w64 o x))
    (ldxGroup_regsSame x _) rfl rfl c n lr _ [] [] _ rfl
  refine ⟨u, _, hexec, hregs, ?_, fun hreplays => ?_, hposted, fun hfree => ?_⟩
  · rw [Group.ldxSeen, hcount]
    exact ldxGroup_seen x _
  · rw [hpm]
    exact pmAfter_replayed hreplays
  · have hset : MemoryKept s (s.setGroup x.cu.gid (x.ldxGroup (footOf .ldx .w64 o x))) := .of_cores rfl rfl
    rw [hu]
    exact after_memoryKept x _ ((hset.trans (loaded_memoryKept _ _ _ _ _ _ _ _ _ hfree)).trans (countClass3_memoryKept ..))

/-! ## GRED .team (R71, R121, R170) -/

/-- The place of a byte that no buffer holds reads as the bank does (R44). -/
theorem seeByte_empty (sp : Space) (who : Option Nat) (a : Nat) (below : Byte × Bool) : seeByte [] sp who a below = below := rfl

/-- The bytes that one group-wide read of scratch finds, with nothing buffered and no poison. -/
theorem readPlaces_scratch {s : State} {core : Nat} (gid : Nat) (places : List Nat)
    (hclean : ∀ a, bankPoison (s.core core).scratch a = false) :
    s.readPlaces gid core [] .l [(none, places)] = (s, [places.map fun a => (bankByte (s.core core).scratch a, false)]) := by
  unfold State.readPlaces
  simp only [List.map_cons, List.map_nil, seeByte_empty, CoreSt.bank, hclean]
  rfl

/-- What GRED `.team` makes of the bytes that it has read: the result and its flags (R71, R170). -/
def IC.teamResult (x : IC) (o : Ops) (count : Nat) (bytes : List Byte) : List W64 × Fl :=
  let n := if mbit o.m 53 then 8 else 4
  redStages (redOp (mfld o.m 51 48) (mbit o.m 53) x.rnd) 4 ((List.range 16).map fun k =>
    if k < count then BitVec.ofNat 64 (leNat ((bytes.drop (n * k)).take n)) else redIdentity (mfld o.m 51 48) (mbit o.m 53))

/-- The state in which GRED `.team` has been posted. -/
def IC.teamPosted (x : IC) (o : Ops) (v : W64) : State :=
  let n := if mbit o.m 53 then 8 else 4
  (x.s.setGroup x.cu.gid (x.tracked (footOf .gred .w64 o x))).postLoad x.cu.gid (run (x.g.opV o.d) (n / 4)) [] []
    ((lanesOf x.act).flatMap fun l => resultWrites (x.g.opV o.d) n [(l, v)])

theorem teamPosted_group (x : IC) (o : Ops) (v : W64) : ∃ n, (x.teamPosted o v).group? x.cu.gid = some
    { x.tracked (footOf .gred .w64 o x) with
      cntLd := x.g.cntLd + 1
      pending := x.g.pending ++ [⟨n, true, run (x.g.opV o.d) ((if mbit o.m 53 then 8 else 4) / 4), [], [],
        (lanesOf x.act).flatMap fun l => resultWrites (x.g.opV o.d) (if mbit o.m 53 then 8 else 4) [(l, v)]⟩] } :=
  ⟨_, postLoad_group _ _ _ _ (State.setGroup_get_self ..)⟩

theorem teamPosted_memoryKept (x : IC) (o : Ops) (v : W64) : MemoryKept x.s (x.teamPosted o v) := by
  have hset : MemoryKept x.s (x.s.setGroup x.cu.gid (x.tracked (footOf .gred .w64 o x))) := .of_cores rfl rfl
  exact hset.trans (postLoad_memoryKept ..)

theorem execGredTeam_after {o : Ops} {s : State} {x : IC} {t : Team} {ok : List (Nat × List Nat)} {bad : List Nat}
    (hp : Plain s o.g (footOf .gred .w64 o) x) (hroom : x.g.cntLd < 63) (hteam : x.team = some t) (hbuf : x.g.buf = [])
    (hclean : ∀ a, bankPoison (s.core x.g.core).scratch a = false)
    (hgo : x.reach .l (16 * if mbit o.m 53 then 8 else 4) .load false [(0, ((x.val o.b false 0).toNat : Int))] = .go ok bad [])
    {r : List W64 × Fl} (hr : r = x.teamResult o (Shape.total t.shape)
      (((ok.map (·.2)).headD []).map fun a => bankByte (s.core x.g.core).scratch a)) :
    ∃ g u, u = x.teamPosted o (r.1.headD 0) ∧ exec (.gredTeam o) s = .next (x.after u
      { (u.group? x.cu.gid).getD g with gsr := ((u.group? x.cu.gid).getD g).gsr ||| r.2.bits }) := by
  have hexec : exec (.gredTeam o) s = execGredTeam o s := rfl
  have hroom' : ¬ 63 ≤ (x.tracked (x.g.foot .gred .w64 o)).cntLd := Nat.not_le.2 hroom
  have hcore : ((x.s.setGroup x.cu.gid (x.tracked (x.g.foot .gred .w64 o))).core x.g.core) = s.core x.g.core := by
    rw [hp.s_eq]
    rfl
  have hread := readPlaces_scratch (s := x.s.setGroup x.cu.gid (x.tracked (x.g.foot .gred .w64 o))) (core := x.g.core) x.cu.gid
    ((ok.map (·.2)).headD []) (by rw [hcore]; exact hclean)
  rw [hcore] at hread
  have hnone : (((ok.map (·.2)).headD []).map fun a => (bankByte (s.core x.g.core).scratch a, false)).any (·.2) = false := by
    simp
  have hvalues : (((ok.map (·.2)).headD []).map fun a => (bankByte (s.core x.g.core).scratch a, false)).map (·.1)
      = ((ok.map (·.2)).headD []).map fun a => bankByte (s.core x.g.core).scratch a := by
    simp
  refine ⟨x.tracked (footOf .gred .w64 o x), _, rfl, ?_⟩
  rw [hexec]
  unfold execGredTeam
  rw [issueWith_ready hp.ic hp.ready]
  simp only [hroom', if_false, hgo, hbuf, hread, List.headD_cons, hnone, hvalues, hteam, Option.map_some, Option.getD_some]
  subst hr
  exact retire_after ..

theorem teamReduction : Claims.TeamReduction := by
  intro o s x ok bad t hp hroom hteam hbuf hclean b64 n hgo bytes vals r
  obtain ⟨g, u, hu, hexec⟩ := execGredTeam_after hp hroom hteam hbuf hclean hgo (r := r) rfl
  obtain ⟨k, hposted⟩ := teamPosted_group x o (r.1.headD 0)
  rw [hu, hposted, Option.getD_some] at hexec
  refine ⟨_, _, hexec, rfl, rfl, rfl, rfl, rfl, rfl, after_memoryKept x _ ?_, rfl, k, rfl⟩
  rw [← hp.s_eq]
  exact teamPosted_memoryKept x o _

/-- Settles O28: an LDX posts the load of the lanes left to it; GRED `.team` reads scratch once and posts its result. -/
theorem gatherAndTeamReduction : Obligations.GatherAndTeamReduction := ⟨gatherLoads, teamReduction⟩

end Sys2Proof.Machine
end


section
/-!
PROOF. Walks, answers to fault records, discards and detected errors (R49, R50, R214, R215, R392, R408, R436).
-/

namespace Sys2Proof.Machine

/-! ## What the start of a discard leaves -/

/-- Every group is still there, with its registers, settings, flags and lanes as before. -/
def GroupsKeepRegs (s t : State) : Prop :=
  ∀ gid g, s.group? gid = some g → ∃ h, t.group? gid = some h ∧ RegsSame g h

namespace GroupsKeepRegs

theorem refl (s : State) : GroupsKeepRegs s s := fun _ g hg => ⟨g, hg, withAges_regsSame g g.ages⟩

theorem trans {s t u : State} (h1 : GroupsKeepRegs s t) (h2 : GroupsKeepRegs t u) : GroupsKeepRegs s u := by
  intro gid g hg
  obtain ⟨h, hh, hsame⟩ := h1 gid g hg
  obtain ⟨k, hk, hsame'⟩ := h2 gid h hh
  exact ⟨k, hk, hsame.trans hsame'⟩

theorem of_groups {s t : State} (h : t.groups = s.groups) : GroupsKeepRegs s t := fun _ g hg =>
  ⟨g, by rwa [State.group?, h], withAges_regsSame g g.ages⟩

theorem of_linesLeave {s t : State} (h : LinesLeave s t) : GroupsKeepRegs s t := by
  intro gid g hg
  obtain ⟨c, hc⟩ := h.group gid g hg
  exact ⟨_, hc, ⟨⟨rfl, rfl⟩, ⟨rfl, rfl, rfl, rfl⟩, ⟨rfl, rfl⟩, rfl, rfl, ⟨rfl, rfl⟩, rfl, rfl, rfl⟩⟩

/-- A group takes the place of one with its registers. -/
theorem setGroup {s : State} {gid : Nat} {g h : Group} (hg : s.group? gid = some g) (hsame : RegsSame g h) :
    GroupsKeepRegs s (s.setGroup gid h) := by
  intro n k hk
  by_cases hn : n = gid
  · subst hn
    rw [hg] at hk
    cases hk
    exact ⟨h, by simp, hsame⟩
  · exact ⟨k, by rw [State.setGroup_get_ne _ _ hn, hk], withAges_regsSame k k.ages⟩

theorem modGroup {s : State} {gid : Nat} {f : Group → Group} (hf : ∀ g, RegsSame g (f g)) :
    GroupsKeepRegs s (s.modGroup gid f) := by
  unfold State.modGroup
  cases hg : s.group? gid with
  | none => exact refl s
  | some g => exact setGroup hg (hf g)

end GroupsKeepRegs

/-- The end of an operation that raises no flag changes no register of its group. -/
theorem finishTile_keepsRegs (s : State) (o : TileOp) : GroupsKeepRegs s (s.finishTile o 0) := by
  refine .modGroup fun g => ?_
  split
  · exact withAges_regsSame g g.ages
  · exact ⟨⟨rfl, rfl⟩, ⟨rfl, rfl, rfl, rfl⟩, ⟨rfl, rfl⟩, by simp, rfl, ⟨rfl, rfl⟩, rfl, rfl, rfl⟩

theorem settleC_linesLeave (s : State) (core : Nat) (ranges : List (Nat × Nat)) : LinesLeave s (s.settleC core ranges) :=
  drainLines_linesLeave ..

theorem clearSlots_keepsRegs (s : State) (o : TileOp) : GroupsKeepRegs s (s.clearSlots o) :=
  ((GroupsKeepRegs.of_linesLeave (settleC_linesLeave s _ _)).trans
    (.of_groups rfl : GroupsKeepRegs (s.settleC o.core o.cRanges) (State.setCore _ _ _))).trans (finishTile_keepsRegs _ o)

theorem settleClears_keepsRegs (n : Nat) (s : State) (engine : Nat) : GroupsKeepRegs s (settleClears n s engine) := by
  induction n generalizing s with
  | zero => exact .refl s
  | succ n ih =>
    unfold settleClears
    simp only
    split
    · exact .refl s
    next o _ =>
      have htaken : GroupsKeepRegs s (s.setMatrix engine
          { s.matrixEng engine with clears := (s.matrixEng engine).clears.filter (·.id != o.id) }) := .of_groups rfl
      exact (htaken.trans (clearSlots_keepsRegs _ o)).trans (ih _)

/-- With no CZERO waiting none is performed. -/
theorem runClears_none {s : State} {engine : Nat} (h : (s.matrixEng engine).clears = []) : s.runClears engine = s := by
  unfold State.runClears
  rw [h]
  rfl

theorem withdraw_keepsRegs (s : State) (gid : Nat) : GroupsKeepRegs s (s.withdraw gid) := by
  unfold State.withdraw
  split
  · exact .refl s
  next g hg =>
    refine GroupsKeepRegs.trans ?_ (settleClears_keepsRegs _ _ _)
    refine (GroupsKeepRegs.of_groups rfl).trans (.setGroup (g := g) (by simpa using hg) ?_)
    exact ⟨⟨rfl, rfl⟩, ⟨rfl, rfl, rfl, rfl⟩, ⟨rfl, rfl⟩, rfl, rfl, ⟨rfl, rfl⟩, rfl, rfl, rfl⟩

/-- With no CZERO waiting at its engine, the withdrawal of a group's requests changes no memory. -/
theorem withdraw_memoryKept {s : State} {gid : Nat} {g : Group} (hg : s.group? gid = some g)
    (hc : (s.matrixEng (engineOfCore g.core)).clears = []) : MemoryKept s (s.withdraw gid) := by
  unfold State.withdraw
  simp only [hg]
  rw [runClears_none (by simpa using hc)]
  exact .of_cores rfl rfl

/-- A group whose region is to be discarded stops to issue; its registers are as before (R50). -/
theorem startDiscard_spec {s : State} {gid : Nat} {g : Group} (cause : Nat) (hg : s.group? gid = some g) :
    ∃ h, (s.startDiscard gid cause).group? gid = some h ∧ h.status = .discarding cause ∧ RegsSame g h ∧
      ((s.matrixEng (engineOfCore g.core)).clears = [] → MemoryKept s (s.startDiscard gid cause)) := by
  obtain ⟨k, hk, hsame⟩ := withdraw_keepsRegs s gid gid g hg
  unfold State.startDiscard
  simp only [hk]
  exact ⟨{ k with status := .discarding cause }, by simp, rfl,
    hsame.trans ⟨⟨rfl, rfl⟩, ⟨rfl, rfl, rfl, rfl⟩, ⟨rfl, rfl⟩, rfl, rfl, ⟨rfl, rfl⟩, rfl, rfl, rfl⟩,
    fun hc => (withdraw_memoryKept hg hc).trans (.of_cores rfl rfl)⟩

/-! ## Walks and answers -/

theorem walkComplete_ends {s : State} {n : Nat} {w : Walk} (hw : s.walks.find? (·.id == n) = some w)
    (hready : s.walkReady w = true) (hmeets : s.walkMeets w.ctx (w.page * 4096) = false) :
    exec (.walkComplete n) s = .next (s.endWalk w) := by
  have hexec : exec (.walkComplete n) s = execWalkComplete n s := rfl
  simp [hexec, execWalkComplete, hw, hready, hmeets]

/-- The answer that is rung for closes its record, and its waiters act on it (R214, R294). -/
theorem answerRecord_acts {s : State} {c slot want : Nat} {f : FaultRec} (act : State → FaultRec → State)
    (hf : (s.ctx c).records.find? (·.slot == slot) = some f) (ha : s.answerOf c slot = want) :
    answerRecord want act c slot s = .next (act (s.closeRecord c f.seq) f) := by
  simp [answerRecord, hf, ha]

theorem faultRetry_next {s : State} {c slot : Nat} {f : FaultRec} (hf : (s.ctx c).records.find? (·.slot == slot) = some f)
    (ha : s.answerOf c slot = 1) : exec (.faultRetry c slot) s
      = .next (f.waiters.foldl (fun u w => u.retryWaiter f w) ((s.closeRecord c f.seq).dropTlb c (·.covers c f.va))) := by
  have hexec : exec (.faultRetry c slot) s = execFaultRetry c slot s := rfl
  rw [hexec, execFaultRetry, answerRecord_acts _ hf ha]

theorem faultDeny_next {s : State} {c slot : Nat} {f : FaultRec} (hf : (s.ctx c).records.find? (·.slot == slot) = some f)
    (ha : s.answerOf c slot = 2) : exec (.faultDeny c slot) s
      = .next (f.waiters.foldl (fun u w => u.denyWaiter f w) (s.closeRecord c f.seq)) := by
  have hexec : exec (.faultDeny c slot) s = execFaultDeny c slot s := rfl
  rw [hexec, execFaultDeny, answerRecord_acts _ hf ha]

/-! ## The end of a discard -/

theorem regionDiscard_ends {s : State} {gid cause : Nat} {g h : Group} (hg : s.group? gid = some g)
    (hst : g.status = .discarding cause) (hld : g.cntLd = 0) (hops : s.openOps gid = [])
    (hh : (s.discard gid cause).group? gid = some h) (hhalt : h.status ≠ .halted) :
    exec (.regionDiscard gid) s = .next (if g.again then
      ((s.discard gid cause).setGroup gid { h with again := false }).startDiscard gid 2
      else (s.discard gid cause).resolveFaults gid) := by
  have hexec : exec (.regionDiscard gid) s = execRegionDiscard gid s := rfl
  simp only [hexec, execRegionDiscard, hg, hst, hld, hops, hh, hhalt]
  rw [if_neg (by simp), if_neg not_false]
  cases g.again <;> rfl

/-- A group that runs waits for no answer. -/
theorem resolveFaults_running {s : State} {gid : Nat} {g : Group} (hg : s.group? gid = some g) (hst : g.status = .running) :
    s.resolveFaults gid = s := by
  simp [State.resolveFaults, hg, hst]

/-! ## Detected errors -/

theorem recoverableError_next {s t : State} {gid : Nat} {g : Group} (hg : s.group? gid = some g)
    (ht : s.detectedError gid g = some t) :
    exec (.recoverableError gid) s = .next { t with issue := t.issue.filter (·.gid != gid) } := by
  have hexec : exec (.recoverableError gid) s = execRecoverableError gid s := rfl
  simp only [hexec, execRecoverableError, hg, ht]

/-- An error in the open region of a group, or of one that waits for answers, starts a discard (R49, R436). -/
theorem detectedError_discards {s : State} {gid : Nat} {g : Group} (hev : g.evicted = false)
    (hst : (g.status = .running ∧ g.inRegion = true) ∨ g.status = .faultWait) :
    s.detectedError gid g = some (s.startDiscard gid 2) := by
  rcases hst with ⟨hrun, hin⟩ | hwait
  · simp [State.detectedError, hev, hrun, hin]
  · simp [State.detectedError, hev, hwait]

theorem uncorrectableError_next {s u : State} {loc : ErrLoc} {d : Nat} (h : s.spoil loc = some (u, d)) :
    exec (.uncorrectableError loc) s = .next (u.logBox d 5 0 (s.errorCtx loc) (BitVec.ofNat 64 (s.errorPlace loc).1)
      (BitVec.ofNat 64 (s.errorPlace loc).2) (boxData (u.errorCounts loc (s.errorPlace loc).1))) := by
  have hexec : exec (.uncorrectableError loc) s = execUncorrectableError loc s := rfl
  simp only [hexec, execUncorrectableError, h]

theorem bankByte_spoil (b : Bank) (off n a : Nat) : bankByte (bankSpoil b off n) a = bankByte b a :=
  foldl_keeps (fun c => bankByte c a = bankByte b a) _ (fun c x h => by simpa using h) _ _ rfl

/-- Marking bytes poisons them and leaves the poison of every other byte. -/
theorem bankPoison_markAll (l : List Nat) (b : Bank) (a : Nat) :
    bankPoison (l.foldl (fun b a => bankMark b a true) b) a = (bankPoison b a || decide (a ∈ l)) := by
  induction l generalizing b with
  | nil => simp
  | cons c l ih =>
    rw [List.foldl_cons, ih, bankPoison_mark]
    by_cases hac : a = c <;> simp [hac]

theorem bankPoison_spoil (b : Bank) (off n a : Nat) :
    bankPoison (bankSpoil b off n) a = (bankPoison b a || decide (off ≤ a ∧ a < off + n)) := by
  have hmem : a ∈ run off n ↔ off ≤ a ∧ a < off + n := by
    simp only [run, List.mem_map, List.mem_range]
    exact ⟨fun ⟨i, hi, he⟩ => by omega, fun h => ⟨a - off, by omega, by omega⟩⟩
  rw [bankSpoil, bankPoison_markAll, decide_eq_decide.2 hmem]

theorem spoil_memory (s : State) {pa n : Nat} (h : pa + n ≤ Config.physEnd) :
    s.spoil (.memory pa n) = some ({ s.rowFaults pa n with mem := bankSpoil s.mem pa n }, homeDie pa) :=
  if_neg (Nat.not_lt.2 h)

/-! ## The timeout of an invalidation -/

theorem invalidationTimeout_discards {s : State} {gid : Nat} {g : Group} {v : Inval} (hv : s.host.inval = some v)
    (hg : s.group? gid = some g) (hlate : v.asOf.getD (dieOfCore g.core) 0 + 65536 ≤ (s.die (dieOfCore g.core)).cycle.toNat)
    (hheld : v.held.contains (gid, g.regionNo) = true) (hrange : g.holdsRange v = true) (hev : g.evicted = false)
    (hst : g.status = .running) (hin : g.inRegion = true) :
    exec (.invalidationTimeout gid) s = .next ((({ s with issue := s.issue.filter (·.gid != gid) } : State).setGroup gid
      { g with faultRecs := [] }).startDiscard gid 1) := by
  have hexec : exec (.invalidationTimeout gid) s = execInvalidationTimeout gid s := rfl
  simp only [hexec, execInvalidationTimeout, hv, hg, hheld, hrange, hev, hst, hin, decide_eq_true hlate]
  rfl

/-! ## The obligation -/

/-- Settles O42, one event at a time; the start of a discard changes registers neither by the withdrawal of requests nor by the
CZEROs that go on with it. -/
theorem walksAnswersAndErrors : Obligations.WalksAnswersAndErrors := by
  unfold Obligations.WalksAnswersAndErrors
  refine ⟨fun s n w hw hready hmeets => walkComplete_ends hw hready hmeets,
    fun s c slot f hf => ⟨faultRetry_next hf, faultDeny_next hf⟩, ?_, ?_,
    fun s u loc d h => uncorrectableError_next h, ?_, ?_⟩
  · intro s gid cause g h hg hst hld hops hh hhalt
    have hend := regionDiscard_ends hg hst hld hops hh hhalt
    refine ⟨fun hagain => by simpa [hagain] using hend, fun hagain => by simpa [hagain] using hend, fun hagain hrun => ?_⟩
    simpa [hagain, resolveFaults_running hh hrun] using hend
  · intro s gid g hg hev
    refine ⟨fun hrun hin => recoverableError_next hg (by simp [State.detectedError, hev, hrun, hin]), fun hst => ?_,
      fun c hdis => recoverableError_next hg (by simp [State.detectedError, hev, hdis])⟩
    obtain ⟨h, hh, hdisc, hsame, hmem⟩ := startDiscard_spec 2 hg
    exact ⟨_, h, recoverableError_next hg (detectedError_discards hev hst), hh, hdisc, hsame,
      fun hc => (hmem hc).trans (.of_cores rfl rfl)⟩
  · intro s pa n hle
    exact ⟨_, uncorrectableError_next (spoil_memory s hle), bankByte_spoil s.mem pa n, bankPoison_spoil s.mem pa n⟩
  · intro s gid g v hv hg hlate hheld hrange hev hst hin
    obtain ⟨h, hh, hdisc, -, -⟩ := startDiscard_spec (s := (({ s with issue := s.issue.filter (·.gid != gid) } : State).setGroup
      gid { g with faultRecs := [] })) (gid := gid) 1 (State.setGroup_get_self _ _ _)
    exact ⟨_, h, invalidationTimeout_discards hv hg hlate hheld hrange hev hst hin, hh, hdisc⟩

end Sys2Proof.Machine
end


section
/-!
PROOF. The posting of a pass: MMA, MMAX and MMS (R260, R262, R266 to R269).
-/

namespace Sys2Proof.Machine

/-! ## A posted operation -/

theorem giveWork_matrixEng (s : State) (ctx code n : Nat) : (s.giveWork ctx code).matrixEng n = s.matrixEng n := by
  unfold State.giveWork
  simp only
  split <;> rfl

theorem giveWork_group (s : State) (ctx code gid : Nat) : (s.giveWork ctx code).group? gid = s.group? gid := by
  unfold State.giveWork
  simp only
  split <;> rfl

theorem giveWork_memoryKept (s : State) (ctx code : Nat) : MemoryKept s (s.giveWork ctx code) := by
  unfold State.giveWork
  simp only
  split <;> exact .of_cores rfl rfl

theorem countOp_matrixEng (s : State) (gid n : Nat) : (s.countOp gid).matrixEng n = s.matrixEng n := by
  unfold State.countOp State.modGroup
  split <;> rfl

theorem countOp_memoryKept (s : State) (gid : Nat) : MemoryKept s (s.countOp gid) := by
  unfold State.countOp State.modGroup
  split <;> exact .of_cores rfl rfl

/-- A tile operation that is counted is one more in its group's CNT.TL (R262). -/
theorem countOp_group {s : State} {gid : Nat} {g : Group} (h : s.group? gid = some g) :
    (s.countOp gid).group? gid = some { g with cntTl := g.cntTl + 1 } := by
  rw [State.countOp, modGroup_eq _ h]
  exact State.setGroup_get_self ..

/-- An operation of a group whose context's stop has not halted the engine joins the engine's requests (R396). -/
theorem postOp_working {s : State} {engine : Nat} {op : TileOp} {g : Group} (hg : s.group? op.gid = some g)
    (hhalt : s.haltedAt g.ctx (matrixCode engine) = false) :
    s.postOp engine op = ((s.setMatrix engine { s.matrixEng engine with
      requests := (s.matrixEng engine).requests ++ [op] }).countOp op.gid).giveWork g.ctx (matrixCode engine) := by
  have hctx : s.ctxOf op.gid = g.ctx := by simp [State.ctxOf, hg]
  rw [State.postOp, hctx, hhalt, if_neg Bool.false_ne_true]

/-- The state in which a pass has been posted, by its engine and its operation, once its group is as `g`. -/
def IC.passPosted (x : IC) (g : Group) (op : TileOp) : State := (x.s.setGroup x.cu.gid g).postOp x.g.engine op

/-- A posted operation is the last of its engine's requests, and counts in its group's CNT.TL; no memory changes (R260, R262). -/
theorem passPosted_spec {x : IC} {g : Group} {op : TileOp} (hop : op.gid = x.cu.gid)
    (hhalt : x.s.haltedAt g.ctx (matrixCode x.g.engine) = false) :
    ((x.passPosted g op).matrixEng x.g.engine).requests = (x.s.matrixEng x.g.engine).requests ++ [op] ∧
      (x.passPosted g op).group? x.cu.gid = some { g with cntTl := g.cntTl + 1 } ∧ MemoryKept x.s (x.passPosted g op) := by
  have hgroup : (x.s.setGroup x.cu.gid g).group? op.gid = some g := by simp [hop]
  unfold IC.passPosted
  rw [postOp_working hgroup hhalt, hop]
  refine ⟨?_, ?_, MemoryKept.trans ?_ ((countOp_memoryKept _ _).trans (giveWork_memoryKept _ _ _))⟩
  · rw [giveWork_matrixEng, countOp_matrixEng, State.setMatrix_get_self]
    rfl
  · rw [giveWork_group, countOp_group (g := g) (by simp)]
  · exact .of_cores rfl rfl

/-! ## The checks of a pass, in their order (R266) -/

section Checks
variable {x : IC} {op : Op} {p : TileOp} {illegal : Bool} {fl : Fl} {g : Group}

theorem postPass_illegal (h : (illegal || fmtIllegal p.fmt0.toNat p.fmt1.toNat) = true) :
    x.postPass op p illegal fl g 0 = x.fault 0x08 p.fmt0.toNat p.fmt1.toNat := by
  simp only [IC.postPass, h, if_true]

theorem postPass_outside (h : (illegal || fmtIllegal p.fmt0.toNat p.fmt1.toNat) = false) {b : Space × Nat}
    (hb : firstBadBuf x.team p.spans = some b) : x.postPass op p illegal fl g 0 = x.fault 0x06 b.2 (spaceCode b.1) := by
  simp only [IC.postPass, h, hb, Bool.false_eq_true, if_false]

theorem postPass_deadHandle (h : (illegal || fmtIllegal p.fmt0.toNat p.fmt1.toNat) = false) (hb : firstBadBuf x.team p.spans = none)
    (hne : p.handle ≠ 0) (hdead : ((x.s.ctx x.g.ctx).liveHandle p.handle).isNone = true) :
    x.postPass op p illegal fl g 0 = x.fault 0x07 p.handle op.code := by
  simp only [IC.postPass, h, hb, hdead, hne, Bool.false_eq_true, if_false, ne_eq, not_false_eq_true, decide_true, Bool.and_self, if_true]

/-- A pass whose format, ranges and handle are good comes to the check of its C slots (R47). -/
theorem postPass_slots (h : (illegal || fmtIllegal p.fmt0.toNat p.fmt1.toNat) = false) (hb : firstBadBuf x.team p.spans = none)
    (hh : p.handle = 0 ∨ ((x.s.ctx x.g.ctx).liveHandle p.handle).isSome = true) :
    x.postPass op p illegal fl g 0 = match (g.track.passSlots p.z p.slotBytes).1 with
      | some n => x.fault 0x04 (n + 0x1000) 1
      | none =>
        let g : Group := { g with gsr := g.gsr ||| fl.bits, track := (g.track.passSlots p.z p.slotBytes).2 }
        .next (x.after (x.passPosted g p) (((x.passPosted g p).group? x.cu.gid).getD g)) := by
  have hlive : (p.handle ≠ 0 && ((x.s.ctx x.g.ctx).liveHandle p.handle).isNone) = false := by
    rcases hh with h0 | hs
    · simp [h0]
    · simp only [Option.isNone_eq_false_iff.2 hs, Bool.and_false]
  simp only [IC.postPass, h, hb, hlive, Bool.false_eq_true, if_false]
  rfl

end Checks

/-! ## The rows -/

/-- The issue of a pass instruction is the check for room and the posting of the row's operation: without poison no lane dies of
an index of MMAX. -/
theorem passRows_exec {r : Claims.PassRow} (hr : r ∈ Claims.passRows) {o : Ops} {s : State} {x : IC}
    (hx : Plain s o.g (Claims.footOf r.op .w64 o) x) (hclean : x.g.vpoison = []) :
    exec (r.con o) s = if !x.canPost then .next s
      else x.postPass r.op (r.pass x o) (r.bad x o) (x.tiles o.b).2 (x.tracked (Claims.footOf r.op .w64 o x)) 0 := by
  rw [← stall_eq hx.ic]
  simp only [Claims.passRows, List.mem_cons, List.not_mem_nil, or_false] at hr
  rcases hr with rfl | rfl | rfl
  · have hexec : exec (.mma o) s = execMma o s := rfl
    rw [hexec, execMma, issueWith_ready hx.ic hx.ready]
    rfl
  · have hexec : exec (.mmax o) s = execMmax o s := rfl
    have hdie (rs : List Nat) : x.g.poisonedLanes rs x.g.live = 0 := by simp [Group.poisonedLanes, hclean]
    rw [hexec, execMmax, issueWith_ready hx.ic hx.ready]
    simp only [hdie, and_not_zero]
    rfl
  · have hexec : exec (.mms o) s = execMms o s := rfl
    rw [hexec, execMms, issueWith_ready hx.ic hx.ready]
    rfl

/-- Every row's operation is its own group's. -/
theorem passRows_gid {r : Claims.PassRow} (hr : r ∈ Claims.passRows) (x : IC) (o : Ops) : (r.pass x o).gid = x.cu.gid := by
  simp only [Claims.passRows, List.mem_cons, List.not_mem_nil, or_false] at hr
  rcases hr with rfl | rfl | rfl <;> rfl

/-! ## The obligation -/

/-- Settles O29: the three instructions share one posting, whose checks are taken in their order. -/
theorem passesPost : Obligations.PassesPost := by
  intro r hr o s x hx hclean
  have hs := hx.s_eq
  have hexec := passRows_exec hr hx hclean
  refine ⟨fun hroom => by simpa [hroom] using hexec, fun hroom hbad => ?_, fun hroom hgood hhalt => ⟨fun b hb => ?_, fun hb =>
    ⟨fun hne hdead => ?_, fun hlive => ?_⟩⟩⟩ <;> rw [hexec, hroom, Bool.not_true, if_neg Bool.false_ne_true]
  · exact postPass_illegal hbad
  · exact postPass_outside hgood hb
  · exact postPass_deadHandle hgood hb hne (by rwa [hs])
  · rw [postPass_slots hgood hb (by rwa [hs])]
    refine ⟨fun n hn => by rw [hn], fun hn => ?_⟩
    subst hs
    rw [hn]
    obtain ⟨hreq, hgroup, hmem⟩ := passPosted_spec (x := x) (g := { x.tracked (Claims.footOf r.op .w64 o x) with
      gsr := (x.tracked (Claims.footOf r.op .w64 o x)).gsr ||| (x.tiles o.b).2.bits
      track := ((x.tracked (Claims.footOf r.op .w64 o x)).track.passSlots (r.pass x o).z (r.pass x o).slotBytes).2 })
      (passRows_gid hr x o) hhalt
    exact ⟨_, _, rfl, ⟨hreq, by rw [hgroup]; rfl⟩, by rw [hgroup]; rfl, by rw [hgroup]; rfl, by rw [hgroup]; rfl,
      by rw [hgroup]; rfl, by rw [hgroup]; rfl, by rw [hgroup]; rfl, by rw [hgroup]; rfl, hmem⟩

end Sys2Proof.Machine
end


section
/-!
PROOF. CZERO (R47, R262, R263, R271): the posting of a clear, and what its performance leaves.
-/

namespace Sys2Proof.Machine

/-! ## Lines of a core's own memories -/

/-- Device memory, the matrix engines and every core's memories are the same. -/
structure BanksSame (s t : State) : Prop where
  mem : t.mem = s.mem
  matrix : t.matrix = s.matrix
  bank : ∀ n sp, (t.core n).bank sp = (s.core n).bank sp

theorem BanksSame.trans {s t u : State} (h1 : BanksSame s t) (h2 : BanksSame t u) : BanksSame s u :=
  ⟨h2.mem.trans h1.mem, h2.matrix.trans h1.matrix, fun n sp => (h2.bank n sp).trans (h1.bank n sp)⟩

theorem BanksSame.refl (s : State) : BanksSame s s := ⟨rfl, rfl, fun _ _ => rfl⟩

theorem modGroup_banksSame (s : State) (gid : Nat) (f : Group → Group) : BanksSame s (s.modGroup gid f) := by
  unfold State.modGroup
  split
  · exact .refl s
  · exact ⟨rfl, rfl, fun _ _ => rfl⟩

/-- A line of a core's own memories has its bytes there already: its acknowledgement only counts (R375). -/
theorem ackLine_banksSame (s : State) {o : OutLine} (h : o.space ≠ .g) : BanksSame s (s.ackLine o) := by
  have hspace : (o.space == .g) = false := by simpa using h
  unfold State.ackLine
  simp only [hspace, Bool.false_eq_true, if_false]
  split
  · exact .refl s
  · exact modGroup_banksSame ..

/-- The lines that may not be overtaken lie in the spaces of those that leave (R218). -/
theorem inOrder_space {p : OutLine → Bool} {sp : Space} (hp : ∀ o, p o = true → o.space = sp) {l : List OutLine} :
    ∀ q ∈ inOrder p l, q.2 = true → q.1.space = sp := by
  induction l with
  | nil => intro q hq; cases hq
  | cons o rest ih =>
    intro q hq hout
    rcases List.mem_cons.1 hq with rfl | hq
    · rw [Bool.or_eq_true] at hout
      rcases hout with ho | hlater
      · exact hp o ho
      · obtain ⟨r, hr, hmeets⟩ := List.any_eq_true.1 hlater
        simp only [Bool.and_eq_true, beq_iff_eq] at hmeets
        obtain ⟨⟨hrout, hspace⟩, -⟩ := hmeets
        rw [← hspace]
        exact ih r hr hrout
    · exact ih q hq hout

theorem setOutbound_banksSame (s : State) (core : Nat) (out : List OutLine) :
    BanksSame s (s.setCore core { s.core core with outbound := out }) := by
  refine ⟨rfl, rfl, fun n sp => ?_⟩
  rw [State.setCore_get]
  split
  next heq => subst heq; cases sp <;> rfl
  next => rfl

theorem drainLines_banksSame (s : State) (core : Nat) {p : OutLine → Bool} {sp : Space} (hsp : sp ≠ .g)
    (hp : ∀ o, p o = true → o.space = sp) : BanksSame s (s.drainLines core p) := by
  unfold State.drainLines
  simp only
  split
  · exact .refl s
  · refine foldl_keeps_mem (BanksSame s) _ _ (fun t o ho h => h.trans (ackLine_banksSame t ?_)) _ (setOutbound_banksSame ..)
    obtain ⟨q, hq, rfl⟩ := List.mem_map.1 ho
    obtain ⟨hmem, hout⟩ := List.mem_filter.1 hq
    rw [inOrder_space hp q hmem hout]
    exact hsp

theorem settleC_banksSame (s : State) (core : Nat) (ranges : List (Nat × Nat)) : BanksSame s (s.settleC core ranges) :=
  drainLines_banksSame (sp := .c) s core (by decide) fun o ho => by
    simp only [onLinesOf, Bool.and_eq_true, beq_iff_eq] at ho
    exact ho.1

/-! ## Cleared bytes -/

theorem smFind_filter_key {α : Type} (p : Nat → Bool) (m : SMap α) (k : Nat) :
    smFind (m.filter fun kv => p kv.1) k = if p k then smFind m k else none := by
  induction m with
  | nil => simp [smFind]
  | cons e t ih =>
    obtain ⟨j, v⟩ := e
    by_cases hk : k = j
    · subst hk
      cases hp : p k <;> simp [hp, smFind, ih]
    · cases hp : p j <;> simp [hp, smFind, ih, hk]

theorem bankByte_clear (b : Bank) (off n a : Nat) :
    bankByte (bankClear b off n) a = if off ≤ a ∧ a < off + n then 0 else bankByte b a := by
  have hfind := smFind_filter_key (fun k => !(off ≤ k && k < off + n)) b.bytes a
  unfold bankByte bankClear smGet
  rw [hfind]
  by_cases ha : off ≤ a ∧ a < off + n
  · simp [ha]
  · rw [if_neg ha, if_pos (by simp; omega)]

theorem bankByte_clearAll (offs : List Nat) (b : Bank) (n a : Nat) :
    bankByte (offs.foldl (fun b off => bankClear b off n) b) a
      = if offs.any (fun off => decide (off ≤ a) && decide (a < off + n)) then 0 else bankByte b a := by
  induction offs generalizing b with
  | nil => rfl
  | cons off rest ih =>
    rw [List.foldl_cons, ih, bankByte_clear, List.any_cons]
    by_cases hrest : rest.any (fun off => decide (off ≤ a) && decide (a < off + n)) = true
    · simp [hrest]
    · by_cases ha : off ≤ a ∧ a < off + n <;> simp [hrest, ha]

/-! ## A clear that is posted (R262, R263, R271) -/

/-- A clear does not wait for itself. -/
theorem grantable_withClear (e : MatrixEng) (o : TileOp) :
    ({ e with clears := e.clears ++ [o] } : MatrixEng).grantable o = e.grantable o := by
  simp [MatrixEng.grantable, MatrixEng.pending, MatrixEng.all, List.any_append]

/-- Where one CZERO waits at an engine, it is performed if nothing stands before it, and waits on otherwise. -/
theorem runClears_one {s : State} {engine : Nat} {o : TileOp} (h : (s.matrixEng engine).clears = [o]) :
    s.runClears engine = if (s.matrixEng engine).grantable o then
      (s.setMatrix engine { s.matrixEng engine with clears := [] }).clearSlots o else s := by
  unfold State.runClears
  rw [h]
  unfold settleClears
  simp only [h, List.find?_cons, List.find?_nil]
  cases hgrant : (s.matrixEng engine).grantable o with
  | false => rfl
  | true => simp [settleClears]

/-- An operation that is complete without a flag counts its group's CNT.TL down, and nothing waits for it (R117, R262). -/
theorem finishTile_group {s : State} {o : TileOp} {g : Group} (hg : s.group? o.gid = some g) (hrun : g.status ≠ .halted) :
    (s.finishTile o 0).group? o.gid = some { g with
      cntTl := g.cntTl - 1, pending := g.pending.filter (·.id != o.id) } := by
  rw [State.finishTile, modGroup_eq _ hg, State.setGroup_get_self, if_neg hrun]
  simp

/-- The performance of a clear clears its slots in its core's C-buffer and no other memory; its group, which has not halted, is as
before but for CNT.ST, CNT.TL and the registers that waited (R262, R271). -/
theorem clearSlots_spec {s : State} {o : TileOp} {g : Group} (hg : s.group? o.gid = some g) (hrun : g.status ≠ .halted) :
    (s.clearSlots o).mem = s.mem ∧ (s.clearSlots o).matrix = s.matrix ∧
      (∀ a, bankByte ((s.clearSlots o).core o.core).cbuf a =
        if o.slots.any (fun off => decide (off ≤ a) && decide (a < off + 4096)) then 0 else bankByte (s.core o.core).cbuf a) ∧
      ∃ c, (s.clearSlots o).group? o.gid = some { g with
        cntSt := c, cntTl := g.cntTl - 1, pending := g.pending.filter (·.id != o.id) } := by
  have hsettled := settleC_banksSame s o.core o.cRanges
  obtain ⟨c, hc⟩ := (settleC_linesLeave s o.core o.cRanges).group o.gid g hg
  have hfinish (u : State) : BanksSame u (u.finishTile o 0) := modGroup_banksSame ..
  unfold State.clearSlots
  simp only
  refine ⟨(hfinish _).mem.trans hsettled.mem, (hfinish _).matrix.trans hsettled.matrix, fun a => ?_, c, ?_⟩
  · have hbank := (hfinish ((s.settleC o.core o.cRanges).setCore o.core { (s.settleC o.core o.cRanges).core o.core with
      cbuf := o.slots.foldl (fun b off => bankClear b off 4096) ((s.settleC o.core o.cRanges).core o.core).cbuf })).bank o.core .c
    have hbefore : ((s.settleC o.core o.cRanges).core o.core).cbuf = (s.core o.core).cbuf := hsettled.bank o.core .c
    simp only [CoreSt.bank, State.setCore_get_self] at hbank
    rw [hbank, bankByte_clearAll, hbefore]
  · exact finishTile_group (g := { g with cntSt := c }) (by simpa using hc) hrun

/-- What the posting of a clear at an engine where none waits does: the group counts it, and where nothing stands before it it is
performed at once. -/
theorem postClear_spec {s : State} {engine : Nat} {o : TileOp} {g : Group} (hg : s.group? o.gid = some g)
    (hrun : g.status ≠ .halted) (hnone : (s.matrixEng engine).clears = []) :
    (s.postClear engine o).mem = s.mem ∧
      ((s.matrixEng engine).grantable o = true → ((s.postClear engine o).matrixEng engine).clears = [] ∧
        (∀ a, bankByte ((s.postClear engine o).core o.core).cbuf a =
          if o.slots.any (fun off => decide (off ≤ a) && decide (a < off + 4096)) then 0 else bankByte (s.core o.core).cbuf a) ∧
        ∃ c p, (s.postClear engine o).group? o.gid = some { g with cntSt := c, pending := p }) ∧
      ((s.matrixEng engine).grantable o = false → ((s.postClear engine o).matrixEng engine).clears = [o] ∧
        (s.postClear engine o).cores = s.cores ∧
        (s.postClear engine o).group? o.gid = some { g with cntTl := g.cntTl + 1 }) := by
  have hposted : (s.setMatrix engine { s.matrixEng engine with clears := (s.matrixEng engine).clears ++ [o] }).group? o.gid
      = some g := by simpa using hg
  have hgroup := countOp_group hposted
  have hmatrix := countOp_matrixEng (s.setMatrix engine { s.matrixEng engine with
    clears := (s.matrixEng engine).clears ++ [o] }) o.gid engine
  have hsame : ∀ u : State, (u.countOp o.gid).mem = u.mem ∧ (u.countOp o.gid).cores = u.cores := fun u => by
    unfold State.countOp State.modGroup
    split <;> exact ⟨rfl, rfl⟩
  rw [State.setMatrix_get_self] at hmatrix
  unfold State.postClear
  simp only
  generalize hv : (s.setMatrix engine { s.matrixEng engine with clears := (s.matrixEng engine).clears ++ [o] }).countOp o.gid = v
    at hgroup hmatrix
  have hmem : v.mem = s.mem := by rw [← hv, (hsame _).1]; rfl
  have hcores : v.cores = s.cores := by rw [← hv, (hsame _).2]; rfl
  have hgrant : (v.matrixEng engine).grantable o = (s.matrixEng engine).grantable o := by rw [hmatrix, grantable_withClear]
  rw [runClears_one (o := o) (by rw [hmatrix, hnone]; rfl), hgrant]
  cases hg' : (s.matrixEng engine).grantable o with
  | false =>
    simp only [Bool.false_eq_true, if_false]
    exact ⟨hmem, fun h => by simp at h, fun _ => ⟨by rw [hmatrix, hnone]; rfl, hcores, hgroup⟩⟩
  | true =>
    simp only [if_true]
    obtain ⟨hm, hmx, hbyte, c, hgr⟩ := clearSlots_spec (s := v.setMatrix engine { v.matrixEng engine with clears := [] }) (o := o)
      (g := { g with cntTl := g.cntTl + 1 }) (by simpa using hgroup) hrun
    refine ⟨hm.trans hmem, fun _ => ⟨?_, fun a => ?_, c, _, hgr⟩, fun h => by simp at h⟩
    · rw [State.matrixEng, hmx]
      exact congrArg MatrixEng.clears (State.setMatrix_get_self ..)
    · have hcore : v.core o.core = s.core o.core := by rw [State.core, hcores]; rfl
      rw [hbyte a, State.setMatrix_get_core, hcore]

/-! ## The instruction -/

theorem foldl_track_cl {α : Type} (f : Track → α → Track) (hf : ∀ t a, (f t a).cl = t.cl) (l : List α) (t : Track) :
    (l.foldl f t).cl = t.cl := foldl_keeps (fun (u : Track) => u.cl = t.cl) f (fun u a h => (hf u a).trans h) l t rfl

/-- An instruction's registers are no C slots (R47). -/
theorem tracked_cl (x : IC) (f : Foot) : (x.tracked f).track.cl = x.g.track.cl := by
  have hwrites (t : Track) : (t.writes f x.act x.g.live).cl = t.cl := by
    unfold Track.writes
    simp only
    split <;> rfl
  have hreads : (x.g.track.reads f x.act).cl = x.g.track.cl := by
    unfold Track.reads
    simp only
    split
    · rfl
    · refine (foldl_track_cl _ (fun t r => ?_) _ _).trans (foldl_track_cl _ (fun t r => ?_) _ _) <;> split <;> rfl
  exact (hwrites _).trans hreads

/-- The slots of a CZERO are those of the enabled ones among its first `n` tiles (R271). -/
theorem clearOp_slots_mem {x : IC} {off n : Nat} {tiles : W64} {a : Nat} (hn : n ≤ 64) :
    a ∈ (x.clearOp off n tiles).slots ↔ ∃ i ∈ (List.range n).filter (fun i => tiles.getLsbD i), off + 4096 * i = a := by
  have hbit (i : Nat) (hi : i < 64) : (x.clearOp off n tiles).tiles.getLsbD i = (tiles.getLsbD i && decide (i < n)) := by
    show (tiles &&& BitVec.ofNat 64 (2 ^ n - 1)).getLsbD i = _
    rw [BitVec.getLsbD_and, BitVec.getLsbD_ofNat, Nat.testBit_two_pow_sub_one, decide_eq_true hi, Bool.true_and]
  have haddr : (x.clearOp off n tiles).addr.toNat = off := rfl
  simp only [TileOp.slots, List.mem_filterMap, List.mem_range, List.mem_filter, haddr]
  constructor
  · rintro ⟨i, hi, hslot⟩
    rw [hbit i hi] at hslot
    split at hslot
    next hen =>
      rw [Bool.and_eq_true, decide_eq_true_eq] at hen
      exact ⟨i, ⟨hen.2, hen.1⟩, Option.some.inj hslot⟩
    next => cases hslot
  · rintro ⟨i, ⟨hlt, hen⟩, rfl⟩
    exact ⟨i, by omega, by rw [hbit i (by omega)]; simp [hlt, hen]⟩

/-- The group of a CZERO that is posted: it gains STALE, and its slots are set (R47, R264). -/
def IC.czeroGroup (x : IC) (o : Ops) (op : TileOp) : Group :=
  let g := x.tracked (Claims.footOf .czero .w64 o x)
  { g with
    gsr := g.gsr ||| (x.tiles o.b).2.bits
    track := { g.track with cw := (op.slots.map (· / 4096)).foldl (fun (m : BitVec 64) i => m ||| (1#64 <<< i)) g.track.cw } }

theorem czero_posts {o : Ops} {s : State} {x : IC} (hp : Plain s o.g (Claims.footOf .czero .w64 o) x) {off n : Nat} {op : TileOp}
    (hoff : off = (x.val o.a false 0).toNat) (hn : n = mfld o.m 53 48 + 1) (hop : op = x.clearOp off n (x.tiles o.b).1)
    (halign : off % 4096 = 0) (hfit : firstBadBuf x.team [(Space.c, off, 4096 * n)] = none)
    (hlive : ∀ a ∈ op.slots, x.g.track.cl.getLsbD (a / 4096) = false) (hroom : x.g.cntTl < 63) {u : State}
    (hu : u = (s.setGroup x.cu.gid (x.czeroGroup o op)).postClear x.g.engine op) :
    exec (.czero o) s = .next (x.after u ((u.group? x.cu.gid).getD (x.czeroGroup o op))) := by
  have hexec : exec (.czero o) s = execCzero o s := rfl
  have hnone : ((op.slots.map (· / 4096)).find? fun i => (x.tracked (Claims.footOf .czero .w64 o x)).track.cl.getLsbD i) = none := by
    rw [List.find?_eq_none]
    intro i hi
    obtain ⟨a, ha, rfl⟩ := List.mem_map.1 hi
    rw [tracked_cl, hlive a ha]
    exact Bool.false_ne_true
  rw [hexec, execCzero, issueWith_ready hp.ic hp.ready]
  subst hu hop hoff hn
  unfold Claims.footOf at hnone
  simp only [halign, hfit, hnone, Nat.not_le.2 hroom, if_false, ne_eq, not_true_eq_false, decide_false, Option.isSome_none,
    Bool.or_self, Bool.false_eq_true, hp.s_eq]
  exact congrArg _ rfl

theorem czeroClears : Claims.CzeroClears := by
  intro o s x hp hrun hnone
  simp only
  intro halign hfit hlive hroom
  have hn : mfld o.m 53 48 + 1 ≤ 64 := Nat.succ_le_of_lt (Nat.mod_lt _ (by decide))
  generalize hop : x.clearOp (x.val o.a false 0).toNat (mfld o.m 53 48 + 1) (x.tiles o.b).1 = op
  have hmem (a : Nat) := clearOp_slots_mem (x := x) (off := (x.val o.a false 0).toNat) (tiles := (x.tiles o.b).1) (a := a) hn
  rw [hop] at hmem
  have hslots : ∀ a ∈ op.slots, x.g.track.cl.getLsbD (a / 4096) = false := by
    intro a ha
    obtain ⟨i, hi, rfl⟩ := (hmem a).1 ha
    rw [show ((x.val o.a false 0).toNat + 4096 * i) / 4096 = (x.val o.a false 0).toNat / 4096 + i by omega]
    exact hlive i hi
  have hexec := czero_posts hp rfl rfl hop.symm halign hfit hslots hroom rfl
  have hgid : op.gid = x.cu.gid := by rw [← hop]; rfl
  have hcore : op.core = x.g.core := by rw [← hop]; rfl
  obtain ⟨hm, hnow, hlater⟩ := postClear_spec (s := s.setGroup x.cu.gid (x.czeroGroup o op)) (engine := x.g.engine) (o := op)
    (g := x.czeroGroup o op) (by simp [hgid]) (by rw [show (x.czeroGroup o op).status = .running from hrun]; simp) hnone
  rw [hgid, hcore] at hnow
  rw [hgid] at hlater
  cases hgrant : (s.matrixEng x.g.engine).grantable op with
  | true =>
    obtain ⟨hclears, hbyte, c, p, hgroup⟩ := hnow hgrant
    rw [hgroup, Option.getD_some] at hexec
    refine ⟨_, _, hexec, rfl, rfl, rfl, rfl, rfl, rfl, hm, fun _ => ⟨rfl, hclears, fun a => ?_⟩,
      fun h => by simp at h⟩
    rw [hbyte a]
    refine if_congr ?_ rfl rfl
    simp only [List.any_eq_true, hmem]
    constructor
    · rintro ⟨_, ⟨i, hi, rfl⟩, ha⟩
      exact ⟨i, hi, ha⟩
    · rintro ⟨i, hi, ha⟩
      exact ⟨_, ⟨i, hi, rfl⟩, ha⟩
  | false =>
    obtain ⟨hclears, hcores, hgroup⟩ := hlater hgrant
    rw [hgroup, Option.getD_some] at hexec
    exact ⟨_, _, hexec, rfl, rfl, rfl, rfl, rfl, rfl, hm, fun h => by simp at h, fun _ => ⟨rfl, hclears, hcores⟩⟩

end Sys2Proof.Machine
end


section
/-!
PROOF. Tile predicate registers and BXPOSE (R223, R274 to R279).
-/

namespace Sys2Proof.Machine

open Sys2Proof.Claims

/-! ## An instruction whose one result is a K register -/

/-- A group that has been given a K register, and no other register, setting, flag or buffered byte. -/
structure SetsK (g : Group) (n : Nat) (r : KReg) (h : Group) : Prop where
  k : h.k = setAt ⟨0, 0, 0⟩ g.k n r
  others : h.v = g.v ∧ h.s = g.s ∧ h.x = g.x ∧ h.p = g.p
  settings : h.gsr = g.gsr ∧ h.rmr = g.rmr ∧ h.rng = g.rng ∧ h.dead = g.dead
  memory : h.buf = g.buf ∧ h.frames = g.frames ∧ h.depth = g.depth

theorem SetsK.result {g h : Group} {n : Nat} {r : KReg} (hk : SetsK g n r h) : h.k.getD n ⟨0, 0, 0⟩ = r := by
  rw [hk.k, setAt_getD_self]

/-- The effects of an instruction whose one result is a K register, once they are committed. -/
theorem commit_setsK (g : Group) (act : Mask) (n : Nat) (r : KReg) : SetsK g n r (g.commit act { k := [(n, r)] }) :=
  ⟨rfl, ⟨rfl, rfl, rfl, rfl⟩, ⟨by simp [Group.commit], rfl, rfl, rfl⟩, ⟨rfl, rfl, rfl⟩⟩

/-- What an instruction tracks and where its lanes stand are no registers. -/
theorem SetsK.issued {x : IC} {f : Foot} {n : Nat} {r : KReg} {h : Group} (hk : SetsK (x.tracked f) n r h) (q : List Quad)
    (a : List SplitAge) (sl : List Sleeper) (mv : List Nat) : SetsK x.g n r (h.withControl q a sl mv) :=
  ⟨hk.k, hk.others, hk.settings, hk.memory⟩

/-- A register-only instruction whose one result is a K register sets it, changes no other register, and goes on (R20). -/
theorem issueAlu_setsK {op : Op} {len : Len} {eff : IC → Ops → Eff} {o : Ops} {s : State} {x : IC} {n : Nat} {r : KReg}
    (hp : Plain s o.g (footOf op len o) x) (he : eff x o = { k := [(n, r)] }) :
    ∃ t g', issueAlu op len eff o s = .next t ∧ t.group? x.cu.gid = some g' ∧ GroupsOnly s t x.cu.gid ∧ SetsK x.g n r g' ∧
      ∀ l, x.g.runsIn x.cu.split l → g'.stands l x.nextPc := by
  have hd : (eff x o).die = 0 := by rw [he]
  obtain ⟨t, hexec, hgroups, ⟨q, a, sl, mv, hg⟩, hothers⟩ := issueAlu_spec hp.ic hp.ready hd hp.clean
  obtain ⟨t', g', hexec', hg', hstands⟩ := retireTo_stands (x := x)
    (g := (x.tracked (footOf op len o x)).commit x.act (eff x o)) (fun _ => x.nextPc) rfl
  rw [← issueAlu_retires hp hd, hexec] at hexec'
  obtain rfl : t = t' := by injection hexec'
  have hcommitted := (commit_setsK (x.tracked (footOf op len o x)) x.act n r).issued q a sl mv
  rw [← he] at hcommitted
  obtain rfl := Option.some.inj (hg.symm.trans hg')
  exact ⟨t, _, hexec, hg, ⟨hgroups, hothers⟩, hcommitted, hstands⟩

/-! ## KZERO, KLOP and KSET (R274, R277, R278) -/

theorem kzeroClears : Claims.KzeroClears := by
  intro o s x hp
  have hexec : exec (.kzero o) s = execKzero o s := rfl
  obtain ⟨t, g', halu, hg, honly, hk, hstands⟩ := issueAlu_setsK (eff := fun _ o => { k := [(opNum o.d, ⟨0, 0, 0⟩)] }) hp rfl
  obtain ⟨hv, hs, hx, hpred⟩ := hk.others
  obtain ⟨hgsr, hrmr, hrng, hdead⟩ := hk.settings
  obtain ⟨hbuf, hframes, hdepth⟩ := hk.memory
  exact ⟨t, g', hexec.trans halu, hg, honly, hk.result, fun n hn => by rw [hk.k, setAt_getD_ne _ _ _ hn], hv, hs, hx, hpred,
    hgsr, hrmr, hrng, hdead, hbuf, hframes, hdepth, hstands⟩

/-- A function of two masks takes each bit from its nibble, at the place that the masks' bits select (R140, R277). -/
theorem nibbleFn_bit (n : Nat) (b c : Mask) {i : Nat} (hi : i < 64) :
    (nibbleFn n b c).getLsbD i = n.testBit ((b.getLsbD i).toNat + 2 * (c.getLsbD i).toNat) := by
  have hif (p : Bool) (m : Mask) : (if p = true then m else 0).getLsbD i = (p && m.getLsbD i) := by
    cases p <;> simp
  unfold nibbleFn
  simp only [BitVec.getLsbD_or, hif, BitVec.getLsbD_and, BitVec.getLsbD_not, decide_eq_true hi, Bool.true_and]
  cases b.getLsbD i <;> cases c.getLsbD i <;> simp

/-- The two nibbles of the selection table of KLOP. -/
theorem klopTable (m : BitVec 16) : mfld m 55 48 / 16 = mfld m 55 52 ∧ mfld m 55 48 % 16 = mfld m 51 48 := by
  simp only [mfld, Nat.shiftRight_eq_div_pow]
  omega

theorem klop_bit (o : Ops) (a b c : Mask) {i : Nat} (hi : i < 64) :
    ((~~~a &&& nibbleFn (mfld o.m 55 48 / 16) b c) ||| (a &&& nibbleFn (mfld o.m 55 48 % 16) b c)).getLsbD i =
      (if (a.getLsbD i).toNat = 1 then mfld o.m 51 48 else mfld o.m 55 52).testBit
        ((b.getLsbD i).toNat + 2 * (c.getLsbD i).toNat) := by
  obtain ⟨hhigh, hlow⟩ := klopTable o.m
  rw [hhigh, hlow]
  simp only [BitVec.getLsbD_or, BitVec.getLsbD_and, BitVec.getLsbD_not, nibbleFn_bit _ _ _ hi, decide_eq_true hi, Bool.true_and]
  cases a.getLsbD i <;> simp

theorem tilePredicateLogic : Claims.TilePredicateLogic := by
  intro o s x
  refine ⟨fun hp => ?_, fun hp => ?_⟩
  · have hexec : exec (.klop o) s = execKlop o s := rfl
    obtain ⟨t, g', halu, hg, honly, hk, -⟩ := issueAlu_setsK (eff := effKlop) hp rfl
    exact ⟨t, g', _, hexec.trans halu, hg, honly, hk.result, fun i hi => klop_bit o _ _ _ hi⟩
  · have hexec : exec (.kset o) s = execKset o s := rfl
    obtain ⟨t, g', halu, hg, honly, hk, -⟩ := issueAlu_setsK (eff := effKset) hp rfl
    refine ⟨t, g', _, hexec.trans halu, hg, honly, hk.result, fun row col hrow hcol => ?_⟩
    refine (maskOf_spec _ (by omega)).trans ?_
    rw [show (8 * row + col) / 8 = row by omega, show (8 * row + col) % 8 = col by omega]
    simp only [Bool.decide_and, Bool.and_assoc]

/-! ## KLD (R275) -/

theorem kldForms_exec (im : Bool) (o : Ops) (s : State) : exec (if im then .kldImm o else .kld o) s =
    if mbit o.m 56 then issueAlu .kld (if im then .w96 else .w64) effKldS o s else issueKld (if im then .w96 else .w64) o s := by
  cases im <;> rfl

/-- The write that a KLD from memory posts: the bytes read, with the tag of the handle value in B. -/
def IC.kldWrite (x : IC) (o : Ops) (got : List (Byte × Bool)) : RegWrite :=
  .k (opNum o.d) (tagged (BitVec.ofNat 64 (leNat (got.map (·.1)))) (x.val o.b true 0))

theorem issueKld_loads {len : Len} {o : Ops} {s : State} {x : IC} {ok : List (Nat × List Nat)} {bad : List Nat} {v : State}
    (hp : Plain s o.g (footOf .kld len o) x) (hroom : x.g.cntLd < 63) (halign : x.uniAddr o (accSpace o) % 8 = 0)
    (hgo : x.reach (accSpace o) 8 .load false [(0, x.uniAddr o (accSpace o))] = .go ok bad [])
    (hv : v = s.setGroup x.cu.gid (x.tracked (footOf .kld len o x))) {got : List (Byte × Bool)}
    (hgot : got = (v.readPlaces x.cu.gid x.g.core x.g.buf (accSpace o) [(none, (ok.map (·.2)).headD [])]).2.headD [])
    (hclean : got.any (·.2) = false) :
    ∃ u g, issueKld len o s = .next (x.after u ((u.group? x.cu.gid).getD g)) ∧
      u = v.loaded x.cu.gid x.g.core x.g.buf (accSpace o) [(none, (ok.map (·.2)).headD [])] [] [] [opNum o.d] [x.kldWrite o got] := by
  have haddr : x.addrBase o.a (accSpace o == .g) 0 + offsetOf o = x.uniAddr o (accSpace o) := rfl
  have hroom' : ¬ 63 ≤ (x.tracked (x.g.foot .kld len o)).cntLd := Nat.not_le.2 hroom
  subst hgot hv
  unfold footOf at hclean ⊢
  unfold issueKld
  rw [issueWith_ready hp.ic hp.ready]
  simp only [haddr, halign, hgo, hroom', hclean, ne_eq, not_true_eq_false, if_false, List.isEmpty_nil, Bool.not_true,
    Bool.false_eq_true, hp.s_eq]
  exact ⟨_, _, retire_after .., rfl⟩

theorem kldRegisterForm {o : Ops} {s : State} {x : IC} (im : Bool) (hp : Plain s o.g (footOf .kld (if im then .w96 else .w64) o) x)
    (hs : mbit o.m 56 = true) :
    ∃ t g', exec (if im then .kldImm o else .kld o) s = .next t ∧ t.group? x.cu.gid = some g' ∧ GroupsOnly s t x.cu.gid ∧
      SetsK x.g (opNum o.d) (tagged (x.val o.a true 0) (x.val o.b true 0)) g' := by
  obtain ⟨t, g', halu, hg, honly, hk, -⟩ := issueAlu_setsK (eff := effKldS) hp rfl
  exact ⟨t, g', by rw [kldForms_exec, hs, if_pos rfl, halu], hg, honly, hk⟩

theorem kldMemoryForm {o : Ops} {s : State} {x : IC} {ok : List (Nat × List Nat)} {bad : List Nat} (im : Bool)
    (hp : Plain s o.g (footOf .kld (if im then .w96 else .w64) o) x) (hmem : mbit o.m 56 = false) (hroom : x.g.cntLd < 63)
    (halign : x.uniAddr o (accSpace o) % 8 = 0)
    (hgo : x.reach (accSpace o) 8 .load false [(0, x.uniAddr o (accSpace o))] = .go ok bad []) {got : List (Byte × Bool)}
    (hgot : got = ((s.setGroup x.cu.gid (x.tracked (footOf .kld (if im then .w96 else .w64) o x))).readPlaces x.cu.gid x.g.core
      x.g.buf (accSpace o) [(none, (ok.map (·.2)).headD [])]).2.headD []) (hclean : got.any (·.2) = false) :
    ∃ u g', exec (if im then .kldImm o else .kld o) s = .next (x.after u g') ∧ RegsSame x.g g' ∧
      LoadPosted x.g g' [] [] [opNum o.d] [x.kldWrite o got] := by
  obtain ⟨u, g, hexec, hu⟩ := issueKld_loads hp hroom halign hgo rfl hgot hclean
  obtain ⟨c, n, hloaded⟩ := loaded_group x.g.core x.g.buf (accSpace o) [(none, (ok.map (·.2)).headD [])] [] [] [opNum o.d]
    [x.kldWrite o got] (State.setGroup_get_self s x.cu.gid (x.tracked (footOf .kld (if im then .w96 else .w64) o x)))
  rw [← hu] at hloaded
  rw [hloaded, Option.getD_some] at hexec
  obtain ⟨hregs, hposted, -, -⟩ := posted_spec (g0 := x.g) (g := x.tracked (footOf .kld (if im then .w96 else .w64) o x))
    (tracked_regsSame x _) rfl rfl c n _ [] [] [opNum o.d] [x.kldWrite o got] rfl
  exact ⟨u, _, by rw [kldForms_exec, hmem, if_neg Bool.false_ne_true, hexec], hregs, hposted⟩

/-! ## BXPOSE (R279) -/

/-- The bytes of a BXPOSE: the transpose of the bytes that the matrix path finds (R223, R279). -/
def IC.bxposeBytes (x : IC) (o : Ops) (s : State) : List StByte :=
  let w := [16, 8, 32].getD (mfld o.m 49 48) 16
  let ssp := spaceOf (mfld o.m 56 54)
  let bank := ((s.core x.g.core).seenBy 2).bank ssp
  let src := (run (x.val o.a false 0).toNat (128 * w)).map fun p =>
    seeByte x.g.buf ssp none p (bankByte bank p, bankPoison bank p)
  ((List.range 1024).flatMap fun e => transposed w src e).zipIdx.map fun q =>
    ⟨(x.val o.d false 0).toNat + q.2, (x.val o.d false 0).toNat + q.2, q.1.1, none, q.1.2, none⟩

theorem bxpose_stores {o : Ops} {s : State} {x : IC} {w : Nat} {ssp : Space} (hp : Plain s o.g (footOf .bxpose .w64 o) x)
    (hw : w = [16, 8, 32].getD (mfld o.m 49 48) 16) (hssp : ssp = spaceOf (mfld o.m 56 54))
    (hd : (x.val o.d false 0).toNat % 128 = 0)
    (hdfit : firstBadBuf x.team [(accSpace o, (x.val o.d false 0).toNat, 128 * w)] = none)
    (ha : (x.val o.a false 0).toNat % 128 = 0)
    (hafit : firstBadBuf x.team [(ssp, (x.val o.a false 0).toNat, 128 * w)] = none)
    (hfree : ((ssp == .c && s.tileBusy x.cu.gid x.g.engine [((x.val o.a false 0).toNat, 128 * w)])
      || x.g.awaits ssp (run (x.val o.a false 0).toNat (128 * w))) = false) :
    exec (.bxpose o) s = x.intoBuffer (x.tracked (footOf .bxpose .w64 o x)) (accSpace o) 2 false (x.bxposeBytes o s)
      (fun _ => (x.val o.d false 0).toNat) 0 := by
  have hexec : exec (.bxpose o) s = execBxpose o s := rfl
  subst hw hssp
  rw [hexec, execBxpose, issueWith_ready hp.ic hp.ready]
  simp only [hd, hdfit, ha, hafit, hp.s_eq, hfree, ne_eq, not_true_eq_false, decide_false, Option.isSome_none, Bool.or_self,
    Bool.false_eq_true, if_false]
  rfl

/-- Bytes of a store that is no instruction of class 3 and finds room change nothing of its group but the buffer. -/
theorem intoBuffer_kept {s : State} {gd : Guard} {f : IC → Foot} {x : IC} {sp : Space} {bs : List StByte} (path : Nat)
    (starts : StByte → Nat) (hp : Plain s gd f x) (hc : storeConflict x.g.buf sp bs = none) (hr : overCapacity x.g.buf sp bs = none) :
    x.intoBuffer (x.tracked (f x)) sp path false bs starts 0 = .next (x.after s
      { x.tracked (f x) with buf := placeStore x.g.buf sp path bs }) := by
  have hnext := intoBuffer_fits (x := x) (g := x.tracked (f x)) path false starts hc hr
  obtain ⟨hs, -, hg, -⟩ := ic_eq hp.ic
  simp only [Bool.false_eq_true, if_false, hs, hg] at hnext
  exact hnext

theorem tilePredicateLoads : Claims.TilePredicateLoads := by
  refine ⟨fun o s x im hp hs => ?_, fun o s x im ok bad hp hmem hroom halign hgo => ?_, fun o s x hp => ?_⟩
  · obtain ⟨t, g', hexec, hg, honly, hk⟩ := kldRegisterForm im hp hs
    exact ⟨t, g', hexec, hg, honly, hk.others.1, hk.result⟩
  · exact fun hclean => kldMemoryForm im hp hmem hroom halign hgo rfl hclean
  · intro w ssp d a bank src bs hd hdfit ha hafit hfree hc hr
    exact (bxpose_stores hp rfl rfl hd hdfit ha hafit hfree).trans (intoBuffer_kept 2 _ hp hc hr)

/-! ## The obligation -/

/-- Settles O31: CZERO by the posting of a clear, the predicate registers by the frame of an instruction whose one result is a K
register, KLD and BXPOSE by those of loads and stores. -/
theorem tileClearsAndPredicates : Obligations.TileClearsAndPredicates :=
  ⟨czeroClears, kzeroClears, tilePredicateLoads, tilePredicateLogic⟩

end Sys2Proof.Machine
end

section
/-!
PROOF. The round trip of the encoding (R99 to R106): each field of a word is read back, then the fields of a well-formed
instruction, then the halves of a pair word.
-/

namespace Sys2Proof.Machine

/-! ## The halves of a word -/

/-- A field below bit 64 lies in the low half of a word. -/
theorem wbits_low (x : BitVec 64) (y : Nat) {lo n : Nat} (h : lo + n ≤ 64) :
    wbits (x.toNat + 2 ^ 64 * y) lo n = x.extractLsb' lo n := by
  apply BitVec.eq_of_getLsbD_eq
  intro i hi
  simp only [wbits, BitVec.getLsbD_ofNat, BitVec.getLsbD_extractLsb', Nat.testBit_shiftRight, hi, decide_true, Bool.true_and]
  rw [Nat.add_comm, Nat.testBit_two_pow_mul_add _ x.isLt, if_pos (by omega)]
  rfl

theorem shiftRight_half (x : BitVec 64) (y : Nat) : (x.toNat + 2 ^ 64 * y) >>> 64 = y := by
  rw [Nat.shiftRight_eq_div_pow]
  have := x.isLt
  omega

/-- A field from bit 64 on lies at the bottom of the high half. -/
theorem wbits_high (x : BitVec 64) (y n : Nat) : wbits (x.toNat + 2 ^ 64 * y) 64 n = BitVec.ofNat n y := by
  rw [wbits, shiftRight_half]

/-! ## The fields of bits 63:0 (R100) -/

section Fields
variable (op : Op) (code : Nat) (off16 : Bool) (o : Ops)

theorem encodeLow_len : (encodeLow op code off16 o).extractLsb' 0 2 = BitVec.ofNat 2 code := by
  simp only [encodeLow, BitVec.extractLsb'_append_eq_right]

theorem encodeLow_opcode : (encodeLow op code off16 o).extractLsb' 2 10 = BitVec.ofNat 10 op.code := by
  simp (disch := decide) only [encodeLow, BitVec.extractLsb'_append_eq_of_le, Nat.sub_self, BitVec.extractLsb'_append_eq_right]

theorem encodeLow_gi : (encodeLow op code off16 o).extractLsb' 12 3 = o.g.gi := by
  simp (disch := decide) only [encodeLow, BitVec.extractLsb'_append_eq_of_le, Nat.reduceSub, BitVec.extractLsb'_append_eq_right]

theorem encodeLow_gn : (encodeLow op code off16 o).extractLsb' 15 1 = BitVec.ofBool o.g.gn := by
  simp (disch := decide) only [encodeLow, BitVec.extractLsb'_append_eq_of_le, Nat.reduceSub, BitVec.extractLsb'_append_eq_right]

theorem encodeLow_d : (encodeLow op code off16 o).extractLsb' 16 8 = opdField o.d := by
  simp (disch := decide) only [encodeLow, BitVec.extractLsb'_append_eq_of_le, Nat.reduceSub, BitVec.extractLsb'_append_eq_right]

theorem encodeLow_a : (encodeLow op code off16 o).extractLsb' 24 8 = opdField o.a := by
  simp (disch := decide) only [encodeLow, BitVec.extractLsb'_append_eq_of_le, Nat.reduceSub, BitVec.extractLsb'_append_eq_right]

theorem encodeLow_off : (encodeLow op code true o).extractLsb' 32 16 = o.imm.setWidth 16 := by
  simp (disch := decide) only [encodeLow, BitVec.extractLsb'_append_eq_of_le, Nat.reduceSub, BitVec.extractLsb'_append_eq_right,
    if_true]

theorem encodeLow_b : (encodeLow op code false o).extractLsb' 32 8 = opdField o.b := by
  simp (disch := decide) only [encodeLow, BitVec.extractLsb'_append_eq_of_le, Nat.reduceSub,
    BitVec.extractLsb'_append_eq_of_add_le, BitVec.extractLsb'_eq_self, Bool.false_eq_true, if_false]

theorem encodeLow_c : (encodeLow op code false o).extractLsb' 40 8 = opdField o.c := by
  simp (disch := decide) only [encodeLow, BitVec.extractLsb'_append_eq_of_le, Nat.reduceSub,
    BitVec.extractLsb'_append_eq_of_add_le, BitVec.extractLsb'_eq_self, Bool.false_eq_true, if_false]

theorem encodeLow_m : (encodeLow op code off16 o).extractLsb' 48 16 = o.m := by
  simp (disch := decide) only [encodeLow, BitVec.extractLsb'_append_eq_of_le, Nat.reduceSub, BitVec.extractLsb'_eq_self]

end Fields

/-! ## Opcodes and operands -/

theorem op_ofCode_code (op : Op) : Op.ofCode op.code = some op := by cases op <;> rfl

theorem op_code_lt (op : Op) : op.code < 1024 := by cases op <;> decide

/-- A register number of at most 8 bits, read back from the field that holds it (R102). -/
theorem extractLsb'_field {k : Nat} (n : BitVec k) (hk : k ≤ 8) : (n.setWidth 8).extractLsb' 0 k = n := by
  rw [BitVec.extractLsb'_setWidth_of_le (by omega), BitVec.extractLsb'_eq_self]

/-- A field that holds a register number names that register (R102, R104). -/
theorem small_field {k : Nat} (n : BitVec k) (hk : k ≤ 8) (con : BitVec k → Opd) :
    (if (n.setWidth 8).toNat < 2 ^ k then some (con ((n.setWidth 8).extractLsb' 0 k)) else none) = some (con n) := by
  rw [BitVec.toNat_setWidth_of_le hk, if_pos n.isLt, extractLsb'_field n hk]

/-- The field of an operand that its kind can hold names that operand (R102, R104). -/
theorem FKindDecode_opdField {kd : FKind} {o : Opd} (h : FKindFits kd o = true) : FKindDecode kd (opdField o) = some o := by
  match kd, o, h with
  | .none, .none, _ => rfl
  | .v _ al, .v (.dir n), h =>
    simp only [FKindFits] at h
    simp [FKindDecode, opdField, extractLsb'_field n, h]
  | .v _ _, .v (.idx xi base), _ =>
    have htop : (1#1 ++ xi ++ base).getLsbD 7 = true := by
      rw [BitVec.getLsbD_append, if_neg (by decide), BitVec.getLsbD_append, if_neg (by decide)]; rfl
    have hxi : (1#1 ++ xi ++ base).extractLsb' 5 2 = xi := by
      rw [BitVec.extractLsb'_append_eq_of_le (by decide), BitVec.extractLsb'_append_eq_right]
    simp only [FKindDecode, opdField, htop, hxi, if_true, BitVec.extractLsb'_append_eq_right]
  | .vdir _, .v (.dir n), _ => exact small_field n (by decide) fun n => .v (.dir n)
  | .s _ al, .s n, h =>
    have hal : ((n.setWidth 8).toNat % al == 0) = true := by rwa [BitVec.toNat_setWidth_of_le (by decide)]
    exact (if_pos hal).trans (small_field n (by decide) .s)
  | .x, .x n, _ => exact small_field n (by decide) .x
  | .p, .p n, _ => exact small_field n (by decide) .p
  | .k, .k n, _ => exact small_field n (by decide) .k
  | .bar, .bar n, _ => exact small_field n (by decide) .bar
  | .tl, .tl n, _ => exact small_field n (by decide) .tl

/-- A field that names no register reads as none where it is not there (R239). -/
theorem FKindDecode_absent {kd : FKind} {o : Opd} (hnone : kd = .none) (h : FKindFits kd o = true) :
    FKindDecode kd 0 = some o := by
  subst hnone
  cases o with
  | none => rfl
  | _ => cases h

/-! ## Entries with a 16-bit offset (R239) -/

theorem encClass0_off16 (op : Op) (im : Bool) (m : BitVec 16) (imm : BitVec 64) : (encClass0 op im m imm).off16 = false := by
  unfold encClass0; dsimp only; split <;> rfl

theorem encClass1_off16 (op : Op) (im : Bool) (m : BitVec 16) : (encClass1 op im m).off16 = false := by
  cases op
  case gred => simp only [encClass1]; split <;> rfl
  all_goals rfl

theorem encClass2_off16 (op : Op) (m : BitVec 16) (imm : BitVec 64) : (encClass2 op m imm).off16 = false := by
  unfold encClass2; split <;> rfl

theorem encClass4_off16 (op : Op) (im : Bool) (m : BitVec 16) (imm : BitVec 64) : (encClass4 op im m imm).off16 = false := by
  unfold encClass4; dsimp only; split <;> rfl

theorem encClass5to9_off16 (op : Op) (im : Bool) (m : BitVec 16) (imm : BitVec 64) :
    (encClass5to9 op im m imm).off16 = false := by
  unfold encClass5to9; dsimp only; split <;> rfl

theorem encClass3_off16 {op : Op} {im : Bool} {m : BitVec 16} (h : (encClass3 op im m).off16 = true) :
    im = false ∧ (encClass3 op im m).b = .none ∧ (encClass3 op im m).c = .none := by
  revert h
  unfold encClass3
  dsimp only
  split <;> simp

/-- Only entries of class 3 have a 16-bit offset. -/
theorem encOf_off16_class {op : Op} {len : Len} {m : BitVec 16} {imm : BitVec 64} (h : (encOf op len m imm).off16 = true) :
    op.code / 64 = 3 := by
  unfold encOf at h
  dsimp only at h
  split at h
  case h_1 => rw [encClass0_off16] at h; cases h
  case h_2 => rw [encClass1_off16] at h; cases h
  case h_3 =>
    split at h
    · cases h
    · rw [encClass2_off16] at h; cases h
  case h_4 hclass => exact hclass
  case h_5 => rw [encClass4_off16] at h; cases h
  case h_6 => rw [encClass5to9_off16] at h; cases h

theorem encOf_class3 {op : Op} (h : op.code / 64 = 3) (len : Len) (m : BitVec 16) (imm : BitVec 64) :
    encOf op len m imm = encClass3 op (len == .w96) m := by
  unfold encOf
  simp only [h]

/-- What an entry with a 16-bit offset allows does not depend on the immediate. -/
theorem encOf_off16_imm {op : Op} {len : Len} {m : BitVec 16} {imm : BitVec 64} (h : (encOf op len m imm).off16 = true)
    (imm' : BitVec 64) : encOf op len m imm' = encOf op len m imm := by
  rw [encOf_class3 (encOf_off16_class h), encOf_class3 (encOf_off16_class h)]

/-- An entry with a 16-bit offset is no 96-bit form, and the offset stands in place of B and C. -/
theorem encOf_off16 {op : Op} {len : Len} {m : BitVec 16} {imm : BitVec 64} (h : (encOf op len m imm).off16 = true) :
    (len == .w96) = false ∧ (encOf op len m imm).b = .none ∧ (encOf op len m imm).c = .none := by
  have hclass := encOf_class3 (encOf_off16_class h) len m imm
  rw [hclass] at h ⊢
  exact encClass3_off16 h

/-- The 128-bit forms are MOVW and NOP (R99, R108). -/
theorem ofWord_w128 {op : Op} {o : Ops} {i : Instr} (h : Instr.ofWord op .w128 o = some i) : op = .movw ∨ op = .nop := by
  cases op
  case movw => exact .inl rfl
  case nop => exact .inr rfl
  all_goals cases h

/-! ## Immediates (R99, R239) -/

/-- What stands above bit 63 of a word of this length. -/
def immWord (len : Len) (imm : BitVec 64) : Nat :=
  match len with
  | .w64 => 0
  | .w96 => (imm.setWidth 32).toNat
  | .w128 => imm.toNat

theorem encodeOps_eq (op : Op) (len : Len) (o : Ops) :
    encodeOps op len o =
      (encodeLow op (lenCode len) (op != .nop && (encOf op len o.m o.imm).off16) o).toNat + 2 ^ 64 * immWord len o.imm := by
  cases len <;> rfl

/-- The immediate that the decoder reads above bit 63 of a word of this length. -/
def immRead (len : Len) (w : Nat) : BitVec 64 :=
  match len with
  | .w64 => 0
  | .w96 => (wbits w 64 32).setWidth 64
  | .w128 => wbits w 64 64

theorem immRead_immWord {len : Len} {imm : BitVec 64} (x : BitVec 64) (h : immFits len false imm = true) :
    immRead len (x.toNat + 2 ^ 64 * immWord len imm) = imm := by
  cases len with
  | w64 => exact (eq_of_beq h).symm
  | w96 =>
    have himm : imm = (imm.setWidth 32).setWidth 64 := by simpa [immFits] using h
    rw [immRead, immWord, wbits_high, BitVec.ofNat_toNat, BitVec.setWidth_eq, ← himm]
  | w128 => rw [immRead, immWord, wbits_high, BitVec.ofNat_toNat, BitVec.setWidth_eq]

/-! ## Reading the fields back -/

/-- The guard that a word names (R100). -/
def guardRead (w : Nat) : Guard := ⟨wbits w 12 3, (wbits w 15 1).getLsbD 0⟩

/-- A word holds the guard, the MOD field, the operands and the immediate of an instruction: each is what the decoder reads
in its place. -/
structure WordHolds (op : Op) (len : Len) (w : Nat) (o : Ops) : Prop where
  entry : encOf op len o.m (immRead len w) = encOf op len o.m o.imm
  guard : guardRead w = o.g
  mod : wbits w 48 16 = o.m
  d : FKindDecode (encOf op len o.m o.imm).d (wbits w 16 8) = some o.d
  a : FKindDecode (encOf op len o.m o.imm).a (wbits w 24 8) = some o.a
  b : FKindDecode (encOf op len o.m o.imm).b (if (encOf op len o.m o.imm).off16 then 0 else wbits w 32 8) = some o.b
  c : FKindDecode (encOf op len o.m o.imm).c (if (encOf op len o.m o.imm).off16 then 0 else wbits w 40 8) = some o.c
  imm : (if (encOf op len o.m o.imm).off16 then ((wbits w 32 16).signExtend 32).setWidth 64 else immRead len w) = o.imm

/-- The decoder gives the fields that a word holds, where the entry allows its MOD field, immediate and guard. -/
theorem decodeOps_of_wordHolds {op : Op} {len : Len} {w : Nat} {o : Ops} (hop : op ≠ .nop) (h : WordHolds op len w o)
    (hok : ((encOf op len o.m o.imm).ok && ((encOf op len o.m o.imm).guard || o.g == Guard.none)) = true) :
    decodeOps op len w = some o := by
  obtain ⟨hentry, hguard, hmod, hd, ha, hb, hc, himm⟩ := h
  have heq : decodeOps op len w =
      let e := encOf op len (wbits w 48 16) (immRead len w)
      match FKindDecode e.d (wbits w 16 8), FKindDecode e.a (wbits w 24 8),
        FKindDecode e.b (if e.off16 then 0 else wbits w 32 8), FKindDecode e.c (if e.off16 then 0 else wbits w 40 8) with
      | some d, some a, some b, some c =>
        if e.ok && (e.guard || guardRead w == Guard.none) then
          some ⟨guardRead w, d, a, b, c, wbits w 48 16,
            if e.off16 then ((wbits w 32 16).signExtend 32).setWidth 64 else immRead len w⟩
        else none
      | _, _, _, _ => none := by
    unfold decodeOps
    rw [if_neg hop]
    cases len <;> rfl
  simp only [heq, hentry, hd, ha, hb, hc, hguard, hmod, himm, hok, if_true]

/-- The guard of a word is the one that was put there. -/
theorem guardRead_encodeLow (op : Op) (code : Nat) (off16 : Bool) (o : Ops) (y : Nat) :
    guardRead ((encodeLow op code off16 o).toNat + 2 ^ 64 * y) = o.g := by
  rw [guardRead, wbits_low _ _ (by decide), wbits_low _ _ (by decide), encodeLow_gi, encodeLow_gn]
  simp

/-- The word of well-formed fields holds them, whatever its LEN and whatever follows it, as long as the immediate is read
back. -/
theorem encodeLow_wordHolds {op : Op} {len : Len} {o : Ops} (code y : Nat) (hd : FKindFits (encOf op len o.m o.imm).d o.d = true)
    (ha : FKindFits (encOf op len o.m o.imm).a o.a = true) (hb : FKindFits (encOf op len o.m o.imm).b o.b = true)
    (hc : FKindFits (encOf op len o.m o.imm).c o.c = true) (hfits : immFits len (encOf op len o.m o.imm).off16 o.imm = true)
    (hlen : (encOf op len o.m o.imm).off16 = true → len = .w64)
    (himm : ∀ x : BitVec 64, (encOf op len o.m o.imm).off16 = false → immRead len (x.toNat + 2 ^ 64 * y) = o.imm) :
    WordHolds op len ((encodeLow op code (encOf op len o.m o.imm).off16 o).toNat + 2 ^ 64 * y) o where
  guard := guardRead_encodeLow ..
  mod := by rw [wbits_low _ _ (by decide), encodeLow_m]
  d := by rw [wbits_low _ _ (by decide), encodeLow_d, FKindDecode_opdField hd]
  a := by rw [wbits_low _ _ (by decide), encodeLow_a, FKindDecode_opdField ha]
  entry := by
    cases hoff : (encOf op len o.m o.imm).off16 with
    | false => rw [himm _ hoff]
    | true => exact encOf_off16_imm hoff _
  b := by
    cases hoff : (encOf op len o.m o.imm).off16 with
    | false => rw [if_neg Bool.false_ne_true, wbits_low _ _ (by decide), encodeLow_b, FKindDecode_opdField hb]
    | true =>
      obtain ⟨-, hnone, -⟩ := encOf_off16 hoff
      exact FKindDecode_absent hnone hb
  c := by
    cases hoff : (encOf op len o.m o.imm).off16 with
    | false => rw [if_neg Bool.false_ne_true, wbits_low _ _ (by decide), encodeLow_c, FKindDecode_opdField hc]
    | true =>
      obtain ⟨-, -, hnone⟩ := encOf_off16 hoff
      exact FKindDecode_absent hnone hc
  imm := by
    cases hoff : (encOf op len o.m o.imm).off16 with
    | false => rw [if_neg Bool.false_ne_true, himm _ hoff]
    | true =>
      obtain rfl := hlen hoff
      rw [hoff] at hfits
      rw [if_pos rfl, wbits_low _ _ (by decide), encodeLow_off]
      exact (eq_of_beq hfits).symm

/-- The fields of a well-formed word are read back (R100 to R104), whatever its LEN and whatever follows it, as long as
the immediate is read back. -/
theorem decodeOps_encodeLow {op : Op} {len : Len} {o : Ops} (code y : Nat) (hwf : opsWellFormed op len o = true)
    (hlen : (encOf op len o.m o.imm).off16 = true → len = .w64)
    (himm : ∀ x : BitVec 64, (encOf op len o.m o.imm).off16 = false → immRead len (x.toNat + 2 ^ 64 * y) = o.imm) :
    decodeOps op len ((encodeLow op code (op != .nop && (encOf op len o.m o.imm).off16) o).toNat + 2 ^ 64 * y) = some o := by
  by_cases hop : op = .nop
  · have ho : o = Ops.nop := by simpa [opsWellFormed, hop] using hwf
    unfold decodeOps
    rw [if_pos hop, ho]
  · rw [opsWellFormed, if_neg hop] at hwf
    simp only [Bool.and_eq_true] at hwf
    obtain ⟨⟨⟨⟨⟨⟨hok, hguard⟩, hd⟩, ha⟩, hb⟩, hc⟩, hfits⟩ := hwf
    have hnop : (op != .nop) = true := by simpa using hop
    rw [hnop, Bool.true_and]
    exact decodeOps_of_wordHolds hop (encodeLow_wordHolds code y hd ha hb hc hfits hlen himm)
      (by rw [hok, hguard]; rfl)

theorem opsWellFormed_immFits {op : Op} {len : Len} {o : Ops} (hwf : opsWellFormed op len o = true)
    (hoff : (encOf op len o.m o.imm).off16 = false) : immFits len false o.imm = true := by
  by_cases hop : op = .nop
  · have ho : o = Ops.nop := by simpa [opsWellFormed, hop] using hwf
    rw [ho]
    cases len <;> rfl
  · rw [opsWellFormed, if_neg hop] at hwf
    simp only [Bool.and_eq_true, hoff] at hwf
    exact hwf.2

/-- The word of a well-formed instruction that is no pair word holds its fields. -/
theorem decodeOps_encodeOps {op : Op} {len : Len} {o : Ops} {i : Instr} (hi : Instr.ofWord op len o = some i)
    (hwf : opsWellFormed op len o = true) : decodeOps op len (encodeOps op len o) = some o := by
  rw [encodeOps_eq]
  refine decodeOps_encodeLow _ _ hwf (fun hoff => ?_) fun x hoff => immRead_immWord x (opsWellFormed_immFits hwf hoff)
  cases len with
  | w64 => rfl
  | w96 => exact absurd (encOf_off16 hoff).1 (by decide)
  | w128 => rcases ofWord_w128 hi with rfl | rfl <;> cases hoff

/-! ## Length and opcode -/

theorem encodeLow_len_read (op : Op) {code : Nat} (hcode : code < 4) (off16 : Bool) (o : Ops) (y : Nat) :
    (wbits ((encodeLow op code off16 o).toNat + 2 ^ 64 * y) 0 2).toNat = code := by
  rw [wbits_low _ _ (by decide), encodeLow_len, BitVec.toNat_ofNat, Nat.mod_eq_of_lt hcode]

theorem encodeLow_opcode_read (op : Op) (code : Nat) (off16 : Bool) (o : Ops) (y : Nat) :
    Op.ofCode (wbits ((encodeLow op code off16 o).toNat + 2 ^ 64 * y) 2 10).toNat = some op := by
  rw [wbits_low _ _ (by decide), encodeLow_opcode, BitVec.toNat_ofNat, Nat.mod_eq_of_lt (op_code_lt op), op_ofCode_code]

/-- LEN is the last two bits of a word (R99). -/
theorem mod_four_eq (w : Nat) : w % 4 = (wbits w 0 2).toNat := by
  rw [wbits, BitVec.toNat_ofNat, Nat.shiftRight_zero]

theorem lenCode_lt (len : Len) : lenCode len < 3 := by cases len <;> decide

theorem lenOfCode_lenCode (len : Len) : lenOfCode (lenCode len) = len := by cases len <;> rfl

theorem lenBytes_lenCode (len : Len) : lenBytes (lenCode len) = len.bytes := by cases len <;> rfl

/-! ## Words that are no pair words -/

/-- A word whose LEN is a length's, whose opcode is assigned and whose fields its entry allows decodes to their
instruction (R99, R111). -/
theorem decodeWord_fields {w : Nat} {op : Op} {len : Len} {o : Ops} (hlen : (wbits w 0 2).toNat = lenCode len)
    (hop : Op.ofCode (wbits w 2 10).toNat = some op) (ho : decodeOps op len w = some o) :
    decodeWord w = Instr.ofWord op len o := by
  have hpair : lenCode len ≠ 3 := Nat.ne_of_lt (lenCode_lt len)
  unfold decodeWord
  simp only [hlen, if_neg hpair, hop, lenOfCode_lenCode, ho]

theorem encode_word {i : Instr} {op : Op} {len : Len} {o : Ops} (h : i.word? = some (op, len, o)) :
    encode i = encodeOps op len o := by
  unfold encode
  split
  · cases h
  · rw [h]

theorem decodeWord_encodeOps {i : Instr} {op : Op} {len : Len} {o : Ops} (hi : Instr.ofWord op len o = some i)
    (hwf : opsWellFormed op len o = true) :
    decodeWord (encodeOps op len o) = some i ∧ lenBytes (encodeOps op len o % 4) = len.bytes := by
  have hcode := Nat.lt_succ_of_lt (lenCode_lt len)
  have hlen : (wbits (encodeOps op len o) 0 2).toNat = lenCode len := by
    rw [encodeOps_eq, encodeLow_len_read _ hcode]
  have hop : Op.ofCode (wbits (encodeOps op len o) 2 10).toNat = some op := by rw [encodeOps_eq, encodeLow_opcode_read]
  refine ⟨?_, ?_⟩
  · rw [decodeWord_fields hlen hop (decodeOps_encodeOps hi hwf), hi]
  · rw [mod_four_eq, hlen, lenBytes_lenCode]

/-! ## Pair words (R106) -/

/-- A half that may stand in a pair word has an opcode of class 0 or 1 and is well-formed in its 64-bit form. -/
theorem pairable_wellFormed {h : Half} (hp : h.pairable = true) :
    opsWellFormed h.op .w64 h.o = true ∧ (encOf h.op .w64 h.o.m h.o.imm).off16 = false := by
  simp only [Half.pairable, Bool.and_eq_true, decide_eq_true_eq] at hp
  obtain ⟨⟨⟨⟨⟨⟨⟨hclass, -⟩, hwf⟩, -⟩, -⟩, -⟩, -⟩, -⟩ := hp
  refine ⟨hwf, Bool.eq_false_iff.2 fun hoff => ?_⟩
  have := encOf_off16_class hoff
  omega

/-- A half is read back from its place in a pair word, whatever its LEN bits hold and whatever follows it. -/
theorem decodeHalf_encodeLow {h : Half} (hp : h.pairable = true) (code y : Nat) :
    decodeHalf ((encodeLow h.op code false h.o).toNat + 2 ^ 64 * y) = some h := by
  obtain ⟨hwf, hoff⟩ := pairable_wellFormed hp
  have hfields := decodeOps_encodeLow code y hwf (fun h => absurd (hoff.symm.trans h) Bool.false_ne_true) fun x _ =>
    immRead_immWord x (opsWellFormed_immFits hwf hoff)
  rw [hoff, Bool.and_false] at hfields
  unfold decodeHalf
  simp only [encodeLow_opcode_read, hfields, Option.map_some]

/-- A pair word decodes to its halves, and its length is 16 bytes (R99, R106). -/
theorem decodeWord_pairWord {h0 h1 : Half} (hp : pairWellFormed h0 h1 = true) :
    decodeWord (encode (.pairWord h0 h1)) = some (.pairWord h0 h1) ∧ lenBytes (encode (.pairWord h0 h1) % 4) = 16 := by
  have hhalves := hp
  simp only [pairWellFormed, Bool.and_eq_true] at hhalves
  obtain ⟨⟨⟨⟨⟨hp0, hp1⟩, -⟩, -⟩, -⟩, -⟩ := hhalves
  have hword : encode (.pairWord h0 h1) =
      (encodeLow h0.op 3 false h0.o).toNat + 2 ^ 64 * (encodeLow h1.op 0 false h1.o).toNat := rfl
  have hlen : (wbits (encode (.pairWord h0 h1)) 0 2).toNat = 3 := by rw [hword, encodeLow_len_read _ (by decide)]
  have hlen1 : (wbits (encode (.pairWord h0 h1)) 64 2).toNat = 0 := by
    rw [hword, wbits_high, BitVec.ofNat_toNat, BitVec.setWidth_eq_extractLsb' (by decide), encodeLow_len]
    rfl
  have hhalf0 : decodeHalf (encode (.pairWord h0 h1)) = some h0 := by rw [hword, decodeHalf_encodeLow hp0]
  have hhalf1 : decodeHalf (encode (.pairWord h0 h1) >>> 64) = some h1 := by
    rw [hword, shiftRight_half]
    exact decodeHalf_encodeLow hp1 0 0
  refine ⟨?_, ?_⟩
  · unfold decodeWord
    simp only [hlen, hlen1, hhalf0, hhalf1, hp, if_true]
  · rw [mod_four_eq, hlen]
    rfl

theorem wellFormed_cases {i : Instr} (h : i.wellFormed = true) :
    (∃ h0 h1, i = .pairWord h0 h1 ∧ pairWellFormed h0 h1 = true) ∨
      ∃ op len o, i.word? = some (op, len, o) ∧ Instr.ofWord op len o = some i ∧ opsWellFormed op len o = true := by
  unfold Instr.wellFormed at h
  split at h
  · next h0 h1 => exact .inl ⟨h0, h1, rfl, h⟩
  · split at h
    · next op len o hword =>
      rw [Bool.and_eq_true] at h
      exact .inr ⟨op, len, o, hword, eq_of_beq h.1, h.2⟩
    · cases h

/-- Settles O57: a word's fields are read back one by one, those of a pair word half by half. -/
theorem decodeEncode : Obligations.DecodeEncode := by
  intro i hi
  rcases wellFormed_cases hi with ⟨h0, h1, rfl, hp⟩ | ⟨op, len, o, hword, hof, hwf⟩
  · exact decodeWord_pairWord hp
  · rw [encode_word hword, Instr.bytes, hword]
    exact decodeWord_encodeOps hof hwf

/-! ## The worked encodings of the spec -/

theorem examples_encode : ∀ e ∈ Claims.examples1 ++ Claims.examples2,
    e.2.wellFormed = true ∧ wordOfBytes (e.1.take 16) = encode e.2 := by decide

/-- Settles O56: the bytes of each worked encoding are those of a well-formed instruction's word, which decodes to it. -/
theorem wordsDecode : Obligations.WordsDecode := by
  intro e he
  obtain ⟨hwf, hword⟩ := examples_encode e he
  obtain ⟨hdecode, -⟩ := decodeEncode e.2 hwf
  rw [decodeBytes, hword, hdecode]

end Sys2Proof.Machine
end

section
/-!
PROOF. Pair words (R106, R107): what one that passes every check makes of its halves' effects.
-/

namespace Sys2Proof.Machine

/-- The group of a pair word that passes every check: both halves' reads come before both halves' writes (R46, R107). -/
def IC.trackedPair (x y : IC) (f h : Foot) : Group :=
  { x.g with track := (((x.g.track.reads f x.act).reads h y.act).writes f x.act x.g.live).writes h y.act x.g.live }

theorem preparePair_ready {x y : IC} {f h : Foot} (hbounds : (f.both h).outOfBounds x.g.allot = none)
    (hfree : x.g.busy (f.both h) = false)
    (hlegal0 : ((x.g.track.reads f x.act).reads h y.act).firstIllegal f x.act = none)
    (hlegal1 : ((x.g.track.reads f x.act).reads h y.act).firstIllegal h y.act = none) :
    x.preparePair y f h = .go (x.trackedPair y f h) := by
  unfold IC.preparePair
  simp only [hbounds, hfree, hlegal0, hlegal1]
  rfl

/-- With no lane dying, an instruction's effects are what its meaning makes of its operands. -/
theorem dying_zero {x : IC} {eff : IC → Ops → Eff} {o : Ops} (hd : (eff x o).die = 0) : x.dying eff o 0 = eff x o := by
  unfold IC.dying
  have hdie : (eff x o).die ||| 0 = 0 := by rw [hd]; rfl
  simp only [hdie, if_true]
  rw [← hd]

/-- A pair word that passes every check, reads no poison and whose halves' lanes live commits one half's effects and then
the other's, both read from the state before it. -/
theorem execPairWord_commits {h0 h1 : Half} {s : State} {x y : IC} (hx : s.ic h0.o.g = some x) (hy : s.ic h1.o.g = some y)
    {g : Group} (hgo : x.preparePair y (x.g.foot h0.op .w64 h0.o) (x.g.foot h1.op .w64 h1.o) = .go g)
    (hclean0 : x.g.poisonedLanes (x.g.foot h0.op .w64 h0.o).rv x.act = 0)
    (hclean1 : x.g.poisonedLanes (x.g.foot h1.op .w64 h1.o).rv y.act = 0)
    (hdie0 : (effHalf h0 x h0.o).die = 0) (hdie1 : (effHalf h1 y h1.o).die = 0) :
    execPairWord h0 h1 s =
      x.retire ((g.commit x.act (effHalf h0 x h0.o)).commit y.act (effHalf h1 y h1.o)) 0 := by
  have hdie : (0 ||| 0 ||| 0 ||| 0 : Mask) = 0 := rfl
  unfold execPairWord
  simp only [hx, hy, hgo, hclean0, hclean1, hdie0, hdie1, hdie, dying_zero]

/-- Settles O7: both halves' effects are read before either is committed, and the pair retires as one instruction. -/
theorem pairWordCompletes : Obligations.PairWordCompletes := by
  intro h0 h1 s x y hx hy hbounds hfree hlegal0 hlegal1 hclean0 hclean1 hdie0 hdie1
  have hexec : exec (.pairWord h0 h1) s = execPairWord h0 h1 s := rfl
  obtain ⟨hs, -, -, -⟩ := ic_eq hx
  rw [hexec, execPairWord_commits hx hy (preparePair_ready hbounds hfree hlegal0 hlegal1) hclean0 hclean1 hdie0 hdie1]
  obtain ⟨t, hretire, ht, ⟨q, a, sl, mv, hg⟩, hothers⟩ := retireTo_spec x
    (((x.trackedPair y (x.g.foot h0.op .w64 h0.o) (x.g.foot h1.op .w64 h1.o)).commit x.act (effHalf h0 x h0.o)).commit y.act
      (effHalf h1 y h1.o)) fun _ => x.nextPc
  rw [hs] at ht hothers
  refine ⟨t, _, hretire, hg, ⟨ht, hothers⟩, MemoryKept.of_cores (by rw [ht]) (by rw [ht]), rfl, rfl, rfl, rfl, rfl, rfl⟩

end Sys2Proof.Machine
end

section
/-!
PROOF. Program faults and the fetch (R110 to R113, R391, R394): what raising a fault changes, and what a fetch finds.
-/

namespace Sys2Proof.Machine

theorem exec_illegalInstruction (k : IllKind) (s : State) : exec (.illegalInstruction k) s = execIllegalInstruction k s := rfl

theorem illegalInstructionsFault : Claims.IllegalInstructionsFault := by
  refine ⟨fun s x p0 p1 hx => ?_, fun s x a n hx => ?_, fun s gid pc g hg => ?_⟩
  · rw [exec_illegalInstruction, execIllegalInstruction, hx]
  · rw [exec_illegalInstruction, execIllegalInstruction, hx]
  · have hexec : exec (.instructionFetchMiss gid pc) s = execInstructionFetchMiss gid pc s := rfl
    rw [hexec, execInstructionFetchMiss, hg]

theorem faultStopsGroup : Claims.FaultStopsGroup := by
  intro s gd x kind d0 d1 hx
  obtain ⟨hs, -, hg, -⟩ := ic_eq hx
  refine ⟨_, x.g.stopRec s kind (BitVec.ofNat 64 d0) (BitVec.ofNat 64 d1) x.act x.cu.pc, rfl, ?_⟩
  rw [hs, raiseFault_spec _ _ _ _ _ _ _ hg]
  refine ⟨by simp, by simp, rfl, rfl, rfl, rfl, rfl, rfl, rfl, rfl, rfl, rfl, rfl, MemoryKept.of_cores rfl rfl,
    fun n hn => ?_, rfl⟩
  rw [State.setGroup_get_ne _ _ hn, State.setCtx_get_group]

/-- Settles O19: what is no instruction raises its fault, and raising a fault halts the group and adds its record. -/
theorem programFaults : Obligations.ProgramFaults := ⟨illegalInstructionsFault, faultStopsGroup⟩

end Sys2Proof.Machine
end

section
/-!
PROOF. A step with a chosen split, and one with none (R99, R110 to R113, R392).
-/

namespace Sys2Proof.Machine

/-! ## The bytes of a fetch -/

/-- Where no byte has changed since the launch of any grid, a fetch reads memory as it stands (R113). -/
theorem codeBytes_unchanged {s : State} {grid pa n : Nat} (h : ∀ i, i < n → smGet [] s.past (pa + i) = []) :
    s.codeBytes grid pa n = s.memRead pa n := by
  unfold State.codeBytes
  split
  · rfl
  · refine List.ext_getElem (by simp) fun i hi hi' => ?_
    have hin : i < n := by simpa [State.memRead] using hi'
    simp [h i hin]

/-- Where none of the first `n` bytes is poisoned, the first is not. -/
theorem take_one_clean {bs : List (Byte × Bool)} {n : Nat} (hn : 1 ≤ n) (h : (bs.take n).any (·.2) = false) :
    (bs.take 1).any (·.2) = false := by
  rw [List.any_eq_false] at h ⊢
  exact fun p hp => h p (List.take_subset_take_left bs hn hp)

theorem one_le_lenBytes (n : Nat) : 1 ≤ lenBytes n := by
  unfold lenBytes
  split
  · decide
  · split <;> decide

section Fetch
variable {s : State} {r : IssueRef} {cu : Issuing} {g : Group} {pa w : Nat} {bs : List (Byte × Bool)}
  (hcu : s.refIssuing r = some cu) (hg : s.group? r.gid = some g)
  (htr : s.translate { g.req r.gid .fetch false with who := .fetch r.gid cu.pc } cu.pc.toNat = .ok pa)
  (hkey : s.misKeyed { g.req r.gid .fetch false with who := .fetch r.gid cu.pc } [cu.pc.toNat] = [])
  (hbs : s.codeBytes g.grid pa (min 16 (32 - cu.pc.toNat % 32)) = bs)
include hcu hg htr hkey hbs

/-- A fetch whose first byte is poisoned reads none of them (R392). -/
theorem fetch_poisoned (h : (bs.take 1).any (·.2) = true) : s.fetch r = .poisoned cu := by
  unfold State.fetch
  simp only [hcu, hg, htr, hkey, hbs, h, if_true]
  rfl

/-- A fetch of clean bytes within the block that decode to an instruction finds that instruction (R99, R110). -/
theorem fetch_decoded {i : Instr} (hw : leNat (bs.map (·.1)) = w) (hclean : (bs.take (lenBytes (w % 4))).any (·.2) = false)
    (hal : cu.pc.toNat % 4 = 0) (hin : cu.pc.toNat % 32 + lenBytes (w % 4) ≤ 32) (hi : decodeWord w = some i) :
    s.fetch r = .got i { cu with len := lenBytes (w % 4) } := by
  have hfirst := take_one_clean (one_le_lenBytes _) hclean
  have hblock : (decide (cu.pc.toNat % 4 ≠ 0) || decide (32 < cu.pc.toNat % 32 + lenBytes (w % 4))) = false := by
    simp [hal, hin]
  unfold State.fetch
  simp only [hcu, hg, htr, hkey, hbs, hw, hfirst, Bool.false_eq_true, if_false, hclean, hblock, hi]
  rfl

end Fetch

/-! ## The step -/

theorem step_got {s : State} {r : IssueRef} {rest : List IssueRef} {i : Instr} {cu : Issuing} (hs : s.issue = r :: rest)
    (h : ({ s with issue := rest } : State).fetch r = .got i cu) :
    step s = exec i { s with issue := rest, cur := some cu, fresh := s.fresh + s.codeDraws } := by
  unfold step
  simp only [hs, h]
  rfl

theorem step_poisoned {s : State} {r : IssueRef} {rest : List IssueRef} {cu : Issuing} (hs : s.issue = r :: rest)
    (h : ({ s with issue := rest } : State).fetch r = .poisoned cu) :
    step s = .next (({ s with issue := rest } : State).fetchPoison cu) := by
  unfold step
  simp only [hs, h]

theorem step_agenda {s : State} {e : Instr} {rest : List Instr} (hs : s.issue = []) (ha : s.agenda = e :: rest) :
    step s = exec e { s with agenda := rest, cur := none } := by
  unfold step
  simp only [hs, ha]

/-- Settles O55: what the fetch finds decides the step. -/
theorem stepRunsDecoded : Obligations.StepRunsDecoded := by
  refine ⟨fun s r rest cu g pa w i hs hcu hg rq hrq htr hkey bs hbs hw => ?_, fun s grid pa n h => codeBytes_unchanged h,
    fun s e rest hs ha => step_agenda hs ha⟩
  subst hrq
  have hbytes : ({ s with issue := rest } : State).codeBytes g.grid pa (min 16 (32 - cu.pc.toNat % 32)) = bs := hbs.symm
  exact ⟨fun hclean hal hin hi => step_got hs (fetch_decoded hcu hg htr hkey hbytes hw.symm hclean hal hin hi),
    fun hpoison => step_poisoned hs (fetch_poisoned hcu hg htr hkey hbytes hpoison)⟩

end Sys2Proof.Machine
end

section
/-!
PROOF. Loads (R117, R205, R238, R240 to R242, R244, R374): a load by lane and an LDU read at the issue and are posted; what an LDL
reads of its team's scratch; and the landing of the words.
-/

namespace Sys2Proof.Machine

open Sys2Proof.Claims

/-! ## Loads by lane -/

theorem loadRows_exec : ∀ r ∈ loadRows, ∀ o s, exec (r.con o) s = issueLaneLoad r.op r.len r.sp o s := by
  intro r hr
  fin_cases hr <;> exact fun _ _ => rfl

/-- The state in which a load by lane reads: its checks have passed. -/
def IC.issued (x : IC) (s : State) (f : Foot) : State := s.setGroup x.cu.gid (x.tracked f)

theorem issued_group (x : IC) (s : State) (f : Foot) : (x.issued s f).group? x.cu.gid = some (x.tracked f) :=
  State.setGroup_get_self ..

theorem issued_memoryKept (x : IC) (s : State) (f : Foot) : MemoryKept s (x.issued s f) := .of_cores rfl rfl

/-- A load by lane whose lanes all translate and read no poison: it has read, been posted, and counted for R249. -/
theorem issueLaneLoad_after {op : Op} {len : Len} {sp : Ops → Space} {o : Ops} {s : State} {x : IC} {ok : List (Nat × List Nat)}
    {bad : List Nat} (hp : Plain s o.g (footOf op len o) x) (hroom : x.g.cntLd < 63)
    (hgo : x.reach (sp o) (accSize o) .load false (laneList x (x.laneAddr o (sp o) (accSize o))) = .go ok bad [])
    {v : State} (hv : v = x.issued s (footOf op len o x)) (hclean : (x.readLanes v (sp o) ok).2.2 = 0) :
    ∃ u g, issueLaneLoad op len sp o s = .next (x.after u ((u.group? x.cu.gid).getD g)) ∧
      u = (v.loaded x.cu.gid x.g.core x.g.buf (sp o) (laneReads ok) (run (x.g.opV o.d) (vRegs (accSize o))) [] []
        (loadWrites (x.g.opV o.d) (accSize o) (accSx o) (x.readLanes v (sp o) ok).2.1)).countClass3 x.cu.gid := by
  have hdead : x.g.poisonedLanes (x.g.foot op len o).rv x.act = 0 := hp.clean
  have hroom' : ¬ 63 ≤ (x.tracked (x.g.foot op len o)).cntLd := Nat.not_le.2 hroom
  have hv' : x.s.setGroup x.cu.gid (x.tracked (x.g.foot op len o)) = v := by rw [hv, hp.s_eq]; rfl
  have hnone : (0 : Mask) ||| 0 = 0 := rfl
  unfold laneList at hgo
  unfold issueLaneLoad
  rw [issueWith_ready hp.ic hp.ready]
  simp only [hroom', if_false, hdead, and_not_zero, hgo, hv', hclean, hnone, postLive_alive, List.isEmpty_nil, if_true]
  exact ⟨_, _, retire_after .., rfl⟩

/-- Such a load posts its lanes' words; no register changes at the issue, and no memory where no tenure is held. -/
theorem issueLaneLoad_posts {op : Op} {len : Len} {sp : Ops → Space} {o : Ops} {s : State} {x : IC} {ok : List (Nat × List Nat)}
    {bad : List Nat} (hp : Plain s o.g (footOf op len o) x) (hroom : x.g.cntLd < 63)
    (hgo : x.reach (sp o) (accSize o) .load false (laneList x (x.laneAddr o (sp o) (accSize o))) = .go ok bad [])
    (hclean : (x.readLanes (x.issued s (footOf op len o x)) (sp o) ok).2.2 = 0) :
    ∃ u g', issueLaneLoad op len sp o s = .next (x.after u g') ∧ RegsSame x.g g' ∧
      LoadPosted x.g g' (run (x.g.opV o.d) (vRegs (accSize o))) [] [] (loadWrites (x.g.opV o.d) (accSize o) (accSx o)
        (x.readLanes (x.issued s (footOf op len o x)) (sp o) ok).2.1) ∧
      (s.tenures = [] → MemoryKept s (x.after u g')) := by
  obtain ⟨u, g, hexec, hu⟩ := issueLaneLoad_after hp hroom hgo rfl hclean
  obtain ⟨c, n, hloaded⟩ := loaded_group x.g.core x.g.buf (sp o) (laneReads ok) (run (x.g.opV o.d) (vRegs (accSize o))) [] []
    (loadWrites (x.g.opV o.d) (accSize o) (accSx o) (x.readLanes (x.issued s (footOf op len o x)) (sp o) ok).2.1)
    (issued_group x s (footOf op len o x))
  obtain ⟨lr, hcounted⟩ := countClass3_group hloaded
  rw [hu, hcounted, ← hu, Option.getD_some] at hexec
  obtain ⟨hregs, hposted, -, -⟩ := posted_spec (tracked_regsSame x (footOf op len o x)) rfl rfl c n lr _ [] [] _ rfl
  refine ⟨u, _, hexec, hregs, hposted, fun hfree => ?_⟩
  rw [hu]
  exact after_memoryKept x _ (((issued_memoryKept ..).trans (loaded_memoryKept _ _ _ _ _ _ _ _ _ hfree)).trans
    (countClass3_memoryKept ..))

theorem laneLoadsPost : Claims.LaneLoadsPost := by
  intro r hr o s x ok bad hp hroom hgo hclean
  rw [loadRows_exec r hr]
  exact issueLaneLoad_posts hp hroom hgo hclean

/-! ## Uniform loads (R244) -/

theorem ldu_exec (im : Bool) (o : Ops) (s : State) :
    exec (if im then .lduImm o else .ldu o) s = issueUniLoad (if im then .w96 else .w64) o s := by
  cases im <;> rfl

/-- What one group-wide read finds. -/
def IC.uniRead (x : IC) (v : State) (sp : Space) (ok : List (Nat × List Nat)) : State × List (List (Byte × Bool)) :=
  v.readPlaces x.cu.gid x.g.core x.g.buf sp [(none, (ok.map (·.2)).headD [])]

/-- The S registers that an LDU makes of the bytes that it has read (R238). -/
def lduWords (o : Ops) (rd : State × List (List (Byte × Bool))) : List W64 :=
  sWords (accSize o) (accSx o) ((rd.2.headD []).map (·.1))

/-- An LDU that translates and reads no poison: it has read, counted for R249, and been posted. -/
theorem issueUniLoad_after {len : Len} {o : Ops} {s : State} {x : IC} {ok : List (Nat × List Nat)} {bad : List Nat}
    (hp : Plain s o.g (footOf .ldu len o) x) (hroom : x.g.cntLd < 63)
    (hgo : x.reach (accSpace o) (accSize o) .load false [(0, x.uniAddr o (accSpace o))] = .go ok bad [])
    {rd : State × List (List (Byte × Bool))} (hrd : rd = x.uniRead (x.issued s (footOf .ldu len o x)) (accSpace o) ok)
    (hclean : (rd.2.headD []).any (·.2) = false) :
    ∃ u g, issueUniLoad len o s = .next (x.after u ((u.group? x.cu.gid).getD g)) ∧
      u = (rd.1.countClass3 x.cu.gid).postLoad x.cu.gid [] (run (opNum o.d) (lduWords o rd).length) []
        ((lduWords o rd).zipIdx.map fun w => .s (opNum o.d + w.2) w.1) := by
  have hroom' : ¬ 63 ≤ (x.tracked (x.g.foot .ldu len o)).cntLd := Nat.not_le.2 hroom
  have hrd' : (x.s.setGroup x.cu.gid (x.tracked (x.g.foot .ldu len o))).readPlaces x.cu.gid x.g.core x.g.buf (accSpace o)
      [(none, (ok.map (·.2)).headD [])] = rd := by rw [hrd, hp.s_eq]; rfl
  unfold issueUniLoad
  rw [issueWith_ready hp.ic hp.ready]
  simp only [hroom', if_false, hgo, hrd', hclean, List.isEmpty_nil, Bool.not_true, Bool.false_eq_true]
  exact ⟨_, _, retire_after .., rfl⟩

/-- Such an LDU posts its words; no register changes at the issue, and no memory where no tenure is held. -/
theorem issueUniLoad_posts {len : Len} {o : Ops} {s : State} {x : IC} {ok : List (Nat × List Nat)} {bad : List Nat}
    (hp : Plain s o.g (footOf .ldu len o) x) (hroom : x.g.cntLd < 63)
    (hgo : x.reach (accSpace o) (accSize o) .load false [(0, x.uniAddr o (accSpace o))] = .go ok bad [])
    {rd : State × List (List (Byte × Bool))} (hrd : rd = x.uniRead (x.issued s (footOf .ldu len o x)) (accSpace o) ok)
    (hclean : (rd.2.headD []).any (·.2) = false) :
    ∃ u g', issueUniLoad len o s = .next (x.after u g') ∧ RegsSame x.g g' ∧
      LoadPosted x.g g' [] (run (opNum o.d) (lduWords o rd).length) []
        ((lduWords o rd).zipIdx.map fun w => .s (opNum o.d + w.2) w.1) ∧
      (s.tenures = [] → MemoryKept s (x.after u g')) := by
  obtain ⟨u, g, hexec, hu⟩ := issueUniLoad_after hp hroom hgo hrd hclean
  have hleave : LinesLeave (x.issued s (footOf .ldu len o x)) rd.1 := hrd ▸ readPlaces_linesLeave ..
  obtain ⟨c, hread⟩ := hleave.group _ _ (issued_group x s (footOf .ldu len o x))
  obtain ⟨lr, hcounted⟩ := countClass3_group hread
  rw [hu, postLoad_group _ _ _ _ hcounted, ← hu, Option.getD_some] at hexec
  obtain ⟨hregs, hposted, -, -⟩ := posted_spec (tracked_regsSame x (footOf .ldu len o x)) rfl rfl c _ lr [] _ [] _ rfl
  refine ⟨u, _, hexec, hregs, hposted, fun hfree => ?_⟩
  have hkept : MemoryKept (x.issued s (footOf .ldu len o x)) rd.1 := hrd ▸ readPlaces_free _ _ _ _ _ hfree
  rw [hu]
  exact after_memoryKept x _ ((((issued_memoryKept ..).trans hkept).trans (countClass3_memoryKept ..)).trans
    (postLoad_memoryKept ..))

theorem uniformLoadsPost : Claims.UniformLoadsPost := by
  intro o s x im ok bad hp hroom hgo rd hclean
  rw [ldu_exec]
  exact issueUniLoad_posts hp hroom hgo rfl hclean

/-- Settles O21: a load by lane and an LDU read at the issue, and are posted with the words that they have read. -/
theorem loadsPost : Obligations.LoadsPost := ⟨laneLoadsPost, uniformLoadsPost⟩

/-! ## What an LDL reads (R238, R240, R242) -/

/-- The bytes of a scratch from an address. -/
def scratchBytes (b : Bank) (a n : Nat) : List Byte := (List.range n).map fun i => bankByte b (a + i)

/-- The bytes of a bank at places, as a reader finds them where nothing is buffered or poisoned. -/
def cleanBytes (b : Bank) (places : List Nat) : List (Byte × Bool) := places.map fun a => (bankByte b a, false)

theorem cleanBytes_unpoisoned (b : Bank) (places : List Nat) : (cleanBytes b places).any (·.2) = false := by
  simp [cleanBytes]

/-- The places of the lanes of a load of scratch (R202, R240). -/
def scratchPlaces (x : IC) (n : Nat) (lanes : List (Nat × Int)) : List (Nat × List Nat) :=
  lanes.map fun p => (p.1, run (scratchBase x.team + p.2.toNat) n)

/-- A load of scratch within its reservation, with nothing buffered, reaches its places (R240, R241). -/
theorem reach_scratch {x : IC} {n : Nat} {lanes : List (Nat × Int)} (hin : firstOutside x.team .l n lanes = none)
    (hbuf : x.g.buf = []) (hlate : x.g.late = []) :
    x.reach .l n .load false lanes = .go (scratchPlaces x n lanes) [] [] := by
  unfold IC.reach
  simp only [hin, Group.awaits, hbuf, hlate]
  rfl

/-- Every lane of such a load reads the bytes of the bank, and none of them reads poison. -/
theorem readLanes_scratch {x : IC} {v : State} (ok : List (Nat × List Nat)) (hbuf : x.g.buf = [])
    (hclean : ∀ a, bankPoison (v.core x.g.core).scratch a = false) :
    x.readLanes v .l ok = (v, ok.map fun p => (p.1, cleanBytes (v.core x.g.core).scratch p.2), 0) := by
  have hread : v.readPlaces x.cu.gid x.g.core x.g.buf .l (ok.map fun p => (some p.1, p.2)) =
      (v, ok.map fun p => cleanBytes (v.core x.g.core).scratch p.2) := by
    unfold State.readPlaces
    simp only [hbuf, seeByte_empty, CoreSt.bank, hclean, List.map_map]
    rfl
  have hzip : (ok.map (·.1)).zip (ok.map fun p => cleanBytes (v.core x.g.core).scratch p.2) =
      ok.map fun p => (p.1, cleanBytes (v.core x.g.core).scratch p.2) := List.zip_map' ..
  have hunpoisoned : ∀ q ∈ ok.map fun p => (p.1, cleanBytes (v.core x.g.core).scratch p.2), q.2.any (·.2) = false := by
    intro q hq
    obtain ⟨p, -, rfl⟩ := List.mem_map.1 hq
    exact cleanBytes_unpoisoned ..
  unfold IC.readLanes
  simp only [hread, hzip]
  rw [List.filter_eq_self.2 fun q hq => by rw [hunpoisoned q hq]; rfl,
    List.filter_eq_nil_iff.2 fun q hq => by rw [hunpoisoned q hq]; exact Bool.false_ne_true]
  rfl

/-! ## Landing (R117, R374) -/

/-- The landing of writes changes V, S and K registers, and the poison of V registers. -/
theorem land_frame (g : Group) (ws : List RegWrite) :
    ∃ v vp s k, ws.foldl Group.land g = { g with v := v, vpoison := vp, s := s, k := k } := by
  refine foldl_keeps (fun h => ∃ v vp s k, h = { g with v := v, vpoison := vp, s := s, k := k }) _ ?_ ws g ⟨_, _, _, _, rfl⟩
  rintro _ w ⟨v, vp, s, k, rfl⟩
  cases w <;> exact ⟨_, _, _, _, rfl⟩

theorem loadsLand : Claims.LoadsLand := by
  intro s gid op g p hg hfind hrun hpower
  have hexec : exec (.loadDataLands gid op) s = execLoadDataLands gid op s := rfl
  obtain ⟨v, vp, sr, k, hland⟩ := land_frame g p.writes
  have hup : (decide (g.status = .halted) || !(s.die (dieOfCore g.core)).powered) = false := by simp [hrun, hpower]
  rw [hexec, execLoadDataLands]
  simp only [hg, hfind, hup, Bool.false_eq_true, if_false]
  exact ⟨_, rfl, rfl, rfl, rfl, rfl, by rw [hland]⟩

theorem inMask_laneBit (l : Nat) {m : Nat} (hm : m < 64) : inMask (laneBit l) m = decide (m = l) := by
  rw [Bool.eq_iff_iff]
  simp [inMask, laneBit, hm]
  omega

/-- A landed word is read in its register and lane, and every other register and lane reads as before (R117). -/
theorem land_v (g : Group) (r l : Nat) (val : W32) (q : Nat) {m : Nat} (hm : m < 64) :
    (g.land (.v r l val)).rdV q m = if q = r ∧ m = l then val else g.rdV q m := by
  have hwritten : (g.land (.v r l val)).rdV q m = vRead (vWrite g.v r (laneBit l) (List.replicate 64 val)) q m := rfl
  have hval : (List.replicate 64 val).getD m 0 = val := by
    rw [List.getD_eq_getElem _ _ (by simpa using hm), List.getElem_replicate]
  rw [hwritten, vRead_vWrite _ _ _ _ _ hm, inMask_laneBit _ hm, hval, rdV_eq]
  simp only [decide_eq_true_eq]

/-- A word that lands is what its register reads as in its lane, where every write to them is of that word. -/
theorem land_settles {ws : List RegWrite} {g : Group} {r l : Nat} {val : W32} (hl : l < 64) (hmem : .v r l val ∈ ws)
    (hsame : ∀ w ∈ ws, ∃ q m u, w = .v q m u ∧ (q = r → m = l → u = val)) : (ws.foldl Group.land g).rdV r l = val := by
  induction ws using List.reverseRecOn with
  | nil => cases hmem
  | append_singleton ws w ih =>
    obtain ⟨q, m, u, rfl, hu⟩ := hsame w (by simp)
    rw [List.foldl_append, List.foldl_cons, List.foldl_nil, land_v _ _ _ _ _ hl]
    split
    next h => exact hu h.1.symm h.2.symm
    next h =>
      refine ih ?_ fun w hw => hsame w (by simp [hw])
      rcases List.mem_append.1 hmem with hmem | hmem
      · exact hmem
      · simp only [List.mem_singleton, RegWrite.v.injEq] at hmem
        exact absurd ⟨hmem.1, hmem.2.1⟩ h

/-- The writes of a load by lane, lane by lane and word by word (R238). -/
theorem mem_loadWrites {r n : Nat} {sx : Bool} {got : List (Nat × List (Byte × Bool))} {w : RegWrite} :
    w ∈ loadWrites r n sx got ↔
      ∃ l bs, (l, bs) ∈ got ∧ ∃ u k, (vWords n sx (bs.map (·.1)))[k]? = some u ∧ .v (r + k) l u = w := by
  simp only [loadWrites, List.mem_flatMap, List.mem_map, Prod.exists, List.mem_zipIdx_iff_getElem?]

/-- Each word that the lanes of a load have read lands in its register and lane (R117, R238). -/
theorem loadWrites_land (g : Group) (r n : Nat) (sx : Bool) (lanes : List Nat) (bytes : Nat → List (Byte × Bool)) {l k : Nat}
    (hin : l ∈ lanes) (hl : l < 64) (hk : k < (vWords n sx ((bytes l).map (·.1))).length) :
    ((loadWrites r n sx (lanes.map fun l => (l, bytes l))).foldl Group.land g).rdV (r + k) l =
      (vWords n sx ((bytes l).map (·.1))).getD k 0 := by
  have hword : (vWords n sx ((bytes l).map (·.1)))[k]? = some ((vWords n sx ((bytes l).map (·.1))).getD k 0) := by
    rw [List.getD_eq_getElem _ _ hk, List.getElem?_eq_getElem hk]
  refine land_settles hl (mem_loadWrites.2 ⟨l, bytes l, List.mem_map_of_mem hin, _, k, hword, rfl⟩) fun w hw => ?_
  obtain ⟨m, bs, hm, u, j, hj, rfl⟩ := mem_loadWrites.1 hw
  obtain ⟨m', -, heq⟩ := List.mem_map.1 hm
  obtain ⟨rfl, rfl⟩ := Prod.mk.inj heq
  refine ⟨_, _, _, rfl, fun hq hlane => ?_⟩
  obtain rfl : j = k := Nat.add_left_cancel hq
  subst hlane
  exact Option.some.inj (hj.symm.trans hword)

/-- A load of a size that SZ names fills the registers of its run (R238). -/
theorem vWords_length (o : Ops) (sx : Bool) (bs : List Byte) : (vWords (accSize o) sx bs).length = vRegs (accSize o) := by
  unfold accSize szBytes
  split <;> simp [vWords, vRegs]

/-- What the lanes of a load of scratch have read: each the bytes from its address in its team's scratch (R240). -/
theorem scratchPlaces_read (x : IC) (b : Bank) (n : Nat) (addr : Nat → Int) :
    (scratchPlaces x n (laneList x addr)).map (fun p => (p.1, cleanBytes b p.2)) =
      (lanesOf x.act).map fun l => (l, (scratchBytes b (scratchBase x.team + (addr l).toNat) n).map fun v => (v, false)) := by
  simp only [scratchPlaces, laneList, scratchBytes, cleanBytes, run, List.map_map, Function.comp_def]

theorem localLoadReadsScratch : Claims.LocalLoadReadsScratch := by
  intro o s x h hp hroom hin hbuf hlate hclean
  have hgo := reach_scratch hin hbuf hlate
  have hread := readLanes_scratch (x := x) (v := x.issued s (footOf .ldl .w64 o x))
    (scratchPlaces x (accSize o) (laneList x (x.laneAddr o .l (accSize o)))) hbuf hclean
  rw [scratchPlaces_read] at hread
  obtain ⟨u, g', hexec, -, ⟨-, n, hpending⟩, -⟩ := issueLaneLoad_posts (sp := fun _ => .l) hp hroom hgo (by rw [hread])
  refine ⟨u, g', _, hexec, hpending, fun l k hl hk => ?_⟩
  rw [hread, loadWrites_land h _ _ _ (lanesOf x.act) _ (lanesOf_mem.2 hl) (inMask_lt hl) (by rw [vWords_length]; exact hk),
    List.map_map]
  exact congrArg (fun bs => (vWords (accSize o) (accSx o) bs).getD k 0) (List.map_id _)

/-- Settles O20: an LDL posts the words that its lanes read of scratch, which land each in its register and lane; and a landing
changes no more than the writes that land, CNT.LD and what is pending. -/
theorem loadedDataLands : Obligations.LoadedDataLands := ⟨localLoadReadsScratch, loadsLand⟩

end Sys2Proof.Machine
end

section
/-!
PROOF. Predicates that instructions write (R118, R134, R137, R154, R155, R180, R181): carry-outs, comparisons, classes, moves
and PMUX, each in the lanes that it writes.
-/

namespace Sys2Proof.Machine

open Sys2Proof.Claims

/-! ## A predicate that has been written -/

/-- A bit of a predicate after the bits of a mask of it have been written (R118). -/
theorem pWrite_bit (p : List Mask) {n : Nat} (m v : Mask) (hn : n ≠ 7) {l : Nat} (hl : l < 64) :
    inMask ((pWrite p n m v).getD n 0) l = if inMask m l then inMask v l else inMask (p.getD n 0) l := by
  rw [pWrite_getD _ _ _ _ hn, if_pos rfl, inMask_or, inMask_and, inMask_and, inMask_not _ hl]
  cases inMask m l <;> simp

/-- The predicates of a group that commits effects on one of them, of which no lane dies. -/
theorem commit_predicate {g : Group} {act m v : Mask} {e : Eff} {n : Nat} (he : e.p = [(n, m, v)]) (hd : e.die = 0) :
    (g.commit act e).p = pWrite g.p n m v := by
  simp only [Group.commit, he, hd, and_not_zero, List.foldl_cons, List.foldl_nil]

/-- A register-only instruction goes on with the predicates and the S registers that its effects give. -/
theorem issueAlu_predicates {op : Op} {len : Len} {eff : IC → Ops → Eff} {o : Ops} {s : State} {x : IC}
    (hp : Plain s o.g (footOf op len o) x) (hd : (eff x o).die = 0) :
    ∃ t g', issueAlu op len eff o s = .next t ∧ t.group? x.cu.gid = some g' ∧
      g'.p = (x.g.commit x.act (eff x o)).p ∧ g'.s = (x.g.commit x.act (eff x o)).s := by
  obtain ⟨t, hexec, -, ⟨q, a, sl, mv, hg⟩, -⟩ := issueAlu_spec hp.ic hp.ready hd hp.clean
  exact ⟨t, _, hexec, hg, rfl, rfl⟩

/-- An instruction that writes the bits of a mask of one predicate, as it goes on: a P7 destination receives no change (R118). -/
theorem issueAlu_writesPredicate {op : Op} {len : Len} {eff : IC → Ops → Eff} {o : Ops} {s : State} {x : IC} {n : Nat}
    {m v : Mask} (hp : Plain s o.g (footOf op len o) x) (he : (eff x o).p = [(n, m, v)]) (hd : (eff x o).die = 0) :
    ∃ t g', issueAlu op len eff o s = .next t ∧ t.group? x.cu.gid = some g' ∧ (n = 7 → g'.p = x.g.p) ∧
      (n ≠ 7 → ∀ l, l < 64 → inMask (g'.p.getD n 0) l = if inMask m l then inMask v l else inMask (x.g.p.getD n 0) l) := by
  obtain ⟨t, g', hexec, hg, hpred, -⟩ := issueAlu_predicates hp hd
  rw [commit_predicate he hd] at hpred
  refine ⟨t, g', hexec, hg, fun h7 => ?_, fun hn l hl => ?_⟩
  · rw [hpred, h7, pWrite_seven]
  · rw [hpred, pWrite_bit _ _ _ hn hl]

/-- The same, where each active lane's bit is a function of the lane (R118). -/
theorem issueAlu_writesBits {op : Op} {len : Len} {eff : IC → Ops → Eff} {o : Ops} {s : State} {x : IC} {n : Nat}
    {f : Nat → Bool} (hp : Plain s o.g (footOf op len o) x) (he : (eff x o).p = [(n, x.act, maskOf f)])
    (hd : (eff x o).die = 0) :
    ∃ t g', issueAlu op len eff o s = .next t ∧ t.group? x.cu.gid = some g' ∧ (n = 7 → g'.p = x.g.p) ∧
      (n ≠ 7 → ∀ l, l < 64 → inMask (g'.p.getD n 0) l = if inMask x.act l then f l else inMask (x.g.p.getD n 0) l) := by
  obtain ⟨t, g', hexec, hg, h7, hbits⟩ := issueAlu_writesPredicate hp he hd
  refine ⟨t, g', hexec, hg, h7, fun hn l hl => ?_⟩
  rw [hbits hn l hl, maskOf_spec f hl]

/-- The same, where all 64 bits are written (R175). -/
theorem issueAlu_writesAll {op : Op} {len : Len} {eff : IC → Ops → Eff} {o : Ops} {s : State} {x : IC} {n : Nat}
    {v : Mask} (hp : Plain s o.g (footOf op len o) x) (he : eff x o = allOf n v) :
    ∃ t g', issueAlu op len eff o s = .next t ∧ t.group? x.cu.gid = some g' ∧
      (n ≠ 7 → ∀ l, l < 64 → inMask (g'.p.getD n 0) l = inMask v l) := by
  obtain ⟨t, g', hexec, hg, -, hbits⟩ := issueAlu_writesPredicate (n := n) (m := -1) (v := v) hp (congrArg Eff.p he)
    (congrArg Eff.die he)
  refine ⟨t, g', hexec, hg, fun hn l hl => ?_⟩
  have hall : inMask (-1 : Mask) l = true := by
    rw [show (-1 : Mask) = ~~~0#64 from rfl, inMask_not _ hl, inMask_zero]
    rfl
  rw [hbits hn l hl, hall, if_pos rfl]

/-! ## Carry-outs and borrow-outs (R134) -/

@[simp] theorem dest_p (x : IC) (o : Ops) (wide signed : Bool) (f : Nat → W64) : (x.dest o wide signed f).p = [] := by
  unfold IC.dest
  cases o.d with
  | v fld => cases wide <;> rfl
  | _ => rfl

@[simp] theorem dest_die (x : IC) (o : Ops) (wide signed : Bool) (f : Nat → W64) : (x.dest o wide signed f).die = 0 := by
  unfold IC.dest
  cases o.d with
  | v fld => cases wide <;> rfl
  | _ => rfl

/-- An instruction of a result and an enabled carry-out writes each active lane's carry. -/
theorem issueAlu_carries {op : Op} {len : Len} {eff : IC → Ops → Eff} {o : Ops} {s : State} {x : IC} {f : Nat → Bool}
    {v : Nat → W64} (hp : Plain s o.g (footOf op len o) x) (hco : mbit o.m 55 = true) (hn : mfld o.m 54 52 ≠ 7)
    (he : eff x o = x.carryOut o f (x.dest o o.wide o.signed v)) :
    ∃ t g', issueAlu op len eff o s = .next t ∧ t.group? x.cu.gid = some g' ∧
      ∀ l, l < 64 → inMask (g'.p.getD (mfld o.m 54 52) 0) l =
        if inMask x.act l then f l else inMask (x.g.p.getD (mfld o.m 54 52) 0) l := by
  rw [IC.carryOut, if_pos hco, dest_p, List.nil_append] at he
  obtain ⟨t, g', hexec, hg, -, hbits⟩ := issueAlu_writesBits (f := f) hp (congrArg Eff.p he)
    ((congrArg Eff.die he).trans (dest_die ..))
  exact ⟨t, g', hexec, hg, hbits hn⟩

theorem carryIn_toNat (x : IC) (o : Ops) (l : Nat) : (x.carryIn o l).toNat = (carryBit x o l).toNat := by
  unfold IC.carryIn carryBit
  cases inMask (x.g.pred (opNum o.c)) l <;> rfl

theorem iadd_exec (im : Bool) (o : Ops) (s : State) : exec (if im then .iaddImm o else .iadd o) s =
    issueAlu .iadd (if im then .w96 else .w64) (effIadd im) o s := by
  cases im <;> rfl

theorem iaddc_exec (im : Bool) (o : Ops) (s : State) : exec (if im then .iaddcImm o else .iaddc o) s =
    issueAlu .iaddc (if im then .w96 else .w64) (effIaddc im) o s := by
  cases im <;> rfl

theorem isub_exec (im : Bool) (o : Ops) (s : State) : exec (if im then .isubImm o else .isub o) s =
    issueAlu .isub (if im then .w96 else .w64) (effIsub im) o s := by
  cases im <;> rfl

theorem isubb_exec (im : Bool) (o : Ops) (s : State) : exec (if im then .isubbImm o else .isubb o) s =
    issueAlu .isubb (if im then .w96 else .w64) (effIsubb im) o s := by
  cases im <;> rfl

theorem carriesOut : Claims.CarriesOut := by
  intro o s x im hco hn
  refine ⟨fun hp => ?_, fun hp => ?_, fun hp => ?_, fun hp => ?_⟩
  · rw [iadd_exec]
    exact issueAlu_carries (eff := effIadd im) hp hco hn rfl
  · simp only [iaddc_exec, ← carryIn_toNat]
    exact issueAlu_carries (eff := effIaddc im) hp hco hn rfl
  · rw [isub_exec]
    exact issueAlu_carries (eff := effIsub im) hp hco hn rfl
  · simp only [isubb_exec, ← carryIn_toNat]
    exact issueAlu_carries (eff := effIsubb im) hp hco hn rfl

/-! ## Comparisons and classes (R137, R154, R155) -/

theorem icmp_exec (im : Bool) (o : Ops) (s : State) : exec (if im then .icmpImm o else .icmp o) s =
    issueAlu .icmp (if im then .w96 else .w64) (effIcmp im) o s := by
  cases im <;> rfl

theorem compareWritesPredicate : Claims.CompareWritesPredicate := by
  intro o s x im hp
  obtain ⟨t, g', hexec, hg, h7, hbits⟩ := issueAlu_writesBits (eff := effIcmp im) hp rfl rfl
  refine ⟨t, g', (icmp_exec im o s).trans hexec, hg, h7, fun hn l hl => ?_⟩
  rw [hbits hn l hl]
  congr 1
  unfold icmpV asInt srcA srcB
  rcases mfld o.m 50 48 with _ | _ | _ | _ | _ | cond
  case succ.zero => exact decide_not.symm
  all_goals rfl

theorem fcmp_exec (im : Bool) (o : Ops) (s : State) : exec (if im then .fcmpImm o else .fcmp o) s =
    issueAlu .fcmp (if im then .w96 else .w64) (effFcmp im) o s := by
  cases im <;> rfl

/-- A floating-point test writes each active lane's result. -/
theorem issueAlu_tests {op : Op} {len : Len} {eff : IC → Ops → Eff} {o : Ops} {s : State} {x : IC} {f : Nat → Bool × Fl}
    (hp : Plain s o.g (footOf op len o) x) (hn : opNum o.d ≠ 7) (he : eff x o = x.laneP o f) :
    ∃ t g', issueAlu op len eff o s = .next t ∧ t.group? x.cu.gid = some g' ∧
      ∀ l, l < 64 → inMask (g'.p.getD (opNum o.d) 0) l =
        if inMask x.act l then (f l).1 else inMask (x.g.p.getD (opNum o.d) 0) l := by
  obtain ⟨t, g', hexec, hg, -, hbits⟩ := issueAlu_writesBits hp (congrArg Eff.p he) (congrArg Eff.die he)
  refine ⟨t, g', hexec, hg, fun l hl => ?_⟩
  rw [hbits hn l hl, lanes64_getD _ _ hl]
  cases inMask x.act l <;> rfl

theorem floatPredicates : Claims.FloatPredicates := by
  intro o s x hn
  refine ⟨fun im hp => ?_, fun hp => issueAlu_tests (eff := effFclass) hp hn rfl⟩
  rw [fcmp_exec]
  exact issueAlu_tests (eff := effFcmp im) hp hn rfl

/-! ## Moves and PMUX (R180, R181) -/

theorem predicateMoves : Claims.PredicateMoves := by
  intro o s x
  refine ⟨fun hp => ?_, fun hp hn => ?_⟩
  · have hexec : exec (.pmov o) s = issueAlu .pmov .w64 effPmov o s := rfl
    rw [hexec]
    rcases hdir : mfld o.m 49 48 with _ | _ | dir
    · have he : effPmov x o = allOf (opNum o.d) (x.g.pred (opNum o.a)) := by rw [effPmov, hdir]; rfl
      obtain ⟨t, g', hnext, hg, hbits⟩ := issueAlu_writesAll hp he
      exact ⟨t, g', hnext, hg, fun _ => hbits, nofun, nofun⟩
    · have he : effPmov x o = allOf (opNum o.d) (x.g.rdS (opNum o.a)) := by rw [effPmov, hdir]; rfl
      obtain ⟨t, g', hnext, hg, hbits⟩ := issueAlu_writesAll hp he
      exact ⟨t, g', hnext, hg, nofun, fun _ => hbits, nofun⟩
    · have he : effPmov x o = { s := [(opNum o.d, x.g.pred (opNum o.a))] } := by rw [effPmov, hdir]; rfl
      obtain ⟨t, g', hnext, hg, -, hs⟩ := issueAlu_predicates (eff := effPmov) hp (by rw [he])
      refine ⟨t, g', hnext, hg, nofun, nofun, fun _ => ?_⟩
      rw [hs, he, Group.commit]
      exact setAt_getD_self ..
  · obtain ⟨t, g', hnext, hg, hbits⟩ := issueAlu_writesAll (eff := effPmux) hp rfl
    refine ⟨t, g', hnext, hg, fun l hl => ?_⟩
    rw [hbits hn l hl]
    exact klop_bit o _ _ _ hl

/-- Settles O5: each instruction goes on with one predicate written, in the lanes that its effects name. -/
theorem predicateResults : Obligations.PredicateResults :=
  ⟨carriesOut, compareWritesPredicate, floatPredicates, predicateMoves⟩

end Sys2Proof.Machine
end

section
/-!
PROOF. The frame of register-only instructions (R114, R117, R132, R151, R175): of each, that its effects write no register but
those that its word's footprint names, and what a group that commits such effects keeps.
-/

namespace Sys2Proof.Machine

open Sys2Proof.Claims

/-! ## Registers written, as a footprint -/

/-- Every register that one footprint writes is one that another writes. -/
structure Foot.WritesIn (a b : Foot) : Prop where
  v : a.wv ⊆ b.wv
  s : a.ws ⊆ b.ws
  x : a.wx ⊆ b.wx
  p : a.wp ⊆ b.wp
  k : a.wk ⊆ b.wk

theorem Foot.WritesIn.refl (a : Foot) : a.WritesIn a :=
  ⟨List.Subset.refl _, List.Subset.refl _, List.Subset.refl _, List.Subset.refl _, List.Subset.refl _⟩

theorem Foot.WritesIn.trans {a b c : Foot} (h : a.WritesIn b) (h' : b.WritesIn c) : a.WritesIn c :=
  ⟨List.Subset.trans h.v h'.v, List.Subset.trans h.s h'.s, List.Subset.trans h.x h'.x, List.Subset.trans h.p h'.p,
    List.Subset.trans h.k h'.k⟩

/-- A footprint that differs in what it reads writes the same. -/
theorem Foot.WritesIn.of_eq {a b : Foot} (hv : a.wv = b.wv) (hs : a.ws = b.ws) (hx : a.wx = b.wx) (hp : a.wp = b.wp)
    (hk : a.wk = b.wk) : a.WritesIn b := ⟨hv ▸ List.Subset.refl _, hs ▸ List.Subset.refl _, hx ▸ List.Subset.refl _,
  hp ▸ List.Subset.refl _, hk ▸ List.Subset.refl _⟩

theorem Foot.writesIn_left (a b : Foot) : a.WritesIn (a.both b) :=
  ⟨List.subset_append_left .., List.subset_append_left .., List.subset_append_left .., List.subset_append_left ..,
    List.subset_append_left ..⟩

theorem Foot.writesIn_right (a b : Foot) : b.WritesIn (a.both b) :=
  ⟨List.subset_append_right .., List.subset_append_right .., List.subset_append_right .., List.subset_append_right ..,
    List.subset_append_right ..⟩

theorem Foot.WritesIn.both {a b c : Foot} (ha : a.WritesIn c) (hb : b.WritesIn c) : (a.both b).WritesIn c :=
  ⟨List.append_subset.2 ⟨ha.v, hb.v⟩, List.append_subset.2 ⟨ha.s, hb.s⟩, List.append_subset.2 ⟨ha.x, hb.x⟩,
    List.append_subset.2 ⟨ha.p, hb.p⟩, List.append_subset.2 ⟨ha.k, hb.k⟩⟩

/-- The registers that an instruction's effects write, as a footprint. -/
def Eff.writes (e : Eff) : Foot :=
  { wv := e.v.map (·.1), ws := e.s.map (·.1), wx := e.x.map (·.1), wp := e.p.map (·.1), wk := e.k.map (·.1) }

/-! ## What a commit keeps -/

/-- A register of a file that no write names keeps its value. -/
theorem foldl_setAt_other {α : Type} (d : α) (ws : List (Nat × α)) (l : List α) {n : Nat} (h : ¬ n ∈ ws.map (·.1)) :
    (ws.foldl (fun l w => setAt d l w.1 w.2) l).getD n d = l.getD n d := by
  refine foldl_keeps_mem (fun k => k.getD n d = l.getD n d) _ ws (fun k w hw hk => ?_) l rfl
  have hne : n ≠ w.1 := fun heq => h (heq ▸ List.mem_map_of_mem hw)
  rw [setAt_getD_ne _ _ _ hne]
  exact hk

/-- A predicate that no write names keeps its bits. -/
theorem foldl_pWrite_other (die : Mask) (ws : List (Nat × Mask × Mask)) (p : List Mask) {n : Nat} (h : ¬ n ∈ ws.map (·.1)) :
    (ws.foldl (fun p w => pWrite p w.1 (w.2.1 &&& ~~~die) w.2.2) p).getD n 0 = p.getD n 0 := by
  refine foldl_keeps_mem (fun q => q.getD n 0 = p.getD n 0) _ ws (fun q w hw hq => ?_) p rfl
  have hne : n ≠ w.1 := fun heq => h (heq ▸ List.mem_map_of_mem hw)
  rw [pWrite_other _ _ _ hne]
  exact hq

/-- A lane of a V register that no write names, or that is not among the active lanes, keeps its value. -/
theorem commit_rdV_other (g : Group) (act : Mask) (e : Eff) {r l : Nat} (hl : l < 64)
    (h : ¬ r ∈ e.v.map (·.1) ∨ inMask act l = false) : (g.commit act e).rdV r l = g.rdV r l := by
  refine vRead_writes_other _ e.v g.v r hl (h.imp (fun hr w hw heq => hr (heq ▸ List.mem_map_of_mem hw)) fun hact => ?_)
  rw [inMask_and, hact, Bool.false_and]

theorem commit_s_other (g : Group) (act : Mask) (e : Eff) {n : Nat} (h : ¬ n ∈ e.s.map (·.1)) :
    (g.commit act e).s.getD n 0 = g.s.getD n 0 := foldl_setAt_other 0 e.s g.s h

theorem commit_x_other (g : Group) (act : Mask) (e : Eff) {n : Nat} (h : ¬ n ∈ e.x.map (·.1)) :
    (g.commit act e).x.getD n 0 = g.x.getD n 0 := foldl_setAt_other 0 e.x g.x h

theorem commit_p_other (g : Group) (act : Mask) (e : Eff) {n : Nat} (h : ¬ n ∈ e.p.map (·.1)) :
    (g.commit act e).p.getD n 0 = g.p.getD n 0 := foldl_pWrite_other e.die e.p g.p h

theorem commit_k_other (g : Group) (act : Mask) (e : Eff) {n : Nat} (h : ¬ n ∈ e.k.map (·.1)) :
    (g.commit act e).k.getD n ⟨0, 0, 0⟩ = g.k.getD n ⟨0, 0, 0⟩ := foldl_setAt_other (⟨0, 0, 0⟩ : KReg) e.k g.k h

/-- A group that commits effects whose registers are among those a footprint writes keeps all others (R117). -/
theorem commit_registersKept (g : Group) (act : Mask) {e : Eff} {f : Foot} (h : e.writes.WritesIn f) :
    RegistersKept g (g.commit act e) f act :=
  ⟨fun _ _ hl hor => commit_rdV_other g act e hl (hor.imp_left fun hr hin => hr (h.v hin)),
    fun _ hn => commit_s_other g act e fun hin => hn (h.s hin), fun _ hn => commit_x_other g act e fun hin => hn (h.x hin),
    fun _ hn => commit_p_other g act e fun hin => hn (h.p hin), fun _ hn => commit_k_other g act e fun hin => hn (h.k hin),
    ⟨rfl, rfl⟩, ⟨rfl, rfl⟩, rfl, ⟨rfl, rfl, rfl⟩, ⟨rfl, rfl, rfl, rfl, rfl⟩, ⟨rfl, rfl⟩⟩

/-- What an instruction tracks and where its lanes stand are no registers. -/
theorem RegistersKept.issued {x : IC} {f fw : Foot} {act : Mask} {h : Group} (hk : RegistersKept (x.tracked f) h fw act)
    (q : List Quad) (a : List SplitAge) (sl : List Sleeper) (mv : List Nat) :
    RegistersKept x.g (h.withControl q a sl mv) fw act :=
  ⟨hk.v, hk.s, hk.x, hk.p, hk.k, hk.rmr, hk.traps, hk.replay, hk.lanes, hk.counters, hk.buffer⟩

/-! ## The registers of the fields of a word -/

/-- The registers that a field names, written. -/
def Group.fieldWrites (g : Group) (kd : FKind) (o : Opd) : Foot := g.addField kd o .write {}

/-- A field that is written leaves what the fields before it write. -/
theorem addField_write_keeps (g : Group) (kd : FKind) (o : Opd) (f : Foot) : f.WritesIn (g.addField kd o .write f) := by
  cases kd <;> constructor <;> simp [Group.addField]

theorem fieldWrites_in_addField (g : Group) (kd : FKind) (o : Opd) (f : Foot) :
    (g.fieldWrites kd o).WritesIn (g.addField kd o .write f) := by
  cases kd <;> constructor <;> simp [Group.fieldWrites, Group.addField]

/-- The registers that a word's DST field, its C field (R147, R160) and its carry-out (R130) write. -/
def Group.wordWrites (g : Group) (op : Op) (len : Len) (o : Ops) : Foot :=
  ((g.fieldWrites (encOf op len o.m o.imm).d o.d).both
    (if useC op = .write then g.fieldWrites (encOf op len o.m o.imm).c o.c else {})).both { wp := predOut op o.m }

/-- All of them are registers that the word's footprint writes. -/
theorem wordWrites_in_foot (g : Group) {op : Op} (len : Len) {o : Ops} (hop : op ≠ .cpyv) (hd : useD op o.m = .write) :
    (g.wordWrites op len o).WritesIn (g.foot op len o) := by
  unfold Group.wordWrites Group.foot
  simp only [hop, hd, decide_false, Bool.false_and, Bool.false_eq_true, if_false]
  generalize g.addField (encOf op len o.m o.imm).b o.b _ _ = f
  have hpred (h : Foot) (rs : List Nat) : h.WritesIn { h with wp := h.wp ++ predOut op o.m, rs := h.rs ++ rs } :=
    ⟨List.Subset.refl _, List.Subset.refl _, List.Subset.refl _, List.subset_append_left .., List.Subset.refl _⟩
  refine .both (.both (.trans (fieldWrites_in_addField ..) (hpred ..)) (.trans ?_ (hpred ..))) ?_
  · refine .trans ?_ (addField_write_keeps ..)
    split
    next h => exact h ▸ fieldWrites_in_addField ..
    next => exact ⟨nofun, nofun, nofun, nofun, nofun⟩
  · exact ⟨nofun, nofun, nofun, List.subset_append_right .., nofun⟩

theorem dst_in_wordWrites (g : Group) (op : Op) (len : Len) (o : Ops) :
    (g.fieldWrites (encOf op len o.m o.imm).d o.d).WritesIn (g.wordWrites op len o) :=
  (Foot.writesIn_left ..).trans (Foot.writesIn_left ..)

theorem c_in_wordWrites (g : Group) {op : Op} (len : Len) (o : Ops) (h : useC op = .write) :
    (g.fieldWrites (encOf op len o.m o.imm).c o.c).WritesIn (g.wordWrites op len o) := by
  unfold Group.wordWrites
  rw [if_pos h]
  exact (Foot.writesIn_right ..).trans (Foot.writesIn_left ..)

theorem predOut_in_wordWrites (g : Group) (op : Op) (len : Len) (o : Ops) :
    Foot.WritesIn { wp := predOut op o.m } (g.wordWrites op len o) := Foot.writesIn_right ..

/-! ## Effects that stay within their word -/

/-- Of a word of the machine, the effects write no register but those of its DST, its C field and its carry-out. -/
def EffConfined (op : Op) (len : Len) (eff : IC → Ops → Eff) : Prop :=
  ∀ (x : IC) (o : Ops), opsWellFormed op len o = true → (eff x o).writes.WritesIn (x.g.wordWrites op len o)

theorem wellFormed_spec {op : Op} {len : Len} {o : Ops} (h : opsWellFormed op len o = true) :
    (encOf op len o.m o.imm).ok = true ∧ FKindFits (encOf op len o.m o.imm).d o.d = true := by
  unfold opsWellFormed at h
  split at h
  next hop =>
    subst hop
    rw [eq_of_beq h]
    exact ⟨rfl, rfl⟩
  next =>
    simp only [Bool.and_eq_true] at h
    obtain ⟨⟨⟨⟨⟨⟨hok, -⟩, hd⟩, -⟩, -⟩, -⟩, -⟩ := h
    exact ⟨hok, hd⟩

variable {op : Op} {len : Len} {eff : IC → Ops → Eff}

/-- Effects that write within the DST field of a word that fits its entry stay within the word. -/
theorem EffConfined.of_dst (h : ∀ (x : IC) (o : Ops), (encOf op len o.m o.imm).ok = true →
    FKindFits (encOf op len o.m o.imm).d o.d = true →
      (eff x o).writes.WritesIn (x.g.fieldWrites (encOf op len o.m o.imm).d o.d)) :
    EffConfined op len eff := fun x o hwf =>
  (h x o (wellFormed_spec hwf).1 (wellFormed_spec hwf).2).trans (dst_in_wordWrites ..)

/-! ## The kinds of destination -/

/-- What a V, an S, an X, a P and a K field write. -/
theorem fieldWrites_v (g : Group) (n al : Nat) (o : Opd) : Foot.WritesIn { wv := run (g.opV o) n } (g.fieldWrites (.v n al) o) :=
  .of_eq rfl rfl rfl rfl rfl

theorem fieldWrites_s (g : Group) (o : Opd) : Foot.WritesIn { ws := [opNum o] } (g.fieldWrites (.s 1 1) o) :=
  .of_eq rfl rfl rfl rfl rfl

theorem fieldWrites_x (g : Group) (o : Opd) : Foot.WritesIn { wx := [opNum o] } (g.fieldWrites .x o) :=
  .of_eq rfl rfl rfl rfl rfl

theorem fieldWrites_p (g : Group) (o : Opd) : Foot.WritesIn { wp := [opNum o] } (g.fieldWrites .p o) :=
  .of_eq rfl rfl rfl rfl rfl

theorem fieldWrites_k (g : Group) (o : Opd) : Foot.WritesIn { wk := [opNum o] } (g.fieldWrites .k o) :=
  .of_eq rfl rfl rfl rfl rfl

theorem Foot.WritesIn.of_wv {a b : List Nat} (h : a ⊆ b) : Foot.WritesIn { wv := a } { wv := b } :=
  ⟨h, nofun, nofun, nofun, nofun⟩

theorem run_subset {r m n : Nat} (h : m ≤ n) : run r m ⊆ run r n := by
  intro q hq
  simp only [run, List.mem_map, List.mem_range] at hq ⊢
  obtain ⟨i, hi, rfl⟩ := hq
  exact ⟨i, by omega, rfl⟩

/-- What a result writes, by the kind of its destination (R117, R131, R133). -/
theorem dest_writes_v {x : IC} {o : Ops} {fld : VField} (wide signed : Bool) (f : Nat → W64) (hd : o.d = .v fld) :
    (x.dest o wide signed f).writes = { wv := run (x.g.opV o.d) (if wide then 2 else 1) } := by
  cases wide <;> simp [IC.dest, hd, Eff.writes, run, Group.opV, List.range_succ]

theorem dest_writes_s {x : IC} {o : Ops} {n : BitVec 6} (wide signed : Bool) (f : Nat → W64) (hd : o.d = .s n) :
    (x.dest o wide signed f).writes = { ws := [opNum o.d] } := by
  simp [IC.dest, hd, Eff.writes, opNum]

theorem dest_writes_x {x : IC} {o : Ops} {n : BitVec 2} (wide signed : Bool) (f : Nat → W64) (hd : o.d = .x n) :
    (x.dest o wide signed f).writes = { wx := [opNum o.d] } := by
  simp [IC.dest, hd, Eff.writes, opNum]

theorem fits_v {n al : Nat} {o : Opd} (h : FKindFits (.v n al) o = true) : ∃ fld, o = .v fld := by
  cases o with
  | v fld => exact ⟨fld, rfl⟩
  | _ => cases h

theorem fits_s {n al : Nat} {o : Opd} (h : FKindFits (.s n al) o = true) : ∃ m, o = .s m := by
  cases o with
  | s m => exact ⟨m, rfl⟩
  | _ => cases h

theorem fits_p {o : Opd} (h : FKindFits .p o = true) : ∃ m, o = .p m := by
  cases o with
  | p m => exact ⟨m, rfl⟩
  | _ => cases h

theorem fits_x {o : Opd} (h : FKindFits .x o = true) : ∃ m, o = .x m := by
  cases o with
  | x m => exact ⟨m, rfl⟩
  | _ => cases h

/-- A result of 32 or 64 bits goes into the registers that a V or S destination has for it (R117, R131). -/
theorem dest_in_vs {x : IC} {o : Ops} (wide signed : Bool) (f : Nat → W64) {isS : Bool} {n : Nat}
    (hn : (if wide then 2 else 1) ≤ n) (hfit : FKindFits (vs isS n) o.d = true) :
    (x.dest o wide signed f).writes.WritesIn (x.g.fieldWrites (vs isS n) o.d) := by
  cases isS with
  | false =>
    obtain ⟨fld, hd⟩ := fits_v hfit
    rw [dest_writes_v wide signed f hd]
    exact .trans (.of_wv (run_subset hn)) (fieldWrites_v ..)
  | true =>
    obtain ⟨m, hd⟩ := fits_s hfit
    rw [dest_writes_s wide signed f hd]
    exact fieldWrites_s ..

/-- The low 8 bits of a result go into an X destination (R133). -/
theorem dest_in_x {x : IC} {o : Ops} (wide signed : Bool) (f : Nat → W64) (hfit : FKindFits .x o.d = true) :
    (x.dest o wide signed f).writes.WritesIn (x.g.fieldWrites .x o.d) := by
  obtain ⟨m, hd⟩ := fits_x hfit
  rw [dest_writes_x wide signed f hd]
  exact fieldWrites_x ..

/-! ## Families of instructions -/

theorem wide_le (o : Ops) : (if o.wide then 2 else 1) ≤ (if 2 ≤ o.ty then 2 else 1) := by
  simp [Ops.wide]

/-- An instruction whose one result goes to a V or S destination of its type's width. -/
theorem EffConfined.typed
    (he : ∀ x o, ∃ f, eff x o = x.dest o o.wide o.signed f := by exact fun _ _ => ⟨_, rfl⟩)
    (hd : ∀ o : Ops, ∃ isS, (encOf op len o.m o.imm).d = vs isS (if 2 ≤ o.ty then 2 else 1) := by exact fun _ => ⟨_, rfl⟩) :
    EffConfined op len eff := by
  refine .of_dst fun x o _ hfit => ?_
  obtain ⟨isS, hkd⟩ := hd o
  obtain ⟨f, heff⟩ := he x o
  rw [hkd] at hfit ⊢
  rw [heff]
  exact dest_in_vs _ _ _ (wide_le o) hfit

/-- An instruction whose one result goes to a V or S destination of a width of its own. -/
theorem EffConfined.sized (wide : Bool)
    (he : ∀ x o, ∃ signed f, eff x o = x.dest o wide signed f := by exact fun _ _ => ⟨_, _, rfl⟩)
    (hd : ∀ o : Ops, ∃ isS, (encOf op len o.m o.imm).d = vs isS (if wide then 2 else 1) := by exact fun _ => ⟨_, rfl⟩) :
    EffConfined op len eff := by
  refine .of_dst fun x o _ hfit => ?_
  obtain ⟨isS, hkd⟩ := hd o
  obtain ⟨signed, f, heff⟩ := he x o
  rw [hkd] at hfit ⊢
  rw [heff]
  exact dest_in_vs _ _ _ (Nat.le_refl _) hfit

/-- A move of the type's width, whose destination may be an X register (R133). -/
theorem EffConfined.move
    (he : ∀ x o, ∃ f, eff x o = x.dest o o.wide o.signed f := by exact fun _ _ => ⟨_, rfl⟩)
    (hd : ∀ o : Ops, (encOf op len o.m o.imm).d = if mbit o.m 60 then .x else vs (mbit o.m 63) (if 2 ≤ o.ty then 2 else 1) := by
      exact fun _ => rfl) : EffConfined op len eff := by
  refine .of_dst fun x o _ hfit => ?_
  obtain ⟨f, heff⟩ := he x o
  rw [hd o] at hfit ⊢
  rw [heff]
  split at hfit
  next hx =>
    rw [if_pos hx]
    exact dest_in_x _ _ _ hfit
  next hx =>
    rw [if_neg hx]
    exact dest_in_vs _ _ _ (wide_le o) hfit

theorem carryOut_writes (x : IC) (o : Ops) (c : Nat → Bool) (e : Eff) :
    (x.carryOut o c e).writes = e.writes.both { wp := if mbit o.m 55 then [mfld o.m 54 52] else [] } := by
  unfold IC.carryOut
  split <;> simp [Eff.writes, Foot.both]

/-- Effects with a carry-out stay within the word where those without it do. -/
theorem EffConfined.carries {eff' : IC → Ops → Eff} (h : EffConfined op len eff')
    (he : ∀ x o, ∃ c, eff x o = x.carryOut o c (eff' x o))
    (hout : ∀ m, predOut op m = if mbit m 55 then [mfld m 54 52] else []) : EffConfined op len eff := by
  intro x o hwf
  obtain ⟨c, heff⟩ := he x o
  rw [heff, carryOut_writes]
  refine .both (h x o hwf) ?_
  rw [← hout]
  exact predOut_in_wordWrites ..

/-- A result of the type's width with a carry-out (R134). -/
theorem EffConfined.sum {f : IC → Ops → Nat → W64}
    (he : ∀ x o, ∃ c, eff x o = x.carryOut o c (x.dest o o.wide o.signed (f x o)) := by exact fun _ _ => ⟨_, rfl⟩)
    (hd : ∀ o : Ops, ∃ isS, (encOf op len o.m o.imm).d = vs isS (if 2 ≤ o.ty then 2 else 1) := by exact fun _ => ⟨_, rfl⟩)
    (hout : ∀ m, predOut op m = if mbit m 55 then [mfld m 54 52] else [] := by exact fun _ => rfl) : EffConfined op len eff :=
  .carries (eff' := fun x o => x.dest o o.wide o.signed (f x o)) (.typed (fun _ _ => ⟨_, rfl⟩) hd) he hout

/-- An instruction that writes a run of V registers from the one that its DST field names. -/
theorem EffConfined.vrun (n : Ops → Nat)
    (he : ∀ x o, (eff x o).writes = { wv := run (x.g.opV o.d) (n o) } := by exact fun _ _ => rfl)
    (hd : ∀ o : Ops, ∃ al, (encOf op len o.m o.imm).d = .v (n o) al := by exact fun _ => ⟨_, rfl⟩) :
    EffConfined op len eff := by
  refine .of_dst fun x o _ _ => ?_
  obtain ⟨al, hkd⟩ := hd o
  rw [hkd, he]
  exact fieldWrites_v ..

/-- An instruction that writes the predicate that its DST field names. -/
theorem EffConfined.pred (he : ∀ x o, (eff x o).writes = { wp := [opNum o.d] } := by exact fun _ _ => rfl)
    (hd : ∀ o : Ops, (encOf op len o.m o.imm).d = .p := by exact fun _ => rfl) : EffConfined op len eff := by
  refine .of_dst fun x o _ _ => ?_
  rw [hd, he]
  exact fieldWrites_p ..

/-- An instruction that writes the K register that its DST field names. -/
theorem EffConfined.tile (he : ∀ x o, (eff x o).writes = { wk := [opNum o.d] } := by exact fun _ _ => rfl)
    (hd : ∀ o : Ops, (encOf op len o.m o.imm).d = .k := by exact fun _ => rfl) : EffConfined op len eff := by
  refine .of_dst fun x o _ _ => ?_
  rw [hd, he]
  exact fieldWrites_k ..

theorem Foot.WritesIn.nothing (f : Foot) : Foot.WritesIn {} f := ⟨nofun, nofun, nofun, nofun, nofun⟩

/-- An instruction that writes none of these registers. -/
theorem EffConfined.silent (he : ∀ x o, (eff x o).writes = {} := by exact fun _ _ => rfl) : EffConfined op len eff :=
  fun x o _ => by
    rw [he]
    exact .nothing _

theorem lanewise_writes (x : IC) (r n : Nat) (draws : Bool) (f : Nat → W32 → LaneR) :
    (x.lanewise r n draws f).writes = { wv := run r n } := by
  simp [IC.lanewise, Eff.writes, run, Function.comp_def]

/-- An instruction that gives each lane of one V register a result (R151). -/
theorem EffConfined.lane
    (he : ∀ x o, ∃ draws f, eff x o = x.lanewise (x.g.opV o.d) 1 draws f := by exact fun _ _ => ⟨_, _, rfl⟩)
    (hd : ∀ o : Ops, ∃ al, (encOf op len o.m o.imm).d = .v 1 al := by exact fun _ => ⟨_, rfl⟩) :
    EffConfined op len eff := by
  refine .vrun (fun _ => 1) (fun x o => ?_) hd
  obtain ⟨draws, f, heff⟩ := he x o
  rw [heff, lanewise_writes]

/-! ## The tables of register-only instructions

For each table, the family of each of its rows in the table's order.
-/

theorem regRows1_confined : ∀ r ∈ regRows1, EffConfined r.op r.len r.eff := by
  simp only [regRows1, List.forall_mem_cons]
  exact ⟨.move, .move, .sized true, .sum, .sum, .sum, .sum, .sum, .sum, .sum, .sum, .typed, .typed, .typed, .typed, nofun⟩

theorem regRows2_confined : ∀ r ∈ regRows2, EffConfined r.op r.len r.eff := by
  simp only [regRows2, List.forall_mem_cons]
  exact ⟨.typed, .typed, .typed, .typed, .sized true (hd := fun _ => ⟨false, rfl⟩), .sized true (hd := fun _ => ⟨false, rfl⟩),
    .typed, .typed, .typed, .typed, .typed, .typed, .pred, .pred, .typed (hd := fun _ => ⟨false, rfl⟩), nofun⟩

theorem regRows3_confined : ∀ r ∈ regRows3, EffConfined r.op r.len r.eff := by
  simp only [regRows3, List.forall_mem_cons]
  exact ⟨.typed (hd := fun _ => ⟨false, rfl⟩), .typed, .typed, .typed, .typed, .typed, .typed, .typed, .typed, .typed, .typed,
    .typed, .typed, .typed, .typed, nofun⟩

theorem runWrites_regs (r : Nat) (f : Nat → Stream) : (runWrites r f).map (·.1) = run r 5 := by
  simp [runWrites, run, Function.comp_def]

/-- BSR writes the run that its C field names, the register of the field that it reads, and the empty predicate (R147). -/
theorem effBsr_confined : EffConfined .bsr .w64 effBsr := by
  intro x o _
  have hwrites : (effBsr x o).writes = (Foot.both { wv := run (x.g.opV o.c) 5 } { wv := run (x.g.opV o.d) 1 }).both
      { wp := predOut .bsr o.m } := by
    rw [effBsr, carryOut_writes]
    simp [Eff.writes, Foot.both, runWrites_regs]
    exact ⟨rfl, rfl⟩
  rw [hwrites]
  exact .both (.both ((fieldWrites_v ..).trans (c_in_wordWrites x.g (op := .bsr) .w64 o rfl))
    ((fieldWrites_v ..).trans (dst_in_wordWrites x.g .bsr .w64 o))) (predOut_in_wordWrites ..)

theorem regRows4_confined : ∀ r ∈ regRows4, EffConfined r.op r.len r.eff := by
  simp only [regRows4, List.forall_mem_cons]
  exact ⟨.typed, .typed, .typed, .typed, .typed, .sized false, .sized false, .sized false, .typed, .typed, .typed, .typed, .typed,
    effBsr_confined, .vrun (fun _ => 5), nofun⟩

theorem regRows5_confined : ∀ r ∈ regRows5, EffConfined r.op r.len r.eff := by
  simp only [regRows5, List.forall_mem_cons]
  exact ⟨.vrun fun _ => 1, .sized true, .sized true, .lane, .lane, .lane, .lane, .lane, .lane, .lane, .lane, .lane, .lane, .lane,
    .lane, nofun⟩

theorem packed2_writes (x : IC) (o : Ops) (f : Nat → Nat → Nat → Nat × Fl) :
    (x.packed2 o f).writes = { wv := run (x.g.opV o.d) 1 } := lanewise_writes ..

/-- A packed instruction, whose results are halves of one V register (R157). -/
theorem EffConfined.packed (he : ∀ x o, ∃ f, eff x o = x.packed2 o f := by exact fun _ _ => ⟨_, rfl⟩)
    (hd : ∀ o : Ops, ∃ al, (encOf op len o.m o.imm).d = .v 1 al := by exact fun _ => ⟨_, rfl⟩) :
    EffConfined op len eff := by
  refine .vrun (fun _ => 1) (fun x o => ?_) hd
  obtain ⟨f, heff⟩ := he x o
  rw [heff, packed2_writes]

/-- The types of CVTI that are 64 bits wide (R158). -/
theorem cvtType_wide (t : Nat) : (if (cvtType t).1 = 64 then 2 else 1) = if t == 2 || t == 3 then 2 else 1 := by
  rcases t with _ | _ | _ | _ | _ | _ | _ | _ | t <;> rfl

theorem effCvti_confined : EffConfined .cvti .w64 effCvti :=
  .vrun (fun o => if (cvtType (mfld o.m 50 48)).1 = 64 then 2 else 1) (fun _ _ => lanewise_writes ..) fun o => by
    rw [cvtType_wide]
    exact ⟨_, rfl⟩

/-- CVTN writes one register, and the headers of a Q4O block (R160, R161). -/
theorem effCvtn_confined : EffConfined .cvtn .w64 effCvtn := by
  intro x o _
  have hpacked : Foot.WritesIn { wv := run (x.g.opV o.d) 1 } (x.g.wordWrites .cvtn .w64 o) :=
    (fieldWrites_v ..).trans (dst_in_wordWrites x.g .cvtn .w64 o)
  have hblock (n : Nat) (hidx : 7 ≤ mfld o.m 52 48) : (x.cvtnQ4o o n).writes.WritesIn (x.g.wordWrites .cvtn .w64 o) := by
    have hc : (encOf .cvtn .w64 o.m o.imm).c = .v 1 1 := if_pos hidx
    have hheader := c_in_wordWrites x.g (op := .cvtn) .w64 o rfl
    rw [hc] at hheader
    exact .trans (.of_eq rfl rfl rfl rfl rfl) (.both hpacked ((fieldWrites_v ..).trans hheader))
  unfold effCvtn
  simp only
  split
  · exact hblock 4 (by omega)
  split
  · exact hblock 2 (by omega)
  · rw [lanewise_writes]
    exact hpacked

theorem regRows6_confined : ∀ r ∈ regRows6, EffConfined r.op r.len r.eff := by
  simp only [regRows6, List.forall_mem_cons]
  exact ⟨.pred, .pred, .pred, .lane, .lane, .lane, .packed, .packed, .packed, .packed, .packed, .packed, effCvti_confined, .lane,
    effCvtn_confined, nofun⟩

/-- SHFL writes the registers of its destination (R167). -/
theorem effShfl_confined (len : Len) (im : Bool)
    (hd : ∀ o : Ops, ∃ al, (encOf .shfl len o.m o.imm).d = .v (if mbit o.m 53 then 2 else 1) al) :
    EffConfined .shfl len (effShfl im) :=
  .vrun (fun o => if mbit o.m 53 then 2 else 1) (fun _ _ => by simp [effShfl, Eff.writes, run, Function.comp_def]) hd

/-- VOTE writes a predicate in modes 0 to 3, and an S register in modes 3 to 5 (R168). -/
theorem effVote_confined : EffConfined .vote .w64 effVote := by
  refine .of_dst fun x o hok hfit => ?_
  have hd : (encOf .vote .w64 o.m o.imm).d = if mbit o.m 63 then .s 1 1 else .p := rfl
  have hmode : (if mbit o.m 63 then decide (3 ≤ mfld o.m 50 48) else decide (mfld o.m 50 48 ≤ 3)) = true :=
    (Bool.and_eq_true_iff.1 hok).2
  rw [hd] at hfit ⊢
  unfold effVote
  cases hk : mbit o.m 63 with
  | true =>
    simp only [hk, if_true, decide_eq_true_eq] at hmode hfit ⊢
    obtain ⟨n, hod⟩ := fits_s hfit
    rcases hm : mfld o.m 50 48 with _ | _ | _ | _ | _ | mode
    case succ.succ.succ.zero => simp only [hod]; exact fieldWrites_s x.g (.s n)
    case succ.succ.succ.succ.zero => exact fieldWrites_s ..
    case succ.succ.succ.succ.succ => exact fieldWrites_s ..
    all_goals omega
  | false =>
    simp only [hk, Bool.false_eq_true, if_false, decide_eq_true_eq] at hmode hfit ⊢
    obtain ⟨n, hod⟩ := fits_p hfit
    rcases hm : mfld o.m 50 48 with _ | _ | _ | _ | mode
    case succ.succ.succ.zero => simp only [hod]; exact fieldWrites_p x.g (.p n)
    case succ.succ.succ.succ => omega
    all_goals exact fieldWrites_p ..

theorem regRows7_confined : ∀ r ∈ regRows7, EffConfined r.op r.len r.eff := by
  simp only [regRows7, List.forall_mem_cons]
  exact ⟨.vrun (fun o => packedCount (mfld o.m 52 48)) fun _ _ => lanewise_writes .., .lane, .lane, .lane, .lane, .lane, .lane,
    .lane, .lane, .lane, .silent, .silent, effShfl_confined _ _ fun _ => ⟨_, rfl⟩,
    effShfl_confined _ _ fun _ => ⟨_, rfl⟩, effVote_confined, nofun⟩

theorem reduce_writes (x : IC) (o : Ops) (stages : Nat) :
    (x.reduce o stages).writes = { wv := run (x.g.opV o.d) (if mbit o.m 53 then 2 else 1) } := by
  simp [IC.reduce, Eff.writes, run, Function.comp_def]

/-- GRED's destination is the same in both of its forms (R169, R170). -/
theorem encOf_gred_d (o : Ops) : ∃ al, (encOf .gred .w64 o.m o.imm).d = .v (if mbit o.m 53 then 2 else 1) al := by
  have henc : encOf .gred .w64 o.m o.imm = encClass1 .gred false o.m := rfl
  rw [henc]
  simp only [encClass1]
  split <;> exact ⟨_, rfl⟩

/-- BCAST writes a V or an S register, or none where its lanes die (R172). -/
theorem effBcast_confined : EffConfined .bcast .w64 effBcast := by
  refine .of_dst fun x o _ hfit => ?_
  have hd : (encOf .bcast .w64 o.m o.imm).d = vs (mbit o.m 63) 1 := rfl
  rw [hd] at hfit ⊢
  unfold effBcast
  simp only
  generalize x.g.crossPois _ _ = poisoned
  cases poisoned with
  | true => exact .nothing _
  | false =>
    cases hk : mbit o.m 63 with
    | true =>
      rw [hk] at hfit
      obtain ⟨n, hod⟩ := fits_s hfit
      simp only [hod]
      exact fieldWrites_s x.g (.s n)
    | false =>
      rw [hk] at hfit
      obtain ⟨fld, hod⟩ := fits_v hfit
      simp only [hod]
      exact hod ▸ fieldWrites_v x.g 1 1 o.d

/-- PMOV writes a predicate, or an S register in direction 2 (R180). -/
theorem effPmov_confined : EffConfined .pmov .w64 effPmov := by
  refine .of_dst fun x o hok _ => ?_
  have hd : (encOf .pmov .w64 o.m o.imm).d = if mfld o.m 49 48 == 2 then .s 1 1 else .p := rfl
  have hdir : mfld o.m 49 48 ≤ 2 := of_decide_eq_true (Bool.and_eq_true_iff.1 hok).2
  rw [hd]
  unfold effPmov
  rcases hm : mfld o.m 49 48 with _ | _ | _ | dir
  · exact fieldWrites_p ..
  · exact fieldWrites_p ..
  · exact fieldWrites_s ..
  · omega

theorem regRows8_confined : ∀ r ∈ regRows8, EffConfined r.op r.len r.eff := by
  simp only [regRows8, List.forall_mem_cons]
  exact ⟨.vrun _ fun _ _ => reduce_writes .., .vrun _ (fun _ _ => reduce_writes ..) encOf_gred_d, .vrun fun _ => 1,
    effBcast_confined, .pred, effPmov_confined, .pred, .silent, .silent, .silent, .tile, .tile, .tile, nofun⟩

/-! ## The obligation -/

/-- The effects of each register-only instruction stay within its word. -/
theorem regRows_confined : ∀ r ∈ regRows, EffConfined r.op r.len r.eff := by
  simp only [regRows, List.forall_mem_append]
  exact ⟨⟨⟨⟨⟨⟨⟨regRows1_confined, regRows2_confined⟩, regRows3_confined⟩, regRows4_confined⟩, regRows5_confined⟩,
    regRows6_confined⟩, regRows7_confined⟩, regRows8_confined⟩

/-- Each of them writes its DST field, and none of them is CPYV. -/
theorem regRows_writeDst : ∀ r ∈ regRows, r.op ≠ .cpyv ∧ ∀ m, useD r.op m = .write := by
  intro r hr
  fin_cases hr <;> exact ⟨nofun, fun _ => rfl⟩

/-- Bits that are raised in the GSR leave those that are set (R121). -/
theorem or_and_self (a b : W32) : (a ||| b) &&& a = a := by
  ext i hi
  simp only [BitVec.getElem_and, BitVec.getElem_or]
  cases a[i] <;> simp

/-- Settles O1: a register-only instruction goes on with its effects committed, which stay within its word's footprint. -/
theorem registerInstructionsFrame : Obligations.RegisterInstructionsFrame := by
  intro r hr o s x hwf hp hd
  obtain ⟨t, hexec, hgroups, ⟨q, a, sl, mv, hg⟩, hothers⟩ := issueAlu_spec hp.ic hp.ready hd hp.clean
  obtain ⟨hop, hdst⟩ := regRows_writeDst r hr
  have hin : (r.eff x o).writes.WritesIn (footOf r.op r.len o x) :=
    (regRows_confined r hr x o hwf).trans (wordWrites_in_foot x.g r.len hop (hdst o.m))
  refine ⟨t, _, (regRows_exec r hr o s).trans hexec, hg, ⟨hgroups, hothers⟩, ?_,
    (commit_registersKept _ x.act hin).issued .., ?_⟩
  · rw [hgroups]
    exact .of_cores rfl rfl
  · exact or_and_self ..

end Sys2Proof.Machine
end

section
/-!
PROOF. The results of the integer instructions (R133 to R147): what a destination reads as when an instruction of one result has
committed its effects, of each instruction that the value it commits is the one that its rule states, and what a run of a bit
stream reads as when BSR or BSRLD has written it.
-/

namespace Sys2Proof.Machine

open Sys2Proof.Claims

/-! ## An instruction of one result -/

/-- What a table of results states of one of its rows. -/
def RowHolds (r : LaneRow) : Prop :=
  ∀ (o : Ops) (s : State) (x : IC), Plain s o.g (footOf r.op r.len o) x →
    ∃ t g', exec (r.con o) s = .next t ∧ t.group? x.cu.gid = some g' ∧
      ∀ l, resultLane x.act o.d l →
        g'.reads (x.g.opV o.d) o.d (r.wide o) l = heldAs o.d (r.wide o) o.signed (r.f x o l)

theorem laneResults_iff (rows : List LaneRow) : LaneResults rows ↔ ∀ r ∈ rows, RowHolds r := Iff.rfl

/-- Effects write the V, S and X registers that a result's effects do, and no lane dies of them. -/
structure Eff.Gives (e d : Eff) : Prop where
  v : e.v = d.v
  s : e.s = d.s
  x : e.x = d.x
  die : e.die = 0

theorem dest_gives (x : IC) (o : Ops) (wide signed : Bool) (f : Nat → W64) :
    (x.dest o wide signed f).Gives (x.dest o wide signed f) := ⟨rfl, rfl, rfl, dest_die ..⟩

/-- A carry-out is a predicate beside the result (R134). -/
theorem carryOut_gives {e d : Eff} (x : IC) (o : Ops) (c : Nat → Bool) (h : e.Gives d) : (x.carryOut o c e).Gives d := by
  obtain ⟨hv, hs, hx, hd⟩ := h
  unfold IC.carryOut
  split <;> exact ⟨hv, hs, hx, hd⟩

/-- An instruction whose effects give a result goes on with that result in its destination. -/
theorem issueAlu_reads {op : Op} {len : Len} {eff : IC → Ops → Eff} {o : Ops} {s : State} {x : IC} {wide signed : Bool}
    {f : Nat → W64} (hp : Plain s o.g (footOf op len o) x) (he : (eff x o).Gives (x.dest o wide signed f)) :
    ∃ t g', issueAlu op len eff o s = .next t ∧ t.group? x.cu.gid = some g' ∧
      ∀ l, resultLane x.act o.d l → g'.reads (x.g.opV o.d) o.d wide l = heldAs o.d wide signed (f l) := by
  obtain ⟨hv, hs, hx, hd⟩ := he
  obtain ⟨t, hexec, -, ⟨q, a, sl, mv, hg⟩, -⟩ := issueAlu_spec hp.ic hp.ready hd hp.clean
  exact ⟨t, _, hexec, hg, fun l hl =>
    dest_reads x _ ⟨rfl, rfl, rfl⟩ o wide signed f _ q a sl mv l ⟨hv, hs, hx⟩ hd hl⟩

/-- A row holds where the effects of its instruction give a result that its destination holds as the row's value. -/
theorem RowHolds.of_gives {r : LaneRow} (eff : IC → Ops → Eff)
    (hexec : ∀ o s, exec (r.con o) s = issueAlu r.op r.len eff o s)
    (he : ∀ x o, ∃ signed f, (eff x o).Gives (x.dest o (r.wide o) signed f) ∧
      ∀ l, heldAs o.d (r.wide o) signed (f l) = heldAs o.d (r.wide o) o.signed (r.f x o l)) : RowHolds r := by
  intro o s x hp
  obtain ⟨signed, f, hgives, hval⟩ := he x o
  obtain ⟨t, g', hnext, hg, hreads⟩ := issueAlu_reads hp hgives
  exact ⟨t, g', (hexec o s).trans hnext, hg, fun l hl => (hreads l hl).trans (hval l)⟩

/-- The result is the row's value in every lane. -/
theorem RowHolds.result {r : LaneRow} (eff : IC → Ops → Eff)
    (hval : ∀ x o, ∃ f, eff x o = x.dest o (r.wide o) o.signed f ∧ ∀ l, f l = r.f x o l := by
      exact fun _ _ => ⟨_, rfl, fun _ => rfl⟩)
    (hexec : ∀ o s, exec (r.con o) s = issueAlu r.op r.len eff o s := by exact fun _ _ => rfl) : RowHolds r := by
  refine .of_gives eff hexec fun x o => ?_
  obtain ⟨f, heff, hf⟩ := hval x o
  exact ⟨o.signed, f, heff ▸ dest_gives .., fun l => congrArg _ (hf l)⟩

/-- The same, beside a carry-out. -/
theorem RowHolds.sum {r : LaneRow} (eff : IC → Ops → Eff)
    (hval : ∀ x o, ∃ c f, eff x o = x.carryOut o c (x.dest o (r.wide o) o.signed f) ∧ ∀ l, f l = r.f x o l)
    (hexec : ∀ o s, exec (r.con o) s = issueAlu r.op r.len eff o s := by exact fun _ _ => rfl) : RowHolds r := by
  refine .of_gives eff hexec fun x o => ?_
  obtain ⟨c, f, heff, hf⟩ := hval x o
  exact ⟨o.signed, f, heff ▸ carryOut_gives x o c (dest_gives ..), fun l => congrArg _ (hf l)⟩

/-! ## Sums, differences and products (R134, R135) -/

theorem addCarry_value (wide : Bool) (a b : W64) (ci : Bool) :
    (addCarry wide a b ci).1 = a + b + BitVec.ofNat 64 ci.toNat := by
  simp only [addCarry, BitVec.ofNat_add, BitVec.ofNat_toNat, BitVec.setWidth_eq]

theorem carryIn_value (x : IC) (o : Ops) (l : Nat) : BitVec.ofNat 64 (x.carryIn o l).toNat = carryBit x o l := by
  rw [carryIn_toNat, BitVec.ofNat_toNat, BitVec.setWidth_eq]

theorem effIadd_value (im : Bool) (x : IC) (o : Ops) : ∃ c f, effIadd im x o = x.carryOut o c (x.dest o o.wide o.signed f) ∧
    ∀ l, f l = srcA x o l + srcB im x o l :=
  ⟨_, _, rfl, fun _ => (addCarry_value ..).trans (BitVec.add_zero _)⟩

theorem effIsub_value (im : Bool) (x : IC) (o : Ops) : ∃ c f, effIsub im x o = x.carryOut o c (x.dest o o.wide o.signed f) ∧
    ∀ l, f l = srcA x o l - srcB im x o l :=
  ⟨_, _, rfl, fun _ => BitVec.sub_zero _⟩

theorem effIaddc_value (im : Bool) (x : IC) (o : Ops) : ∃ c f, effIaddc im x o = x.carryOut o c (x.dest o o.wide o.signed f) ∧
    ∀ l, f l = srcA x o l + srcB im x o l + carryBit x o l :=
  ⟨_, _, rfl, fun l => by rw [addCarry_value, carryIn_value, srcA, srcB]⟩

theorem effIsubb_value (im : Bool) (x : IC) (o : Ops) : ∃ c f, effIsubb im x o = x.carryOut o c (x.dest o o.wide o.signed f) ∧
    ∀ l, f l = srcA x o l - srcB im x o l - carryBit x o l :=
  ⟨_, _, rfl, fun l => congrArg (srcA x o l - srcB im x o l - ·) (carryIn_value x o l)⟩

theorem sumsAndProducts : Claims.SumsAndProducts := by
  simp only [SumsAndProducts, laneResults_iff, sumRows, List.forall_mem_cons]
  exact ⟨.sum _ (effIadd_value false), .sum _ (effIadd_value true), .sum _ (effIsub_value false), .sum _ (effIsub_value true),
    .sum _ (effIaddc_value false), .sum _ (effIaddc_value true), .sum _ (effIsubb_value false), .sum _ (effIsubb_value true),
    .result (effImul false), .result (effImul true), .result (effImad false), .result (effImad true), nofun⟩

/-! ## Saturation, upper halves and order (R134 to R136) -/

/-- A number kept within bounds is the greater of the lower bound and of the lesser of the upper bound and it. -/
theorem clampInt_eq {lo hi : Int} (h : lo ≤ hi) (t : Int) : clampInt lo hi t = max lo (min hi t) := by
  unfold clampInt
  split
  · omega
  split <;> omega

theorem tyMin_eq (o : Ops) : tyMin o.wide o.signed = leastOf o := by
  simp [tyMin, leastOf]

theorem tyMax_eq (o : Ops) : tyMax o.wide o.signed = topOf o := by
  simp [tyMax, topOf]

theorem leastOf_le_topOf (o : Ops) : leastOf o ≤ topOf o := by
  unfold leastOf topOf widthOf
  cases o.signed <;> cases o.wide <;> decide

theorem addSat_eq (o : Ops) (a b : W64) : addSat o.wide o.signed a b = saturated o (asInt o a + asInt o b) := by
  rw [addSat, tyMin_eq, tyMax_eq, clampInt_eq (leastOf_le_topOf o)]
  rfl

theorem mulHigh_eq (o : Ops) (a b : W64) : mulHigh o.wide o.signed a b = highPart o (asInt o a * asInt o b) := by
  rw [mulHigh, Nat.cast_pow]
  rfl

theorem iminV_eq (o : Ops) (a b : W64) : iminV o.wide o.signed a b = if asInt o a ≤ asInt o b then a else b := by
  unfold iminV asInt
  rw [← ite_not]
  simp only [Int.not_lt]

theorem imaxV_eq (o : Ops) (a b : W64) : imaxV o.wide o.signed a b = if asInt o b ≤ asInt o a then a else b := by
  unfold imaxV asInt
  rw [← ite_not]
  simp only [Int.not_lt]

theorem effIadds_value (im : Bool) (x : IC) (o : Ops) : ∃ f, effIadds im x o = x.dest o o.wide o.signed f ∧
    ∀ l, f l = saturated o (asInt o (srcA x o l) + asInt o (srcB im x o l)) := ⟨_, rfl, fun _ => addSat_eq ..⟩

theorem effImulh_value (im : Bool) (x : IC) (o : Ops) : ∃ f, effImulh im x o = x.dest o o.wide o.signed f ∧
    ∀ l, f l = highPart o (asInt o (srcA x o l) * asInt o (srcB im x o l)) := ⟨_, rfl, fun _ => mulHigh_eq ..⟩

theorem effImin_value (im : Bool) (x : IC) (o : Ops) : ∃ f, effImin im x o = x.dest o o.wide o.signed f ∧
    ∀ l, f l = if asInt o (srcA x o l) ≤ asInt o (srcB im x o l) then srcA x o l else srcB im x o l :=
  ⟨_, rfl, fun _ => iminV_eq ..⟩

theorem effImax_value (im : Bool) (x : IC) (o : Ops) : ∃ f, effImax im x o = x.dest o o.wide o.signed f ∧
    ∀ l, f l = if asInt o (srcB im x o l) ≤ asInt o (srcA x o l) then srcA x o l else srcB im x o l :=
  ⟨_, rfl, fun _ => imaxV_eq ..⟩

theorem saturationAndOrder : Claims.SaturationAndOrder := by
  simp only [SaturationAndOrder, laneResults_iff, Claims.orderRows, List.forall_mem_cons]
  exact ⟨.result _ (effIadds_value false), .result _ (effIadds_value true), .result _ (effImulh_value false),
    .result _ (effImulh_value true), .result (effImadw false), .result (effImadw true), .result _ (effImin_value false),
    .result _ (effImin_value true), .result _ (effImax_value false), .result _ (effImax_value true), .result effIabs,
    .result effIneg, nofun⟩

/-- Settles O2: each instruction goes on with its result in its destination, and the result is the one that its rule states. -/
theorem arithmeticResults : Obligations.ArithmeticResults := ⟨sumsAndProducts, saturationAndOrder⟩

/-! ## Moves and logic (R133, R138, R140, R144) -/

/-- A 64-bit result is not extended (R131). -/
theorem heldAs_wide (d : Opd) (sg sg' : Bool) (v : W64) : heldAs d true sg v = heldAs d true sg' v := by
  cases d <;> rfl

theorem movesAndSelections : Claims.MovesAndSelections := by
  simp only [MovesAndSelections, laneResults_iff, moveRows, List.forall_mem_cons]
  exact ⟨.result effMov, .result effMovi,
    .of_gives effMovw (fun _ _ => rfl) fun x o => ⟨true, _, dest_gives x o true true fun _ => o.imm, fun _ => heldAs_wide ..⟩,
    .result (effIsel false), .result (effIsel true), .result (effLea false), .result (effLea true), nofun⟩

theorem bitwiseLogic : Claims.BitwiseLogic := by
  simp only [BitwiseLogic, laneResults_iff, logicRows, List.forall_mem_cons]
  exact ⟨.result (effAnd false), .result (effAnd true), .result (effOr false), .result (effOr true), .result (effXor false),
    .result (effXor true), .result (effAndn false), .result (effAndn true), .result effNot, .result (effBmux false),
    .result (effBmux true), nofun⟩

/-! ## Shifts (R139) -/

/-- A 32-bit source is extended with zeros (R129). -/
theorem val_narrow_lt (x : IC) (o : Opd) (l : Nat) : (x.val o false l).toNat < 2 ^ 32 := by
  have hext (n : Nat) (hn : n ≤ 32) (v : BitVec n) : (v.setWidth 64).toNat < 2 ^ 32 := by
    rw [BitVec.toNat_setWidth_of_le (by omega)]
    exact Nat.lt_of_lt_of_le v.isLt (Nat.pow_le_pow_right (by omega) hn)
  cases o with
  | v fld => exact hext 32 (by omega) _
  | s n => exact hext 32 (by omega) _
  | x n => exact hext 8 (by omega) _
  | _ => exact Nat.two_pow_pos 32

theorem srcA_lt (x : IC) (o : Ops) (l : Nat) : (srcA x o l).toNat < 2 ^ widthOf o.wide := by
  unfold srcA
  cases o.wide with
  | false => exact val_narrow_lt ..
  | true => exact BitVec.isLt _

/-- A shift to the left by W or more leaves none of the value's bits in a result of W bits. -/
theorem shlV_heldAs (d : Opd) (wide signed : Bool) (a : W64) (n : Nat) :
    heldAs d wide signed (shlV wide a n) = heldAs d wide signed (a <<< n) := by
  unfold shlV
  split
  next hn =>
    cases wide with
    | true =>
      have hzero : a <<< n = 0 := BitVec.shiftLeft_eq_zero hn
      rw [hzero]
    | false =>
      have hlow (k : Nat) (hk : k ≤ 32) : (a <<< n).setWidth k = 0 := by
        ext i hi
        have hin : i < n := Nat.lt_of_lt_of_le hi (Nat.le_trans hk hn)
        simp [hin]
      cases d <;> simp [heldAs, hlow]
  next => rfl

/-- A shift to the right by W or more leaves no bit of a value of W bits. -/
theorem shrV_eq {wide : Bool} {a : W64} (n : Nat) (ha : a.toNat < 2 ^ widthOf wide) : shrV wide a n = a >>> n := by
  unfold shrV
  split
  next hn =>
    have hlt : a.toNat < 2 ^ n := Nat.lt_of_lt_of_le ha (Nat.pow_le_pow_right (by omega) hn)
    apply BitVec.eq_of_toNat_eq
    rw [BitVec.toNat_ushiftRight, Nat.shiftRight_eq_div_pow, Nat.div_eq_of_lt hlt]
    rfl
  next => rfl

/-- An arithmetic shift by 64 or more leaves copies of the sign. -/
theorem sshiftRight_min (a : W64) (n : Nat) : a.sshiftRight (min n 64) = a.sshiftRight n := by
  rcases Nat.le_total n 64 with hn | hn
  · rw [Nat.min_eq_left hn]
  · rw [Nat.min_eq_right hn]
    apply BitVec.eq_of_getLsbD_eq
    intro i hi
    rw [BitVec.getLsbD_sshiftRight, BitVec.getLsbD_sshiftRight, if_neg (by omega), if_neg (by omega)]

theorem iv_signed (wide : Bool) (a : W64) : iv wide true a = (asSigned wide a).toInt := by
  cases wide with
  | true => rfl
  | false => exact (BitVec.toInt_signExtend_of_le (by omega)).symm

/-- A division by a power of two is an arithmetic shift. -/
theorem sarV_eq (wide : Bool) (a : W64) (n : Nat) : sarV wide a n = (asSigned wide a).sshiftRight n := by
  rw [← sshiftRight_min, sarV, iv_signed, ← Int.shiftRight_eq_div_pow, ← BitVec.toInt_sshiftRight, BitVec.ofInt_toInt]

theorem effShr_value (im : Bool) (x : IC) (o : Ops) : ∃ f, effShr im x o = x.dest o o.wide o.signed f ∧
    ∀ l, f l = srcA x o l >>> (x.valB32 im o l).toNat := ⟨_, rfl, fun l => shrV_eq _ (srcA_lt x o l)⟩

theorem effSar_value (im : Bool) (x : IC) (o : Ops) : ∃ f, effSar im x o = x.dest o o.wide o.signed f ∧
    ∀ l, f l = (asSigned o.wide (srcA x o l)).sshiftRight (x.valB32 im o l).toNat := ⟨_, rfl, fun _ => sarV_eq ..⟩

theorem effShl_held (im : Bool) (x : IC) (o : Ops) : ∃ signed f, (effShl im x o).Gives (x.dest o o.wide signed f) ∧
    ∀ l, heldAs o.d o.wide signed (f l) = heldAs o.d o.wide o.signed (srcA x o l <<< (x.valB32 im o l).toNat) :=
  ⟨_, _, dest_gives .., fun _ => shlV_heldAs ..⟩

theorem shiftsAndBitFields : Claims.ShiftsAndBitFields := by
  simp only [ShiftsAndBitFields, laneResults_iff, bitRows, List.forall_mem_append, List.forall_mem_cons]
  exact ⟨⟨.of_gives _ (fun _ _ => rfl) (effShl_held false), .of_gives _ (fun _ _ => rfl) (effShl_held true),
    .result _ (effShr_value false), .result _ (effShr_value true), .result _ (effSar_value false), .result _ (effSar_value true),
    .result (effRotl false), .result (effRotl true), .result effPopc, .result effClz, .result effCtz, nofun⟩,
    .result effBrev, .result (effBfx false), .result (effBfx true), .result (effBfi false), .result (effBfi true), nofun⟩

/-! ## What ISEL changes (R138) -/

theorem isel_exec (im : Bool) (o : Ops) (s : State) : exec (if im then .iselImm o else .isel o) s =
    issueAlu .isel (if im then .w96 else .w64) (effIsel im) o s := by
  cases im <;> rfl

/-- ISEL's destination is a V register or pair (R130). -/
theorem isel_dst {len : Len} {o : Ops} (h : opsWellFormed .isel len o = true) : ∃ fld, o.d = .v fld := by
  have hfit : FKindFits (.v (if 2 ≤ o.ty then 2 else 1) (if 2 ≤ o.ty then 2 else 1)) o.d = true := (wellFormed_spec h).2
  exact fits_v hfit

@[simp] theorem dest_gsr (x : IC) (o : Ops) (wide signed : Bool) (f : Nat → W64) : (x.dest o wide signed f).gsr = 0 := by
  unfold IC.dest
  cases o.d with
  | v fld => cases wide <;> rfl
  | _ => rfl

theorem effIsel_confined (im : Bool) : EffConfined .isel (if im then .w96 else .w64) (effIsel im) := by
  cases im <;> exact .typed (hd := fun _ => ⟨false, rfl⟩)

theorem iselSelects : Claims.IselSelects := by
  intro o s x im hwf hp
  obtain ⟨fld, hdst⟩ := isel_dst hwf
  obtain ⟨hv, hs, hx, hd⟩ : (effIsel im x o).Gives _ := dest_gives ..
  obtain ⟨t, hexec, hgroups, ⟨q, a, sl, mv, hg⟩, hothers⟩ := issueAlu_spec hp.ic hp.ready hd hp.clean
  have hin : (effIsel im x o).writes.WritesIn (footOf .isel (if im then .w96 else .w64) o x) :=
    (effIsel_confined im x o hwf).trans (wordWrites_in_foot x.g _ nofun rfl)
  refine ⟨t, _, (isel_exec im o s).trans hexec, hg, ⟨hgroups, hothers⟩, (commit_registersKept _ x.act hin).issued .., ?_,
    fun l hl => ?_⟩
  · have hgsr : (effIsel im x o).gsr = 0 := dest_gsr ..
    simp only [Group.withControl, Group.commit, IC.tracked, hgsr]
    exact BitVec.or_zero
  · exact dest_reads x _ ⟨rfl, rfl, rfl⟩ o _ _ _ _ q a sl mv l ⟨hv, hs, hx⟩ hd (by rw [hdst]; exact hl)

/-! ## Registers that a list of writes names -/

/-- A register that one write of a list names reads, in a lane that is written, as that write says (R117). -/
theorem vRead_writes_named {m : Mask} {ws : List (Nat × List W32)} (v : List (List W32)) {r l : Nat} {vals : List W32}
    (hl : inMask m l = true) (hmem : (r, vals) ∈ ws) (hnodup : (ws.map (·.1)).Nodup) :
    vRead (ws.foldl (fun v w => vWrite v w.1 m w.2) v) r l = vals.getD l 0 := by
  induction ws generalizing v with
  | nil => cases hmem
  | cons w t ih =>
    rw [List.map_cons, List.nodup_cons] at hnodup
    obtain ⟨hw, ht⟩ := hnodup
    rw [List.foldl_cons]
    rcases List.mem_cons.1 hmem with rfl | hmem
    · have hother : ∀ u ∈ t, u.1 ≠ r := fun u hu heq => hw (List.mem_map.2 ⟨u, hu, heq⟩)
      rw [vRead_writes_other _ _ _ _ (inMask_lt hl) (.inl hother), vRead_vWrite _ _ _ _ _ (inMask_lt hl), if_pos ⟨rfl, hl⟩]
    · exact ih _ hmem ht

theorem commit_v {g : Group} {act : Mask} {e : Eff} (hd : e.die = 0) :
    (g.commit act e).v = e.v.foldl (fun v w => vWrite v w.1 act w.2) g.v := by
  simp only [Group.commit, hd, and_not_zero]

/-- A register-only instruction goes on with the V registers and the predicates that its effects give. -/
theorem issueAlu_commits {op : Op} {len : Len} {eff : IC → Ops → Eff} {o : Ops} {s : State} {x : IC}
    (hp : Plain s o.g (footOf op len o) x) (hd : (eff x o).die = 0) :
    ∃ t g', issueAlu op len eff o s = .next t ∧ t.group? x.cu.gid = some g' ∧
      g'.v = (eff x o).v.foldl (fun v w => vWrite v w.1 x.act w.2) x.g.v ∧
      g'.p = (x.g.commit x.act (eff x o)).p := by
  obtain ⟨t, hexec, -, ⟨q, a, sl, mv, hg⟩, -⟩ := issueAlu_spec hp.ic hp.ready hd hp.clean
  exact ⟨t, _, hexec, hg, commit_v hd, rfl⟩

/-! ## Runs of a bit stream (R145) -/

theorem run_nodup (r n : Nat) : (run r n).Nodup :=
  List.Nodup.map (fun _ _ h => Nat.add_left_cancel h) List.nodup_range

theorem runWrites_mem (r : Nat) (f : Nat → Stream) {i : Nat} (hi : i < 5) :
    (r + i, lanes64 fun l => (f l).regs.getD i 0) ∈ runWrites r f := by
  simp only [runWrites, List.mem_map, List.mem_range]
  exact ⟨i, hi, congrArg _ List.map_map⟩

/-- A run that has been written reads as each lane's state. -/
theorem vRead_runWrites (v : List (List W32)) (r : Nat) (f : Nat → Stream) {m : Mask} {i l : Nat} (hi : i < 5)
    (hl : inMask m l = true) :
    vRead ((runWrites r f).foldl (fun v w => vWrite v w.1 m w.2) v) (r + i) l = (f l).regs.getD i 0 := by
  rw [vRead_writes_named v hl (runWrites_mem r f hi) (runWrites_regs r f ▸ run_nodup r 5), lanes64_getD _ _ (inMask_lt hl)]

/-! ## BSRLD (R146) -/

/-- The state that BSRLD gives a lane. -/
def IC.loadedStream (x : IC) (o : Ops) (l : Nat) : Stream :=
  ⟨x.val o.a true l, x.g.rdV (x.g.opV o.b) l, x.g.rdV (x.g.opV o.b + 1) l, (x.val32 o.c l).toNat % 32, 2 - mfld o.m 49 48⟩

theorem effBsrld_eq (x : IC) (o : Ops) : effBsrld x o = { v := runWrites (x.g.opV o.d) (x.loadedStream o) } := rfl

theorem bsrld_result {o : Ops} {s : State} {x : IC} (hp : Plain s o.g (footOf .bsrld .w64 o) x) :
    ∃ t g', exec (.bsrld o) s = .next t ∧ t.group? x.cu.gid = some g' ∧
      ∀ l, inMask x.act l = true → g'.rdPair (x.g.opV o.d) l = x.val o.a true l ∧
        g'.rdV (x.g.opV o.d + 2) l = x.g.rdV (x.g.opV o.b) l ∧ g'.rdV (x.g.opV o.d + 3) l = x.g.rdV (x.g.opV o.b + 1) l ∧
        g'.rdV (x.g.opV o.d + 4) l = BitVec.ofNat 32 ((x.val32 o.c l).toNat % 32 + 64 * (2 - mfld o.m 49 48)) := by
  obtain ⟨t, g', hexec, hg, hv, -⟩ := issueAlu_commits (eff := effBsrld) hp rfl
  refine ⟨t, g', hexec, hg, fun l hl => ?_⟩
  have hrun (i : Nat) (hi : i < 5) : g'.rdV (x.g.opV o.d + i) l = (x.loadedStream o l).regs.getD i 0 := by
    rw [rdV_eq, hv, effBsrld_eq, vRead_runWrites _ _ _ hi hl]
  have hpos : (x.val32 o.c l).toNat % 32 % 64 = (x.val32 o.c l).toNat % 32 := by omega
  refine ⟨?_, hrun 2 (by omega), hrun 3 (by omega), (hrun 4 (by omega)).trans ?_⟩
  · have hlow : g'.rdV (x.g.opV o.d) l = (x.val o.a true l).setWidth 32 := hrun 0 (by omega)
    have hhigh : g'.rdV (x.g.opV o.d + 1) l = (x.val o.a true l).extractLsb' 32 32 := hrun 1 (by omega)
    rw [Group.rdPair, hlow, hhigh, halves_append]
  · exact congrArg (fun pos => BitVec.ofNat 32 (pos + 64 * (2 - mfld o.m 49 48))) hpos

/-! ## BSR (R147) -/

/-- A width that names no field. -/
def badWidth (w : Nat) : Bool := w < 1 || 32 < w

/-- A field of this width takes the position past 32. -/
def Stream.shifts (t : Stream) (w : Nat) : Bool := !badWidth w && 32 ≤ t.pos + w

/-- The next refill word, or zeros. -/
def Stream.refill (t : Stream) : W32 := if t.cnt = 2 then t.ref0 else if t.cnt = 1 then t.ref1 else 0

/-- The field that BSR reads (R147). -/
def Stream.field (t : Stream) (w : Nat) : W32 :=
  if badWidth w then 0 else BitVec.ofNat 32 ((t.win >>> t.pos).toNat % 2 ^ w)

/-- The state of the stream after it (R147). -/
def Stream.after (t : Stream) (w : Nat) : Stream :=
  ⟨if t.shifts w then t.win >>> 32 ||| (t.refill.setWidth 64 <<< 32) else t.win, t.ref0, t.ref1,
    if badWidth w then t.pos else if t.shifts w then t.pos + w - 32 else t.pos + w,
    if t.shifts w then t.cnt - 1 else t.cnt⟩

theorem bsrStep_eq {t : Stream} (w : Nat) (hcnt : t.cnt ≤ 2) : bsrStep t w = (t.field w, t.after w) := by
  unfold bsrStep Stream.field Stream.after Stream.shifts
  obtain ⟨win, ref0, ref1, pos, cnt⟩ := t
  cases hbad : badWidth w with
  | true =>
    rw [badWidth] at hbad
    rw [if_pos hbad]
    rfl
  | false =>
    rw [badWidth] at hbad
    rw [if_neg (by rw [hbad]; nofun)]
    by_cases hpast : 32 ≤ pos + w
    · rcases cnt with _ | _ | _ | cnt
      case succ.succ.succ => simp at hcnt
      all_goals simp [hpast, Stream.refill]
    · simp [hpast]

/-- The position after a field fits its 6 bits. -/
theorem after_pos_lt {t : Stream} (w : Nat) (hpos : t.pos < 64) : (t.after w).pos < 64 := by
  unfold Stream.after Stream.shifts
  cases hbad : badWidth w with
  | true => exact hpos
  | false =>
    simp only [badWidth, Bool.or_eq_false_iff, decide_eq_false_iff_not] at hbad
    by_cases hpast : 32 ≤ t.pos + w
    · simp only [hpast, decide_true, Bool.not_false, Bool.and_true, if_true, Bool.false_eq_true, if_false]
      omega
    · simp only [hpast, decide_false, Bool.and_false, Bool.false_eq_true, if_false]
      omega

/-- The state that a lane reads from the run that BSR's A names. -/
def IC.oldStream (x : IC) (o : Ops) (l : Nat) : Stream := x.g.stream (x.g.opV o.a) l

/-- The width that BSR's B gives in a lane. -/
def IC.fieldWidth (x : IC) (o : Ops) (l : Nat) : Nat := (x.val32 o.b l).toNat

theorem oldStream_cnt (x : IC) (o : Ops) (l : Nat) : (x.oldStream o l).cnt ≤ 2 := Nat.min_le_left ..

theorem oldStream_pos (x : IC) (o : Ops) (l : Nat) : (x.oldStream o l).pos < 64 := Nat.mod_lt _ (by omega)

/-- BSR's writes: the new run, then the field. -/
theorem effBsr_eq (x : IC) (o : Ops) : effBsr x o =
    x.carryOut o (fun l => ((x.oldStream o l).after (x.fieldWidth o l)).cnt == 0)
      { v := runWrites (x.g.opV o.c) (fun l => (x.oldStream o l).after (x.fieldWidth o l))
          ++ [(x.g.opV o.d, lanes64 fun l => (x.oldStream o l).field (x.fieldWidth o l))] } := by
  have hstep (l : Nat) : bsrStep (x.g.stream (x.g.opV o.a) l) (x.val32 o.b l).toNat
      = ((x.oldStream o l).field (x.fieldWidth o l), (x.oldStream o l).after (x.fieldWidth o l)) :=
    bsrStep_eq _ (oldStream_cnt x o l)
  simp only [effBsr, hstep]

/-- A lane's registers after a step of a stream: the field, which wins inside the run, and the new run. -/
structure BsrLane (x : IC) (o : Ops) (g' : Group) (l : Nat) : Prop where
  field : g'.rdV (x.g.opV o.d) l = (x.oldStream o l).field (x.fieldWidth o l)
  run : ∀ i, i < 5 → x.g.opV o.c + i ≠ x.g.opV o.d →
    g'.rdV (x.g.opV o.c + i) l = ((x.oldStream o l).after (x.fieldWidth o l)).regs.getD i 0
  empty : mbit o.m 55 = true → mfld o.m 54 52 ≠ 7 →
    inMask (g'.p.getD (mfld o.m 54 52) 0) l = (((x.oldStream o l).after (x.fieldWidth o l)).cnt == 0)

theorem bsr_lanes {o : Ops} {s : State} {x : IC} (hp : Plain s o.g (footOf .bsr .w64 o) x) :
    ∃ t g', exec (.bsr o) s = .next t ∧ t.group? x.cu.gid = some g' ∧ ∀ l, inMask x.act l = true → BsrLane x o g' l := by
  obtain ⟨hv, -, -, hd⟩ := effBsr_eq x o ▸ carryOut_gives x o _ ⟨rfl, rfl, rfl, rfl⟩
  obtain ⟨t, g', hexec, hg, hregs, hpred⟩ := issueAlu_commits (eff := effBsr) hp hd
  rw [hv, List.foldl_append, List.foldl_cons, List.foldl_nil] at hregs
  refine ⟨t, g', hexec, hg, fun l hl => ⟨?_, fun i hi hne => ?_, fun hout hn => ?_⟩⟩
  · rw [rdV_eq, hregs, vRead_vWrite _ _ _ _ _ (inMask_lt hl), if_pos ⟨rfl, hl⟩, lanes64_getD _ _ (inMask_lt hl)]
  · rw [rdV_eq, hregs, vRead_vWrite _ _ _ _ _ (inMask_lt hl), if_neg fun h => hne h.1, vRead_runWrites _ _ _ hi hl]
  · have hbits := congrArg Eff.p (effBsr_eq x o)
    rw [IC.carryOut, if_pos hout, List.nil_append] at hbits
    rw [hpred, commit_predicate hbits hd, pWrite_bit _ _ _ hn (inMask_lt hl), if_pos hl, maskOf_spec _ (inMask_lt hl)]

theorem streamResults : Claims.StreamResults := by
  intro o s x
  refine ⟨bsrld_result, fun hp => ?_⟩
  obtain ⟨t, g', hexec, hg, hlanes⟩ := bsr_lanes hp
  refine ⟨t, g', hexec, hg, fun l hl => ?_⟩
  obtain ⟨hfield, hrun, hempty⟩ := hlanes l hl
  refine ⟨hfield, fun i hi hne => (hrun i hi hne).trans ?_, hempty⟩
  rcases i with _ | _ | _ | _ | _ | i
  case succ.succ.succ.succ.zero =>
    have hpos : ((x.oldStream o l).after (x.fieldWidth o l)).pos % 64 = ((x.oldStream o l).after (x.fieldWidth o l)).pos :=
      Nat.mod_eq_of_lt (after_pos_lt _ (oldStream_pos x o l))
    exact congrArg (fun pos => BitVec.ofNat 32 (pos + 64 * ((x.oldStream o l).after (x.fieldWidth o l)).cnt)) hpos
  case succ.succ.succ.succ.succ => omega
  all_goals rfl

/-- Settles O3: each instruction goes on with its result in its destination, ISEL changes nothing beside it, and a run that is
written reads as the state that the stream goes on to. -/
theorem movesLogicAndShifts : Obligations.MovesLogicAndShifts :=
  ⟨movesAndSelections, iselSelects, bitwiseLogic, shiftsAndBitFields, streamResults⟩

end Sys2Proof.Machine
end

section
/-!
PROOF. The posting of a DRAIN (R272, R273): to registers, which wait for it, and to memory, whose bytes wait in the region store
buffer.
-/

namespace Sys2Proof.Machine

open Sys2Proof.Claims

/-- The issue of an instruction that gives its own footprint, and passes every check. -/
theorem issueFoot_ready {foot : IC → Foot} {act : IC → Ops → Foot → Group → Out} {o : Ops} {s : State} {x : IC}
    (hx : s.ic o.g = some x) (hr : x.ready (foot x)) : issueFoot foot act o s = act x o (foot x) (x.tracked (foot x)) := by
  unfold issueFoot
  simp only [hx, prepare_ready hr]

theorem modGroup_memoryKept (s : State) (gid : Nat) (f : Group → Group) : MemoryKept s (s.modGroup gid f) :=
  .of_banks (modGroup_banksSame s gid f).mem (modGroup_banksSame s gid f).bank

theorem modGroup_matrixEng (s : State) (gid n : Nat) (f : Group → Group) : (s.modGroup gid f).matrixEng n = s.matrixEng n :=
  congrArg (smGet MatrixEng.reset · n) (modGroup_banksSame s gid f).matrix

/-! ## What the posting leaves -/

/-- The wait for the registers of a DRAIN that writes registers (R272). -/
def TileOp.awaited (p : TileOp) : List PendLoad :=
  p.dreg.toList.map fun d => ⟨p.id, false, p.drainRun d, [], [], []⟩

/-- The group once its DRAIN is posted: it counts in CNT.TL, and its registers are waited for (R262, R272). -/
def Group.drainPosted (g : Group) (p : TileOp) (fl : Fl) : Group :=
  { g with
    gsr := g.gsr ||| fl.bits
    rng := (g.drained p fl).rng
    cntTl := g.cntTl + 1
    pending := g.pending ++ p.awaited }

/-- The state in which a DRAIN has been posted. -/
def IC.drainPosted (x : IC) (g : Group) (p : TileOp) (fl : Fl) : State :=
  match p.dreg with
  | some d => (x.passPosted (g.drained p fl) p).modGroup x.cu.gid fun g =>
      { g with pending := g.pending ++ [⟨p.id, false, p.drainRun d, [], [], []⟩] }
  | none => x.passPosted (g.drained p fl) p

theorem postDrain_eq (x : IC) (g : Group) (p : TileOp) (fl : Fl) : x.postDrain x.s g p fl =
    .next (x.after (x.drainPosted g p fl) (((x.drainPosted g p fl).group? x.cu.gid).getD g)) := by
  unfold IC.postDrain IC.drainPosted
  cases p.dreg <;> rfl

/-- A posted DRAIN is the last of its engine's requests, and changes no memory. -/
theorem postDrain_posts {x : IC} {g : Group} {p : TileOp} (fl : Fl) (hp : p.gid = x.cu.gid)
    (hhalt : x.s.haltedAt g.ctx (matrixCode x.g.engine) = false) :
    ∃ u, x.postDrain x.s g p fl = .next (x.after u (g.drainPosted p fl)) ∧
      (u.matrixEng x.g.engine).requests = (x.s.matrixEng x.g.engine).requests ++ [p] ∧ MemoryKept x.s u := by
  obtain ⟨hreq, hgroup, hmem⟩ := passPosted_spec (x := x) (g := g.drained p fl) hp hhalt
  suffices h : (x.drainPosted g p fl).group? x.cu.gid = some (g.drainPosted p fl) ∧
      ((x.drainPosted g p fl).matrixEng x.g.engine).requests = (x.s.matrixEng x.g.engine).requests ++ [p] ∧
      MemoryKept x.s (x.drainPosted g p fl) by
    exact ⟨_, by rw [postDrain_eq, h.1, Option.getD_some], h.2⟩
  unfold IC.drainPosted Group.drainPosted TileOp.awaited
  cases p.dreg with
  | some d =>
    refine ⟨?_, (congrArg MatrixEng.requests (modGroup_matrixEng ..)).trans hreq, hmem.trans (modGroup_memoryKept ..)⟩
    dsimp only
    rw [modGroup_eq _ hgroup, State.setGroup_get_self]
    rfl
  | none =>
    refine ⟨?_, hreq, hmem⟩
    simp only [hgroup, Option.toList_none, List.map_nil, List.append_nil]
    rfl

@[simp] theorem drainPosted_v (g : Group) (p : TileOp) (fl : Fl) : (g.drainPosted p fl).v = g.v := rfl
@[simp] theorem drainPosted_buf (g : Group) (p : TileOp) (fl : Fl) : (g.drainPosted p fl).buf = g.buf := rfl

/-- A DRAIN to registers has them waited for, and no others. -/
theorem drainPosted_pending_some {p : TileOp} {d : Nat} (g : Group) (fl : Fl) (h : p.dreg = some d) :
    (g.drainPosted p fl).pending = g.pending ++ [⟨p.id, false, p.drainRun d, [], [], []⟩] := by
  rw [Group.drainPosted, TileOp.awaited, h]
  rfl

theorem drainPosted_pending_none {p : TileOp} (g : Group) (fl : Fl) (h : p.dreg = none) :
    (g.drainPosted p fl).pending = g.pending := by
  rw [Group.drainPosted, TileOp.awaited, h]
  exact List.append_nil _

/-! ## The issue of a DRAIN whose checks have passed -/

/-- The issuing group with the bytes of its DRAIN to memory in its buffer, on the matrix path (R272). -/
def IC.drainStored (x : IC) (len : Len) (o : Ops) (ok : List (Nat × List Nat)) : Group :=
  { x.tracked (x.drainFoot len o) with
    buf := placeStore x.g.buf (x.drainOp o).1.space 2 (drainBytes (x.drainOp o).1 ok) }

section Issue
variable {len : Len} {o : Ops} {s : State} {x : IC}

theorem issueDrain_registers {d : Nat} (hx : s.ic o.g = some x) (hfree : x.g.busy (footOf .drain len o x) = false)
    (hready : x.ready (x.drainFoot len o)) (hroom : x.canPost = true) (hgood : x.drainFault (x.drainOp o).1 = none)
    (hreg : (x.drainOp o).1.dreg = some d) :
    issueDrain len o s = x.postDrain x.s (x.tracked (x.drainFoot len o)) (x.drainOp o).1 (x.tiles o.c).2 := by
  unfold footOf at hfree
  unfold issueDrain
  simp only [hx, hfree, Bool.false_eq_true, if_false]
  rw [issueFoot_ready (foot := IC.drainFoot len o) hx hready]
  simp only [hroom, hgood, hreg, Bool.not_true, Bool.false_eq_true, if_false, Option.isSome_some, if_true]
  rfl

/-- A DRAIN to memory whose rows all translate, meet no conflict and find room posts with its bytes in the buffer (R44, R272). -/
theorem issueDrain_memory {ok : List (Nat × List Nat)} {bad : List Nat} (hx : s.ic o.g = some x)
    (hfree : x.g.busy (footOf .drain len o x) = false) (hready : x.ready (x.drainFoot len o)) (hroom : x.canPost = true)
    (hgood : x.drainFault (x.drainOp o).1 = none) (hreg : (x.drainOp o).1.dreg = none)
    (hgo : x.reach (x.drainOp o).1.space (((x.drainOp o).1.drainRows.head?.map (·.2)).getD 0) .store true
      ((x.drainOp o).1.drainRows.zipIdx.map fun r => (r.2, r.1.1)) = .go ok bad [])
    (hconflict : storeConflict x.g.buf (x.drainOp o).1.space (drainBytes (x.drainOp o).1 ok) = none)
    (hfits : overCapacity x.g.buf (x.drainOp o).1.space (drainBytes (x.drainOp o).1 ok) = none) :
    ∃ ls, issueDrain len o s =
      x.postDrain x.s (x.drainStored len o ok) { (x.drainOp o).1 with lines := ls } (x.tiles o.c).2 := by
  have hbuf : (x.tracked (x.drainFoot len o)).buf = x.g.buf := rfl
  unfold footOf at hfree
  unfold drainBytes at hconflict hfits
  unfold issueDrain
  simp only [hx, hfree, Bool.false_eq_true, if_false]
  rw [issueFoot_ready (foot := IC.drainFoot len o) hx hready]
  simp only [hroom, hgood, hreg, Bool.not_true, Bool.false_eq_true, if_false, Option.isSome_none, hgo, List.isEmpty_nil, hbuf,
    hconflict, hfits]
  exact ⟨_, rfl⟩

end Issue

theorem drainOp_gid (x : IC) (o : Ops) : (x.drainOp o).1.gid = x.cu.gid := rfl

/-! ## The obligation -/

/-- Settles O30: a DRAIN whose checks pass comes to the posting of its operation, from its group or from its group with the bytes
in the buffer. -/
theorem drainsPost : Obligations.DrainsPost := by
  intro o s x im hx hfree hready hroom hgood hhalt
  obtain ⟨rfl, -, -, -⟩ := ic_eq hx
  rw [drain_exec]
  refine ⟨fun d hreg => ?_, fun hreg ok bad hgo hconflict hfits => ?_⟩
  · obtain ⟨u, hpost, hreq, hmem⟩ := postDrain_posts (g := x.tracked (x.drainFoot (if im then .w96 else .w64) o))
      (x.tiles o.c).2 (drainOp_gid x o) hhalt
    exact ⟨u, _, (issueDrain_registers hx hfree hready hroom hgood hreg).trans hpost, ⟨hreq, rfl⟩,
      drainPosted_pending_some _ _ hreg, rfl, rfl, rfl, rfl, hmem⟩
  · obtain ⟨ls, hissue⟩ := issueDrain_memory hx hfree hready hroom hgood hreg hgo hconflict hfits
    obtain ⟨u, hpost, hreq, hmem⟩ := postDrain_posts (g := x.drainStored (if im then .w96 else .w64) o ok)
      (p := { (x.drainOp o).1 with lines := ls }) (x.tiles o.c).2 (drainOp_gid x o) hhalt
    exact ⟨u, _, ls, hissue.trans hpost, ⟨hreq, rfl⟩, drainPosted_pending_none _ _ hreg, drainPosted_v ..,
      drainPosted_buf .., hmem⟩

end Sys2Proof.Machine
end

section
/-!
PROOF. Reductions across lanes (R122, R166, R169): a GRED whose source register is poisoned, which the statement does not leave
out.
-/

namespace Sys2Proof.Machine

open Sys2Proof.Claims

/-- A group of one lane, in which V2 holds the value 1 under poison. -/
def poisonedGroup : Group :=
  { oneLaneGroup with v := oneLaneGroup.v.set 2 (List.replicate 64 1), vpoison := [(64 * 2, true)] }

/-- A machine in which that group's one split issues. -/
def poisonedIssuing : State := { oneLaneIssuing.setGroup 0 poisonedGroup with cur := some ⟨0, 0, 0x10000, 1, false, 8⟩ }

/-- GRED of V2 to V1, an integer sum of 32 bits. -/
def gredV2 : Ops := ⟨Guard.none, .v (.dir 1), .v (.dir 2), .none, .none, 0, 0⟩

/-- The issue of that GRED. -/
def gredV2Issue : IC := ⟨poisonedIssuing, ⟨0, 0, 0x10000, 1, false, 8⟩, poisonedGroup, 1⟩

theorem gredV2_wellFormed : (Instr.gred gredV2).wellFormed = true := by decide

theorem gredV2_plain : Plain poisonedIssuing gredV2.g (footOf .gred .w64 gredV2) gredV2Issue :=
  ⟨by decide, by unfold IC.ready; decide, by decide⟩

/-- Lane 0 of V1 of group 0 in the state that an outcome goes on with. -/
def laneAfter (r : Out) : Option W32 :=
  match r with
  | .next t => (t.group? 0).map (·.rdV 1 0)
  | _ => none

/-- The lane that reads the poison dies, and its V1 keeps its 0 (R122). -/
theorem gredV2_writesNothing : laneAfter (exec (.gred gredV2) poisonedIssuing) = some 0 := by decide

/-- The sum over the group is 1. -/
theorem gredV2_sum :
    (redStages (redOp 0 false gredV2Issue.rnd) 6 ((List.range 64).map fun l =>
      if inMask gredV2Issue.act l then gredV2Issue.val gredV2.a false l else redIdentity 0 false)).1.getD 0 0 = 1 := by decide

/-- Refutes O6: the clause of GRED asks for no unpoisoned group, though GRED reads its source across lanes (R122, R166): an active
lane whose source is poisoned dies and is written nothing, where the statement has it hold the sum. -/
theorem not_randomAndCrossLane : ¬ Obligations.RandomAndCrossLane := by
  rintro ⟨-, -, hreductions⟩
  obtain ⟨hreduce, -⟩ := hreductions gredV2 poisonedIssuing gredV2Issue
  obtain ⟨t, g', hexec, hgroup, -, hlanes⟩ := hreduce (.gred gredV2, .gred, 6) (by simp) gredV2_plain
  have hgroup' : t.group? 0 = some g' := hgroup
  have hsum : g'.rdV 1 0 = BitVec.setWidth 32 (1 : W64) := ((hlanes 0 (by decide)).1 (by decide)).trans (congrArg _ gredV2_sum)
  have hkept := gredV2_writesNothing
  rw [show exec (.gred gredV2) poisonedIssuing = .next t from hexec, laneAfter, hgroup', Option.map_some, hsum] at hkept
  exact absurd hkept (by decide)

end Sys2Proof.Machine
end

section
/-!
PROOF. Control instructions whose split goes on (R176, R177, R188, R190): branches, YIELD, BKPT and its resumption.
-/

namespace Sys2Proof.Machine

open Sys2Proof.Claims

/-! ## A split that goes on -/

theorem GroupsOnly.memoryKept {s t : State} {gid : Nat} (h : GroupsOnly s t gid) : MemoryKept s t := by
  obtain ⟨ht, -⟩ := h
  exact .of_cores (by rw [ht]) (by rw [ht])

/-- The end of a plain instruction in which no lane dies: the issuing group goes on as `g`, its lanes at their next PCs, and
nothing but groups changes (R20). -/
theorem retireTo_goesOn {x : IC} {g : Group} (next : Nat → BitVec 57) (hq : g.quads = x.g.quads) :
    ∃ t q a sl mv, x.retireTo g 0 next = .next t ∧ t.group? x.cu.gid = some (g.withControl q a sl mv) ∧
      GroupsOnly x.s t x.cu.gid ∧ ∀ l, x.g.runsIn x.cu.split l → (g.withControl q a sl mv).stands l (next l) := by
  obtain ⟨t, hretire, hgroups, ⟨q, a, sl, mv, hg⟩, hothers⟩ := retireTo_spec x g next
  obtain ⟨t', g', hretire', hg', hstands⟩ := retireTo_stands next hq
  rw [hretire] at hretire'
  cases hretire'
  rw [hg] at hg'
  cases hg'
  exact ⟨t, q, a, sl, mv, hretire, hg, ⟨hgroups, hothers⟩, hstands⟩

/-! ## Branches (R176, R177) -/

/-- The registers that a branch writes: CALL the return address, the others none. -/
def jumpEff (op : Op) (x : IC) (o : Ops) : Eff :=
  if op = .call then x.dest o true false fun _ => x.nextPc.setWidth 64 else {}

theorem jumpRows_exec : ∀ r ∈ jumpRows, ∀ o s, exec (r.con o) s = issueJump r.op r.len (jumpEff r.op) r.target o s := by
  intro r hr
  fin_cases hr <;> exact fun _ _ => rfl

/-- Where a branch sends the lanes of its split. -/
def IC.jumpNext (x : IC) (target : IC → Ops → Nat → BitVec 57) (o : Ops) (l : Nat) : BitVec 57 :=
  if inMask x.act l then target x o l else x.nextPc

theorem issueJump_retires {op : Op} {len : Len} {eff : IC → Ops → Eff} {target : IC → Ops → Nat → BitVec 57} {o : Ops} {s : State}
    {x : IC} (hp : Plain s o.g (footOf op len o) x) (hd : (eff x o).die = 0) :
    issueJump op len eff target o s =
      x.retireTo ((x.tracked (footOf op len o x)).commit x.act (eff x o)) 0 (x.jumpNext target o) := by
  obtain ⟨hic, hready, hclean⟩ := hp
  have heff : x.effects eff o (x.g.foot op len o) = eff x o := effects_alive hd hclean
  rw [issueJump, issueWith_ready hic hready]
  simp only [heff, hd]
  rfl

theorem jumpEff_die (op : Op) (x : IC) (o : Ops) : (jumpEff op x o).die = 0 := by
  unfold jumpEff
  split
  · exact dest_die ..
  · rfl

theorem commit_none_regsSame (g : Group) (act : Mask) : RegsSame g (g.commit act {}) :=
  ⟨⟨rfl, rfl⟩, ⟨rfl, rfl, rfl, rfl⟩, ⟨rfl, rfl⟩, BitVec.or_zero, rfl, ⟨rfl, rfl⟩, ⟨rfl, rfl, rfl⟩⟩

/-- Settles O9: a branch retires with each lane's own next PC; CALL's effects are its return address, those of the others are
none. -/
theorem branchesMoveLanes : Obligations.BranchesMoveLanes := by
  intro r hr o s x hp
  rw [jumpRows_exec r hr, issueJump_retires hp (jumpEff_die ..)]
  obtain ⟨t, q, a, sl, mv, hretire, hg, hgroups, hstands⟩ := retireTo_goesOn
    (g := (x.tracked (footOf r.op r.len o x)).commit x.act (jumpEff r.op x o)) (x.jumpNext r.target o) rfl
  rw [hp.s_eq] at hgroups
  refine ⟨t, _, hretire, hg, hgroups, hgroups.memoryKept, hstands, fun hne => ?_, fun hcall l hl => ?_⟩
  · rw [jumpEff, if_neg hne]
    exact (tracked_regsSame ..).trans ((commit_none_regsSame ..).trans (withControl_regsSame ..))
  · rw [jumpEff, if_pos hcall]
    exact dest_reads x _ ⟨rfl, rfl, rfl⟩ o true false _ _ q a sl mv l ⟨rfl, rfl, rfl⟩ (dest_die ..) hl

/-! ## YIELD (R188) -/

/-- The other ready splits of the core, which a YIELD lets issue first. -/
def IC.othersReady (x : IC) : List (Nat × Nat) := (x.s.readySplits x.g.core).filter (· != (x.cu.gid, x.cu.split))

/-- The ages of a group that has gone on as `h` after a YIELD of its split: where others are ready, the split of its first quad keeps
them as those that go before it. -/
def IC.yieldAges (x : IC) (h : Group) : List SplitAge :=
  let lab := (h.quad ((x.g.splitQuads x.cu.split).headD 0)).split
  if x.othersReady.isEmpty then h.ages else h.ages.filter (·.split != lab) ++ [⟨lab, none, x.othersReady⟩]

/-- The group of a YIELD's split, its lanes at the next instruction. -/
def IC.yielded (x : IC) (g : Group) : Group := g.stepOver x.cu fun _ => x.nextPc

theorem yield_exec {o : Ops} {s : State} {x : IC} (hp : Plain s o.g (footOf .yield .w64 o) x) :
    exec (.yield o) s = .next ((x.s.setGroup x.cu.gid ((x.yielded (x.tracked (footOf .yield .w64 o x))).withAges
      (x.yieldAges (x.yielded (x.tracked (footOf .yield .w64 o x)))))).releaseYields x.g.core x.cu.gid x.cu.split) := by
  have hexec : exec (.yield o) s = execYield o s := rfl
  rw [hexec, execYield, issueWith_ready hp.ic hp.ready, IC.yieldAges]
  by_cases hnone : x.othersReady.isEmpty = true
  · unfold IC.othersReady at hnone ⊢
    simp only [hnone, if_true]
    rfl
  · unfold IC.othersReady at hnone ⊢
    simp only [hnone]
    rfl

/-- The release of those that yielded to a split leaves an age that does not name it. -/
theorem releaseYields_keepsAge {s : State} (core : Nat) {gid split n : Nat} {g : Group} {a : SplitAge} (h : s.group? n = some g)
    (ha : a ∈ g.ages) (hy : (gid, split) ∉ a.yields) :
    ∃ b, (s.releaseYields core gid split).group? n = some (g.withAges b) ∧ a ∈ b := by
  have hsame : ({ a with yields := a.yields.filter (· != (gid, split)) } : SplitAge) = a := by
    rw [List.filter_eq_self.2 fun p hp => by rw [bne_iff_ne]; exact fun heq => hy (heq ▸ hp)]
  unfold State.releaseYields
  split
  · exact ⟨g.ages, h, ha⟩
  · rw [State.group?] at h
    simp only [State.group?, smFind_map, h, Option.map_some]
    split
    · exact ⟨_, rfl, List.mem_map.2 ⟨a, ha, hsame⟩⟩
    · exact ⟨g.ages, rfl, ha⟩

theorem stepOver_regsSame (g : Group) (cu : Issuing) (next : Nat → BitVec 57) : RegsSame g (g.stepOver cu next) := by
  obtain ⟨q, a, sl, mv, hstep⟩ := stepOver_eq g cu next
  rw [hstep]
  exact withControl_regsSame ..

theorem yielded_runs {x : IC} {f : Foot} (a : List SplitAge) {l : Nat} (h : x.g.runsIn x.cu.split l) :
    ((x.yielded (x.tracked f)).withAges a).stands l x.nextPc :=
  (withAges_stands ..).2 (stepOver_stands (g := x.tracked f) (fun _ => x.nextPc) h)

/-- YIELD: the group goes on, and its split keeps the others that are ready. -/
theorem yield_goesOn {o : Ops} {s : State} {x : IC} (hp : Plain s o.g (footOf .yield .w64 o) x) :
    ∃ t g', exec (.yield o) s = .next t ∧ t.group? x.cu.gid = some g' ∧ RegsSame x.g g' ∧ GroupsOnly s t x.cu.gid ∧
      (∀ l, x.g.runsIn x.cu.split l → g'.stands l x.nextPc) ∧
      (x.othersReady ≠ [] → ∃ a ∈ g'.ages, a.age = none ∧ a.yields = x.othersReady) := by
  have hregs : RegsSame x.g (x.yielded (x.tracked (footOf .yield .w64 o x))) :=
    (tracked_regsSame ..).trans (stepOver_regsSame ..)
  rw [yield_exec hp, hp.s_eq]
  generalize hages : x.yieldAges (x.yielded (x.tracked (footOf .yield .w64 o x))) = ages
  obtain ⟨⟨b, hb⟩, hgroups⟩ := releaseYields_setGroup s x.cu.gid
    ((x.yielded (x.tracked (footOf .yield .w64 o x))).withAges ages) x.g.core x.cu.split
  refine ⟨_, _, rfl, hb, (hregs.trans (withAges_regsSame ..)).trans (withAges_regsSame ..), hgroups,
    fun l hl => yielded_runs _ hl, fun hready => ?_⟩
  have hmem : (⟨((x.yielded (x.tracked (footOf .yield .w64 o x))).quad ((x.g.splitQuads x.cu.split).headD 0)).split, none,
      x.othersReady⟩ : SplitAge) ∈ ages := by
    rw [← hages, IC.yieldAges, if_neg (by simpa using hready)]
    simp
  have hnot : (x.cu.gid, x.cu.split) ∉ x.othersReady := by simp [IC.othersReady]
  obtain ⟨c, hc, hmem'⟩ := releaseYields_keepsAge (s := s.setGroup x.cu.gid
    ((x.yielded (x.tracked (footOf .yield .w64 o x))).withAges ages)) x.g.core (State.setGroup_get_self ..) hmem hnot
  have hkept : b = c := congrArg Group.ages (Option.some.inj (hb.symm.trans hc))
  exact ⟨_, hkept ▸ hmem', rfl, rfl⟩

/-! ## BKPT and BKPT_RESUME (R190) -/

/-- BKPT where it has no effect: the split goes on. -/
theorem bkpt_goesOn {o : Ops} {s : State} {x : IC} (hp : Plain s o.g (footOf .bkpt .w64 o) x)
    (hoff : x.act = 0 ∨ (s.ctx x.g.ctx).bkptArmed (mfld o.m 55 48) = false) :
    ∃ t g', exec (.bkpt o) s = .next t ∧ t.group? x.cu.gid = some g' ∧ RegsSame x.g g' ∧ GroupsOnly s t x.cu.gid ∧
      ∀ l, x.g.runsIn x.cu.split l → g'.stands l x.nextPc := by
  have hoff' : (x.act != 0 && (x.s.ctx x.g.ctx).bkptArmed (mfld o.m 55 48)) = false := by
    rw [hp.s_eq]
    rcases hoff with h | h <;> simp [h]
  have hexec : exec (.bkpt o) s = x.retireTo (x.tracked (footOf .bkpt .w64 o x)) 0 fun _ => x.nextPc := by
    rw [show exec (.bkpt o) s = execBkpt o s from rfl, execBkpt, issueWith_ready hp.ic hp.ready]
    simp only [hoff', Bool.false_eq_true, if_false]
    rfl
  obtain ⟨t, q, a, sl, mv, hretire, hg, hgroups, hstands⟩ :=
    retireTo_goesOn (x := x) (g := x.tracked (footOf .bkpt .w64 o x)) (fun _ => x.nextPc) rfl
  rw [hp.s_eq] at hgroups
  exact ⟨t, _, hexec.trans hretire, hg, (tracked_regsSame ..).trans (withControl_regsSame ..), hgroups, hstands⟩

theorem setGroup_groupsOnly (s : State) (gid : Nat) (g : Group) : GroupsOnly s (s.setGroup gid g) gid :=
  ⟨rfl, fun n h hn hs => ⟨h.ages, by rw [State.setGroup_get_ne _ _ hn]; exact hs⟩⟩

/-- BKPT with its code armed: the group stops, its split at the BKPT. -/
theorem bkpt_stops {o : Ops} {s : State} {x : IC} (hp : Plain s o.g (footOf .bkpt .w64 o) x) (hact : x.act ≠ 0)
    (harmed : (s.ctx x.g.ctx).bkptArmed (mfld o.m 55 48) = true) :
    ∃ t g', exec (.bkpt o) s = .next t ∧ t.group? x.cu.gid = some g' ∧ RegsSame x.g g' ∧ GroupsOnly s t x.cu.gid ∧
      g'.quads = x.g.quads ∧ g'.status = .bkpt (x.g.bkptSplits ++ [x.cu.split]) := by
  have hon : (x.act != 0 && (x.s.ctx x.g.ctx).bkptArmed (mfld o.m 55 48)) = true := by
    rw [hp.s_eq, harmed, Bool.and_true, bne_iff_ne]
    exact hact
  have hexec : exec (.bkpt o) s = .next (x.s.setGroup x.cu.gid
      { x.tracked (footOf .bkpt .w64 o x) with status := .bkpt (x.g.bkptSplits ++ [x.cu.split]) }) := by
    rw [show exec (.bkpt o) s = execBkpt o s from rfl, execBkpt, issueWith_ready hp.ic hp.ready]
    simp only [hon, if_true]
    rfl
  rw [hp.s_eq] at hexec
  exact ⟨_, _, hexec, State.setGroup_get_self .., ⟨⟨rfl, rfl⟩, ⟨rfl, rfl, rfl, rfl⟩, ⟨rfl, rfl⟩, rfl, rfl, ⟨rfl, rfl⟩,
    ⟨rfl, rfl, rfl⟩⟩, setGroup_groupsOnly .., rfl, rfl⟩

theorem goOn_eq (g : Group) (label : Nat) (next : Nat → BitVec 57) : ∃ q a sl mv, g.goOn label next = g.withControl q a sl mv := by
  obtain ⟨q, a, sl, hmap⟩ := mapQuads_eq g (g.splitQuads label) fun q => ({ q with run := 0, pc := q.pc } : Quad).spread q.run next
  rw [Group.goOn, hmap, Group.noteMoved]
  split <;> exact ⟨_, _, _, _, rfl⟩

/-- Splits that go on, one after another, change the control state of their group alone. -/
theorem goOnAll_eq (g : Group) (splits : List Nat) (next : Nat → Nat → BitVec 57) :
    ∃ q a sl mv, splits.foldl (fun h n => h.goOn n (next n)) g = g.withControl q a sl mv := by
  refine foldl_keeps (fun h : Group => ∃ q a sl mv, h = g.withControl q a sl mv) _ (fun h n hh => ?_) splits g
    ⟨g.quads, g.ages, g.sleepers, g.moved, rfl⟩
  obtain ⟨q, a, sl, mv, rfl⟩ := hh
  exact goOn_eq (g.withControl q a sl mv) n (next n)

/-- The group that BKPT_RESUME makes of one stopped at a BKPT. -/
def Group.resumed (g : Group) (splits : List Nat) : Group :=
  splits.foldl (fun h n => h.goOn n fun _ => g.splitPc n + 8) { g with status := .running }

theorem bkptResume_runs {s : State} {gid : Nat} {g : Group} {splits : List Nat} (hg : s.group? gid = some g)
    (hstop : g.status = .bkpt splits) : exec (.bkptResume gid) s = .next (s.setGroup gid (g.resumed splits)) := by
  rw [show exec (.bkptResume gid) s = execBkptResume gid s from rfl, execBkptResume]
  simp only [hg, hstop]
  rfl

/-- Settles O11: YIELD and an unarmed BKPT go on as any plain instruction does, an armed one is put back stopped, and a resumed group's
splits go on from their BKPTs. -/
theorem yieldAndBkpt : Obligations.YieldAndBkpt := by
  refine fun o s x => ⟨fun hp => ?_, bkpt_goesOn, bkpt_stops, fun gid g splits hg hstop => ?_⟩
  · have hyield := yield_goesOn hp
    rwa [IC.othersReady, hp.s_eq] at hyield
  · obtain ⟨q, a, sl, mv, hcontrol⟩ := goOnAll_eq { g with status := .running } splits fun n _ => g.splitPc n + 8
    refine ⟨_, bkptResume_runs hg hstop, ?_, ?_⟩
    · rw [Group.resumed, hcontrol]
      rfl
    · rintro n rfl l hl
      exact goOn_stands (g := { g with status := .running }) (fun _ => g.splitPc n + 8) hl

end Sys2Proof.Machine
end

section
/-!
PROOF. Traps in the group (R184, R186, R187): TRAP enters the handler with a frame pushed, TRET pops the frame and returns.
-/

namespace Sys2Proof.Machine

open Sys2Proof.Claims

/-! ## What a boundary that issues makes of its effect -/

/-- The outcome of a boundary's issue, from what its effect ends in, where no lane dies. -/
def IC.actOutcome (x : IC) (a : Act) : Out :=
  match a with
  | .passed t next => .next (t.passAndOpen x.cu.gid x.cu.pc next)
  | .wait t => .next t
  | .held t => .next t
  | .stop t => .next t

/-- The issue of a boundary whose checks pass is its effect on the closed region (R24, R38, R40). -/
theorem issueBoundary_effect {op : Op} {len : Len} {act : IC → Ops → Act} {o : Ops} {s : State} {x y : IC}
    (hb : Boundary s o.g (footOf op len o) x y) (hl : (ldBoundary op && decide (63 ≤ x.g.cntLd)) = false) :
    issueBoundary op len act o s = y.actOutcome (act y o) := by
  have hcu := hb.cu_eq
  obtain ⟨hic, hfused, hbounds, hfree, hclean, hgroup, hclosed, hafter⟩ := hb
  rw [issueBoundary_acts hic hfused hbounds hfree hclean hl hgroup hclosed, ← hafter]
  cases act y o <;> simp only [IC.actOutcome, hcu]

theorem Boundary.nextPc_eq {s : State} {gd : Guard} {f : IC → Foot} {x y : IC} (hb : Boundary s gd f x y) :
    y.nextPc = x.nextPc := by
  rw [IC.nextPc, IC.nextPc, hb.cu_eq]

/-! ## TRAP (R184, R187) -/

/-- The group of a TRAP with its frame pushed. -/
def IC.framed (x : IC) (code : Nat) : Group :=
  { x.g with
    frames := setAt ⟨0, 0, 0⟩ x.g.frames x.g.depth ⟨x.act, x.nextPc, BitVec.ofNat 12 code⟩
    depth := x.g.depth + 1 }

/-- Where a TRAP sends the lanes that wait at it: the active ones to their slot of the handler table, the others past it. -/
def IC.trapNext (x : IC) (code l : Nat) : BitVec 57 :=
  if inMask x.act l then (x.g.rdS 63 + BitVec.ofNat 64 (32 * (code - 0x800))).setWidth 57 else x.nextPc

theorem trapIn_pushes {x : IC} (code : Nat) (hd : x.g.depth < 4) :
    x.trapIn code = .passed (x.s.setGroup x.cu.gid (x.framed code)) (x.trapNext code) := by
  unfold IC.trapIn
  rw [if_neg (Nat.not_le.2 hd)]
  rfl

theorem trapIn_faults {x : IC} (code : Nat) (hd : 4 ≤ x.g.depth) : x.trapIn code = x.actFault 0x09 code 4 := by
  unfold IC.trapIn
  rw [if_pos hd]

/-- The effect of a TRAP of the group's own. -/
def IC.trapAct (x : IC) (code : Nat) : Act := if x.act = 0 then x.pass x.s else x.trapIn code

theorem trap_exec {o : Ops} {s : State} {x y : IC} (hb : Boundary s o.g (footOf .trap .w64 o) x y)
    (hcode : 0x800 ≤ mfld o.m 59 48) :
    exec (.trap o) s = y.actOutcome (y.trapAct (mfld o.m 59 48)) := by
  rw [show exec (.trap o) s = execTrap o s from rfl, execTrap, issueBoundary_effect hb rfl, IC.trapAct]
  simp only [if_pos hcode]

/-- The opening of a region leaves the trap stack. -/
theorem reopened_traps (g : Group) (pc : BitVec 57) (next : Nat → BitVec 57) (a : List SplitAge) {h : Group}
    (hh : h = (g.reopened pc next).withAges a) : h.frames = g.frames ∧ h.depth = g.depth := by
  obtain ⟨q, a', sl, hpass⟩ := passBoundary_eq g pc next
  rw [hh, Group.reopened, hpass]
  exact ⟨rfl, rfl⟩

/-- A region opens for a group in the same way whatever its trap stack. -/
theorem Opened.of_framed {x : IC} {code : Nat} {h : Group} (ho : Opened (x.framed code) h) : Opened x.g h := by
  obtain ⟨hquads, hcopies, hcounter, hrmr⟩ := ho
  exact ⟨hquads, hcopies, hcounter, hrmr⟩

theorem trapPushesFrame : Claims.TrapPushesFrame := by
  intro o s x y hb hcode
  rw [trap_exec hb hcode, IC.trapAct]
  refine ⟨fun hact hlive hdepth => ?_, fun hact hdepth => ?_, fun hact => ?_⟩
  · obtain ⟨⟨a, ha⟩, -⟩ := passAndOpen_spec (s := y.s.setGroup y.cu.gid (y.framed (mfld o.m 59 48))) y.cu.pc
      (y.trapNext (mfld o.m 59 48)) (State.setGroup_get_self ..) hlive
    obtain ⟨hv, hs, hx, hp, hk, -⟩ := reopened_registers (y.framed (mfld o.m 59 48)) y.cu.pc (y.trapNext (mfld o.m 59 48)) a rfl
    obtain ⟨hframes, hdepth'⟩ := reopened_traps (y.framed (mfld o.m 59 48)) y.cu.pc (y.trapNext (mfld o.m 59 48)) a rfl
    rw [if_neg hact, trapIn_pushes _ hdepth, ← hb.cu_eq, ← hb.nextPc_eq]
    refine ⟨_, _, rfl, ha, hdepth', ?_, (reopened_opened ..).of_framed, hv, hs, hx, hp, hk, fun l hl => ?_⟩
    · rw [hframes]
      exact setAt_getD_self ..
    · exact passBoundary_stands (g := y.framed (mfld o.m 59 48)) (y.trapNext (mfld o.m 59 48)) hl
  · rw [if_neg hact, trapIn_faults _ hdepth, ← hb.cu_eq]
    rfl
  · rw [if_pos hact]
    rfl

/-! ## TRET (R186, R187) -/

/-- The top frame of a group's trap stack. -/
def Group.topFrame (g : Group) : Frame := g.frames.getD (g.depth - 1) ⟨0, 0, 0⟩

/-- What a TRET does once its checks have passed. -/
theorem tret_exec {o : Ops} {s : State} {x : IC} (hp : Plain s o.g (footOf .tret .w64 o) x) :
    exec (.tret o) s =
      if x.g.depth = 0 then x.fault 0x0A 0 0
      else if x.act != x.g.topFrame.lanes &&& x.g.live then x.fault 0x0A x.g.depth x.g.topFrame.lanes.toNat
      else x.retireTo { x.tracked (footOf .tret .w64 o x) with depth := x.g.depth - 1 } 0
        fun l => if inMask x.act l then x.g.topFrame.rpc else x.nextPc := by
  rw [show exec (.tret o) s = execTret o s from rfl, execTret, issueWith_ready hp.ic hp.ready]
  rfl

theorem tretReturns : Claims.TretReturns := by
  intro o s x hp
  rw [tret_exec hp]
  refine ⟨fun hdepth hact => ?_, fun hdepth => if_pos hdepth, fun hdepth hact => ?_⟩
  · obtain ⟨t, q, a, sl, mv, hretire, hg, hgroups, hstands⟩ := retireTo_goesOn
      (g := { x.tracked (footOf .tret .w64 o x) with depth := x.g.depth - 1 })
      (fun l => if inMask x.act l then x.g.topFrame.rpc else x.nextPc) rfl
    have hsame : (x.act != x.g.topFrame.lanes &&& x.g.live) = false := by rw [bne_eq_false_iff_eq]; exact hact
    rw [if_neg hdepth, if_neg (Bool.eq_false_iff.1 hsame), hretire]
    rw [hp.s_eq] at hgroups
    exact ⟨t, _, rfl, hg, hgroups, rfl, rfl, rfl, rfl, rfl, rfl, rfl, hstands⟩
  · have hother : (x.act != x.g.topFrame.lanes &&& x.g.live) = true := by rw [bne_iff_ne]; exact hact
    rw [if_neg hdepth, if_pos hother]
    rfl

/-- Settles O15: TRAP passes its boundary with the frame pushed or stops with its fault, TRET retires with the frame popped. -/
theorem trapStack : Obligations.TrapStack := ⟨trapPushesFrame, tretReturns⟩

end Sys2Proof.Machine
end

section
/-!
PROOF. SLEEPM and CRWAIT (R189, R312): the word is read at its home, and the split goes on or sleeps.
-/

namespace Sys2Proof.Machine

open Sys2Proof.Claims

/-! ## A group's read at the home (R219) -/

theorem dropL1_linesLeave (s : State) (core : Nat) (lines : List Nat) : LinesLeave s (s.dropL1 core lines) := by
  unfold State.dropL1
  simp only
  split
  · exact .refl s
  · exact setL1_linesLeave ..

/-- Such a read lets lines of the core leave, recalls tenures, and changes nothing of a group but its CNT.ST. -/
theorem groupRead_linesLeave (s : State) (gid core pa n : Nat) : LinesLeave s (s.groupRead gid core pa n).1 :=
  ((drainLines_linesLeave s core _).trans (dropL1_linesLeave _ core _)).trans (intrude_linesLeave _ _ _ false)

theorem groupRead_contextsAndDies (s : State) (gid core pa n : Nat) :
    (s.groupRead gid core pa n).1.contextsAndDies = s.contextsAndDies :=
  (intrude_contextsAndDies ..).trans ((dropL1_contextsAndDies ..).trans (drainLines_contextsAndDies ..))

theorem die_of_contextsAndDies {s t : State} (h : t.contextsAndDies = s.contextsAndDies) (d : Nat) : t.die d = s.die d := by
  rw [State.die, State.die, (Prod.mk.inj h).2]

/-- The read that a plain instruction of the issuing group makes: the state after it, and the bytes. -/
def IC.reads (x : IC) (f : Foot) (pa n : Nat) : State × List (Byte × Bool) :=
  (x.s.setGroup x.cu.gid (x.tracked f)).groupRead x.cu.gid x.g.core pa n

theorem reads_group (x : IC) (f : Foot) (pa n : Nat) :
    ∃ c, (x.reads f pa n).1.group? x.cu.gid = some { x.tracked f with cntSt := c } :=
  (groupRead_linesLeave ..).group _ _ (State.setGroup_get_self ..)

theorem reads_die (x : IC) (f : Foot) (pa n d : Nat) : (x.reads f pa n).1.die d = x.s.die d :=
  die_of_contextsAndDies (groupRead_contextsAndDies ..) d

/-! ## Going on with a result, or falling asleep -/

/-- A group whose S register holds a result, and whose tracking and CNT.ST alone differ beside it. -/
theorem wrS_scalarResult (x : IC) (f : Foot) (c n : Nat) (v : W64) :
    ScalarResult x.g (({ x.tracked f with cntSt := c } : Group).wrS n v) n v :=
  ⟨setAt_getD_self .., fun _ hm => setAt_getD_ne _ _ _ hm, rfl, rfl, rfl, rfl, rfl, rfl, rfl, rfl⟩

/-- A split of a group falls asleep. -/
def Group.asleep (g : Group) (q : Sleeper) : Group :=
  g.withControl g.quads (g.ages.filter (·.split != q.split)) (g.sleepers ++ [q]) g.moved

theorem cntSt_regsSame (g : Group) (c : Nat) : RegsSame g { g with cntSt := c } :=
  ⟨⟨rfl, rfl⟩, ⟨rfl, rfl, rfl, rfl⟩, ⟨rfl, rfl⟩, rfl, rfl, ⟨rfl, rfl⟩, ⟨rfl, rfl, rfl⟩⟩

theorem asleep_spec (x : IC) (f : Foot) (c : Nat) (q : Sleeper) (a : List SplitAge) :
    Asleep x.g ((({ x.tracked f with cntSt := c } : Group).asleep q).withAges a) q :=
  ⟨rfl, (tracked_regsSame x f).trans ((cntSt_regsSame ..).trans ((withControl_regsSame ..).trans (withAges_regsSame ..))), rfl⟩

/-- The cycle at which a sleep that begins in a state ends, for a limit of 2 to the power of `t` cycles, or none for 0 (R189, R312). -/
def IC.wakeAt (x : IC) (s : State) (t : Nat) : Option Nat := if t = 0 then none else some ((s.die x.dieNo).cycle.toNat + 2 ^ t)

theorem wakeAt_reads (x : IC) (f : Foot) (pa n t : Nat) : x.wakeAt (x.reads f pa n).1 t = x.wakeAt x.s t := by
  rw [IC.wakeAt, IC.wakeAt, reads_die]

/-- What SLEEPM and CRWAIT do when they have read their word: with `go` the result is 0, and else the split sleeps. -/
def IC.goOrSleep (x : IC) (o : Ops) (f : Foot) (pa n : Nat) (go : Bool) (kind : SleepKind) : Out :=
  let u := (x.reads f pa n).1
  let h := (u.group? x.cu.gid).getD (x.tracked f)
  if go then .next (x.after u (h.wrS (opNum o.d) 0))
  else .next ((u.setGroup x.cu.gid (h.asleep ⟨x.cu.split, kind, opNum o.d, x.wakeAt u (mfld o.m 52 48)⟩)).releaseYields
    x.g.core x.cu.gid x.cu.split)

theorem goOrSleep_goes (x : IC) (o : Ops) (f : Foot) (pa n : Nat) {go : Bool} (kind : SleepKind) (hgo : go = true) :
    ∃ g', x.goOrSleep o f pa n go kind = .next (x.after (x.reads f pa n).1 g') ∧ ScalarResult x.g g' (opNum o.d) 0 := by
  subst hgo
  obtain ⟨c, hc⟩ := reads_group x f pa n
  refine ⟨_, rfl, ?_⟩
  rw [hc]
  exact wrS_scalarResult ..

theorem goOrSleep_sleeps (x : IC) (o : Ops) (f : Foot) (pa n : Nat) {go : Bool} (kind : SleepKind) (hgo : go = false) :
    ∃ t g' q, x.goOrSleep o f pa n go kind = .next t ∧ t.group? x.cu.gid = some g' ∧ Asleep x.g g' q ∧ q.split = x.cu.split ∧
      q.kind = kind ∧ q.dst = opNum o.d ∧ q.deadline = x.wakeAt x.s (mfld o.m 52 48) := by
  subst hgo
  obtain ⟨c, hc⟩ := reads_group x f pa n
  obtain ⟨⟨a, ha⟩, -⟩ := releaseYields_setGroup (x.reads f pa n).1 x.cu.gid (({ x.tracked f with cntSt := c } : Group).asleep
    ⟨x.cu.split, kind, opNum o.d, x.wakeAt (x.reads f pa n).1 (mfld o.m 52 48)⟩) x.g.core x.cu.split
  refine ⟨_, _, ⟨x.cu.split, kind, opNum o.d, x.wakeAt (x.reads f pa n).1 (mfld o.m 52 48)⟩, rfl, ?_, asleep_spec x f c _ a, rfl,
    rfl, rfl, wakeAt_reads ..⟩
  rw [hc]
  exact ha

/-! ## The two instructions -/

/-- The bytes of a SLEEPM's word. -/
def sleepBytes (o : Ops) : Nat := if mbit o.m 53 then 8 else 4

/-- The value that a read has found. -/
def wordRead (rd : State × List (Byte × Bool)) : Nat := leNat (rd.2.map (·.1))

theorem sleepm_exec {o : Ops} {s : State} {x : IC} {a : Nat} {pas : List Nat} (hp : Plain s o.g (footOf .sleepm .w64 o) x)
    (ha : (x.val o.a true 0).toNat = a) (halign : a % sleepBytes o = 0) (hlow : a < Config.virtEnd)
    (hspan : s.span (x.g.req x.cu.gid .load false) a (sleepBytes o) = .ok pas)
    (hheld : s.homeHeld x.cu.gid x.g.core pas = false)
    (hclean : (x.reads (footOf .sleepm .w64 o x) (pas.headD 0) (sleepBytes o)).2.any (·.2) = false) :
    exec (.sleepm o) s = x.goOrSleep o (footOf .sleepm .w64 o x) (pas.headD 0) (sleepBytes o)
      (BitVec.ofNat 64 (wordRead (x.reads (footOf .sleepm .w64 o x) (pas.headD 0) (sleepBytes o))) !=
        sleepWord (mbit o.m 53) (x.val o.b true 0).toNat)
      (.sleepm a (mbit o.m 53) (sleepWord (mbit o.m 53) (x.val o.b true 0).toNat)) := by
  rw [← hp.s_eq] at hspan hheld
  have hgood : (decide (a % sleepBytes o ≠ 0) || decide (Config.virtEnd ≤ a)) = false := by simp [halign, hlow]
  rw [show exec (.sleepm o) s = execSleepm o s from rfl, execSleepm, issueWith_ready hp.ic hp.ready]
  unfold sleepBytes IC.reads footOf at *
  simp only [ha, hgood, hspan, hheld, hclean, Bool.false_eq_true, if_false]
  unfold IC.goOrSleep IC.reads wordRead
  split
  · rfl
  · rfl

theorem crwait_exec {o : Ops} {s : State} {x : IC} {n : Nat} {pas : List Nat} (hp : Plain s o.g (footOf .crwait .w64 o) x)
    (hn : (x.val o.a true 0).toNat % 2 ^ 32 = n) (hpos : n ≠ 0) (hring : s.ringDefined x.g.ctx = true)
    (hspan : s.span (x.g.req x.cu.gid .load false) (s.ringSlot x.g.ctx n + 4) 4 = .ok pas)
    (hheld : s.homeHeld x.cu.gid x.g.core pas = false)
    (hclean : (x.reads (footOf .crwait .w64 o x) (pas.headD 0) 4).2.any (·.2) = false) :
    exec (.crwait o) s = x.goOrSleep o (footOf .crwait .w64 o x) (pas.headD 0) 4
      (decide (wordRead (x.reads (footOf .crwait .w64 o x) (pas.headD 0) 4) = n)) (.crwait n) := by
  rw [← hp.s_eq] at hspan hheld hring
  have hgood : (decide (n = 0) || !x.s.ringDefined x.g.ctx) = false := by simp [hpos, hring]
  rw [show exec (.crwait o) s = execCrwait o s from rfl, execCrwait, issueWith_ready hp.ic hp.ready]
  unfold IC.reads footOf at *
  simp only [hn, hgood, hspan, hheld, hclean, Bool.false_eq_true, if_false]
  unfold IC.goOrSleep IC.reads wordRead
  simp only [decide_eq_true_eq]
  split
  · rfl
  · rfl

/-- Settles O33: both instructions go on or fall asleep in one way, whose read changes nothing of their group but its CNT.ST. -/
theorem waitsOnMemory : Obligations.WaitsOnMemory := by
  refine ⟨fun o s x pas hp => ?_, fun o s x pas hp => ?_⟩
  · obtain rfl := hp.s_eq
    intro n a rd halign hlow hspan hheld hclean
    rw [sleepm_exec hp rfl halign hlow hspan hheld hclean]
    exact ⟨fun hne => goOrSleep_goes _ _ _ _ _ _ (bne_iff_ne.2 hne),
      fun heq => goOrSleep_sleeps _ _ _ _ _ _ (bne_eq_false_iff_eq.2 heq)⟩
  · obtain rfl := hp.s_eq
    intro n rd hpos hring hspan hheld hclean
    rw [crwait_exec hp rfl hpos hring hspan hheld hclean]
    refine ⟨fun heq => goOrSleep_goes _ _ _ _ _ _ (decide_eq_true heq), fun hne => ?_⟩
    obtain ⟨t, g', q, hsleeps, hg, hasleep, hsplit, hkind, hdst, -⟩ := goOrSleep_sleeps x o (footOf .crwait .w64 o x) (pas.headD 0) 4
      (.crwait n) (decide_eq_false hne)
    exact ⟨t, g', q, hsleeps, hg, hasleep, hsplit, hkind, hdst⟩

end Sys2Proof.Machine
end

section
/-!
PROOF. The copy engine's events (R296, R303, R305) and the ends of the sleeps of SLEEPM, CRWAIT and WAITB (R189, R312, R385): each
event's conditions pick the branch of its meaning.
-/

namespace Sys2Proof.Machine

/-! ## The copy engine (R296, R303, R305) -/

theorem copyStart_goesOn {s : State} {n : Nat} {r : CopyRun} (hup : s.copyUp n = true)
    (hrun : (s.copyEngine n).running.find? (s.copyGoes n) = some r) : exec (.copyStart n) s = .next (s.advanceRun n r) := by
  rw [show exec (.copyStart n) s = execCopyStart n s from rfl, execCopyStart]
  simp only [hup, hrun, Bool.not_true, Bool.false_eq_true, if_false]

theorem copyStart_starts {s : State} {n : Nat} {c : CopyCmd} {rest : List CopyCmd} (hup : s.copyUp n = true)
    (hnone : (s.copyEngine n).running.find? (s.copyGoes n) = none) (hqueue : (s.copyEngine n).queue = c :: rest)
    (hroom : ((s.copyEngine n).running.filter fun r => r.done.isNone).length < 8) :
    exec (.copyStart n) s = .next ((s.setCopyEng n { s.copyEngine n with
      queue := rest, running := (s.copyEngine n).running ++ [c.start] }).advanceRun n c.start) := by
  rw [show exec (.copyStart n) s = execCopyStart n s from rfl, execCopyStart]
  simp only [hup, hnone, hqueue, if_neg (Nat.not_le.2 hroom), Bool.not_true, Bool.false_eq_true, if_false]

theorem signatureDelivery_delivers {s : State} {id n tile sum abs : Nat} {r : CopyRun} {rest : List (Nat × Nat × Nat)}
    (hfind : (s.copyEng.findSome? fun kv => (kv.2.find id).map fun r => (kv.1, r)) = some (n, r))
    (hsigs : r.sigs = (tile, sum, abs) :: rest) (hheld : s.deliveryHeld r.cmd.ctx r.cmd.sset tile = false) :
    exec (.signatureDelivery id) s = .next ((s.deliver r.cmd.ctx r.cmd.sset tile sum abs).1.putRun n { r with
      sigs := rest
      flags := if (s.deliver r.cmd.ctx r.cmd.sset tile sum abs).2 then r.flags ||| 8 else r.flags }) := by
  rw [show exec (.signatureDelivery id) s = execSignatureDelivery id s from rfl, execSignatureDelivery]
  simp only [hfind, hsigs, hheld, Bool.false_eq_true, if_false]

section Record

variable {s u w : State} {n id st fault addr k : Nat} {r q : CopyRun} (hfind : (s.copyEngine n).find id = some r)
  (hdue : r.recordDue = some (st, fault, addr)) (hnum : s.numberRun n r = (u, q, k))

include hfind hdue hnum

/-! In each proof `findSlot` is first replaced by a variable: it reads memory byte by byte, and a reduction of the match on its
result must not unfold it. -/

theorem copyRingSlotWait_held (hslot : u.findSlot n q.cmd (u.ringSlot q.cmd.ctx k) = (w, .busy)) :
    exec (.copyRingSlotWait n id) s = .next w := by
  rw [show exec (.copyRingSlotWait n id) s = execCopyRingSlotWait n id s from rfl, execCopyRingSlotWait]
  obtain ⟨find, hopaque⟩ : ∃ find, find = State.findSlot := ⟨_, rfl⟩
  rw [← hopaque] at hslot ⊢
  simp only [hfind, hdue, hnum, hslot]

theorem copyRecord_held (hgo : s.copyWaiting n r = false) (hslot : u.findSlot n q.cmd (u.ringSlot q.cmd.ctx k) = (w, .busy)) :
    exec (.copyCompletionRecord n id) s = .next w := by
  rw [show exec (.copyCompletionRecord n id) s = execCopyCompletionRecord n id s from rfl, execCopyCompletionRecord]
  obtain ⟨find, hopaque⟩ : ∃ find, find = State.findSlot := ⟨_, rfl⟩
  rw [← hopaque] at hslot ⊢
  simp only [hfind, hdue, hgo, hnum, hslot, Bool.false_eq_true, if_false]

theorem copyRecord_writes {pa : Nat} (hgo : s.copyWaiting n r = false)
    (hslot : u.findSlot n q.cmd (u.ringSlot q.cmd.ctx k) = (w, .free pa)) :
    ∃ v, v = w.copyWrite q.cmd .g (wbytes pa (q.record st fault addr k)) ∧
      exec (.copyCompletionRecord n id) s = .next ((v.setCopyEng n { v.copyEngine n with
        running := (v.copyEngine n).running.filter fun z => z.cmd.id != id }).copyDone q.cmd st fault) := by
  refine ⟨_, rfl, ?_⟩
  rw [show exec (.copyCompletionRecord n id) s = execCopyCompletionRecord n id s from rfl, execCopyCompletionRecord]
  obtain ⟨find, hopaque⟩ : ∃ find, find = State.findSlot := ⟨_, rfl⟩
  rw [← hopaque] at hslot ⊢
  simp only [hfind, hdue, hgo, hnum, hslot, Bool.false_eq_true, if_false]

end Record

/-! ## Sleeping splits (R189, R312) -/

section Reread

variable {s : State} {gid split dst k : Nat} {dl : Option Nat} {g : Group} {pas : List Nat} (hg : s.group? gid = some g)
  (hheld : s.homeHeld gid g.core pas = false)

include hg hheld

/-- SLEEPM_REREAD of a word without error. -/
theorem sleepmReread_reads {va : Nat} {b64 : Bool} {want : W64}
    (hsleep : g.sleeper split = some ⟨k, .sleepm va b64 want, dst, dl⟩)
    (hspan : s.span (g.req gid .load false) va (if b64 then 8 else 4) = .ok pas) :
    ∃ rd, rd = s.groupRead gid g.core (pas.headD 0) (if b64 then 8 else 4) ∧ (rd.2.any (·.2) = false →
      exec (.sleepmReread gid split) s = if BitVec.ofNat 64 (leNat (rd.2.map (·.1))) = want then .next rd.1
        else .next (rd.1.wakeSplit gid split dst 0)) := by
  refine ⟨_, rfl, fun hclean => ?_⟩
  rw [show exec (.sleepmReread gid split) s = execSleepmReread gid split s from rfl, execSleepmReread]
  simp only [hg, hsleep, hspan, hheld, hclean, Bool.false_eq_true, if_false]

/-- CRWAIT_REREAD of a record number without error. -/
theorem crwaitReread_reads {n : Nat} (hsleep : g.sleeper split = some ⟨k, .crwait n, dst, dl⟩)
    (hspan : s.span (g.req gid .load false) (s.ringSlot g.ctx n + 4) 4 = .ok pas) :
    ∃ rd, rd = s.groupRead gid g.core (pas.headD 0) 4 ∧ (rd.2.any (·.2) = false →
      exec (.crwaitReread gid split) s = if leNat (rd.2.map (·.1)) = n then .next (rd.1.wakeSplit gid split dst 0)
        else .next rd.1) := by
  refine ⟨_, rfl, fun hclean => ?_⟩
  rw [show exec (.crwaitReread gid split) s = execCrwaitReread gid split s from rfl, execCrwaitReread]
  simp only [hg, hsleep, hspan, hheld, hclean, Bool.false_eq_true, if_false]

end Reread

section Timeout

variable {s : State} {gid split : Nat} {g : Group} {q : Sleeper} (hg : s.group? gid = some g) (hsleep : g.sleeper split = some q)
  (hpast : s.pastDeadline g q = true)

include hg hsleep hpast

theorem sleepmTimeout_wakes {va : Nat} {b64 : Bool} {want : W64} (hkind : q.kind = .sleepm va b64 want) :
    exec (.sleepmTimeout gid split) s = .next (s.wakeSplit gid split q.dst 1) := by
  rw [show exec (.sleepmTimeout gid split) s = execSleepmTimeout gid split s from rfl, execSleepmTimeout]
  simp only [hg, hsleep, hkind, hpast, if_true]

theorem crwaitTimeout_wakes {n : Nat} (hkind : q.kind = .crwait n) :
    exec (.crwaitTimeout gid split) s = .next (s.wakeSplit gid split q.dst 1) := by
  rw [show exec (.crwaitTimeout gid split) s = execCrwaitTimeout gid split s from rfl, execCrwaitTimeout]
  simp only [hg, hsleep, hkind, hpast, if_true]

theorem waitbTimeout_wakes {b r : Nat} (hkind : q.kind = .waitb b r) :
    exec (.waitbTimeout gid split) s = .next (s.wakeSplit gid split q.dst 1) := by
  rw [show exec (.waitbTimeout gid split) s = execWaitbTimeout gid split s from rfl, execWaitbTimeout]
  simp only [hg, hsleep, hkind, hpast, if_true]

end Timeout

/-- Settles O45, one event at a time. -/
theorem copyEngineAndSleepers : Obligations.CopyEngineAndSleepers := by
  refine ⟨fun s n hup => ⟨fun r => copyStart_goesOn hup, fun c rest => copyStart_starts hup⟩,
    fun s id n tile sum abs r rest => signatureDelivery_delivers, fun s u w n id st fault addr k r q hfind hdue hgo hnum =>
      ⟨fun pa => copyRecord_writes hfind hdue hnum hgo, fun hbusy => ⟨copyRingSlotWait_held hfind hdue hnum hbusy,
        copyRecord_held hfind hdue hnum hgo hbusy⟩⟩, ?_, ?_, fun s gid split g q hg hsleep hpast =>
      ⟨fun va b64 want => sleepmTimeout_wakes hg hsleep hpast, fun n => crwaitTimeout_wakes hg hsleep hpast,
        fun b r => waitbTimeout_wakes hg hsleep hpast⟩⟩
  · intro s gid split va dst b64 want dl k g pas hg hsleep hspan hheld
    obtain ⟨rd, hrd, hexec⟩ := sleepmReread_reads hg hheld hsleep hspan
    exact ⟨rd, hrd, fun hclean hne => (hexec hclean).trans (if_neg hne), fun hclean heq => (hexec hclean).trans (if_pos heq)⟩
  · intro s gid split n dst dl k g pas hg hsleep hspan hheld
    obtain ⟨rd, hrd, hexec⟩ := crwaitReread_reads hg hheld hsleep hspan
    exact ⟨rd, hrd, fun hclean heq => (hexec hclean).trans (if_pos heq), fun hclean hne => (hexec hclean).trans (if_neg hne)⟩

end Sys2Proof.Machine
end

section
/-!
PROOF. Device memory at reset.
-/
namespace Sys2Proof.Machine

/-- Settles O59: the memory of the reset state lists no byte. -/
theorem memoryCanonicalAtReset : Obligations.MemoryCanonicalAtReset := reset_mem_wf

end Sys2Proof.Machine
end

section
/-!
PROOF. The canonical form of device memory: what a state, an effect and an issue keep.
-/
namespace Sys2Proof.Machine

/-! ## The canonical form, of a state and of what an effect leaves -/

/-- The device's memory has its canonical form. -/
abbrev State.Canonical (s : State) : Prop := s.mem.wf = true

/-- The next state, where there is one, has a canonical memory. -/
def Out.Canonical (o : Out) : Prop := ∀ t, o = .next t → t.Canonical

/-- The state in which a boundary's effect ends. -/
def Act.state : Act → State
  | .passed s _ => s
  | .wait s => s
  | .held s => s
  | .stop s => s

/-- The state in which a boundary's effect ends has a canonical memory. -/
abbrev Act.Canonical (a : Act) : Prop := a.state.Canonical

namespace State.Canonical

/-- A state with the memory of a canonical one is canonical. -/
theorem of_mem {s t : State} (hm : t.mem = s.mem) (h : s.Canonical) : t.Canonical := by
  rw [State.Canonical, hm]; exact h

theorem ite {c : Prop} [Decidable c] {s t : State} (hs : s.Canonical) (ht : t.Canonical) :
    (if c then s else t).Canonical := by
  split
  · exact hs
  · exact ht

end State.Canonical

namespace Out.Canonical

theorem next {s : State} (h : s.Canonical) : Out.Canonical (.next s) := fun _ ht => by
  cases ht; exact h

theorem fault {e : Fault} : Out.Canonical (.fault e) := fun _ ht => by cases ht

theorem refused {e : Refusal} : Out.Canonical (.refused e) := fun _ ht => by cases ht

theorem ite {c : Prop} [Decidable c] {a b : Out} (ha : Out.Canonical a) (hb : Out.Canonical b) :
    Out.Canonical (if c then a else b) := by
  split
  · exact ha
  · exact hb

end Out.Canonical

theorem Act.Canonical.ite {c : Prop} [Decidable c] {a b : Act} (ha : a.Canonical) (hb : b.Canonical) :
    (if c then a else b).Canonical := by
  split
  · exact ha
  · exact hb

/-- A fold of which each step keeps the canonical form keeps it. -/
theorem foldl_canonical {α : Type} {f : State → α → State} {l : List α} {s : State}
    (hf : ∀ s x, s.Canonical → (f s x).Canonical) (h : s.Canonical) : (l.foldl f s).Canonical :=
  foldl_keeps State.Canonical f hf l s h

/-- The first part of a pair is canonical where the pair's is. -/
theorem State.Canonical.fst_ite {α : Type} {c : Prop} [Decidable c] {p q : State × α} (hp : p.1.Canonical) (hq : q.1.Canonical) :
    (if c then p else q).1.Canonical := by
  split
  · exact hp
  · exact hq

theorem State.Canonical.of_fst {α : Type} {p : State × α} {s : State} {a : α} (h : p.1.Canonical) (hp : p = (s, a)) :
    s.Canonical := by
  subst hp; exact h

/-- The state an option holds is canonical, and so is the one in its place. -/
theorem getD_canonical {o : Option State} {s : State} (ho : ∀ t, o = some t → t.Canonical) (h : s.Canonical) :
    (o.getD s).Canonical := by
  cases o with
  | none => exact h
  | some t => exact ho t rfl

/-- The state in which a packet has acted, or waits. -/
def PacketAct.state : PacketAct → State
  | .acted s => s
  | .waits s => s

abbrev PacketAct.Canonical (a : PacketAct) : Prop := a.state.Canonical

theorem PacketAct.Canonical.acted {s : State} (h : s.Canonical) : (PacketAct.acted s).Canonical := h

/-- The state in which the packets of a stopped context have ended, or wait. -/
def Ending.state : Ending → State
  | .done s => s
  | .wait s => s

theorem modGroup_canonical {s : State} {gid : Nat} {f : Group → Group} (h : s.Canonical) : (s.modGroup gid f).Canonical :=
  .of_mem (modGroup_mem ..) h

theorem loseReservations_canonical {s : State} {who : Option Nat} {lines : List Nat} (h : s.Canonical) :
    (s.loseReservations who lines).Canonical := .of_mem (loseReservations_mem ..) h

theorem countClass3_canonical {s : State} {gid : Nat} (h : s.Canonical) : (s.countClass3 gid).Canonical :=
  .of_mem (countClass3_mem ..) h

theorem fillL2_canonical {s : State} {pas : List Nat} (h : s.Canonical) : (s.fillL2 pas).Canonical :=
  .of_mem (fillL2_mem ..) h

theorem keyPage_canonical {s : State} {p : PageKey} (h : s.Canonical) : (s.keyPage p).Canonical :=
  .of_mem (keyPage_mem ..) h

theorem pruneCopies_canonical {s : State} (h : s.Canonical) : s.pruneCopies.Canonical := .of_mem (pruneCopies_mem ..) h

theorem restartClock_canonical {s : State} {d : Nat} (h : s.Canonical) : (s.restartClock d).Canonical :=
  .of_mem (restartClock_mem ..) h

theorem useLine_canonical {s : State} {line slot : Nat} (h : s.Canonical) : (s.useLine line slot).Canonical := useLine_wf _ _ h

theorem openLine_canonical {s : State} {line : Nat} (h : s.Canonical) : (s.openLine line).Canonical := openLine_wf _ h

theorem recallAll_canonical {s : State} {ts : List Tenure} (h : s.Canonical) : (s.recallAll ts).Canonical := recallAll_wf _ h

theorem intrude_canonical {s : State} {who : Option Nat} {pas : List Nat} {write : Bool} (h : s.Canonical) :
    (s.intrude who pas write).Canonical := intrude_wf _ _ _ h

theorem memWrite_canonical {s : State} {who : Option Nat} {ws : List WByte} (h : s.Canonical) :
    (s.memWrite who ws).Canonical := memWrite_wf _ _ h

theorem physWrite_canonical {s : State} {pa : Nat} {bs : List Byte} (h : s.Canonical) : (s.physWrite pa bs).Canonical :=
  physWrite_wf _ _ h

theorem ackLine_canonical {s : State} {o : OutLine} (h : s.Canonical) : (s.ackLine o).Canonical := ackLine_wf _ h

theorem drainLines_canonical {s : State} {core : Nat} {p : OutLine → Bool} (h : s.Canonical) :
    (s.drainLines core p).Canonical := drainLines_wf _ _ h

theorem copyWrite_canonical {s : State} {c : CopyCmd} {sp : Space} {ws : List WByte} (h : s.Canonical) :
    (s.copyWrite c sp ws).Canonical := copyWrite_wf _ _ _ h

theorem copySweep_canonical {s : State} {c : CopyCmd} {sp : Space} {places : List Nat} (h : s.Canonical) :
    (s.copySweep c sp places).Canonical := copySweep_wf _ _ _ h

theorem setCtx_canonical {s : State} {c : Nat} {x : Ctx} (h : s.Canonical) : (s.setCtx c x).Canonical := h

theorem setGroup_canonical {s : State} {gid : Nat} {g : Group} (h : s.Canonical) : (s.setGroup gid g).Canonical := h

theorem setCore_canonical {s : State} {n : Nat} {c : CoreSt} (h : s.Canonical) : (s.setCore n c).Canonical := h

theorem setTeam_canonical {s : State} {key : Nat} {t : Team} (h : s.Canonical) : (s.setTeam key t).Canonical := h

theorem setQueue_canonical {s : State} {q : Nat} {x : QueueSt} (h : s.Canonical) : (s.setQueue q x).Canonical := h

theorem setWorld_canonical {s : State} {w : Nat} {x : World} (h : s.Canonical) : (s.setWorld w x).Canonical := h

theorem pushEvent_canonical {s : State} {e : DeviceEvent} (h : s.Canonical) : (s.pushEvent e).Canonical := h

/-! ## Writes to physical memory -/

theorem putMem_canonical {s : State} {ws : List WByte} (h : s.Canonical) : (s.putMem ws).Canonical := by
  rw [State.Canonical, putMem_mem]
  exact bankWrite_wf _ h

theorem copyLines_canonical {s : State} {gid : Nat} {lines : List Nat} (h : s.Canonical) :
    (s.copyLines gid lines).Canonical := by
  unfold State.copyLines
  extract_lets
  split <;> exact h

theorem readThrough_canonical {s : State} {who : Option Nat} {pa n : Nat} (h : s.Canonical) :
    (s.readThrough who pa n).1.Canonical := by
  unfold State.readThrough
  split
  · exact h
  · exact intrude_canonical h

/-! ## What a core reads through its outbound lines, and its L1 (R205, R218) -/

theorem fillL1_canonical {s : State} {core line : Nat} {bytes : List Byte} (h : s.Canonical) :
    (s.fillL1 core line bytes).Canonical := by
  unfold State.fillL1
  extract_lets
  split
  · exact h
  · split <;> exact h

/-! ## Stop records and the raising of a fault (R391 to R398) -/

theorem giveWork_canonical {s : State} {ctx code : Nat} (h : s.Canonical) : (s.giveWork ctx code).Canonical := by
  unfold State.giveWork
  extract_lets
  split <;> exact h

theorem raiseFault_canonical {s : State} {gid kind : Nat} {d0 d1 : W64} {lanes : Mask} {pc : BitVec 57} (h : s.Canonical) :
    (s.raiseFault gid kind d0 d1 lanes pc).Canonical := by
  unfold State.raiseFault
  split <;> exact h

theorem raiseManaged_canonical {s : State} {ctx kind d0 d1 die : Nat} (h : s.Canonical) :
    (s.raiseManaged ctx kind d0 d1 die).Canonical := by
  unfold State.raiseManaged
  extract_lets
  split <;> exact h

/-! ## Order and completion (R262, R263, R271) -/

theorem finishTile_canonical {s : State} {o : TileOp} {fl : W32} (h : s.Canonical) : (s.finishTile o fl).Canonical := by
  unfold State.finishTile
  exact modGroup_canonical h

theorem clearSlots_canonical {s : State} {o : TileOp} (h : s.Canonical) : (s.clearSlots o).Canonical := by
  unfold State.clearSlots
  exact finishTile_canonical (drainLines_canonical h)

theorem settleClears_canonical {n : Nat} {s : State} {engine : Nat} (h : s.Canonical) :
    (settleClears n s engine).Canonical := by
  induction n generalizing s with
  | zero => exact h
  | succ n ih =>
    unfold settleClears
    extract_lets
    split
    · exact h
    · exact ih (clearSlots_canonical h)

/-! ## Translation -/

theorem walkRecall_canonical {s : State} {c va : Nat} (h : s.Canonical) : (s.walkRecall c va).Canonical := by
  unfold State.walkRecall
  split
  · exact h
  · exact intrude_canonical h

theorem joinRecord_canonical {s : State} {r : Req} {seq : Nat} (h : s.Canonical) : (s.joinRecord r seq).Canonical := by
  unfold State.joinRecord
  extract_lets
  split <;> exact h

theorem requestWalk_canonical {s : State} {r : Req} {va : Nat} (h : s.Canonical) : (s.requestWalk r va).Canonical := by
  unfold State.requestWalk
  dsimp only
  split
  · split <;> exact h
  · split <;> exact h

theorem postRecord_canonical {s : State} {c : Nat} {m : Miss} {cause level entryPa : Nat} {ws : List Waiter} (h : s.Canonical) :
    (s.postRecord c m cause level entryPa ws).Canonical := by
  unfold State.postRecord
  exact setCtx_canonical (pushEvent_canonical (physWrite_canonical h))

theorem fillTlb_canonical {s : State} {e : TlbEntry} {m : Miss} (h : s.Canonical) : (s.fillTlb e m).Canonical := by
  unfold State.fillTlb
  dsimp only
  split
  · split <;> exact h
  · split <;> exact h

theorem postDenied_canonical {s : State} {r : Req} {va cause : Nat} (h : s.Canonical) :
    (s.postDenied r va cause).Canonical := by
  unfold State.postDenied
  split
  · exact joinRecord_canonical h
  · split
    · exact postRecord_canonical h
    · exact h

theorem seekAll_canonical {s : State} {r : Req} {vas : List Nat} (h : s.Canonical) : (s.seekAll r vas).Canonical := by
  unfold State.seekAll
  exact foldl_canonical (fun _ _ hu => useLine_canonical hu) (foldl_canonical (fun _ _ hu => by
    split
    · exact requestWalk_canonical hu
    · exact postDenied_canonical hu
    · exact joinRecord_canonical hu
    · exact hu) h)

theorem failMisses_canonical {s : State} {c : Nat} {ms : List Miss} {cause level pa : Nat} (h : s.Canonical) :
    (s.failMisses c ms cause level pa).Canonical := by
  unfold State.failMisses
  split
  · exact h
  · extract_lets
    split
    · exact h
    · split
      · exact postRecord_canonical h
      · exact h

theorem tellUnit_canonical {s : State} {c : Nat} {m : Miss} {e : Option TlbEntry} (h : s.Canonical) :
    (s.tellUnit c m e).Canonical := by
  unfold State.tellUnit
  split
  · exact h
  · exact h
  · exact h
  · split
    · exact h
    · extract_lets
      split
      · exact fillL1_canonical (fillL2_canonical h)
      · exact fillL2_canonical h
  · exact h

theorem failAll_canonical {s : State} {c : Nat} {ms : List Miss} {cause : Miss → Nat} {level pa : Nat} (h : s.Canonical) :
    (s.failAll c ms cause level pa).Canonical := by
  unfold State.failAll
  exact foldl_canonical (fun _ _ hu => failMisses_canonical hu) (foldl_canonical (fun _ _ hu => tellUnit_canonical hu) h)

theorem endWalk_canonical {s : State} {w : Walk} (h : s.Canonical) : (s.endWalk w).Canonical := by
  unfold State.endWalk
  split
  · exact failAll_canonical h
  · extract_lets
    split
    · exact keyPage_canonical (foldl_canonical (fun _ _ hu => foldl_canonical (fun _ _ hu2 => tellUnit_canonical
        (fillTlb_canonical hu2)) (failAll_canonical hu)) h)
    · exact foldl_canonical (fun _ _ hu => foldl_canonical (fun _ _ hu2 => tellUnit_canonical (fillTlb_canonical hu2))
        (failAll_canonical hu)) h

/-! ## Units without a TLB (R213, R294, R448) -/

theorem unitAsk_wait_canonical {s : State} {u : Unit7} {va : Nat} {t : State} (h : s.Canonical) (ht : s.unitAsk u va = .wait t) :
    t.Canonical := by
  unfold State.unitAsk at ht
  split at ht
  · cases ht
  · split at ht
    · cases ht
      exact requestWalk_canonical h
    · split at ht
      · cases ht
      · split at ht
        · cases ht
        · dsimp only at ht
          split at ht
          · cases ht
          · cases ht
            exact useLine_canonical h

theorem unitDone_canonical {s : State} {c : Nat} {who : Waiter} (h : s.Canonical) : (s.unitDone c who).Canonical := by
  unfold State.unitDone
  split <;> exact h

/-! ## Fixing (R42, R375) -/

theorem handOn_canonical {s : State} {gid : Nat} {b : BufLine} (h : s.Canonical) : (s.handOn gid b).Canonical := by
  unfold State.handOn
  split
  · exact h
  · extract_lets
    split
    · exact h
    · exact modGroup_canonical (drainLines_canonical h)

theorem handLines_canonical {n : Nat} {s : State} {gid : Nat} (h : s.Canonical) : (handLines n s gid).Canonical := by
  induction n generalizing s with
  | zero => exact h
  | succ n ih =>
    unfold handLines
    split
    · exact h
    split
    · exact h
    split_ifs
    · exact ih h
    · exact ih h
    · exact h
    · exact ih (handOn_canonical h)

theorem handLate_canonical {n : Nat} {s : State} {gid : Nat} (h : s.Canonical) : (handLate n s gid).Canonical := by
  induction n generalizing s with
  | zero => exact h
  | succ n ih =>
    unfold handLate
    split
    · exact h
    split
    · exact h
    split
    · exact h
    · exact ih (handOn_canonical (modGroup_canonical (.ite (drainLines_canonical h) h)))

theorem close_canonical {s : State} {gid : Nat} (h : s.Canonical) : (s.close gid).Canonical := by
  unfold State.close
  extract_lets
  split
  · exact handLines_canonical h
  · split
    · exact handLines_canonical h
    · split <;> exact handLines_canonical h

theorem endIfEmpty_canonical {s : State} {gid : Nat} (h : s.Canonical) : (s.endIfEmpty gid).Canonical := by
  unfold State.endIfEmpty
  split
  · exact h
  · split
    · extract_lets
      split <;> exact close_canonical h
    · exact h

theorem loseLanes_canonical {s : State} {gid : Nat} {lanes : Mask} (h : s.Canonical) : (s.loseLanes gid lanes).Canonical := by
  unfold State.loseLanes
  split
  · exact h
  · exact endIfEmpty_canonical h

theorem killLanes_canonical {s : State} {gid : Nat} {lanes : Mask} (h : s.Canonical) : (s.killLanes gid lanes).Canonical := by
  unfold State.killLanes
  split
  · exact h
  · split
    · exact h
    · extract_lets
      split
      · exact h
      · exact loseLanes_canonical h

theorem settleDying_canonical {s : State} {gid : Nat} (h : s.Canonical) : (s.settleDying gid).Canonical := by
  unfold State.settleDying
  split
  · exact h
  · split
    · exact h
    · exact loseLanes_canonical h

/-! ## Discard and re-entry (R49, R50, R53) -/

theorem withdraw_canonical {s : State} {gid : Nat} (h : s.Canonical) : (s.withdraw gid).Canonical := by
  unfold State.withdraw
  split
  · exact h
  · exact settleClears_canonical h

theorem startDiscard_canonical {s : State} {gid cause : Nat} (h : s.Canonical) : (s.startDiscard gid cause).Canonical := by
  unfold State.startDiscard
  extract_lets
  split <;> exact withdraw_canonical h

theorem dropEarly_canonical {s : State} {c gid : Nat} (h : s.Canonical) : (s.dropEarly c gid).Canonical := by
  unfold State.dropEarly
  extract_lets
  split <;> exact h

theorem translationFault_canonical {s : State} {gid : Nat} {recs : List (Nat × Nat)} {pc : BitVec 57} {act : Mask}
    (h : s.Canonical) : (s.translationFault gid recs pc act).Canonical := by
  unfold State.translationFault
  split
  · exact h
  · exact startDiscard_canonical (dropEarly_canonical h)

theorem discard_canonical {s : State} {gid cause : Nat} (h : s.Canonical) : (s.discard gid cause).Canonical := by
  unfold State.discard
  split
  · exact h
  · extract_lets
    split
    · exact raiseFault_canonical (dropEarly_canonical h)
    · exact .ite (dropEarly_canonical h) (dropEarly_canonical h)

theorem discardParked_canonical {s : State} {gid cause : Nat} (h : s.Canonical) : (s.discardParked gid cause).Canonical := by
  unfold State.discardParked
  split
  · exact h
  · exact modGroup_canonical (discard_canonical h)

theorem resolveFaults_canonical {s : State} {gid : Nat} (h : s.Canonical) : (s.resolveFaults gid).Canonical := by
  unfold State.resolveFaults
  split
  · exact h
  · split
    · split
      · exact raiseFault_canonical h
      · exact h
    · exact h

/-! ## The issue of an instruction -/

theorem ic_some_canonical {s : State} {gd : Guard} {t : IC} (h : s.Canonical) (ht : s.ic gd = .some t) : t.s.Canonical := by
  unfold State.ic at ht
  split at ht
  · cases ht
  · split at ht
    · cases ht
    · cases ht
      exact h

theorem fault_canonical {x : IC} {kind d0 d1 : Nat} (h : x.s.Canonical) : Out.Canonical (x.fault kind d0 d1) := by
  unfold IC.fault
  exact .next (raiseFault_canonical h)

theorem prepare_stop_canonical {x : IC} {f : Foot} {legal : Bool} {o' : Host.Outcome State Fault Refusal} (h : x.s.Canonical)
    (ht : x.prepare f legal = .stop o') : Out.Canonical o' := by
  unfold IC.prepare at ht
  split at ht
  · cases ht
    exact fault_canonical h
  · split at ht
    · cases ht
      exact .next h
    · split at ht
      · cases ht
      · dsimp only at ht
        split at ht
        · cases ht
          exact fault_canonical h
        · cases ht

theorem preparePair_stop_canonical {x y : IC} {f h : Foot} {o' : Host.Outcome State Fault Refusal} (hs : x.s.Canonical)
    (ht : x.preparePair y f h = .stop o') : Out.Canonical o' := by
  unfold IC.preparePair at ht
  split at ht
  · cases ht
    exact fault_canonical hs
  · split at ht
    · cases ht
      exact .next hs
    · dsimp only at ht
      split at ht
      · cases ht
        exact fault_canonical hs
      · cases ht

theorem releaseYields_canonical {s : State} {core gid split : Nat} (h : s.Canonical) :
    (s.releaseYields core gid split).Canonical := by
  unfold State.releaseYields
  split <;> exact h

theorem retireTo_canonical {x : IC} {g : Group} {die : Mask} {next : Nat → BitVec 57} (h : x.s.Canonical) :
    Out.Canonical (x.retireTo g die next) := by
  unfold IC.retireTo
  exact .next (killLanes_canonical (releaseYields_canonical h))

theorem issueFoot_canonical {foot : IC → Foot} {act : IC → Ops → Foot → Group → Out} {o : Ops} {s : State}
    (hact : ∀ x f g, x.s.Canonical → Out.Canonical (act x o f g)) (h : s.Canonical) : Out.Canonical (issueFoot foot act o s) := by
  unfold issueFoot
  split
  · exact .fault
  next x hx =>
    have hxs := ic_some_canonical h hx
    extract_lets
    split
    next r hr => exact prepare_stop_canonical hxs hr
    · exact hact _ _ _ hxs

theorem issueWith_canonical {op : Op} {len : Len} {act : IC → Ops → Foot → Group → Out} {o : Ops} {s : State}
    (hact : ∀ x f g, x.s.Canonical → Out.Canonical (act x o f g)) (h : s.Canonical) :
    Out.Canonical (issueWith op len act o s) := issueFoot_canonical hact h

theorem issueAlu_canonical {op : Op} {len : Len} {eff : IC → Ops → Eff} {o : Ops} {s : State} (h : s.Canonical) :
    Out.Canonical (issueAlu op len eff o s) :=
  issueWith_canonical (act := fun x o f g => x.retire (g.commit x.act (x.effects eff o f)) (x.effects eff o f).die)
    (fun _ _ _ hx => retireTo_canonical hx) h

/-! ## Boundary instructions -/

theorem passAndOpen_canonical {s : State} {gid : Nat} {pc : BitVec 57} {next : Nat → BitVec 57} (h : s.Canonical) :
    (s.passAndOpen gid pc next).Canonical := by
  unfold State.passAndOpen
  split
  · exact h
  · exact releaseYields_canonical (.ite h h)

theorem reached_canonical {x : IC} (h : x.s.Canonical) : (x.reached).Canonical := by
  unfold IC.reached
  exact releaseYields_canonical h

theorem issueBoundary_canonical {op : Op} {len : Len} {act : IC → Ops → Act} {o : Ops} {s : State}
    (hact : ∀ x, x.s.Canonical → (act x o).Canonical) (h : s.Canonical) : Out.Canonical (issueBoundary op len act o s) := by
  unfold issueBoundary
  split
  · exact .fault
  next x hx =>
    have hxs := ic_some_canonical h hx
    split
    · exact .next (reached_canonical hxs)
    split
    next r hr => exact prepare_stop_canonical hxs hr
    split
    · exact .next hxs
    extract_lets
    have hclosed : (x.s.close x.cu.gid).Canonical := close_canonical hxs
    split
    · exact .next hclosed
    next g1 _ =>
      split
      · exact .next hclosed
      have hacted := hact { x with
        s := x.s.close x.cu.gid, g := g1, act := x.act &&& ~~~x.g.poisonedLanes (x.g.foot op len o).rv x.act } hclosed
      split
      next s2 _ hs2 => rw [hs2] at hacted; exact .next (passAndOpen_canonical (killLanes_canonical hacted))
      next s2 hs2 => rw [hs2] at hacted; exact .next hacted
      next s2 hs2 => rw [hs2] at hacted; exact .next (killLanes_canonical hacted)
      next s2 hs2 => rw [hs2] at hacted; exact .next hacted

/-! ## Instruction fetch -/

theorem fetchPoison_canonical {s : State} {cu : Issuing} (h : s.Canonical) : (s.fetchPoison cu).Canonical := by
  unfold State.fetchPoison
  exact killLanes_canonical (modGroup_canonical h)

theorem execIllegalInstruction_canonical {k : IllKind} {s : State} (h : s.Canonical) :
    Out.Canonical (execIllegalInstruction k s) := by
  unfold execIllegalInstruction
  split
  · exact .fault
  next x hr =>
    split <;> exact fault_canonical (ic_some_canonical h hr)

theorem execInstructionFetchMiss_canonical {gid pc : Nat} {s : State} (h : s.Canonical) :
    Out.Canonical (execInstructionFetchMiss gid pc s) := by
  unfold execInstructionFetchMiss
  split
  · exact .next h
  · exact .next (seekAll_canonical h)

/-! ## Barriers -/

theorem wakeBarrier_canonical {s : State} {gid : Nat} {phase : BitVec 16} (h : s.Canonical) :
    (s.wakeBarrier gid phase).Canonical := by
  unfold State.wakeBarrier
  split
  · exact h
  · split
    · exact passAndOpen_canonical h
    · exact h

theorem putBarrier_canonical {s : State} {team n : Nat} {b : Barrier} (h : s.Canonical) :
    (s.putBarrier team n b).Canonical := by
  unfold State.putBarrier
  split
  · exact h
  · extract_lets
    split
    · exact foldl_canonical (fun _ _ hu => wakeBarrier_canonical hu) h
    · exact h

theorem arriveBarrier_canonical {s : State} {gid n : Nat} (h : s.Canonical) : (s.arriveBarrier gid n).Canonical := by
  unfold State.arriveBarrier
  split
  · exact h
  · split
    · exact h
    · extract_lets
      split
      · exact putBarrier_canonical h
      · exact h

theorem exitBarriers_canonical {s : State} {gid : Nat} (h : s.Canonical) : (s.exitBarriers gid).Canonical := by
  unfold State.exitBarriers
  split
  · exact h
  · split
    · exact h
    · exact foldl_canonical (fun _ _ hu => by
        split
        · exact hu
        · extract_lets
          split
          · exact putBarrier_canonical hu
          · exact hu) h

/-! ## Pair words (R106, R107) -/

theorem execPairWord_canonical {h0 h1 : Half} {s : State} (h : s.Canonical) : Out.Canonical (execPairWord h0 h1 s) := by
  unfold execPairWord
  split
  next x0 x1 hx0 hx1 =>
    have h0s := ic_some_canonical h hx0
    extract_lets
    split
    next r hr => exact preparePair_stop_canonical h0s hr
    · exact retireTo_canonical h0s
  · exact .fault

end Sys2Proof.Machine
end

section
/-!
PROOF. The canonical form under loads, stores, atomic updates and the operations of a group.
-/
namespace Sys2Proof.Machine

/-! ## Reading -/

theorem loadLine_canonical {s : State} {gid core line : Nat} {pas : List Nat} (h : s.Canonical) :
    (s.loadLine gid core line pas).1.Canonical := by
  have hfilled {t : State} (ht : t.Canonical) :
      (((t.intrude (some gid) pas false).fillL2 [128 * line]).copyLines gid [line]).Canonical :=
    copyLines_canonical (fillL2_canonical (intrude_canonical ht))
  unfold State.loadLine
  extract_lets held
  cases held with
  | none => exact .ite (fillL1_canonical (hfilled h)) (hfilled h)
  | some bs =>
    dsimp only
    split
    · exact h
    · exact .ite (fillL1_canonical (hfilled h)) (hfilled h)

theorem loadLines_canonical {s : State} {gid core : Nat} {pas : List Nat} (h : s.Canonical) :
    (s.loadLines gid core pas).1.Canonical :=
  foldl_keeps (fun p : State × List (Nat × List (Byte × Bool)) => p.1.Canonical) _ (fun _ _ hp => loadLine_canonical hp) _ _ h

theorem readPlaces_canonical {s : State} {gid core : Nat} {buf : List BufLine} {sp : Space}
    {reads : List (Option Nat × List Nat)} (h : s.Canonical) : (s.readPlaces gid core buf sp reads).1.Canonical := by
  unfold State.readPlaces
  split
  · exact loadLines_canonical h
  · exact h

/-! ## The L1 and acquires (R218, R221) -/

theorem dropL1_canonical {s : State} {core : Nat} {lines : List Nat} (h : s.Canonical) : (s.dropL1 core lines).Canonical := by
  unfold State.dropL1
  extract_lets
  split <;> exact h

/-! ## Loads in flight (R117, R241, R374) -/

theorem postLoad_canonical {s : State} {gid : Nat} {regs sregs kregs : List Nat} {writes : List RegWrite} (h : s.Canonical) :
    (s.postLoad gid regs sregs kregs writes).Canonical := by
  unfold State.postLoad
  exact modGroup_canonical h

theorem postLive_canonical {s : State} {gid : Nat} {regs : List Nat} {writes : List RegWrite} {died : Mask} (h : s.Canonical) :
    (s.postLive gid regs writes died).Canonical := by
  unfold State.postLive
  split
  · exact h
  · exact postLoad_canonical h

theorem postActive_canonical {s : State} {gid : Nat} {regs : List Nat} {writes : List RegWrite} {act died : Mask}
    (h : s.Canonical) : (s.postActive gid regs writes act died).Canonical := by
  unfold State.postActive
  split
  · exact h
  · exact postLive_canonical h

/-! ## The issue of loads and stores -/

theorem reach_stop_canonical {x : IC} {sp : Space} {n : Nat} {kind : AccKind} {wr : Bool}
    {lanes : List (Nat × ℤ)} {o' : Host.Outcome State Fault Refusal} (h : x.s.Canonical) (ht : x.reach sp n kind wr lanes = .stop o') :
    Out.Canonical o' := by
  unfold IC.reach at ht
  dsimp only at ht
  split at ht
  · cases ht
    exact fault_canonical h
  · split at ht
    · split at ht
      · cases ht
        exact .next (seekAll_canonical h)
      · split at ht
        · cases ht
        · split at ht
          · cases ht
            exact .next h
          · split at ht
            · cases ht
              exact .next h
            · cases ht
    · split at ht
      · cases ht
        exact .next h
      · cases ht

theorem readLanes_canonical {x : IC} {s : State} {sp : Space} {ok : List (Nat × List Nat)} (h2 : s.Canonical) :
    (x.readLanes s sp ok).1.Canonical := by
  unfold IC.readLanes
  exact readPlaces_canonical h2

theorem issueLaneLoad_canonical {op : Op} {len : Len} {sp : Ops → Space} {o : Ops} {s : State} (h : s.Canonical) :
    Out.Canonical (issueLaneLoad op len sp o s) := by
  unfold issueLaneLoad
  refine issueWith_canonical (fun _ _ _ hx => ?_) h
  split
  · exact .next hx
  · extract_lets
    split
    next r hr => exact reach_stop_canonical hx hr
    · split
      · exact retireTo_canonical (countClass3_canonical (postLive_canonical (readLanes_canonical hx)))
      · exact .next (translationFault_canonical (killLanes_canonical (countClass3_canonical (postLive_canonical
          (readLanes_canonical hx)))))

theorem intoBuffer_canonical {x : IC} {g : Group} {sp : Space} {path : Nat} {class3 : Bool} {bs : List StByte}
    {starts : StByte → Nat} {die : Mask} (h : x.s.Canonical) :
    Out.Canonical (x.intoBuffer g sp path class3 bs starts die) := by
  unfold IC.intoBuffer
  split
  · exact fault_canonical h
  · split
    · exact fault_canonical h
    · exact retireTo_canonical (.ite (countClass3_canonical h) h)

theorem issueLaneStore_canonical {op : Op} {len : Len} {sp : Ops → Space} {kind : AccKind} {addr : IC → Ops → Nat → ℤ} {o : Ops}
    {s : State} (h : s.Canonical) :
    Out.Canonical (issueLaneStore op len sp kind addr o s) := by
  unfold issueLaneStore
  refine issueWith_canonical (fun _ _ _ hx => ?_) h
  extract_lets
  split
  next r hr => exact reach_stop_canonical hx hr
  · split
    · exact intoBuffer_canonical hx
    · exact .next (translationFault_canonical hx)

/-! ## Loads and stores by lane (R242, R243) -/

theorem execLd_canonical {o : Ops} {s : State} (h : s.Canonical) : Out.Canonical (execLd o s) := by
  unfold execLd
  exact issueLaneLoad_canonical h

theorem execLdImm_canonical {o : Ops} {s : State} (h : s.Canonical) : Out.Canonical (execLdImm o s) := by
  unfold execLdImm
  exact issueLaneLoad_canonical h

theorem execLdl_canonical {o : Ops} {s : State} (h : s.Canonical) : Out.Canonical (execLdl o s) := by
  unfold execLdl
  exact issueLaneLoad_canonical h

theorem execLdlImm_canonical {o : Ops} {s : State} (h : s.Canonical) : Out.Canonical (execLdlImm o s) := by
  unfold execLdlImm
  exact issueLaneLoad_canonical h

theorem execLdb_canonical {o : Ops} {s : State} (h : s.Canonical) : Out.Canonical (execLdb o s) := by
  unfold execLdb
  exact issueLaneLoad_canonical h

theorem execLdbImm_canonical {o : Ops} {s : State} (h : s.Canonical) : Out.Canonical (execLdbImm o s) := by
  unfold execLdbImm
  exact issueLaneLoad_canonical h

theorem execSt_canonical {o : Ops} {s : State} (h : s.Canonical) : Out.Canonical (execSt o s) := by
  unfold execSt
  exact issueLaneStore_canonical h

theorem execStImm_canonical {o : Ops} {s : State} (h : s.Canonical) : Out.Canonical (execStImm o s) := by
  unfold execStImm
  exact issueLaneStore_canonical h

theorem execStl_canonical {o : Ops} {s : State} (h : s.Canonical) : Out.Canonical (execStl o s) := by
  unfold execStl
  exact issueLaneStore_canonical h

theorem execStlImm_canonical {o : Ops} {s : State} (h : s.Canonical) : Out.Canonical (execStlImm o s) := by
  unfold execStlImm
  exact issueLaneStore_canonical h

theorem execStb_canonical {o : Ops} {s : State} (h : s.Canonical) : Out.Canonical (execStb o s) := by
  unfold execStb
  exact issueLaneStore_canonical h

theorem execStbImm_canonical {o : Ops} {s : State} (h : s.Canonical) : Out.Canonical (execStbImm o s) := by
  unfold execStbImm
  exact issueLaneStore_canonical h

theorem execStx_canonical {o : Ops} {s : State} (h : s.Canonical) : Out.Canonical (execStx o s) := by
  unfold execStx
  exact issueLaneStore_canonical h

/-! ## LDX and its replay (R245, R51, R52, R433) -/

theorem execLdx_canonical {o : Ops} {s : State} (h : s.Canonical) : Out.Canonical (execLdx o s) := by
  unfold execLdx
  refine issueWith_canonical (fun _ _ _ hx => ?_) h
  split
  · exact .next hx
  · extract_lets
    split
    next r hr => exact reach_stop_canonical hx hr
    · split
      · exact retireTo_canonical (countClass3_canonical (postLive_canonical (readLanes_canonical hx)))
      · exact .next (translationFault_canonical (killLanes_canonical (countClass3_canonical (postLive_canonical
          (readLanes_canonical hx)))))

/-! ## Uniform loads and stores (R244) -/

theorem issueUniLoad_canonical {len : Len} {o : Ops} {s : State} (h : s.Canonical) : Out.Canonical (issueUniLoad len o s) := by
  unfold issueUniLoad
  refine issueWith_canonical (fun _ _ _ hx => ?_) h
  split
  · exact .next hx
  · extract_lets
    split
    next r hr => exact reach_stop_canonical hx hr
    · split
      · exact .next (translationFault_canonical hx)
      · extract_lets
        split
        · exact retireTo_canonical (countClass3_canonical (readPlaces_canonical hx))
        · exact retireTo_canonical (postLoad_canonical (countClass3_canonical (readPlaces_canonical hx)))

theorem issueUniStore_canonical {len : Len} {o : Ops} {s : State} (h : s.Canonical) :
    Out.Canonical (issueUniStore len o s) := by
  unfold issueUniStore
  refine issueWith_canonical (fun _ _ _ hx => ?_) h
  extract_lets
  split
  next r hr => exact reach_stop_canonical hx hr
  · split
    · exact .next (translationFault_canonical hx)
    · exact intoBuffer_canonical hx

theorem execStu_canonical {o : Ops} {s : State} (h : s.Canonical) : Out.Canonical (execStu o s) := by
  unfold execStu
  exact issueUniStore_canonical h

theorem execStuImm_canonical {o : Ops} {s : State} (h : s.Canonical) : Out.Canonical (execStuImm o s) := by
  unfold execStuImm
  exact issueUniStore_canonical h

/-! ## Atomic updates (R247) -/

theorem writeHome_canonical {s : State} {gid core : Nat} {sp : Space} {at_ : Nat} {bs : List Byte} (h : s.Canonical) :
    (s.writeHome gid core sp at_ bs).Canonical := by
  unfold State.writeHome
  split
  · exact memWrite_canonical h
  · exact h

theorem atHome_canonical {s : State} {core : Nat} {lines : List Nat} (h : s.Canonical) : (s.atHome core lines).Canonical := by
  unfold State.atHome
  exact dropL1_canonical (drainLines_canonical h)

theorem claim_canonical {s : State} {gid core : Nat} {sp : Space} {places : List Nat} (h : s.Canonical) :
    (s.claim gid core sp places).Canonical := by
  unfold State.claim
  extract_lets
  split
  · exact intrude_canonical (atHome_canonical h)
  · exact drainLines_canonical h

theorem actReach_stop_canonical {x : IC} {sp : Space} {n : Nat} {lanes : List (Nat × ℤ)} {t : Act} (h : x.s.Canonical)
    (ht : x.actReach sp n lanes = .stop t) : t.Canonical := by
  unfold IC.actReach at ht
  dsimp only at ht
  split at ht
  · cases ht
    exact raiseFault_canonical h
  · split at ht
    · split at ht
      · cases ht
        exact seekAll_canonical h
      · split at ht
        · split at ht
          · cases ht
            exact h
          · cases ht
        · cases ht
          exact translationFault_canonical h
    · split at ht
      · cases ht
        exact h
      · cases ht

theorem atomLanes_canonical {x : IC} {o : Ops} {sp : Space} {n : Nat} {ok : List (Nat × Nat)} {s : State} (h : s.Canonical) :
    (atomLanes x o sp n ok s).1.Canonical :=
  foldl_keeps (fun p : State × List (Nat × W64) × List Nat => p.1.Canonical) _
    (fun p q hp => by
      extract_lets
      split
      · exact hp
      · exact writeHome_canonical hp) _ _ h

theorem execAtom_canonical {o : Ops} {s : State} (h : s.Canonical) : Out.Canonical (execAtom o s) := by
  unfold execAtom
  refine issueBoundary_canonical (fun _ hx => ?_) h
  split
  · exact hx
  · extract_lets
    split
    next a hr => exact actReach_stop_canonical hx hr
    · exact killLanes_canonical (countClass3_canonical (postActive_canonical (atomLanes_canonical (claim_canonical hx))))

/-! ## Reservations (R248 to R250) -/

theorem reserve_canonical {s : State} {gid : Nat} {inc : BitVec 8} {lane pa n : Nat} (h : s.Canonical) :
    (s.reserve gid inc lane pa n).Canonical := by
  unfold State.reserve
  split <;> exact h

theorem execLr_canonical {o : Ops} {s : State} (h : s.Canonical) : Out.Canonical (execLr o s) := by
  unfold execLr
  refine issueWith_canonical (fun _ _ _ hx => ?_) h
  split
  · exact .next hx
  · extract_lets
    split
    · exact fault_canonical hx
    · split
      next r hr => exact reach_stop_canonical hx hr
      · extract_lets
        split
        · exact .next hx
        · split
          · exact retireTo_canonical (postLive_canonical (foldl_canonical (fun _ _ hu => .ite hu (reserve_canonical hu))
              (intrude_canonical (atHome_canonical hx))))
          · exact .next (translationFault_canonical (killLanes_canonical (postLive_canonical (foldl_canonical
              (fun _ _ hu => .ite hu (reserve_canonical hu)) (intrude_canonical (atHome_canonical hx))))))

theorem execSc_canonical {o : Ops} {s : State} (h : s.Canonical) : Out.Canonical (execSc o s) := by
  refine issueBoundary_canonical (fun x hx => ?_) h
  split
  · exact hx
  · extract_lets n lanes
    split
    next a hr => exact actReach_stop_canonical hx hr
    next ok _ =>
      extract_lets s1 r
      have hr : r.1.Canonical := by
        refine foldl_keeps (fun p : State × List Nat × List (Nat × W64) => p.1.Canonical) _ (fun p q hp => ?_) _ _
          (claim_canonical hx)
        split
        · exact writeHome_canonical hp
        · exact hp
      exact postActive_canonical (s := r.1.dropReservations x.cu.gid) hr

/-! ## Ordering instructions (R251, R252) -/

theorem issueOrder_canonical {op : Op} {rel acq : Bool} {o : Ops} {s : State} (h : s.Canonical) :
    Out.Canonical (issueOrder op rel acq o s) := by
  unfold issueOrder
  refine issueWith_canonical (fun x _ g hx => ?_) h
  extract_lets named u v
  have hu : u.Canonical := drainLines_canonical (countClass3_canonical (setGroup_canonical hx))
  clear_value u
  have hv : v.Canonical := .ite hu hu
  clear_value v
  exact .ite (.next hx) (retireTo_canonical hv)

theorem execAcqr_canonical {o : Ops} {s : State} (h : s.Canonical) : Out.Canonical (execAcqr o s) := by
  unfold execAcqr
  refine issueWith_canonical (fun _ _ _ hx => ?_) h
  extract_lets
  split
  · exact fault_canonical hx
  · split
    · exact .next hx
    · exact retireTo_canonical (.ite (drainLines_canonical (countClass3_canonical hx)) (countClass3_canonical hx))

/-! ## The local store split and prefetch (R253, R254) -/

theorem execCarve_canonical {o : Ops} {s : State} (h : s.Canonical) : Out.Canonical (execCarve o s) := by
  unfold execCarve
  exact issueWith_canonical (fun _ _ _ hx => retireTo_canonical (countClass3_canonical hx)) h

theorem prefetch_canonical {s : State} {rq : Req} {core : Nat} {l1 : Bool} {va : Nat} (h : s.Canonical) :
    (s.prefetch rq core l1 va).Canonical := by
  unfold State.prefetch
  split
  · exact requestWalk_canonical h
  · extract_lets
    split
    · exact foldl_canonical (fun _ _ hu => useLine_canonical hu) (fillL2_canonical h)
    · exact fillL1_canonical (foldl_canonical (fun _ _ hu => useLine_canonical hu) (fillL2_canonical h))
  · exact h

theorem issuePref_canonical {len : Len} {o : Ops} {s : State} (h : s.Canonical) : Out.Canonical (issuePref len o s) := by
  unfold issuePref
  refine issueWith_canonical (fun _ _ _ hx => ?_) h
  extract_lets
  split
  · exact .next hx
  · exact retireTo_canonical (foldl_canonical (fun _ _ hu => prefetch_canonical hu) (countClass3_canonical hx))

/-! ## GRED with `.team` (R170, R71) -/

theorem execGredTeam_canonical {o : Ops} {s : State} (h : s.Canonical) : Out.Canonical (execGredTeam o s) := by
  unfold execGredTeam
  refine issueWith_canonical (fun _ _ _ hx => ?_) h
  split
  · exact .next hx
  · extract_lets
    split
    next r hr => exact reach_stop_canonical hx hr
    · extract_lets
      split
      · exact retireTo_canonical (readPlaces_canonical hx)
      · exact retireTo_canonical (postLoad_canonical (readPlaces_canonical hx))

/-! ## LOAD_DATA_LANDS and STORE_ACKNOWLEDGED -/

theorem execLoadDataLands_canonical {gid op : Nat} {s : State} (h : s.Canonical) :
    Out.Canonical (execLoadDataLands gid op s) := by
  unfold execLoadDataLands
  split
  · exact .next h
  · split
    · exact .next h
    · split <;> exact .next h

theorem execStoreAcknowledged_canonical {core pos : Nat} {s : State} (h : s.Canonical) :
    Out.Canonical (execStoreAcknowledged core pos s) := by
  unfold execStoreAcknowledged
  extract_lets
  split
  · split
    · exact .next h
    · split
      · exact .next (handLate_canonical h)
      · exact .next h
  · split
    · exact .next h
    · exact .next (ackLine_canonical h)

/-! ## Teams -/

theorem queueTeam_canonical {s : State} {grid : Nat} {sh : Shape} {arg : W64} {dies : BitVec 4} {gang : Option Gang}
    (h : s.Canonical) : (s.queueTeam grid sh arg dies gang).Canonical := by
  unfold State.queueTeam
  split <;> exact h

/-! ## Reads and writes that a group makes once (R446) -/

theorem actOne_stop_canonical {x : IC} {kind : AccKind} {wr : Bool} {va n : Nat} {t : Act} (h : x.s.Canonical)
    (ht : x.actOne kind wr va n = .stop t) : t.Canonical := by
  unfold IC.actOne at ht
  dsimp only at ht
  split at ht
  · cases ht
    exact seekAll_canonical h
  · cases ht
    exact translationFault_canonical h
  · split at ht
    · cases ht
      exact h
    · cases ht

theorem groupRead_canonical {s : State} {gid core pa n : Nat} (h : s.Canonical) : (s.groupRead gid core pa n).1.Canonical := by
  unfold State.groupRead
  exact intrude_canonical (atHome_canonical h)

/-! ## Closing a core (R31) -/

theorem closeFor_canonical {s : State} {key : Nat} (h : s.Canonical) : (s.closeFor key).Canonical := by
  unfold State.closeFor
  split
  · exact h
  · split
    · exact h
    · extract_lets
      split <;> exact h

theorem closeWaiting_canonical {s : State} (h : s.Canonical) : (s.closeWaiting).Canonical := by
  unfold State.closeWaiting
  exact foldl_canonical (fun _ _ hu => closeFor_canonical hu) h

/-! ## Branches, calls and returns (R176, R177) -/

theorem issueJump_canonical {op : Op} {len : Len} {eff : IC → Ops → Eff} {target : IC → Ops → Nat → BitVec 57} {o : Ops}
    {s : State} (h : s.Canonical) :
    Out.Canonical (issueJump op len eff target o s) := by
  unfold issueJump
  exact issueWith_canonical (fun _ _ _ hx => retireTo_canonical hx) h

/-! ## JOIN and ELECT (R178, R179) -/

theorem execJoin_canonical {o : Ops} {s : State} (h : s.Canonical) : Out.Canonical (execJoin o s) := by
  unfold execJoin
  exact issueWith_canonical (fun _ _ _ hx => .next (foldl_canonical (fun _ _ hu => releaseYields_canonical hu)
    (releaseYields_canonical hx))) h

/-! ## REGION and EXIT (R182, R183) -/

theorem execRegion_canonical {o : Ops} {s : State} (h : s.Canonical) : Out.Canonical (execRegion o s) := by
  unfold execRegion
  exact issueBoundary_canonical (fun _ hx => hx) h

theorem execExit_canonical {o : Ops} {s : State} (h : s.Canonical) : Out.Canonical (execExit o s) := by
  unfold execExit
  exact issueBoundary_canonical (fun _ hx => State.Canonical.ite (exitBarriers_canonical hx) hx) h

/-! ## Traps in the group (R184, R186, R187) -/

theorem trapIn_canonical {x : IC} {code : Nat} (h : x.s.Canonical) : (x.trapIn code).Canonical := by
  unfold IC.trapIn
  split
  · exact raiseFault_canonical h
  · exact h

theorem execTret_canonical {o : Ops} {s : State} (h : s.Canonical) : Out.Canonical (execTret o s) := by
  unfold execTret
  refine issueWith_canonical (fun _ _ _ hx => ?_) h
  split
  · exact fault_canonical hx
  · extract_lets
    split
    · exact fault_canonical hx
    · exact retireTo_canonical hx

/-! ## YIELD, NOP and BKPT (R188, R109, R190) -/

theorem execYield_canonical {o : Ops} {s : State} (h : s.Canonical) : Out.Canonical (execYield o s) := by
  unfold execYield
  exact issueWith_canonical (fun _ _ _ hx => .next (releaseYields_canonical hx)) h

theorem execBkpt_canonical {o : Ops} {s : State} (h : s.Canonical) : Out.Canonical (execBkpt o s) := by
  unfold execBkpt
  refine issueWith_canonical (fun _ _ _ hx => ?_) h
  split
  · exact .next hx
  · exact retireTo_canonical hx

theorem execBkptResume_canonical {gid : Nat} {s : State} (h : s.Canonical) : Out.Canonical (execBkptResume gid s) := by
  unfold execBkptResume
  split
  · exact .next h
  · split <;> exact .next h

/-! ## Special registers (R125, R126, R191 to R193) -/

theorem execSetrm_canonical {o : Ops} {s : State} (h : s.Canonical) : Out.Canonical (execSetrm o s) := by
  unfold execSetrm
  refine issueWith_canonical (fun _ _ _ hx => ?_) h
  split
  · exact fault_canonical hx
  · exact retireTo_canonical hx

theorem execSetsr_canonical {o : Ops} {s : State} (h : s.Canonical) : Out.Canonical (execSetsr o s) := by
  unfold execSetsr
  refine issueWith_canonical (fun _ _ _ hx => ?_) h
  extract_lets
  split
  · split
    · exact fault_canonical hx
    · exact retireTo_canonical hx
  · split
    · exact fault_canonical hx
    · exact retireTo_canonical hx

theorem execGetsr_canonical {o : Ops} {s : State} (h : s.Canonical) : Out.Canonical (execGetsr o s) := by
  unfold execGetsr
  exact issueWith_canonical (fun _ _ _ hx => retireTo_canonical hx) h

/-! ## TRAP and the system-call ring (R184, R185, R293) -/

theorem sysCall_canonical {x : IC} {code : Nat} (h : x.s.Canonical) : (x.sysCall code).Canonical := by
  unfold IC.sysCall
  split
  · exact h
  · split
    next a hr => exact actOne_stop_canonical h hr
    next slot _ _ pa _ =>
      extract_lets u c seq v w
      have hu : u.Canonical := dropL1_canonical (drainLines_canonical h)
      have hv : v.Canonical := memWrite_canonical hu
      have hw : w.Canonical := pushEvent_canonical (setCtx_canonical hv)
      clear_value w
      split
      · exact h
      · exact modGroup_canonical hw

theorem execTrap_canonical {o : Ops} {s : State} (h : s.Canonical) : Out.Canonical (execTrap o s) := by
  unfold execTrap
  refine issueBoundary_canonical (fun _ hx => ?_) h
  extract_lets
  split
  · exact hx
  · split
    · exact trapIn_canonical hx
    · exact sysCall_canonical hx

theorem replyWaits_canonical {s : State} {ctx slot : Nat} (h : s.Canonical) : (s.replyWaits ctx slot).Canonical := by
  unfold State.replyWaits
  extract_lets
  split <;> exact h

theorem deliverReply_canonical {s : State} {ctx slot gid : Nat} {reply : List (Byte × Bool)} (h : s.Canonical) :
    (s.deliverReply ctx slot gid reply).Canonical := by
  unfold State.deliverReply
  extract_lets w c s1 s2 s3
  have h2 : s2.Canonical := modGroup_canonical h
  have h3 : s3.Canonical := .ite (killLanes_canonical h2) (modGroup_canonical h2)
  exact .ite (startDiscard_canonical (modGroup_canonical h3)) h3

theorem execSyscallReply_canonical {ctx slot : Nat} {s : State} (h : s.Canonical) :
    Out.Canonical (execSyscallReply ctx slot s) := by
  unfold execSyscallReply
  split
  · exact .next h
  · split
    · exact .next h
    · split
      · exact .next h
      · extract_lets
        split
        next s hr => exact .next (replyWaits_canonical (unitAsk_wait_canonical h hr))
        · exact .next (replyWaits_canonical h)
        · exact .next (replyWaits_canonical h)
        · split
          next s hr => exact .next (replyWaits_canonical (.of_fst (readThrough_canonical h) hr))
          next s reply hr => exact .next (unitDone_canonical (deliverReply_canonical (.of_fst (readThrough_canonical h) hr)))

/-! ## SPAWN (R194 to R196) -/

theorem spawn_canonical {x : IC} {s : State} {d v mask : Nat} {arg : W64} (h2 : s.Canonical) :
    (x.spawn s d v mask arg).Canonical := by
  unfold IC.spawn
  split
  · exact h2
  · extract_lets
    split
    · exact modGroup_canonical h2
    · exact modGroup_canonical (queueTeam_canonical (drainLines_canonical h2))

theorem execSpawn_canonical {o : Ops} {s : State} (h : s.Canonical) : Out.Canonical (execSpawn o s) := by
  unfold execSpawn
  refine issueBoundary_canonical (fun _ hx => ?_) h
  extract_lets
  split
  · exact raiseFault_canonical hx
  · split
    next r hr => exact actOne_stop_canonical hx hr
    · extract_lets
      split
      · exact killLanes_canonical (groupRead_canonical hx)
      · split
        · exact groupRead_canonical hx
        · exact spawn_canonical (groupRead_canonical hx)

/-! ## SLEEPM (R189) -/

theorem wakeSplit_canonical {s : State} {gid split dst : Nat} {v : W64} (h : s.Canonical) :
    (s.wakeSplit gid split dst v).Canonical := by
  unfold State.wakeSplit
  exact modGroup_canonical h

theorem execSleepm_canonical {o : Ops} {s : State} (h : s.Canonical) : Out.Canonical (execSleepm o s) := by
  unfold execSleepm
  refine issueWith_canonical (fun _ _ _ hx => ?_) h
  extract_lets b64 n a
  refine .ite (fault_canonical hx) ?_
  split
  · exact .next (seekAll_canonical hx)
  · exact .next (translationFault_canonical hx)
  · extract_lets rd want g t
    have hrd : rd.1.Canonical := groupRead_canonical (setGroup_canonical hx)
    clear_value rd
    exact .ite (.next hx) (.ite (retireTo_canonical hrd) (.ite (retireTo_canonical hrd)
      (.next (releaseYields_canonical (setGroup_canonical hrd)))))

theorem execSleepmReread_canonical {gid split : Nat} {s : State} (h : s.Canonical) :
    Out.Canonical (execSleepmReread gid split s) := by
  unfold execSleepmReread
  split
  · exact .next h
  · split
    · extract_lets
      split
      · exact .next (seekAll_canonical h)
      · exact .next (translationFault_canonical h)
      · split
        · exact .next h
        · extract_lets
          split
          · exact .next (killLanes_canonical (groupRead_canonical h))
          · split
            · exact .next (groupRead_canonical h)
            · exact .next (wakeSplit_canonical (groupRead_canonical h))
    · exact .next h

theorem execSleepmTimeout_canonical {gid split : Nat} {s : State} (h : s.Canonical) :
    Out.Canonical (execSleepmTimeout gid split s) := by
  unfold execSleepmTimeout
  split
  · exact .next h
  · split
    · split
      · split
        · exact .next (wakeSplit_canonical h)
        · exact .next h
      · exact .next h
    · exact .next h

/-! ## WAITC (R383) -/

theorem execWaitc_canonical {o : Ops} {s : State} (h : s.Canonical) : Out.Canonical (execWaitc o s) := by
  unfold execWaitc
  refine issueWith_canonical (fun _ _ _ hx => ?_) h
  split
  · exact retireTo_canonical hx
  · exact .next hx

/-! ## Copy batches (R377, R378) -/

theorem formBatch_canonical {s : State} {gid : Nat} (h : s.Canonical) : (s.formBatch gid).Canonical := by
  unfold State.formBatch
  exact modGroup_canonical h

theorem execCloseb_canonical {o : Ops} {s : State} (h : s.Canonical) : Out.Canonical (execCloseb o s) := by
  unfold execCloseb
  refine issueWith_canonical (fun _ _ _ hx => ?_) h
  split
  · exact .next hx
  · exact retireTo_canonical hx

theorem execWaitb_canonical {o : Ops} {s : State} (h : s.Canonical) : Out.Canonical (execWaitb o s) := by
  unfold execWaitb
  refine issueWith_canonical (fun _ _ _ hx => ?_) h
  extract_lets
  split
  · exact retireTo_canonical hx
  · exact .next (releaseYields_canonical hx)

theorem wakeBatches_canonical {s : State} {gid : Nat} (h : s.Canonical) : (s.wakeBatches gid).Canonical := by
  unfold State.wakeBatches
  split
  · exact h
  · exact foldl_canonical (fun _ _ hu => by
      split
      · split
        · exact hu
        · exact wakeSplit_canonical hu
      · exact hu) h

theorem execWaitbTimeout_canonical {gid split : Nat} {s : State} (h : s.Canonical) :
    Out.Canonical (execWaitbTimeout gid split s) := by
  unfold execWaitbTimeout
  split
  · exact .next h
  · split
    · split
      · split
        · exact .next (wakeSplit_canonical h)
        · exact .next h
      · exact .next h
    · exact .next h

/-! ## Named barriers (R379, R380, R386, R387) -/

theorem bar_canonical {x : IC} {o : Ops} {t : Team} (h : x.s.Canonical) : (x.bar o t).Canonical := by
  unfold IC.bar
  extract_lets n rd
  clear_value rd
  split
  · cases rd with
    | none => exact arriveBarrier_canonical h
    | some d => exact modGroup_canonical (arriveBarrier_canonical h)
  · exact arriveBarrier_canonical (modGroup_canonical h)

theorem execBar_canonical {o : Ops} {s : State} (h : s.Canonical) : Out.Canonical (execBar o s) := by
  unfold execBar
  refine issueBoundary_canonical (fun _ hx => ?_) h
  split
  · exact hx
  · split
    · exact raiseFault_canonical hx
    · split
      · exact hx
      · exact bar_canonical hx

theorem issueBarset_canonical {len : Len} {value : IC → Ops → Nat} {o : Ops} {s : State} (h : s.Canonical) :
    Out.Canonical (issueBarset len value o s) := by
  unfold issueBarset
  refine issueWith_canonical (fun _ _ _ hx => ?_) h
  extract_lets
  split
  · exact retireTo_canonical hx
  · split
    · exact fault_canonical hx
    · split
      · exact fault_canonical hx
      · exact retireTo_canonical (putBarrier_canonical hx)

/-! ## CNTRD (R388) -/

theorem execCntrd_canonical {o : Ops} {s : State} (h : s.Canonical) : Out.Canonical (execCntrd o s) := by
  unfold execCntrd
  refine issueWith_canonical (fun _ _ _ hx => ?_) h
  extract_lets
  split
  · split
    · exact fault_canonical hx
    · split
      · exact fault_canonical hx
      · exact retireTo_canonical hx
  · split
    · split
      · exact fault_canonical hx
      · exact retireTo_canonical hx
    · exact retireTo_canonical hx

end Sys2Proof.Machine
end

section
/-!
PROOF. The canonical form under matrix, latent and copy operations.
-/
namespace Sys2Proof.Machine

/-! ## Passes (R70, R267 to R270) -/

theorem endPass_canonical {s : State} {o : TileOp} {kk : Nat} (h : s.Canonical) : (s.endPass o kk).Canonical := by
  unfold State.endPass
  exact settleClears_canonical (finishTile_canonical (drainLines_canonical h))

/-! ## DRAIN (R272, R273, R326) -/

theorem deliverDrain_canonical {s : State} {o : TileOp} {live : Mask}
    {tiles : List ((Nat × Nat) × List (Nat × Fl × Bool × Bool))} (h : s.Canonical) : (s.deliverDrain o live tiles).Canonical := by
  unfold State.deliverDrain
  dsimp only
  split
  · exact raiseFault_canonical h
  · split
    · exact killLanes_canonical (modGroup_canonical h)
    · exact handLate_canonical (modGroup_canonical h)

theorem endDrain_canonical {s : State} {o : TileOp} (h : s.Canonical) : (s.endDrain o).Canonical := by
  unfold State.endDrain
  split
  · exact h
  · split
    · exact h
    · exact settleClears_canonical (deliverDrain_canonical (finishTile_canonical h))

/-! ## Posting (R260, R261) -/

theorem countOp_canonical {s : State} {gid : Nat} (h : s.Canonical) : (s.countOp gid).Canonical := by
  unfold State.countOp
  exact modGroup_canonical h

theorem postOp_canonical {s : State} {engine : Nat} {o : TileOp} (h : s.Canonical) : (s.postOp engine o).Canonical := by
  unfold State.postOp
  extract_lets
  split
  · exact countOp_canonical h
  · exact giveWork_canonical (countOp_canonical h)

theorem postClear_canonical {s : State} {engine : Nat} {o : TileOp} (h : s.Canonical) : (s.postClear engine o).Canonical := by
  unfold State.postClear
  exact settleClears_canonical (countOp_canonical h)

/-! ## MMA, MMAX and MMS (R267 to R269) -/

theorem postPass_canonical {x : IC} {op : Op} {o : TileOp} {illegal : Bool} {fl : Fl} {g : Group} {die : Mask} (h : x.s.Canonical) :
    Out.Canonical (x.postPass op o illegal fl g die) := by
  unfold IC.postPass
  split
  · exact fault_canonical h
  · split
    · exact fault_canonical h
    · split
      · exact fault_canonical h
      · extract_lets
        split
        · exact fault_canonical h
        · exact retireTo_canonical (postOp_canonical h)

theorem execMma_canonical {o : Ops} {s : State} (h : s.Canonical) : Out.Canonical (execMma o s) := by
  unfold execMma
  refine issueWith_canonical (fun _ _ _ hx => ?_) h
  split
  · exact .next hx
  · exact postPass_canonical hx

theorem execMmax_canonical {o : Ops} {s : State} (h : s.Canonical) : Out.Canonical (execMmax o s) := by
  unfold execMmax
  refine issueWith_canonical (fun _ _ _ hx => ?_) h
  split
  · exact .next hx
  · exact postPass_canonical hx

theorem execMms_canonical {o : Ops} {s : State} (h : s.Canonical) : Out.Canonical (execMms o s) := by
  unfold execMms
  refine issueWith_canonical (fun _ _ _ hx => ?_) h
  split
  · exact .next hx
  · exact postPass_canonical hx

/-! ## CZERO (R271) -/

theorem execCzero_canonical {o : Ops} {s : State} (h : s.Canonical) : Out.Canonical (execCzero o s) := by
  unfold execCzero
  refine issueWith_canonical (fun _ _ _ hx => ?_) h
  extract_lets
  split
  · exact fault_canonical hx
  · split
    · exact fault_canonical hx
    · split
      · exact .next hx
      · exact retireTo_canonical (postClear_canonical hx)

/-! ## DRAIN (R272, R273) -/

theorem postDrain_canonical {x : IC} {s : State} {g : Group} {op : TileOp} {fl : Fl} (h2 : s.Canonical) :
    Out.Canonical (x.postDrain s g op fl) := by
  unfold IC.postDrain
  refine retireTo_canonical ?_
  split
  · exact modGroup_canonical (postOp_canonical h2)
  · exact postOp_canonical h2

theorem issueDrain_canonical {len : Len} {o : Ops} {s : State} (h : s.Canonical) : Out.Canonical (issueDrain len o s) := by
  unfold issueDrain
  split
  · exact .fault
  next x0 hr =>
    split
    · exact .next (ic_some_canonical h hr)
    · refine issueFoot_canonical (fun _ _ _ hx => ?_) h
      split
      · exact .next hx
      · dsimp only
        split
        · exact fault_canonical hx
        · split
          · exact postDrain_canonical hx
          · split
            next r hr => exact reach_stop_canonical hx hr
            · split
              · exact .next (translationFault_canonical hx)
              · split
                · exact fault_canonical hx
                · split
                  · exact fault_canonical hx
                  · exact postDrain_canonical hx

/-! ## Tile predicate registers (R274 to R278) -/

theorem issueKld_canonical {len : Len} {o : Ops} {s : State} (h : s.Canonical) : Out.Canonical (issueKld len o s) := by
  unfold issueKld
  refine issueWith_canonical (fun _ _ _ hx => ?_) h
  split
  · exact .next hx
  · dsimp only
    split
    · exact fault_canonical hx
    · split
      next r hr => exact reach_stop_canonical hx hr
      · split
        · exact .next (translationFault_canonical hx)
        · split
          · exact retireTo_canonical (readPlaces_canonical hx)
          · exact retireTo_canonical (postLoad_canonical (readPlaces_canonical hx))

theorem execKld_canonical {o : Ops} {s : State} (h : s.Canonical) : Out.Canonical (execKld o s) := by
  unfold execKld
  split
  · exact issueAlu_canonical h
  · exact issueKld_canonical h

theorem execKldImm_canonical {o : Ops} {s : State} (h : s.Canonical) : Out.Canonical (execKldImm o s) := by
  unfold execKldImm
  split
  · exact issueAlu_canonical h
  · exact issueKld_canonical h

theorem issueKst_canonical {len : Len} {o : Ops} {s : State} (h : s.Canonical) : Out.Canonical (issueKst len o s) := by
  unfold issueKst
  refine issueWith_canonical (fun _ _ _ hx => ?_) h
  extract_lets
  split
  · exact fault_canonical hx
  · split
    next r hr => exact reach_stop_canonical hx hr
    · split
      · exact .next (translationFault_canonical hx)
      · exact intoBuffer_canonical hx

/-! ## BXPOSE (R279) -/

theorem execBxpose_canonical {o : Ops} {s : State} (h : s.Canonical) : Out.Canonical (execBxpose o s) := by
  unfold execBxpose
  refine issueWith_canonical (fun _ _ _ hx => ?_) h
  extract_lets
  split
  · exact fault_canonical hx
  · split
    · exact fault_canonical hx
    · split
      · exact .next hx
      · exact intoBuffer_canonical hx

/-! ## Arbitration and completion (R261, R262) -/

theorem execMatrixGrant_canonical {engine : Nat} {s : State} (h : s.Canonical) : Out.Canonical (execMatrixGrant engine s) := by
  unfold execMatrixGrant
  extract_lets
  split
  · exact .next h
  · split
    · exact .next h
    · exact .next h
    · split <;> exact .next h
    · exact .next h

theorem execKstepBoundary_canonical {engine : Nat} {s : State} (h : s.Canonical) :
    Out.Canonical (execKstepBoundary engine s) := by
  unfold execKstepBoundary
  dsimp only
  split
  · exact .next h
  · split
    · exact .next h
    · split <;> exact .next h

theorem execRequestAgeing_canonical {engine : Nat} {s : State} (h : s.Canonical) :
    Out.Canonical (execRequestAgeing engine s) := by
  unfold execRequestAgeing
  extract_lets
  split <;> exact .next h

theorem execPassComplete_canonical {engine op : Nat} {s : State} (h : s.Canonical) :
    Out.Canonical (execPassComplete engine op s) := by
  unfold execPassComplete
  extract_lets
  split
  · exact .next h
  · split
    · exact .next h
    · exact .next (endPass_canonical h)

theorem execDrainComplete_canonical {engine op : Nat} {s : State} (h : s.Canonical) :
    Out.Canonical (execDrainComplete engine op s) := by
  unfold execDrainComplete
  extract_lets
  split
  · exact .next h
  · split
    · exact .next h
    · exact .next (endDrain_canonical h)

/-! ## The entries of the table (R359) -/

theorem putEntry_canonical {s : State} {w : WByte} (h : s.Canonical) : (s.putEntry w).Canonical := by
  unfold State.putEntry
  split
  · exact h
  · extract_lets
    split <;> exact h

theorem outsideWrite_canonical {s : State} {ws : List WByte} (h : s.Canonical) : (s.outsideWrite ws).Canonical := by
  unfold State.outsideWrite
  exact memWrite_canonical (foldl_canonical (fun _ _ hu => putEntry_canonical hu) (foldl_canonical
    (fun _ _ hu => openLine_canonical hu) h))

/-! ## Tile records (R361) -/

theorem recordAsk_wait_canonical {s : State} {ctx n : Nat} {x : StepSet} {tile : Nat} {wr : Bool} {t : State} (h : s.Canonical)
    (ht : s.recordAsk ctx n x tile wr = .wait t) : t.Canonical := by
  unfold State.recordAsk at ht
  exact unitAsk_wait_canonical h ht

theorem recordsSeek_canonical {s : State} {ctx n : Nat} {x : StepSet} {ts pas : List Nat} {wr : Bool} (h : s.Canonical) :
    (s.recordsSeek ctx n x ts pas wr).Canonical := by
  unfold State.recordsSeek
  split
  · exact foldl_canonical (fun _ _ hu => by
      split
      next s hr => exact recordAsk_wait_canonical hu hr
      · exact hu) h
  · exact h

/-! ## Deliveries (R363) -/

theorem delivered_canonical {s : State} {ctx set tile sum abs : Nat} (h : s.Canonical) :
    (s.delivered ctx set tile sum abs).1.Canonical := by
  unfold State.delivered
  extract_lets c x
  split_ifs
  · exact h
  · exact h
  · exact h
  split
  · exact h
  · extract_lets s1 r n k s2
    have h1 : s1.Canonical := intrude_canonical h
    split
    · exact setCtx_canonical h1
    · exact setCtx_canonical (memWrite_canonical h1)

theorem deliver_canonical {s : State} {ctx set tile sum abs : Nat} (h : s.Canonical) :
    (s.deliver ctx set tile sum abs).1.Canonical := by
  unfold State.deliver
  exact unitDone_canonical (delivered_canonical h)

theorem deliveryRecall_canonical {s : State} {ctx set tile : Nat} (h : s.Canonical) :
    (s.deliveryRecall ctx set tile).Canonical := by
  unfold State.deliveryRecall
  extract_lets
  split
  · exact recordsSeek_canonical h
  · exact h

/-! ## The instructions of class 8 (R365 to R370) -/

theorem openEpoch_canonical {x : IC} {s : State} {n d : Nat} {e : StepSet} (h : s.Canonical) :
    (x.openEpoch s n d e).Canonical := by
  unfold IC.openEpoch
  extract_lets pas ok u v c w
  have hv : v.Canonical := memWrite_canonical (drainLines_canonical h)
  have hw : w.Canonical := unitDone_canonical (setCtx_canonical hv)
  clear_value w
  split
  · exact h
  · split
    · exact recordsSeek_canonical h
    · exact modGroup_canonical hw

theorem sqResult_canonical {x : IC} {s : State} {d r : Nat} (h2 : s.Canonical) : (x.sqResult s d r).Canonical := by
  unfold IC.sqResult
  exact modGroup_canonical h2

theorem sqInit_canonical {x : IC} {s : State} {n d v : Nat} (h2 : s.Canonical) : (x.sqInit s n d v).Canonical := by
  unfold IC.sqInit
  extract_lets
  split
  · exact sqResult_canonical h2
  · split
    · exact sqResult_canonical h2
    · split
      · exact sqResult_canonical h2
      · exact openEpoch_canonical h2

theorem sqPlain_canonical {x : IC} {n d : Nat} (h : x.s.Canonical) : (x.sqPlain n d).Canonical := by
  unfold IC.sqPlain
  extract_lets
  split
  · exact sqResult_canonical h
  · split
    · exact sqResult_canonical h
    · split
      · exact openEpoch_canonical h
      · split
        · exact h
        · exact sqResult_canonical (drainLines_canonical h)

theorem execSqopen_canonical {o : Ops} {s : State} (h : s.Canonical) : Out.Canonical (execSqopen o s) := by
  unfold execSqopen
  refine issueBoundary_canonical (fun _ hx => ?_) h
  split
  · exact raiseFault_canonical hx
  · dsimp only
    split
    · exact hx
    · split
      · exact sqPlain_canonical hx
      · split
        · exact raiseFault_canonical hx
        · split
          next r hr => exact actOne_stop_canonical hx hr
          · split
            · exact killLanes_canonical (groupRead_canonical hx)
            · exact sqInit_canonical (groupRead_canonical hx)

theorem execSqsig_canonical {o : Ops} {s : State} (h : s.Canonical) : Out.Canonical (execSqsig o s) := by
  unfold execSqsig
  refine issueBoundary_canonical (fun _ hx => ?_) h
  split
  · exact raiseFault_canonical hx
  · extract_lets
    split
    · exact deliveryRecall_canonical hx
    · exact killLanes_canonical (deliver_canonical hx)

theorem execSkld_canonical {o : Ops} {s : State} (h : s.Canonical) : Out.Canonical (execSkld o s) := by
  unfold execSkld
  refine issueWith_canonical (fun _ _ _ hx => ?_) h
  split
  · exact fault_canonical hx
  · extract_lets
    split
    · exact .next hx
    · split
      · exact .next (recordsSeek_canonical hx)
      · exact retireTo_canonical (unitDone_canonical (postLoad_canonical (intrude_canonical hx)))

theorem execSkst_canonical {o : Ops} {s : State} (h : s.Canonical) : Out.Canonical (execSkst o s) := by
  unfold execSkst
  refine issueWith_canonical (fun _ _ _ hx => ?_) h
  split
  · exact fault_canonical hx
  · extract_lets
    split
    · exact .next hx
    · split
      · exact .next (recordsSeek_canonical hx)
      · exact retireTo_canonical (unitDone_canonical (.ite ((foldl_canonical (fun _ _ hu => by
          split
          · exact memWrite_canonical hu
          · exact hu) hx)) (foldl_canonical (fun _ _ hu => by
          split
          · exact memWrite_canonical hu
          · exact hu) hx)))

theorem execSqclose_canonical {o : Ops} {s : State} (h : s.Canonical) : Out.Canonical (execSqclose o s) := by
  unfold execSqclose
  refine issueBoundary_canonical (fun _ hx => ?_) h
  split
  · exact raiseFault_canonical hx
  · extract_lets
    split
    · exact hx
    · exact modGroup_canonical (.ite hx hx)

/-! ## Commands and what the engine asks of memory (R304, R307) -/

theorem copyHold_canonical {s : State} {engine : Nat} {c : CopyCmd} {sp : Space} {wr : Bool} {a : ℤ} {n : Nat} (h : s.Canonical) :
    (s.copyHold engine c sp wr a n).Canonical := by
  unfold State.copyHold
  split
  · exact h
  · split
    · split <;> exact h
    · exact h

theorem copyClaim_canonical {s : State} {c : CopyCmd} {sp : Space} {pas : List Nat} (h : s.Canonical) :
    (s.copyClaim c sp pas).Canonical := by
  unfold State.copyClaim
  split
  · exact intrude_canonical h
  · exact drainLines_canonical h

/-! ## One element (R300, R301) -/

theorem copyBytes_canonical {s : State} {engine : Nat} {c : CopyCmd} {sp : Space} {a : ℤ} {n : Nat} (h : s.Canonical) :
    (s.copyBytes engine c sp a n).1.Canonical := by
  unfold State.copyBytes
  split
  · dsimp only
    split
    · split
      · exact intrude_canonical h
      · exact h
    · split
      · exact intrude_canonical h
      · exact h
  · exact copyHold_canonical h

theorem copySource_canonical {s : State} {engine : Nat} {c : CopyCmd} {l : Layout} {p : List ℤ} (h : s.Canonical) :
    (s.copySource engine c l p).1.Canonical := by
  unfold State.copySource
  extract_lets
  split
  · exact copyBytes_canonical h
  · exact copyBytes_canonical h
  · split
    · exact copyBytes_canonical h
    · split <;> exact copyBytes_canonical (copyBytes_canonical h)

theorem copyElem_held_canonical {s : State} {engine : Nat} {r : CopyRun} {l : Layout} {x : List ℤ} {t : State} {va' : Nat}
    {wr' : Bool} (h : s.Canonical) (ht : s.copyElem engine r l x = .held t va' wr') :
    t.Canonical := by
  unfold State.copyElem at ht
  dsimp only at ht
  split at ht
  · cases ht
    split
    · exact h
    · exact copySource_canonical h
  · cases ht
  · split at ht
    · cases ht
    · split at ht
      · cases ht
      · split at ht
        · cases ht
          refine copyHold_canonical ?_
          split
          · exact h
          · exact copySource_canonical h
        · cases ht
        · cases ht

theorem copyElem_fault_canonical {s : State} {engine : Nat} {r : CopyRun} {l : Layout} {x : List ℤ} {t : State}
    {code' addr' : Nat} (h : s.Canonical) (ht : s.copyElem engine r l x = .fault t code' addr') :
    t.Canonical := by
  unfold State.copyElem at ht
  dsimp only at ht
  split at ht
  · cases ht
  · cases ht
    split
    · exact h
    · exact copySource_canonical h
  · split at ht
    · cases ht
    · split at ht
      · cases ht
      · split at ht
        · cases ht
        · cases ht
          split
          · exact h
          · exact copySource_canonical h
        · cases ht

theorem copyElem_ok_canonical {s : State} {engine : Nat} {r : CopyRun} {l : Layout} {x : List ℤ} {t : State} {r' : CopyRun}
    {wrote' : List Nat} (h : s.Canonical) (ht : s.copyElem engine r l x = .ok t r' wrote') :
    t.Canonical := by
  unfold State.copyElem at ht
  dsimp only at ht
  split at ht
  · cases ht
  · cases ht
  · split at ht
    · cases ht
      split
      · refine modGroup_canonical ?_
        split
        · exact h
        · exact copySource_canonical h
      · split
        · exact h
        · exact copySource_canonical h
    · split at ht
      · cases ht
        split
        · exact h
        · exact copySource_canonical h
      · split at ht
        · cases ht
        · cases ht
        · cases ht
          refine copyWrite_canonical (copyClaim_canonical ?_)
          split
          · exact h
          · exact copySource_canonical h

/-! ## The walk (R301, R302) -/

theorem copyStray_canonical {n : Nat} {s : State} {engine : Nat} {r : CopyRun} {l : Layout} (h : s.Canonical) :
    (copyStray n s engine r l).Canonical := by
  induction n generalizing s r with
  | zero => exact h
  | succ n ih =>
    unfold copyStray
    split
    · exact ih h
    next x after _ =>
      extract_lets d
      have hd : d.2.Canonical := h
      clear_value d
      have hcopy : ∀ t r1 w, d.2.copyElem engine r l x = .ok t r1 w → t.Canonical := fun t r1 w => copyElem_ok_canonical hd
      generalize d.2.copyElem engine r l x = e at hcopy ⊢
      split
      · exact ih (hcopy _ _ _ rfl)
      · exact ih hd
    · exact h

theorem strayAfter_canonical {s : State} {engine n : Nat} {r : CopyRun} {l : Layout} (h : s.Canonical) :
    (s.strayAfter engine n r l).Canonical := by
  unfold State.strayAfter
  split
  · exact copyStray_canonical h
  · exact h

theorem copyWalk_canonical {n : Nat} {s : State} {engine : Nat} {r : CopyRun} {l : Layout} {wrote : List Nat} (h : s.Canonical) :
    (copyWalk n s engine r l wrote).1.Canonical := by
  induction n generalizing s r wrote with
  | zero => exact h
  | succ n ih =>
    unfold copyWalk
    split
    · exact h
    · exact h
    · exact ih h
    · split
      next t _ _ ht => exact copyElem_held_canonical h ht
      next t _ _ ht => exact strayAfter_canonical (copyElem_fault_canonical h ht)
      next t _ _ ht => exact ih (copyElem_ok_canonical h ht)

theorem copyRelease_canonical {s : State} {c : CopyCmd} (h : s.Canonical) : (s.copyRelease c).Canonical := by
  unfold State.copyRelease
  split
  · exact modGroup_canonical h
  · exact h

theorem copyLanded_canonical {s : State} {c : CopyCmd} {bits : Nat} (h : s.Canonical) : (s.copyLanded c bits).Canonical := by
  unfold State.copyLanded
  split
  · exact modGroup_canonical h
  · exact h

theorem copyGo_canonical {s : State} {engine : Nat} {r : CopyRun} {l : Layout} (h : s.Canonical) :
    (s.copyGo engine r l).1.Canonical := by
  have hwalk := copyWalk_canonical (n := walkChunk) (engine := engine) (r := { r with waits := none }) (l := l) (wrote := []) h
  unfold State.copyGo
  generalize copyWalk walkChunk s engine { r with waits := none } l [] = w at hwalk ⊢
  have hswept {wrote : List Nat} : ((w.1.copySweep r.cmd (spaceOf l.dspc) wrote).Canonical) := copySweep_canonical hwalk
  dsimp only
  split
  · exact seekAll_canonical (.ite (copyRelease_canonical hswept) (copyLanded_canonical hswept))
  · exact State.Canonical.ite (copyRelease_canonical hswept) (copyLanded_canonical hswept)

theorem copyAdvance_canonical {s : State} {engine : Nat} {r : CopyRun} (h : s.Canonical) :
    (s.copyAdvance engine r).1.Canonical := by
  have hread := copyBytes_canonical (engine := engine) (c := r.cmd) (sp := .g) (a := r.cmd.layout.toNat) (n := 192) h
  obtain ⟨adv, hadv⟩ : ∃ adv, adv = @State.copyAdvance := ⟨_, rfl⟩
  obtain ⟨bytes, hbytes⟩ : ∃ bytes, bytes = @State.copyBytes := ⟨_, rfl⟩
  rw [← hadv]
  rw [← hbytes] at hread
  delta State.copyAdvance at hadv
  rw [← hbytes] at hadv
  subst hadv
  dsimp only
  generalize bytes s engine r.cmd .g r.cmd.layout.toNat 192 = b at hread ⊢
  split
  · exact copyGo_canonical h
  refine .fst_ite (copyRelease_canonical h) (.fst_ite (copyRelease_canonical h) (.fst_ite (copyRelease_canonical h) ?_))
  split
  · exact seekAll_canonical hread
  · exact copyRelease_canonical hread
  · exact .fst_ite (copyRelease_canonical hread) (copyGo_canonical hread)

theorem enqueue_canonical {s : State} {engine ctx : Nat} {cs : List CopyCmd} (h : s.Canonical) :
    (s.enqueue engine ctx cs).Canonical := by
  unfold State.enqueue
  dsimp only
  split
  · exact h
  · exact giveWork_canonical h

theorem postCopies_canonical {x : IC} {o : Ops} {kind : CopyKind} (h : x.s.Canonical) : (x.postCopies o kind).Canonical := by
  unfold IC.postCopies
  extract_lets lanes n close u v latest cs w
  have hu : u.Canonical := drainLines_canonical h
  have hv : v.Canonical := .ite (formBatch_canonical hu) hu
  have hw : w.Canonical := modGroup_canonical (enqueue_canonical hv)
  clear_value w
  split
  · exact h
  · split
    · exact h
    · split
      · exact modGroup_canonical hw
      · exact hw

theorem execCpy_canonical {o : Ops} {s : State} (h : s.Canonical) : Out.Canonical (execCpy o s) := by
  unfold execCpy
  exact issueBoundary_canonical (fun _ hx => postCopies_canonical hx) h

theorem execCpyg_canonical {o : Ops} {s : State} (h : s.Canonical) : Out.Canonical (execCpyg o s) := by
  unfold execCpyg
  exact issueBoundary_canonical (fun _ hx => postCopies_canonical hx) h

theorem execCpyv_canonical {o : Ops} {s : State} (h : s.Canonical) : Out.Canonical (execCpyv o s) := by
  unfold execCpyv
  refine issueBoundary_canonical (fun _ hx => ?_) h
  extract_lets
  split
  · exact postCopies_canonical hx
  · split
    · exact raiseFault_canonical hx
    · split
      · exact hx
      · exact postCopies_canonical hx

/-! ## The walk as events -/

theorem advanceRun_canonical {s : State} {engine : Nat} {r : CopyRun} (h : s.Canonical) :
    (s.advanceRun engine r).Canonical := by
  unfold State.advanceRun
  exact copyAdvance_canonical h

theorem execCopyStart_canonical {engine : Nat} {s : State} (h : s.Canonical) : Out.Canonical (execCopyStart engine s) := by
  unfold execCopyStart
  extract_lets
  split
  · exact .next h
  · split
    · exact .next (advanceRun_canonical h)
    · split
      · exact .next h
      · split
        · exact .next h
        · exact .next (advanceRun_canonical h)

theorem execSignatureDelivery_canonical {id : Nat} {s : State} (h : s.Canonical) :
    Out.Canonical (execSignatureDelivery id s) := by
  unfold execSignatureDelivery
  split
  · exact .next h
  · split
    · exact .next h
    · split
      · exact .next (deliveryRecall_canonical h)
      · exact .next (deliver_canonical h)

/-! ## Completion records (R305) -/

theorem copyDone_canonical {s : State} {c : CopyCmd} {status fault : Nat} (h : s.Canonical) :
    (s.copyDone c status fault).Canonical := by
  unfold State.copyDone
  dsimp only
  split
  · split
    · split <;> exact h
    · exact h
  · split
    · split
      · split <;> exact h
      · exact h
    · split
      · split
        · split <;> exact h
        · exact h
      · refine wakeBatches_canonical ?_
        split
        · split <;> exact h
        · exact h

theorem numberRun_canonical {s : State} {engine : Nat} {r : CopyRun} (h : s.Canonical) :
    (s.numberRun engine r).1.Canonical := by
  unfold State.numberRun
  split <;> exact h

theorem findSlot_canonical {s : State} {engine : Nat} {c : CopyCmd} {va : Nat} (h : s.Canonical) :
    (s.findSlot engine c va).1.Canonical := by
  have hread := copyBytes_canonical (engine := engine) (c := c) (sp := .g) (a := va) (n := 8) h
  obtain ⟨find, hfind⟩ : ∃ find, find = @State.findSlot := ⟨_, rfl⟩
  obtain ⟨bytes, hbytes⟩ : ∃ bytes, bytes = @State.copyBytes := ⟨_, rfl⟩
  rw [← hfind]
  rw [← hbytes] at hread
  delta State.findSlot at hfind
  rw [← hbytes] at hfind
  subst hfind
  dsimp only
  generalize bytes s engine c .g va 8 = r at hread ⊢
  split
  · split
    · exact hread
    · split
      · exact hread
      · exact copyHold_canonical hread
      · exact hread
  · exact hread
  · exact hread

theorem setCopyEng_canonical {s : State} {n : Nat} {e : CopyEng} (h : s.Canonical) : (s.setCopyEng n e).Canonical := h

/-! In the proofs about the two events of a record, `findSlot` is replaced by a variable first, as in the proof about it. -/

theorem execCopyRingSlotWait_canonical {engine id : Nat} {s : State} (h : s.Canonical) :
    Out.Canonical (execCopyRingSlotWait engine id s) := by
  have hslot (u : State) (c : CopyCmd) (va : Nat) (hu : u.Canonical) : (u.findSlot engine c va).1.Canonical := findSlot_canonical hu
  rw [execCopyRingSlotWait]
  obtain ⟨find, hfind⟩ : ∃ find, find = @State.findSlot := ⟨_, rfl⟩
  rw [← hfind] at hslot ⊢
  clear hfind
  split
  · exact .next h
  · split
    · exact .next h
    next r _ _ _ _ =>
      have hnum : (s.numberRun engine r).1.Canonical := numberRun_canonical h
      generalize s.numberRun engine r = m at hnum ⊢
      obtain ⟨u, q, n⟩ := m
      have hf := hslot u q.cmd (u.ringSlot q.cmd.ctx n) hnum
      dsimp only
      generalize find u engine q.cmd (u.ringSlot q.cmd.ctx n) = f at hf ⊢
      split
      · exact .next hf
      · exact .next (seekAll_canonical hf)
      · exact .next hf

theorem execCopyCompletionRecord_canonical {engine id : Nat} {s : State} (h : s.Canonical) :
    Out.Canonical (execCopyCompletionRecord engine id s) := by
  have hslot (u : State) (c : CopyCmd) (va : Nat) (hu : u.Canonical) : (u.findSlot engine c va).1.Canonical := findSlot_canonical hu
  rw [execCopyCompletionRecord]
  obtain ⟨find, hfind⟩ : ∃ find, find = @State.findSlot := ⟨_, rfl⟩
  rw [← hfind] at hslot ⊢
  clear hfind
  split
  · exact .next h
  · split
    · exact .next h
    next r _ _ status fault addr _ =>
      refine .ite (.next h) ?_
      have hnum : (s.numberRun engine r).1.Canonical := numberRun_canonical h
      generalize s.numberRun engine r = m at hnum ⊢
      obtain ⟨u, q, n⟩ := m
      have hf := hslot u q.cmd (u.ringSlot q.cmd.ctx n) hnum
      dsimp only
      generalize find u engine q.cmd (u.ringSlot q.cmd.ctx n) = f at hf ⊢
      split
      · exact .next hf
      · exact .next (seekAll_canonical hf)
      · exact .next (copyDone_canonical (setCopyEng_canonical (copyWrite_canonical hf)))

theorem execCrwait_canonical {o : Ops} {s : State} (h : s.Canonical) : Out.Canonical (execCrwait o s) := by
  unfold execCrwait
  refine issueWith_canonical (fun _ _ _ hx => ?_) h
  extract_lets n va rq
  refine .ite (fault_canonical hx) ?_
  split
  · exact .next (seekAll_canonical hx)
  · exact .next (translationFault_canonical hx)
  · extract_lets rd g t dl
    have hrd : rd.1.Canonical := groupRead_canonical (setGroup_canonical hx)
    clear_value rd
    exact .ite (.next hx) (.ite (retireTo_canonical hrd) (.ite (retireTo_canonical hrd)
      (.next (releaseYields_canonical (setGroup_canonical hrd)))))

theorem execCrwaitReread_canonical {gid split : Nat} {s : State} (h : s.Canonical) :
    Out.Canonical (execCrwaitReread gid split s) := by
  unfold execCrwaitReread
  split
  · exact .next h
  · split
    · dsimp only
      split
      · exact .next (seekAll_canonical h)
      · exact .next (translationFault_canonical h)
      · split
        · exact .next h
        · split
          · exact .next (killLanes_canonical (groupRead_canonical h))
          · split
            · exact .next (wakeSplit_canonical (groupRead_canonical h))
            · exact .next (groupRead_canonical h)
    · exact .next h

theorem execCrwaitTimeout_canonical {gid split : Nat} {s : State} (h : s.Canonical) :
    Out.Canonical (execCrwaitTimeout gid split s) := by
  unfold execCrwaitTimeout
  split
  · exact .next h
  · split
    · split
      · split
        · exact .next (wakeSplit_canonical h)
        · exact .next h
      · exact .next h
    · exact .next h

end Sys2Proof.Machine
end

section
/-!
PROOF. The canonical form under tiles, grids and the Seam.
-/
namespace Sys2Proof.Machine

/-! ## Directories (R321 to R325) -/

theorem endTenures_canonical {s : State} {p : Tenure → Bool} (h : s.Canonical) : (s.endTenures p).Canonical := by
  unfold State.endTenures
  exact pruneCopies_canonical (recallAll_canonical h)

theorem revokeOldest_canonical {s : State} {anchor : Nat} {but : Option Nat} (h : s.Canonical) :
    (s.revokeOldest anchor but).Canonical := by
  unfold State.revokeOldest
  split
  · exact h
  · exact endTenures_canonical h

theorem grantTenure_canonical {s : State} {r : TenureReq} (h : s.Canonical) : (s.grantTenure r).Canonical := by
  unfold State.grantTenure
  extract_lets u v x t y z
  have hv : v.Canonical := recallAll_canonical (endTenures_canonical h)
  clear_value v
  have hy : y.Canonical := by
    unfold y
    split
    · exact hv
    · exact revokeOldest_canonical hv
  exact dropL1_canonical (loseReservations_canonical (s := z) hy)

theorem endRequest_canonical {s : State} {r : TenureReq} {result : Nat} (h : s.Canonical) :
    (s.endRequest r result).Canonical := by
  unfold State.endRequest
  extract_lets
  split
  · exact h
  · exact passAndOpen_canonical h

theorem endRequests_canonical {s : State} {ctx i : Nat} {gen : BitVec 8} (h : s.Canonical) :
    (s.endRequests ctx i gen).Canonical := by
  unfold State.endRequests
  exact foldl_canonical (fun _ _ hu => endRequest_canonical hu) h

/-! ## THNEW (R328) -/

theorem tileResult_canonical {x : IC} {s : State} {o : Ops} {v : Nat} (h2 : s.Canonical) : (x.tileResult s o v).Canonical := by
  unfold IC.tileResult
  exact modGroup_canonical h2

theorem execThnew_canonical {o : Ops} {s : State} (h : s.Canonical) : Out.Canonical (execThnew o s) := by
  unfold execThnew
  refine issueBoundary_canonical (fun x hx => ?_) h
  extract_lets a
  split
  · exact raiseFault_canonical hx
  · split
    next r hr => exact actOne_stop_canonical hx hr
    · extract_lets rd v c
      have hrd : rd.1.Canonical := groupRead_canonical hx
      clear_value rd
      split
      · exact killLanes_canonical hrd
      · split
        · exact tileResult_canonical hrd
        · split
          · exact tileResult_canonical hrd
          · exact tileResult_canonical (setCtx_canonical hrd)

/-! ## THACQ (R329) -/

theorem tilePages_error_canonical {x : IC} {h : Handle} {wr : Bool} {a : Act} (hs : x.s.Canonical)
    (ht : x.tilePages h wr = .error a) : a.Canonical := by
  unfold IC.tilePages at ht
  extract_lets rq vas trs recs at ht
  split at ht
  · cases ht
    exact seekAll_canonical hs
  · split at ht
    · cases ht
      exact translationFault_canonical hs
    · split at ht
      · cases ht
        exact raiseFault_canonical hs
      · cases ht

theorem acquire_canonical {x : IC} {o : Ops} {v : Nat} {h : Handle} {pages : List (Nat × Nat)} (hs : x.s.Canonical) :
    (x.acquire o v h pages).Canonical := by
  unfold IC.acquire
  extract_lets
  split
  · split
    · exact hs
    · exact tileResult_canonical (grantTenure_canonical hs)
  · exact modGroup_canonical hs

theorem execThacq_canonical {o : Ops} {s : State} (h : s.Canonical) : Out.Canonical (execThacq o s) := by
  unfold execThacq
  refine issueBoundary_canonical (fun _ hx => ?_) h
  extract_lets
  split
  · exact raiseFault_canonical hx
  · split
    next a hr => exact tilePages_error_canonical hx hr
    · exact acquire_canonical hx

theorem execThacqGrant_canonical {req : Nat} {s : State} (h : s.Canonical) : Out.Canonical (execThacqGrant req s) := by
  unfold execThacqGrant
  split
  · exact .next h
  · split
    · exact .next h
    · split
      · split
        · exact .next h
        · exact .next (endRequest_canonical (grantTenure_canonical h))
      · exact .next h

theorem execThacqTimeout_canonical {req : Nat} {s : State} (h : s.Canonical) : Out.Canonical (execThacqTimeout req s) := by
  unfold execThacqTimeout
  split
  · exact .next h
  · split
    · split
      · exact .next (endRequest_canonical h)
      · exact .next h
    · exact .next h

/-! ## THREL, THSPLIT and THFREE (R330 to R332) -/

theorem execThrel_canonical {o : Ops} {s : State} (h : s.Canonical) : Out.Canonical (execThrel o s) := by
  unfold execThrel
  refine issueBoundary_canonical (fun _ hx => ?_) h
  extract_lets
  split
  · exact tileResult_canonical hx
  · split
    · exact hx
    · exact tileResult_canonical (endTenures_canonical (foldl_canonical (fun _ _ hu => drainLines_canonical hu) hx))

theorem seat_ok_canonical {s t : State} {l : List Tenure} (h : s.Canonical) (ht : s.seat l = .ok t) : t.Canonical := by
  induction l generalizing s with
  | nil =>
    cases ht
    exact h
  | cons x rest ih =>
    unfold State.seat at ht
    split at ht
    · cases ht
    · extract_lets u at ht
      exact ih (s := { u with tenures := u.tenures ++ [x] }) (revokeOldest_canonical (s := s) h) ht

theorem cut_canonical {x : IC} {o : Ops} {v d p : Nat} {h : Handle} {i j : Nat} (hs : x.s.Canonical) :
    (x.cut o v d p h i j).Canonical := by
  unfold IC.cut
  extract_lets c a b n c0 c1 mine held s all
  have h1 : s.Canonical := hs
  clear_value s
  split
  · exact hs
  next t hr => exact tileResult_canonical (endRequests_canonical (seat_ok_canonical h1 hr))

theorem execThsplit_canonical {o : Ops} {s : State} (h : s.Canonical) : Out.Canonical (execThsplit o s) := by
  unfold execThsplit
  refine issueBoundary_canonical (fun _ hx => ?_) h
  extract_lets
  split
  · exact raiseFault_canonical hx
  · extract_lets
    refine .ite (tileResult_canonical hx) ?_
    split
    · exact tileResult_canonical hx
    · split
      · exact tileResult_canonical hx
      · exact cut_canonical hx

theorem execThfree_canonical {o : Ops} {s : State} (h : s.Canonical) : Out.Canonical (execThfree o s) := by
  unfold execThfree
  refine issueBoundary_canonical (fun x hx => ?_) h
  extract_lets v c
  split
  · exact raiseFault_canonical hx
  next t _ =>
    have hdrained {l : List Tenure} {f : Tenure → OutLine → Bool} :
        (l.foldl (fun s q => s.drainLines q.core (f q)) x.s).Canonical := foldl_canonical (fun _ _ ha => drainLines_canonical ha) hx
    refine Act.Canonical.ite hx ?_
    exact setCtx_canonical (endRequests_canonical (endTenures_canonical hdrained))

/-! ## THQRY and THBND (R333, R334) -/

theorem execThqry_canonical {o : Ops} {s : State} (h : s.Canonical) : Out.Canonical (execThqry o s) := by
  unfold execThqry
  exact issueWith_canonical (fun _ _ _ hx => retireTo_canonical hx) h

theorem execThbnd_canonical {o : Ops} {s : State} (h : s.Canonical) : Out.Canonical (execThbnd o s) := by
  unfold execThbnd
  refine issueWith_canonical (fun _ _ _ hx => ?_) h
  extract_lets
  split
  · exact fault_canonical hx
  · split
    · exact fault_canonical hx
    · exact retireTo_canonical hx

/-! ## Accesses of the front end and of the Seam units -/

theorem unitRecord_canonical {s : State} {u : Unit7} {va cause level entry : Nat} (h : s.Canonical) :
    (s.unitRecord u va cause level entry).Canonical := by
  unfold State.unitRecord
  extract_lets
  split
  · split <;> exact h
  · split
    · exact postRecord_canonical h
    · exact h

theorem unitReach_wait_canonical {s t : State} {u : Unit7} {va : Nat} (h : s.Canonical) (ht : s.unitReach u va = .wait t) :
    t.Canonical := by
  unfold State.unitReach at ht
  extract_lets waits at ht
  split at ht
  · cases ht
    exact h
  · split at ht
    · cases ht
      exact unitRecord_canonical h
    · exact unitAsk_wait_canonical h ht

/-! ## The end of groups and grids (R26, R27, R345) -/

theorem gridDown_canonical {s : State} {grid n : Nat} (h : s.Canonical) : (s.gridDown grid n).Canonical := by
  unfold State.gridDown
  split
  · exact h
  · refine .ite h ?_
    extract_lets u v
    have hv : v.Canonical := by
      unfold v
      split <;> exact h
    split <;> exact hv

/-! ## The Seam unit's accesses and errors (R348) -/

theorem seamReach_wait_canonical {s : State} {w : Nat} {wr : Bool} {va : Nat} {t : State} (h : s.Canonical)
    (ht : s.seamReach w wr va = .wait t) : t.Canonical := by
  unfold State.seamReach at ht
  by_cases hd : (s.world w).denied.contains (va / 4096, if wr then 6 else 5)
  · rw [if_pos hd] at ht
    cases ht
  · rw [if_neg hd] at ht
    exact unitReach_wait_canonical h ht

theorem seamAll_error_canonical {s t : State} {w : Nat} {wr : Bool} {vas : List Nat} (h : s.Canonical)
    (ht : s.seamAll w wr vas = .error t) : t.Canonical := by
  unfold State.seamAll at ht
  extract_lets rs at ht
  split at ht
  · cases ht
    refine foldl_canonical (fun _ _ hu => ?_) h
    split
    next hr => exact seamReach_wait_canonical hu hr
    · exact hu
  · cases ht

/-! ## The panel barrier (R353) -/

theorem setPanel_canonical {s : State} {team : Nat} {g : Gang} {p : BitVec 32 × Nat} (h : s.Canonical) :
    (s.setPanel team g p).Canonical := by
  unfold State.setPanel
  split <;> exact h

theorem wakePanel_canonical {s : State} {gid : Nat} {phase : BitVec 32} (h : s.Canonical) :
    (s.wakePanel gid phase).Canonical := by
  unfold State.wakePanel
  split
  · exact h
  · split
    · exact passAndOpen_canonical h
    · exact h

theorem leavePanel_canonical {s : State} {team : Nat} {q : Gang} {g : Group} (h : s.Canonical) :
    (s.leavePanel team q g).Canonical := by
  unfold State.leavePanel
  extract_lets
  split
  · exact setPanel_canonical h
  · exact h

theorem settlePanel_canonical {s : State} {team : Nat} {g : Gang} (h : s.Canonical) : (s.settlePanel team g).Canonical := by
  unfold State.settlePanel
  extract_lets
  split
  · exact h
  · exact foldl_canonical (fun _ _ hu => wakePanel_canonical hu) (setPanel_canonical h)

/-! ## Worlds in error (R348) -/

theorem cancelGang_canonical {s : State} {key : Nat} (h : s.Canonical) : (s.cancelGang key).Canonical := by
  unfold State.cancelGang
  split
  · exact h
  · refine gridDown_canonical ?_
    split
    · exact settlePanel_canonical (closeWaiting_canonical h)
    · exact closeWaiting_canonical h

theorem worldError_canonical {s : State} {w flag : Nat} (h : s.Canonical) : (s.worldError w flag).Canonical := by
  unfold State.worldError
  extract_lets
  split
  · exact h
  · exact foldl_canonical (fun _ _ hu => cancelGang_canonical hu) h

/-! ## Step close (R343, R345) -/

theorem launchGangs_canonical {s : State} {w : Nat} {x : World} {plan : List GangPlan} (h : s.Canonical) :
    (s.launchGangs w x plan).Canonical := by
  unfold State.launchGangs
  exact foldl_canonical (fun _ _ hu => queueTeam_canonical hu) h

theorem closeLaunch_canonical {s : State} {w : Nat} {x : World} {plan : List GangPlan} {pas : List Nat} (h : s.Canonical) :
    (s.closeLaunch w x plan pas).Canonical := by
  unfold State.closeLaunch
  extract_lets
  split
  · exact foldl_canonical (fun _ _ hu => memWrite_canonical hu) h
  · exact launchGangs_canonical (foldl_canonical (fun _ _ hu => memWrite_canonical hu) h)

theorem closeState_canonical {s : State} {w : Nat} (h : s.Canonical) : (s.closeState w).Canonical := by
  unfold State.closeState
  generalize closeStages (s.world w) w (s.die (worldDie w)) = r
  extract_lets q x t
  have ht : t.Canonical := setWorld_canonical (s := s.setDie (worldDie w) r.1) h
  clear_value t
  exact .ite (worldError_canonical ht) ht

theorem closeEnd_canonical {s : State} {w : Nat} {plan : List GangPlan} (h : s.Canonical) : (s.closeEnd w plan).Canonical := by
  unfold State.closeEnd
  extract_lets
  split
  next s hr => exact seamAll_error_canonical h hr
  · split
    · exact worldError_canonical h
    · split
      · exact h
      · exact unitDone_canonical (closeLaunch_canonical h)

theorem execStepClose_canonical {w : Nat} {s : State} (h : s.Canonical) : Out.Canonical (execStepClose w s) := by
  unfold execStepClose
  split
  · exact .next h
  · refine .next ?_
    split
    · exact closeEnd_canonical (.ite h (closeState_canonical h))
    · split
      · exact h
      · exact closeState_canonical h

/-! ## Staging and write-back (R346, R347) -/

theorem execGangStaging_canonical {team : Nat} {s : State} (h : s.Canonical) : Out.Canonical (execGangStaging team s) := by
  unfold execGangStaging
  split
  · exact .next h
  · split
    · extract_lets
      split
      · exact .next h
      · split
        next s hr => exact .next (seamAll_error_canonical h hr)
        · split
          · exact .next (worldError_canonical h)
          · extract_lets
            split
            · exact .next h
            · exact .next (unitDone_canonical (intrude_canonical h))
    · exact .next h

theorem execGangWriteback_canonical {team : Nat} {s : State} (h : s.Canonical) : Out.Canonical (execGangWriteback team s) := by
  unfold execGangWriteback
  split
  · exact .next h
  · split
    · extract_lets
      split
      · exact .next h
      · split
        next s hr => exact .next (seamAll_error_canonical h hr)
        · split
          · exact .next h
          · exact .next (.ite (worldError_canonical (unitDone_canonical ((foldl_canonical (fun _ _ hu => by
              split
              · exact memWrite_canonical hu
              · exact hu) h)))) (unitDone_canonical ((foldl_canonical (fun _ _ hu => by
              split
              · exact memWrite_canonical hu
              · exact hu) h))))
    · exact .next h

theorem execStepsigStore_canonical {w : Nat} {s : State} (h : s.Canonical) : Out.Canonical (execStepsigStore w s) := by
  unfold execStepsigStore
  extract_lets
  split
  · exact .next h
  · split
    · exact .next h
    · split
      next s hr => exact .next (seamReach_wait_canonical h hr)
      · exact .next (worldError_canonical h)
      · exact .next (worldError_canonical h)
      · split
        · exact .next h
        · exact .next (unitDone_canonical (memWrite_canonical h))

/-! ## SEAM, UNPICK and WAKE (R342, R350, R352) -/

theorem onBody_canonical {s : State} {w b : Nat} {f : Island → Island} {h : Body → Body} (hs : s.Canonical) :
    (s.onBody w b f h).Canonical := by
  unfold State.onBody
  extract_lets
  split <;> exact hs

theorem acceptReport_canonical {s : State} {w : Nat} {r : Report} (h : s.Canonical) : (s.acceptReport w r).Canonical := by
  unfold State.acceptReport
  extract_lets
  split
  · exact onBody_canonical (onBody_canonical h)
  · split
    · exact onBody_canonical h
    · split
      · exact onBody_canonical h
      · exact h

theorem issueReport_canonical {op : Op} {unpick : Bool} {o : Ops} {s : State} (h : s.Canonical) :
    Out.Canonical (issueReport op unpick o s) := by
  unfold issueReport
  refine issueBoundary_canonical (fun _ hx => ?_) h
  split
  · exact raiseFault_canonical hx
  · split
    · exact raiseFault_canonical hx
    · extract_lets
      split
      · exact hx
      · exact foldl_canonical (fun _ _ hu => .ite hu (acceptReport_canonical hu)) hx

theorem execWake_canonical {o : Ops} {s : State} (h : s.Canonical) : Out.Canonical (execWake o s) := by
  unfold execWake
  refine issueBoundary_canonical (fun _ hx => ?_) h
  split
  · exact raiseFault_canonical hx
  · split
    · exact raiseFault_canonical hx
    · exact foldl_canonical (fun _ _ hu => onBody_canonical hu) hx

/-! ## SETTLE (R351) -/

theorem execSettle_canonical {o : Ops} {s : State} (h : s.Canonical) : Out.Canonical (execSettle o s) := by
  unfold execSettle
  refine issueBoundary_canonical (fun _ hx => ?_) h
  split
  · exact raiseFault_canonical hx
  · exact (foldl_canonical (fun _ _ hu => by
      split
      · exact onBody_canonical hu
      · exact hu) hx)

/-! ## PBAR (R353) -/

theorem execPbar_canonical {o : Ops} {s : State} (h : s.Canonical) : Out.Canonical (execPbar o s) := by
  unfold execPbar
  refine issueBoundary_canonical (fun _ hx => ?_) h
  split
  · exact raiseFault_canonical hx
  · split
    · exact hx
    · exact settlePanel_canonical (setPanel_canonical (modGroup_canonical (drainLines_canonical hx)))

/-! ## STEPC (R354) -/

theorem execStepc_canonical {o : Ops} {s : State} (h : s.Canonical) : Out.Canonical (execStepc o s) := by
  unfold execStepc
  refine issueBoundary_canonical (fun _ hx => ?_) h
  split
  · exact raiseFault_canonical hx
  · split
    · exact hx
    · exact modGroup_canonical (.ite (drainLines_canonical hx) (drainLines_canonical hx))

/-! ## ISLD, ISST and ISLQ (R355) -/

theorem execIsld_canonical {o : Ops} {s : State} (h : s.Canonical) : Out.Canonical (execIsld o s) := by
  unfold execIsld
  refine issueWith_canonical (fun _ _ _ hx => ?_) h
  extract_lets
  split
  · exact .next hx
  · exact retireTo_canonical hx

theorem execIsst_canonical {o : Ops} {s : State} (h : s.Canonical) : Out.Canonical (execIsst o s) := by
  unfold execIsst
  refine issueWith_canonical (fun _ _ _ hx => ?_) h
  split
  · exact .next hx
  · split <;> exact retireTo_canonical hx

theorem execIslq_canonical {o : Ops} {s : State} (h : s.Canonical) : Out.Canonical (execIslq o s) := by
  unfold execIslq
  refine issueWith_canonical (fun _ _ _ hx => ?_) h
  extract_lets
  split
  · exact fault_canonical hx
  · split
    · exact fault_canonical hx
    · split
      · exact .next hx
      · exact retireTo_canonical hx

end Sys2Proof.Machine
end

section
/-!
PROOF. The canonical form under queues, packets and scheduling.
-/
namespace Sys2Proof.Machine

/-! ## The front end's accesses (R448) -/

theorem feReach_denied_canonical {s : State} {q access : Nat} {wr : Bool} {va : Nat} {t : State} (h : s.Canonical)
    (ht : s.feReach q access wr va = .denied t) : t.Canonical := by
  unfold State.feReach at ht
  dsimp only at ht
  split at ht
  · cases ht
    exact h
  · split at ht
    · cases ht
    · split at ht
      · cases ht
      · cases ht
        exact h
      · cases ht
        exact h
      next s hr =>
        cases ht

theorem feReach_wait_canonical {s : State} {q access : Nat} {wr : Bool} {va : Nat} {t : State} (h : s.Canonical)
    (ht : s.feReach q access wr va = .wait t) : t.Canonical := by
  unfold State.feReach at ht
  dsimp only at ht
  split at ht
  · cases ht
  · split at ht
    · cases ht
    · split at ht
      · cases ht
      · cases ht
      · cases ht
      next s hr =>
        cases ht
        have hs := unitReach_wait_canonical h hr
        split <;> exact hs

/-! ## Aborts and the vetting of a queue (R289, R290, R414) -/

theorem abortQueue_canonical {s : State} {q reason : Nat} (h : s.Canonical) : (s.abortQueue q reason).Canonical :=
  physWrite_canonical h

theorem malformPacket_canonical {s : State} {q n reason : Nat} (h : s.Canonical) : (s.malformPacket q n reason).Canonical := h

theorem packetDone_canonical {s : State} {q n status reason : Nat} {grid : BitVec 32} (h : s.Canonical) :
    (s.packetDone q n status reason grid).Canonical := h

theorem modStarted_canonical {s : State} {q n : Nat} {f : Started → Started} (h : s.Canonical) :
    (s.modStarted q n f).Canonical := h

theorem packetAt_canonical {s : State} {pa : Nat} (h : s.Canonical) : (s.packetAt pa).1.Canonical := readThrough_canonical h

theorem blockQueue_canonical {s : State} {q n : Nat} (h : s.Canonical) : (s.blockQueue q n).Canonical := by
  exact setQueue_canonical (abortQueue_canonical h)

theorem endingReach_wait_canonical {s : State} {q : Nat} {wr : Bool} {va : Nat} {t : State} (h : s.Canonical)
    (ht : s.endingReach q wr va = .wait t) : t.Canonical := by
  unfold State.endingReach at ht
  exact unitAsk_wait_canonical h ht

theorem vetContext_some_canonical {s : State} {q : Nat} {t : State} (h : s.Canonical) (ht : s.vetContext q = .some t) :
    t.Canonical := by
  unfold State.vetContext at ht
  dsimp only at ht
  split at ht
  · split at ht
    · cases ht
    · cases ht
      exact h
  · split at ht
    · cases ht
      exact physWrite_canonical h
    · split at ht
      next t hr =>
        cases ht
        exact endingReach_wait_canonical h hr
      · cases ht
        exact unitDone_canonical (abortQueue_canonical (blockQueue_canonical h))
      · cases ht
        exact unitDone_canonical (abortQueue_canonical (blockQueue_canonical h))
      · split at ht
        next t hr =>
          cases ht
          exact .of_fst (packetAt_canonical h) hr
        next t img hr =>
          cases ht
          have hread : t.Canonical := .of_fst (packetAt_canonical h) hr
          exact unitDone_canonical (malformPacket_canonical (setQueue_canonical hread))

theorem vetQueue_some_canonical {s : State} {q : Nat} {t : State} (h : s.Canonical) (ht : s.vetQueue q = .some t) :
    t.Canonical := by
  unfold State.vetQueue at ht
  dsimp only at ht
  split at ht
  · cases ht
  · split at ht
    · split at ht
      · cases ht
      · cases ht
        exact physWrite_canonical h
    · split at ht
      · cases ht
      · split at ht
        · cases ht
        · split at ht
          · exact vetContext_some_canonical h ht
          · split at ht
            · cases ht
            · split at ht
              · cases ht
                exact h
              · cases ht
                exact physWrite_canonical h

/-! ## Starting (R286, R291) -/

theorem noteStartable_canonical {s : State} (h : s.Canonical) : (s.noteStartable).Canonical := by
  unfold State.noteStartable
  exact foldl_canonical (fun _ _ hu => .ite (.ite (.ite hu hu) (.ite hu hu)) (.ite (.ite hu hu) (.ite hu hu))) h

theorem readStart_go_canonical {s : State} {q n : Nat} {t : State} {img' : BitVec 512} (h : s.Canonical)
    (ht : s.readStart q n = .go t img') : t.Canonical := by
  unfold State.readStart at ht
  split at ht
  · cases ht
  · split at ht
    · cases ht
    next s hr =>
      cases ht
    next s hr =>
      cases ht
    · split at ht
      next s hr =>
        cases ht
      next s img hr =>
        cases ht
        exact .of_fst (packetAt_canonical h) hr

theorem readStart_stop_canonical {s t : State} {q n : Nat} (h : s.Canonical) (ht : s.readStart q n = .stop (some t)) :
    t.Canonical := by
  unfold State.readStart at ht
  split at ht
  · cases ht
  · split at ht
    · cases ht
    next u hr =>
      have hu : u.Canonical := feReach_wait_canonical h hr
      cases ht
      exact hu
    next u hr =>
      have hu : State.Canonical { u with feGrant := none } := feReach_denied_canonical (t := u) h hr
      cases ht
      exact blockQueue_canonical hu
    · split at ht
      next u hr =>
        cases ht
        have hs : u.Canonical := .of_fst (packetAt_canonical h) hr
        exact hs
      · cases ht

/-! ## Events of the host that wait, and the firmware -/

theorem bobbinTakes_canonical {s : State} (h : s.Canonical) : Out.Canonical (bobbinTakes s) := by
  unfold bobbinTakes
  extract_lets
  split
  · exact .next h
  · split <;> exact .next h

theorem handle_some_canonical {s t : State} {e : DeviceEvent} (h : s.Canonical) (ht : s.handle e = .some t) : t.Canonical := by
  unfold State.handle at ht
  split at ht
  · split at ht
    · cases ht
      exact h
    · cases ht
  · split at ht
    · cases ht
    · split at ht
      · cases ht
        exact h
      · cases ht

theorem handleQueue_some_canonical {s : State} {qs : List Nat} {p : Nat × State} (h : s.Canonical)
    (hp : s.handleQueue qs = some p) : p.2.Canonical := by
  obtain ⟨q, -, hq⟩ := List.exists_of_findSome?_eq_some hp
  obtain ⟨u, hu, rfl⟩ := Option.map_eq_some_iff.mp hq
  exact handle_some_canonical h hu

theorem noteFirmware_canonical {s : State} (h : s.Canonical) : (s.noteFirmware).Canonical := by
  unfold State.noteFirmware
  dsimp only
  split
  · split <;> exact foldl_canonical (fun _ _ hu => .ite hu hu) h
  · exact foldl_canonical (fun _ _ hu => .ite hu hu) h

theorem bobbinDone_canonical {b : Nat} {s : State} (h : s.Canonical) : Out.Canonical (bobbinDone b s) := by
  unfold bobbinDone
  split
  · exact .next h
  · extract_lets
    split
    · split <;> exact .next h
    · exact .next h
    · split <;> exact .next h
    · exact .next h

/-! ## The doorbell, arbitration and quanta (R283, R291, R292) -/

theorem execQueueDoorbell_canonical {q : Nat} {s : State} (h : s.Canonical) : Out.Canonical (execQueueDoorbell q s) := by
  unfold execQueueDoorbell
  refine .ite (.next h) (.next (noteFirmware_canonical (noteStartable_canonical ?_)))
  exact getD_canonical (fun _ ht => vetQueue_some_canonical (setQueue_canonical h) ht) (setQueue_canonical h)

theorem execQueueArbitration_canonical {s : State} (h : s.Canonical) : Out.Canonical (execQueueArbitration s) := by
  unfold execQueueArbitration
  extract_lets
  split
  · exact .next h
  · split
    · exact .next h
    · exact .next (noteStartable_canonical h)

theorem execQueueAgeing_canonical {q : Nat} {s : State} (h : s.Canonical) : Out.Canonical (execQueueAgeing q s) := by
  unfold execQueueAgeing
  extract_lets
  split
  · exact .next h
  · split <;> exact .next h

theorem execQuantumEnd_canonical {s : State} (h : s.Canonical) : Out.Canonical (execQuantumEnd s) := by
  unfold execQuantumEnd
  dsimp only
  split
  · exact .next h
  · split
    · exact .next h
    next s hr =>
      have hs := handle_some_canonical h hr
      exact .next hs

theorem execQueueReplacement_canonical {q : Nat} {s : State} (h : s.Canonical) : Out.Canonical (execQueueReplacement q s) := by
  unfold execQueueReplacement
  extract_lets best residents enter
  refine .ite (.next h) (.ite ?_ ?_)
  · split
    · exact .next h
    next p hp => exact .next (noteStartable_canonical (setQueue_canonical (handleQueue_some_canonical h hp)))
  · split
    · exact .next h
    next p hp => exact .next (noteStartable_canonical (setQueue_canonical (setQueue_canonical (handleQueue_some_canonical h hp))))

/-! ## The start of a packet (R286) -/

theorem actPacket_canonical {s : State} {q n : Nat} {img : BitVec 512} {act : BitVec 512 → State → PacketAct}
    (hact : ∀ img s, s.Canonical → (act img s).Canonical) (h : s.Canonical) : (s.actPacket q n img act).Canonical := by
  have ha := hact img s h
  unfold State.actPacket
  split
  next t ht => rw [ht] at ha; exact ha
  next t ht => rw [ht] at ha; exact ha

theorem startPacket_canonical {q n : Nat} {mine : Nat → Bool} {act : BitVec 512 → State → PacketAct} {s : State}
    (hact : ∀ img s, s.Canonical → (act img s).Canonical) (h : s.Canonical) : Out.Canonical (startPacket q n mine act s) := by
  unfold startPacket
  split
  · exact .ite (.next h) (.next (actPacket_canonical hact h))
  · split
    · exact .next h
    next t ht => exact .next (readStart_stop_canonical h ht)
    next t img ht =>
      have hstarted := readStart_go_canonical h ht
      refine .ite (.next h) (.next ?_)
      split
      · exact hstarted
      · exact actPacket_canonical hact hstarted

theorem execNopk_canonical {q n : Nat} {s : State} (h : s.Canonical) : Out.Canonical (execNopk q n s) := by
  unfold execNopk
  exact startPacket_canonical (fun _ _ hx => hx) h

theorem execLaunch_canonical {q n : Nat} {s : State} (h : s.Canonical) : Out.Canonical (execLaunch q n s) := by
  unfold execLaunch
  refine startPacket_canonical (fun _ _ hx => ?_) h
  split
  · exact hx
  · exact foldl_canonical (fun _ _ hu => queueTeam_canonical hu) hx

theorem writeSignal_canonical {s : State} {pa : Nat} {value : Nat → Nat} {fromOld : Bool} (h : s.Canonical) :
    (s.writeSignal pa value fromOld).Canonical := by
  unfold State.writeSignal
  exact memWrite_canonical (intrude_canonical h)

theorem execSignal_canonical {q n : Nat} {s : State} (h : s.Canonical) : Out.Canonical (execSignal q n s) := by
  unfold execSignal
  refine startPacket_canonical (fun img t ht => ?_) h
  split
  · exact ht
  next hr => exact feReach_wait_canonical ht hr
  next u hr =>
    have hu : u.Canonical := feReach_denied_canonical ht hr
    exact .acted (malformPacket_canonical hu)
  · split
    · exact ht
    · exact .acted (packetDone_canonical (writeSignal_canonical ht))

theorem execCopy_canonical {q n engine : Nat} {s : State} (h : s.Canonical) : Out.Canonical (execCopy q n engine s) := by
  unfold execCopy
  refine startPacket_canonical (fun _ _ hx => ?_) h
  split
  · exact enqueue_canonical hx
  · exact hx

/-! ## BARRIER (R288) -/

theorem readSignal_canonical {s : State} {q n k : Nat} (h : s.Canonical) : (s.readSignal q n k).Canonical := by
  unfold State.readSignal
  split
  · exact h
  · dsimp only
    split
    · exact h
    · split
      · exact h
      next s hr => exact feReach_wait_canonical h hr
      next s hr =>
        have hs := feReach_denied_canonical h hr
        exact malformPacket_canonical hs
      · split
        next hr => exact .of_fst (readThrough_canonical h) hr
        next u bs hr =>
          have hu : u.Canonical := .of_fst (readThrough_canonical h) hr
          exact .ite hu (.ite (modStarted_canonical hu) (.ite (.ite hu (abortQueue_canonical (packetDone_canonical hu))) hu))

theorem readRound_canonical {s : State} {q n : Nat} (h : s.Canonical) : (s.readRound q n).Canonical := by
  unfold State.readRound
  extract_lets u
  have hu : u.Canonical := foldl_canonical (fun _ _ hv => readSignal_canonical hv) h
  clear_value u
  split
  · exact hu
  · exact .ite (packetDone_canonical hu) hu

theorem execBarrier_canonical {q n : Nat} {s : State} (h : s.Canonical) : Out.Canonical (execBarrier q n s) := by
  unfold execBarrier
  exact startPacket_canonical (fun _ _ ht => .acted (readRound_canonical ht)) h

theorem execBarrierSignalRead_canonical {q n : Nat} {s : State} (h : s.Canonical) :
    Out.Canonical (execBarrierSignalRead q n s) := by
  unfold execBarrierSignalRead
  split
  · split
    · exact .next (readRound_canonical h)
    · exact .next h
  · exact .next h

/-! ## Retirement (R287, R290, R448) -/

theorem advanceRead_canonical {s : State} {q : Nat} (h : s.Canonical) : (s.advanceRead q).Canonical := by
  unfold State.advanceRead
  extract_lets
  split
  · exact h
  · exact physWrite_canonical h

theorem retireSignal_go_canonical {s : State} {q : Nat} {p : Started} {status : Nat} {t : State} (h : s.Canonical)
    (ht : s.retireSignal q p status = .go t) : t.Canonical := by
  unfold State.retireSignal at ht
  dsimp only at ht
  split at ht
  · cases ht
    exact h
  · split at ht
    · cases ht
      exact h
    · split at ht
      · cases ht
      next s hr =>
        cases ht
      next s hr =>
        cases ht
      · split at ht
        · cases ht
        · cases ht
          exact modStarted_canonical (writeSignal_canonical h)

theorem retireSignal_stop_canonical {s : State} {q : Nat} {p : Started} {status : Nat} {t : State} (h : s.Canonical)
    (ht : s.retireSignal q p status = .stop t) : t.Canonical := by
  unfold State.retireSignal at ht
  dsimp only at ht
  split at ht
  · cases ht
  · split at ht
    · cases ht
    · split at ht
      · cases ht
      next s hr =>
        cases ht
        exact feReach_wait_canonical h hr
      next s hr =>
        cases ht
        have hs := feReach_denied_canonical h hr
        exact modStarted_canonical (modStarted_canonical hs)
      · split at ht
        · cases ht
          exact h
        · cases ht

theorem loseSlot_canonical {s : State} {q : Nat} {p : Started} (h : s.Canonical) : (s.loseSlot q p).Canonical := by
  unfold State.loseSlot
  dsimp only
  split
  · exact blockQueue_canonical h
  · exact setQueue_canonical (blockQueue_canonical h)

theorem retireRecord_some_canonical {s t : State} {q : Nat} {p : Started} {d : Nat × Nat × BitVec 32} (h : s.Canonical)
    (ht : s.retireRecord q p d = .some t) : t.Canonical := by
  unfold State.retireRecord at ht
  extract_lets va at ht
  split at ht
  · cases ht
  next hr =>
    cases ht
    exact feReach_wait_canonical h hr
  next hr =>
    cases ht
    exact loseSlot_canonical (feReach_denied_canonical h hr)
  · split at ht
    · cases ht
      exact h
    · extract_lets u v x w at ht
      have hw : w.Canonical := advanceRead_canonical (setQueue_canonical
        (unitDone_canonical (modStarted_canonical (memWrite_canonical (s := s) h))))
      clear_value w
      cases ht
      split
      · exact abortQueue_canonical hw
      · exact hw

theorem retirePacket_some_canonical {s t : State} {q : Nat} {p : Started} (h : s.Canonical) (ht : s.retirePacket q p = .some t) :
    t.Canonical := by
  unfold State.retirePacket at ht
  split at ht
  · cases ht
  · split at ht
    · exact retireRecord_some_canonical h ht
    · split at ht
      · cases ht
      next hr =>
        cases ht
        exact feReach_wait_canonical h hr
      next hr =>
        cases ht
        exact loseSlot_canonical (feReach_denied_canonical h hr)
      · split at ht
        · cases ht
        next hr =>
          cases ht
          exact retireSignal_stop_canonical h hr
        next hr =>
          cases ht
          have hgo := retireSignal_go_canonical h hr
          exact getD_canonical (fun _ hu => retireRecord_some_canonical hgo hu) hgo

theorem execPacketRetire_canonical {q n : Nat} {s : State} (h : s.Canonical) : Out.Canonical (execPacketRetire q n s) := by
  unfold execPacketRetire
  refine .ite (.next h) ?_
  split
  · refine .ite (.next h) ?_
    split
    · exact .next h
    next ht => exact .next (retirePacket_some_canonical (setQueue_canonical h) ht)
  · refine .ite ?_ (.ite (.next (getD_canonical (fun _ ht => vetQueue_some_canonical h ht) h)) (.next h))
    split
    · exact .next h
    next hr => exact .next (feReach_wait_canonical h hr)
    next hr => exact .next (blockQueue_canonical (feReach_denied_canonical h hr))
    · split
      next u hr => exact .next (.of_fst (packetAt_canonical h) hr)
      next u img hr =>
        have hu : u.Canonical := .of_fst (packetAt_canonical h) hr
        exact .next hu

/-! ## The typed buffers (R204) -/

theorem keepBuffers_canonical {s : State} {ctx core : Nat} (h : s.Canonical) : (s.keepBuffers ctx core).Canonical := by
  unfold State.keepBuffers
  split <;> exact h

theorem takeBuffers_canonical {s : State} {ctx core : Nat} {own : Option (Bank × Bank × Bank)} (h : s.Canonical) :
    (s.takeBuffers ctx core own).Canonical := by
  unfold State.takeBuffers
  extract_lets u c own' v x
  have hu : u.Canonical := drainLines_canonical h
  clear_value u
  have hv : v.Canonical := by
    unfold v
    split
    · exact keepBuffers_canonical hu
    · exact hu
  exact .ite (setCore_canonical hu) (setCore_canonical (setCtx_canonical hv))

theorem tidyBuffers_canonical {s : State} {ctx core : Nat} (h : s.Canonical) : (s.tidyBuffers ctx core).Canonical := by
  unfold State.tidyBuffers
  split <;> exact h

/-! ## Placement (R30, R38, R114, R116, R202) -/

theorem markHome_canonical {s : State} {t : Team} {core : Nat} (h : s.Canonical) : (s.markHome t core).Canonical := by
  unfold State.markHome
  split
  · split <;> exact h
  · exact h

theorem placeTeam_canonical {s : State} {key core : Nat} (h : s.Canonical) : (s.placeTeam key core).Canonical := by
  unfold State.placeTeam
  split
  · exact h
  · split
    · exact h
    · exact markHome_canonical (foldl_canonical (fun _ _ hu => hu) (.ite (takeBuffers_canonical h) h))

/-! ## Pre-emption (R34) -/

theorem chooseVictim_canonical {s : State} {gid : Nat} (h : s.Canonical) : (s.chooseVictim gid).Canonical := by
  unfold State.chooseVictim
  split
  · exact h
  · split
    · exact h
    · exact modGroup_canonical (.ite (withdraw_canonical h) h)

theorem leaveWhole_canonical {s : State} {key : Nat} (h : s.Canonical) : (s.leaveWhole key).Canonical := by
  unfold State.leaveWhole
  split
  · exact h
  · exact foldl_canonical (fun _ _ hu => chooseVictim_canonical hu) h

theorem pursue_canonical {s : State} {key core : Nat} {w : Without} (h : s.Canonical) : (s.pursue key core w).Canonical := by
  unfold State.pursue
  split
  · exact h
  · extract_lets
    split
    · exact leaveWhole_canonical h
    · exact chooseVictim_canonical h
    · exact h

theorem preempt_canonical {s : State} {key : Nat} (h : s.Canonical) : (s.preempt key).Canonical := by
  unfold State.preempt
  split
  · exact h
  · split
    · exact h
    · split
      · exact pursue_canonical h
      · exact h

/-! ## A try (R31) -/

theorem tryTeam_canonical {s : State} {key : Nat} (h : s.Canonical) : (s.tryTeam key).Canonical := by
  unfold State.tryTeam
  split
  · exact h
  · split
    · exact h
    · split
      · exact closeWaiting_canonical (placeTeam_canonical h)
      · exact preempt_canonical (closeWaiting_canonical h)

theorem tryAll_canonical {s : State} {ts : List (Nat × Team)} (h : s.Canonical) : (s.tryAll ts).Canonical := by
  unfold State.tryAll
  exact foldl_canonical (fun _ _ hu => tryTeam_canonical hu) h

/-! ## Eviction (R35) -/

theorem evictDiscard_some_canonical {s : State} {gid : Nat} {g : Group} {t : State} (h : s.Canonical)
    (ht : s.evictDiscard gid g = .some t) : t.Canonical := by
  unfold State.evictDiscard at ht
  split at ht
  · cases ht
  · split at ht
    · cases ht
      split
      · exact discard_canonical h
      · exact h
    · cases ht
      exact discard_canonical h
    · cases ht
      exact discard_canonical h
    · cases ht
      exact discardParked_canonical h
    · dsimp only at ht
      cases ht
      exact h
    · cases ht
      exact h

theorem finishLeave_canonical {s : State} {key : Nat} (h : s.Canonical) : (s.finishLeave key).Canonical := by
  unfold State.finishLeave
  split
  · exact h
  · extract_lets
    split
    · exact h
    · split
      · split
        · exact h
        · exact tidyBuffers_canonical (drainLines_canonical h)
      · exact h

theorem carryTeams_canonical {s : State} {core : Nat} {keys : List Nat} (h : s.Canonical) :
    (s.carryTeams core keys).Canonical := by
  induction keys generalizing s with
  | nil => exact h
  | cons key rest ih =>
    unfold State.carryTeams
    split
    · exact ih h
    split_ifs
    · exact ih h
    · exact h
    · exact ih (closeWaiting_canonical (placeTeam_canonical h))
    · exact h
    · split
      · exact pursue_canonical h
      · exact ih h

/-! ## Resumption (R36) -/

theorem seatGroup_canonical {s : State} {gid core reg slot : Nat} (h : s.Canonical) :
    (s.seatGroup gid core reg slot).Canonical := by
  unfold State.seatGroup
  exact modGroup_canonical h

theorem resumeAlone_some_canonical {s u : State} {gid : Nat} {g : Group} {t : Team} {core : Nat} (h : s.Canonical)
    (hu : s.resumeAlone gid g t core = .some u) : u.Canonical := by
  unfold State.resumeAlone at hu
  extract_lets n at hu
  split at hu
  · cases hu
  · obtain ⟨f, -, rfl⟩ := Option.map_eq_some_iff.mp hu
    exact seatGroup_canonical (.ite (takeBuffers_canonical h) h)

theorem resumeWhole_some_canonical {s u : State} {key : Nat} {t : Team} {old : Nat} {scratch : Bank} (h : s.Canonical)
    (hu : s.resumeWhole key t old scratch = .some u) : u.Canonical := by
  unfold State.resumeWhole at hu
  extract_lets gs n seen at hu
  split at hu
  · cases hu
  · split at hu
    · cases hu
    · obtain ⟨f, -, rfl⟩ := Option.map_eq_some_iff.mp hu
      have hbuf {core : Nat} : (if t.shape.tbuf then (s.drainLines old seen).takeBuffers t.ctx core t.bufs
          else s.drainLines old seen).Canonical := .ite (takeBuffers_canonical (drainLines_canonical h)) (drainLines_canonical h)
      exact foldl_canonical (fun _ _ hv => seatGroup_canonical hv) (setTeam_canonical (setCore_canonical hbuf))

/-! ## Placement, eviction, resumption (R31, R34 to R36) -/

theorem execTeamPlacementTry_canonical {s : State} (h : s.Canonical) : Out.Canonical (execTeamPlacementTry s) := by
  unfold execTeamPlacementTry
  extract_lets
  split
  · exact .next (tryAll_canonical h)
  · split
    · exact .next h
    · exact .next (tryAll_canonical h)

theorem stranded_canonical {s : State} {key core : Nat} (h : s.Canonical) : (s.stranded key core).Canonical := by
  unfold State.stranded
  split
  · exact h
  · split
    · extract_lets
      split
      · exact h
      · exact raiseManaged_canonical h
    · exact h

theorem strandAll_canonical {s : State} {core : Nat} (h : s.Canonical) : (s.strandAll core).Canonical := by
  unfold State.strandAll
  exact foldl_canonical (fun _ _ hu => stranded_canonical hu) h

theorem afterLeave_canonical {s : State} {g : Group} (h : s.Canonical) : (s.afterLeave g).Canonical := by
  unfold State.afterLeave
  exact carryTeams_canonical (stranded_canonical (finishLeave_canonical h))

theorem execGroupEviction_canonical {gid : Nat} {s : State} (h : s.Canonical) : Out.Canonical (execGroupEviction gid s) := by
  unfold execGroupEviction
  split
  · exact .next h
  · extract_lets
    split
    · exact .next (afterLeave_canonical h)
    · split
      · exact .next (chooseVictim_canonical h)
      · split
        · exact .next h
        · split
          · exact .next (carryTeams_canonical h)
          next s hr => exact .next (afterLeave_canonical (modGroup_canonical (evictDiscard_some_canonical h hr)))

theorem execGroupResume_canonical {gid : Nat} {s : State} (h : s.Canonical) : Out.Canonical (execGroupResume gid s) := by
  unfold execGroupResume
  split
  · exact .next h
  · refine .ite (.next h) ?_
    split
    · exact .next h
    · extract_lets r
      have hr : ∀ u, r = some u → u.Canonical := by
        intro u hu
        unfold r at hu
        split at hu
        · exact resumeAlone_some_canonical h hu
        · exact resumeWhole_some_canonical h hu
        · cases hu
      clear_value r
      split
      · exact .next (hr _ rfl)
      · exact .next h

theorem execGroupDrained_canonical {gid : Nat} {s : State} (h : s.Canonical) : Out.Canonical (execGroupDrained gid s) := by
  unfold execGroupDrained
  split
  · exact .next h
  · split
    · exact .next h
    next g _ t _ =>
      extract_lets unwritten mine u v t' w x y die
      have hw : w.Canonical := finishLeave_canonical (setTeam_canonical (s := v) (dropEarly_canonical (endTenures_canonical h)))
      clear_value w
      have hx : x.Canonical := by
        unfold x
        split
        · exact settlePanel_canonical (leavePanel_canonical hw)
        · exact hw
      exact .ite (.next h) (.next (carryTeams_canonical (tryAll_canonical (gridDown_canonical hx))))

/-! ## The issue cycle (R32) -/

theorem firstIssue_canonical {s : State} {gid : Nat} (h : s.Canonical) : (s.firstIssue gid).Canonical := by
  unfold State.firstIssue
  split
  · exact h
  · split <;> exact h

theorem issueCore_canonical {s : State} {now core : Nat} (h : s.Canonical) : (s.issueCore now core).Canonical := by
  unfold State.issueCore
  exact foldl_canonical (fun _ _ hu => releaseYields_canonical hu) (foldl_canonical (fun _ _ hu => firstIssue_canonical hu) h)

theorem execIssueCycle_canonical {die : Nat} {s : State} (h : s.Canonical) : Out.Canonical (execIssueCycle die s) := by
  unfold execIssueCycle
  extract_lets
  split
  · exact .next h
  · exact .next (.ite (noteFirmware_canonical (noteStartable_canonical (foldl_canonical
      (fun _ _ hu => issueCore_canonical hu) h))) (foldl_canonical (fun _ _ hu => issueCore_canonical hu) h))

theorem execBoundaryIssue_canonical {gid : Nat} {s : State} (h : s.Canonical) : Out.Canonical (execBoundaryIssue gid s) := by
  unfold execBoundaryIssue
  split
  · exact .next h
  · split
    · exact .next (close_canonical h)
    · split
      · exact .next (firstIssue_canonical h)
      · split
        · exact .next (settleDying_canonical h)
        · exact .next h

theorem execSyscallRingSlotFree_canonical {gid : Nat} {s : State} (h : s.Canonical) :
    Out.Canonical (execSyscallRingSlotFree gid s) := by
  unfold execSyscallRingSlotFree
  split
  · exact .next h
  · split
    · exact .next (firstIssue_canonical h)
    · exact .next h

end Sys2Proof.Machine
end

section
/-!
PROOF. The canonical form under stops, repair and what comes from outside.
-/
namespace Sys2Proof.Machine

/-! ## Stop records (R398, R399) -/

theorem putStop_canonical {s : State} {ctx : Nat} {r : StopRec} {frames : List Frame} (h : s.Canonical) :
    (s.putStop ctx r frames).Canonical := by
  unfold State.putStop
  extract_lets
  split
  · exact .ite h (.ite h h)
  · exact foldl_canonical (fun _ _ hu => physWrite_canonical hu) (physWrite_canonical (.ite h (.ite h h)))

theorem logBox_canonical {s : State} {die event kind ctx : Nat} {agent addr : W64} {data : BitVec 256} (h : s.Canonical) :
    (s.logBox die event kind ctx agent addr data).Canonical := h

/-! ## Halting (R396) -/

theorem haltCore_canonical {s : State} {ctx core : Nat} (h : s.Canonical) : (s.haltCore ctx core).Canonical := by
  unfold State.haltCore
  exact foldl_canonical (fun _ _ hu => putStop_canonical hu) (drainLines_canonical h)

theorem cutPass_canonical {s : State} {o : TileOp} (h : s.Canonical) : (s.cutPass o).Canonical := by
  unfold State.cutPass
  split
  · exact h
  · exact drainLines_canonical h

theorem haltMatrix_canonical {s : State} {ctx n : Nat} (h : s.Canonical) : (s.haltMatrix ctx n).Canonical := by
  unfold State.haltMatrix
  extract_lets
  split
  · exact putStop_canonical (foldl_canonical (fun _ _ hu => cutPass_canonical hu) h)
  · exact foldl_canonical (fun _ _ hu => cutPass_canonical hu) h

theorem haltCopies_canonical {s : State} {ctx n : Nat} (h : s.Canonical) : (s.haltCopies ctx n).Canonical := by
  unfold State.haltCopies
  extract_lets e x own cause running found holds recs stop queued u v ended
  have hu : u.Canonical := foldl_canonical (fun _ _ ha => copyRelease_canonical ha) h
  clear_value u
  have hv : (v.dropWaiters ctx ended).Canonical := hu
  exact foldl_canonical (fun _ _ ha => putStop_canonical ha) hv

theorem haltSeam_canonical {s : State} {ctx die : Nat} (h : s.Canonical) : (s.haltSeam ctx die).Canonical := by
  unfold State.haltSeam
  extract_lets
  split
  · exact h
  · exact putStop_canonical h

/-! ## The queues of a stopped context (R290) -/

theorem stopPacket_error_canonical {s t : State} {q n : Nat} {img : BitVec 512} (h : s.Canonical)
    (ht : s.stopPacket q n img = .error t) : t.Canonical := by
  unfold State.stopPacket at ht
  split at ht
  next hr =>
    cases ht
    exact endingReach_wait_canonical h hr
  · cases ht
  · cases ht
  · extract_lets sig at ht
    have hsig : ∀ u, sig = .wait u → u.Canonical := by
      intro u hu
      unfold sig at hu
      split at hu
      · exact endingReach_wait_canonical h hu
      · cases hu
    clear_value sig
    split at ht
    · cases ht
      exact hsig _ rfl
    · split at ht
      · cases ht
        exact h
      · cases ht
    · split at ht
      · cases ht
        exact h
      · cases ht

theorem stopPacket_ok_canonical {s t : State} {q n : Nat} {img : BitVec 512} {b : Bool} (h : s.Canonical)
    (ht : s.stopPacket q n img = .ok (t, b)) : t.Canonical := by
  unfold State.stopPacket at ht
  split at ht
  · cases ht
  · cases ht
    exact h
  · cases ht
    exact h
  · extract_lets sig at ht
    clear_value sig
    split at ht
    · cases ht
    · split at ht
      · cases ht
      · cases ht
        exact memWrite_canonical (writeSignal_canonical h)
    · split at ht
      · cases ht
      · cases ht
        exact memWrite_canonical h

theorem stopPackets_canonical {fuel q : Nat} {s : State} (h : s.Canonical) : (s.stopPackets q fuel).state.Canonical := by
  induction fuel generalizing s with
  | zero => exact h
  | succ fuel ih =>
    unfold State.stopPackets
    extract_lets x
    split
    · split
      next hr => exact stopPacket_error_canonical h hr
      next hr => exact stopPacket_ok_canonical h hr
      next hr => exact ih (advanceRead_canonical (modStarted_canonical (stopPacket_ok_canonical h hr)))
    · split
      · exact h
      · split
        next hr => exact endingReach_wait_canonical h hr
        · exact h
        · exact h
        · split
          next u hr => exact .of_fst (packetAt_canonical h) hr
          next u img hr =>
            have hu : u.Canonical := .of_fst (packetAt_canonical h) hr
            exact ih (setQueue_canonical hu)

theorem stopQueue_canonical {s : State} {q : Nat} (h : s.Canonical) : (s.stopQueue q).state.Canonical := by
  unfold State.stopQueue
  split
  · exact h
  · extract_lets x v
    have hu : v.Canonical := setQueue_canonical (abortQueue_canonical h)
    have hend := stopPackets_canonical (fuel := 2 * (16 + v.queueSize q) + 1) (q := q) hu
    clear_value v
    generalize v.stopPackets q (2 * (16 + v.queueSize q) + 1) = e at hend ⊢
    cases e with
    | done w => exact unitDone_canonical hend
    | wait w => exact hend

theorem stopQueues_canonical {s : State} {qs : List Nat} (h : s.Canonical) : (s.stopQueues qs).state.Canonical := by
  induction qs generalizing s with
  | nil => exact h
  | cons q rest ih =>
    have hq := stopQueue_canonical (q := q) h
    unfold State.stopQueues
    split
    next hr =>
      rw [hr] at hq
      exact hq
    next hr =>
      rw [hr] at hq
      exact ih hq

/-! ## Walks and answers (R213, R214, R294) -/

theorem execWalkComplete_canonical {walk : Nat} {s : State} (h : s.Canonical) : Out.Canonical (execWalkComplete walk s) := by
  unfold execWalkComplete
  split
  · exact .next h
  · split
    · exact .next (walkRecall_canonical h)
    · split
      · exact .next (endWalk_canonical h)
      · exact .next h

theorem answerGroup_canonical {s : State} {f : FaultRec} {gid : Nat} {wr retry : Bool} (h : s.Canonical) :
    (s.answerGroup f gid wr retry).Canonical := by
  unfold State.answerGroup
  extract_lets seq u
  have hu : u.Canonical := by
    unfold u
    split
    · exact h
    · exact .ite (setCtx_canonical h) h
  exact resolveFaults_canonical (modGroup_canonical hu)

theorem denyCopy_canonical {s : State} {engine id : Nat} (h : s.Canonical) : (s.denyCopy engine id).Canonical := by
  unfold State.denyCopy
  extract_lets
  split
  · exact h
  · split
    · refine copyRelease_canonical ?_
      split
      · exact strayAfter_canonical h
      · exact h
    · exact h

theorem denyWaiter_canonical {s : State} {f : FaultRec} {w : Waiter} (h : s.Canonical) : (s.denyWaiter f w).Canonical := by
  unfold State.denyWaiter
  split
  · exact answerGroup_canonical h
  · split
    · exact h
    · split
      · exact h
      · extract_lets
        split
        · exact h
        · exact raiseFault_canonical h
  · exact denyCopy_canonical h
  · exact h
  · exact worldError_canonical h
  iterate 4
    · exact h

theorem retryWaiter_canonical {s : State} {f : FaultRec} {w : Waiter} (h : s.Canonical) : (s.retryWaiter f w).Canonical := by
  unfold State.retryWaiter
  split
  · exact answerGroup_canonical h
  · exact h
  · exact h

theorem answerRecord_canonical {want : Nat} {act : State → FaultRec → State} {ctx slot : Nat} {s : State}
    (hact : ∀ s f, s.Canonical → (act s f).Canonical) (h : s.Canonical) : Out.Canonical (answerRecord want act ctx slot s) := by
  unfold answerRecord
  split
  · exact .next h
  · split
    · exact .next h
    · exact .next (hact _ _ (setCtx_canonical h))

theorem execFaultRetry_canonical {ctx slot : Nat} {s : State} (h : s.Canonical) :
    Out.Canonical (execFaultRetry ctx slot s) := by
  unfold execFaultRetry
  exact answerRecord_canonical (fun _ _ hx => foldl_canonical (fun _ _ hu => retryWaiter_canonical hu) hx) h

theorem execFaultDeny_canonical {ctx slot : Nat} {s : State} (h : s.Canonical) : Out.Canonical (execFaultDeny ctx slot s) := by
  unfold execFaultDeny
  exact answerRecord_canonical (fun _ _ hx => foldl_canonical (fun _ _ hu => denyWaiter_canonical hu) hx) h

/-! ## Discards and errors (R49, R50, R392) -/

theorem execRegionDiscard_canonical {gid : Nat} {s : State} (h : s.Canonical) : Out.Canonical (execRegionDiscard gid s) := by
  unfold execRegionDiscard
  split
  · exact .next h
  · split
    · split
      · exact .next h
      · extract_lets
        split
        · exact .next (discard_canonical h)
        · split
          · exact .next (discard_canonical h)
          · split
            · exact .next (startDiscard_canonical (discard_canonical h))
            · exact .next (resolveFaults_canonical (discard_canonical h))
    · split
      · exact .next h
      · exact .next (discardParked_canonical h)
    · exact .next h

theorem detectedError_some_canonical {s : State} {gid : Nat} {g : Group} {t : State} (h : s.Canonical)
    (ht : s.detectedError gid g = .some t) : t.Canonical := by
  unfold State.detectedError at ht
  split at ht
  · cases ht
  · split at ht
    · split at ht
      · cases ht
        exact startDiscard_canonical h
      · cases ht
        exact h
    · cases ht
      exact startDiscard_canonical h
    · cases ht
      exact startDiscard_canonical h
    · cases ht
      exact startDiscard_canonical h
    · cases ht
      exact h
    · split at ht
      · cases ht
        exact discardParked_canonical h
      · cases ht
        exact h
    · cases ht
    · cases ht
    · cases ht
      exact h

theorem execRecoverableError_canonical {gid : Nat} {s : State} (h : s.Canonical) :
    Out.Canonical (execRecoverableError gid s) := by
  unfold execRecoverableError
  split
  · exact .next h
  · split
    next hr =>
      have ht := detectedError_some_canonical h hr
      exact .next ht
    · exact .next h

theorem spoilDirty_canonical {s : State} {hit : Nat → Nat → Bool} (h : s.Canonical) : (s.spoilDirty hit).Canonical :=
  foldl_keeps (fun b : Bank => b.wf = true) _ (fun _ _ hb => bankMark_wf _ _ hb) _ _ h

theorem purgeTenure_canonical {s : State} {t : Tenure} (h : s.Canonical) : (s.purgeTenure t).Canonical := by
  unfold State.purgeTenure
  extract_lets u
  have hu : u.Canonical := .ite (spoilDirty_canonical h) h
  exact hu

theorem spoil_some_canonical {s t : State} {loc : ErrLoc} {die : Nat} (h : s.Canonical) (ht : s.spoil loc = some (t, die)) :
    t.Canonical := by
  unfold State.spoil at ht
  split at ht
  case h_1 =>
    split at ht
    · cases ht
    · cases ht
      exact bankSpoil_wf _ _ h
  case h_2 =>
    split at ht
    · cases ht
    · cases ht
      exact h
  case h_3 =>
    extract_lets sp at ht
    split at ht
    · cases ht
    · cases ht
      exact h
  case h_4 =>
    split at ht
    · cases ht
    · obtain ⟨u, hu, heq⟩ := Option.map_eq_some_iff.mp ht
      have hdet : u.Canonical := detectedError_some_canonical h hu
      cases heq
      exact hdet
  case h_5 =>
    split at ht
    · cases ht
    · split at ht
      · cases ht
      · cases ht
        exact h
  case h_6 =>
    split at ht
    · cases ht
    · split at ht
      · cases ht
      · cases ht
        exact .ite h (killLanes_canonical h)
  case h_7 =>
    cases ht
    exact raiseManaged_canonical h
  case h_8 =>
    split at ht
    · cases ht
    · cases ht
      exact purgeTenure_canonical h
  case h_9 =>
    split at ht
    · cases ht
      exact h
    · cases ht
  case h_10 =>
    cases ht
    exact h

theorem execUncorrectableError_canonical {loc : ErrLoc} {s : State} (h : s.Canonical) :
    Out.Canonical (execUncorrectableError loc s) := by
  unfold execUncorrectableError
  split
  · exact .next h
  next t die hr =>
    have ht := spoil_some_canonical h hr
    exact .next (logBox_canonical ht)

/-! ## The timeout of an invalidation (R215) -/

theorem execInvalidationTimeout_canonical {gid : Nat} {s : State} (h : s.Canonical) :
    Out.Canonical (execInvalidationTimeout gid s) := by
  unfold execInvalidationTimeout
  split
  · extract_lets die late u
    have hu : u.Canonical := h
    exact .ite (.next (startDiscard_canonical (setGroup_canonical hu))) (.next h)
  · exact .next h

/-! ## The stop line (R394 to R398) -/

theorem execStopLineRaise_canonical {s : State} (h : s.Canonical) : Out.Canonical (execStopLineRaise s) := by
  unfold execStopLineRaise
  split
  · exact .next h
  · split
    · exact .next h
    · exact .next (.ite (putStop_canonical h) h)

theorem execEngineHalt_canonical {ctx engine : Nat} {s : State} (h : s.Canonical) :
    Out.Canonical (execEngineHalt ctx engine s) := by
  unfold execEngineHalt
  extract_lets
  split
  · exact .next h
  · refine .next (.ite (haltCore_canonical h) ?_)
    split
    · exact putStop_canonical h
    · split
      · exact haltMatrix_canonical h
      · split
        · exact haltCopies_canonical h
        · exact haltSeam_canonical h

theorem putSummary_canonical {s : State} {ctx : Nat} (h : s.Canonical) : (s.putSummary ctx).Canonical := by
  unfold State.putSummary
  extract_lets x kind die seq total r u
  have hu : u.Canonical := physWrite_canonical h
  exact logBox_canonical (setCtx_canonical hu)

theorem stopRest_canonical {s : State} {ctx : Nat} (h : s.Canonical) : (s.stopRest ctx).Canonical := by
  unfold State.stopRest
  extract_lets u x extra v c w ends y worlds
  have hv : v.Canonical := foldl_canonical (fun _ _ hv => putStop_canonical hv) (endTenures_canonical h)
  clear_value v
  have hy : y.Canonical := hv
  exact foldl_canonical (fun _ _ hv => worldError_canonical hv) hy

theorem execStopCompletion_canonical {ctx : Nat} {s : State} (h : s.Canonical) : Out.Canonical (execStopCompletion ctx s) := by
  unfold execStopCompletion
  split
  · exact .next h
  · have hq := stopQueues_canonical (qs := s.queuesOf ctx) (stopRest_canonical (ctx := ctx) h)
    split
    next hr =>
      rw [hr] at hq
      exact .next hq
    next hr =>
      rw [hr] at hq
      exact .next (putSummary_canonical hq)

/-! ## Errors that are corrected, and sparing (R381, R401, R404, R405) -/

theorem execCorrectedError_canonical {loc : CorrLoc} {s : State} (h : s.Canonical) :
    Out.Canonical (execCorrectedError loc s) := by
  unfold execCorrectedError
  split
  · split <;> exact .next h
  · exact .next h

theorem execRowSpare_canonical {stack bank row : Nat} {s : State} (h : s.Canonical) :
    Out.Canonical (execRowSpare stack bank row s) := by
  unfold execRowSpare
  extract_lets k used errors frames u v
  have hu : u.Canonical := h
  have hv : v.Canonical := h
  exact .ite (.next h) (.ite (.next (logBox_canonical hu)) (.next (foldl_canonical (fun _ _ hw => logBox_canonical hw) hv)))

/-! ## READY (R412) -/

theorem setReady_canonical {s : State} {bit : Nat} {up : Bool} (h : s.Canonical) : (s.setReady bit up).Canonical := h

theorem testCores_canonical {s : State} {d : Nat} (h : s.Canonical) : (s.testCores d).Canonical := h

theorem execSelfTestComplete_canonical {bit : Nat} {s : State} (h : s.Canonical) :
    Out.Canonical (execSelfTestComplete bit s) := by
  unfold execSelfTestComplete
  exact .ite (.next h) (.next (setReady_canonical (.ite (testCores_canonical h) h)))

theorem setPort_canonical {s : State} {n : Nat} {p : Port} (h : s.Canonical) : (s.setPort n p).Canonical := h

theorem execLinkTraining_canonical {bit : Nat} {up : Bool} {peer : BitVec 32} {s : State} (h : s.Canonical) :
    Out.Canonical (execLinkTraining bit up peer s) := by
  unfold execLinkTraining
  extract_lets n p
  exact .ite (.ite (.next h) (.next (setReady_canonical h)))
    (.ite (.next h) (.ite (.next h) (.next (setReady_canonical (setPort_canonical h)))))

/-! ## Dead links (R405) -/

theorem flood_canonical {s : State} {port : Nat} {lsn : BitVec 16} (h : s.Canonical) : (s.flood port lsn).Canonical := h

theorem killLink_canonical {s : State} {port failures : Nat} (h : s.Canonical) : (s.killLink port failures).Canonical :=
  logBox_canonical (flood_canonical (setReady_canonical (setPort_canonical h)))

theorem execLinkDead_canonical {port : Nat} {s : State} (h : s.Canonical) : Out.Canonical (execLinkDead port s) := by
  unfold execLinkDead
  extract_lets p
  exact .ite (.next h) (.next (killLink_canonical h))

theorem execFabricLaneSpare_canonical {port replayed : Nat} {s : State} (h : s.Canonical) :
    Out.Canonical (execFabricLaneSpare port replayed s) := by
  unfold execFabricLaneSpare
  extract_lets p frpl
  exact .ite (.next h) (.ite (.next (killLink_canonical h)) (.next (logBox_canonical (setPort_canonical h))))

theorem execLinkStateUpdate_canonical {port lsn : Nat} {s : State} (h : s.Canonical) :
    Out.Canonical (execLinkStateUpdate port lsn s) := by
  unfold execLinkStateUpdate
  extract_lets
  split <;> exact .next h

theorem failPeer_canonical {s : State} {n : Nat} (h : s.Canonical) : (s.failPeer n).Canonical := by
  unfold State.failPeer
  extract_lets
  split <;> exact h

theorem peerReached_canonical {s : State} {n : BitVec 32} (h : s.Canonical) : (s.peerReached n).2.Canonical := by
  unfold State.peerReached
  extract_lets up
  split
  · exact h
  · split <;> exact h

theorem execDrainRound_canonical {port : Nat} {s : State} (h : s.Canonical) : Out.Canonical (execDrainRound port s) := by
  unfold execDrainRound
  extract_lets p now u r
  have hu : u.Canonical := h
  have hr : r.2.Canonical := peerReached_canonical hu
  exact .ite (.next h) (.ite (.next hu) (.next (.ite hr (failPeer_canonical hr))))

/-! ## Retirement (R402, R403, R409) -/

theorem retireCore_canonical {s : State} {core : Nat} (h : s.Canonical) : (s.retireCore core).Canonical := by
  unfold State.retireCore
  exact strandAll_canonical (foldl_canonical (fun _ _ hu => leaveWhole_canonical hu) h)

theorem retireNow_canonical {s : State} {code : Nat} {failed : Bool} {act : State → State}
    (hact : ∀ s, s.Canonical → (act s).Canonical) (h : s.Canonical) : (s.retireNow code failed act).Canonical := by
  unfold State.retireNow
  exact .ite (hact _ h) (.ite h h)

theorem execCoreRetirement_canonical {core : Nat} {s : State} (h : s.Canonical) : Out.Canonical (execCoreRetirement core s) := by
  unfold execCoreRetirement
  exact .ite (.next h) (.next (retireNow_canonical (fun _ hu => retireCore_canonical hu) h))

theorem execQuadSpare_canonical {core : Nat} {s : State} (h : s.Canonical) : Out.Canonical (execQuadSpare core s) := by
  unfold execQuadSpare
  extract_lets
  split
  · exact .next h
  · split
    · exact execCoreRetirement_canonical h
    · split <;> exact .next h

theorem sparingDone_canonical {core : Nat} {s : State} (h : s.Canonical) : Out.Canonical (sparingDone core s) := by
  unfold sparingDone
  split
  · exact .next h
  · exact .next (.ite h (.ite h h))

theorem withdrawAll_canonical {s : State} {n : Nat} (h : s.Canonical) : (s.withdrawAll n).Canonical := by
  unfold State.withdrawAll
  exact settleClears_canonical (foldl_canonical (fun _ _ hu => finishTile_canonical (modGroup_canonical hu)) h)

theorem loseAgent_canonical {s : State} {ctxs : List Nat} {code agent inc die : Nat} (h : s.Canonical) :
    (s.loseAgent ctxs code agent inc die).Canonical := by
  unfold State.loseAgent
  exact foldl_canonical (fun _ _ hu => (raiseManaged_canonical hu)) h

theorem retireMatrix_canonical {s : State} {n : Nat} {failed : Bool} (h : s.Canonical) :
    (s.retireMatrix n failed).Canonical := by
  unfold State.retireMatrix
  extract_lets e ctxs u c v keys count
  have hu : u.Canonical := withdrawAll_canonical h
  clear_value u
  have hv : v.Canonical := .ite (loseAgent_canonical (settleClears_canonical (s := State.setMatrix u n _) hu)) hu
  clear_value v
  exact logBox_canonical (strandAll_canonical (foldl_canonical (fun _ _ ha => leaveWhole_canonical ha) hv))

theorem retireCopy_canonical {s : State} {n : Nat} (h : s.Canonical) : (s.retireCopy n).Canonical := by
  unfold State.retireCopy
  exact foldl_canonical (fun _ _ hu => retireCore_canonical hu) h

theorem execEngineRetirement_canonical {isCopy failed : Bool} {engine : Nat} {s : State} (h : s.Canonical) :
    Out.Canonical (execEngineRetirement isCopy failed engine s) := by
  unfold execEngineRetirement
  extract_lets
  exact .ite (.next h) (.next (.ite (retireNow_canonical (fun _ hu => retireCopy_canonical hu) h)
    (retireNow_canonical (fun _ hu => retireMatrix_canonical hu) h)))

theorem dueRetirement_canonical {key : Nat} {s : State} (h : s.Canonical) : Out.Canonical (dueRetirement key s) := by
  unfold dueRetirement
  extract_lets
  split
  · exact execCoreRetirement_canonical h
  · split <;> exact execEngineRetirement_canonical h

/-! ## Failure and rejoin (R406, R407) -/

theorem wipeGroups_canonical {s : State} {cores : Nat → Bool} (h : s.Canonical) : (s.wipeGroups cores).Canonical := by
  unfold State.wipeGroups
  exact foldl_canonical (fun _ _ hu => hu) h

theorem purgeCores_canonical {s : State} {cores : Nat → Bool} (h : s.Canonical) : (s.purgeCores cores).Canonical := by
  unfold State.purgeCores
  exact foldl_canonical (fun _ _ hu => purgeTenure_canonical hu) h

theorem loseL2_canonical {s : State} {d : Nat} (h : s.Canonical) : (s.loseL2 d).Canonical := by
  unfold State.loseL2
  extract_lets mine v
  have hv : v.Canonical := h
  refine foldl_canonical (fun u kv hu => ?_) hv
  extract_lets c
  have hc : c.2.Canonical := hu
  clear_value c
  split
  · exact hc
  · refine foldl_keeps (fun b : Bank => b.wf = true) _ (fun b i hb => ?_) _ _ hc
    split
    · exact bankMark_wf _ _ hb
    · exact hb

theorem loseCopies_canonical {s : State} {d : Nat} (h : s.Canonical) : (s.loseCopies d).Canonical :=
  foldl_keeps (fun b : Bank => b.wf = true) _ (fun _ _ hb => bankMark_wf _ _ (bankPut_wf _ _ hb)) _ _ h

theorem setDie_canonical {s : State} {d : Nat} {x : Die} (h : s.Canonical) : (s.setDie d x).Canonical := h

theorem loseDie_canonical {s : State} {d : Nat} (h : s.Canonical) : (s.loseDie d).Canonical := by
  unfold State.loseDie
  extract_lets u v x w here lost
  have hu : u.Canonical := loseL2_canonical (loseCopies_canonical h)
  have hv : v.Canonical := foldl_canonical (fun _ _ ha => setCore_canonical ha) hu
  have hw : w.Canonical := setDie_canonical hv
  clear_value w
  exact .of_mem (s := w) rfl hw

theorem failCore_canonical {s : State} {n : Nat} (h : s.Canonical) : (s.failCore n).Canonical := by
  unfold State.failCore
  extract_lets on ctxs inc u v
  have hp : (s.purgeCores on).Canonical := purgeCores_canonical h
  have hhalt : ((s.purgeCores on).haltOn on).Canonical := wipeGroups_canonical hp
  have hv : v.Canonical := setCore_canonical hhalt
  clear_value v
  exact logBox_canonical (strandAll_canonical (loseAgent_canonical hv))

theorem keepRecords_canonical {s : State} {d : Nat} (h : s.Canonical) : (s.keepRecords d).Canonical := by
  unfold State.keepRecords
  exact foldl_canonical (fun _ _ hu => hu) h

theorem failDie_canonical {s : State} {d : Nat} (h : s.Canonical) : (s.failDie d).Canonical := by
  unfold State.failDie
  extract_lets on worlds ctxs inc cores used lost logs u v w x y z
  have hu : u.Canonical := spoilDirty_canonical (purgeCores_canonical h)
  have hhalt : (State.haltOn (u.keepRecords d) on).Canonical := wipeGroups_canonical (keepRecords_canonical hu)
  have hv : v.Canonical := loseDie_canonical hhalt
  have hw : w.Canonical := foldl_canonical (fun _ _ ha => setReady_canonical ha) hv
  have hx : x.Canonical := loseAgent_canonical hw
  have hy : y.Canonical := foldl_canonical (fun _ _ ha => setCtx_canonical ha) hx
  have hz : z.Canonical := strandAll_canonical hy
  exact foldl_canonical (fun _ _ ha => logBox_canonical ha) hz

theorem spoilHalf_canonical {s : State} {half : Nat} (h : s.Canonical) : (s.spoilHalf half).Canonical := by
  unfold State.spoilHalf
  refine foldl_canonical (fun u a hu => ?_) h
  have hmarked : (bankMark u.draw.2.mem a true).wf = true := bankMark_wf _ _ hu
  exact .ite hmarked hu

theorem execFailureDeclaration_canonical {agent : Agent} {s : State} (h : s.Canonical) :
    Out.Canonical (execFailureDeclaration agent s) := by
  unfold execFailureDeclaration
  split
  · split
    · exact .next h
    · exact .next (failCore_canonical h)
  · split
    · exact .next h
    · exact .next (failDie_canonical h)
  · exact .next (failPeer_canonical h)
  · split
    · exact .next h
    · exact .next (foldl_canonical (fun _ _ hu => spoilHalf_canonical hu) h)

theorem rejoinCore_canonical {s : State} {n : Nat} (h : s.Canonical) : (s.rejoinCore n).Canonical :=
  logBox_canonical (setCore_canonical h)

theorem execAgentRejoin_canonical {agent : Agent} {s : State} (h : s.Canonical) : Out.Canonical (execAgentRejoin agent s) := by
  unfold execAgentRejoin
  split
  · exact .ite (.next h) (.next (rejoinCore_canonical h))
  · extract_lets x u v
    have hu : u.Canonical := restartClock_canonical (setDie_canonical h)
    clear_value u
    have hv : v.Canonical := foldl_canonical (fun _ _ ha => rejoinCore_canonical ha) hu
    exact .ite (.next h) (.next (logBox_canonical hv))
  · exact .ite (.next h) (.next (logBox_canonical h))
  · exact .ite (.next h) (.next (logBox_canonical h))

/-! ## Power (R14, R406, R421) -/

theorem powerDown_canonical {s : State} {d : Nat} (h : s.Canonical) : (s.powerDown d).Canonical := by
  unfold State.powerDown
  extract_lets u v w c x y
  have hu : u.Canonical := foldl_canonical (fun _ _ ha => setReady_canonical ha) h
  clear_value u
  have hv : v.Canonical := foldl_canonical (fun _ _ ha => setReady_canonical (setPort_canonical ha)) hu
  clear_value v
  have hw : w.Canonical := logBox_canonical hv
  have hy : y.Canonical := wipeGroups_canonical (s := x) hw
  clear_value y
  exact hy

theorem execDiePowerLoss_canonical {die : Nat} {s : State} (h : s.Canonical) : Out.Canonical (execDiePowerLoss die s) := by
  unfold execDiePowerLoss
  split
  · exact .next h
  · exact .next (powerDown_canonical h)

theorem execThermalTrip_canonical {die : Nat} {s : State} (h : s.Canonical) : Out.Canonical (execThermalTrip die s) := by
  unfold execThermalTrip
  split
  · exact .next h
  · exact .next (powerDown_canonical h)

theorem execPowerRestored_canonical {die : Nat} {s : State} (h : s.Canonical) : Out.Canonical (execPowerRestored die s) := by
  unfold execPowerRestored
  extract_lets
  split
  · exact .next h
  · exact .next (restartClock_canonical h)

theorem execPowerCapThrottle_canonical {die divisor : Nat} {s : State} (h : s.Canonical) :
    Out.Canonical (execPowerCapThrottle die divisor s) := by
  unfold execPowerCapThrottle
  split <;> exact .next h

theorem execDieReset_canonical {die : Nat} {s : State} (h : s.Canonical) : Out.Canonical (execDieReset die s) := by
  unfold execDieReset
  extract_lets d busy u v c w e x y
  have hu : u.Canonical := foldl_canonical (fun _ _ ha => setReady_canonical ha) h
  have hv : v.Canonical := foldl_canonical (fun _ _ ha => setReady_canonical (setPort_canonical ha)) hu
  have hw : w.Canonical := foldl_canonical (fun _ _ ha => setCore_canonical ha) hv
  have hx : x.Canonical := setDie_canonical hw
  have hy : y.Canonical := by
    unfold y
    clear_value x
    exact .of_mem (s := x) rfl hx
  exact .ite (.next h) (.next (restartClock_canonical hy))

theorem execStandbyPowerLoss_canonical {s : State} (h : s.Canonical) : Out.Canonical (execStandbyPowerLoss s) := by
  unfold execStandbyPowerLoss
  exact .next (foldl_canonical (fun _ _ hu => .ite hu hu) h)

theorem execFirmwareError_canonical {die : Nat} {s : State} (h : s.Canonical) : Out.Canonical (execFirmwareError die s) := by
  unfold execFirmwareError
  split <;> exact .next h

/-! ## CXL.mem (R234, R325, R410) -/

theorem execHostMemRead_canonical {pa : Nat} {s : State} (h : s.Canonical) : Out.Canonical (execHostMemRead pa s) := by
  unfold execHostMemRead
  extract_lets
  split
  · exact .next h
  · split
    · exact .next h
    · split
      · exact .next h
      · exact .next (intrude_canonical h)

theorem execHostMemWrite_canonical {pa : Nat} {bytes : List Byte} {s : State} (h : s.Canonical) :
    Out.Canonical (execHostMemWrite pa bytes s) := by
  unfold execHostMemWrite
  extract_lets
  split
  · exact .next h
  · split
    · exact .next h
    · split
      · exact .next h
      · exact .next (outsideWrite_canonical h)

theorem execBackInvalidate_canonical {half : Nat} {dirty : List (Nat × Byte)} {s : State} (h : s.Canonical) :
    Out.Canonical (execBackInvalidate half dirty s) := by
  unfold execBackInvalidate
  extract_lets
  split
  · exact .next h
  · split
    · exact .next h
    · split
      · exact .next h
      · exact .next (outsideWrite_canonical h)

/-! ## Fabric (R416 to R418) -/

theorem putFlit_canonical {s : State} {port pa : Nat} {bytes : List (Byte × Bool)} (h : s.Canonical) :
    (s.putFlit port pa bytes).Canonical := by
  unfold State.putFlit
  extract_lets
  split <;> exact outsideWrite_canonical h

theorem countCorrected_canonical {s : State} {port : Nat} {corrected : Bool} (h : s.Canonical) :
    (s.countCorrected port corrected).Canonical := by
  unfold State.countCorrected
  split <;> exact h

theorem acceptFlit_canonical {s : State} {port : Nat} {corrected : Bool} (h : s.Canonical) :
    (s.acceptFlit port corrected).Canonical := by
  unfold State.acceptFlit
  exact countCorrected_canonical h

theorem execPeerFlit_canonical {port pa : Nat} {bytes : List (Byte × Bool)} {head : FlitHead} {s : State} (h : s.Canonical) :
    Out.Canonical (execPeerFlit port pa bytes head s) := by
  unfold execPeerFlit
  split
  · exact .next h
  · split
    · exact .next (countCorrected_canonical h)
    · split
      · exact .next h
      · split
        · exact .next h
        · extract_lets
          split
          · exact .next (intrude_canonical (acceptFlit_canonical h))
          · exact .next (putFlit_canonical (acceptFlit_canonical h))

theorem hostPut_canonical {s : State} {a : Nat} {bs : List Byte} (h : s.Canonical) : (s.hostPut a bs).Canonical := h

theorem endJob_canonical {s : State} {slot : Nat} {j : Job} {lost : Bool} (h : s.Canonical) :
    (s.endJob slot j lost).Canonical := by
  unfold State.endJob
  extract_lets u
  have hu : u.Canonical := hostPut_canonical h
  exact hu

theorem completeJob_canonical {ckpt : Bool} {slot : Nat} {s : State} (h : s.Canonical) :
    Out.Canonical (completeJob ckpt slot s) := by
  unfold completeJob
  split
  · exact .next h
  · extract_lets top met mark hit u
    have hmark {t : State} (f : Tenure → Tenure) (ht : t.Canonical) : (mark f t).Canonical := ht
    have hu : u.Canonical := hmark _ (recallAll_canonical h)
    clear_value u
    exact .ite (.next h) (.ite (.next (endJob_canonical h)) (.ite (.next (endJob_canonical h)) (.ite (.next h)
      (.ite (.next (hmark _ h)) (.next hu)))))

/-! ## The register block (R411, R413) -/

theorem commandDoorbell_canonical {s : State} (h : s.Canonical) : (s.commandDoorbell).Canonical := by
  unfold State.commandDoorbell
  extract_lets
  split <;> exact h

theorem setQdesc_canonical {s : State} {v : W64} (h : s.Canonical) : (s.setQdesc v).Canonical := by
  unfold State.setQdesc
  extract_lets u mark
  exact h

theorem execHostRegisterWrite_canonical {off : Nat} {value : W64} {s : State} (h : s.Canonical) :
    Out.Canonical (execHostRegisterWrite off value s) := by
  unfold execHostRegisterWrite
  extract_lets x v andThen c
  have hthen (i : Instr) : Out.Canonical (andThen i) := .next (s := { s with agenda := i :: s.agenda }) h
  refine .ite (.next h) (.ite (hthen _) (.ite (hthen _) (.ite ?_ (.ite (.next (.ite h (setQdesc_canonical h))) ?_))))
  · split
    · exact hthen _
    · exact hthen _
    · exact .next h
  · exact .ite (.ite (.next h) (.next h)) (.ite (.next h) (.ite (.next (commandDoorbell_canonical h)) (.next h)))

theorem execCommandOverrun_canonical {s : State} (h : s.Canonical) : Out.Canonical (execCommandOverrun s) := by
  unfold execCommandOverrun
  split
  · exact .next (commandDoorbell_canonical h)
  · exact .next h

end Sys2Proof.Machine
end

section
/-!
PROOF. The canonical form under the commands, and under every step.
-/
namespace Sys2Proof.Machine

/-! ## The frame of a command (R413) -/

theorem runCommand_canonical {op : Nat} {act : State → (Nat → Nat) → Option Answer} {s : State}
    (hact : ∀ s a r, s.Canonical → act s a = some r → r.s.Canonical) (h : s.Canonical) : Out.Canonical (runCommand op act s) := by
  unfold runCommand
  split
  · exact .next h
  · split
    · exact .next h
    split
    · exact .next h
    next a ha => exact .next (hact s _ a h ha)

/-! An answer of a command that names its state: the state is canonical. -/

theorem done_canonical {s : State} {r : Answer} (h : s.Canonical) (hr : done s = some r) : r.s.Canonical := by
  cases hr
  exact h

theorem badArg_canonical {s : State} {r : Answer} (h : s.Canonical) (hr : badArg s = some r) : r.s.Canonical := by
  cases hr
  exact h

theorem notReady_canonical {s : State} {r : Answer} (h : s.Canonical) (hr : notReady s = some r) : r.s.Canonical := by
  cases hr
  exact h

theorem refused_canonical {s : State} {r : Answer} (h : s.Canonical) (hr : refused s = some r) : r.s.Canonical := by
  cases hr
  exact h

/-! ## Contexts (R414) -/

theorem execCtxen_canonical {s : State} (h : s.Canonical) : Out.Canonical (execCtxen s) := by
  unfold execCtxen
  refine runCommand_canonical (fun _ _ _ hx ha => ?_) h
  split at ha
  · cases ha
    exact hx
  · split at ha
    · cases ha
      exact hx
    · split at ha
      · cases ha
        exact hx
      · cases ha
        exact hx

theorem dropContext_canonical {s : State} {c : Nat} (h : s.Canonical) : (s.dropContext c).Canonical := by
  unfold State.dropContext
  exact closeWaiting_canonical (foldl_canonical (fun _ _ hu => drainLines_canonical hu) (foldl_canonical (fun _ _ hu => hu)
    (foldl_canonical (fun _ _ hu => hu) (foldl_canonical (fun _ _ hu => hu) h))))

theorem execCtxrel_canonical {s : State} (h : s.Canonical) : Out.Canonical (execCtxrel s) := by
  unfold execCtxrel
  refine runCommand_canonical (fun _ _ _ hx ha => ?_) h
  split at ha
  · cases ha
    exact hx
  · split at ha
    · cases ha
      exact hx
    · split at ha
      · cases ha
        exact dropContext_canonical hx
      · split at ha
        · cases ha
          exact dropContext_canonical hx
        · cases ha
          exact hx
      · cases ha
        exact hx

theorem execCtxstop_canonical {s : State} (h : s.Canonical) : Out.Canonical (execCtxstop s) := by
  unfold execCtxstop
  refine runCommand_canonical (fun _ _ _ hx ha => ?_) h
  split at ha
  · cases ha
    exact hx
  · split at ha
    · cases ha
      exact hx
    · split at ha
      · split at ha
        · cases ha
          exact raiseManaged_canonical hx
        · cases ha
          exact hx
      · cases ha
        exact hx
      · cases ha
        exact hx
      · cases ha
        exact hx

/-! ## Translation and keys (R215, R420) -/

theorem execInval_canonical {s : State} (h : s.Canonical) : Out.Canonical (execInval s) := by
  unfold execInval
  split
  · exact .next h
  · extract_lets
    split
    · exact .next h
    · split <;> exact .next h

theorem execInvalComplete_canonical {s : State} (h : s.Canonical) : Out.Canonical (execInvalComplete s) := by
  unfold execInvalComplete
  split
  · exact .next h
  · split <;> exact .next h

theorem execKeyld_canonical {key : BitVec 512} {s : State} (h : s.Canonical) : Out.Canonical (execKeyld key s) := by
  unfold execKeyld
  refine runCommand_canonical (fun _ _ _ hx ha => ?_) h
  split at ha
  · cases ha
    exact hx
  · split at ha
    · cases ha
      exact hx
    · cases ha
      exact hx

theorem execKeyclr_canonical {s : State} (h : s.Canonical) : Out.Canonical (execKeyclr s) := by
  unfold execKeyclr
  refine runCommand_canonical (fun _ _ _ hx ha => ?_) h
  split at ha
  · cases ha
    exact hx
  · split at ha
    · cases ha
      exact hx
    · cases ha
      exact hx

/-! ## Worlds (R337, R29, R414) -/

theorem execWopen_canonical {s : State} (h : s.Canonical) : Out.Canonical (execWopen s) := by
  unfold execWopen
  refine runCommand_canonical (fun u a r hu hr => ?_) h
  split at hr
  · exact badArg_canonical hu hr
  · split at hr
    · exact notReady_canonical hu hr
    · extract_lets w v at hr
      split at hr
      · exact refused_canonical hu hr
      · split at hr
        · cases hr
          exact hu
        · exact done_canonical (setWorld_canonical hu) hr

theorem execWclose_canonical {s : State} (h : s.Canonical) : Out.Canonical (execWclose s) := by
  unfold execWclose
  split
  · exact .next h
  · extract_lets
    split
    · exact .next h
    · split
      · exact .next h
      · split
        · exact .next h
        · split
          · exact .next h
          · split <;> exact .next h

theorem finishCommand_canonical {s : State} {status : Nat} {res0 res1 : W64} (h : s.Canonical) :
    (s.finishCommand status res0 res1).Canonical := h

theorem closeWorld_canonical {s : State} {w : Nat} (h : s.Canonical) : (s.closeWorld w).Canonical :=
  setWorld_canonical (setDie_canonical h)

theorem execWcloseComplete_canonical {s : State} (h : s.Canonical) : Out.Canonical (execWcloseComplete s) := by
  unfold execWcloseComplete
  split
  · exact .next h
  · exact .ite (.next h) (.next (finishCommand_canonical (closeWorld_canonical h)))

/-! ## Settings, counters, retirement (R292, R381, R402, R421) -/

theorem execSetq_canonical {s : State} (h : s.Canonical) : Out.Canonical (execSetq s) := by
  unfold execSetq
  refine runCommand_canonical (fun _ _ _ hx ha => ?_) h
  split at ha
  · cases ha
    exact hx
  · split at ha
    · cases ha
      exact hx
    · cases ha
      exact hx

theorem execClrerr_canonical {s : State} (h : s.Canonical) : Out.Canonical (execClrerr s) := by
  unfold execClrerr
  refine runCommand_canonical (fun u a r hu hr => ?_) h
  extract_lets m core port z c v p at hr
  have hv : v.Canonical := .ite (setCore_canonical hu) hu
  split at hr
  · exact badArg_canonical hu hr
  · exact done_canonical (.ite (setPort_canonical hv) hv) hr

theorem execSetthr_canonical {s : State} (h : s.Canonical) : Out.Canonical (execSetthr s) := by
  unfold execSetthr
  refine runCommand_canonical (fun _ _ _ hx ha => ?_) h
  split at ha
  · cases ha
    exact hx
  · split at ha
    · cases ha
      exact hx
    · cases ha
      exact hx

theorem execRetire_canonical {s : State} (h : s.Canonical) : Out.Canonical (execRetire s) := by
  unfold execRetire
  refine runCommand_canonical (fun u a r hu hr => ?_) h
  extract_lets n at hr
  split at hr
  · exact notReady_canonical hu hr
  · split_ifs at hr
    · exact refused_canonical hu hr
    · exact done_canonical (retireCore_canonical hu) hr
    · exact refused_canonical hu hr
    · exact done_canonical (retireCopy_canonical hu) hr
    · exact refused_canonical hu hr
    · exact done_canonical (retireMatrix_canonical hu) hr
    · exact badArg_canonical hu hr

theorem execPwrcap_canonical {s : State} (h : s.Canonical) : Out.Canonical (execPwrcap s) := by
  unfold execPwrcap
  refine runCommand_canonical (fun _ _ _ hx ha => ?_) h
  split at ha
  · cases ha
    exact hx
  · cases ha
    exact hx

/-! ## Reports to the host (R408, R419) -/

theorem execSummary_canonical {s : State} (h : s.Canonical) : Out.Canonical (execSummary s) := by
  unfold execSummary
  refine runCommand_canonical (fun u a r hu hr => ?_) h
  split at hr
  · exact notReady_canonical hu hr
  · split at hr
    · exact badArg_canonical hu hr
    · exact done_canonical (hostPut_canonical hu) hr

theorem execBbread_canonical {s : State} (h : s.Canonical) : Out.Canonical (execBbread s) := by
  unfold execBbread
  refine runCommand_canonical (fun _ _ _ hx ha => ?_) h
  split at ha
  · cases ha
    exact hx
  · split at ha
    · cases ha
      exact hx
    · dsimp only at ha
      cases ha
      exact hx

/-! ## Jobs (R417, R418) -/

theorem startJob_some_canonical {s : State} {j : Job} {r : Answer} (h : s.Canonical) (hr : s.startJob j = some r) :
    r.s.Canonical := by
  unfold State.startJob at hr
  extract_lets x at hr
  split at hr
  · exact refused_canonical h hr
  · cases hr
    exact h

theorem execXfer_canonical {s : State} (h : s.Canonical) : Out.Canonical (execXfer s) := by
  unfold execXfer
  refine runCommand_canonical (fun _ _ _ hx ha => ?_) h
  dsimp only at ha
  split at ha
  · cases ha
    exact hx
  · split at ha
    · cases ha
      exact hx
    · exact startJob_some_canonical hx ha

theorem execCkpt_canonical {s : State} (h : s.Canonical) : Out.Canonical (execCkpt s) := by
  unfold execCkpt
  refine runCommand_canonical (fun _ _ _ hx ha => ?_) h
  dsimp only at ha
  split at ha
  · cases ha
    exact hx
  · split at ha
    · cases ha
      exact hx
    · exact startJob_some_canonical hx ha

theorem execUnknownCommand_canonical {s : State} (h : s.Canonical) : Out.Canonical (execUnknownCommand s) := by
  unfold execUnknownCommand
  split
  · exact .next h
  · split <;> exact .next h

/-! ## Every instruction and event -/

theorem exec_canonical {i : Instr} {s : State} (h : s.Canonical) : Out.Canonical (exec i s) := by
  unfold exec
  split
  iterate 107
    · exact issueAlu_canonical h
  · exact execGredTeam_canonical h
  · exact issueAlu_canonical h
  · exact issueAlu_canonical h
  iterate 4
    · exact issueJump_canonical h
  · exact execJoin_canonical h
  · exact execExit_canonical h
  · exact issueAlu_canonical h
  · exact issueAlu_canonical h
  · exact issueAlu_canonical h
  · exact execRegion_canonical h
  · exact execTrap_canonical h
  · exact execTret_canonical h
  · exact execYield_canonical h
  · exact issueAlu_canonical h
  · exact issueAlu_canonical h
  · exact issueAlu_canonical h
  · exact execBkpt_canonical h
  · exact execSetrm_canonical h
  · exact execGetsr_canonical h
  · exact execSetsr_canonical h
  · exact execSpawn_canonical h
  · exact execSleepm_canonical h
  · exact execLd_canonical h
  · exact execLdImm_canonical h
  · exact execSt_canonical h
  · exact execStImm_canonical h
  · exact execLdl_canonical h
  · exact execLdlImm_canonical h
  · exact execStl_canonical h
  · exact execStlImm_canonical h
  · exact execLdb_canonical h
  · exact execLdbImm_canonical h
  · exact execStb_canonical h
  · exact execStbImm_canonical h
  · exact execLdx_canonical h
  · exact execStx_canonical h
  · exact issueUniLoad_canonical h
  · exact issueUniLoad_canonical h
  · exact execStu_canonical h
  · exact execStuImm_canonical h
  · exact execAtom_canonical h
  · exact execLr_canonical h
  · exact execSc_canonical h
  · exact issueOrder_canonical h
  · exact issueOrder_canonical h
  · exact issueOrder_canonical h
  · exact execAcqr_canonical h
  · exact execCarve_canonical h
  · exact issuePref_canonical h
  · exact issuePref_canonical h
  · exact execMma_canonical h
  · exact execMmax_canonical h
  · exact execMms_canonical h
  · exact execCzero_canonical h
  · exact issueDrain_canonical h
  · exact issueDrain_canonical h
  · exact issueAlu_canonical h
  · exact execKld_canonical h
  · exact execKldImm_canonical h
  · exact issueKst_canonical h
  · exact issueKst_canonical h
  · exact issueAlu_canonical h
  · exact issueAlu_canonical h
  · exact execBxpose_canonical h
  · exact execCpy_canonical h
  · exact execCpyg_canonical h
  · exact execCpyv_canonical h
  · exact execCrwait_canonical h
  · exact execThnew_canonical h
  · exact execThacq_canonical h
  · exact execThrel_canonical h
  · exact execThsplit_canonical h
  · exact execThfree_canonical h
  · exact execThqry_canonical h
  · exact execThbnd_canonical h
  · exact issueReport_canonical h
  · exact issueReport_canonical h
  · exact execIsld_canonical h
  · exact execIsst_canonical h
  · exact execSettle_canonical h
  · exact execWake_canonical h
  · exact execPbar_canonical h
  · exact execStepc_canonical h
  · exact execIslq_canonical h
  · exact execSqopen_canonical h
  · exact execSqsig_canonical h
  · exact execSkld_canonical h
  · exact execSkst_canonical h
  · exact execSqclose_canonical h
  · exact execWaitc_canonical h
  · exact execCloseb_canonical h
  · exact execWaitb_canonical h
  · exact execBar_canonical h
  · exact issueBarset_canonical h
  · exact issueBarset_canonical h
  · exact execCntrd_canonical h
  · exact execPairWord_canonical h
  · exact execIllegalInstruction_canonical h
  · exact execLoadDataLands_canonical h
  · exact execStoreAcknowledged_canonical h
  · exact execInstructionFetchMiss_canonical h
  · exact execWalkComplete_canonical h
  · exact execFaultRetry_canonical h
  · exact execFaultDeny_canonical h
  · exact execRegionDiscard_canonical h
  · exact execRecoverableError_canonical h
  · exact execUncorrectableError_canonical h
  · exact execInvalidationTimeout_canonical h
  · exact execIssueCycle_canonical h
  · exact execBoundaryIssue_canonical h
  · exact execTeamPlacementTry_canonical h
  · exact execGroupEviction_canonical h
  · exact execGroupResume_canonical h
  · exact execGroupDrained_canonical h
  · exact execMatrixGrant_canonical h
  · exact execKstepBoundary_canonical h
  · exact execRequestAgeing_canonical h
  · exact execPassComplete_canonical h
  · exact execDrainComplete_canonical h
  · exact execCopyStart_canonical h
  · exact execCopyCompletionRecord_canonical h
  · exact execCopyRingSlotWait_canonical h
  · exact execSignatureDelivery_canonical h
  · exact execSleepmReread_canonical h
  · exact execSleepmTimeout_canonical h
  · exact execCrwaitReread_canonical h
  · exact execCrwaitTimeout_canonical h
  · exact execWaitbTimeout_canonical h
  · exact execThacqGrant_canonical h
  · exact execThacqTimeout_canonical h
  · exact execSyscallRingSlotFree_canonical h
  · exact execSyscallReply_canonical h
  · exact execBkptResume_canonical h
  · exact execQueueDoorbell_canonical h
  · exact execQueueArbitration_canonical h
  · exact execQueueAgeing_canonical h
  · exact execQuantumEnd_canonical h
  · exact execQueueReplacement_canonical h
  · exact execNopk_canonical h
  · exact execLaunch_canonical h
  · exact execBarrier_canonical h
  · exact execSignal_canonical h
  · exact execCopy_canonical h
  · exact execBarrierSignalRead_canonical h
  · exact execPacketRetire_canonical h
  · exact execStopLineRaise_canonical h
  · exact execEngineHalt_canonical h
  · exact execStopCompletion_canonical h
  · exact execStepClose_canonical h
  · exact execGangStaging_canonical h
  · exact execGangWriteback_canonical h
  · exact execStepsigStore_canonical h
  · exact execQuadSpare_canonical h
  · exact execCoreRetirement_canonical h
  · exact execEngineRetirement_canonical h
  · exact execRowSpare_canonical h
  · exact execFabricLaneSpare_canonical h
  · exact execLinkDead_canonical h
  · exact execLinkStateUpdate_canonical h
  · exact execDrainRound_canonical h
  · exact execFailureDeclaration_canonical h
  · exact execAgentRejoin_canonical h
  · exact execDiePowerLoss_canonical h
  · exact execThermalTrip_canonical h
  · exact execPowerRestored_canonical h
  · exact execPowerCapThrottle_canonical h
  · exact execDieReset_canonical h
  · exact execSelfTestComplete_canonical h
  · exact execLinkTraining_canonical h
  · exact execHostMemRead_canonical h
  · exact execHostMemWrite_canonical h
  · exact execBackInvalidate_canonical h
  · exact execPeerFlit_canonical h
  · exact completeJob_canonical h
  · exact completeJob_canonical h
  · exact execCtxen_canonical h
  · exact execCtxrel_canonical h
  · exact execCtxstop_canonical h
  · exact execInval_canonical h
  · exact execInvalComplete_canonical h
  · exact execKeyld_canonical h
  · exact execKeyclr_canonical h
  · exact execWopen_canonical h
  · exact execWclose_canonical h
  · exact execWcloseComplete_canonical h
  · exact execSetq_canonical h
  · exact execClrerr_canonical h
  · exact execSetthr_canonical h
  · exact execRetire_canonical h
  · exact execSummary_canonical h
  · exact execBbread_canonical h
  · exact execXfer_canonical h
  · exact execCkpt_canonical h
  · exact execPwrcap_canonical h
  · exact execUnknownCommand_canonical h
  · exact execCommandOverrun_canonical h
  · exact execHostRegisterWrite_canonical h
  · exact execCorrectedError_canonical h
  · exact execFirmwareError_canonical h
  · exact execStandbyPowerLoss_canonical h

/-! ## The machine's own events -/

/-- Every event of a list keeps the canonical form. -/
def KeepCanonical (es : List Ev) : Prop := ∀ e ∈ es, ∀ s : State, s.Canonical → Out.Canonical (e s)

namespace KeepCanonical

theorem nil : KeepCanonical [] := fun _ he => nomatch he

theorem cons {e : Ev} {es : List Ev} (he : ∀ s : State, s.Canonical → Out.Canonical (e s)) (hes : KeepCanonical es) :
    KeepCanonical (e :: es) := List.forall_mem_cons.mpr ⟨he, hes⟩

theorem one {e : Ev} (he : ∀ s : State, s.Canonical → Out.Canonical (e s)) : KeepCanonical [e] := cons he nil

theorem append {as bs : List Ev} (ha : KeepCanonical as) (hb : KeepCanonical bs) : KeepCanonical (as ++ bs) :=
  List.forall_mem_append.mpr ⟨ha, hb⟩

theorem ite {c : Prop} [Decidable c] {as bs : List Ev} (ha : KeepCanonical as) (hb : KeepCanonical bs) :
    KeepCanonical (if c then as else bs) := by
  split
  · exact ha
  · exact hb

theorem when {c : Bool} {es : List Ev} (h : KeepCanonical es) : KeepCanonical (Ev.when c es) := ite h nil

theorem map {α : Type} {l : List α} {f : α → Ev} (h : ∀ a s, State.Canonical s → Out.Canonical (f a s)) :
    KeepCanonical (l.map f) :=
  List.forall_mem_map.mpr fun a _ => h a

theorem flatMap {α : Type} {l : List α} {f : α → List Ev} (h : ∀ a, KeepCanonical (f a)) : KeepCanonical (l.flatMap f) := by
  intro e he
  obtain ⟨a, -, hea⟩ := List.mem_flatMap.mp he
  exact h a e hea

end KeepCanonical

theorem stopEvents_keepCanonical (s : State) : KeepCanonical s.stopEvents := by
  unfold State.stopEvents
  extract_lets oneContext
  refine .append (.append (.when (.one fun _ => execStopLineRaise_canonical)) (.flatMap fun kv => ?_))
    (.map fun _ _ => execWalkComplete_canonical)
  exact .append (.map fun _ _ => execSyscallReply_canonical)
    (.when (.append (.map fun _ _ => execEngineHalt_canonical) (.one fun _ => execStopCompletion_canonical)))

theorem sleeperEvents_keepCanonical (gid : Nat) (q : Sleeper) : KeepCanonical (sleeperEvents gid q) := by
  unfold sleeperEvents
  split
  · exact .cons (fun _ => execSleepmReread_canonical) (.one fun _ => execSleepmTimeout_canonical)
  · exact .cons (fun _ => execCrwaitReread_canonical) (.one fun _ => execCrwaitTimeout_canonical)
  · exact .one fun _ => execWaitbTimeout_canonical

theorem groupEvents_keepCanonical (s : State) (gid : Nat) (g : Group) : KeepCanonical (s.groupEvents gid g) := by
  unfold State.groupEvents
  extract_lets leaves
  have hdata : KeepCanonical (g.pending.map (fun p => execLoadDataLands gid p.id) ++ g.sleepers.flatMap (sleeperEvents gid)) :=
    .append (.map fun _ _ => execLoadDataLands_canonical) (.flatMap fun q => sleeperEvents_keepCanonical gid q)
  refine .append (.append (.append (.append (.append (.append hdata ?_) ?_) ?_) ?_) ?_) ?_
  · exact .when (.one fun _ => execRegionDiscard_canonical)
  · exact .when (.one fun _ => execInvalidationTimeout_canonical)
  · exact .when (.one fun _ => execGroupEviction_canonical)
  · exact .when (.one fun _ => execGroupDrained_canonical)
  · exact .when (.one fun _ => execBoundaryIssue_canonical)
  · exact .when (.one fun _ => execGroupResume_canonical)

theorem matrixEvents_keepCanonical (engine : Nat) (m : MatrixEng) : KeepCanonical (matrixEvents engine m) := by
  unfold matrixEvents
  refine .append (.append (.append ?_ ?_) ?_) (.flatMap fun o => .one fun s hs => ?_)
  · exact .when (.one fun _ => execMatrixGrant_canonical)
  · exact .when (.one fun _ => execKstepBoundary_canonical)
  · exact .when (.one fun _ => execRequestAgeing_canonical)
  · split
    · exact execPassComplete_canonical hs
    · exact execDrainComplete_canonical hs

theorem copyEvents_keepCanonical (engine : Nat) (e : CopyEng) : KeepCanonical (copyEvents engine e) := by
  unfold copyEvents
  refine .append (.when (.one fun _ => execCopyStart_canonical)) (.flatMap fun r => .append ?_ ?_)
  · exact .when (.one fun _ => execSignatureDelivery_canonical)
  · exact .when (.cons (fun _ => execCopyCompletionRecord_canonical) (.one fun _ => execCopyRingSlotWait_canonical))

theorem queueEvents_keepCanonical (s : State) : KeepCanonical s.queueEvents := by
  unfold State.queueEvents
  extract_lets now ofQueue
  refine .append (.cons (fun _ => execQuantumEnd_canonical) (.flatMap fun kv => ?_)) (.one fun _ => execQueueArbitration_canonical)
  unfold ofQueue
  extract_lets copies next held
  have hcopies (n : Nat) : KeepCanonical (copies n) := .map fun _ _ => execCopy_canonical
  have hnext : KeepCanonical next := .ite (.append (.cons (fun _ => execNopk_canonical) (.cons (fun _ => execLaunch_canonical)
    (.cons (fun _ => execBarrier_canonical) (.one fun _ => execSignal_canonical)))) (hcopies _)) .nil
  have hheld : KeepCanonical held := .flatMap fun p => .append
    (.cons (fun _ => execPacketRetire_canonical) (.one fun _ => execBarrierSignalRead_canonical))
    (.ite .nil (.cons (fun _ => execSignal_canonical) (hcopies _)))
  exact .append (.append (.append (.append hnext hheld) (.one fun _ => execPacketRetire_canonical))
    (.when (.one fun _ => execQueueAgeing_canonical))) (.ite .nil (.one fun _ => execQueueReplacement_canonical))

theorem teamEvents_keepCanonical (s : State) : KeepCanonical s.teamEvents := by
  unfold State.teamEvents
  refine .append (.cons (fun _ => execTeamPlacementTry_canonical) (.flatMap fun kv => ?_)) (.flatMap fun kv => .append ?_ ?_)
  · split
    · exact .append (.when (.one fun _ => execGangStaging_canonical)) (.when (.one fun _ => execGangWriteback_canonical))
    · exact .nil
  · exact .when (.one fun _ => execStepClose_canonical)
  · exact .when (.one fun _ => execStepsigStore_canonical)

theorem repairEvents_keepCanonical (s : State) : KeepCanonical s.repairEvents := by
  unfold State.repairEvents
  refine .append (.append (.append (.append (.append ?_ ?_) ?_) ?_) ?_) ?_
  · exact .map fun _ _ => execFailureDeclaration_canonical
  · exact .map fun _ _ => execCoreRetirement_canonical
  · exact .map fun _ _ => execRowSpare_canonical
  · exact .map fun _ _ => sparingDone_canonical
  · exact .ite .nil (.map fun _ _ => dueRetirement_canonical)
  · exact .map fun _ _ => execLinkDead_canonical

theorem commandEvents_keepCanonical : KeepCanonical commandEvents := by
  unfold commandEvents
  refine .cons (fun _ => execCtxen_canonical) (.cons (fun _ => execCtxrel_canonical) (.cons (fun _ => execCtxstop_canonical) ?_))
  refine .cons (fun _ => execInval_canonical) (.cons (fun _ => execInvalComplete_canonical) (.cons
    (fun _ => execKeyclr_canonical) ?_))
  refine .cons (fun _ => execWopen_canonical) (.cons (fun _ => execWclose_canonical) (.cons
    (fun _ => execWcloseComplete_canonical) ?_))
  refine .cons (fun _ => execSetq_canonical) (.cons (fun _ => execClrerr_canonical) (.cons (fun _ => execSetthr_canonical) ?_))
  refine .cons (fun _ => execRetire_canonical) (.cons (fun _ => execSummary_canonical) (.cons (fun _ => execBbread_canonical) ?_))
  refine .cons (fun _ => execXfer_canonical) (.cons (fun _ => execCkpt_canonical) (.cons (fun _ => execPwrcap_canonical) ?_))
  exact .one fun _ => execUnknownCommand_canonical

theorem candidates_keepCanonical (s : State) : KeepCanonical s.candidates := by
  unfold State.candidates
  refine .append (.append (.append (.append (.append (.append (.append (.append (.append (.append (.append (.append
    ?_ ?_) ?_) ?_) ?_) ?_) ?_) ?_) ?_) ?_) ?_) ?_) ?_
  · exact .append (repairEvents_keepCanonical s) (stopEvents_keepCanonical s)
  · exact .cons (fun _ => bobbinTakes_canonical) (.map fun _ _ => bobbinDone_canonical)
  · exact .flatMap fun _ => .ite .nil (.one fun _ => execStoreAcknowledged_canonical)
  · exact .map fun _ _ => execStoreAcknowledged_canonical
  · exact .flatMap fun kv => groupEvents_keepCanonical s kv.1 kv.2
  · exact .flatMap fun kv => matrixEvents_keepCanonical kv.1 kv.2
  · exact .flatMap fun kv => copyEvents_keepCanonical kv.1 kv.2
  · exact .flatMap fun r => .cons (fun _ => execThacqGrant_canonical) (.one fun _ => execThacqTimeout_canonical)
  · exact queueEvents_keepCanonical s
  · exact teamEvents_keepCanonical s
  · exact .ite commandEvents_keepCanonical .nil
  · exact .map fun _ _ => execDrainRound_canonical
  · exact .flatMap fun kv => .cons (fun _ => completeJob_canonical) (.one fun _ => completeJob_canonical)

theorem runOwn_canonical {s : State} (h : s.Canonical) : Out.Canonical s.runOwn := by
  unfold State.runOwn
  split
  next e he => exact candidates_keepCanonical s e (List.mem_of_find?_eq_some he) s h
  · exact execIssueCycle_canonical h

/-! ## A step -/

theorem step_canonical {s : State} (h : s.Canonical) : Out.Canonical (step s) := by
  unfold step
  split
  · extract_lets
    split
    · exact .next h
    · exact exec_canonical h
    · exact .next (fetchPoison_canonical h)
    · exact exec_canonical h
  · split
    · exact exec_canonical h
    · exact runOwn_canonical h

/-- Settles O58: every instruction, every event and every fetch of the model keeps the canonical form. -/
theorem memoryCanonical : Obligations.MemoryCanonical := fun _ t h hstep => step_canonical h t hstep

end Sys2Proof.Machine
end

section
/-!
PROOF. Commands of settings, repair, reports and jobs.
-/
namespace Sys2Proof.Machine

open Claims

/-! ## The frame of a command (R413) -/

section Command

variable {s : State} {op : Nat} {args : List W64} {a : Nat → Nat} {act : State → (Nat → Nat) → Option Answer}

/-- A latched command ends with the answer that its meaning gives. -/
theorem runCommand_latched (h : Latched s op args a) {r : Answer} (hact : act s a = some r) :
    runCommand op act s = .next (r.s.finishCommand r.status r.res0 r.res1) := by
  have ha : (fun i => (args.getD i 0).toNat) = a := funext fun i => (h.args_ i).symm
  rw [runCommand, h.command]
  simp only [h.idle, ha, hact, Option.isSome_none, ne_eq, not_true_eq_false, decide_false, Bool.or_self, Bool.false_eq_true,
    if_false]

theorem runCommand_done (h : Latched s op args a) {t : State} (hact : act s a = done t) :
    runCommand op act s = .next (t.finishCommand 0 0 0) := runCommand_latched h hact

theorem runCommand_refused (h : Latched s op args a) (hact : act s a = refused s) :
    runCommand op act s = .next (s.finishCommand 3 0 0) := runCommand_latched h hact

/-- The statuses 1 and 2 of a command whose meaning answers "not ready" and "bad argument". -/
theorem statuses_of_answers {r : CmdRow} (h : Latched s r.op args a) (hexec : exec r.instr s = runCommand r.op act s)
    (hmiss : ¬ r.bad a → (∃ b ∈ r.needs a, s.ready b = false) ∨ (s.upPorts (BitVec.ofNat 24 (a 0))).length < r.ports →
      act s a = notReady s)
    (hbad : r.bad a → (∀ b ∈ r.needs a, s.ready b = true) → r.ports ≤ (s.upPorts (BitVec.ofNat 24 (a 0))).length →
      act s a = badArg s) : Statuses s r a :=
  ⟨fun hgood hnot => hexec.trans (runCommand_latched h (hmiss hgood hnot)),
    fun hb hready hports => hexec.trans (runCommand_latched h (hbad hb hready hports))⟩

end Command

/-! ## The status of each command (R414, R417, R418) -/

theorem commandsB_statuses {s : State} {r : CmdRow} (hr : r ∈ commandsB) {args : List W64} {a : Nat → Nat}
    (h : Latched s r.op args a) : Statuses s r a := by
  simp only [commandsB, List.mem_cons, List.not_mem_nil, or_false] at hr
  obtain rfl | rfl | rfl | rfl | rfl | rfl | rfl | rfl | rfl := hr
  · have hexec : exec .setq s = execSetq s := rfl
    rw [execSetq] at hexec
    refine statuses_of_answers h hexec (fun hgood hmiss => ?_) (fun hbad hready hports => ?_)
    · have hnot : s.ready 4 = false := by simpa using hmiss
      exact if_pos (by simp [hnot])
    · have hr : s.ready 4 = true := by simpa using hready
      exact (if_neg (by simp [hr])).trans (if_pos (by simpa using hbad))
  · have hexec : exec .clrerr s = execClrerr s := rfl
    rw [execClrerr] at hexec
    exact statuses_of_answers h hexec (fun _ hmiss => by simp at hmiss) (fun hbad _ _ => if_pos (by simp; omega))
  · have hexec : exec .setthr s = execSetthr s := rfl
    rw [execSetthr] at hexec
    refine statuses_of_answers h hexec (fun hgood hmiss => ?_) (fun hbad hready hports => ?_)
    · have hnot : s.ready 3 = false := by simpa using hmiss
      exact if_pos (by simp [hnot])
    · have hr : s.ready 3 = true := by simpa using hready
      exact (if_neg (by simp [hr])).trans (if_pos (by simp; omega))
  · have hexec : exec .retire s = execRetire s := rfl
    rw [execRetire] at hexec
    refine statuses_of_answers h hexec (fun hgood hmiss => ?_) (fun hbad hready hports => ?_)
    · have hnot : s.ready 3 = false := by simpa using hmiss
      exact if_pos (by simp [hnot])
    · have hr : s.ready 3 = true := by simpa using hready
      exact (if_neg (by simp [hr])).trans ((if_neg (by omega)).trans ((if_neg (by omega)).trans (if_neg (by simp; omega))))
  · have hexec : exec .summary s = execSummary s := rfl
    rw [execSummary] at hexec
    refine statuses_of_answers h hexec (fun hgood hmiss => ?_) (fun hbad hready hports => ?_)
    · have hnot : s.ready 2 = false := by simpa using hmiss
      exact if_pos (by simp [hnot])
    · have hr : s.ready 2 = true := by simpa using hready
      exact (if_neg (by simp [hr])).trans (if_pos (by simpa using hbad))
  · have hexec : exec .bbread s = execBbread s := rfl
    rw [execBbread] at hexec
    refine statuses_of_answers h hexec (fun hgood hmiss => ?_) (fun hbad hready hports => ?_)
    · have hnot : s.ready 2 = false ∨ s.ready 3 = false := by simpa using hmiss
      exact if_pos (by simp [hnot])
    · have hr : s.ready 2 = true ∧ s.ready 3 = true := by simpa using hready
      exact (if_neg (by simp [hr])).trans (if_pos (by simp; omega))
  · have hexec : exec .xfer s = execXfer s := rfl
    rw [execXfer] at hexec
    refine statuses_of_answers h hexec (fun hgood hmiss => ?_) (fun hbad hready hports => ?_)
    · have hnot : s.ready 2 = false ∨ s.upPorts (BitVec.ofNat 24 (a 0)) = [] := by simpa using hmiss
      have hlow : a 0 < 16777216 := by omega
      exact if_pos (by simpa [hlow] using hnot)
    · have hr : s.ready 2 = true := by simpa using hready
      have hup : s.upPorts (BitVec.ofNat 24 (a 0)) ≠ [] := List.ne_nil_of_length_pos hports
      exact (if_neg (by simp [hr, hup])).trans (if_pos (by simpa [or_assoc] using hbad))
  · have hexec : exec .ckpt s = execCkpt s := rfl
    rw [execCkpt] at hexec
    refine statuses_of_answers h hexec (fun hgood hmiss => ?_) (fun hbad hready hports => ?_)
    · have hnot : (s.ready 7 = false ∨ s.ready 2 = false) ∨ (s.upPorts (BitVec.ofNat 24 (a 0))).length < 4 := by simpa using hmiss
      exact if_pos (by simp [hnot])
    · have hr : s.ready 7 = true ∧ s.ready 2 = true := by simpa using hready
      have hup : 4 ≤ (s.upPorts (BitVec.ofNat 24 (a 0))).length := hports
      exact (if_neg (by simp [hr, hup])).trans (if_pos (by simpa using hbad))
  · have hexec : exec .pwrcap s = execPwrcap s := rfl
    rw [execPwrcap] at hexec
    exact statuses_of_answers h hexec (fun _ hmiss => by simp at hmiss) (fun hbad _ _ => if_pos (by simp; omega))

/-! ## Jobs (R417, R419) -/

theorem find_freeSlot {s : State} {i : Nat} (h : FreeSlot s i) :
    (List.range 4).find? (fun k => (smFind s.host.jobs k).isNone) = some i := by
  obtain ⟨hlt, hfree, hfull⟩ := h
  rw [List.find?_range_eq_some]
  refine ⟨by simp [hfree], by simpa using hlt, fun k hk => ?_⟩
  simpa [Option.isSome_iff_ne_none] using hfull k hk

theorem find_noSlot {s : State} (h : ∀ i, i < 4 → smFind s.host.jobs i ≠ none) :
    (List.range 4).find? (fun k => (smFind s.host.jobs k).isNone) = none := by
  rw [List.find?_eq_none]
  intro i hi
  simpa using h i (List.mem_range.mp hi)

theorem startJob_free {s : State} {i : Nat} {j : Job} (h : FreeSlot s i) :
    s.startJob j = some ⟨withJob s i { j with num := s.host.nextJob }, 0, BitVec.ofNat 64 s.host.nextJob, 0⟩ := by
  simp only [State.startJob, find_freeSlot h, withJob]

theorem startJob_full {s : State} {j : Job} (h : ∀ i, i < 4 → smFind s.host.jobs i ≠ none) : s.startJob j = refused s := by
  simp only [State.startJob, find_noSlot h]

/-! ## The results of each command -/

section Results

variable {s : State} {args : List W64} {a : Nat → Nat}

theorem setq_result (h : Latched s 0x09 args a) (hr : s.ready 4 = true) (hlo : 16 ≤ a 0) (hhi : a 0 ≤ 24) :
    exec .setq s = .next (({ s with host := { s.host with qexpNext := a 0 } } : State).finishCommand 0 0 0) := by
  rw [show exec .setq s = execSetq s from rfl, execSetq]
  exact runCommand_done h ((if_neg (by simp [hr])).trans (if_neg (by simp; omega)))

theorem clrerr_core (h : Latched s 0x0A args a) (hm : a 1 = 1) (hn : a 0 < 1024) :
    exec .clrerr s = .next ((s.setCore (a 0) { s.core (a 0) with ecor := 0 }).finishCommand 0 0 0) := by
  rw [show exec .clrerr s = execClrerr s from rfl, execClrerr]
  refine runCommand_done h ?_
  simp [hm, Nat.not_le.mpr hn, Nat.testBit]

theorem clrerr_port (h : Latched s 0x0A args a) (hm : a 1 = 8) (hn : a 0 < 24) :
    exec .clrerr s = .next ((s.setPort (a 0) { s.port (a 0) with fcor := 0 }).finishCommand 0 0 0) := by
  rw [show exec .clrerr s = execClrerr s from rfl, execClrerr]
  refine runCommand_done h ?_
  simp [hm, Nat.not_le.mpr hn, Nat.testBit]

theorem setthr_result (h : Latched s 0x0B args a) (hr : s.ready 3 = true) (hlo : 1 ≤ a 0) (hhi : a 0 < 2 ^ 32) :
    exec .setthr s
      = .next (({ s with host := { s.host with eunThr := BitVec.ofNat 32 (a 0) } } : State).finishCommand 0 0 0) := by
  rw [show exec .setthr s = execSetthr s from rfl, execSetthr]
  exact runCommand_done h ((if_neg (by simp [hr])).trans (if_neg (by simp; omega)))

theorem retire_core (h : Latched s 0x0C args a) (hr : s.ready 3 = true) (hgo : s.stopping = false) (hn : a 0 < 1024)
    (hin : (s.core (a 0)).retired = false) (hup : (s.core (a 0)).failed = false) :
    exec .retire s = .next ((s.retireCore (a 0)).finishCommand 0 0 0) := by
  rw [show exec .retire s = execRetire s from rfl, execRetire]
  exact runCommand_done h ((if_neg (by simp [hr])).trans ((if_pos hn).trans
    ((if_neg (by simp [hin, hup])).trans (if_neg (by simp [hgo])))))

theorem retire_copy (h : Latched s 0x0C args a) (hr : s.ready 3 = true) (hgo : s.stopping = false) (hlo : 1024 ≤ a 0)
    (hhi : a 0 < 1280) (hin : (s.copyEngine (a 0 - 1024)).retired = false) :
    exec .retire s = .next ((s.retireCopy (a 0 - 1024)).finishCommand 0 0 0) := by
  rw [show exec .retire s = execRetire s from rfl, execRetire]
  exact runCommand_done h ((if_neg (by simp [hr])).trans ((if_neg (by omega)).trans ((if_pos hhi).trans
    ((if_neg (by simp [hin])).trans (if_neg (by simp [hgo]))))))

theorem retire_matrix (h : Latched s 0x0C args a) (hr : s.ready 3 = true) (hgo : s.stopping = false) (hlo : 2048 ≤ a 0)
    (hhi : a 0 < 2304) (hin : (s.matrixEng (a 0 - 2048)).retired = false) :
    exec .retire s = .next ((s.retireMatrix (a 0 - 2048) false).finishCommand 0 0 0) := by
  rw [show exec .retire s = execRetire s from rfl, execRetire]
  exact runCommand_done h ((if_neg (by simp [hr])).trans ((if_neg (by omega)).trans ((if_neg (by omega)).trans
    ((if_pos (by simp [hlo, hhi])).trans ((if_neg (by simp [hin])).trans (if_neg (by simp [hgo])))))))

theorem retire_again (h : Latched s 0x0C args a) (hr : s.ready 3 = true) (hn : a 0 < 1024)
    (hout : (s.core (a 0)).retired = true) : exec .retire s = .next (s.finishCommand 3 0 0) := by
  rw [show exec .retire s = execRetire s from rfl, execRetire]
  exact runCommand_refused h ((if_neg (by simp [hr])).trans ((if_pos hn).trans (if_pos (by simp [hout]))))

theorem summary_result (h : Latched s 0x0D args a) (hr : s.ready 2 = true) (hal : a 0 % 64 = 0) :
    exec .summary s = .next ((s.hostPut (a 0) s.summary).finishCommand 0 0 0) := by
  rw [show exec .summary s = execSummary s from rfl, execSummary]
  exact runCommand_done h ((if_neg (by simp [hr])).trans (if_neg (by simp [hal])))

theorem bbread_result (h : Latched s 0x0E args a) (hr2 : s.ready 2 = true) (hr3 : s.ready 3 = true) (hdie : a 0 < 4)
    (hseq : a 1 < 2 ^ 32) (hlo : 1 ≤ a 2) (hhi : a 2 ≤ 4096) {rs : List BlackBox}
    (hrs : rs = (s.die (a 0)).box.filter fun b => (b.seq - BitVec.ofNat 32 (a 1)).toNat < a 2) :
    exec .bbread s
      = .next ((s.hostPut (a 3) (rs.flatMap BlackBox.bytes)).finishCommand 0 (BitVec.ofNat 64 rs.length) 0) := by
  subst hrs
  rw [show exec .bbread s = execBbread s from rfl, execBbread]
  refine runCommand_latched (r := ⟨_, _, _, _⟩) h ((if_neg ?_).trans (if_neg ?_))
  · simp [hr2, hr3]
  · simp; omega

/-- What an XFER that can be performed asks for: a job, which is started or refused (R417). -/
theorem xfer_answer (h : Latched s 0x0F args a) (hr : s.ready 2 = true) (hports : a 0 < 2 ^ 24)
    (hup : s.upPorts (BitVec.ofNat 24 (a 0)) ≠ []) (hres : nfld (a 3) 62 40 = 0) (hlen : nfld (a 3) 39 0 % 128 = 0)
    (hal : a 1 % 128 = 0) (hend : a 1 + nfld (a 3) 39 0 ≤ Config.physEnd) {r : Answer}
    (hjob : s.startJob ⟨0, false, BitVec.ofNat 24 (a 0), a 1, BitVec.ofNat 64 (a 2), nfld (a 3) 39 0, (a 3).testBit 63,
      BitVec.ofNat 64 (a 4), 0⟩ = some r) : exec .xfer s = .next (r.s.finishCommand r.status r.res0 r.res1) := by
  rw [show exec .xfer s = execXfer s from rfl, execXfer]
  exact runCommand_latched h ((if_neg (by simp [hr, hup])).trans ((if_neg (by simp [hres, hlen, hal]; omega)).trans hjob))

theorem ckpt_answer (h : Latched s 0x10 args a) (hr7 : s.ready 7 = true) (hr2 : s.ready 2 = true)
    (hup : 4 ≤ (s.upPorts (BitVec.ofNat 24 (a 0))).length) (hports : a 0 < 2 ^ 24) (hres : a 3 % 2 ^ 63 = 0) {r : Answer}
    (hjob : s.startJob ⟨0, true, BitVec.ofNat 24 (a 0), 0, BitVec.ofNat 64 (a 1), Config.physEnd, (a 3).testBit 63,
      BitVec.ofNat 64 (a 4), 0⟩ = some r) : exec .ckpt s = .next (r.s.finishCommand r.status r.res0 r.res1) := by
  rw [show exec .ckpt s = execCkpt s from rfl, execCkpt]
  exact runCommand_latched h ((if_neg (by simp [hr7, hr2, hup])).trans
    ((if_neg (by simp; omega)).trans hjob))

theorem pwrcap_result (h : Latched s 0x11 args a) (hdie : a 0 < 4) (hlo : 300 ≤ a 1) (hhi : a 1 ≤ 1300) :
    exec .pwrcap s = .next ((s.setDie (a 0) { s.die (a 0) with cap := a 1 }).finishCommand 0 0 0) := by
  rw [show exec .pwrcap s = execPwrcap s from rfl, execPwrcap]
  refine runCommand_done h ?_
  exact if_neg (by simp; omega)

theorem unknownCommand_result {op : Nat} (h : Latched s op args a) (hop : op = 0 ∨ 0x11 < op) :
    exec .unknownCommand s = .next (s.finishCommand 4 0 0) := by
  rw [show exec .unknownCommand s = execUnknownCommand s from rfl, execUnknownCommand, h.command]
  exact if_neg (by simp; omega)

/-- An INVAL that is under way ends when nothing of the old translations is left (R215). -/
theorem invalComplete_result {v : Inval} (hv : s.host.inval = some v) (hdone : s.invalDone v = true) :
    exec .invalComplete s = .next (({ s with host := { s.host with inval := none } } : State).finishCommand 0 0 0) := by
  rw [show exec .invalComplete s = execInvalComplete s from rfl, execInvalComplete, hv]
  exact if_pos hdone

end Results

/-- Settles O54: each command is performed in the frame that reads its arguments, where it meets its own conditions in order. -/
theorem reportAndRepairCommands : Obligations.ReportAndRepairCommands := by
  refine ⟨fun s r hr args a h => commandsB_statuses hr h, fun s op args a h => ?_, fun s v hv hdone => invalComplete_result hv hdone⟩
  refine ⟨?_, ?_, ?_, ?_, ?_, ?_, ?_, ?_, ?_, fun hop => unknownCommand_result h hop⟩
  · rintro rfl
    exact setq_result h
  · rintro rfl
    exact ⟨clrerr_core h, clrerr_port h⟩
  · rintro rfl
    exact setthr_result h
  · rintro rfl hr hgo
    exact ⟨retire_core h hr hgo, retire_copy h hr hgo, retire_matrix h hr hgo, retire_again h hr⟩
  · rintro rfl
    exact summary_result h
  · rintro rfl hr2 hr3 hdie hseq hlo hhi
    exact ⟨_, rfl, bbread_result h hr2 hr3 hdie hseq hlo hhi rfl⟩
  · rintro rfl hr hports hup hres hlen hal hend
    exact ⟨fun hfull => xfer_answer h hr hports hup hres hlen hal hend (startJob_full hfull),
      fun i hi => xfer_answer h hr hports hup hres hlen hal hend (startJob_free hi)⟩
  · rintro rfl hr7 hr2 hup hports hres
    exact ⟨fun hfull => ckpt_answer h hr7 hr2 hup hports hres (startJob_full hfull),
      fun i hi => ckpt_answer h hr7 hr2 hup hports hres (startJob_free hi)⟩
  · rintro rfl
    exact pwrcap_result h

end Sys2Proof.Machine
end

section
/-!
PROOF. Deliveries that skip or start a tile, and the instructions of skip predicates.
-/
namespace Sys2Proof.Machine

open Claims

/-! ## A delivery (R361, R363) -/

theorem applied_skips {x : StepSet} {r : TileRec} {sum abs : Nat} (hv : r.valid x = true)
    (ht : withinThreshold x.thr.toNat sum abs r.refSum r.refAbs = true) (hrun : r.run < x.maxRun.toNat) :
    x.applied (some r) sum abs = { r with run := r.run + 1, skip := true, step := x.step.toNat } := by
  simp [StepSet.applied, hv, ht, hrun]

theorem applied_starts {x : StepSet} {r : TileRec} {sum abs : Nat}
    (h : r.valid x = false ∨ withinThreshold x.thr.toNat sum abs r.refSum r.refAbs = false ∨ x.maxRun.toNat ≤ r.run) :
    x.applied (some r) sum abs = ⟨sum, abs, 0, false, x.epoch.toNat, x.step.toNat⟩ := by
  refine if_neg fun hskip => ?_
  simp only [Bool.and_eq_true, decide_eq_true_eq] at hskip
  obtain ⟨⟨hv, ht⟩, hrun⟩ := hskip
  rcases h with h | h | h
  · exact absurd hv (by simp [h])
  · exact absurd ht (by simp [h])
  · omega

theorem deliverySkipsOrStarts : Claims.DeliverySkipsOrStarts := fun _ _ _ _ => ⟨applied_skips, applied_starts, rfl⟩

/-! ## A unit's translation that is done with (R213) -/

theorem unitDone_memoryKept (s : State) (c : Nat) (who : Waiter) : MemoryKept s (s.unitDone c who) := by
  unfold State.unitDone
  split <;> exact .of_cores rfl rfl

theorem unitDone_mem (s : State) (c : Nat) (who : Waiter) : (s.unitDone c who).mem = s.mem := by
  unfold State.unitDone
  split <;> rfl

/-! ## SKLD (R364, R368) -/

/-- The bytes of the records of a window that can be reached. -/
def State.recordBytes (s : State) (ctx n : Nat) (e : StepSet) (t0 : Nat) : List Nat :=
  (s.windowRecords ctx n e t0 false).flatMap fun p => p.2.toList.flatMap fun pa => run pa 16

theorem execSkld_posts {o : Ops} {s : State} {x : IC} {n : Nat} (hp : Plain s o.g (footOf .skld .w64 o) x)
    (hset : x.setNumber o.a true = .ok n) (hroom : x.g.cntLd < 63) (hup : s.sequencerUp n = true) {e : StepSet} {t0 : Nat}
    {pas : List Nat} {v : State} (he : e = (s.ctx x.g.ctx).set n) (ht0 : t0 = (x.val o.b true 0).toNat % 65536)
    (hpas : pas = s.recordBytes x.g.ctx n e t0) (hv : v = (x.issued s (footOf .skld .w64 o x)).intrude none pas false)
    (hwalks : s.recordsWait x.g.ctx n e (e.window t0) false = false) (hin : s.intrudeWaits none pas = false) :
    ∃ u g, exec (.skld o) s = .next (x.after u ((u.group? x.cu.gid).getD g)) ∧
      u = (v.postLoad x.cu.gid [] [] [opNum o.d]
        [.k (opNum o.d) (tagged (v.skipWindow x.g.ctx n e t0) (e.handle.setWidth 64))]).unitDone x.g.ctx (.sequencer n) := by
  have hroom' : ¬ 63 ≤ x.g.cntLd := Nat.not_le.2 hroom
  have hexec : exec (.skld o) s = execSkld o s := rfl
  subst hv hpas ht0 he
  rw [hexec, execSkld, issueWith_ready hp.ic hp.ready]
  simp only [State.recordBytes] at hin
  simp only [hset, hp.s_eq, hroom', hup, hwalks, hin, decide_false, Bool.not_true, Bool.or_self, Bool.false_eq_true, if_false]
  exact ⟨_, _, retire_after .., rfl⟩

theorem skldPosts {o : Ops} {s : State} {x : IC} {n : Nat} (hp : Plain s o.g (footOf .skld .w64 o) x)
    (hset : x.setNumber o.a true = .ok n) (hroom : x.g.cntLd < 63) (hup : s.sequencerUp n = true) {e : StepSet} {t0 : Nat}
    {pas : List Nat} {v : State} (he : e = (s.ctx x.g.ctx).set n) (ht0 : t0 = (x.val o.b true 0).toNat % 65536)
    (hpas : pas = s.recordBytes x.g.ctx n e t0) (hv : v = (x.issued s (footOf .skld .w64 o x)).intrude none pas false)
    (hwalks : s.recordsWait x.g.ctx n e (e.window t0) false = false) (hin : s.intrudeWaits none pas = false) :
    ∃ u g', exec (.skld o) s = .next (x.after u g') ∧ RegsSame x.g g' ∧ (s.tenures = [] → MemoryKept s u) ∧
      LoadPosted x.g g' [] [] [opNum o.d]
        [.k (opNum o.d) (tagged (v.skipWindow x.g.ctx n e t0) (e.handle.setWidth 64))] := by
  obtain ⟨u, g, hexec, hu⟩ := execSkld_posts hp hset hroom hup he ht0 hpas hv hwalks hin
  have hleave : LinesLeave (x.issued s (footOf .skld .w64 o x)) v := hv ▸ intrude_linesLeave ..
  obtain ⟨c, hread⟩ := hleave.group _ _ (issued_group x s (footOf .skld .w64 o x))
  have hgroup := postLoad_group [] [] [opNum o.d] [.k (opNum o.d) (tagged (v.skipWindow x.g.ctx n e t0) (e.handle.setWidth 64))]
    hread
  rw [hu, unitDone_get_group, hgroup, ← hu, Option.getD_some] at hexec
  obtain ⟨hregs, hposted, -, -⟩ := posted_spec (tracked_regsSame x (footOf .skld .w64 o x)) rfl rfl c _ _ [] [] [opNum o.d] _ rfl
  refine ⟨u, _, hexec, hregs, fun hfree => ?_, hposted⟩
  have hkept : MemoryKept s v := by
    rw [hv, intrude_free (s := x.issued s (footOf .skld .w64 o x)) none pas false hfree]
    exact issued_memoryKept ..
  rw [hu]
  exact (hkept.trans (postLoad_memoryKept ..)).trans (unitDone_memoryKept ..)

/-! ## A write event while no tenure is held -/

theorem keepPast_tenures (s : State) (ws : List WByte) : (s.keepPast ws).tenures = s.tenures := by
  unfold State.keepPast
  split
  · split <;> rfl
  · rfl

theorem putMem_tenures (s : State) (ws : List WByte) : (s.putMem ws).tenures = s.tenures := by
  unfold State.putMem
  exact (makeRooms_tenures ..).trans (keepPast_tenures s ws)

theorem memWrite_tenures {s : State} (who : Option Nat) (ws : List WByte) (h : s.tenures = []) :
    (s.memWrite who ws).tenures = [] := by
  unfold State.memWrite
  simp only [intrude_free who _ true h]
  exact (putMem_tenures ..).trans ((loseReservations_tenures s who _).trans h)

theorem memWrite_mem_of_up {s : State} (who : Option Nat) {ws : List WByte} (h : s.tenures = [])
    (hup : ∀ w ∈ ws, s.memUp w.addr = true) : (s.memWrite who ws).mem = bankWrite s.mem ws := by
  rw [(memWrite_free who ws h).2, List.filter_eq_self.mpr hup]

/-! ## The fields of a skipped tile's record (R361, R369) -/

/-- SKIP, EPOCH and STEP of a tile, of which a tile predicate says whether it is not to be skipped. -/
def StepSet.skipData (e : StepSet) (keep : Bool) : List Byte :=
  leBytes 1 (if keep then 0 else 1) ++ leBytes 2 e.epoch.toNat ++ leBytes 4 e.step.toNat

theorem skipData_length (e : StepSet) (keep : Bool) : (e.skipData keep).length = 7 := by simp [StepSet.skipData]

theorem skipBytes_eq (e : StepSet) (keep : Bool) (pa : Nat) : e.skipBytes (!keep) pa = wbytes (pa + 9) (e.skipData keep) := by
  cases keep <;> rfl

/-- SKST's write of one record of its window, where the record can be reached. -/
def StepSet.writeSkip (e : StepSet) (tiles : W64) (s : State) (p : Nat × Option Nat) : State :=
  match p.2 with
  | some pa => s.memWrite none (e.skipBytes (!tiles.getLsbD p.1) pa)
  | none => s

theorem writeSkip_keeps {P : State → Prop} (hmem : ∀ s ws, P s → P (s.memWrite none ws)) (e : StepSet) (tiles : W64) {s : State}
    (p : Nat × Option Nat) (h : P s) : P (e.writeSkip tiles s p) := by
  unfold StepSet.writeSkip
  split
  · exact hmem _ _ h
  · exact h

theorem writeSkips_linesLeave (e : StepSet) (tiles : W64) (recs : List (Nat × Option Nat)) (s : State) :
    LinesLeave s (recs.foldl (e.writeSkip tiles) s) :=
  .foldl (fun t p => writeSkip_keeps (P := LinesLeave t) (fun _ _ h => h.trans (memWrite_linesLeave ..)) e tiles p (.refl t)) _ _

theorem writeSkips_contextsAndDies (e : StepSet) (tiles : W64) (recs : List (Nat × Option Nat)) (s : State) :
    (recs.foldl (e.writeSkip tiles) s).contextsAndDies = s.contextsAndDies :=
  foldl_same State.contextsAndDies _
    (fun t p => writeSkip_keeps (P := fun u => u.contextsAndDies = t.contextsAndDies)
      (fun _ _ h => (memWrite_contextsAndDies ..).trans h) e tiles p rfl) recs s

/-- Two records have no byte in common. -/
def RecordsApart (a b : Nat) : Prop := a + 16 ≤ b ∨ b + 16 ≤ a

/-- What the writes of records apart leave in a memory that stands: the fields of each record, and every other byte. -/
theorem writeSkips_bytes (e : StepSet) (tiles : W64) {recs : List (Nat × Option Nat)} {s : State} (hfree : s.tenures = [])
    (hapart : (recs.filterMap (·.2)).Pairwise RecordsApart)
    (hup : ∀ pa ∈ recs.filterMap (·.2), ∀ i, i < 16 → s.memUp (pa + i) = true) :
    (∀ p ∈ recs, ∀ pa, p.2 = some pa → ∀ i, i < 7 →
      bankByte (recs.foldl (e.writeSkip tiles) s).mem (pa + 9 + i) = (e.skipData (tiles.getLsbD p.1)).getD i 0) ∧
    ∀ a, (∀ pa ∈ recs.filterMap (·.2), a < pa + 9 ∨ pa + 16 ≤ a) →
      bankByte (recs.foldl (e.writeSkip tiles) s).mem a = bankByte s.mem a := by
  induction recs generalizing s with
  | nil => exact ⟨nofun, fun _ _ => rfl⟩
  | cons p rest ih =>
    obtain ⟨b, r⟩ := p
    cases r with
    | none =>
      obtain ⟨hfields, hothers⟩ := ih hfree hapart hup
      refine ⟨fun q hq pa hpa => ?_, hothers⟩
      rcases List.mem_cons.mp hq with rfl | hq
      · cases hpa
      · exact hfields q hq pa hpa
    | some pa =>
      have hcons : ((b, some pa) :: rest).filterMap (·.2) = pa :: rest.filterMap (·.2) := rfl
      rw [hcons] at hapart hup
      obtain ⟨hfar, hapart⟩ := List.pairwise_cons.mp hapart
      have hstand : ∀ w ∈ e.skipBytes (!tiles.getLsbD b) pa, s.memUp w.addr = true := by
        intro w hw
        rw [skipBytes_eq] at hw
        have haddr : w.addr ∈ List.range' (pa + 9) 7 := by
          rw [← skipData_length e (tiles.getLsbD b), ← wbytes_addrs]
          exact List.mem_map_of_mem hw
        rw [List.mem_range'_1] at haddr
        have hbyte := hup pa List.mem_cons_self (w.addr - pa) (by omega)
        rwa [Nat.add_sub_cancel' (by omega)] at hbyte
      have hmem : (e.writeSkip tiles s (b, some pa)).mem = bankWrite s.mem (wbytes (pa + 9) (e.skipData (tiles.getLsbD b))) :=
        (memWrite_mem_of_up none hfree hstand).trans (by rw [skipBytes_eq])
      obtain ⟨hfields, hothers⟩ := ih (s := e.writeSkip tiles s (b, some pa)) (memWrite_tenures none _ hfree) hapart
        fun q hq i hi => (memUp_of_contextsAndDies (memWrite_contextsAndDies ..) _).trans (hup q (List.mem_cons_of_mem _ hq) i hi)
      refine ⟨fun q hq qa hqa i hi => ?_, fun a ha => ?_⟩
      · rcases List.mem_cons.mp hq with rfl | hq
        · cases hqa
          refine (hothers _ fun c hc => ?_).trans ?_
          · have := hfar c hc
            unfold RecordsApart at this
            omega
          · have hi' : i < (e.skipData (tiles.getLsbD b)).length := by rwa [skipData_length]
            rw [hmem, bankByte_write_wbytes _ _ _ hi', List.getD_eq_getElem _ _ hi']
        · exact hfields q hq qa hqa i hi
      · rw [hcons] at ha
        obtain ⟨hhere, hrest⟩ := List.forall_mem_cons.mp ha
        refine (hothers a hrest).trans ?_
        rw [hmem]
        exact bankByte_write_wbytes_other _ _ (by rw [skipData_length]; omega)

/-! ## SKST (R369) -/

/-- The state that an SKST leaves its set in: RANGE where a record cannot be reached. -/
def IC.skipped (x : IC) (n : Nat) (s t : State) (recs : List (Nat × Option Nat)) : State :=
  (if recs.any (·.2.isNone) then t.setCtx x.g.ctx ((s.ctx x.g.ctx).setSet n (((s.ctx x.g.ctx).set n).flag 2)) else t).unitDone
    x.g.ctx (.sequencer n)

theorem skipped_mem (x : IC) (n : Nat) (s t : State) (recs : List (Nat × Option Nat)) : (x.skipped n s t recs).mem = t.mem := by
  unfold IC.skipped
  rw [unitDone_mem]
  split <;> rfl

theorem skipped_group (x : IC) (n : Nat) (s t : State) (recs : List (Nat × Option Nat)) (gid : Nat) :
    (x.skipped n s t recs).group? gid = t.group? gid := by
  unfold IC.skipped
  rw [unitDone_get_group]
  split <;> rfl

theorem skipped_set (x : IC) (n : Nat) {s t : State} (recs : List (Nat × Option Nat)) (h : t.ctx x.g.ctx = s.ctx x.g.ctx)
    {e : StepSet} (he : e = (s.ctx x.g.ctx).set n) : ((x.skipped n s t recs).ctx x.g.ctx).set n
      = if recs.any (·.2.isNone) then { e with flags := e.flags ||| 4 } else e := by
  subst he
  unfold IC.skipped
  rw [unitDone_get_ctx]
  split
  · rw [State.setCtx_get_self]
    exact smGet_smSet_self ..
  · rw [h]

theorem execSkst_writes {o : Ops} {s : State} {x : IC} {n : Nat} (hp : Plain s o.g (footOf .skst .w64 o) x)
    (hset : x.setNumber o.a true = .ok n) (hup : s.sequencerUp n = true) {e : StepSet} {t0 : Nat}
    {recs : List (Nat × Option Nat)} (he : e = (s.ctx x.g.ctx).set n) (ht0 : t0 = (x.val o.b true 0).toNat % 65536)
    (hrecs : recs = s.windowRecords x.g.ctx n e t0 true) (hwalks : s.recordsWait x.g.ctx n e (e.window t0) true = false)
    (hheld : (recs.filterMap (·.2)).any (fun pa => s.writeHeld pa 16) = false) :
    ∃ u g, exec (.skst o) s = .next (x.after u ((u.group? x.cu.gid).getD g)) ∧
      u = x.skipped n s (recs.foldl (e.writeSkip (x.g.k.getD (opNum o.d) ⟨0, 0, 0⟩).tiles) (x.issued s (footOf .skst .w64 o x)))
        recs := by
  have hexec : exec (.skst o) s = execSkst o s := rfl
  subst he ht0 hrecs
  rw [hexec, execSkst, issueWith_ready hp.ic hp.ready]
  simp only [hset, hp.s_eq, hup, hwalks, hheld, Bool.not_true, Bool.or_self, Bool.false_eq_true, if_false]
  exact ⟨_, _, retire_after .., rfl⟩

theorem skstWrites {o : Ops} {s : State} {x : IC} {n : Nat} (hp : Plain s o.g (footOf .skst .w64 o) x)
    (hset : x.setNumber o.a true = .ok n) (hup : s.sequencerUp n = true) {e : StepSet} {t0 : Nat}
    {recs : List (Nat × Option Nat)} (he : e = (s.ctx x.g.ctx).set n) (ht0 : t0 = (x.val o.b true 0).toNat % 65536)
    (hrecs : recs = s.windowRecords x.g.ctx n e t0 true) (hwalks : s.recordsWait x.g.ctx n e (e.window t0) true = false)
    (hheld : (recs.filterMap (·.2)).any (fun pa => s.writeHeld pa 16) = false) :
    ∃ u g', exec (.skst o) s = .next (x.after u g') ∧ RegsSame x.g g' ∧
      (u.ctx x.g.ctx).set n = (if recs.any (·.2.isNone) then { e with flags := e.flags ||| 4 } else e) ∧
      (s.tenures = [] → (recs.filterMap (·.2)).Pairwise RecordsApart →
        (∀ pa ∈ recs.filterMap (·.2), ∀ i, i < 16 → s.memUp (pa + i) = true) →
        (∀ p ∈ recs, ∀ pa, p.2 = some pa → ∀ i, i < 7 → bankByte u.mem (pa + 9 + i) =
          (e.skipData ((x.g.k.getD (opNum o.d) ⟨0, 0, 0⟩).tiles.getLsbD p.1)).getD i 0) ∧
        ∀ a, (∀ pa ∈ recs.filterMap (·.2), a < pa + 9 ∨ pa + 16 ≤ a) → bankByte u.mem a = bankByte s.mem a) := by
  obtain ⟨u, g, hexec, hu⟩ := execSkst_writes hp hset hup he ht0 hrecs hwalks hheld
  obtain ⟨c, hgroup⟩ := (writeSkips_linesLeave e (x.g.k.getD (opNum o.d) ⟨0, 0, 0⟩).tiles recs
    (x.issued s (footOf .skst .w64 o x))).group _ _ (issued_group x s (footOf .skst .w64 o x))
  rw [← skipped_group x n s _ recs, ← hu] at hgroup
  rw [hgroup, Option.getD_some] at hexec
  have hsame := tracked_regsSame x (footOf .skst .w64 o x)
  refine ⟨u, _, hexec, ⟨hsame.v, hsame.scalar, hsame.rmr, hsame.gsr, hsame.rng, hsame.traps, hsame.lanes⟩, ?_,
    fun hfree hapart hstand => ?_⟩
  · rw [hu]
    exact skipped_set x n recs (ctx_of_contextsAndDies (writeSkips_contextsAndDies ..) _) he
  · rw [hu, skipped_mem]
    exact writeSkips_bytes e _ hfree hapart hstand

theorem skipPredicates : Claims.SkipPredicates := by
  intro o s x n hset
  refine ⟨fun hp hroom hup => ?_, fun hp hup => ?_⟩
  · intro e t0 pas v hwalks hin
    exact skldPosts hp hset hroom hup rfl rfl rfl rfl hwalks hin
  · intro e recs hwalks hheld
    exact skstWrites hp hset hup rfl rfl rfl hwalks hheld

/-- Settles O41: a delivery by the three tests that it makes, SKLD by the posting of a load, SKST record by record. -/
theorem skipDeliveries : Obligations.SkipDeliveries := ⟨deliverySkipsOrStarts, skipPredicates⟩

end Sys2Proof.Machine
end
